-- ==== Sys2Proof/Word.lean ====
section
/-!
DEFINITION. The word types of the module (R2): bytes, 32-bit scalars, 64-bit double words, 512-bit vectors.
-/
namespace Sys2Proof

abbrev Byte := BitVec 8
abbrev Word := BitVec 32
abbrev DWord := BitVec 64
abbrev Vec := BitVec 512

end Sys2Proof
end

