-- ==== Sys2Proof/Config.lean ====
section
/-!
DEFINITION. What an implementation fixes, and the free values. An `opaque` constant has no body that a proof can
see, so a statement about it holds for every value it could have.
-/
namespace Sys2Proof.Config

/-- Compute dies (00, R3). -/
def cDies : Nat := 24
/-- X-dies 24 and 25 follow the C-dies (R3). -/
def dies : Nat := 26
def columns : Nat := 96
def rows : Nat := 48
/-- Entries of a dispatcher's region table (R125). -/
def regionEntries : Nat := 4608
/-- Tailor-core harts of a C-die, system-core harts of an X-die (00). -/
def tailorHarts : Nat := 4
def systemHarts : Nat := 32

/-- The features that firmware offers (R63, R64): bits 0 and 4 to 13; bits 1-3 and 14-127 are offered as 0.
DEDUCED, log 17. -/
def featOffer : BitVec 128 := 0x3FF1#128

/-- Free values: a field whose value the manual leaves undefined (R5). Log 4. -/
opaque freeDWord : Nat → BitVec 64
/-- Bytes of an RCI whose layout the manual leaves to the device (R275). Log 6. -/
opaque freeByte : Nat → Nat → BitVec 8
/-- The key of a partition's context images, which no agent can read: by partition, and by the number of its changes
(R135). Log 6. -/
opaque rciKey : Nat → Nat → BitVec 256

/-- Fused at manufacture (R66, R70, R71). Log 3. -/
opaque fusedLcs : BitVec 2
opaque fusedSvnMin : BitVec 32
opaque fusedKeyDigest : BitVec 256
opaque deviceSerial : BitVec 128
opaque romVersion : BitVec 64
/-- The firmware image in the flash of X-die 24 (index 0) and 25 (index 1) as manufactured (R66). Log 5. -/
opaque flashImage : Nat → List (BitVec 8)

/-- Where the Abuaby image begins in the body of the firmware image (R66), and the vendor key of life-cycle tokens
(R71). Log 5. -/
opaque abuabyStart : Nat
opaque vendorKey : BitVec 256

/-- The SPDM responder's certificate chain, its signature under the device identity key, and its random bytes (R68).
Published standard and device secrets, log 5. -/
opaque identityChain : Nat → List (BitVec 8)
opaque identitySign : List (BitVec 8) → List (BitVec 8)

/-- Column and row, within its die, of the switch at which an owner's memory controller for a physical address is
reached (R181, R187). Log 8. -/
opaque homeColumn : Nat → Nat → Nat
opaque homeRow : Nat → Nat → Nat
/-- Column and row of the switch at which a C-die's tailor cores are reached (R181). Log 8. -/
opaque coreColumn : Nat → Nat
opaque coreRow : Nat → Nat
/-- The side-log controller (0-7) that serves a physical or virtual offset of an owner (R195). Log 8. -/
opaque slogController : Nat → Nat → Nat
/-- Cycles after which a stop or an exit given in a cycle takes effect at the cell of a column and row; bounded by
R129 where it is used. Log 8. -/
opaque stopDelay : Nat → Nat → Nat → Nat
/-- Packets that one input VC buffer of a switch holds (R182). Log 8. -/
opaque vcDepth : Nat
/-- Bytes of the record store and of each save area (R84). Log 8. -/
opaque saveAreaBytes : Nat

/-- Largest payload of a port: 128 bytes doubled this often, modulo 6 (R45). Log 8. -/
opaque payloadLog : Nat → Nat → Nat

/-- Nominal supply of a die in mV, which the manual does not give (R32). Log 8. -/
opaque nominalMv : Nat → Nat

/-- Address of a launch's copy in the record store of a partition (R84). Log 8. -/
opaque storeAddr : Nat → Nat → BitVec 64

/-- Reached only when the interval refinement of a transcendental function runs out of fuel (R247). Log 13. -/
opaque transcendentalTail : Nat → BitVec 32 → Bool

end Sys2Proof.Config
end

