-- ==== Sys2Proof/Syntax.lean ====
section
/-!
DEFINITION. The syntax of the module's steps: operand codes, instruction-word fields, the data that events carry,
and `Instr`, one constructor per row of the opcode table.
-/
namespace Sys2Proof

/-- Format tags (R234). -/
inductive Fmt | i32 | f32 | bf16 | f16 | e4m3 | e5m2 | pb8 | pb4
  deriving DecidableEq, Repr

/-- Rounding modes (R242). -/
inductive Rnd | rne | rtz | rdn | rup
  deriving DecidableEq, Repr

/-- Token markers (R162). -/
inductive Marker | data | eos | refire | cfg
  deriving DecidableEq, Repr

/-- Scope codes (R88). -/
inductive Scope | cell | region | team | die | part | module | system
  deriving DecidableEq, Repr

/-- Fence orders (R276, R355). -/
inductive Order | acq | rel | acqrel | sc
  deriving DecidableEq, Repr

/-- Conditions of `mon.wait` (R276). -/
inductive Cond | ne | geu
  deriving DecidableEq, Repr

/-- The 64 operand codes (R263). -/
inductive Opnd
  | v (i : Fin 16) | s (i : Fin 16) | vi (i : Fin 4) | si (i : Fin 4) | ci (i : Fin 4)
  | vo (i : Fin 2) | so (i : Fin 2) | co (i : Fin 2) | voBoth | soBoth
  | imm | zero | lane | ctxn | p (i : Fin 8)
  deriving DecidableEq, Repr

/-- Marker test of a guard (R259 MKSEL, MKVAL). -/
inductive MkTest | none | vector (m : Marker) | scalar (m : Marker) | control (m : Marker)
  deriving DecidableEq, Repr

/-- Presence test of a guard (R155). A register is named by its operand code 0x00-0x1F. -/
inductive PrTest | none | present (a : BitVec 5) | absent (a : BitVec 5) | presentAbsent (a b : BitVec 5)
  deriving DecidableEq, Repr

/-- The fields of a CE instruction word with EN = 1, less the opcode (R259). -/
structure CEWord where
  ctx : BitVec 3
  vreq : BitVec 4
  sreq : BitVec 4
  creq : BitVec 4
  mkt : MkTest
  prt : PrTest
  pmask : BitVec 8
  pval : BitVec 8
  dst : Opnd
  sa : Opnd
  sb : Opnd
  sc : Opnd
  deqA : Bool
  deqB : Bool
  deqC : Bool
  deqP : Bool
  fmt : Fmt
  rnd : Rnd
  sat : Bool
  pset : Bool
  pdst : BitVec 3
  octx : Bool
  imm : Word
  deriving DecidableEq, Repr

/-- An integer register of a hart. -/
abbrev Reg := BitVec 5

/-- A physical cell (R3). -/
structure CellId where
  die : Nat
  col : Nat
  row : Nat
  deriving DecidableEq, Repr

/-- The three static networks (R179). -/
inductive Net | vec | scal | ctl
  deriving DecidableEq, Repr

/-- The ports of a switch: four neighbours and the local port (R179, R182). -/
inductive Dir | n | e | s | w | l
  deriving DecidableEq, Repr

/-- Input ports of a routing word (R268). -/
inductive PortIn | dir (d : Dir) | out (i : Fin 2) | sp (k : Fin 4)
  deriving DecidableEq, Repr

/-- A link: a seam (R15) or the Igelle edge link of a column, north or south (R22). -/
inductive LinkId | seam (n : Nat) | edge (north : Bool) (cx : Nat)
  deriving DecidableEq, Repr

/-- The lanes of a crossing (R16, R17). -/
inductive LaneClass | vec | scal | ctl | dyn
  deriving DecidableEq, Repr

/-- One lane of one crossing in one direction: `up` is toward the higher coordinate (east or south). -/
structure LaneId where
  link : LinkId
  crossing : Nat
  cls : LaneClass
  up : Bool
  deriving DecidableEq, Repr

/-- The memory tiers that a cold reset wipes (R67, R72). `cells`: the MEs and CE registers of a C-die. -/
inductive Tier | sram (x : Nat) | cells (die : Nat) | hbm (die : Nat) | lpddr (x : Nat)
  deriving DecidableEq, Repr

/-- Power states (R27). -/
inductive PowerState | active | idle | standby | off
  deriving DecidableEq, Repr

/-- What a TDISP message asks of a function (R33, R68). -/
inductive TdispMsg | lock | start | stop | state
  deriving DecidableEq, Repr

/-- SPDM 1.3 requests that the responder answers (R68). A session carries the keys of IDE streams and TDISP messages. -/
inductive SpdmReq
  | getVersion | getCertificate (slot : Nat) | getMeasurements (nonce : List Byte) (signed : Bool)
  | challenge (nonce : List Byte) | keyExchange | endSession
  /-- The key of an IDE stream: 0 to 63 selective, 64 the link's. -/
  | ideKey (stream : Nat) (key : BitVec 256)
  | tdisp (vf : Nat) (m : TdispMsg)
  deriving DecidableEq, Repr

/-- What an ECC check finds in the data that an access reads (R14, R166). -/
inductive EccSeen | clean | corrected | uncorrectable
  deriving DecidableEq, Repr

/-- A function's BARs: its mailbox page, its aperture, the recovery loader's 64 MiB (R37, R41, R69). -/
inductive Bar | bar0 | bar2 | bar4
  deriving DecidableEq, Repr

/-- The memory operation of a request from another module. A store's bytes are enabled one by one. -/
inductive EdgeOp
  | load (n : Nat)
  | store (data : List (Option Byte))
  | rmw (op : Nat) (size : Nat) (v new : Nat) (fmt : Fmt) (rnd : Rnd) (uns returns : Bool)
  | reduce (op : Nat) (fmt : Fmt) (scal : Bool) (data : BitVec 512) (mask : BitVec 16)
  deriving DecidableEq, Repr

/-- What a flit of an edge link brings from the next module (R22-R24): a beat before a packet's last, or a packet. The
numbers of launches and requests are those of the module that they belong to. -/
inductive EdgeIn
  | beat
  /-- A request for this module or one beyond it. -/
  | request (tag part vd : Nat) (asid : BitVec 16) (va : DWord) (op : EdgeOp)
  /-- The response to a request of this module, with a fault code or 0; `logged`: only the logged acknowledgement. -/
  | answer (req code : Nat) (logged : Bool) (data : List Byte)
  /-- The subtree of a launch of module `home`, for the lead dispatcher of module `dst`, with the record's copy (R91) and
  what it names in that module: the image and the level-1 teams that TEAMMASK excludes. -/
  | subtree (dst home launch part vd : Nat) (record : DWord) (copy image : List Byte) (masked : List Nat)
  /-- The subtree on module `at_` is over: the status with which it ended, its retired level-1 teams, its fault
  records and the first one's code. -/
  | ended (home launch at_ status : Nat) (teams : List Nat) (faults first : Nat)
  /-- The launch ends: so does its subtree on module `dst`. -/
  | killed (dst home launch status : Nat)
  /-- An instance of a subtree has arrived at a barrier of a level that spans modules (R308). -/
  | arrived (home launch level inst epoch : Nat)
  /-- Such a barrier releases on module `dst`. -/
  | released (dst home launch level team : Nat)
  deriving DecidableEq, Repr

/-- PCIe AtomicOps (R33, R42). -/
inductive HostAtomic
  | fetchAdd32 (v : Word) | fetchAdd64 (v : DWord) | swap32 (v : Word) | swap64 (v : DWord)
  | cas64 (cmp new : DWord) | cas128 (cmp new : BitVec 128)
  deriving DecidableEq, Repr

/-- UALink peer requests and RoCEv2 verbs (R46, R57). `send` is RoCEv2 only. -/
inductive PeerOp
  | load (n : Nat) | store (data : List Byte) | atomic (op : HostAtomic) | send (data : List Byte)
  deriving DecidableEq, Repr

/-- One copy context: physical die, engine 0-15, context 0-7 (R206). -/
structure CopyId where
  die : Nat
  eng : Nat
  ctx : Nat
  deriving DecidableEq, Repr

/-- RISC-V AMO operations, performed as the matching `atom` (R221). -/
inductive AmoOp | swap | add | xor | and | or | min | max | minu | maxu
  deriving DecidableEq, Repr

/-- An ordinary access of a hart to a hart address (R221, R377). `rd` receives the value of a load. -/
inductive HartAcc
  | load (addr : DWord) (size : Nat) (signed : Bool) (rd : Reg)
  /-- Into a floating-point register of a system core (log 9). -/
  | loadF (addr : DWord) (size : Nat) (rd : Reg)
  | store (addr : DWord) (size : Nat) (v : DWord)
  | amo (op : AmoOp) (addr : DWord) (size : Nat) (v : DWord) (rd : Reg)
  | lr (addr : DWord) (size : Nat) (rd : Reg)
  | sc (addr : DWord) (size : Nat) (v : DWord) (rd : Reg)
  deriving DecidableEq, Repr

/-- A register that REGISTER_WRITE names: a control-block register, or a CSR of a hart (R4, R378). -/
inductive RegTarget | block (die off : Nat) | csr (die hart num : Nat)
  deriving DecidableEq, Repr

/-- The steps of the module: one constructor per row of the opcode table. CE instructions carry their word's
fields, Xphido instructions their register and scope fields, events what the outside world or the schedule
supplies. -/
inductive Instr
  /-- NOP (R290). -/
  | nop (w : CEWord)
  /-- MOV (R291). -/
  | mov (w : CEWord)
  /-- STEER (R292). -/
  | steer (w : CEWord)
  /-- MERGE (R296). -/
  | merge (w : CEWord)
  /-- AMERGE (R297). -/
  | amerge (w : CEWord)
  /-- FILTER (R293). -/
  | filter (w : CEWord)
  /-- ABSORB (R294). -/
  | absorb (w : CEWord)
  /-- REPEAT (R298). -/
  | repeatTok (w : CEWord)
  /-- COUNT (R299). -/
  | count (w : CEWord)
  /-- MARK (R300). -/
  | mark (w : CEWord)
  /-- RFCLR (R301). -/
  | rfclr (w : CEWord)
  /-- PAND (R302). -/
  | pand (w : CEWord)
  /-- POR (R302). -/
  | por (w : CEWord)
  /-- PXOR (R302). -/
  | pxor (w : CEWord)
  /-- PNOT (R302). -/
  | pnot (w : CEWord)
  /-- PMOV (R302). -/
  | pmov (w : CEWord)
  /-- HALT (R303). -/
  | halt (w : CEWord)
  /-- EXIT (R304). -/
  | exit (w : CEWord)
  /-- TRAP (R306). -/
  | trap (w : CEWord)
  /-- BRK (R306). -/
  | brk (w : CEWord)
  /-- ADD (R315). -/
  | add (w : CEWord)
  /-- SUB (R315). -/
  | sub (w : CEWord)
  /-- MUL (R315). -/
  | mul (w : CEWord)
  /-- MULHS (R315). -/
  | mulhs (w : CEWord)
  /-- MULHU (R315). -/
  | mulhu (w : CEWord)
  /-- MAD (R315). -/
  | mad (w : CEWord)
  /-- DIVS (R316). -/
  | divs (w : CEWord)
  /-- DIVU (R316). -/
  | divu (w : CEWord)
  /-- REMS (R316). -/
  | rems (w : CEWord)
  /-- REMU (R316). -/
  | remu (w : CEWord)
  /-- ADD_SAT (R317). -/
  | addSat (w : CEWord)
  /-- ADD_SATU (R317). -/
  | addSatu (w : CEWord)
  /-- SUB_SAT (R317). -/
  | subSat (w : CEWord)
  /-- SUB_SATU (R317). -/
  | subSatu (w : CEWord)
  /-- AND (R318). -/
  | and (w : CEWord)
  /-- OR (R318). -/
  | or (w : CEWord)
  /-- XOR (R318). -/
  | xor (w : CEWord)
  /-- ANDN (R318). -/
  | andn (w : CEWord)
  /-- NOT (R318). -/
  | not (w : CEWord)
  /-- SHL (R318). -/
  | shl (w : CEWord)
  /-- SHR (R318). -/
  | shr (w : CEWord)
  /-- SAR (R318). -/
  | sar (w : CEWord)
  /-- ROL (R318). -/
  | rol (w : CEWord)
  /-- CLZ (R318). -/
  | clz (w : CEWord)
  /-- POPC (R318). -/
  | popc (w : CEWord)
  /-- MINS (R315). -/
  | mins (w : CEWord)
  /-- MINU (R315). -/
  | minu (w : CEWord)
  /-- MAXS (R315). -/
  | maxs (w : CEWord)
  /-- MAXU (R315). -/
  | maxu (w : CEWord)
  /-- ABS (R315). -/
  | abs (w : CEWord)
  /-- NEG (R315). -/
  | neg (w : CEWord)
  /-- CMP_EQ (R319). -/
  | cmpEq (w : CEWord)
  /-- CMP_NE (R319). -/
  | cmpNe (w : CEWord)
  /-- CMP_LT (R319). -/
  | cmpLt (w : CEWord)
  /-- CMP_LE (R319). -/
  | cmpLe (w : CEWord)
  /-- CMP_LTU (R319). -/
  | cmpLtu (w : CEWord)
  /-- CMP_LEU (R319). -/
  | cmpLeu (w : CEWord)
  /-- SEL (R320). -/
  | sel (w : CEWord)
  /-- BFX (R321). -/
  | bfx (w : CEWord)
  /-- BFI (R321). -/
  | bfi (w : CEWord)
  /-- BCAST (R329). -/
  | bcast (w : CEWord)
  /-- SHUF (R329). -/
  | shuf (w : CEWord)
  /-- LROT (R329). -/
  | lrot (w : CEWord)
  /-- REDADD (R330). -/
  | redadd (w : CEWord)
  /-- REDMIN (R330). -/
  | redmin (w : CEWord)
  /-- REDMAX (R330). -/
  | redmax (w : CEWord)
  /-- SCAN (R331). -/
  | scan (w : CEWord)
  /-- CMPR (R332). -/
  | cmpr (w : CEWord)
  /-- EXPD (R332). -/
  | expd (w : CEWord)
  /-- LMASK (R333). -/
  | lmask (w : CEWord)
  /-- INSL (R329). -/
  | insl (w : CEWord)
  /-- EXTL (R334). -/
  | extl (w : CEWord)
  /-- FADD (R323). -/
  | fadd (w : CEWord)
  /-- FSUB (R323). -/
  | fsub (w : CEWord)
  /-- FMUL (R323). -/
  | fmul (w : CEWord)
  /-- FMA (R323). -/
  | fma (w : CEWord)
  /-- FMIN (R323). -/
  | fmin (w : CEWord)
  /-- FMAX (R323). -/
  | fmax (w : CEWord)
  /-- FABS (R323). -/
  | fabs (w : CEWord)
  /-- FNEG (R323). -/
  | fneg (w : CEWord)
  /-- FCMP_EQ (R324). -/
  | fcmpEq (w : CEWord)
  /-- FCMP_LT (R324). -/
  | fcmpLt (w : CEWord)
  /-- FCMP_LE (R324). -/
  | fcmpLe (w : CEWord)
  /-- FCMP_UN (R324). -/
  | fcmpUn (w : CEWord)
  /-- FDIV (R323). -/
  | fdiv (w : CEWord)
  /-- FSQRT (R323). -/
  | fsqrt (w : CEWord)
  /-- FRCP (R323). -/
  | frcp (w : CEWord)
  /-- FRSQ (R323). -/
  | frsq (w : CEWord)
  /-- FEXP2 (R323). -/
  | fexp2 (w : CEWord)
  /-- FLOG2 (R323). -/
  | flog2 (w : CEWord)
  /-- FTANH (R323). -/
  | ftanh (w : CEWord)
  /-- FROUND (R325). -/
  | fround (w : CEWord)
  /-- FCLASS (R326). -/
  | fclass (w : CEWord)
  /-- FSCALE (R327). -/
  | fscale (w : CEWord)
  /-- CVT (R337). -/
  | cvt (w : CEWord)
  /-- RETAG (R338). -/
  | retag (w : CEWord)
  /-- PACK (R339). -/
  | pack (w : CEWord)
  /-- UNPACK (R340). -/
  | unpack (w : CEWord)
  /-- PBQ (R341). -/
  | pbq (w : CEWord)
  /-- PBEXP_GET (R342). -/
  | pbexpGet (w : CEWord)
  /-- PBEXP_SET (R342). -/
  | pbexpSet (w : CEWord)
  /-- RNG (R343). -/
  | rng (w : CEWord)
  /-- WLD (R345). -/
  | wld (w : CEWord)
  /-- WLDT (R346). -/
  | wldt (w : CEWord)
  /-- WCLR (R347). -/
  | wclr (w : CEWord)
  /-- MMA (R349). -/
  | mma (w : CEWord)
  /-- MMZ (R349). -/
  | mmz (w : CEWord)
  /-- LDS (R356). -/
  | lds (w : CEWord)
  /-- STS (R356). -/
  | sts (w : CEWord)
  /-- LDG (R357). -/
  | ldg (w : CEWord)
  /-- STG (R357). -/
  | stg (w : CEWord)
  /-- ATOM_ADD (R358). -/
  | atomAdd (w : CEWord)
  /-- ATOM_MIN (R358). -/
  | atomMin (w : CEWord)
  /-- ATOM_MAX (R358). -/
  | atomMax (w : CEWord)
  /-- ATOM_XCHG (R358). -/
  | atomXchg (w : CEWord)
  /-- ATOM_CAS (R358). -/
  | atomCas (w : CEWord)
  /-- ATOM_AND (R358). -/
  | atomAnd (w : CEWord)
  /-- ATOM_OR (R358). -/
  | atomOr (w : CEWord)
  /-- FE_SET (R360). -/
  | feSet (w : CEWord)
  /-- FE_CLR (R360). -/
  | feClr (w : CEWord)
  /-- FE_TEST (R360). -/
  | feTest (w : CEWord)
  /-- RING_RES (R361). -/
  | ringRes (w : CEWord)
  /-- RING_PUB (R361). -/
  | ringPub (w : CEWord)
  /-- RING_POP (R362). -/
  | ringPop (w : CEWord)
  /-- RING_PEEK (R362). -/
  | ringPeek (w : CEWord)
  /-- RING_CLOSE (R363). -/
  | ringClose (w : CEWord)
  /-- RING_STAT (R363). -/
  | ringStat (w : CEWord)
  /-- BOT_GIVE (R364). -/
  | botGive (w : CEWord)
  /-- BOT_TAKE (R365). -/
  | botTake (w : CEWord)
  /-- BASTE (R366). -/
  | baste (w : CEWord)
  /-- HEM (R368). -/
  | hem (w : CEWord)
  /-- PRESS_TEST (R369). -/
  | pressTest (w : CEWord)
  /-- BASTE_FINAL (R366). -/
  | basteFinal (w : CEWord)
  /-- SBAR (R370). -/
  | sbar (w : CEWord)
  /-- FENCE (R370). -/
  | fence (w : CEWord)
  /-- TL_WAIT (R371). -/
  | tlWait (w : CEWord)
  /-- TL_READ (R372). -/
  | tlRead (w : CEWord)
  /-- LOT_NEW (R373). -/
  | lotNew (w : CEWord)
  /-- LOT_END (R374). -/
  | lotEnd (w : CEWord)
  /-- TEAMID (R307). -/
  | teamid (w : CEWord)
  /-- TBAR (R308). -/
  | tbar (w : CEWord)
  /-- LAUNCH (R310). -/
  | launch (w : CEWord)
  /-- CLKRD (R311). -/
  | clkrd (w : CEWord)
  /-- RG_ALLOC (R383). -/
  | rgAlloc (rd rs1 rs2 : Reg)
  /-- RG_FREE (R389). -/
  | rgFree (rd rs1 : Reg)
  /-- RG_PLACE (R384). -/
  | rgPlace (rd rs1 rs2 : Reg)
  /-- RG_LOAD (R385). -/
  | rgLoad (rd rs1 rs2 : Reg)
  /-- RG_START (R386). -/
  | rgStart (rd rs1 rs2 : Reg)
  /-- RG_STOP (R387). -/
  | rgStop (rd rs1 : Reg)
  /-- RG_DRAIN (R387). -/
  | rgDrain (rd rs1 : Reg)
  /-- RG_SAVE (R388). -/
  | rgSave (rd rs1 rs2 : Reg)
  /-- RG_RESTORE (R388). -/
  | rgRestore (rd rs1 rs2 : Reg)
  /-- RG_KILL (R389). -/
  | rgKill (rd rs1 : Reg)
  /-- RG_SHUT (R389). -/
  | rgShut (rd rs1 : Reg)
  /-- RG_STAT (R389). -/
  | rgStat (rd rs1 rs2 : Reg)
  /-- LOT_SWEEP (R391). -/
  | lotSweep (rd : Reg)
  /-- CP_START (R392). -/
  | cpStart (rd rs1 rs2 : Reg)
  /-- CP_QUERY (R393). -/
  | cpQuery (rd rs1 rs2 : Reg)
  /-- CORE_TL_READ (R394). -/
  | coreTlRead (rd rs1 : Reg)
  /-- CORE_TL_WAIT (R394). -/
  | coreTlWait (rd rs1 rs2 : Reg)
  /-- TL_ADD (R394). -/
  | tlAdd (rd rs1 rs2 : Reg)
  /-- CORE_LAUNCH (R399). -/
  | coreLaunch (rd rs1 rs2 : Reg)
  /-- FQ_POP (R398). -/
  | fqPop (rd rs1 : Reg)
  /-- FW_SET (R400). -/
  | fwSet (rd rs1 rs2 : Reg)
  /-- PT_INV (R397). -/
  | ptInv (rd rs1 rs2 : Reg)
  /-- DBG_RD (R401). -/
  | dbgRd (rd rs1 rs2 : Reg)
  /-- DBG_WR (R401). -/
  | dbgWr (rd rs1 rs2 : Reg)
  /-- LDACQ_W (R395). -/
  | ldacqW (rd rs1 : Reg) (scope : Scope)
  /-- LDACQ_D (R395). -/
  | ldacqD (rd rs1 : Reg) (scope : Scope)
  /-- STREL_W (R395). -/
  | strelW (rs2 rs1 : Reg) (scope : Scope)
  /-- STREL_D (R395). -/
  | strelD (rs2 rs1 : Reg) (scope : Scope)
  /-- FENCE_P (R395). -/
  | fenceP (scope : Scope) (order : Order)
  /-- MON_WAIT (R396). -/
  | monWait (rd rs1 rs2 : Reg) (scope : Scope) (cond : Cond)
  /-- UNASSIGNED_XPHIDO_ENCODING (R277). -/
  | unassignedXphido (word : BitVec 32)
  /-- REGISTER_WRITE (R4). -/
  | registerWrite (t : RegTarget) (v : DWord)
  /-- COLD_RESET (R67). -/
  | coldReset
  /-- WIPE_COMPLETE (R72). -/
  | wipeComplete (t : Tier) (ok : Bool)
  /-- IMAGE_VERIFY_DONE (R66). -/
  | imageVerifyDone (x : Nat)
  /-- DIGEST_EXCHANGE (R67). -/
  | digestExchange (x : Nat)
  /-- BOOT_PATH_TIMEOUT (R67). -/
  | bootPathTimeout
  /-- SEAM_TRAINING (R21). -/
  | seamTraining (l : LinkId) (ok : Bool)
  /-- SPDM_REQUEST (R68). -/
  | spdmRequest (pf : Nat) (req : SpdmReq)
  /-- LIFECYCLE_TOKEN (R71). -/
  | lifecycleToken (pf : Nat) (target : BitVec 2) (serial nonce : List Byte) (sig : List Byte)
  /-- RECGO_WRITE (R69). -/
  | recgoWrite (x : Nat) (len : DWord)
  /-- PATCH_CLOCK_GATE (R9). -/
  | patchClockGate (die patch : Nat)
  /-- POWER_GATE_PATCH (R9). -/
  | powerGatePatch (die patch : Nat)
  /-- POWER_GATE_WAKE (R9). -/
  | powerGateWake (die patch : Nat)
  /-- DEFMAP_WRITE (R12). -/
  | defmapWrite (die w : Nat) (v : DWord)
  /-- FLIT_RECEIVE (R18). -/
  | flitReceive (l : LaneId) (seq : Nat) (crcOk ackOk : Bool) (inb : EdgeIn)
  /-- FLIT_REPLAY (R18). -/
  | flitReplay (l : LaneId)
  /-- REPLAY_TIMEOUT (R18). -/
  | replayTimeout (l : LaneId)
  /-- RETRAINING_LOCK (R19). -/
  | retrainingLock (l : LinkId) (crossing : Nat)
  /-- RETRAINING_TIMEOUT (R19). -/
  | retrainingTimeout (l : LinkId) (crossing : Nat)
  /-- CROSSING_TABLE_RESUME (R20). -/
  | crossingTableResume (l : LinkId) (up : Bool)
  /-- SEAMST_CLR (R21). -/
  | seamstClr (die port : Nat)
  /-- SEAMST_FAILIRQ_CLEAR (R21). -/
  | seamstFailirqClear (die port : Nat)
  /-- MODID_WRITE (R26). -/
  | modidWrite (die : Nat) (v : DWord)
  /-- POWER_STATE_CHANGE (R27). -/
  | powerStateChange (p : PowerState)
  /-- MONITOR_SAMPLE (R30). -/
  | monitorSample (die k : Nat) (volt : BitVec 16) (proc : BitVec 12) (temp : BitVec 16) (power : BitVec 16)
  /-- THROTTLE_RAISE (R29). -/
  | throttleRaise (die : Nat)
  /-- PWRLIM_WRITE (R31). -/
  | pwrlimWrite (x : Nat) (v : DWord)
  /-- INBOUND_POSTED_WRITE (R54). -/
  | inboundPostedWrite (x fn : Nat) (bar : Bar) (off : Nat) (data : List Byte) (relaxed : Bool)
  /-- INBOUND_WRITE_ACK (R53). -/
  | inboundWriteAck (x id : Nat)
  /-- INBOUND_READ (R55). -/
  | inboundRead (x fn : Nat) (bar : Bar) (tag off len : Nat)
  /-- INBOUND_ATOMICOP (R42). -/
  | inboundAtomicop (x fn tag off : Nat) (op : HostAtomic)
  /-- INBOUND_HOLD_TIMEOUT (R42). -/
  | inboundHoldTimeout (x id : Nat)
  /-- ATS_INVALIDATION (R34). -/
  | atsInvalidation (x fn : Nat)
  /-- FUNCTION_LEVEL_RESET (R36). -/
  | functionLevelReset (x fn : Nat)
  /-- MSLOT_WRITE (R38). -/
  | mslotWrite (x fn off : Nat) (data : List Byte)
  /-- MBXDB_WRITE (R38). -/
  | mbxdbWrite (x fn : Nat) (v : DWord)
  /-- MSG_LAUNCH (R39). -/
  | msgLaunch (x fn slot : Nat) (inRange : Bool)
  /-- MSG_CANCEL (R112). -/
  | msgCancel (x fn slot : Nat) (inRange : Bool)
  /-- MSG_MAPWIN (R40). -/
  | msgMapwin (x fn slot : Nat) (allowed : Bool)
  /-- MSG_QUERY (R40). -/
  | msgQuery (x fn slot : Nat)
  /-- FEAT_ACCEPT_WRITE (R63). -/
  | featAcceptWrite (pf : Nat) (v : BitVec 128)
  /-- FNCFG_WRITE (R44). -/
  | fncfgWrite (x fn : Nat) (v : DWord)
  /-- WINENT_WRITE (R43). -/
  | winentWrite (x : Nat) (v : DWord)
  /-- WINCTL_SYNC (R43). -/
  | winctlSync (x : Nat)
  /-- WINCTL_SYNC_DONE (R43). -/
  | winctlSyncDone (x : Nat)
  /-- WINST_CLR (R44). -/
  | winstClr (x fn : Nat)
  /-- UALINK_PEER_REQUEST (R47). -/
  | ualinkPeerRequest (x port : Nat) (ua : DWord) (op : PeerOp)
  /-- SHARED_RANGE_WRITE (R49). -/
  | sharedRangeWrite (x req : Nat)
  /-- SHARED_RANGE_GRANT (R49). -/
  | sharedRangeGrant (x : Nat) (line : Nat)
  /-- SHARED_RANGE_READ (R48). -/
  | sharedRangeRead (x req : Nat) (line : List Byte)
  /-- SHARED_RANGE_INVALIDATE (R50). -/
  | sharedRangeInvalidate (x : Nat) (line : Nat)
  /-- SHARED_INVALIDATE_ACK (R50). -/
  | sharedInvalidateAck (x : Nat) (line : Nat)
  /-- EXPENT_COMMIT (R51). -/
  | expentCommit (x : Nat) (v : DWord)
  /-- SRENT_COMMIT (R51). -/
  | srentCommit (x : Nat) (v : DWord)
  /-- SRENT_CLEAR_DONE (R51). -/
  | srentClearDone (x i : Nat)
  /-- UALINK_PORT_DOWN (R52). -/
  | ualinkPortDown (x port : Nat)
  /-- ROCE_REQUEST (R57). -/
  | roceRequest (x qp : Nat) (va : DWord) (op : PeerOp)
  /-- LAUNCH_FRAME (R60). -/
  | launchFrame (x : Nat) (payload : List Byte)
  /-- LAUNCH_FRAME_HOME_CHECK (R62). -/
  | launchFrameHomeCheck (x : Nat)
  /-- TENANT_BUCKET_REFILL (R60). -/
  | tenantBucketRefill (x tenant : Nat)
  /-- LFDROP_CLR (R61). -/
  | lfdropClr (x n : Nat)
  /-- TNENT_COMMIT (R61). -/
  | tnentCommit (x : Nat) (v : DWord)
  /-- PARTCFG_WRITE (R76). -/
  | partcfgWrite (die : Nat) (v : DWord)
  /-- XPART_WRITE (R77). -/
  | xpartWrite (x p : Nat) (v : DWord)
  /-- LRC_DONE (R80). -/
  | lrcDone (die port : Nat)
  /-- PARTITION_RESET (R80). -/
  | partitionReset (p : Nat)
  /-- FTLGC_WRITE (R82). -/
  | ftlgcWrite (x : Nat) (v : DWord)
  /-- FTLGC_HELD_CLEAR (R82). -/
  | ftlgcHeldClear (x : Nat)
  /-- FTL_GC_WINDOW (R82). -/
  | ftlGcWindow (x traffic : Nat) (wanted free : Bool)
  /-- LAUNCH_ISSUE (R93). -/
  | launchIssue (id : Nat)
  /-- IMAGE_LOAD_COMPLETE (R124). -/
  | imageLoadComplete (launch : Nat)
  /-- DISPATCHER_SUMMARY (R101). -/
  | dispatcherSummary (die : Nat)
  /-- AGEING_PROMOTION (R102). -/
  | ageingPromotion (launch : Nat)
  /-- SLICE_END (R107). -/
  | sliceEnd (launch : Nat)
  /-- SWITCH_TICK (R114). -/
  | switchTick (launch die : Nat)
  /-- SWITCH_READY (R115). -/
  | switchReady (launch die : Nat)
  /-- SWITCH_DEADLINE (R116). -/
  | switchDeadline (launch : Nat)
  /-- SWITCH_COMMIT (R115). -/
  | switchCommit (launch die : Nat)
  /-- SWITCH_ABORT (R116). -/
  | switchAbort (launch die : Nat)
  /-- VDCFG_WRITE (R97). -/
  | vdcfgWrite (die vd : Nat) (v : DWord)
  /-- LAUNCH_COMPLETION (R92). -/
  | launchCompletion (launch : Nat)
  /-- INSTANCE_RETIRE (R303). -/
  | instanceRetire (h : Word)
  /-- SEAM_FAILURE_MESSAGE (R119). -/
  | seamFailureMessage (die seam : Nat)
  /-- SEAM_FAILURE_STOP_TIMEOUT (R119). -/
  | seamFailureStopTimeout (h : Word)
  /-- QUIESCENCE (R129). -/
  | quiescence (h : Word)
  /-- FRONT_SETTLED (R130). -/
  | frontSettled (h : Word)
  /-- PDFQST_CLR (R144). -/
  | pdfqstClr (die : Nat)
  /-- SHUT_IDLE_TIMEOUT (R147). -/
  | shutIdleTimeout (h : Word)
  /-- TOKEN_HOP (R180). -/
  | tokenHop (cell : CellId) (net : Net) (src : PortIn)
  /-- DYNAMIC_PACKET_HOP (R182). -/
  | dynamicPacketHop (node : CellId) (out : Dir)
  /-- DNWGT_WRITE (R183). -/
  | dnwgtWrite (die w : Nat) (v : DWord)
  /-- AG_ELEMENT (R173). -/
  | agElement (cell : CellId) (k : Fin 4) (ecc : EccSeen)
  /-- AG_CONFIG_TOKEN (R176). -/
  | agConfigToken (cell : CellId) (k : Fin 4)
  /-- GLOBAL_REQUEST_ARRIVAL (R191). -/
  | globalRequestArrival (req : Nat) (cached : Bool) (ecc : EccSeen) (part : Option Nat)
  /-- SLOGCTL_KICK (R197). -/
  | slogctlKick (die i : Nat) (v : DWord)
  /-- SLOGCTL_DISCARD (R197). -/
  | slogctlDiscard (die i : Nat) (v : DWord)
  /-- DMAP_WRITE (R188). -/
  | dmapWrite (die i : Nat) (v : DWord)
  /-- VDASID_WRITE (R189). -/
  | vdasidWrite (die vd : Nat) (v : DWord)
  /-- SWEEP_COMPLETE (R201). -/
  | sweepComplete (die : Nat)
  /-- COPY_LINE (R210). -/
  | copyLine (c : CopyId) (line : Nat) (cached : Bool) (part : Option Nat)
  /-- COPY_COMPLETE (R206). -/
  | copyComplete (c : CopyId)
  /-- REQUEST_LANDS (R353). -/
  | requestLands (req : Nat)
  /-- PENDING_WAIT_COMPLETE (R219). -/
  | pendingWaitComplete (cell : CellId) (ctx : Fin 8)
  /-- TBAR_ARRIVAL (R308). -/
  | tbarArrival (h : Word) (level : Fin 8)
  /-- FE_SET_PERFORM (R360). -/
  | feSetPerform (id : Nat)
  /-- BASTE_PUBLISH (R366). -/
  | bastePublish (cell : CellId) (i : Fin 8)
  /-- BOT_TOKEN_SEND (R364). -/
  | botTokenSend (cell : CellId) (bank : Fin 8)
  /-- RG_DRAIN_TIMEOUT (R387). -/
  | rgDrainTimeout (die hart : Nat)
  /-- XPIRQ_CLEAR (R378). -/
  | xpirqClear (die hart : Nat) (v : DWord)
  /-- APERTURE_ACCESS (R377). -/
  | apertureAccess (die hart : Nat) (acc : HartAcc)
  /-- REMOTE_ME_ACCESS (R353). -/
  | remoteMeAccess (req : Nat) (ecc : EccSeen)
  /-- OUTBOUND_HOST_COMPLETION (R228). -/
  | outboundHostCompletion (req : Nat) (ok : Bool) (data : List Byte)
  /-- FIELD_LOG_FLUSH (R32). -/
  | fieldLogFlush
  /-- POWER_STATE_EXIT_DONE (R27). -/
  | powerStateExitDone
  deriving DecidableEq, Repr

end Sys2Proof
end

