-- ==== Sys2Proof/Decode.lean ====
section
/-!
DEFINITION. Decoding of the two encodings of the module (R259-R264 for CE instruction words, R276-R277 for Xphido
words), total and rejecting by name, and the encoder written from the same tables.
-/
namespace Sys2Proof

/-- Why a word is no instruction. -/
inductive DecodeError
  /-- EN = 0: the slot is empty (R259, R260). -/
  | empty
  /-- EN = 0 with another bit set (R260). -/
  | emptyNotZero
  /-- The opcode names no row of R264. -/
  | opcode
  /-- A guard field that R260 fixes at 0 is not 0. -/
  | guardField
  /-- Not a custom-0 or custom-1 word: none of the table's, but of the RISC-V base set, which a hart runs as such. -/
  | notXphido
  deriving DecidableEq, Repr

/-! ### Field codes -/

def Fmt.code : Fmt → BitVec 3
  | .i32 => 0 | .f32 => 1 | .bf16 => 2 | .f16 => 3 | .e4m3 => 4 | .e5m2 => 5 | .pb8 => 6 | .pb4 => 7

def Fmt.ofCode (c : BitVec 3) : Fmt :=
  match c.toNat with
  | 0 => .i32 | 1 => .f32 | 2 => .bf16 | 3 => .f16 | 4 => .e4m3 | 5 => .e5m2 | 6 => .pb8 | _ => .pb4

def Rnd.code : Rnd → BitVec 2
  | .rne => 0 | .rtz => 1 | .rdn => 2 | .rup => 3

def Rnd.ofCode (c : BitVec 2) : Rnd :=
  match c.toNat with
  | 0 => .rne | 1 => .rtz | 2 => .rdn | _ => .rup

def Marker.code : Marker → BitVec 2
  | .data => 0 | .eos => 1 | .refire => 2 | .cfg => 3

def Marker.ofCode (c : BitVec 2) : Marker :=
  match c.toNat with
  | 0 => .data | 1 => .eos | 2 => .refire | _ => .cfg

/-- Operand codes (R263). -/
def Opnd.code : Opnd → BitVec 6
  | .v i => BitVec.ofNat 6 i.val
  | .s i => BitVec.ofNat 6 (0x10 + i.val)
  | .vi i => BitVec.ofNat 6 (0x20 + i.val)
  | .si i => BitVec.ofNat 6 (0x24 + i.val)
  | .ci i => BitVec.ofNat 6 (0x28 + i.val)
  | .vo i => BitVec.ofNat 6 (0x2C + i.val)
  | .so i => BitVec.ofNat 6 (0x2E + i.val)
  | .co i => BitVec.ofNat 6 (0x30 + i.val)
  | .voBoth => 0x32 | .soBoth => 0x33 | .imm => 0x34 | .zero => 0x35 | .lane => 0x36 | .ctxn => 0x37
  | .p i => BitVec.ofNat 6 (0x38 + i.val)

def Opnd.ofCode (c : BitVec 6) : Opnd :=
  let n := c.toNat
  if n < 0x10 then .v (Fin.ofNat 16 n)
  else if n < 0x20 then .s (Fin.ofNat 16 (n - 0x10))
  else if n < 0x24 then .vi (Fin.ofNat 4 (n - 0x20))
  else if n < 0x28 then .si (Fin.ofNat 4 (n - 0x24))
  else if n < 0x2C then .ci (Fin.ofNat 4 (n - 0x28))
  else if n < 0x2E then .vo (Fin.ofNat 2 (n - 0x2C))
  else if n < 0x30 then .so (Fin.ofNat 2 (n - 0x2E))
  else if n < 0x32 then .co (Fin.ofNat 2 (n - 0x30))
  else if n = 0x32 then .voBoth
  else if n = 0x33 then .soBoth
  else if n = 0x34 then .imm
  else if n = 0x35 then .zero
  else if n = 0x36 then .lane
  else if n = 0x37 then .ctxn
  else .p (Fin.ofNat 8 (n - 0x38))

/-- MKSEL and MKVAL (R259). -/
def MkTest.sel : MkTest → BitVec 2
  | .none => 0 | .vector _ => 1 | .scalar _ => 2 | .control _ => 3

def MkTest.val : MkTest → BitVec 2
  | .none => 0 | .vector m => m.code | .scalar m => m.code | .control m => m.code

/-- MKVAL is 00 when MKSEL is 00 (R260). -/
def MkTest.ofCodes (sel val : BitVec 2) : Option MkTest :=
  match sel.toNat with
  | 0 => if val = 0 then some .none else none
  | 1 => some (.vector (Marker.ofCode val))
  | 2 => some (.scalar (Marker.ofCode val))
  | _ => some (.control (Marker.ofCode val))

def PrTest.mode : PrTest → BitVec 2
  | .none => 0 | .present _ => 1 | .absent _ => 2 | .presentAbsent _ _ => 3

def PrTest.pra : PrTest → BitVec 5
  | .none => 0 | .present a => a | .absent a => a | .presentAbsent a _ => a

def PrTest.prb : PrTest → BitVec 5
  | .presentAbsent _ b => b | _ => 0

/-- PRA and PRB are 0 when the guard tests no register, PRB is 0 unless PRMODE is 11 (R260). -/
def PrTest.ofCodes (mode : BitVec 2) (a b : BitVec 5) : Option PrTest :=
  match mode.toNat with
  | 0 => if a = 0 ∧ b = 0 then some .none else none
  | 1 => if b = 0 then some (.present a) else none
  | 2 => if b = 0 then some (.absent a) else none
  | _ => some (.presentAbsent a b)

/-- Scope codes 0, 1, 3 to 6 of the custom-1 forms; 2 and 7 are invalid there (R276). -/
def Scope.code : Scope → BitVec 3
  | .cell => 0 | .region => 1 | .team => 2 | .die => 3 | .part => 4 | .module => 5 | .system => 6

def Scope.ofHartCode (c : BitVec 3) : Option Scope :=
  match c.toNat with
  | 0 => some .cell | 1 => some .region | 3 => some .die | 4 => some .part | 5 => some .module | 6 => some .system
  | _ => none

def Order.code : Order → BitVec 2
  | .acq => 0 | .rel => 1 | .acqrel => 2 | .sc => 3

def Order.ofCode (c : BitVec 2) : Order :=
  match c.toNat with
  | 0 => .acq | 1 => .rel | 2 => .acqrel | _ => .sc

def Cond.code : Cond → BitVec 2
  | .ne => 0 | .geu => 1

def Cond.ofCode (c : BitVec 2) : Option Cond :=
  match c.toNat with
  | 0 => some .ne | 1 => some .geu | _ => none

def bitOf (b : Bool) : BitVec 1 := BitVec.ofBool b

/-! ### CE instruction words (R259) -/

/-- Bit `i` of a word. -/
def flag {n : Nat} (w : BitVec n) (i : Nat) : Bool := w.getLsbD i

/-- The fields of a word, less EN and OPC, when the guard fields that R260 fixes hold. -/
def CEWord.ofBits (w : BitVec 128) : Option CEWord :=
  match MkTest.ofCodes (w.extractLsb' 110 2) (w.extractLsb' 108 2),
    PrTest.ofCodes (w.extractLsb' 96 2) (w.extractLsb' 103 5) (w.extractLsb' 98 5) with
  | some mkt, some prt =>
    some
      { ctx := w.extractLsb' 124 3, vreq := w.extractLsb' 120 4, sreq := w.extractLsb' 116 4
        creq := w.extractLsb' 112 4, mkt := mkt, prt := prt
        pmask := w.extractLsb' 88 8, pval := w.extractLsb' 80 8
        dst := .ofCode (w.extractLsb' 65 6), sa := .ofCode (w.extractLsb' 59 6)
        sb := .ofCode (w.extractLsb' 53 6), sc := .ofCode (w.extractLsb' 47 6)
        deqA := flag w 46, deqB := flag w 45, deqC := flag w 44, deqP := flag w 43
        fmt := .ofCode (w.extractLsb' 40 3), rnd := .ofCode (w.extractLsb' 38 2)
        sat := flag w 37, pset := flag w 36, pdst := w.extractLsb' 33 3, octx := flag w 32
        imm := w.extractLsb' 0 32 }
  | _, _ => none

/-- The word of an opcode and its fields, EN = 1 (R259). -/
def CEWord.bits (opc : BitVec 9) (f : CEWord) : BitVec 128 :=
  ((1#1 ++ f.ctx ++ f.vreq ++ f.sreq ++ f.creq ++ f.mkt.sel ++ f.mkt.val ++ f.prt.pra ++ f.prt.prb ++ f.prt.mode
      ++ f.pmask ++ f.pval : BitVec 48)
    ++ (opc ++ f.dst.code ++ f.sa.code ++ f.sb.code ++ f.sc.code ++ bitOf f.deqA ++ bitOf f.deqB ++ bitOf f.deqC
      ++ bitOf f.deqP ++ f.fmt.code ++ f.rnd.code ++ bitOf f.sat ++ bitOf f.pset ++ f.pdst ++ bitOf f.octx
      : BitVec 48)
    ++ f.imm : BitVec 128)

/-- The opcode map (R264). -/
def ceOf (opc : BitVec 9) (f : CEWord) : Option Instr :=
  match opc.toNat with
  | 0x000 => some (.nop f)
  | 0x001 => some (.mov f)
  | 0x002 => some (.steer f)
  | 0x003 => some (.merge f)
  | 0x004 => some (.amerge f)
  | 0x005 => some (.filter f)
  | 0x006 => some (.absorb f)
  | 0x007 => some (.repeatTok f)
  | 0x008 => some (.count f)
  | 0x009 => some (.mark f)
  | 0x00A => some (.rfclr f)
  | 0x010 => some (.pand f)
  | 0x011 => some (.por f)
  | 0x012 => some (.pxor f)
  | 0x013 => some (.pnot f)
  | 0x014 => some (.pmov f)
  | 0x020 => some (.halt f)
  | 0x021 => some (.exit f)
  | 0x022 => some (.trap f)
  | 0x023 => some (.brk f)
  | 0x040 => some (.add f)
  | 0x041 => some (.sub f)
  | 0x042 => some (.mul f)
  | 0x043 => some (.mulhs f)
  | 0x044 => some (.mulhu f)
  | 0x045 => some (.mad f)
  | 0x046 => some (.divs f)
  | 0x047 => some (.divu f)
  | 0x048 => some (.rems f)
  | 0x049 => some (.remu f)
  | 0x04C => some (.addSat f)
  | 0x04D => some (.addSatu f)
  | 0x04E => some (.subSat f)
  | 0x04F => some (.subSatu f)
  | 0x050 => some (.and f)
  | 0x051 => some (.or f)
  | 0x052 => some (.xor f)
  | 0x053 => some (.andn f)
  | 0x054 => some (.not f)
  | 0x055 => some (.shl f)
  | 0x056 => some (.shr f)
  | 0x057 => some (.sar f)
  | 0x058 => some (.rol f)
  | 0x059 => some (.clz f)
  | 0x05A => some (.popc f)
  | 0x060 => some (.mins f)
  | 0x061 => some (.minu f)
  | 0x062 => some (.maxs f)
  | 0x063 => some (.maxu f)
  | 0x064 => some (.abs f)
  | 0x065 => some (.neg f)
  | 0x068 => some (.cmpEq f)
  | 0x069 => some (.cmpNe f)
  | 0x06A => some (.cmpLt f)
  | 0x06B => some (.cmpLe f)
  | 0x06C => some (.cmpLtu f)
  | 0x06D => some (.cmpLeu f)
  | 0x070 => some (.sel f)
  | 0x071 => some (.bfx f)
  | 0x072 => some (.bfi f)
  | 0x080 => some (.bcast f)
  | 0x081 => some (.shuf f)
  | 0x082 => some (.lrot f)
  | 0x083 => some (.redadd f)
  | 0x084 => some (.redmin f)
  | 0x085 => some (.redmax f)
  | 0x086 => some (.scan f)
  | 0x087 => some (.cmpr f)
  | 0x088 => some (.expd f)
  | 0x089 => some (.lmask f)
  | 0x08A => some (.insl f)
  | 0x08B => some (.extl f)
  | 0x0C0 => some (.fadd f)
  | 0x0C1 => some (.fsub f)
  | 0x0C2 => some (.fmul f)
  | 0x0C3 => some (.fma f)
  | 0x0C4 => some (.fmin f)
  | 0x0C5 => some (.fmax f)
  | 0x0C6 => some (.fabs f)
  | 0x0C7 => some (.fneg f)
  | 0x0C8 => some (.fcmpEq f)
  | 0x0C9 => some (.fcmpLt f)
  | 0x0CA => some (.fcmpLe f)
  | 0x0CB => some (.fcmpUn f)
  | 0x0D0 => some (.fdiv f)
  | 0x0D1 => some (.fsqrt f)
  | 0x0D2 => some (.frcp f)
  | 0x0D3 => some (.frsq f)
  | 0x0D4 => some (.fexp2 f)
  | 0x0D5 => some (.flog2 f)
  | 0x0D6 => some (.ftanh f)
  | 0x0D8 => some (.fround f)
  | 0x0D9 => some (.fclass f)
  | 0x0DA => some (.fscale f)
  | 0x120 => some (.cvt f)
  | 0x121 => some (.retag f)
  | 0x122 => some (.pack f)
  | 0x123 => some (.unpack f)
  | 0x124 => some (.pbq f)
  | 0x125 => some (.pbexpGet f)
  | 0x126 => some (.pbexpSet f)
  | 0x130 => some (.rng f)
  | 0x160 => some (.wld f)
  | 0x161 => some (.wldt f)
  | 0x162 => some (.wclr f)
  | 0x168 => some (.mma f)
  | 0x169 => some (.mmz f)
  | 0x180 => some (.lds f)
  | 0x181 => some (.sts f)
  | 0x182 => some (.ldg f)
  | 0x183 => some (.stg f)
  | 0x188 => some (.atomAdd f)
  | 0x189 => some (.atomMin f)
  | 0x18A => some (.atomMax f)
  | 0x18B => some (.atomXchg f)
  | 0x18C => some (.atomCas f)
  | 0x18D => some (.atomAnd f)
  | 0x18E => some (.atomOr f)
  | 0x190 => some (.feSet f)
  | 0x191 => some (.feClr f)
  | 0x192 => some (.feTest f)
  | 0x198 => some (.ringRes f)
  | 0x199 => some (.ringPub f)
  | 0x19A => some (.ringPop f)
  | 0x19B => some (.ringPeek f)
  | 0x19C => some (.ringClose f)
  | 0x19D => some (.ringStat f)
  | 0x1A0 => some (.botGive f)
  | 0x1A1 => some (.botTake f)
  | 0x1A8 => some (.baste f)
  | 0x1A9 => some (.hem f)
  | 0x1AA => some (.pressTest f)
  | 0x1AB => some (.basteFinal f)
  | 0x1B0 => some (.sbar f)
  | 0x1B1 => some (.fence f)
  | 0x1B2 => some (.tlWait f)
  | 0x1B3 => some (.tlRead f)
  | 0x1B8 => some (.lotNew f)
  | 0x1B9 => some (.lotEnd f)
  | 0x1F0 => some (.teamid f)
  | 0x1F1 => some (.tbar f)
  | 0x1F2 => some (.launch f)
  | 0x1F3 => some (.clkrd f)
  | _ => none

/-- Opcode and fields of a CE instruction (R264); none for every other step. -/
def Instr.ceParts : Instr → Option (BitVec 9 × CEWord)
  | .nop f => some (0x000#9, f)
  | .mov f => some (0x001#9, f)
  | .steer f => some (0x002#9, f)
  | .merge f => some (0x003#9, f)
  | .amerge f => some (0x004#9, f)
  | .filter f => some (0x005#9, f)
  | .absorb f => some (0x006#9, f)
  | .repeatTok f => some (0x007#9, f)
  | .count f => some (0x008#9, f)
  | .mark f => some (0x009#9, f)
  | .rfclr f => some (0x00A#9, f)
  | .pand f => some (0x010#9, f)
  | .por f => some (0x011#9, f)
  | .pxor f => some (0x012#9, f)
  | .pnot f => some (0x013#9, f)
  | .pmov f => some (0x014#9, f)
  | .halt f => some (0x020#9, f)
  | .exit f => some (0x021#9, f)
  | .trap f => some (0x022#9, f)
  | .brk f => some (0x023#9, f)
  | .add f => some (0x040#9, f)
  | .sub f => some (0x041#9, f)
  | .mul f => some (0x042#9, f)
  | .mulhs f => some (0x043#9, f)
  | .mulhu f => some (0x044#9, f)
  | .mad f => some (0x045#9, f)
  | .divs f => some (0x046#9, f)
  | .divu f => some (0x047#9, f)
  | .rems f => some (0x048#9, f)
  | .remu f => some (0x049#9, f)
  | .addSat f => some (0x04C#9, f)
  | .addSatu f => some (0x04D#9, f)
  | .subSat f => some (0x04E#9, f)
  | .subSatu f => some (0x04F#9, f)
  | .and f => some (0x050#9, f)
  | .or f => some (0x051#9, f)
  | .xor f => some (0x052#9, f)
  | .andn f => some (0x053#9, f)
  | .not f => some (0x054#9, f)
  | .shl f => some (0x055#9, f)
  | .shr f => some (0x056#9, f)
  | .sar f => some (0x057#9, f)
  | .rol f => some (0x058#9, f)
  | .clz f => some (0x059#9, f)
  | .popc f => some (0x05A#9, f)
  | .mins f => some (0x060#9, f)
  | .minu f => some (0x061#9, f)
  | .maxs f => some (0x062#9, f)
  | .maxu f => some (0x063#9, f)
  | .abs f => some (0x064#9, f)
  | .neg f => some (0x065#9, f)
  | .cmpEq f => some (0x068#9, f)
  | .cmpNe f => some (0x069#9, f)
  | .cmpLt f => some (0x06A#9, f)
  | .cmpLe f => some (0x06B#9, f)
  | .cmpLtu f => some (0x06C#9, f)
  | .cmpLeu f => some (0x06D#9, f)
  | .sel f => some (0x070#9, f)
  | .bfx f => some (0x071#9, f)
  | .bfi f => some (0x072#9, f)
  | .bcast f => some (0x080#9, f)
  | .shuf f => some (0x081#9, f)
  | .lrot f => some (0x082#9, f)
  | .redadd f => some (0x083#9, f)
  | .redmin f => some (0x084#9, f)
  | .redmax f => some (0x085#9, f)
  | .scan f => some (0x086#9, f)
  | .cmpr f => some (0x087#9, f)
  | .expd f => some (0x088#9, f)
  | .lmask f => some (0x089#9, f)
  | .insl f => some (0x08A#9, f)
  | .extl f => some (0x08B#9, f)
  | .fadd f => some (0x0C0#9, f)
  | .fsub f => some (0x0C1#9, f)
  | .fmul f => some (0x0C2#9, f)
  | .fma f => some (0x0C3#9, f)
  | .fmin f => some (0x0C4#9, f)
  | .fmax f => some (0x0C5#9, f)
  | .fabs f => some (0x0C6#9, f)
  | .fneg f => some (0x0C7#9, f)
  | .fcmpEq f => some (0x0C8#9, f)
  | .fcmpLt f => some (0x0C9#9, f)
  | .fcmpLe f => some (0x0CA#9, f)
  | .fcmpUn f => some (0x0CB#9, f)
  | .fdiv f => some (0x0D0#9, f)
  | .fsqrt f => some (0x0D1#9, f)
  | .frcp f => some (0x0D2#9, f)
  | .frsq f => some (0x0D3#9, f)
  | .fexp2 f => some (0x0D4#9, f)
  | .flog2 f => some (0x0D5#9, f)
  | .ftanh f => some (0x0D6#9, f)
  | .fround f => some (0x0D8#9, f)
  | .fclass f => some (0x0D9#9, f)
  | .fscale f => some (0x0DA#9, f)
  | .cvt f => some (0x120#9, f)
  | .retag f => some (0x121#9, f)
  | .pack f => some (0x122#9, f)
  | .unpack f => some (0x123#9, f)
  | .pbq f => some (0x124#9, f)
  | .pbexpGet f => some (0x125#9, f)
  | .pbexpSet f => some (0x126#9, f)
  | .rng f => some (0x130#9, f)
  | .wld f => some (0x160#9, f)
  | .wldt f => some (0x161#9, f)
  | .wclr f => some (0x162#9, f)
  | .mma f => some (0x168#9, f)
  | .mmz f => some (0x169#9, f)
  | .lds f => some (0x180#9, f)
  | .sts f => some (0x181#9, f)
  | .ldg f => some (0x182#9, f)
  | .stg f => some (0x183#9, f)
  | .atomAdd f => some (0x188#9, f)
  | .atomMin f => some (0x189#9, f)
  | .atomMax f => some (0x18A#9, f)
  | .atomXchg f => some (0x18B#9, f)
  | .atomCas f => some (0x18C#9, f)
  | .atomAnd f => some (0x18D#9, f)
  | .atomOr f => some (0x18E#9, f)
  | .feSet f => some (0x190#9, f)
  | .feClr f => some (0x191#9, f)
  | .feTest f => some (0x192#9, f)
  | .ringRes f => some (0x198#9, f)
  | .ringPub f => some (0x199#9, f)
  | .ringPop f => some (0x19A#9, f)
  | .ringPeek f => some (0x19B#9, f)
  | .ringClose f => some (0x19C#9, f)
  | .ringStat f => some (0x19D#9, f)
  | .botGive f => some (0x1A0#9, f)
  | .botTake f => some (0x1A1#9, f)
  | .baste f => some (0x1A8#9, f)
  | .hem f => some (0x1A9#9, f)
  | .pressTest f => some (0x1AA#9, f)
  | .basteFinal f => some (0x1AB#9, f)
  | .sbar f => some (0x1B0#9, f)
  | .fence f => some (0x1B1#9, f)
  | .tlWait f => some (0x1B2#9, f)
  | .tlRead f => some (0x1B3#9, f)
  | .lotNew f => some (0x1B8#9, f)
  | .lotEnd f => some (0x1B9#9, f)
  | .teamid f => some (0x1F0#9, f)
  | .tbar f => some (0x1F1#9, f)
  | .launch f => some (0x1F2#9, f)
  | .clkrd f => some (0x1F3#9, f)
  | _ => none

/-- Decoding of a CE instruction word. -/
def decodeCE (w : BitVec 128) : Except DecodeError Instr :=
  if flag w 127 = false then (if w = 0 then .error .empty else .error .emptyNotZero)
  else
    match CEWord.ofBits w with
    | none => .error .guardField
    | some f =>
      match ceOf (w.extractLsb' 71 9) f with
      | none => .error .opcode
      | some i => .ok i

/-! ### Xphido words (R276) -/

/-- The assigned custom-0 and custom-1 words; none for every other word (R277). -/
def xphidoOf (w : BitVec 32) : Option Instr :=
  let rd : Reg := w.extractLsb' 7 5
  let rs1 : Reg := w.extractLsb' 15 5
  let rs2 : Reg := w.extractLsb' 20 5
  let f3 := (w.extractLsb' 12 3).toNat
  let f7 := (w.extractLsb' 25 7).toNat
  let scope := Scope.ofHartCode (w.extractLsb' 25 3)
  if w.extractLsb' 0 7 = 0x0B#7 then
    match f3, f7 with
    | 0, 0x00 => some (.rgAlloc rd rs1 rs2)
    | 0, 0x01 => if rs2 = 0 then some (.rgFree rd rs1) else none
    | 0, 0x02 => some (.rgPlace rd rs1 rs2)
    | 0, 0x03 => some (.rgLoad rd rs1 rs2)
    | 0, 0x04 => some (.rgStart rd rs1 rs2)
    | 0, 0x05 => if rs2 = 0 then some (.rgStop rd rs1) else none
    | 0, 0x06 => if rs2 = 0 then some (.rgDrain rd rs1) else none
    | 0, 0x07 => some (.rgSave rd rs1 rs2)
    | 0, 0x08 => some (.rgRestore rd rs1 rs2)
    | 0, 0x09 => if rs2 = 0 then some (.rgKill rd rs1) else none
    | 0, 0x0A => if rs2 = 0 then some (.rgShut rd rs1) else none
    | 0, 0x0B => some (.rgStat rd rs1 rs2)
    | 0, 0x10 => if rs1 = 0 ∧ rs2 = 0 then some (.lotSweep rd) else none
    | 1, 0x00 => some (.cpStart rd rs1 rs2)
    | 1, 0x01 => some (.cpQuery rd rs1 rs2)
    | 1, 0x02 => if rs2 = 0 then some (.coreTlRead rd rs1) else none
    | 1, 0x03 => some (.coreTlWait rd rs1 rs2)
    | 1, 0x04 => some (.tlAdd rd rs1 rs2)
    | 2, 0x00 => some (.coreLaunch rd rs1 rs2)
    | 2, 0x01 => if rs2 = 0 then some (.fqPop rd rs1) else none
    | 2, 0x02 => some (.fwSet rd rs1 rs2)
    | 2, 0x03 => some (.ptInv rd rs1 rs2)
    | 2, 0x04 => some (.dbgRd rd rs1 rs2)
    | 2, 0x05 => some (.dbgWr rd rs1 rs2)
    | _, _ => none
  else if w.extractLsb' 0 7 = 0x2B#7 then
    match f3, scope with
    | 0, some sc =>
      if w.extractLsb' 29 3 = 0 ∧ rs2 = 0 then
        some (if flag w 28 then .ldacqD rd rs1 sc else .ldacqW rd rs1 sc)
      else none
    | 1, some sc =>
      if w.extractLsb' 29 3 = 0 ∧ rd = 0 then
        some (if flag w 28 then .strelD rs2 rs1 sc else .strelW rs2 rs1 sc)
      else none
    | 2, some sc =>
      if w.extractLsb' 30 2 = 0 ∧ rd = 0 ∧ rs1 = 0 ∧ rs2 = 0 then some (.fenceP sc (.ofCode (w.extractLsb' 28 2)))
      else none
    | 3, some sc =>
      if w.extractLsb' 30 2 = 0 then
        match Cond.ofCode (w.extractLsb' 28 2) with
        | some c => some (.monWait rd rs1 rs2 sc c)
        | none => none
      else none
    | _, _ => none
  else none

/-- Decoding of a hart's 32-bit word: an Xphido row, the illegal-instruction step for every other custom-0 or
custom-1 word, or a word of the base ISA. -/
def decodeHart (w : BitVec 32) : Except DecodeError Instr :=
  match xphidoOf w with
  | some i => .ok i
  | none =>
    if w.extractLsb' 0 7 = 0x0B#7 ∨ w.extractLsb' 0 7 = 0x2B#7 then .ok (.unassignedXphido w) else .error .notXphido

/-- The R-type layout (R276). -/
def rType (f7 : BitVec 7) (rs2 rs1 : Reg) (f3 : BitVec 3) (rd : Reg) (opc : BitVec 7) : BitVec 32 :=
  f7 ++ rs2 ++ rs1 ++ f3 ++ rd ++ opc

/-- The word of an Xphido step; none for every other step. -/
def Instr.xphidoWord : Instr → Option (BitVec 32)
  | .rgAlloc rd rs1 rs2 => some (rType 0x00 rs2 rs1 0 rd 0x0B)
  | .rgFree rd rs1 => some (rType 0x01 0 rs1 0 rd 0x0B)
  | .rgPlace rd rs1 rs2 => some (rType 0x02 rs2 rs1 0 rd 0x0B)
  | .rgLoad rd rs1 rs2 => some (rType 0x03 rs2 rs1 0 rd 0x0B)
  | .rgStart rd rs1 rs2 => some (rType 0x04 rs2 rs1 0 rd 0x0B)
  | .rgStop rd rs1 => some (rType 0x05 0 rs1 0 rd 0x0B)
  | .rgDrain rd rs1 => some (rType 0x06 0 rs1 0 rd 0x0B)
  | .rgSave rd rs1 rs2 => some (rType 0x07 rs2 rs1 0 rd 0x0B)
  | .rgRestore rd rs1 rs2 => some (rType 0x08 rs2 rs1 0 rd 0x0B)
  | .rgKill rd rs1 => some (rType 0x09 0 rs1 0 rd 0x0B)
  | .rgShut rd rs1 => some (rType 0x0A 0 rs1 0 rd 0x0B)
  | .rgStat rd rs1 rs2 => some (rType 0x0B rs2 rs1 0 rd 0x0B)
  | .lotSweep rd => some (rType 0x10 0 0 0 rd 0x0B)
  | .cpStart rd rs1 rs2 => some (rType 0x00 rs2 rs1 1 rd 0x0B)
  | .cpQuery rd rs1 rs2 => some (rType 0x01 rs2 rs1 1 rd 0x0B)
  | .coreTlRead rd rs1 => some (rType 0x02 0 rs1 1 rd 0x0B)
  | .coreTlWait rd rs1 rs2 => some (rType 0x03 rs2 rs1 1 rd 0x0B)
  | .tlAdd rd rs1 rs2 => some (rType 0x04 rs2 rs1 1 rd 0x0B)
  | .coreLaunch rd rs1 rs2 => some (rType 0x00 rs2 rs1 2 rd 0x0B)
  | .fqPop rd rs1 => some (rType 0x01 0 rs1 2 rd 0x0B)
  | .fwSet rd rs1 rs2 => some (rType 0x02 rs2 rs1 2 rd 0x0B)
  | .ptInv rd rs1 rs2 => some (rType 0x03 rs2 rs1 2 rd 0x0B)
  | .dbgRd rd rs1 rs2 => some (rType 0x04 rs2 rs1 2 rd 0x0B)
  | .dbgWr rd rs1 rs2 => some (rType 0x05 rs2 rs1 2 rd 0x0B)
  | .ldacqW rd rs1 sc => some (rType (0#4 ++ sc.code) 0 rs1 0 rd 0x2B)
  | .ldacqD rd rs1 sc => some (rType (1#4 ++ sc.code) 0 rs1 0 rd 0x2B)
  | .strelW rs2 rs1 sc => some (rType (0#4 ++ sc.code) rs2 rs1 1 0 0x2B)
  | .strelD rs2 rs1 sc => some (rType (1#4 ++ sc.code) rs2 rs1 1 0 0x2B)
  | .fenceP sc o => some (rType (0#2 ++ o.code ++ sc.code) 0 0 2 0 0x2B)
  | .monWait rd rs1 rs2 sc c => some (rType (0#2 ++ c.code ++ sc.code) rs2 rs1 3 rd 0x2B)
  | .unassignedXphido w => some w
  | _ => none

/-! ### Encoding and the table's numbering -/

/-- Bits and word of a step that has an encoding: 128 bits for a CE instruction, 32 for an Xphido word. -/
def encode (i : Instr) : Option (Nat × Nat) :=
  match i.ceParts with
  | some (opc, f) => some (128, (f.bits opc).toNat)
  | none =>
    match i.xphidoWord with
    | some w => some (32, w.toNat)
    | none => none

/-- The step that an encoding of `nbits` bits names, bit 0 the least significant bit of the first word. -/
def decodeWord (nbits w : Nat) : Except DecodeError Instr :=
  if nbits = 128 then decodeCE (BitVec.ofNat 128 w) else decodeHart (BitVec.ofNat 32 w)

def decodeTableWord (nbits w : Nat) : Option Instr :=
  match decodeWord nbits w with
  | .ok i => some i
  | .error _ => none

/-- The value of bytes at rising addresses, little-endian (R2). -/
def leNat : List Byte → Nat
  | [] => 0
  | b :: bs => b.toNat + 256 * leNat bs

end Sys2Proof
end

