-- ==== Sys2Proof/WellFormed.lean ====
section
/-!
DEFINITION. Well-formedness of the syntax: the static checks on a CE instruction word alone (R124 step 3 with R153,
R260-R263 and the encoding tables of chapters 11 to 14), the field limits of Xphido words (R276) and the ranges of
the arguments of events. Checks that need the image (R355 INDEX, R370, R365, R373) are made where it is loaded.
-/
namespace Sys2Proof

/-! ### Operand classes (R263) -/

/-- Codes of class vector as a source. The lane index is refused in scalar positions, log 18. -/
def Opnd.isVec : Opnd → Bool
  | .v _ | .vi _ | .lane => true
  | _ => false

/-- Codes of class scalar as a source. -/
def Opnd.isScal : Opnd → Bool
  | .s _ | .si _ | .ci _ | .imm | .zero | .ctxn | .p _ => true
  | _ => false

def Opnd.isSrc (o : Opnd) : Bool := o.isVec || o.isScal

def Opnd.isChan : Opnd → Bool
  | .vi _ | .si _ | .ci _ => true
  | _ => false

def Opnd.isReg : Opnd → Bool
  | .v _ | .s _ => true
  | _ => false

/-- Destinations that take a vector result. -/
def Opnd.isVecDst : Opnd → Bool
  | .v _ | .vo _ | .voBoth => true
  | _ => false

/-- Scalar-class destinations, predicates left out. -/
def Opnd.isScalDst : Opnd → Bool
  | .s _ | .so _ | .soBoth | .co _ => true
  | _ => false

def Opnd.isPred : Opnd → Bool
  | .p _ => true
  | _ => false

def Opnd.isOutChan : Opnd → Bool
  | .vo _ | .so _ | .co _ | .voBoth | .soBoth => true
  | _ => false

def Opnd.isZero (o : Opnd) : Bool := o == .zero
def Opnd.isImm (o : Opnd) : Bool := o == .imm
def Opnd.isSReg : Opnd → Bool
  | .s _ => true
  | _ => false

/-- Every destination but a predicate. -/
def Opnd.isDst (o : Opnd) : Bool := o.isVecDst || o.isScalDst || o.isZero

/-- Scalar-class source other than the immediate. -/
def Opnd.isScalReg (o : Opnd) : Bool := o.isScal && !o.isImm

/-! ### The rules every word meets -/

/-- A channel source is required by the guard (R153). -/
def CEWord.requires (w : CEWord) : Opnd → Bool
  | .vi i => w.vreq.getLsbD i.val
  | .si i => w.sreq.getLsbD i.val
  | .ci i => w.creq.getLsbD i.val
  | _ => true

/-- The guard's own rules: a marker test names a class with a required channel, PVAL lies in PMASK, DEQ[43] has a
register to clear (R153, R260). -/
def CEWord.guardOk (w : CEWord) : Bool :=
  (match w.mkt with
    | .none => true
    | .vector _ => w.vreq != 0
    | .scalar _ => w.sreq != 0
    | .control _ => w.creq != 0)
  && (w.pval &&& ~~~w.pmask) == 0
  && (match w.prt with
    | .none | .absent _ => !w.deqP
    | _ => true)

/-- What an encoding table permits in one row. -/
structure Form where
  dst : Opnd → Bool := Opnd.isZero
  a : Opnd → Bool := Opnd.isZero
  b : Opnd → Bool := Opnd.isZero
  c : Opnd → Bool := Opnd.isZero
  fmt : Fmt → Bool := (· == .i32)
  rnd : Bool := false
  sat : Bool := false
  pset : Bool := false
  octx : Bool := true
  /-- IMM bits that hold fields. -/
  fields : Word := 0

/-- One operand with its DEQ bit: required by the guard when it is a channel, and consumed only when it is a channel
or a register (R153, R260). -/
def CEWord.srcOk (w : CEWord) (o : Opnd) (deq : Bool) : Bool :=
  w.requires o && (!deq || o.isChan || o.isReg)

/-- IMM holds the immediate when a source names it, otherwise fields and, with OCTX = 1, the context in [2:0]
(R260, R262). The bits above [2:0] are 0 then, log 18. -/
def CEWord.immOk (w : CEWord) (fields : Word) : Bool :=
  w.sa.isImm || w.sb.isImm || w.sc.isImm
    || (w.imm &&& ~~~(fields ||| (if w.octx then 7 else 0))) == 0

def CEWord.meets (w : CEWord) (f : Form) : Bool :=
  w.guardOk && f.dst w.dst && f.a w.sa && f.b w.sb && f.c w.sc
    && w.srcOk w.sa w.deqA && w.srcOk w.sb w.deqB && w.srcOk w.sc w.deqC
    && f.fmt w.fmt && (f.rnd || w.rnd == .rne) && (f.sat || !w.sat)
    && (f.pset || !w.pset) && (w.pset || w.pdst == 0)
    && (f.octx || !w.octx) && w.immOk f.fields

/-- A vector source takes a vector destination (R263). -/
def CEWord.movShape (w : CEWord) (src : Opnd) : Bool :=
  !src.isVec || w.dst.isVecDst || w.dst.isZero

def CEWord.immBits (w : CEWord) (lo len : Nat) : Nat := (w.imm.extractLsb' lo len).toNat

/-! ### Chapter 11 (R287, R289) -/

/-- Inputs of `merge` and `amerge` in IMM (R295). -/
def CEWord.in0 (w : CEWord) : Opnd := .ofCode (w.imm.extractLsb' 0 6)
def CEWord.take0 (w : CEWord) : Bool := w.imm.getLsbD 6
def CEWord.in1 (w : CEWord) : Opnd := .ofCode (w.imm.extractLsb' 8 6)
def CEWord.take1 (w : CEWord) : Bool := w.imm.getLsbD 14

/-- Not tested by the guard and not SA (R295). -/
def CEWord.mergeFree (w : CEWord) (o : Opnd) : Bool :=
  (o.isChan || o.isReg) && o != w.sa
    && (match o with
      | .vi i => !w.vreq.getLsbD i.val
      | .si i => !w.sreq.getLsbD i.val
      | .ci i => !w.creq.getLsbD i.val
      | _ => true)
    && (match w.prt with
      | .none => true
      | .present a | .absent a => !(o.isReg && o.code == a.zeroExtend 6)
      | .presentAbsent a b => !(o.isReg && (o.code == a.zeroExtend 6 || o.code == b.zeroExtend 6)))

def CEWord.mergeOk (w : CEWord) : Bool :=
  w.in0 != w.in1 && w.mergeFree w.in0 && w.mergeFree w.in1
    && (w.in0.isVec == w.in1.isVec) && w.movShape w.in0

def octxForbidden : Form := { octx := false }

def predForm (two : Bool) : Form :=
  { dst := fun o => o.isPred || o.isScalDst || o.isZero, a := Opnd.isScal
    b := if two then Opnd.isScal else Opnd.isZero }

def CEWord.predOk (w : CEWord) (two : Bool) : Bool :=
  w.meets (predForm two) && (!w.octx || !(w.dst.isPred || w.dst.isZero))

def chanOrReg (o : Opnd) : Bool := o.isChan || o.isReg
def chanRegZero (o : Opnd) : Bool := chanOrReg o || o.isZero

/-! ### Chapter 12 (R312-R314, R322, R328) -/

def CEWord.vecResult (w : CEWord) : Bool := w.sa.isVec || w.sb.isVec || w.sc.isVec

/-- The destination fits the result shape (R313). -/
def CEWord.shapeOk (w : CEWord) (pred : Bool) : Bool :=
  w.dst.isVecDst || w.dst.isZero
    || (!w.vecResult && (w.dst.isScalDst || (pred && w.dst.isPred)) && w.fmt != .pb8 && w.fmt != .pb4)

def anyFmt (_ : Fmt) : Bool := true
def floatFmt (f : Fmt) : Bool := f != .i32
def cmpFmt (f : Fmt) : Bool := f != .f32 && f != .pb8 && f != .pb4
def classFmt (f : Fmt) : Bool := f == .i32 || f == .bf16 || f == .f16
def flatFmt (f : Fmt) : Bool := f != .pb8 && f != .pb4
def matFmt (f : Fmt) : Bool := floatFmt f && flatFmt f

/-- The instructions that compute element by element, with their number of sources. -/
def aluForm (n : Nat) (fmt : Fmt → Bool) (rnd pset : Bool) : Form :=
  { dst := fun o => o.isDst || o.isPred, a := Opnd.isSrc
    b := if 2 ≤ n then Opnd.isSrc else Opnd.isZero, c := if 3 ≤ n then Opnd.isSrc else Opnd.isZero
    fmt := fmt, rnd := rnd, sat := rnd, pset := pset }

def CEWord.aluOk (w : CEWord) (n : Nat) (fmt : Fmt → Bool) (rnd pset pred : Bool) : Bool :=
  w.meets (aluForm n fmt rnd pset) && w.shapeOk pred

def i32Only (f : Fmt) : Bool := f == .i32

def CEWord.bfOk (w : CEWord) (n : Nat) (fields : Word) : Bool :=
  w.meets { aluForm n i32Only false false with fields := fields }
    && w.shapeOk false && !w.sa.isImm && !w.sb.isImm
    && decide (1 ≤ w.immBits 8 6 ∧ w.immBits 0 5 + w.immBits 8 6 ≤ 32)

/-- Lane movements: SA a vector (R328). -/
def laneForm (b c : Opnd → Bool) (pset : Bool) : Form :=
  { dst := fun o => o.isVecDst || o.isZero, a := Opnd.isVec, b := b, c := c, pset := pset }

def redForm : Form :=
  { dst := Opnd.isDst, a := Opnd.isVec, fmt := flatFmt, rnd := true, sat := true }

/-! ### Chapter 13 (R335, R336) -/

def vecOrZeroDst (o : Opnd) : Bool := o.isVecDst || o.isZero

/-! ### Chapter 14 (R352, R355) -/

def cellMask : Word := 0xFFFFE000

def CEWord.remote (w : CEWord) : Bool := w.imm.getLsbD 13
def CEWord.cellCol (w : CEWord) : Nat := w.immBits 22 10
def CEWord.cellRow (w : CEWord) : Nat := w.immBits 14 8

/-- The cell field (R352): with REMOTE = 0, COL and ROW are 0. A word that issues a request has PSET = 0 (R353). -/
def CEWord.cellOk (w : CEWord) : Bool :=
  if w.remote then !w.pset else w.cellCol == 0 && w.cellRow == 0

def memDst (o : Opnd) : Bool := o.isDst
def scalOrZeroDst (o : Opnd) : Bool := o.isScalDst || o.isZero

/-- FMT of `lds` and `ldg` (R355). -/
def CEWord.loadFmtOk (w : CEWord) : Bool :=
  if w.dst.isVecDst then flatFmt w.fmt else w.fmt == .i32

inductive AtomOp | add | min | max | xchg | cas | and | or
  deriving DecidableEq, Repr

def CEWord.atomGlobal (w : CEWord) : Bool := w.imm.getLsbD 12
def CEWord.size64 (w : CEWord) : Bool := w.imm.getLsbD 11
def CEWord.uns (w : CEWord) : Bool := w.imm.getLsbD 10

/-- Atomics (R358, R359). -/
def CEWord.atomOk (w : CEWord) (op : AtomOp) : Bool :=
  w.meets { dst := memDst, a := Opnd.isScalReg, b := Opnd.isScalReg, c := fun o => o.isSrc && !o.isImm
            fmt := fun f => f == .i32 || f == .f32, rnd := true, fields := cellMask ||| 0x1C00 }
    && !w.pset
    && (if w.atomGlobal then !w.remote && w.cellOk else w.sb.isZero && w.cellOk)
    && (if w.size64 || op == .cas then w.sc.isVec else w.sc.isScal)
    && !(w.size64 && w.dst.isScalDst)
    && (w.fmt == .i32 || (!w.size64 && (op == .add || op == .min || op == .max)))
    && (w.rnd == .rne || (op == .add && w.fmt == .f32))
    && (!w.uns || (w.fmt == .i32 && (op == .min || op == .max)))

def ringForm (dst a : Opnd → Bool) (pset : Bool) : Form :=
  { dst := dst, a := a, pset := pset, fields := cellMask ||| 0x700 }

def CEWord.scopeOk (w : CEWord) : Bool :=
  w.immBits 8 3 != 7 && (w.immBits 8 3 == 2 || w.immBits 11 3 == 0)

/-- V = 1 and [2:0] = 0 of the TLID in IMM[31:16] (R355). -/
def CEWord.tlidOk (w : CEWord) : Bool := w.imm.getLsbD 31 && w.immBits 16 3 == 0

/-- The static check of a CE instruction word (R124 step 3). -/
def Instr.ceOk : Instr → Bool
  | .nop w => w.meets octxForbidden
  | .mov w => w.meets { dst := fun o => o.isDst || o.isPred, a := Opnd.isSrc } && w.movShape w.sa
  | .steer w =>
    w.meets { dst := fun o => o == .voBoth || o == .soBoth, a := Opnd.isSrc, b := Opnd.isScal, pset := true }
      && (w.sa.isVec == (w.dst == .voBoth))
  | .merge w =>
    w.meets { dst := Opnd.isDst, a := Opnd.isScalReg, pset := true, octx := false, fields := 0x7F7F } && w.mergeOk
  | .amerge w => w.meets { dst := Opnd.isDst, pset := true, octx := false, fields := 0x7F7F } && w.mergeOk
  | .filter w => w.meets { dst := Opnd.isDst, a := Opnd.isSrc, b := Opnd.isScal, pset := true } && w.movShape w.sa
  | .absorb w => w.meets { a := chanOrReg, b := chanRegZero, c := chanRegZero, pset := true, octx := false }
  | .repeatTok w =>
    w.meets { dst := Opnd.isDst, a := Opnd.isSrc, b := Opnd.isSReg, c := Opnd.isScal, pset := true }
      && w.movShape w.sa && !w.deqB
  | .count w =>
    w.meets { dst := scalOrZeroDst, a := Opnd.isChan, b := Opnd.isSReg, pset := true, fields := 0x100 }
      && !(w.imm.getLsbD 8 && w.sa.isScal)
  | .mark w =>
    w.meets { dst := Opnd.isOutChan, a := fun o => o.isSrc && !o.isImm, fields := 0x300 } && w.movShape w.sa
  | .rfclr w =>
    w.meets { dst := fun o => o.isOutChan || o.isZero, a := fun o => o.isChan || o.isZero, fields := 0xFF00 }
      && w.movShape w.sa && (!w.sa.isZero || w.dst.isZero)
  | .pand w => w.predOk true
  | .por w => w.predOk true
  | .pxor w => w.predOk true
  | .pnot w => w.predOk false
  | .pmov w => w.predOk false
  | .halt w => w.meets octxForbidden
  | .exit w => w.meets octxForbidden
  | .trap w => w.meets { a := chanRegZero, b := chanRegZero, c := chanRegZero, octx := false }
  | .brk w => w.meets { a := chanRegZero, b := chanRegZero, c := chanRegZero, octx := false }
  | .add w => w.aluOk 2 i32Only false false false
  | .sub w => w.aluOk 2 i32Only false false false
  | .mul w => w.aluOk 2 i32Only false false false
  | .mulhs w => w.aluOk 2 i32Only false false false
  | .mulhu w => w.aluOk 2 i32Only false false false
  | .mad w => w.aluOk 3 i32Only false false false
  | .divs w => w.aluOk 2 i32Only false true false
  | .divu w => w.aluOk 2 i32Only false true false
  | .rems w => w.aluOk 2 i32Only false true false
  | .remu w => w.aluOk 2 i32Only false true false
  | .addSat w => w.aluOk 2 i32Only false true false
  | .addSatu w => w.aluOk 2 i32Only false true false
  | .subSat w => w.aluOk 2 i32Only false true false
  | .subSatu w => w.aluOk 2 i32Only false true false
  | .and w => w.aluOk 2 anyFmt false false true
  | .or w => w.aluOk 2 anyFmt false false true
  | .xor w => w.aluOk 2 anyFmt false false true
  | .andn w => w.aluOk 2 anyFmt false false true
  | .not w => w.aluOk 1 anyFmt false false true
  | .shl w => w.aluOk 2 i32Only false false false
  | .shr w => w.aluOk 2 i32Only false false false
  | .sar w => w.aluOk 2 i32Only false false false
  | .rol w => w.aluOk 2 i32Only false false false
  | .clz w => w.aluOk 1 i32Only false false false
  | .popc w => w.aluOk 1 i32Only false false false
  | .mins w => w.aluOk 2 i32Only false false false
  | .minu w => w.aluOk 2 i32Only false false false
  | .maxs w => w.aluOk 2 i32Only false false false
  | .maxu w => w.aluOk 2 i32Only false false false
  | .abs w => w.aluOk 1 i32Only false true false
  | .neg w => w.aluOk 1 i32Only false false false
  | .cmpEq w => w.aluOk 2 i32Only false true true
  | .cmpNe w => w.aluOk 2 i32Only false true true
  | .cmpLt w => w.aluOk 2 i32Only false true true
  | .cmpLe w => w.aluOk 2 i32Only false true true
  | .cmpLtu w => w.aluOk 2 i32Only false true true
  | .cmpLeu w => w.aluOk 2 i32Only false true true
  | .sel w => w.aluOk 3 anyFmt false false false
  | .bfx w => w.bfOk 1 0x13F1F
  | .bfi w => w.bfOk 2 0x3F1F
  | .bcast w => w.meets (laneForm Opnd.isScal Opnd.isZero false)
  | .shuf w => w.meets (laneForm Opnd.isSrc Opnd.isZero false)
  | .lrot w => w.meets (laneForm Opnd.isScal Opnd.isZero false)
  | .redadd w => w.meets redForm
  | .redmin w => w.meets redForm
  | .redmax w => w.meets redForm
  | .scan w => w.meets { redForm with dst := vecOrZeroDst, fields := 3 } && w.immBits 0 2 != 3
  | .cmpr w => w.meets (laneForm Opnd.isZero Opnd.isZero true)
  | .expd w => w.meets (laneForm Opnd.isScal Opnd.isZero false)
  | .lmask w =>
    w.meets { laneForm Opnd.isScalReg Opnd.isZero false with dst := Opnd.isDst, fields := 3 }
      && (if w.immBits 0 2 < 2 then vecOrZeroDst w.dst else w.sb.isZero && scalOrZeroDst w.dst)
  | .insl w => w.meets (laneForm Opnd.isScal Opnd.isScal false)
  | .extl w => w.meets { laneForm Opnd.isScal Opnd.isZero true with dst := Opnd.isDst }
  | .fadd w => w.aluOk 2 floatFmt true false false
  | .fsub w => w.aluOk 2 floatFmt true false false
  | .fmul w => w.aluOk 2 floatFmt true false false
  | .fma w => w.aluOk 3 floatFmt true false false
  | .fmin w => w.aluOk 2 floatFmt true false false
  | .fmax w => w.aluOk 2 floatFmt true false false
  | .fabs w => w.aluOk 1 floatFmt true false false
  | .fneg w => w.aluOk 1 floatFmt true false false
  | .fcmpEq w => w.aluOk 2 cmpFmt false true true
  | .fcmpLt w => w.aluOk 2 cmpFmt false true true
  | .fcmpLe w => w.aluOk 2 cmpFmt false true true
  | .fcmpUn w => w.aluOk 2 cmpFmt false true true
  | .fdiv w => w.aluOk 2 floatFmt true false false
  | .fsqrt w => w.aluOk 1 floatFmt true false false
  | .frcp w => w.aluOk 1 floatFmt true false false
  | .frsq w => w.aluOk 1 floatFmt true false false
  | .fexp2 w => w.aluOk 1 floatFmt true false false
  | .flog2 w => w.aluOk 1 floatFmt true false false
  | .ftanh w => w.aluOk 1 floatFmt true false false
  | .fround w => w.aluOk 1 floatFmt true false false
  | .fclass w => w.aluOk 1 classFmt false false false
  | .fscale w => w.aluOk 2 floatFmt true false false
  | .cvt w =>
    w.meets { dst := Opnd.isDst, a := fun o => o.isSrc && !o.isImm, fmt := anyFmt, rnd := true, sat := true
              pset := true, fields := 0x700 }
      && w.shapeOk false && (if w.sa.isVec then w.immBits 8 3 == 0 else decide (w.immBits 8 3 < 6))
  | .retag w => w.meets { dst := vecOrZeroDst, a := Opnd.isVec, fmt := anyFmt }
  | .pack w =>
    w.meets { dst := vecOrZeroDst, a := Opnd.isVec, b := Opnd.isVec, fmt := anyFmt, rnd := true, sat := true
              pset := true }
  | .unpack w =>
    w.meets { dst := vecOrZeroDst, a := Opnd.isVec, fmt := anyFmt, rnd := true, sat := true, pset := true
              fields := 0x700 }
  | .pbq w =>
    w.meets { dst := vecOrZeroDst, a := Opnd.isVec, fmt := fun f => f == .pb8 || f == .pb4, pset := true
              fields := 0xF00 } && w.immBits 8 4 != 0
  | .pbexpGet w => w.meets { dst := Opnd.isDst, a := Opnd.isVec, pset := true, fields := 0x300 }
  | .pbexpSet w =>
    w.meets { dst := vecOrZeroDst, a := Opnd.isVec, b := Opnd.isScalReg, pset := true, fields := 0x1300 }
      && (!w.imm.getLsbD 12 || w.immBits 8 2 == 0)
  | .rng w =>
    w.meets { dst := vecOrZeroDst, a := Opnd.isVec, b := Opnd.isScalReg, c := Opnd.isScalReg, fields := 0x100 }
      && (!w.imm.getLsbD 8 || (w.sb.isZero && w.sc.isZero))
  | .wld w => w.meets { a := Opnd.isVec, b := Opnd.isScal } && (!w.sb.isImm || w.imm >>> 6 == 0)
  | .wldt w => w.meets { a := Opnd.isVec, b := Opnd.isScal }
  | .wclr w => w.meets { fmt := anyFmt, fields := 0xF00 } && w.immBits 8 4 != 0
  | .mma w =>
    w.meets { dst := vecOrZeroDst, a := Opnd.isVec, b := fun o => o.isSrc && !o.isImm, fmt := matFmt, rnd := true
              sat := true, fields := 0xFF00 }
  | .mmz w =>
    w.meets { dst := vecOrZeroDst, a := Opnd.isVec, fmt := matFmt, rnd := true, sat := true, fields := 0xFF00 }
  | .lds w =>
    w.meets { dst := memDst, a := Opnd.isScalReg, fmt := flatFmt, fields := cellMask } && w.cellOk && w.loadFmtOk
  | .sts w => w.meets { a := Opnd.isScalReg, b := fun o => o.isSrc && !o.isImm, fields := cellMask } && w.cellOk
  | .ldg w => w.meets { dst := memDst, a := Opnd.isScal, b := Opnd.isScalReg, fmt := flatFmt } && w.loadFmtOk
  | .stg w => w.meets { a := Opnd.isScal, b := Opnd.isScalReg, c := fun o => o.isSrc && !o.isImm }
  | .atomAdd w => w.atomOk .add
  | .atomMin w => w.atomOk .min
  | .atomMax w => w.atomOk .max
  | .atomXchg w => w.atomOk .xchg
  | .atomCas w => w.atomOk .cas
  | .atomAnd w => w.atomOk .and
  | .atomOr w => w.atomOk .or
  | .feSet w => w.meets { a := Opnd.isScalReg, fields := cellMask } && w.cellOk
  | .feClr w => w.meets { a := Opnd.isScalReg, fields := cellMask } && w.cellOk
  | .feTest w =>
    w.meets { dst := scalOrZeroDst, a := Opnd.isScalReg, pset := true, fields := cellMask } && w.cellOk
  | .ringRes w => w.meets (ringForm Opnd.isScalDst Opnd.isZero true) && w.cellOk
  | .ringPub w => w.meets (ringForm Opnd.isZero Opnd.isScalReg true) && w.cellOk
  | .ringPop w => w.meets (ringForm Opnd.isScalDst Opnd.isZero true) && w.cellOk
  | .ringPeek w => w.meets (ringForm Opnd.isScalDst Opnd.isZero true) && w.cellOk
  | .ringClose w => w.meets (ringForm Opnd.isZero Opnd.isZero false) && w.cellOk
  | .ringStat w => w.meets (ringForm Opnd.isScalDst Opnd.isZero true) && w.cellOk
  | .botGive w => w.meets { a := Opnd.isScalReg, fields := 0xFFFFD700 }
  | .botTake w => w.meets { fields := 0x700 }
  | .baste w => w.meets { dst := scalOrZeroDst, pset := true, fields := 0x700 }
  | .basteFinal w => w.meets { dst := scalOrZeroDst, pset := true, fields := 0x700 }
  | .hem w => w.meets (ringForm Opnd.isZero Opnd.isZero false) && w.cellOk
  | .pressTest w => w.meets { dst := scalOrZeroDst, pset := true }
  | .sbar w => w.meets { fields := 0xF3F00 } && w.scopeOk && w.immBits 16 4 != 0
  | .fence w => w.meets { fields := 0xFF00 } && w.scopeOk
  | .tlWait w =>
    w.meets { dst := scalOrZeroDst, a := Opnd.isScalReg, b := Opnd.isScalReg, fields := 0xFFFF0000 } && w.tlidOk
  | .tlRead w => w.meets { dst := fun o => o.isScalDst || o.isVecDst, fields := 0xFFFF0000 } && w.tlidOk
  | .lotNew w =>
    w.meets { dst := Opnd.isScalDst, a := Opnd.isScalReg, pset := true, fields := 0x700 } && w.immBits 8 2 != 3
  | .lotEnd w => w.meets { a := Opnd.isScalReg, pset := true }
  | .teamid w => w.meets { dst := scalOrZeroDst, fields := 0x30700 }
  | .tbar w => w.meets { fields := 0x700, octx := false }
  | .launch w => w.meets { dst := fun o => scalOrZeroDst o && !(match o with | .co _ => true | _ => false), a := Opnd.isVec }
  | .clkrd w => w.meets { dst := fun o => o.isScalDst || o.isVecDst }
  | _ => false

/-! ### Xphido words and events -/

def cDie (d : Nat) : Bool := decide (d < Config.cDies)
def xDie (x : Nat) : Bool := x == 24 || x == 25
def anyDie (d : Nat) : Bool := decide (d < Config.dies)
def hartOk (d h : Nat) : Bool := if cDie d then decide (h < Config.tailorHarts) else xDie d && decide (h < Config.systemHarts)
def CellId.ok (c : CellId) : Bool :=
  cDie c.die && decide (c.col < Config.columns) && decide (c.row < Config.rows)
def LinkId.ok : LinkId → Bool
  | .seam n => decide (n < 46)
  | .edge _ cx => decide (cx < 6)
def CopyId.ok (c : CopyId) : Bool := cDie c.die && decide (c.eng < 16) && decide (c.ctx < 8)
def fnOk (x fn : Nat) : Bool := xDie x && decide (fn < 514)
def Tier.ok : Tier → Bool
  | .sram x => xDie x
  | .cells d => cDie d
  | .hbm d => cDie d
  | .lpddr x => xDie x
def RegTarget.ok : RegTarget → Bool
  | .block d off => anyDie d && decide (off < 2 ^ 24)
  | .csr d h num => hartOk d h && decide (num < 4096)

/-- The arguments of an event name things that exist. -/
def Instr.eventOk : Instr → Bool
  | .registerWrite t _ => t.ok
  | .wipeComplete t _ => t.ok
  | .imageVerifyDone x => xDie x
  | .digestExchange x => xDie x
  | .seamTraining l _ => l.ok
  | .spdmRequest pf _ => decide (pf < 4)
  | .lifecycleToken pf _ _ _ _ => decide (pf < 4)
  | .recgoWrite x _ => xDie x
  | .patchClockGate d p => cDie d && decide (p < 288)
  | .powerGatePatch d p => cDie d && decide (p < 288)
  | .powerGateWake d p => cDie d && decide (p < 288)
  | .defmapWrite d w _ => cDie d && decide (w < 5)
  | .flitReceive l _ _ _ _ => l.link.ok
  | .flitReplay l => l.link.ok
  | .replayTimeout l => l.link.ok
  | .retrainingLock l _ => l.ok
  | .retrainingTimeout l _ => l.ok
  | .crossingTableResume l _ => l.ok
  | .seamstClr d p => anyDie d && decide (p < 5)
  | .seamstFailirqClear d p => anyDie d && decide (p < 5)
  | .modidWrite d _ => anyDie d
  | .monitorSample d k _ _ _ _ => if cDie d then decide (k < 12) else xDie d && k == 0
  | .throttleRaise d => cDie d
  | .pwrlimWrite x _ => xDie x
  | .inboundPostedWrite x fn _ _ _ _ => fnOk x fn
  | .inboundWriteAck x _ => xDie x
  | .inboundRead x fn _ _ _ _ => fnOk x fn
  | .inboundAtomicop x fn _ _ _ => fnOk x fn
  | .inboundHoldTimeout x _ => xDie x
  | .atsInvalidation x fn => fnOk x fn
  | .functionLevelReset x fn => fnOk x fn
  | .mslotWrite x fn off data => fnOk x fn && decide (0x800 ≤ off ∧ off + data.length ≤ 0x1000)
  | .mbxdbWrite x fn _ => fnOk x fn
  | .msgLaunch x fn slot _ => fnOk x fn && decide (slot < 32)
  | .msgCancel x fn slot _ => fnOk x fn && decide (slot < 32)
  | .msgMapwin x fn slot _ => fnOk x fn && decide (slot < 32)
  | .msgQuery x fn slot => fnOk x fn && decide (slot < 32)
  | .featAcceptWrite pf _ => decide (pf < 4)
  | .fncfgWrite x fn _ => fnOk x fn
  | .winentWrite x _ => xDie x
  | .winctlSync x => xDie x
  | .winctlSyncDone x => xDie x
  | .winstClr x fn => fnOk x fn
  | .ualinkPeerRequest x port _ _ => xDie x && decide (port < 4)
  | .sharedRangeWrite x _ => xDie x
  | .sharedRangeGrant x _ => xDie x
  | .sharedRangeRead x _ _ => xDie x
  | .sharedRangeInvalidate x _ => xDie x
  | .sharedInvalidateAck x _ => xDie x
  | .expentCommit x _ => xDie x
  | .srentCommit x _ => xDie x
  | .srentClearDone x i => xDie x && decide (i < 64)
  | .ualinkPortDown x port => xDie x && decide (port < 4)
  | .roceRequest x qp _ _ => xDie x && decide (qp < 4096)
  | .launchFrame x _ => xDie x
  | .launchFrameHomeCheck x => xDie x
  | .tenantBucketRefill x t => xDie x && decide (t < 4096)
  | .lfdropClr x n => xDie x && decide (n < 7)
  | .tnentCommit x _ => xDie x
  | .partcfgWrite d _ => cDie d
  | .xpartWrite x p _ => xDie x && decide (p < 24)
  | .lrcDone d p => anyDie d && decide (p < 5)
  | .partitionReset p => decide (p < 24)
  | .ftlgcWrite x _ => xDie x
  | .ftlgcHeldClear x => xDie x
  | .ftlGcWindow x _ _ _ => xDie x
  | .dispatcherSummary d => cDie d
  | .switchTick _ d => cDie d
  | .switchReady _ d => cDie d
  | .switchCommit _ d => cDie d
  | .switchAbort _ d => cDie d
  | .vdcfgWrite d vd _ => cDie d && decide (vd < 1024)
  | .seamFailureMessage d s => cDie d && (decide (s < 46) || s == 63)
  | .pdfqstClr d => cDie d
  | .tokenHop c _ _ => c.ok
  | .dynamicPacketHop c _ => c.ok || xDie c.die
  | .dnwgtWrite d w _ => cDie d && decide (w < 2)
  | .agElement c _ _ => c.ok
  | .agConfigToken c _ => c.ok
  | .slogctlKick d i _ => if cDie d then decide (i < 8) else xDie d && decide (i < 10)
  | .slogctlDiscard d i _ => if cDie d then decide (i < 8) else xDie d && decide (i < 10)
  | .dmapWrite d i _ => cDie d && decide (i < 26)
  | .vdasidWrite d vd _ => cDie d && decide (vd < 1024)
  | .sweepComplete d => cDie d
  | .copyLine c _ _ _ => c.ok
  | .copyComplete c => c.ok
  | .pendingWaitComplete c _ => c.ok
  | .bastePublish c _ => c.ok
  | .botTokenSend c _ => c.ok
  | .rgDrainTimeout d h => hartOk d h
  | .xpirqClear d h _ => hartOk d h
  | .apertureAccess d h _ => hartOk d h
  | _ => true

/-- The check of a step's syntax: a CE word meets its encoding table, an Xphido word names a valid scope (R276), an
unassigned word is a custom word that no row of R276 names, an event names things that exist. -/
def Instr.wf (i : Instr) : Bool :=
  match i.ceParts with
  | some _ => i.ceOk
  | none =>
    match i with
    | .ldacqW _ _ sc => sc != .team
    | .ldacqD _ _ sc => sc != .team
    | .strelW _ _ sc => sc != .team
    | .strelD _ _ sc => sc != .team
    | .fenceP sc _ => sc != .team
    | .monWait _ _ _ sc _ => sc != .team
    | .unassignedXphido w =>
      (w.extractLsb' 0 7 == 0x0B#7 || w.extractLsb' 0 7 == 0x2B#7) && (xphidoOf w).isNone
    | _ => i.eventOk

end Sys2Proof
end

