-- ==== Sys2Proof/Machine/Formats.lean ====
section
/-!
DEFINITION. Number formats: decoding to exact values, rounding back, quantisation of pleated blocks, and the exact
operations (R234-R247, R323-R327). An exact value that is not a dyadic rational is held with a sticky mark.
-/
namespace Sys2Proof.Machine

/-- An exact value (R235). `fin neg m e st` is (-1)^neg * m * 2^e when `st` is false; with `st` its magnitude lies
strictly between m * 2^e and (m + 1) * 2^e, and m then has more bits than any format keeps. -/
inductive Exact | nan | inf (neg : Bool) | fin (neg : Bool) (m : Nat) (e : Int) (st : Bool)
  deriving DecidableEq, Repr

def Exact.zero (neg : Bool) : Exact := .fin neg 0 0 false
def Exact.ofInt (i : Int) : Exact := .fin (decide (i < 0)) i.natAbs 0 false

def Exact.isNeg : Exact → Bool
  | .nan => false | .inf n => n | .fin n _ _ _ => n

def Exact.isZero : Exact → Bool
  | .fin _ m _ st => m == 0 && !st | _ => false

def Exact.isNan : Exact → Bool
  | .nan => true | _ => false

/-! ### Formats (R234, R237, R238) -/

/-- Element width in bits. -/
def fmtWidth : Fmt → Nat
  | .i32 | .f32 => 32 | .bf16 | .f16 => 16 | .e4m3 | .e5m2 | .pb8 => 8 | .pb4 => 4

/-- Elements of a token. -/
def fmtCount (f : Fmt) : Nat := 512 / fmtWidth f

/-- The 32-bit group of element i. -/
def fmtGroup (f : Fmt) (i : Nat) : Nat := fmtWidth f * i / 32

def isPleated : Fmt → Bool
  | .pb8 | .pb4 => true | _ => false

/-- Significand bits with the leading one, bits of the exponent field, bias, exponent of the subnormal quantum. -/
structure FloatShape where
  prec : Nat
  ebits : Nat
  bias : Nat
  qmin : Int
  deriving DecidableEq, Repr

def floatShape : Fmt → FloatShape
  | .bf16 => ⟨8, 8, 127, -133⟩
  | .f16 => ⟨11, 5, 15, -24⟩
  | .e4m3 => ⟨4, 4, 7, -9⟩
  | .e5m2 => ⟨3, 5, 15, -16⟩
  | _ => ⟨24, 8, 127, -149⟩

def hasInf : Fmt → Bool
  | .f32 | .bf16 | .f16 | .e5m2 => true | _ => false

/-- Code of the largest finite value, of +∞ and of the canonical NaN (R238). -/
def maxFinCode : Fmt → Nat
  | .bf16 => 0x7F7F | .f16 => 0x7BFF | .e4m3 => 0x7E | .e5m2 => 0x7B | _ => 0x7F7FFFFF
def infCode : Fmt → Nat
  | .bf16 => 0x7F80 | .f16 => 0x7C00 | .e5m2 => 0x7C | _ => 0x7F800000
def nanCode : Fmt → Nat
  | .bf16 => 0x7FC0 | .f16 => 0x7E00 | .e4m3 => 0x7F | .e5m2 => 0x7E | _ => 0x7FC00000

/-- Largest finite magnitude as m * 2^e. -/
def maxFin : Fmt → Nat × Int
  | .bf16 => (255, 120) | .f16 => (2047, 5) | .e4m3 => (14, 5) | .e5m2 => (7, 13) | _ => (16777215, 104)

/-! ### Decoding (R235, R237, R240) -/

def decodeFloat (f : Fmt) (bits : Nat) : Exact :=
  let sh := floatShape f
  let fb := sh.prec - 1
  let frac := bits % 2 ^ fb
  let e := bits / 2 ^ fb % 2 ^ sh.ebits
  let neg := bits / 2 ^ (fb + sh.ebits) % 2 == 1
  if e = 2 ^ sh.ebits - 1 ∧ (f ≠ .e4m3 ∨ frac = 7) then
    if frac = 0 then .inf neg else .nan
  else if e = 0 then .fin neg frac sh.qmin false
  else .fin neg (2 ^ fb + frac) (sh.qmin + (e : Int) - 1) false

/-- A pleated element under its block's exponents (R240). -/
def decodePleated (f : Fmt) (bits e0 e1 : Nat) : Exact :=
  if e0 = 0xFF ∨ e1 = 0xFF then .nan
  else
    let w := fmtWidth f
    let sel := bits / 2 ^ (w - 1) % 2
    let neg := bits / 2 ^ (w - 2) % 2 == 1
    let m := bits % 2 ^ (w - 2)
    let e := if sel = 1 then e1 else e0
    .fin neg m ((e : Int) - (if f = .pb8 then 132 else 128)) false

def decodeBits (f : Fmt) (bits e0 e1 : Nat) : Exact :=
  match f with
  | .i32 => .ofInt (BitVec.ofNat 32 bits).toInt
  | .pb8 | .pb4 => decodePleated f bits e0 e1
  | _ => decodeFloat f bits

/-! ### Rounding (R242-R245) -/

/-- Whether the magnitude rounds away from zero, `r` being twice the remainder plus the sticky mark and `half` the
same doubling of half a quantum. -/
def roundsUp (rnd : Rnd) (neg : Bool) (odd : Bool) (r half : Nat) : Bool :=
  match rnd with
  | .rne => decide (half < r) || (r == half && odd)
  | .rtz => false
  | .rdn => neg && r != 0
  | .rup => !neg && r != 0

/-- Magnitude m * 2^e (with sticky mark) as a whole number of quanta 2^q. -/
def roundQuantum (rnd : Rnd) (neg : Bool) (m : Nat) (e : Int) (st : Bool) (q : Int) : Nat :=
  if q ≤ e then
    m * 2 ^ (e - q).toNat + (if st && roundsUp rnd neg (m % 2 == 1) 1 2 then 1 else 0)
  else
    let k := (q - e).toNat
    let n := m / 2 ^ k
    let r := 2 * (m % 2 ^ k) + (if st then 1 else 0)
    if roundsUp rnd neg (n % 2 == 1) r (2 ^ k) then n + 1 else n

/-- Rounding to `prec` significand bits with quanta no finer than 2^qmin and no upper limit: (n, q) is n * 2^q. -/
def roundPrec (prec : Nat) (qmin : Int) (rnd : Rnd) (neg : Bool) (m : Nat) (e : Int) (st : Bool) : Nat × Int :=
  let q := max (e + (Nat.log2 m : Int) - (prec : Int) + 1) qmin
  (roundQuantum rnd neg m e st q, q)

/-- n * 2^q > m * 2^e -/
def magGt (n : Nat) (q : Int) (m : Nat) (e : Int) : Bool :=
  if e ≤ q then decide (m < n * 2 ^ (q - e).toNat) else decide (m * 2 ^ (e - q).toNat < n)

/-- The code of n * 2^q, which is representable, less its sign. -/
def encodeMag (f : Fmt) (n : Nat) (q : Int) : Nat :=
  let sh := floatShape f
  let fb := sh.prec - 1
  if n = 0 then 0
  else
    let l := Nat.log2 n
    let top := q + (l : Int)
    let emin := sh.qmin + (fb : Int)
    if top < emin then n * 2 ^ (q - sh.qmin).toNat
    else
      let sig := if l ≤ fb then n * 2 ^ (fb - l) else n / 2 ^ (l - fb)
      (top - emin + 1).toNat * 2 ^ fb + (sig - 2 ^ fb)

def signBit (f : Fmt) (neg : Bool) : Nat := if neg then 2 ^ (fmtWidth f - 1) else 0

/-- An overflowing finite result (R243). -/
def overflowCode (f : Fmt) (rnd : Rnd) (sat neg : Bool) : Nat :=
  let big := signBit f neg + maxFinCode f
  let past := if hasInf f then signBit f neg + infCode f else nanCode f
  if sat then big
  else match rnd with
    | .rne => past
    | .rtz => big
    | .rup => if neg then big else past
    | .rdn => if neg then past else big

/-- Rounding into a floating-point format (R242). -/
def roundFloat (f : Fmt) (rnd : Rnd) (sat : Bool) (x : Exact) : Nat :=
  match x with
  | .nan => nanCode f
  | .inf neg =>
    if hasInf f then signBit f neg + infCode f
    else if sat then signBit f neg + maxFinCode f else nanCode f
  | .fin neg m e st =>
    let sh := floatShape f
    let y := roundPrec sh.prec sh.qmin rnd neg m e st
    if magGt y.1 y.2 (maxFin f).1 (maxFin f).2 then overflowCode f rnd sat neg
    else signBit f neg + encodeMag f y.1 y.2

/-- The integer that a finite value rounds to. -/
def roundInt (rnd : Rnd) (neg : Bool) (m : Nat) (e : Int) (st : Bool) : Int :=
  let n := roundQuantum rnd neg m e st 0
  if neg then -(n : Int) else n

/-- Rounding into I32 (R245). -/
def roundI32 (rnd : Rnd) (sat : Bool) (x : Exact) : Nat :=
  match x with
  | .nan => if sat then 0 else 0x80000000
  | .inf neg => if sat && !neg then 0x7FFFFFFF else 0x80000000
  | .fin neg m e st =>
    let i := roundInt rnd neg m e st
    if i < -2147483648 then 0x80000000
    else if 2147483647 < i then (if sat then 0x7FFFFFFF else 0x80000000)
    else (BitVec.ofInt 32 i).toNat

/-- `round` of R242 for every format but the pleated ones. -/
def roundTo (f : Fmt) (rnd : Rnd) (sat : Bool) (x : Exact) : Nat :=
  match f with
  | .i32 => roundI32 rnd sat x
  | _ => roundFloat f rnd sat x

/-- The overflow flag of `cvt`, `pack` and `unpack` (R337). -/
def overflows (f : Fmt) (rnd : Rnd) (x : Exact) : Bool :=
  match f, x with
  | .pb8, _ => false
  | .pb4, _ => false
  | .i32, .fin neg m e st =>
    let i := roundInt rnd neg m e st
    decide (i < -2147483648) || decide (2147483647 < i)
  | .i32, _ => true
  | f, .fin neg m e st =>
    let sh := floatShape f
    let y := roundPrec sh.prec sh.qmin rnd neg m e st
    magGt y.1 y.2 (maxFin f).1 (maxFin f).2
  | _, _ => false

/-! ### Quantisation of a pleated block (R241) -/

/-- f and M of R241. -/
def pleatF (f : Fmt) : Nat := if f = .pb8 then 5 else 1
def pleatM (f : Fmt) : Nat := if f = .pb8 then 63 else 3

/-- |x| < (M + 1/2) * 2^(e - 127 - f) -/
def belowPleat (f : Fmt) (e : Nat) (x : Exact) : Bool :=
  match x with
  | .fin _ m ex _ =>
    -- 2|x| against (2M + 1) * 2^(e - 127 - f)
    magGt (2 * pleatM f + 1) ((e : Int) - 127 - pleatF f) (2 * m) ex
  | _ => false

/-- One computed element under E0 and E1. -/
def pleatElem (f : Fmt) (e0 e1 : Nat) (x : Exact) : Nat :=
  let w := fmtWidth f
  let mag (e : Nat) : Nat :=
    match x with
    | .fin _ m ex st => roundQuantum .rne false m ex st ((e : Int) - 127 - pleatF f)
    | _ => pleatM f + 1
  let s := if x.isNeg then 2 ^ (w - 2) else 0
  if mag e0 ≤ pleatM f then s + mag e0
  else 2 ^ (w - 1) + s + min (pleatM f) (mag e1)

/-- The elements and (E0, E1) of a block. -/
def quantiseBlock (f : Fmt) (d : Nat) (xs : List (Option Exact)) : List Nat × Nat × Nat :=
  if xs.any (fun x => x == some Exact.nan) then (xs.map fun _ => 0, 0xFF, 0xFF)
  else
    let fits (e : Nat) : Bool := xs.all fun
      | some x => belowPleat f e x
      | none => true
    let e1 := ((List.range 255).find? fits).getD 254
    let e0 := e1 - d
    (xs.map fun
      | some x => pleatElem f e0 e1 x
      | none => 0, e0, e1)

/-! ### Exact operations (R247, R323-R327) -/

def Exact.neg : Exact → Exact
  | .nan => .nan | .inf n => .inf (!n) | .fin n m e st => .fin (!n) m e st

def Exact.abs : Exact → Exact
  | .nan => .nan | .inf _ => .inf false | .fin _ m e st => .fin false m e st

/-- Signed numerator of a finite value over 2^e. -/
def signedAt (neg : Bool) (m : Nat) (e e' : Int) : Int :=
  let n : Int := m * 2 ^ (e - e').toNat
  if neg then -n else n

/-- Exact sum; the sign of a zero sum depends on the rounding mode (R242). It does so in every format: for PB8 and PB4,
which are quantised under RNE whatever RND holds (R241), the spec leaves the sign under RDN open (DESIGN CHOICE, log 71). -/
def Exact.add (rnd : Rnd) (a b : Exact) : Exact :=
  match a, b with
  | .nan, _ => .nan
  | _, .nan => .nan
  | .inf x, .inf y => if x = y then .inf x else .nan
  | .inf x, _ => .inf x
  | _, .inf y => .inf y
  | .fin na ma ea _, .fin nb mb eb _ =>
    let e := min ea eb
    let s := signedAt na ma ea e + signedAt nb mb eb e
    if s = 0 then .zero (if na = nb then na else rnd = .rdn)
    else .fin (decide (s < 0)) s.natAbs e false

def Exact.sub (rnd : Rnd) (a b : Exact) : Exact := a.add rnd b.neg

def Exact.mul (a b : Exact) : Exact :=
  match a, b with
  | .nan, _ => .nan
  | _, .nan => .nan
  | .inf x, .inf y => .inf (x != y)
  | .inf x, .fin n m _ _ => if m = 0 then .nan else .inf (x != n)
  | .fin n m _ _, .inf y => if m = 0 then .nan else .inf (n != y)
  | .fin na ma ea _, .fin nb mb eb _ => .fin (na != nb) (ma * mb) (ea + eb) false

def Exact.div (a b : Exact) : Exact :=
  match a, b with
  | .nan, _ => .nan
  | _, .nan => .nan
  | .inf _, .inf _ => .nan
  | .inf x, .fin n _ _ _ => .inf (x != n)
  | .fin n _ _ _, .inf y => .zero (n != y)
  | .fin na ma ea _, .fin nb mb eb _ =>
    if mb = 0 then (if ma = 0 then .nan else .inf (na != nb))
    else if ma = 0 then .zero (na != nb)
    else
      let k := 66 + Nat.log2 mb
      .fin (na != nb) (ma * 2 ^ k / mb) (ea - eb - k) (ma * 2 ^ k % mb != 0)

/-- Integer square root, one result bit a round. -/
def isqrtLoop : Nat → Nat → Nat → Nat
  | 0, _, r => r
  | k + 1, n, r =>
    let t := r + 2 ^ k
    isqrtLoop k n (if t * t ≤ n then t else r)

def isqrt (n : Nat) : Nat := isqrtLoop (Nat.log2 n / 2 + 1) n 0

/-- m * 2^e with e made even. -/
def evenExp (m : Nat) (e : Int) : Nat × Int := if e % 2 = 0 then (m, e) else (2 * m, e - 1)

def Exact.sqrt (a : Exact) : Exact :=
  match a with
  | .nan => .nan
  | .inf n => if n then .nan else .inf false
  | .fin n m e _ =>
    if m = 0 then .zero n
    else if n then .nan
    else
      let p := evenExp m e
      let x := p.1 * 2 ^ 132
      let r := isqrt x
      .fin false r (p.2 / 2 - 66) (r * r != x)

def Exact.one : Exact := .fin false 1 0 false
def Exact.rcp (a : Exact) : Exact := Exact.one.div a

/-- Reciprocal square root; of a zero it is the infinity of its sign (IEEE 754 rSqrt). -/
def Exact.rsq (a : Exact) : Exact :=
  match a with
  | .nan => .nan
  | .inf n => if n then .nan else .zero false
  | .fin n m e _ =>
    if m = 0 then .inf n
    else if n then .nan
    else
      let p := evenExp m e
      let k := 68 + Nat.log2 p.1
      let r := isqrt (2 ^ (2 * k) / p.1)
      .fin false r (-(p.2 / 2) - k) (r * r * p.1 != 2 ^ (2 * k))

/-- a × 2^n (R327). Beyond ±8,192 every non-zero operand already overflows or underflows in every format, so the
count is cut there. -/
def Exact.scale (a : Exact) (n : Int) : Exact :=
  match a with
  | .fin s m e st => .fin s m (e + max (-8192) (min 8192 n)) st
  | x => x

/-- Rounded to an integer value under RND, keeping the sign of zero (R325). -/
def Exact.toIntegral (rnd : Rnd) (a : Exact) : Exact :=
  match a with
  | .fin s m e st => .fin s (roundQuantum rnd s m e st 0) 0 false
  | x => x

/-! ### Order (R323, R324) -/

/-- Signed comparison key of two finite values at a common exponent. -/
def finLt (na : Bool) (ma : Nat) (ea : Int) (nb : Bool) (mb : Nat) (eb : Int) : Bool :=
  let e := min ea eb
  decide (signedAt na ma ea e < signedAt nb mb eb e)

def Exact.lt (a b : Exact) : Bool :=
  match a, b with
  | .nan, _ => false
  | _, .nan => false
  | .inf x, .inf y => x && !y
  | .inf x, .fin .. => x
  | .fin .., .inf y => !y
  | .fin na ma ea _, .fin nb mb eb _ => finLt na ma ea nb mb eb

def Exact.unordered (a b : Exact) : Bool := a.isNan || b.isNan
def Exact.eqv (a b : Exact) : Bool := !a.unordered b && !a.lt b && !b.lt a
def Exact.le (a b : Exact) : Bool := !a.unordered b && !b.lt a

/-- `fmin` and `fmax`: −0 below +0, NaN when either is NaN (R323). -/
def Exact.fmin (a b : Exact) : Exact :=
  if a.unordered b then .nan
  else if a.lt b then a else if b.lt a then b else if a.isNeg then a else b

def Exact.fmax (a b : Exact) : Exact :=
  if a.unordered b then .nan
  else if a.lt b then b else if b.lt a then a else if a.isNeg then b else a

/-- The class mask of `fclass` (R326); the smallest normal magnitude depends on the format, a pleated element that
is not zero and an I32 element count as normal. -/
def classMask (f : Fmt) (x : Exact) : Nat :=
  match x with
  | .nan => 256
  | .inf n => if n then 1 else 128
  | .fin n m e _ =>
    if m = 0 then (if n then 8 else 16)
    else
      let sh := floatShape f
      let sub := (f != .i32) && !isPleated f && magGt 1 (sh.qmin + sh.prec - 1) m e
      if sub then (if n then 4 else 32) else (if n then 2 else 64)

end Sys2Proof.Machine
end

