-- ==== Sys2Proof/Machine/BaseFloat.lean ====
section
/-!
DEFINITION. Arithmetic of the F and D sets of the system cores, which the spec names and leaves to the RISC-V
architecture and IEEE 754 (00, R376; PRESUMED, log 9): values, rounding with its flags, and the operations.
-/
namespace Sys2Proof.Machine

/-! ### Formats -/

/-- Single (false) and double (true). -/
def rvShape (d : Bool) : FloatShape := if d then ⟨53, 11, 1023, -1074⟩ else ⟨24, 8, 127, -149⟩

def rvWidth (d : Bool) : Nat := if d then 64 else 32
def rvNan (d : Bool) : Nat := if d then 0x7FF8000000000000 else 0x7FC00000
def rvInf (d : Bool) : Nat := if d then 0x7FF0000000000000 else 0x7F800000
def rvSign (d neg : Bool) : Nat := if neg then 2 ^ (rvWidth d - 1) else 0
def rvNeg (d : Bool) (bits : Nat) : Bool := bits.testBit (rvWidth d - 1)

def rvFrac (d : Bool) (bits : Nat) : Nat := bits % 2 ^ ((rvShape d).prec - 1)
def rvExp (d : Bool) (bits : Nat) : Nat := bits / 2 ^ ((rvShape d).prec - 1) % 2 ^ (rvShape d).ebits

def rvDecode (d : Bool) (bits : Nat) : Exact :=
  let sh := rvShape d
  let frac := rvFrac d bits
  let e := rvExp d bits
  if e = 2 ^ sh.ebits - 1 then (if frac = 0 then .inf (rvNeg d bits) else .nan)
  else if e = 0 then .fin (rvNeg d bits) frac sh.qmin false
  else .fin (rvNeg d bits) (2 ^ (sh.prec - 1) + frac) (sh.qmin + (e : Int) - 1) false

/-- A signaling NaN: its quiet bit is 0. -/
def rvSnan (d : Bool) (bits : Nat) : Bool := rvDecode d bits == .nan && !bits.testBit ((rvShape d).prec - 2)

/-! ### Flags and rounding -/

def fNX : Nat := 1
def fUF : Nat := 2
def fOF : Nat := 4
def fDZ : Nat := 8
def fNV : Nat := 16

/-- A result with the flags it raises. -/
structure Flagged where
  val : Nat
  flags : Nat := 0
  deriving DecidableEq, Repr

/-- Rounding modes 0 to 3 are those of the CEs; 4 is to nearest with ties away from zero. -/
def rvRnd : Nat → Rnd
  | 1 => .rtz | 2 => .rdn | 3 => .rup | _ => .rne

def rvUp (rm : Nat) (neg odd : Bool) (r half : Nat) : Bool :=
  if rm = 4 then decide (half ≤ r) else roundsUp (rvRnd rm) neg odd r half

/-- The magnitude m * 2^e (with sticky mark) as a whole number of quanta 2^q, and whether that is inexact. -/
def rvRound (rm : Nat) (neg : Bool) (m : Nat) (e : Int) (st : Bool) (q : Int) : Nat × Bool :=
  if q ≤ e then
    let n := m * 2 ^ (e - q).toNat
    (n + (if st && rvUp rm neg (n % 2 == 1) 1 2 then 1 else 0), st)
  else
    let k := (q - e).toNat
    let n := m / 2 ^ k
    let r := 2 * (m % 2 ^ k) + (if st then 1 else 0)
    (if rvUp rm neg (n % 2 == 1) r (2 ^ k) then n + 1 else n, r != 0)

/-- The code of n * 2^q, which is representable, less its sign. -/
def rvMag (d : Bool) (n : Nat) (q : Int) : Nat :=
  let sh := rvShape d
  let fb := sh.prec - 1
  if n = 0 then 0
  else
    let l := Nat.log2 n
    let top := q + (l : Int)
    let emin := sh.qmin + (fb : Int)
    if top < emin then n * 2 ^ (q - sh.qmin).toNat
    else (top - emin + 1).toNat * 2 ^ fb + ((if l ≤ fb then n * 2 ^ (fb - l) else n / 2 ^ (l - fb)) - 2 ^ fb)

/-- Rounding into a format, with overflow, underflow (tininess after rounding) and inexactness. -/
def rvEncode (d : Bool) (rm : Nat) (x : Exact) : Flagged :=
  let sh := rvShape d
  match x with
  | .nan => ⟨rvNan d, 0⟩
  | .inf n => ⟨rvSign d n + rvInf d, 0⟩
  | .fin n m e st =>
    if m = 0 then ⟨rvSign d n, 0⟩
    else
      let q0 := e + (Nat.log2 m : Int) - (sh.prec : Int) + 1
      let q := max q0 sh.qmin
      let y := rvRound rm n m e st q
      if magGt y.1 q (2 ^ sh.prec - 1) ((sh.bias : Int) - sh.prec + 1) then
        let toInf := rm == 0 || rm == 4 || (rm == 3 && !n) || (rm == 2 && n)
        ⟨rvSign d n + (if toInf then rvInf d else rvInf d - 1), fOF + fNX⟩
      else
        let free := rvRound rm n m e st q0
        let tiny := magGt 1 (sh.qmin + (sh.prec : Int) - 1) free.1 q0
        ⟨rvSign d n + rvMag d y.1 q, (if y.2 then fNX else 0) + (if tiny && y.2 then fUF else 0)⟩

/-- A computed result: an invalid operation where an operand signals, or where a NaN comes of none. -/
def rvResult (d : Bool) (rm : Nat) (args : List Nat) (x : Exact) : Flagged :=
  let y := rvEncode d rm x
  let invalid := args.any (rvSnan d) || (x == .nan && !(args.any fun a => rvDecode d a == .nan))
  { y with flags := y.flags + (if invalid then fNV else 0) }

/-! ### Operations -/

def rvAdd (d : Bool) (rm a b : Nat) : Flagged := rvResult d rm [a, b] ((rvDecode d a).add (rvRnd rm) (rvDecode d b))
def rvSub (d : Bool) (rm a b : Nat) : Flagged := rvResult d rm [a, b] ((rvDecode d a).sub (rvRnd rm) (rvDecode d b))
def rvMul (d : Bool) (rm a b : Nat) : Flagged := rvResult d rm [a, b] ((rvDecode d a).mul (rvDecode d b))

/-- Division; by zero of a finite number that is not zero, DZ. -/
def rvDiv (d : Bool) (rm a b : Nat) : Flagged :=
  let x := rvDecode d a
  let finite := match x with
    | .fin _ _ _ _ => true
    | _ => false
  let r := rvResult d rm [a, b] (x.div (rvDecode d b))
  { r with flags := r.flags + (if (rvDecode d b).isZero && finite && !x.isZero then fDZ else 0) }

def rvSqrt (d : Bool) (rm a : Nat) : Flagged := rvResult d rm [a] (rvDecode d a).sqrt

/-- a * b + c rounded once, with the product and the addend negated where the form says so; infinity times zero is
invalid beside any addend. -/
def rvFma (d : Bool) (rm : Nat) (negProd negAdd : Bool) (a b c : Nat) : Flagged :=
  let p := (rvDecode d a).mul (rvDecode d b)
  let p' := if negProd then p.neg else p
  let c' := if negAdd then (rvDecode d c).neg else rvDecode d c
  let bad := p == .nan && !((rvDecode d a).isNan || (rvDecode d b).isNan)
  let r := rvResult d rm [a, b, c] (p'.add (rvRnd rm) c')
  { r with flags := if bad then fNV else r.flags }

/-- The lesser or the greater operand; of a number and a NaN the number, and -0 is less than +0. -/
def rvMinMax (d : Bool) (max : Bool) (a b : Nat) : Flagged :=
  let x := rvDecode d a
  let y := rvDecode d b
  let less := x.lt y || (x.isZero && y.isZero && rvNeg d a)
  let v :=
    if x.isNan && y.isNan then rvNan d
    else if x.isNan then b
    else if y.isNan then a
    else if less != max then a else b
  ⟨v, if rvSnan d a || rvSnan d b then fNV else 0⟩

/-- feq is quiet; flt and fle are invalid on every NaN. -/
def rvCompare (d : Bool) (rm a b : Nat) : Flagged :=
  let x := rvDecode d a
  let y := rvDecode d b
  let r := match rm with
    | 0 => x.le y
    | 1 => x.lt y
    | _ => x.eqv y
  let invalid := if rm = 2 then rvSnan d a || rvSnan d b else x.unordered y
  ⟨if r then 1 else 0, if invalid then fNV else 0⟩

/-- Sign injection: the sign of b, its inverse, or the exclusive or of both signs. -/
def rvSgnj (d : Bool) (rm a b : Nat) : Nat :=
  let s := match rm with
    | 0 => rvNeg d b
    | 1 => !rvNeg d b
    | _ => rvNeg d a != rvNeg d b
  rvSign d s + a % 2 ^ (rvWidth d - 1)

def rvClass (d : Bool) (a : Nat) : Nat :=
  let n := rvNeg d a
  match rvDecode d a with
  | .nan => if rvSnan d a then 2 ^ 8 else 2 ^ 9
  | .inf _ => if n then 1 else 2 ^ 7
  | .fin _ m _ _ =>
    if m = 0 then (if n then 2 ^ 3 else 2 ^ 4)
    else if rvExp d a = 0 then (if n then 2 ^ 2 else 2 ^ 5)
    else if n then 2 ^ 1 else 2 ^ 6

/-- To an integer of the kind W, WU, L or LU; what lies outside takes the nearest end and is invalid, a NaN the upper
one. -/
def rvToInt (d : Bool) (rm kind a : Nat) : DWord × Nat :=
  let w : Nat := if kind < 2 then 32 else 64
  let lo : Int := if kind % 2 = 0 then -(2 ^ (w - 1)) else 0
  let hi : Int := if kind % 2 = 0 then 2 ^ (w - 1) - 1 else 2 ^ w - 1
  let shown (i : Int) : DWord := (BitVec.ofInt w i).signExtend 64
  match rvDecode d a with
  | .nan => (shown hi, fNV)
  | .inf n => (shown (if n then lo else hi), fNV)
  | .fin n m e st =>
    let y := rvRound rm n m e st 0
    let i : Int := if n then -(y.1 : Int) else y.1
    if i < lo then (shown lo, fNV)
    else if hi < i then (shown hi, fNV)
    else (shown i, if y.2 then fNX else 0)

def rvOfInt (d : Bool) (rm kind : Nat) (v : DWord) : Flagged :=
  let i : Int := match kind with
    | 0 => (v.extractLsb' 0 32 : Word).toInt
    | 1 => (v.extractLsb' 0 32 : Word).toNat
    | 2 => v.toInt
    | _ => v.toNat
  rvEncode d rm (.ofInt i)

/-- Between the formats. -/
def rvConvert (dst src : Bool) (rm a : Nat) : Flagged :=
  let r := rvEncode dst rm (rvDecode src a)
  { r with flags := r.flags + (if rvSnan src a then fNV else 0) }

/-! ### NaN boxes -/

/-- A register read in a format: a single that is not boxed reads as the canonical NaN. -/
def rvUnbox (d : Bool) (v : DWord) : Nat :=
  if d then v.toNat
  else if v.extractLsb' 32 32 = (BitVec.allOnes 32 : Word) then v.toNat % 2 ^ 32 else rvNan false

/-- A value as a register holds it. -/
def rvBox (d : Bool) (bits : Nat) : DWord :=
  if d then BitVec.ofNat 64 bits else BitVec.ofNat 64 (2 ^ 64 - 2 ^ 32 + bits % 2 ^ 32)

end Sys2Proof.Machine
end

