-- ==== Sys2Proof/Machine/Types.lean ====
section
/-!
DEFINITION. The parts of the state that belong to the fabric: compute elements, memory elements, switches, requests,
regions, copies and harts. All of it is plain data.
-/
namespace Sys2Proof.Machine

/-! ### Keyed storage -/

/-- Sparse data by key. A key that is not listed holds the default that the reader names. -/
abbrev Store (K V : Type) := List (K × V)

def Store.get? {K V : Type} [DecidableEq K] : Store K V → K → Option V
  | [], _ => none
  | (k', v) :: r, k => if k' = k then some v else Store.get? r k

def Store.get {K V : Type} [DecidableEq K] (s : Store K V) (d : V) (k : K) : V :=
  match s.get? k with
  | some v => v
  | none => d

def Store.erase {K V : Type} [DecidableEq K] : Store K V → K → Store K V
  | [], _ => []
  | (k', v) :: r, k => if k' = k then Store.erase r k else (k', v) :: Store.erase r k

def Store.put {K V : Type} [DecidableEq K] (s : Store K V) (k : K) (v : V) : Store K V := (k, v) :: s.erase k

/-- A lot (R200). Lot 0 is null. -/
abbrev Lot := BitVec 12

/-! ### Compute element (R159, R162) -/

/-- What a vector register or token carries beside its header's context and marker. -/
structure VecVal where
  data : Vec := 0
  sb : DWord := 0
  mask : BitVec 16 := 0
  fmt : Fmt := .i32
  deriving DecidableEq, Repr

inductive Body | vec (v : VecVal) | scal (x : Word) | ctl (b : Bool)
  deriving DecidableEq, Repr

/-- A token (R162). `since` is the cycle from which it stands where it stands. -/
structure Tok where
  body : Body
  ctx : BitVec 3
  ver : BitVec 4 := 0
  mark : Marker := .data
  since : Nat := 0
  deriving DecidableEq, Repr

/-- An entry of an output: a token, or room kept for the response of a request (R353). -/
inductive OutEnt | filled (t : Tok) | reserved (req : Nat)
  deriving DecidableEq, Repr

structure VReg where
  val : VecVal := {}
  ver : BitVec 4 := 0
  pres : Bool := false
  lot : Lot := 0
  since : Nat := 0
  deriving DecidableEq, Repr

structure SReg where
  val : Word := 0
  ver : BitVec 4 := 0
  pres : Bool := false
  lot : Lot := 0
  since : Nat := 0
  deriving DecidableEq, Repr

/-- A weight slot: 1,024 data bytes, 64 scale bytes, tag (R344). -/
structure WSlot where
  data : BitVec 8192 := 0
  scales : BitVec 512 := 0
  fmt : Fmt := .i32
  deriving DecidableEq, Repr

/-- A wait that a firing left on its context (R219, R220, R308, R371). `reqs` are the requests that must be
performed first. -/
inductive Wait
  | fence (reqs : List Nat)
  | sbar (mask : BitVec 4) (reqs : List Nat)
  | timeline (req : Nat)
  | tbar (level : Nat) (epoch : Nat)
  deriving DecidableEq, Repr

/-- Register lot modes and allocation lot modes (R161, R123). -/
inductive LotMode | z | t | w
  deriving DecidableEq, Repr

structure Ce where
  slots : Store Nat Instr := []
  v : Store Nat VReg := []
  s : Store Nat SReg := []
  p : BitVec 8 := 0
  w : Store Nat WSlot := []
  vi : Store Nat (List Tok) := []
  si : Store Nat (List Tok) := []
  ci : Store Nat (List Tok) := []
  vo : Store Nat (List OutEnt) := []
  so : Store Nat (List OutEnt) := []
  co : Store Nat (List OutEnt) := []
  rlmode : LotMode := .z
  lastCtx : Nat := 7
  mmaBusy : Nat := 0
  halted : BitVec 8 := 0
  waits : Store Nat (List Wait) := []
  deriving DecidableEq, Repr

/-! ### Memory element -/

/-- A scratchpad line (R166). `bad` marks the 64-bit words with an uncorrectable error (R14). -/
structure Line where
  data : BitVec 1024 := 0
  full : Bool := false
  lot : Lot := 0
  ver : BitVec 4 := 0
  bad : BitVec 16 := 0
  deriving DecidableEq, Repr

/-- An allocation declaration of the cell (R123). -/
structure Alloc where
  first : Nat
  count : Nat
  selv : Nat
  mode : LotMode
  fesync : Bool
  baste : Bool
  pool : Bool
  /-- Number of the declaration in the image. -/
  index : Nat
  deriving DecidableEq, Repr

/-- A live `lot.new` allocation (R373). -/
structure PoolAlloc where
  first : Nat
  count : Nat
  idx : Nat
  lot : Lot
  mode : LotMode
  fesync : Bool
  /-- Cycle of the `lot.new`: the lot map is in allocation order (R133). -/
  born : Nat := 0
  deriving DecidableEq, Repr

inductive AgDir | read | write | reduce
  deriving DecidableEq, Repr

inductive AgTarget | here | cell (col row : Nat) | global
  deriving DecidableEq, Repr

inductive AgPack | vec | vecsb | scal
  deriving DecidableEq, Repr

/-- Merge and reduction operations (R171, R271). -/
inductive ROp | add | min | max
  deriving DecidableEq, Repr

/-- An address-generator descriptor with EN = 1 (R271). Dimension k's count and stride are entry k. -/
structure Desc where
  base : DWord
  counts : List (BitVec 20)
  strides : List Word
  ndim : Nat
  fmt : Fmt
  dir : AgDir
  target : AgTarget
  page : BitVec 2
  pack : AgPack
  eosrule : Nat
  /-- The mode named by LOTMODE; none is the allocation's. -/
  lotmode : Option LotMode
  fill : Bool
  sctx : BitVec 3
  rop : ROp
  sbbase : DWord
  deriving DecidableEq, Repr

/-- A held fault of a stream (R140): code and address. -/
structure HeldFault where
  code : Nat
  addr : DWord
  deriving DecidableEq, Repr

/-- A stream and its progress (R173-R177). -/
structure Stream where
  desc : Desc
  /-- i0 to i5. -/
  idx : List Nat := [0, 0, 0, 0, 0, 0]
  /-- Elements since the start of the sequence: the sideband index (R174). -/
  elem : Nat := 0
  ended : Bool := false
  /-- The stream stands at an EOS boundary (R176). -/
  boundary : Bool := false
  /-- EOS tokens to emit before the next element. -/
  eosDue : Nat := 0
  /-- A write stream that ended after its last element still takes one EOS (R175). -/
  closing : Bool := false
  cfgq : List Tok := []
  inq : List Tok := []
  outq : List OutEnt := []
  held : Option HeldFault := none
  /-- Versions of the REFIRE tokens that restarts still owe (R177). -/
  refires : List (BitVec 4) := []
  /-- Version of the publication being read, and whether a whole read of a final version is done (R367, R369). -/
  reading : Option (BitVec 4) := none
  finalRead : Bool := false
  deriving DecidableEq, Repr

/-- A reduction port (R171, R266): the source stream is the local one, or that of a logical cell. -/
structure RPort where
  source : Option (Nat × Nat)
  stream : Nat
  fmt : Fmt
  op : ROp
  deriving DecidableEq, Repr

/-- Another cell's bank: giver's region and logical cell, bank, lot (R364, R365). -/
structure BankRef where
  handle : Word
  /-- Launch and instance of the giver, which stay when its region moves; none for a standalone region. -/
  giver : Option (Nat × Nat) := none
  col : Nat
  row : Nat
  bank : Nat
  lot : Lot
  deriving DecidableEq, Repr

structure Bank where
  owned : Bool := false
  /-- AWAITED in the image (R266). -/
  awaited : Bool := false
  bound : Option BankRef := none
  /-- Tokens waiting at the cell, oldest first (R364). -/
  tokens : List BankRef := []
  rport : Option RPort := none
  deriving DecidableEq, Repr

structure Bobbin where
  base : Nat
  slots : Nat
  slotLines : Nat
  head : Word := 0
  tail : Word := 0
  res : Word := 0
  pub : BitVec 256 := 0
  closed : Bool := false
  /-- RES that the close discarded (R361). -/
  discarded : Word := 0
  /-- Published slots at which TAIL still waits for accesses that their publication releases (R361). -/
  held : List (Word × List Nat) := []
  deriving DecidableEq, Repr

/-- A publication that has fired and waits for the accesses before it (R366). Its number is that of an access of the
context whose slot fired it. -/
structure Publication where
  id : Nat := 0
  slot : Nat := 0
  ver : BitVec 4
  reqs : List Nat
  deriving DecidableEq, Repr

structure Basting where
  base : Nat
  lines : Nat
  v : Nat := 0
  hemmed : Bool := false
  /-- Version last published; none before the first publication. -/
  shown : Option (BitVec 4) := none
  due : List Publication := []
  deriving DecidableEq, Repr

inductive Decl | bobbin (b : Bobbin) | basting (b : Basting)
  deriving DecidableEq, Repr

/-- An operation that `fe.set`, `ring.pub`, `ring.pop` or `bot.give` leaves to be performed after the accesses that
it releases (R360, R362, R364). -/
inductive Deferred
  | feSet (line : Nat)
  /-- `ref` is the bank that goes. -/
  | give (bank : Nat) (toCol toRow inst : Nat) (next : Bool) (ref : BankRef)
  deriving DecidableEq, Repr

/-- A deferred operation: its number is that of an access of the context whose slot fired it. -/
structure Later where
  id : Nat
  slot : Nat := 0
  op : Deferred
  reqs : List Nat
  deriving DecidableEq, Repr

structure Me where
  lines : Store Nat Line := []
  streams : Store Nat Stream := []
  decls : Store Nat Decl := []
  banks : Store Nat Bank := []
  allocs : List Alloc := []
  pool : List PoolAlloc := []
  later : List Later := []
  deriving DecidableEq, Repr

/-! ### Switch (R179, R182, R268) -/

inductive RouteOut | dir (d : Dir) | chan (i : Nat) | sp (k : Nat) | cfg (k : Nat)
  deriving DecidableEq, Repr

structure Route where
  net : Net
  src : PortIn
  outs : List RouteOut
  entry : Bool
  exits : List Dir
  deriving DecidableEq, Repr

/-- The static part of a switch: routing words, output buffers N, E, S, W per network (R179), buffers that a lane
receiver fills with tokens from over a seam (R17), and the round-robin pointers of the CE input channels at which
routes merge (R180). -/
structure Sw where
  routes : List Route := []
  bufs : Store (Net × Dir) (List Tok) := []
  inb : Store (Net × Dir) (List Tok) := []
  merge : Store (Net × Nat) Nat := []
  deriving DecidableEq, Repr

structure Cell where
  ce : Ce := {}
  me : Me := {}
  sw : Sw := {}
  /-- Cycle of the last firing or token arrival (R9). -/
  busy : Nat := 0
  deriving DecidableEq, Repr

/-! ### Requests (R353) -/

/-- What the accessor's image says of a line, and the lot that is its own there (R123, R138, R365). -/
structure LineAcc where
  mode : LotMode
  fesync : Bool := false
  baste : Bool := false
  param : Bool := false
  own : Lot
  deriving DecidableEq, Repr

/-- Agents (R212). -/
inductive Agent
  | ctx (c : CellId) (k : Nat)
  | stream (c : CellId) (k : Nat)
  | copy (c : CopyId)
  | hart (die n : Nat)
  | func (x fn : Nat)
  | qp (x n : Nat)
  | peer (x port : Nat)
  | dispatcher (die : Nat)
  /-- A requester in another module, behind an edge link: its column, and the requester's number there (R24). -/
  | module (north : Bool) (cx tag : Nat)
  deriving DecidableEq, Repr

/-- Read-modify-write operations at a home (R223, R359). -/
inductive RmwOp | add | min | max | xchg | cas | and | or | xor
  deriving DecidableEq, Repr

structure Rmw where
  op : RmwOp
  /-- 4, 8 or 16 bytes. -/
  size : Nat
  v : Nat
  /-- The new value of a compare-and-swap; `v` is its compare value. -/
  new : Nat := 0
  fmt : Fmt := .i32
  rnd : Rnd := .rne
  uns : Bool := false
  deriving DecidableEq, Repr

/-- Scratchpad operations: local firings, stream elements and remote requests perform the same ones. -/
inductive MeOp
  | read (off size : Nat)
  | write (off size : Nat) (data : Vec) (mask : BitVec 16) (fills : Bool)
  /-- A stream's sideband bytes (R174 VECSB). -/
  | readSb (off sboff : Nat)
  | writeSb (off sboff : Nat) (data : Vec) (sb : DWord) (mask : BitVec 16) (fills : Bool)
  | merge (off : Nat) (pack : AgPack) (data : Vec) (mask : BitVec 16) (fmt : Fmt) (op : ROp) (src : CellId) (k : Nat)
  | rmw (off : Nat) (r : Rmw) (returns : Bool)
  | feSet (off : Nat)
  | feClr (off : Nat)
  | feTest (off : Nat)
  | ringRes (i : Nat)
  | ringPub (i : Nat) (j : Word)
  | ringPop (i : Nat)
  | ringPeek (i : Nat)
  | ringClose (i : Nat)
  | ringStat (i : Nat)
  | hem (i : Nat)
  deriving DecidableEq, Repr

/-- Operations on global memory. A store's bytes are enabled one by one. -/
inductive MemOp
  | load (size : Nat)
  | store (bytes : List (Option Byte))
  | rmw (r : Rmw) (returns : Bool)
  /-- A reduce stream's element (R271). -/
  | reduce (op : ROp) (fmt : Fmt) (pack : AgPack) (data : Vec) (mask : BitVec 16)
  deriving DecidableEq, Repr

inductive TlOp | arm (n : DWord) | read
  deriving DecidableEq, Repr

/-- What a request asks for, and of which home. -/
inductive Goal
  /-- A logical cell of the region `handle`. -/
  | me (handle : Word) (col row : Nat) (op : MeOp)
  | mem (va : DWord) (op : MemOp)
  | tl (c : CopyId) (op : TlOp)
  | launch (record reply : DWord) (overrides : List Word)
  deriving DecidableEq, Repr

/-- Where the response goes. -/
inductive Ret
  | none
  | reg (d : Opnd)
  | out (d : Opnd)
  | stream (k : Nat)
  /-- Sideband of a stream's element, whose data the request of that number brings. -/
  | streamSb (data : Nat)
  /-- A hart's register; `len` is the length of its instruction in bytes. -/
  | hartReg (rd : Reg) (size : Nat) (signed : Bool) (len : Nat := 4)
  /-- A floating-point register of a system core. -/
  | hartF (rd : Reg) (size len : Nat)
  | tag (t : Nat)
  deriving DecidableEq, Repr

/-- How far a request has come. -/
inductive ReqState
  /-- Waits to leave until the listed requests are performed (R310). -/
  | waiting (reqs : List Nat)
  /-- On its way to its home. -/
  | net
  /-- Held at its home or issuer: the fault's code, 0 for a wait without a fault (R139, R170, R361). -/
  | held (code : Nat)
  /-- In a side log (R195). -/
  | logged
  /-- Taken back from its home by a freeze before it landed: a replay entry (R130, R375). -/
  | recalled
  /-- Performed: the value that the response carries, and a fault code (0 for none). -/
  | performed (value : Vec) (code : Nat)
  deriving DecidableEq, Repr

structure Req where
  id : Nat
  agent : Agent
  slot : Nat := 0
  region : Option Word := none
  launch : Option Nat := none
  asid : Option (BitVec 16) := none
  vd : Nat := 0
  /-- Partition in whose address space a virtual address lies; 31 for none. -/
  part : Nat := 31
  goal : Goal
  ret : Ret := .none
  ctx : BitVec 3 := 0
  ver : BitVec 4 := 0
  fmt : Fmt := .i32
  st : ReqState := .net
  /-- An access through a bound bank: what the taker's image says of the line (R365). -/
  acc : Option LineAcc := none
  /-- It acts on a bound bank (R365). -/
  bound : Bool := false
  /-- Sideband that the response carries beside its value. -/
  sb : DWord := 0
  /-- The response has reached the issuer's cell. -/
  back : Bool := false
  /-- The response or acknowledgement has landed at the issuer (R129). -/
  landed : Bool := false
  /-- SYSTEM-scope completion of a write to a host or peer home is still owed (R228). -/
  owed : Bool := false
  /-- Issued again under STEPOVER: LOT_STALE is suppressed (R148). -/
  stepZ : Bool := false
  /-- VIA and ORDER of the map entry under which its packet left, which its response takes back (R187). -/
  way : Option Nat × Bool := (none, false)
  /-- Bytes that the response of a host's request carries. -/
  resp : List Byte := []
  /-- Something waits for its performance at SYSTEM scope (R228). -/
  sys : Bool := false
  /-- Bytes of a vector access that are performed, with what was read there; the empty list for none (R222). -/
  got : List (Option Byte) := []
  deriving DecidableEq, Repr

/-! ### The dynamic network (R181, R182) -/

/-- What a packet carries: a request to its home, or a response or notice to its issuer. -/
inductive Load
  | request (id : Nat)
  | response (id : Nat)
  /-- A logged acknowledgement: the performed notice of the store is still to come (R195, R80). -/
  | notice (id : Nat)
  deriving DecidableEq, Repr

structure Packet where
  load : Load
  vc : Nat
  src : CellId
  dst : CellId
  via : Option Nat
  /-- Along the column first (R187 ORDER), and the same once VIA is passed. -/
  colFirst : Bool
  after : Bool := false
  /-- At its destination cell the packet leaves the module: to the north, or to the south (R24). -/
  exits : Option Bool := none
  beats : Nat
  part : Option Nat := none
  /-- VIA and ORDER of the map entry under which it was injected (R188). -/
  way : Option Nat × Bool := (none, false)
  /-- The cycle in which the header reached the head of its buffer. -/
  head : Nat := 0
  deriving DecidableEq, Repr

structure OutPort where
  /-- Grants left, by input and virtual channel; an unlisted pair holds its weight + 1. -/
  cred : Store (Dir × Nat) Nat := []
  ptr : Dir × Nat := (.n, 0)
  busyUntil : Nat := 0
  /-- The promotion threshold of the round (R183). -/
  ageth : Nat := 512
  deriving DecidableEq, Repr

structure Node where
  bufs : Store (Dir × Nat) (List Packet) := []
  ports : Store Dir OutPort := []
  deriving DecidableEq, Repr

/-! ### Regions (R125-R148) -/

inductive RState | allocated | loaded | running | stopping | freezing | frozen | retired
  deriving DecidableEq, Repr

/-- A fault as a record needs it (R274). -/
structure FaultRec where
  code : Nat
  cls : Nat
  cell : Option (Nat × Nat) := none
  /-- Stream number, or context and slot. -/
  stream : Option Nat := none
  slot : Nat := 0
  addr : DWord := 0
  /-- 1: ADDR is a virtual address; 2: ADDR is a line of bank `bank`. -/
  kind : Nat := 0
  bank : Nat := 0
  aux : DWord := 0
  aux2 : Nat := 0
  more : Nat := 0
  /-- The request on which the fault was met (R354). -/
  req : Option Nat := none
  deriving DecidableEq, Repr

/-- A barrier level of an instance (R308). -/
structure TbarState where
  epoch : Nat := 0
  /-- A `tbar` of this epoch has fired; its arrival waits for these requests. -/
  due : Option (List Nat) := none
  arrived : Bool := false
  /-- Imprecise faults that this arrival reported under SUSPEND: the region freezes once the `tbar` completes (R145). -/
  freeze : Option FaultRec := none
  deriving DecidableEq, Repr

/-- A bank given away: from which logical cell and bank, to which instance of which launch, and whether that is
another launch's (R110, R133, R364). -/
structure Given where
  col : Nat
  row : Nat
  bank : Nat
  launch : Option Nat
  inst : Nat
  other : Bool
  deriving DecidableEq, Repr

structure Region where
  state : RState := .allocated
  /-- Names the region for good, where a handle may be used again (R208). -/
  uid : Nat := 0
  vd : Nat := 0
  width : Nat := 1
  height : Nat := 1
  /-- Place table: module fabric columns and rows (R126). -/
  cols : List Nat := []
  rows : List Nat := []
  /-- The launch (its number) or none for a standalone region (R383). -/
  launch : Option Nat := none
  inst : Nat := 0
  imageId : DWord := 0
  imageAddr : DWord := 0
  dztrap : Bool := false
  /-- The image passes the determinism check of R124, step 8. -/
  det : Bool := false
  refire : List (Nat × Nat × BitVec 6) := []
  cells : List (Nat × Nat) := []
  /-- The resident copy: each non-empty cell as an instance finds it at its start. The registers listed are those
  with initial contents (R105, R159). -/
  inits : List (Nat × Nat × Cell) := []
  /-- Instance lot of each die (R138). -/
  lots : List (Nat × Lot) := []
  wcs : Nat := 0
  lastSize : Nat := 0
  fault : Option FaultRec := none
  /-- A precise fault that froze the region still holds its firing (STEPOVER, R148). -/
  pendingFault : Bool := false
  /-- Origins and cycles of the freeze waves, first one first (R141, R142). -/
  wave : List (CellId × Nat) := []
  /-- Cycle at which a stop was given, cell and cycle of an exit (R129, R304). -/
  stopAt : Option Nat := none
  exitAt : Option (CellId × Nat) := none
  byStop : Bool := false
  lastActive : Nat := 0
  shut : Bool := false
  /-- `rg.shut`: SHUT for every later fault (R127, R147). -/
  forceShut : Bool := false
  tbars : Store Nat TbarState := []
  imprecise : List FaultRec := []
  given : List Given := []
  /-- Cycle stamp of the freeze: when the front has settled (R130). -/
  settleAt : Nat := 0
  /-- Records of faults met before the region is FROZEN, written when it is (R142, R143). -/
  due : List FaultRec := []
  /-- STEPOVER: the firing or element of `fault` goes on with its fault suppressed before anything else of the
  region does (R148). -/
  stepover : Bool := false
  deriving DecidableEq, Repr

/-! ### Lots (R200, R201) -/

structure Lots where
  counter : Lot := 0
  live : List Lot := []
  sweeping : Bool := false
  /-- Lots that ended during the sweep in progress: not issued again until a later sweep completes. -/
  barred : List Lot := []
  /-- Lots that ended during an earlier sweep, until the next one completes. -/
  passed : List Lot := []
  sweeps : BitVec 16 := 0
  deriving DecidableEq, Repr

/-! ### Side logs and MTLBs (R192, R195) -/

structure SideLog where
  /-- Requests held, in arrival order. -/
  entries : List Nat := []
  replays : BitVec 16 := 0
  discards : BitVec 16 := 0
  /-- Errors that the log's memory controller has corrected (R14). -/
  corrected : Nat := 0
  deriving DecidableEq, Repr

/-- A cached leaf: ASID, level (0, 1, 2), page base, entry. -/
structure TlbEntry where
  asid : BitVec 16
  level : Nat
  base : Nat
  leaf : DWord
  /-- Where the leaf lies, for the fresh-bit update (R194). -/
  at_ : Nat
  deriving DecidableEq, Repr

/-! ### Copies (R206-R211) -/

/-- A checked descriptor (R207). -/
structure CopyDesc where
  src : DWord
  dst : DWord
  len : Nat
  rows : Nat
  sstride : DWord
  dstride : DWord
  op : Option ROp
  fmt : Fmt
  scope : Scope
  acc : Bool
  diemask : BitVec 24
  origin : Word
  deriving DecidableEq, Repr

/-- A submitted copy: its number, the ASID it runs under, and its progress. -/
structure CopyJob where
  n : DWord
  desc : CopyDesc
  asid : Option (BitVec 16)
  /-- The regions that scratchpad references and ORIGIN name (R208). -/
  srcUid : Nat := 0
  dstUid : Nat := 0
  originUid : Nat := 0
  originLaunch : Option Nat := none
  /-- Lines written (numbers in copy order). -/
  written : List Nat := []
  /-- Units of lines that are written while the line is not (R222). -/
  parts : List (Nat × Nat) := []
  /-- Line and owner at which a miss suspended it. -/
  suspended : Option (Nat × Nat) := none
  /-- A line met a selvedge line (R210). -/
  touched : Bool := false
  /-- Writes to the host or to another module that are not performed at SYSTEM yet (R206, R228). -/
  owed : List Nat := []
  /-- One of them, or a read from another module, was answered with a fault. -/
  lost : Option Nat := none
  deriving DecidableEq, Repr

structure Copy where
  tlc : DWord := 0
  last : DWord := 0
  jobs : List CopyJob := []
  /-- Number and cause (R211). -/
  poison : Option (DWord × Nat) := none
  /-- Copies that failed with a cause, and copies discarded behind them (R393). -/
  failed : List (DWord × Option Nat) := []
  deriving DecidableEq, Repr

/-! ### Harts (R376-R380) -/

inductive Priv | u | s | m
  deriving DecidableEq, Repr

/-- The trap state of a hart, by the RISC-V privileged architecture. PRESUMED, log 11. -/
structure Csrs where
  mstatus : DWord := 0
  medeleg : DWord := 0
  mideleg : DWord := 0
  mie : DWord := 0
  mip : DWord := 0
  mtvec : DWord := 0
  mscratch : DWord := 0
  mepc : DWord := 0
  mcause : DWord := 0
  mtval : DWord := 0
  stvec : DWord := 0
  sscratch : DWord := 0
  sepc : DWord := 0
  scause : DWord := 0
  stval : DWord := 0
  satp : DWord := 0
  deriving DecidableEq, Repr

/-- What a hart waits for. -/
inductive HartWait
  /-- `rg.drain`: the cycle of its start, its destination, its region (R380, R387). -/
  | drain (since : Nat) (rd : Reg) (h : Word)
  /-- Earlier accesses of the hart, or another operation on the same handle (R379, R390). -/
  | queued
  /-- `tl.wait` for a copy context to reach a number, and its destination (R227). -/
  | timeline (c : CopyId) (n : DWord) (rd : Reg)
  | monitor
  /-- `launch`: the answer of the dispatcher to the launch of that number (R399). -/
  | launched (n : Nat)
  deriving DecidableEq, Repr

structure Hart where
  /-- x1 to x31; x0 is not stored. -/
  x : Store Nat DWord := []
  /-- f0 to f31 of a system core, a single boxed in ones, and fcsr: frm in bits [7:5], flags in [4:0] (log 9). -/
  f : Store Nat DWord := []
  fcsr : BitVec 8 := 0
  pc : DWord := 0
  priv : Priv := .m
  csr : Csrs := {}
  xpasid : DWord := 0
  xpseg : Store Nat DWord := []
  /-- XPIRQ of a tailor core (R378); of a system core, where XPIRQ reads 0, bit 0 is the interrupt of FTLGC.HELD (R82). -/
  xpirq : BitVec 2 := 0
  /-- Load reservation: home key and size. -/
  resv : Option (Nat × Nat) := none
  wait : Option HartWait := none
  running : Bool := false
  deriving DecidableEq, Repr

end Sys2Proof.Machine
end

