-- ==== Sys2Proof/Machine/TypesSched.lean ====
section
/-!
DEFINITION. The parts of the state that belong to launches, dispatchers and region context images (chapters 04, 05).
All of it is plain data.
-/
namespace Sys2Proof.Machine

/-- States of a launch (R121). `issued` is a launch whose record has not been checked yet. -/
inductive LState
  | issued | queued | placing | running | switching | saved | suspended | freezing | completing | complete
  deriving DecidableEq, Repr

/-- Who issued a launch (R83), and whom the acceptance status answers. -/
inductive Issuer
  | hart (die n : Nat) (rd : Reg)
  | firing (req : Nat)
  | host (x : Nat)
  /-- The subtree of a launch of another module: that module, and the launch's number there (R91). -/
  | module (home launch : Nat)
  deriving DecidableEq, Repr

/-- One configuration instance of a launch, N(0) = `n` (R89). -/
structure Inst where
  n : Nat
  handle : Option Word := none
  retired : Bool := false
  deriving DecidableEq, Repr

/-- A gang switch in progress (R113-R116). -/
structure Switch where
  tick : Nat
  deadline : Nat
  ticked : List Nat := []
  ready : List Nat := []
  committed : List Nat := []
  aborted : List Nat := []
  /-- The launches chosen to take the cells (R113). -/
  incoming : List Nat := []
  /-- 0 while open, 1 once the lead has sent COMMIT, 2 once it has sent ABORT. -/
  verdict : Nat := 0
  deriving DecidableEq, Repr

structure Launch where
  recAddr : DWord
  reply : DWord
  issuer : Issuer
  overrides : List Word := []
  /-- ASID under which the record is read (R84). -/
  asid : Option (BitVec 16) := none
  part : Nat
  vd : Nat
  hostSeq : Word := 0
  /-- FLAGS bit 0 of the LAUNCH message: vector 0 of the function when the record is written (R39). -/
  replyIrq : Bool := false
  /-- The copy of the record, 1,024 bytes once taken (R84). -/
  copy : List Byte := []
  st : LState := .issued
  /-- Acceptance order (R99). -/
  seq : Nat := 0
  cls : Nat := 0
  waitSince : Nat := 0
  /-- Start of the slice, the quantum charged for it, and the class charged (R101, R102). -/
  sliceStart : Nat := 0
  charge : Nat := 0
  /-- Length of the slice in µs. -/
  quantum : Nat := 0
  chargeCls : Nat := 0
  insts : List Inst := []
  /-- Level-1 teams excluded by TEAMMASK. -/
  masked : List Nat := []
  faults : Nat := 0
  firstFault : Nat := 0
  /-- At least one of its fault records was written (R94 CFLAGS). -/
  written : Bool := false
  shut : Bool := false
  /-- Status with which the launch will end, once it is ending (R95). -/
  ending : Option Nat := none
  switch : Option Switch := none
  misses : Nat := 0
  /-- Cycle at which a seam failure affected it (R119). -/
  seamAt : Option Nat := none
  /-- Logical die of the dispatcher that homes it (R100). -/
  home : Nat := 0
  /-- A policy or CANCEL kills it once its switch is over (R112, R117). -/
  killAfter : Bool := false
  /-- Where its instances will stand once an open switch commits: instance, columns, rows (R113). -/
  places : List (Nat × List Nat × List Nat) := []
  suspendAfter : Bool := false
  /-- Barrier epochs of its teams, by level and team number, and arrivals: level, instance, epoch (R308). -/
  released : Store (Nat × Nat) Nat := []
  arrivals : List (Nat × Nat × Nat) := []
  /-- Modules on which a subtree of it runs (R91), and level-1 teams that retired on others. -/
  outside : List Nat := []
  /-- The image of a subtree taken from another module. -/
  foreign : Option (List Byte) := none
  outTeams : List Nat := []
  deriving DecidableEq, Repr

/-- A bank token held by a dispatcher for an instance not placed yet (R110). `launchRec` is the record address and
the VD of the launch that it is for. -/
structure HeldToken where
  /-- The launch of the instance that gave it. -/
  giver : Option Nat := none
  /-- The giver's own launch, for a token with NEXT = 0. -/
  launch : Option Nat := none
  recAddr : DWord
  vd : Nat
  inst : Nat
  col : Nat
  row : Nat
  bank : Nat
  ref : BankRef
  deriving DecidableEq, Repr

/-- A freed region that a warm launch may take, with its resident copy (R104, R105). -/
structure Warm where
  region : Region
  deriving DecidableEq, Repr

structure Dispatcher where
  /-- DEF[c][v], in µs. -/
  deficit : Store (Nat × Nat) Int := []
  ptr : Store Nat Nat := []
  /-- Resets to 1,023 (R101). -/
  ptr0 : Store Nat Nat := []
  /-- Latest summary received from each die: (class, VD) pairs of weight above 0 with an eligible launch. -/
  summaries : Store Nat (List (Nat × Nat)) := []
  tokens : List HeldToken := []
  warm : List Warm := []
  deriving DecidableEq, Repr

/-- What a region context image captures beside its header: the cells in logical positions and the requests that
become replay entries (R133). -/
structure Snapshot where
  region : Region
  handle : Word
  cells : List (Nat × Nat × Cell)
  reqs : List Req
  /-- Lines of each bound bank: logical cell, bank, line, contents (R365). -/
  taken : List (Nat × Nat × Nat × Nat × Line) := []
  deriving DecidableEq, Repr

/-- An RCI that this partition and boot has written: its bytes and what they stand for (R135). Log 6. -/
structure Rci where
  part : Nat
  epoch : Nat
  bytes : List Byte
  snap : Snapshot
  deriving DecidableEq, Repr

/-- An operation by a hart on a region that waits (R390). -/
structure RegionOp where
  die : Nat
  hart : Nat
  handle : Word
  deriving DecidableEq, Repr

end Sys2Proof.Machine
end

