-- ==== Sys2Proof/Machine/TypesBoot.lean ====
section
/-!
DEFINITION. The parts of the state that belong to boot, life cycle, attestation and recovery (chapter 03). All of it
is plain data.
-/
namespace Sys2Proof.Machine

/-- Stages of BOOTST (R70). -/
inductive Stage
  | rom | wipe | verify | recoveryWait | recoveryVerify | firmware | abuaby | ready | halted
  deriving DecidableEq, Repr

def Stage.code : Stage → Nat
  | .rom => 0 | .wipe => 1 | .verify => 2 | .recoveryWait => 3 | .recoveryVerify => 4 | .firmware => 5
  | .abuaby => 6 | .ready => 7 | .halted => 8

/-- The boot state of an X-die: BOOTST, the image it verified, the digest received from the other X-die. -/
structure Boot where
  stage : Stage := .rom
  err : Nat := 0
  svn : BitVec 32 := 0
  /-- The image copied to SRAM, once copied (R67, R69). -/
  image : List Byte := []
  verified : Bool := false
  replace : Bool := false
  peerDigest : Option (BitVec 256) := none
  /-- RECGO length (R69). -/
  recgo : DWord := 0
  /-- Bytes that the host has written into BAR4's image area, by offset (R69). -/
  bar4 : Store Nat Byte := []
  deriving DecidableEq, Repr

/-- The SPDM responder of a PF's DOE mailbox (R68, R71). -/
structure Spdm where
  inSession : Bool := false
  /-- The 32-byte nonce last returned. -/
  nonce : Option (List Byte) := none
  /-- Keys of the port's IDE streams: 0 to 63 selective, 64 the link's (R33). -/
  ide : Store Nat (BitVec 256) := []
  deriving DecidableEq, Repr

/-- Fuses (R70, R71). -/
structure Fuses where
  lcs : BitVec 2
  svnMin : BitVec 32
  keyDigest : BitVec 256
  serial : BitVec 128
  deriving DecidableEq, Repr

/-- Progress of a tier's wipe (R67, R72). -/
inductive Wipe | pending | running | done | failed
  deriving DecidableEq, Repr

end Sys2Proof.Machine
end

