-- ==== Sys2Proof/Machine/TypesHost.lean ====
section
/-!
DEFINITION. The parts of the state that belong to the X-dies' host side: functions, windows, mailboxes, the ordering
point, UALink, shared ranges, Ethernet tenants (chapter 02). All of it is plain data.
-/
namespace Sys2Proof.Machine

/-- TDISP states of a VF (R33). -/
inductive Tdisp | unlocked | locked | run
  deriving DecidableEq, Repr

/-- A function of an X-die (R37, R38, R44). -/
structure Fn where
  en : Bool := false
  winlog : Nat := 0
  drops : BitVec 16 := 0
  /-- Window entries written so far (R41). -/
  windows : Store Nat DWord := []
  busy : BitVec 32 := 0
  overruns : BitVec 16 := 0
  slots : Store Nat (List Byte) := []
  tdisp : Tdisp := .unlocked
  deriving DecidableEq, Repr

/-- Routes of the ordering point (R53). -/
inductive InRoute
  | hbm (phys : Nat) | sram (phys : Nat) | lpddr (x : Nat) | flash | host | mailbox (fn : Nat)
  deriving DecidableEq, Repr

inductive InKind | write | relaxed | read | atomic
  deriving DecidableEq, Repr

/-- Parts that the ordering point holds, tracks or answers (R42, R53-R55). -/
structure InPart where
  /-- The request made for it once released; the part's number before. -/
  id : Nat
  requester : Agent
  kind : InKind
  route : InRoute
  goal : Goal
  asid : Option (BitVec 16)
  vd : Nat
  /-- Partition whose addresses it uses; 31 for none. -/
  part : Nat := 31
  tag : Nat := 0
  released : Bool := false
  /-- Cycle at which a read or AtomicOp was held by a miss (R42). -/
  heldAt : Option Nat := none
  /-- Function or queue pair page of a mailbox write: offset and bytes (R37). -/
  mailbox : Option (Nat × List Byte) := none
  /-- A part that its check stopped: the status with which it is answered in its turn (R42, R55). -/
  fate : Option Nat := none
  deriving DecidableEq, Repr

/-- A request at the shared-range agent: its UALink port, its address there, its PASID. -/
structure SharedReq where
  req : Nat
  port : Nat
  addr : Nat
  pasid : BitVec 20
  deriving DecidableEq, Repr

/-- A write, read or invalidation that the shared-range agent deals with (R48-R50). -/
structure SharedAgent where
  /-- Requests that have reached the agent. -/
  queue : List SharedReq := []
  /-- Lines of which a copy is held, with their 64 bytes. -/
  copies : Store Nat (List Byte) := []
  /-- Writes held for a grant, oldest first. -/
  heldWrites : List SharedReq := []
  /-- Reads served from a copy: request and line. -/
  serving : List (Nat × Nat) := []
  /-- Invalidations whose acknowledgement is owed. -/
  owed : List Nat := []
  /-- Writes granted and sent to their home, not performed yet: request and line. -/
  granted : List (Nat × Nat) := []
  deriving DecidableEq, Repr

/-- An Ethernet tenant (R59): eight words, and the rate bucket. -/
structure Tenant where
  words : Store Nat DWord := []
  bucket : Nat := 0
  /-- Cycle of the last refill. -/
  refilled : Nat := 0
  deriving DecidableEq, Repr

/-- A 64-byte mailbox reply that waits for its message's effect (R40): launches that are ending, or WINCTL.SYNC. -/
structure Reply where
  fn : Nat
  addr : DWord
  part : Nat
  asid : Option (BitVec 16)
  irq : Bool
  /-- Bytes 0 to 15. -/
  head : List Byte
  /-- RESULT; for MAPWIN the entry of this index. -/
  result : List Byte
  index : Option Nat := none
  launches : List Nat := []
  deriving DecidableEq, Repr

/-- What the device has sent outside, oldest first. -/
inductive OutMsg
  /-- An MSI-X interrupt of a function of an X-die. -/
  | msix (x fn vector : Nat)
  | completion (x fn tag : Nat) (status : Nat) (data : List Byte)
  | ualink (x port : Nat) (status : Nat) (data : List Byte)
  | roce (x qp : Nat) (status : Nat) (data : List Byte)
  | doe (pf : Nat) (data : List Byte)
  | directory (x : Nat) (line : Nat) (ack : Bool)
  /-- n bytes of an outbound request, over one port under one PASID. -/
  | hostRequest (x port : Nat) (pasid : BitVec 20) (addr n : Nat) (req : Nat)
  /-- A zero-length read over a PCIe port (R228). -/
  | zeroRead (x port req : Nat)
  | abuabyIrq (x : Nat) (cause : Nat)
  | unsupported (x fn : Nat)
  /-- A request that leaves over an edge link, by its number here. -/
  | edge (north : Bool) (cx req : Nat)
  /-- A response or a system message that leaves over an edge link. -/
  | edgeMsg (north : Bool) (cx : Nat) (m : EdgeIn)
  deriving DecidableEq, Repr

structure XDie where
  fns : Store Nat Fn := []
  winsel : DWord := 0
  /-- WINCTL.SYNC reads 1, and the parts that it waits for (R43). -/
  sync : Option (List Nat) := none
  inbound : List InPart := []
  expsel : Nat := 0
  expHeld : Store Nat DWord := []
  exports : Store (Nat × Nat) DWord := []
  srsel : Nat := 0
  srHeld : DWord := 0
  ranges : Store (Nat × Nat) DWord := []
  /-- Shared-range entries whose V is being cleared (R51), with the words to commit. -/
  clearing : Store Nat (DWord × DWord) := []
  shared : SharedAgent := {}
  replies : List Reply := []
  /-- Outbound requests that wait for their completion: number and port of R45. -/
  outgoing : List (Nat × Nat) := []
  /-- Posted writes sent over a PCIe port that no zero-length read covers yet: number and port (R228). -/
  posted : List (Nat × Nat) := []
  /-- Zero-length reads that are out: number, port, and the writes that they cover (R228). -/
  flushes : List (Nat × Nat × List Nat) := []
  /-- UALink ports 0-3 and PCIe ports 0-1 that are down. -/
  ualinkDown : List Nat := []
  pcieDown : List Nat := []
  tnsel : Nat := 0
  tnHeld : Store Nat DWord := []
  tenants : Store Nat Tenant := []
  /-- Frames that passed checks 0 to 4 and go to this X-die's checks 5 and 6 (R62). -/
  frames : List (List Byte) := []
  lfdrop : Store Nat (BitVec 32) := []
  /-- Flash writes stall: collection is held back and no free block remains (R82). -/
  flashStall : Bool := false
  deriving DecidableEq, Repr

end Sys2Proof.Machine
end

