-- ==== Sys2Proof/Machine/TypesLink.lean ====
section
/-!
DEFINITION. The parts of the state that belong to seams, edge links, power, monitors and the field log
(chapter 01). All of it is plain data.
-/
namespace Sys2Proof.Machine

/-- What one flit carries (R17): a token of a static network, or one beat of a packet of the dynamic one. -/
inductive FlitLoad
  | token (t : Tok)
  /-- A beat before the last. -/
  | beat
  /-- The last beat, with which the packet has crossed. -/
  | packet (p : Packet)
  /-- A token discarded with its instance while it was on its way (R303, R304). -/
  | void
  deriving DecidableEq, Repr

structure Flit where
  seq : Nat
  load : FlitLoad
  deriving DecidableEq, Repr

/-- One lane in one direction (R17, R18): the replay buffer holds the flits sent and not acknowledged, oldest
first. -/
structure Lane where
  buf : List Flit := []
  /-- Beats of a packet that holds the output port until they are sent (R181). -/
  pend : List FlitLoad := []
  nextSend : Nat := 0
  expect : Nat := 0
  /-- Sequence number named by a negative acknowledgement that the transmitter has not answered. -/
  nak : Option Nat := none
  /-- Consecutive unsuccessful retries of the oldest flit. -/
  retries : Nat := 0
  /-- Cycle of the last transmission or acknowledgement. -/
  lastSend : Nat := 0
  /-- The fourth retry of the oldest flit failed: its fifth follows the retraining (R19). -/
  stuck : Bool := false
  /-- Cycle in which the header beat of a packet was received whose last beat is to come. -/
  header : Option Nat := none
  deriving DecidableEq, Repr

/-- One crossing (R19): retraining since a cycle, and the cycles of the CRC errors that a window can still hold. -/
structure Crossing where
  retraining : Option Nat := none
  crc : List Nat := []
  deriving DecidableEq, Repr

/-- A request that crossed and has not been answered (R20), with the die on whose side its issuer lies. -/
structure Outstanding where
  req : Nat
  up : Bool
  deriving DecidableEq, Repr

structure Link where
  crossings : Store Nat Crossing := []
  table : List Outstanding := []
  /-- Crossing that failed. -/
  failed : Option Nat := none
  deriving DecidableEq, Repr

/-- A patch (R9). -/
structure Patch where
  clockGated : Bool := false
  powerGated : Bool := false
  lastActive : Nat := 0
  /-- Cycle at which a wake from power gating began. -/
  waking : Option Nat := none
  deriving DecidableEq, Repr

structure Power where
  state : PowerState := .active
  /-- Cycle at which the exit to ACTIVE began. -/
  exiting : Option Nat := none
  /-- Fabric clock of a C-die in MHz (R29). -/
  clocks : Store Nat Nat := []
  /-- Cycle of the last reading above a threshold, per C-die. -/
  lastOver : Store Nat Nat := []
  /-- Why a die is throttled: true when the power limit did it. -/
  byPower : Store Nat Bool := []
  patches : Store (Nat × Nat) Patch := []
  /-- Memories in self-refresh: owners 0-23 by physical die, 24 and 25. -/
  selfRefresh : List Nat := []
  deriving DecidableEq, Repr

/-- The field log of one die (R32). -/
structure FieldLog where
  /-- Lifetime in fabric cycles; the log shows it in hours. -/
  life : Nat := 0
  temps : Store Int Nat := []
  /-- Voltage excursions by their deviation in percent of nominal. -/
  volts : Store Int Nat := []
  corrected : Store Nat Nat := []
  /-- Retries and CRC errors of the link at each port. -/
  retries : Store Nat Nat := []
  crc : Store Nat Nat := []
  /-- Seam or port, crossing, cycle. -/
  failures : List (Nat × Nat × Nat) := []
  defmap : Store Nat DWord := []
  deriving DecidableEq, Repr

end Sys2Proof.Machine
end

