-- ==== Sys2Proof/Machine/Memory.lean ====
section
/-!
DEFINITION. Memory as a list of (key, byte) pairs in one canonical form, and its operations. A byte that is not
listed reads 0: DRAM is wiped to zero (R72); for flash it is a choice, log 7.
-/
namespace Sys2Proof.Machine

abbrev Memory := List Host.Cell

/-- What a key that is not listed reads as. -/
def Memory.unlisted (_ : Nat) : Byte := 0

/-- Keys strictly rising from above `lo`, and no entry equal to what an unlisted key reads as. -/
def Memory.wfFrom : Option Nat → Memory → Bool
  | _, [] => true
  | lo, (k, b) :: r =>
    (match lo with
      | none => true
      | some l => decide (l < k)) && b != Memory.unlisted k && Memory.wfFrom (some k) r

def Memory.wf (m : Memory) : Bool := Memory.wfFrom none m

/-- One byte. -/
def Memory.read : Memory → Nat → Byte
  | [], k => Memory.unlisted k
  | (k', b) :: r, k => if k' = k then b else if k < k' then Memory.unlisted k else Memory.read r k

/-- One byte written; writing what an unlisted key reads as removes the entry. -/
def Memory.write : Memory → Nat → Byte → Memory
  | [], k, b => if b = Memory.unlisted k then [] else [(k, b)]
  | (k', b') :: r, k, b =>
    if k' = k then (if b = Memory.unlisted k then r else (k, b) :: r)
    else if k < k' then (if b = Memory.unlisted k then (k', b') :: r else (k, b) :: (k', b') :: r)
    else (k', b') :: Memory.write r k b

/-- `n` bytes from `k` upward. -/
def Memory.readN (m : Memory) (k : Nat) : Nat → List Byte
  | 0 => []
  | n + 1 => m.read k :: Memory.readN m (k + 1) n

/-- Bytes written from `k` upward; `none` leaves a byte alone. -/
def Memory.writeN (m : Memory) (k : Nat) : List (Option Byte) → Memory
  | [] => m
  | none :: r => Memory.writeN m (k + 1) r
  | some b :: r => Memory.writeN (m.write k b) (k + 1) r

/-- Every byte of keys lo to hi − 1 forgotten: they read as unlisted. -/
def Memory.clear (m : Memory) (lo hi : Nat) : Memory := m.filter fun c => decide (c.1 < lo) || decide (hi ≤ c.1)

/-- Little-endian bytes of a number (R2). -/
def leBytes : Nat → Nat → List Byte
  | 0, _ => []
  | n + 1, v => BitVec.ofNat 8 (v % 256) :: leBytes n (v / 256)

end Sys2Proof.Machine
end

