-- ==== Sys2Proof/Machine/Crypto.lean ====
section
/-!
DEFINITION. The published standards that boot, tokens, measurements and launch frames name (00; 02 R58; 03 R66-R68, R71):
SHA-256 (FIPS 180-4), HMAC-SHA-256 (FIPS 198-1) and the verification of SLH-DSA-SHA2-128s (FIPS 205). PRESUMED, log 5. A
digest or key of n bytes as a number has its first byte lowest (R2).
-/
namespace Sys2Proof.Machine

/-- Big-endian bytes of a number, as these standards write them. -/
def beBytes (n v : Nat) : List Byte := (leBytes n v).reverse
def beNat (b : List Byte) : Nat := leNat b.reverse

/-! ### SHA-256 -/

/-- The first eight and first sixty-four prime numbers' root constants of the standard. -/
def shaStart : List Word :=
  [0x6a09e667, 0xbb67ae85, 0x3c6ef372, 0xa54ff53a, 0x510e527f, 0x9b05688c, 0x1f83d9ab, 0x5be0cd19]
def shaConstants : List Word :=
  [0x428a2f98, 0x71374491, 0xb5c0fbcf, 0xe9b5dba5, 0x3956c25b, 0x59f111f1, 0x923f82a4, 0xab1c5ed5] ++
  [0xd807aa98, 0x12835b01, 0x243185be, 0x550c7dc3, 0x72be5d74, 0x80deb1fe, 0x9bdc06a7, 0xc19bf174] ++
  [0xe49b69c1, 0xefbe4786, 0x0fc19dc6, 0x240ca1cc, 0x2de92c6f, 0x4a7484aa, 0x5cb0a9dc, 0x76f988da] ++
  [0x983e5152, 0xa831c66d, 0xb00327c8, 0xbf597fc7, 0xc6e00bf3, 0xd5a79147, 0x06ca6351, 0x14292967] ++
  [0x27b70a85, 0x2e1b2138, 0x4d2c6dfc, 0x53380d13, 0x650a7354, 0x766a0abb, 0x81c2c92e, 0x92722c85] ++
  [0xa2bfe8a1, 0xa81a664b, 0xc24b8b70, 0xc76c51a3, 0xd192e819, 0xd6990624, 0xf40e3585, 0x106aa070] ++
  [0x19a4c116, 0x1e376c08, 0x2748774c, 0x34b0bcb5, 0x391c0cb3, 0x4ed8aa4a, 0x5b9cca4f, 0x682e6ff3] ++
  [0x748f82ee, 0x78a5636f, 0x84c87814, 0x8cc70208, 0x90befffa, 0xa4506ceb, 0xbef9a3f7, 0xc67178f2]

/-- The eight working variables after one round with a constant and a schedule word. -/
def shaRound (v : List Word) (k w : Word) : List Word :=
  match v with
  | [a, b, c, d, e, f, g, h] =>
    let t := h + (e.rotateRight 6 ^^^ e.rotateRight 11 ^^^ e.rotateRight 25) + ((e &&& f) ^^^ (~~~e &&& g)) + k + w
    let u := (a.rotateRight 2 ^^^ a.rotateRight 13 ^^^ a.rotateRight 22) + ((a &&& b) ^^^ (a &&& c) ^^^ (b &&& c))
    [t + u, a, b, c, d + t, e, f, g]
  | _ => v

/-- The word that enters the schedule behind the sixteen in `w`. -/
def shaNext (w : List Word) : Word :=
  let x := w.getD 1 0
  let y := w.getD 14 0
  w.getD 0 0 + (x.rotateRight 7 ^^^ x.rotateRight 18 ^^^ (x >>> 3)) + w.getD 9 0
    + (y.rotateRight 17 ^^^ y.rotateRight 19 ^^^ (y >>> 10))

def shaRounds : List Word → List Word → List Word → List Word
  | [], _, v => v
  | k :: ks, w, v => shaRounds ks (w.tail ++ [shaNext w]) (shaRound v k (w.getD 0 0))

/-- The hash value after one block of 64 bytes. -/
def shaBlock (h : List Word) (b : List Byte) : List Word :=
  let w := (List.range 16).map fun i => BitVec.ofNat 32 (beNat ((b.drop (4 * i)).take 4))
  List.zipWith (· + ·) h (shaRounds shaConstants w h)

def shaBlocks : Nat → List Word → List Byte → List Word
  | 0, h, _ => h
  | n + 1, h, b => shaBlocks n (shaBlock h (b.take 64)) (b.drop 64)

/-- The digest, 32 bytes in order. -/
def shaDigest (b : List Byte) : List Byte :=
  let n := b.length
  let m := b ++ 0x80 :: List.replicate ((119 - n % 64) % 64) 0 ++ beBytes 8 (8 * n)
  (shaBlocks (m.length / 64) shaStart m).flatMap fun w => beBytes 4 w.toNat

def sha256 (b : List Byte) : BitVec 256 := BitVec.ofNat 256 (leNat (shaDigest b))

/-- HMAC-SHA-256 under a key of 32 bytes. -/
def hmacSha256 (key : BitVec 256) (b : List Byte) : BitVec 256 :=
  let pad (x : Byte) : List Byte := (leBytes 64 key.toNat).map (· ^^^ x)
  sha256 (pad 0x5c ++ shaDigest (pad 0x36 ++ b))

/-! ### Verification of SLH-DSA-SHA2-128s

n = 16, seven layers of height 9, FORS with 14 trees of height 12, Winternitz digits of four bits. -/

/-- An address: layer, tree, type, key pair, chain or tree height, hash or tree index. -/
structure SlhAdrs where
  layer : Nat := 0
  tree : Nat := 0
  kind : Nat := 0
  pair : Nat := 0
  height : Nat := 0
  index : Nat := 0

/-- The 22 bytes of its compressed form. -/
def SlhAdrs.bytes (a : SlhAdrs) : List Byte :=
  beBytes 1 a.layer ++ beBytes 8 a.tree ++ beBytes 1 a.kind ++ beBytes 4 a.pair ++ beBytes 4 a.height ++ beBytes 4 a.index

/-- F, H and T of the standard: the tweaked hash of a message under the public seed. -/
def slhHash (seed : List Byte) (a : SlhAdrs) (m : List Byte) : List Byte :=
  (shaDigest (seed ++ List.replicate 48 0 ++ a.bytes ++ m)).take 16

/-- Steps of a Winternitz chain from digit i on. -/
def slhChain (seed : List Byte) (a : SlhAdrs) (x : List Byte) (i : Nat) : Nat → List Byte
  | 0 => x
  | n + 1 => slhChain seed a (slhHash seed { a with index := i } x) (i + 1) n

/-- The 35 digits of a 16-byte message and its checksum. -/
def slhDigits (m : List Byte) : List Nat :=
  let d := m.flatMap fun b => [b.toNat / 16, b.toNat % 16]
  let sum := d.foldl (fun s x => s + (15 - x)) 0
  d ++ [sum / 256 % 16, sum / 16 % 16, sum % 16]

/-- The public key that a Winternitz signature stands for. -/
def slhWots (seed : List Byte) (a : SlhAdrs) (sig m : List Byte) : List Byte :=
  let tops := (slhDigits m).zipIdx.flatMap fun x =>
    slhChain seed { a with kind := 0, height := x.2 } ((sig.drop (16 * x.2)).take 16) x.1 (15 - x.1)
  slhHash seed { a with kind := 1, height := 0, index := 0 } tops

/-- The root over a leaf with its authentication path; `i` is the node's index in its tree, `at_` the tree's own place. -/
def slhClimb (seed : List Byte) (a : SlhAdrs) (node : List Byte) (i at_ level : Nat) (path : List Byte) : Nat → List Byte
  | 0 => node
  | n + 1 =>
    let a' := { a with height := level + 1, index := at_ / 2 }
    let s := path.take 16
    slhClimb seed a (slhHash seed a' (if i % 2 = 0 then node ++ s else s ++ node)) (i / 2) (at_ / 2) (level + 1)
      (path.drop 16) n

/-- The root of a layer's tree that a signature of one layer (44 times 16 bytes) stands for. -/
def slhTree (seed : List Byte) (a : SlhAdrs) (leaf : Nat) (sig m : List Byte) : List Byte :=
  let w := slhWots seed { a with pair := leaf } (sig.take 560) m
  slhClimb seed { a with kind := 2, pair := 0 } w leaf leaf 0 (sig.drop 560) 9

def slhLayers (seed : List Byte) (tree leaf : Nat) (m : List Byte) (layer : Nat) (sig : List Byte) : Nat → List Byte
  | 0 => m
  | n + 1 =>
    slhLayers seed (tree / 512) (tree % 512) (slhTree seed { layer := layer, tree := tree } leaf (sig.take 704) m) (layer + 1)
      (sig.drop 704) n

/-- The FORS public key of a signature over the 14 indices of twelve bits. -/
def slhFors (seed : List Byte) (a : SlhAdrs) (md sig : List Byte) : List Byte :=
  let v := beNat md
  let roots := (List.range 14).flatMap fun t =>
    let i := v / 2 ^ (12 * (13 - t)) % 2 ^ 12
    let s := (sig.drop (208 * t)).take 208
    let p := t * 4096 + i
    slhClimb seed a (slhHash seed { a with index := p } (s.take 16)) i p 0 (s.drop 16) 12
  slhHash seed { a with kind := 4, height := 0, index := 0 } roots

/-- The 30 bytes of the message digest: MGF1 over the first hash. -/
def slhMessage (r seed root m : List Byte) : List Byte :=
  (shaDigest (r ++ seed ++ shaDigest (r ++ seed ++ root ++ m) ++ [0, 0, 0, 0])).take 30

/-- The signature of 7,856 bytes verifies over a message, in the pure form with an empty context string. -/
def slhDsaVerify (key : BitVec 256) (msg sig : List Byte) : Bool :=
  let k := leBytes 32 key.toNat
  let seed := k.take 16
  let root := k.drop 16
  let d := slhMessage (sig.take 16) seed root (0 :: 0 :: msg)
  let md := d.take 21
  let tree := beNat ((d.drop 21).take 7) % 2 ^ 54
  let leaf := beNat ((d.drop 28).take 2) % 2 ^ 9
  let pk := slhFors seed { kind := 3, tree := tree, pair := leaf } md ((sig.drop 16).take 2912)
  sig.length == 7856 && slhLayers seed tree leaf pk 0 (sig.drop 2928) 7 == root

end Sys2Proof.Machine
end

