-- ==== Sys2Proof/Machine/Transcendental.lean ====
section
/-!
DEFINITION. The transcendental functions, correctly rounded (R247). A value is enclosed between two rationals in
fixed point; when both have the same floor at the resolution kept, that floor with a sticky mark stands for the
value. The precisions of `tries` are used in turn; an enclosure that never decides leaves the last bit to
`Config.transcendentalTail`, log 13.
-/
namespace Sys2Proof.Machine

/-- Resolution kept: far below half a quantum of any format. -/
def keepBits : Nat := 128

/-- Floor of a magnitude enclosed by lo and hi over 2^p, at 2^-keepBits, when it is decided. -/
def decided (p lo hi : Nat) : Option Nat :=
  let a := lo / 2 ^ (p - keepBits)
  if a = hi / 2 ^ (p - keepBits) then some a else none

/-- Σ over k = 1 .. n of 1 / (k 2^k): ln 2 from below over 2^p. -/
def ln2Loop : Nat → Nat → Nat → Nat
  | 0, _, acc => acc
  | k + 1, p, acc => ln2Loop k p (acc + 2 ^ p / ((k + 1) * 2 ^ (k + 1)))

def ln2Lo (p : Nat) : Nat := ln2Loop p p 0
def ln2Hi (p : Nat) : Nat := ln2Lo p + p + 2

/-- The exponential series of y over 2^p, from below and from above, for y below 2^p. -/
def expLo : Nat → Nat → Nat → Nat → Nat → Nat → Nat
  | 0, _, _, _, _, acc => acc
  | n + 1, k, p, y, term, acc =>
    let t := term * y / (2 ^ p * k)
    expLo n (k + 1) p y t (acc + t)

def expHi : Nat → Nat → Nat → Nat → Nat → Nat → Nat
  | 0, _, _, _, term, acc => acc + 2 * term + 2
  | n + 1, k, p, y, term, acc =>
    let t := term * y / (2 ^ p * k) + 1
    expHi n (k + 1) p y t (acc + t)

def expSeriesLo (p y : Nat) : Nat := expLo 120 1 p y (2 ^ p) (2 ^ p)
def expSeriesHi (p y : Nat) : Nat := expHi 120 1 p y (2 ^ p) (2 ^ p)

/-- Precisions tried in turn. -/
def tries : List Nat := [320, 480, 640]

/-- The first precision that decides; otherwise the tail of log 13 on the last enclosure's lower floor. -/
def refine (tag : Nat) (key : BitVec 32) (f : Nat → Nat × Nat) : Nat :=
  match tries.findSome? fun p => decided p (f p).1 (f p).2 with
  | some a => a
  | none =>
    let a := (f 640).1 / 2 ^ (640 - keepBits)
    if Config.transcendentalTail tag key then a + 1 else a

/-- A 32-bit name of an operand for `Config.transcendentalTail`. -/
def tailKey (neg : Bool) (m : Nat) (e : Int) : BitVec 32 :=
  BitVec.ofNat 32 (roundFloat .f32 .rtz true (.fin neg m e false))

/-- 2^x for x = ± m * 2^e, m > 0 (R247). -/
def exp2Fin (neg : Bool) (m : Nat) (e : Int) : Exact :=
  let mag := e + (Nat.log2 m : Int)
  if 12 ≤ mag then .fin false 1 (if neg then -100000 else 100000) true
  else if 0 ≤ e then
    let i : Int := m * 2 ^ e.toNat
    .fin false 1 (if neg then -i else i) false
  else
    let k := (-e).toNat
    if mag < -140 then
      (if neg then .fin false (2 ^ 128 - 1) (-128) true else .fin false (2 ^ 128) (-128) true)
    else
      let ip := m / 2 ^ k
      let fr := m % 2 ^ k
      if fr = 0 then .fin false 1 (if neg then -(ip : Int) else ip) false
      else
        -- x = i + g / 2^k with 0 < g < 2^k
        let g := if neg then 2 ^ k - fr else fr
        let i : Int := if neg then -(ip : Int) - 1 else ip
        let bounds (p : Nat) : Nat × Nat :=
          (expSeriesLo p (g * ln2Lo p / 2 ^ k), expSeriesHi p (g * ln2Hi p / 2 ^ k + 1))
        .fin false (refine 0 (tailKey neg m e) bounds) (i - keepBits) true

def Exact.exp2 : Exact → Exact
  | .nan => .nan
  | .inf n => if n then .zero false else .inf false
  | .fin n m e _ => if m = 0 then .one else exp2Fin n m e

/-- atanh series 2 (z + z^3/3 + …), z over 2^p, from below and above, for z at most 1/3. -/
def atanhLo : Nat → Nat → Nat → Nat → Nat → Nat → Nat
  | 0, _, _, _, _, acc => 2 * acc
  | n + 1, k, p, z2, pw, acc => atanhLo n (k + 2) p z2 (pw * z2 / 2 ^ p) (acc + pw / k)

def atanhHi : Nat → Nat → Nat → Nat → Nat → Nat → Nat
  | 0, _, _, _, pw, acc => 2 * (acc + 2 * pw + 2)
  | n + 1, k, p, z2, pw, acc => atanhHi n (k + 2) p z2 (pw * z2 / 2 ^ p + 1) (acc + pw / k + 1)

/-- ln (a / b) over 2^p for b ≤ a < 2 b, from below and above. -/
def lnRatioLo (p a b : Nat) : Nat :=
  let z := (a - b) * 2 ^ p / (a + b)
  atanhLo p 1 p (z * z / 2 ^ p) z 0

def lnRatioHi (p a b : Nat) : Nat :=
  let z := (a - b) * 2 ^ p / (a + b) + 1
  atanhHi p 1 p (z * z / 2 ^ p + 1) z 0

/-- log2 of a positive m * 2^e. -/
def log2Fin (m : Nat) (e : Int) : Exact :=
  let l := Nat.log2 m
  let ex := e + (l : Int)
  if m = 2 ^ l then Exact.ofInt ex
  else
    -- m / 2^l lies strictly between 1 and 2
    let fracLo (p : Nat) : Nat := lnRatioLo p m (2 ^ l) * 2 ^ p / ln2Hi p
    let fracHi (p : Nat) : Nat := lnRatioHi p m (2 ^ l) * 2 ^ p / ln2Lo p + 1
    if 0 ≤ ex then
      .fin false (refine 1 (tailKey false m e)
        (fun p => (ex.toNat * 2 ^ p + fracLo p, ex.toNat * 2 ^ p + fracHi p))) (-(keepBits : Int)) true
    else
      .fin true (refine 1 (tailKey false m e)
        (fun p => ((-ex).toNat * 2 ^ p - fracHi p, (-ex).toNat * 2 ^ p - fracLo p))) (-(keepBits : Int)) true

def Exact.log2 : Exact → Exact
  | .nan => .nan
  | .inf n => if n then .nan else .inf false
  | .fin n m e _ => if m = 0 then .inf true else if n then .nan else log2Fin m e

/-- k squarings over 2^p, rounding down or up. -/
def squareLo : Nat → Nat → Nat → Nat
  | 0, _, x => x
  | k + 1, p, x => squareLo k p (x * x / 2 ^ p)

def squareHi : Nat → Nat → Nat → Nat
  | 0, _, x => x
  | k + 1, p, x => squareHi k p (x * x / 2 ^ p + 1)

/-- tanh of a magnitude m * 2^e, m > 0, with the sign put back (R247). -/
def tanhFin (neg : Bool) (m : Nat) (e : Int) : Exact :=
  let mag := e + (Nat.log2 m : Int)
  if mag < -60 then .fin neg (m * 2 ^ 80 - 1) (e - 80) true
  else if 6 ≤ mag then .fin neg (2 ^ 88 - 1) (-88) true
  else
    -- y = 2 |x| / 256 is below 1; tanh |x| = (E - 1) / (E + 1) with E = exp (2 |x|)
    let bounds (p : Nat) : Nat × Nat :=
      let y := if 0 ≤ e + 1 + (p : Int) - 8 then m * 2 ^ (e + 1 + (p : Int) - 8).toNat
               else m / 2 ^ (-(e + 1 + (p : Int) - 8)).toNat
      let lo := squareLo 8 p (expSeriesLo p y)
      let hi := squareHi 8 p (expSeriesHi p (y + 1))
      ((lo - 2 ^ p) * 2 ^ p / (lo + 2 ^ p), (hi - 2 ^ p) * 2 ^ p / (hi + 2 ^ p) + 1)
    .fin neg (refine 2 (tailKey neg m e) bounds) (-(keepBits : Int)) true

def Exact.tanh : Exact → Exact
  | .nan => .nan
  | .inf n => .fin n 1 0 false
  | .fin n m e _ => if m = 0 then .zero n else tanhFin n m e

end Sys2Proof.Machine
end

