-- ==== Sys2Proof/Machine/Alu.lean ====
section
/-!
DEFINITION. Results on values: elements and lanes of operands, the result shapes of R313, integer, floating-point,
lane, conversion, pleated, matrix and random results (chapters 09, 12, 13), as functions of operand values alone.
-/
namespace Sys2Proof.Machine

/-- The value of a source: a vector, or a scalar-class value. -/
inductive Val | vec (v : VecVal) | scal (x : Word)
  deriving DecidableEq, Repr

/-- A result and its predicate result (R261). -/
structure Res where
  val : Val
  pred : Bool := false
  deriving DecidableEq, Repr

/-! ### Elements and lanes -/

/-- `w`-bit elements packed from element 0 upward. -/
def packElems (w : Nat) : List Nat → Nat
  | [] => 0
  | x :: xs => x % 2 ^ w + 2 ^ w * packElems w xs

def maskFrom (f : Nat → Bool) : BitVec 16 :=
  BitVec.ofNat 16 (packElems 1 ((List.range 16).map fun i => if f i then 1 else 0))

def VecVal.elemBits (v : VecVal) (i : Nat) : Nat := v.data.toNat / 2 ^ (fmtWidth v.fmt * i) % 2 ^ fmtWidth v.fmt

def VecVal.sbByte (v : VecVal) (i : Nat) : Nat := v.sb.toNat / 2 ^ (8 * i) % 256

def VecVal.decodeElem (v : VecVal) (i : Nat) : Exact :=
  decodeBits v.fmt (v.elemBits i) (v.sbByte (2 * (i / 32))) (v.sbByte (2 * (i / 32) + 1))

/-- Element i of a vector source exists and its group is unmasked (R236). -/
def VecVal.computed (v : VecVal) (i : Nat) : Bool :=
  decide (i < fmtCount v.fmt) && v.mask.getLsbD (fmtGroup v.fmt i)

def VecVal.elem? (v : VecVal) (i : Nat) : Option Exact :=
  if v.computed i then some (v.decodeElem i) else none

/-- Element i of a source; a scalar-class source supplies its value, decoded under `d`, to every element. -/
def Val.elem? (d : Fmt) (a : Val) (i : Nat) : Option Exact :=
  match a with
  | .vec v => v.elem? i
  | .scal x => some (decodeBits d (x.toNat % 2 ^ fmtWidth d) 0 0)

/-- Lane i as raw bits (R314). -/
def VecVal.lane (v : VecVal) (i : Nat) : Word := v.data.extractLsb' (32 * i) 32

def Val.lane (a : Val) (i : Nat) : Word :=
  match a with
  | .vec v => v.lane i
  | .scal x => x

def Val.mask (a : Val) : BitVec 16 :=
  match a with
  | .vec v => v.mask
  | .scal _ => 0xFFFF

def Val.isVec (a : Val) : Bool :=
  match a with
  | .vec _ => true
  | .scal _ => false

/-- The value of a scalar-class source. -/
def Val.word (a : Val) : Word := a.lane 0

/-- Sixteen lanes under a mask; masked lanes hold zero (R163). -/
def lanesVec (f : Nat → Word) (mask : BitVec 16) (fmt : Fmt) (sb : DWord) : VecVal :=
  { data := BitVec.ofNat 512
      (packElems 32 ((List.range 16).map fun i => if mask.getLsbD i then (f i).toNat else 0))
    mask := mask, fmt := fmt, sb := sb }

/-- A scalar result written to a vector destination (R313). -/
def spread (fmt : Fmt) (x : Word) : VecVal :=
  { data := BitVec.ofNat 512 (packElems (fmtWidth fmt) (List.replicate (fmtCount fmt) x.toNat))
    mask := 0xFFFF, fmt := fmt }

/-- The sideband that a bitwise result or `sel` takes from a data source (R314, R320). -/
def Val.sideband (a : Val) (fmt : Fmt) : DWord :=
  match a with
  | .vec v => if isPleated fmt then v.sb else 0
  | .scal _ => 0

/-! ### Integer results (R314-R321) -/

/-- Element by element on raw 32-bit values; `p` is the condition of the predicate result (R312). -/
def intRes (vector : Bool) (fmt : Fmt) (sb : DWord) (a b c : Val) (f : Word → Word → Word → Word)
    (p : Word → Word → Word → Bool) : Res :=
  if vector then
    let mask := a.mask &&& b.mask &&& c.mask
    { val := .vec (lanesVec (fun i => f (a.lane i) (b.lane i) (c.lane i)) mask fmt sb)
      pred := (List.range 16).any fun i => mask.getLsbD i && p (a.lane i) (b.lane i) (c.lane i) }
  else
    { val := .scal (f a.word b.word c.word), pred := p a.word b.word c.word }

/-- A relation: all ones in an element, 1 in the scalar form (R319). -/
def cmpRes (vector : Bool) (a b : Val) (p : Word → Word → Bool) : Res :=
  intRes vector .i32 0 a b (.scal 0)
    (fun x y _ => if p x y then (if vector then 0xFFFFFFFF else 1) else 0) (fun x y _ => p x y)

def mulhsW (a b : Word) : Word := BitVec.ofInt 32 (a.toInt * b.toInt / 4294967296)
def mulhuW (a b : Word) : Word := BitVec.ofNat 32 (a.toNat * b.toNat / 4294967296)
def minsW (a b : Word) : Word := if a.slt b then a else b
def maxsW (a b : Word) : Word := if a.slt b then b else a
def minuW (a b : Word) : Word := if a.ult b then a else b
def maxuW (a b : Word) : Word := if a.ult b then b else a
def absW (a : Word) : Word := if a.slt 0 then -a else a

/-- Division by zero gives all ones (R316, DZTRAP = 0). -/
def divsW (a b : Word) : Word := if b = 0 then 0xFFFFFFFF else BitVec.ofInt 32 (a.toInt.tdiv b.toInt)
def divuW (a b : Word) : Word := if b = 0 then 0xFFFFFFFF else a / b
def remsW (a b : Word) : Word := if b = 0 then a else BitVec.ofInt 32 (a.toInt.tmod b.toInt)
def remuW (a b : Word) : Word := if b = 0 then a else a % b

def clampInt (lo hi x : Int) : Int := if x < lo then lo else if hi < x then hi else x
/-- Clamped sums (R317). -/
def satS (x : Int) : Word := BitVec.ofInt 32 (clampInt (-2147483648) 2147483647 x)
def satU (x : Int) : Word := BitVec.ofInt 32 (clampInt 0 4294967295 x)
def leftS (x : Int) : Bool := clampInt (-2147483648) 2147483647 x != x
def leftU (x : Int) : Bool := clampInt 0 4294967295 x != x

/-- Shift amount: bits [4:0] (R318). -/
def shiftN (b : Word) : Nat := b.toNat % 32
def clzLoop : Nat → Word → Nat
  | 0, _ => 0
  | k + 1, a => if a.getLsbD k then 0 else 1 + clzLoop k a
def clzW (a : Word) : Word := BitVec.ofNat 32 (clzLoop 32 a)
def countBits {n : Nat} (a : BitVec n) : Nat := ((List.range n).filter a.getLsbD).length
def popcW (a : Word) : Word := BitVec.ofNat 32 (countBits a)

/-- A field of a word (R321). -/
def bfxW (pos len : Nat) (sx : Bool) (a : Word) : Word :=
  let f := a.toNat / 2 ^ pos % 2 ^ len
  if sx && f.testBit (len - 1) then BitVec.ofNat 32 (f + (2 ^ 32 - 2 ^ len)) else BitVec.ofNat 32 f

def bfiW (pos len : Nat) (a b : Word) : Word :=
  let m : Word := BitVec.ofNat 32 ((2 ^ len - 1) * 2 ^ pos)
  (a &&& ~~~m) ||| (BitVec.ofNat 32 (b.toNat * 2 ^ pos) &&& m)

/-! ### Floating-point results (R236, R322-R327) -/

/-- Blocks of 32 elements. -/
def chunks32 : Nat → List (Option Exact) → List (List (Option Exact))
  | 0, _ => []
  | k + 1, xs => xs.take 32 :: chunks32 k (xs.drop 32)

/-- A vector result from its elements' exact values (R236, R241, R242). -/
def floatVec (f : Fmt) (rnd : Rnd) (sat : Bool) (depth : Nat) (g : Nat → Option Exact) : VecVal :=
  let xs := (List.range (fmtCount f)).map g
  let per := 32 / fmtWidth f
  let mask := maskFrom fun k => (xs.drop (k * per)).take per |>.all Option.isSome
  let ys := (List.range (fmtCount f)).map fun i => if mask.getLsbD (fmtGroup f i) then (xs.getD i none) else none
  if isPleated f then
    let qs := (chunks32 (fmtCount f / 32) ys).map (quantiseBlock f depth)
    { data := BitVec.ofNat 512 (packElems (fmtWidth f) (qs.flatMap fun q => q.1))
      sb := BitVec.ofNat 64 (packElems 8 (qs.flatMap fun q => [q.2.1, q.2.2]))
      mask := mask, fmt := f }
  else
    { data := BitVec.ofNat 512 (packElems (fmtWidth f) (ys.map fun
        | some x => roundTo f rnd sat x
        | none => 0))
      mask := mask, fmt := f }

/-- Result of `g` on the elements: one scalar value, or a vector. A pleated result is always a vector (R313). -/
def floatRes (vector : Bool) (f : Fmt) (rnd : Rnd) (sat : Bool) (g : Nat → Option Exact) : Res :=
  if vector || isPleated f then { val := .vec (floatVec f rnd sat 4 g) }
  else
    match g 0 with
    | some x => { val := .scal (BitVec.ofNat 32 (roundTo f rnd sat x)) }
    | none => { val := .scal 0 }

def lift1 (a : Option Exact) (f : Exact → Exact) : Option Exact := a.map f
def lift2 (a b : Option Exact) (f : Exact → Exact → Exact) : Option Exact :=
  match a, b with
  | some x, some y => some (f x y)
  | _, _ => none
def lift3 (a b c : Option Exact) (f : Exact → Exact → Exact → Exact) : Option Exact :=
  match a, b, c with
  | some x, some y, some z => some (f x y z)
  | _, _, _ => none

/-- A floating-point relation (R324): a mask of FMT's element width, or 1 in the scalar form. -/
def fcmpRes (vector : Bool) (f : Fmt) (a b : Val) (p : Exact → Exact → Bool) : Res :=
  let rel (i : Nat) : Option Bool := (a.elem? .f32 i).bind fun x => (b.elem? .f32 i).map (p x)
  if vector then
    let xs := (List.range (fmtCount f)).map rel
    let per := 32 / fmtWidth f
    let mask := maskFrom fun k => (xs.drop (k * per)).take per |>.all Option.isSome
    let ones := 2 ^ fmtWidth f - 1
    { val := .vec
        { data := BitVec.ofNat 512 (packElems (fmtWidth f) ((List.range (fmtCount f)).map fun i =>
            if mask.getLsbD (fmtGroup f i) && xs.getD i none == some true then ones else 0))
          mask := mask, fmt := f }
      pred := xs.any (· == some true) }
  else
    let r := rel 0 == some true
    { val := .scal (if r then 1 else 0), pred := r }

/-- The tag under which a source's elements are classified. -/
def Val.tag (d : Fmt) (a : Val) : Fmt :=
  match a with
  | .vec v => v.fmt
  | .scal _ => d

def fclassRes (vector : Bool) (f : Fmt) (a : Val) : Res :=
  let cls (i : Nat) : Option Nat := (a.elem? .f32 i).map (classMask (a.tag .f32))
  if vector then
    let xs := (List.range (fmtCount f)).map cls
    let per := 32 / fmtWidth f
    let mask := maskFrom fun k => (xs.drop (k * per)).take per |>.all Option.isSome
    { val := .vec
        { data := BitVec.ofNat 512 (packElems (fmtWidth f) ((List.range (fmtCount f)).map fun i =>
            if mask.getLsbD (fmtGroup f i) then (xs.getD i none).getD 0 else 0))
          mask := mask, fmt := f } }
  else { val := .scal (BitVec.ofNat 32 ((cls 0).getD 0)) }

/-- n of `fscale`: sixteen I32 elements, or the scalar (R327). -/
def scaleCount (b : Val) (i : Nat) : Option Int :=
  match b with
  | .vec v => if decide (i < 16) && v.mask.getLsbD i then some (v.lane i).toInt else none
  | .scal x => some x.toInt

/-! ### Lane movements (R328-R334) -/

def VecVal.moved (v : VecVal) (f : Nat → Word) (m : Nat → Bool) : VecVal := lanesVec f (maskFrom m) v.fmt v.sb

def asVec (a : Val) : VecVal :=
  match a with
  | .vec v => v
  | .scal x => spread .i32 x

def bcastVec (v : VecVal) (n : Nat) : VecVal := v.moved (fun _ => v.lane (n % 16)) (fun _ => v.mask.getLsbD (n % 16))

def lrotVec (v : VecVal) (n : Nat) : VecVal :=
  let from_ (i : Nat) : Nat := (i + 16 - n % 16) % 16
  v.moved (fun i => v.lane (from_ i)) (fun i => v.mask.getLsbD (from_ i))

def shufVec (v : VecVal) (x : Val) : VecVal :=
  let k (i : Nat) : Nat := (x.lane i).toNat % 16
  v.moved (fun i => v.lane (k i)) (fun i => x.mask.getLsbD i && v.mask.getLsbD (k i))

def inslVec (v : VecVal) (b : Word) (n : Nat) : VecVal :=
  v.moved (fun i => if i = n % 16 then b else v.lane i) (fun i => i == n % 16 || v.mask.getLsbD i)

/-- Positions of the 1 bits of a mask, ascending. -/
def onesOf (m : BitVec 16) : List Nat := (List.range 16).filter m.getLsbD

def cmprVec (v : VecVal) : VecVal :=
  let ps := onesOf v.mask
  v.moved (fun i => v.lane (ps.getD i 0)) (fun i => decide (i < ps.length))

def expdVec (v : VecVal) (m : BitVec 16) : VecVal :=
  let j (i : Nat) : Nat := ((List.range i).filter m.getLsbD).length
  v.moved (fun i => v.lane (j i)) (fun i => m.getLsbD i && v.mask.getLsbD (j i))

/-- SA under a new mask: every lane that it enables keeps the register's payload (R333). -/
def remask (v : VecVal) (m : BitVec 16) : VecVal := lanesVec v.lane m v.fmt v.sb

/-! ### Reductions (R252, R330, R331) -/

/-- The value that an encoding stands for again. -/
def reround (f : Fmt) (rnd : Rnd) (sat : Bool) (x : Exact) : Exact := decodeBits f (roundTo f rnd sat x) 0 0

/-- One node on two values: addition rounds (I32 wraps), min and max choose. -/
def nodeOp (f : Fmt) (rnd : Rnd) (sat : Bool) (op : ROp) (x y : Exact) : Exact :=
  match op with
  | .min => x.fmin y
  | .max => x.fmax y
  | .add =>
    match f with
    | .i32 =>
      (match x, y with
        | .fin n m e _, .fin n' m' e' _ =>
          Exact.ofInt (BitVec.ofInt 32 (signedAt n m e 0 + signedAt n' m' e' 0)).toInt
        | _, _ => .nan)
    | _ => reround f rnd sat (x.add rnd y)

/-- Adjacent pairs of one level (R250); an absent child leaves the other unchanged. -/
def pairUp (node : Exact → Exact → Exact) : List (Option Exact) → List (Option Exact)
  | x :: y :: r =>
    (match x, y with
      | some a, some b => some (node a b)
      | some a, none => some a
      | none, b => b) :: pairUp node r
  | [x] => [x]
  | [] => []

def treeLoop (node : Exact → Exact → Exact) : Nat → List (Option Exact) → Option Exact
  | 0, xs => xs.headD none
  | k + 1, xs => treeLoop node k (pairUp node xs)

/-- The balanced tree over at most 2^7 leaves. -/
def treeSum (node : Exact → Exact → Exact) (xs : List (Option Exact)) : Option Exact := treeLoop node 7 xs

/-- A leaf: with FMT I32 it is rounded to I32 first (R330). -/
def leafOf (f : Fmt) (rnd : Rnd) (sat : Bool) (x : Exact) : Exact :=
  match f with
  | .i32 => reround .i32 rnd sat x
  | _ => x

/-- The root's encoding (R252). -/
def reduceCode (f : Fmt) (rnd : Rnd) (sat : Bool) (op : ROp) (v : VecVal) : Nat :=
  let xs := (List.range (fmtCount v.fmt)).map fun i => (v.elem? i).map (leafOf f rnd sat)
  match treeSum (nodeOp f rnd sat op) xs with
  | some x => roundTo f rnd sat x
  | none => 0

def reduceRes (vectorDst : Bool) (f : Fmt) (rnd : Rnd) (sat : Bool) (op : ROp) (v : VecVal) : Res :=
  let c := reduceCode f rnd sat op v
  if vectorDst then { val := .vec { data := BitVec.ofNat 512 c, mask := 1, fmt := f } }
  else { val := .scal (BitVec.ofNat 32 c) }

/-- Inclusive prefix: each computed element gives the rounding of the last output and itself. -/
def scanLoop (f : Fmt) (rnd : Rnd) (sat : Bool) (op : ROp) : Option Exact → List (Option Exact) → List (Option Exact)
  | _, [] => []
  | acc, none :: r => none :: scanLoop f rnd sat op acc r
  | acc, some x :: r =>
    let y := match acc with
      | none => reround f rnd sat x
      | some a => reround f rnd sat (nodeOp f rnd sat op a (leafOf f rnd sat x))
    some y :: scanLoop f rnd sat op (some y) r

def scanVec (f : Fmt) (rnd : Rnd) (sat : Bool) (op : ROp) (v : VecVal) : VecVal :=
  let outs := scanLoop f rnd sat op none ((List.range (fmtCount f)).map v.elem?)
  floatVec f rnd sat 4 fun i => outs.getD i none

/-! ### Conversion and pleated blocks (R337-R342) -/

/-- `cvt`, `pack` and `unpack`: conversion of the elements that `g` gives. -/
def cvtRes (vector : Bool) (f : Fmt) (rnd : Rnd) (sat : Bool) (g : Nat → Option Exact) : Res :=
  let r := floatRes vector f rnd sat g
  let n := if vector || isPleated f then fmtCount f else 1
  { r with pred := (List.range n).any fun i => match g i with
      | some x => overflows f rnd x
      | none => false }

def packSrc (f : Fmt) (a b : VecVal) (i : Nat) : Option Exact :=
  let h := fmtCount f / 2
  if i < h then a.elem? i else b.elem? (i - h)

def unpackSrc (f : Fmt) (a : VecVal) (part i : Nat) : Option Exact := a.elem? (part * fmtCount f + i)

def pbqRes (f : Fmt) (depth : Nat) (a : VecVal) : Res :=
  let v := floatVec f .rne true depth a.elem?
  { val := .vec v
    pred := (List.range (fmtCount f / 32)).any fun b => v.sbByte (2 * b) == 0xFF || v.sbByte (2 * b + 1) == 0xFF }

def blockExists (v : VecVal) (b : Nat) : Bool :=
  match v.fmt with
  | .pb8 => decide (b ≤ 1)
  | .pb4 => true
  | _ => false

/-- Bits [lo + len − 1 : lo] replaced. -/
def setBits {n : Nat} (x : BitVec n) (lo len v : Nat) : BitVec n :=
  (x &&& ~~~(BitVec.ofNat n ((2 ^ len - 1) * 2 ^ lo))) ||| BitVec.ofNat n (v % 2 ^ len * 2 ^ lo)

def setExps (v : VecVal) (b : Nat) (e : Word) : VecVal :=
  if blockExists v b then { v with sb := setBits v.sb (16 * b) 16 (e.toNat % 65536) } else v

/-! ### Random words (R254, R255) -/

def philoxRound (c0 c1 c2 c3 k0 k1 : Word) : Word × Word × Word × Word :=
  let p0 := 0xD2511F53 * c0.toNat
  let p1 := 0xCD9E8D57 * c2.toNat
  (BitVec.ofNat 32 (p1 / 4294967296) ^^^ c1 ^^^ k0, BitVec.ofNat 32 p1,
    BitVec.ofNat 32 (p0 / 4294967296) ^^^ c3 ^^^ k1, BitVec.ofNat 32 p0)

def philoxLoop : Nat → Word × Word × Word × Word → Word → Word → Word × Word × Word × Word
  | 0, c, _, _ => c
  | n + 1, (c0, c1, c2, c3), k0, k1 =>
    philoxLoop n (philoxRound c0 c1 c2 c3 k0 k1) (k0 + 0x9E3779B9) (k1 + 0xBB67AE85)

def philox (c : BitVec 128) (k0 k1 : Word) : List Nat :=
  let r := philoxLoop 10 (c.extractLsb' 0 32, c.extractLsb' 32 32, c.extractLsb' 64 32, c.extractLsb' 96 32) k0 k1
  [r.1.toNat, r.2.1.toNat, r.2.2.1.toNat, r.2.2.2.toNat]

/-- The 16 words of one firing (R255); a masked counter element reads 0. -/
def rngVec (v : VecVal) (k0 k1 : Word) : VecVal :=
  let c : BitVec 128 := BitVec.ofNat 128
    (packElems 32 ((List.range 4).map fun i => if v.mask.getLsbD i then (v.lane i).toNat else 0))
  { data := BitVec.ofNat 512
      (packElems 32 ((List.range 4).flatMap fun j => philox (c + BitVec.ofNat 128 j) k0 k1))
    mask := 0xFFFF }

/-! ### Weight slots and matrix steps (R248-R251, R344-R349) -/

/-- Elements of a slot (R344). -/
def slotCap : Fmt → Nat
  | .i32 | .f32 => 256 | .bf16 | .f16 => 512 | _ => 1024

def WSlot.decodeElem (s : WSlot) (p : Nat) : Exact :=
  let w := fmtWidth s.fmt
  let e (k : Nat) : Nat := s.scales.toNat / 2 ^ (8 * k) % 256
  decodeBits s.fmt (s.data.toNat / 2 ^ (w * p) % 2 ^ w) (e (2 * (p / 32))) (e (2 * (p / 32) + 1))

/-- `wld` (R345): token place t of a slot; none for a PB4 token beyond place 7. -/
def wldSlot (s : WSlot) (v : VecVal) (t : Nat) : Option WSlot :=
  if v.fmt = .pb4 ∧ 8 ≤ t then none
  else
    let shown := lanesVec v.lane v.mask v.fmt v.sb
    some
      { data := setBits s.data (512 * t) 512 shown.data.toNat
        scales :=
          match v.fmt with
          | .pb8 => setBits s.scales (32 * t) 32 v.sb.toNat
          | .pb4 => setBits s.scales (64 * t) 64 v.sb.toNat
          | _ => s.scales
        fmt := v.fmt }

/-- One element of `wldt` written to its slot, which takes the tag. -/
def wldtPut (fmt : Fmt) (slots : Store Nat WSlot) (k g bits : Nat) : Store Nat WSlot :=
  let n := k + g / slotCap fmt
  let s := slots.get {} n
  slots.put n { s with data := setBits s.data (fmtWidth fmt * (g % slotCap fmt)) (fmtWidth fmt) bits, fmt := fmt }

/-- `wldt` (R346); none for FORMAT_SPAN. -/
def wldtSlots (slots : Store Nat WSlot) (v : VecVal) (k r0 c : Nat) : Option (Store Nat WSlot) :=
  let is := (List.range (fmtCount v.fmt)).filter v.computed
  let g (i : Nat) : Nat := (r0 + i) * 16 + c
  if isPleated v.fmt || is.any (fun i => decide (4 ≤ k + g i / slotCap v.fmt)) then none
  else some (is.foldl (fun s i => wldtPut v.fmt s k (g i) (v.elemBits i)) slots)

/-- Rows of a matrix step (R348): the elements of an A token. -/
def mmaRows (f : Fmt) : Nat := fmtCount f

/-- FORMAT_SPAN of a step (R348). -/
def spanFault (slots : Store Nat WSlot) (a : Fmt) (wslot wrow : Nat) : Bool :=
  let w := (slots.get {} wslot).fmt
  let cap := slotCap w
  let last := (wrow * 16 + mmaRows a * 16 - 1) / cap
  decide (cap ≤ wrow * 16) || decide (4 ≤ wslot + last)
    || (List.range (last + 1)).any fun i => (slots.get {} (wslot + i)).fmt != w

/-- W(r, j) (R344). -/
def weightAt (slots : Store Nat WSlot) (wslot wrow r j : Nat) : Exact :=
  let cap := slotCap (slots.get {} wslot).fmt
  let g := (wrow + r) * 16 + j
  (slots.get {} (wslot + g / cap)).decodeElem (g % cap)

def isNarrow : Fmt → Bool
  | .e4m3 | .e5m2 | .pb8 | .pb4 => true | _ => false

def roundF32 (x : Exact) : Exact := reround .f32 .rne false x

/-- The internal format of the wide rule (R250). -/
def roundInternal (x : Exact) : Exact :=
  match x with
  | .fin neg m e st =>
    let y := roundPrec 40 (-165) .rne neg m e st
    if y.1 != 0 && !magGt 1 128 y.1 y.2 then .inf neg else .fin neg y.1 y.2 false
  | x => x

def exactSum : List Exact → Exact
  | [] => .zero false
  | [x] => x
  | x :: r => r.foldl (Exact.add .rne) x

def Exact.isFin : Exact → Bool
  | .fin .. => true | _ => false

/-- A chunk of the wide rule: special products decide as in R249, finite ones go through the tree (R250). -/
def wideChunk (c : List (Option Exact)) : Exact :=
  let special := (c.filterMap id).filter fun x => !x.isFin
  roundF32 (if special.isEmpty then (treeSum (fun x y => roundInternal (x.add .rne y)) c).getD (.zero false)
    else exactSum special)

/-- Chunk values of one column from its products (R249, R250). -/
def chunkVals (narrow : Bool) (ps : List Exact) : List Exact :=
  if narrow then [roundF32 (exactSum ps)]
  else (chunks32 ((ps.length + 31) / 32) (ps.map some)).map wideChunk

/-- Chunks, then C_in, in F32 under RNE (R251). -/
def colSum (cs : List Exact) (cin : Option Exact) : Exact :=
  let acc := match cs with
    | [] => Exact.zero false
    | c :: r => r.foldl (fun a x => roundF32 (a.add .rne x)) c
  match cin with
  | some c => roundF32 (acc.add .rne c)
  | none => acc

/-- The result of `mma` (cin present) and `mmz` (R349). -/
def matrixVec (slots : Store Nat WSlot) (f : Fmt) (rnd : Rnd) (sat : Bool) (a : VecVal) (cin : Option Val)
    (wslot wrow : Nat) : VecVal :=
  let narrow := isNarrow a.fmt && isNarrow (slots.get {} wslot).fmt
  let av := (List.range (mmaRows a.fmt)).map a.elem?
  let col (j : Nat) (c : Option Exact) : Exact :=
    colSum (chunkVals narrow (av.zipIdx.map fun p =>
      match p.1 with
      | some x => x.mul (weightAt slots wslot wrow p.2 j)
      | none => Exact.zero false)) c
  floatVec f rnd sat 4 fun j =>
    if 16 ≤ j then none
    else match cin with
      | none => some (col j none)
      | some c => (c.elem? .f32 j).map fun x => col j (some x)

end Sys2Proof.Machine
end

