-- ==== Sys2Proof/Machine/State.lean ====
section
/-!
DEFINITION. The state of the module as plain data, the reasons a step can stop, and the state after reset.
-/
namespace Sys2Proof.Machine

/-- Whose turn it is (MODEL, log 2). -/
inductive Turn | hart (die n : Nat) | ce (c : CellId) | event (i : Instr)
  deriving DecidableEq, Repr

/-- The unit that executes an instruction (MODEL, log 2). -/
inductive Focus | none | ce (c : CellId) (slot : Nat) | hart (die n : Nat)
  deriving DecidableEq, Repr

/-- Feature negotiation (R63-R65). -/
structure Feat where
  offer : BitVec 128 := 0
  active : BitVec 128 := 0
  accepted : Bool := false
  deriving DecidableEq, Repr

/-- The module. The fields are listed with their rules in INVENTORY.md. -/
structure State where
  agenda : List (Nat × Turn) := []
  focus : Focus := .none
  cycle : Nat := 0
  freeIx : Nat := 0
  nextId : Nat := 1
  fuses : Fuses
  wipes : Store Tier Wipe := []
  boots : Store Nat Boot := []
  spdm : Store Nat Spdm := []
  firmware : Store Nat (List Byte) := []
  mediaKey : Nat := 0
  power : Power := {}
  fieldLog : Store Nat FieldLog := []
  flushedLog : Store Nat FieldLog := []
  lastFlush : Nat := 0
  feat : Feat := {}
  regs : Store (Nat × Nat) DWord := []
  mem : Memory := []
  eccBad : List Nat := []
  lanes : Store LaneId Lane := []
  links : Store LinkId Link := []
  cells : Store CellId Cell := []
  nodes : Store CellId Node := []
  reqs : List Req := []
  regions : Store Word Region := []
  launches : Store Nat Launch := []
  dispatchers : Store Nat Dispatcher := []
  saves : Store (Nat × Nat) Snapshot := []
  vault : List Rci := []
  epochs : Store Nat Nat := []
  lots : Store Nat Lots := []
  slogs : Store (Nat × Nat) SideLog := []
  mtlbs : Store (Nat × Nat) (List TlbEntry) := []
  copies : Store CopyId Copy := []
  harts : Store (Nat × Nat) Hart := []
  xdies : Store Nat XDie := []
  /-- Cycle of the last reset of each die: its partition's cycle counter starts there (R274, R311). -/
  resetAt : Store Nat Nat := []
  outbox : List OutMsg := []
  deriving DecidableEq, Repr

/-- Why the machine stops with a fault. -/
inductive Fault
  /-- The schedule names a hart or cell that the module does not have. Raised by `step`; safe. -/
  | noUnit
  deriving DecidableEq, Repr

/-- Why an instruction has no meaning here. -/
inductive Refusal
  /-- An instruction of the table that the model does not execute. Raised by `exec`; safe. -/
  | notModelled (mnemonic : String)
  /-- A word of the V set on a system core: the opcode table holds none, and the spec states neither the length of a
  vector register, which the RISC-V architecture leaves to the implementation, nor an effect. Raised by `step`; safe,
  log 9. -/
  | vectorSet (word : BitVec 32)
  deriving DecidableEq, Repr

/-- Right after power-on: fuses and flash as manufactured, every other field empty, and COLD_RESET as the one turn
(R67). Register values that the spec states are given by the reset functions of Regs.lean; the rest are log 3. -/
def State.reset : State :=
  { agenda := [(0, .event .coldReset)]
    fuses := { lcs := Config.fusedLcs, svnMin := Config.fusedSvnMin
               keyDigest := Config.fusedKeyDigest, serial := Config.deviceSerial }
    firmware := [(24, Config.flashImage 0), (25, Config.flashImage 1)] }

end Sys2Proof.Machine
end

