-- ==== Sys2Proof/Machine/Regs.lean ====
section
/-!
DEFINITION. The map of the control blocks: which register lies at an offset of a die, its reset value and the bits
that hold state (chapters 01 to 07). Reserved and write-only bits are never stored, so they read 0 (R4).
-/
namespace Sys2Proof.Machine

/-- The control-block registers. -/
inductive RegName
  | defmap (w : Nat) | defmapst | modid | monpr (k : Nat) | seamst (p : Nat) | sfw (p : Nat) | partcfg
  | pdfq | pdfqst | ftlgc | dnwgt (w : Nat) | dmap (i : Nat) | slogst (i : Nat) | slogctl (i : Nat) | lotst
  | mtrbase (i : Nat) | pwrlim | winsel | winent | winctl | lfdrop (n : Nat) | tnsel | tnent (j : Nat) | xpartst
  | xpart (p : Nat) | pasidtbl (i : Nat) | expsel | expent (j : Nat) | srsel | srent (j : Nat) | vdcfg (v : Nat)
  | vdst (v : Nat) | vdasid (v : Nat) | fncfg (f : Nat) | winst (f : Nat)
  deriving DecidableEq, Repr

/-- C-dies are 0-23, X-dies 24 and 25 (R3). -/
def isC (die : Nat) : Bool := decide (die < 24)
def isX (die : Nat) : Bool := die == 24 || die == 25

/-- The die's position (R3). -/
def dieCx (die : Nat) : Nat := die % 6
def dieCy (die : Nat) : Nat := die / 6

/-- Index i of an array of `n` registers of `stride` bytes at `base`, when `off` is one of them. -/
def indexed (base stride n off : Nat) : Option Nat :=
  if base ≤ off ∧ (off - base) % stride = 0 ∧ (off - base) / stride < n then some ((off - base) / stride) else none

def firstSome {α : Type} : List (Option α) → Option α
  | [] => none
  | some a :: _ => some a
  | none :: r => firstSome r

/-- The register at an offset of a C-die's control block. -/
def regAtC (off : Nat) : Option RegName :=
  firstSome
    [ (indexed 0x0100 8 5 off).map .defmap
    , if off = 0x0128 then some .defmapst else none
    , if off = 0x0140 then some .modid else none
    , (indexed 0x0300 8 12 off).map .monpr
    , (indexed 0x0400 8 5 off).map .seamst
    , (indexed 0x0440 8 5 off).map .sfw
    , if off = 0x0480 then some .partcfg else none
    , if off = 0x0500 then some .pdfq else none
    , if off = 0x0508 then some .pdfqst else none
    , (indexed 0x0800 8 2 off).map .dnwgt
    , (indexed 0x0900 8 26 off).map .dmap
    , (indexed 0x0A00 8 8 off).map .slogst
    , (indexed 0x0B00 8 8 off).map .slogctl
    , if off = 0x0C00 then some .lotst else none
    , if off = 0x0D00 then some (.mtrbase 0) else none
    , (indexed 0x4000 16 1024 off).map .vdcfg
    , (indexed 0x4008 16 1024 off).map .vdst
    , (indexed 0x8000 8 1024 off).map .vdasid ]

/-- The register at an offset of an X-die's control block. -/
def regAtX (off : Nat) : Option RegName :=
  firstSome
    [ if off = 0x0140 then some .modid else none
    , if off = 0x0300 then some (.monpr 0) else none
    , (indexed 0x0400 8 4 off).map .seamst
    , (indexed 0x0440 8 4 off).map .sfw
    , if off = 0x0600 then some .ftlgc else none
    , (indexed 0x0A00 8 10 off).map .slogst
    , (indexed 0x0B00 8 10 off).map .slogctl
    , (indexed 0x0D00 8 4 off).map .mtrbase
    , if off = 0x2000 then some .pwrlim else none
    , if off = 0x2010 then some .winsel else none
    , if off = 0x2018 then some .winent else none
    , if off = 0x2020 then some .winctl else none
    , (indexed 0x2040 8 7 off).map .lfdrop
    , if off = 0x2080 then some .tnsel else none
    , (indexed 0x20C0 8 8 off).map .tnent
    , if off = 0x2100 then some .xpartst else none
    , (indexed 0x2180 8 24 off).map .xpart
    , (indexed 0x2280 8 16 off).map .pasidtbl
    , if off = 0x2300 then some .expsel else none
    , (indexed 0x2310 8 4 off).map .expent
    , if off = 0x2340 then some .srsel else none
    , (indexed 0x2350 8 2 off).map .srent
    , (indexed 0x10000 16 514 off).map .fncfg
    , (indexed 0x10008 16 514 off).map .winst ]

/-- The register at an offset of a die's control block, if there is one. -/
def regAt (die off : Nat) : Option RegName :=
  if isC die then regAtC off else if isX die then regAtX off else none

/-- The offset of a register. -/
def RegName.off : RegName → Nat
  | .defmap w => 0x0100 + 8 * w | .defmapst => 0x0128 | .modid => 0x0140 | .monpr k => 0x0300 + 8 * k
  | .seamst p => 0x0400 + 8 * p | .sfw p => 0x0440 + 8 * p | .partcfg => 0x0480 | .pdfq => 0x0500
  | .pdfqst => 0x0508 | .ftlgc => 0x0600 | .dnwgt w => 0x0800 + 8 * w | .dmap i => 0x0900 + 8 * i
  | .slogst i => 0x0A00 + 8 * i | .slogctl i => 0x0B00 + 8 * i | .lotst => 0x0C00 | .mtrbase i => 0x0D00 + 8 * i
  | .pwrlim => 0x2000 | .winsel => 0x2010 | .winent => 0x2018 | .winctl => 0x2020 | .lfdrop n => 0x2040 + 8 * n
  | .tnsel => 0x2080 | .tnent j => 0x20C0 + 8 * j | .xpartst => 0x2100 | .xpart p => 0x2180 + 8 * p
  | .pasidtbl i => 0x2280 + 8 * i | .expsel => 0x2300 | .expent j => 0x2310 + 8 * j | .srsel => 0x2340
  | .srent j => 0x2350 + 8 * j | .vdcfg v => 0x4000 + 16 * v | .vdst v => 0x4008 + 16 * v
  | .vdasid v => 0x8000 + 8 * v | .fncfg f => 0x10000 + 16 * f | .winst f => 0x10008 + 16 * f

/-- Bits [hi:lo] set. -/
def bitsMask (hi lo : Nat) : DWord := BitVec.ofNat 64 (2 ^ (hi + 1) - 2 ^ lo)

/-- The bits of a register that `State.regs` may hold: neither reserved nor write-only (R4). Registers whose fields
live elsewhere in the state hold none. -/
def RegName.stored : RegName → DWord
  | .defmap w => if w = 4 then bitsMask 31 0 else bitsMask 63 0
  | .defmapst => bitsMask 15 0
  | .modid => bitsMask 49 32 ||| bitsMask 16 16 ||| bitsMask 13 8 ||| bitsMask 5 0
  | .monpr _ => bitsMask 47 20 ||| bitsMask 15 0
  | .seamst _ => bitsMask 55 16 ||| bitsMask 6 6 ||| bitsMask 2 0
  | .sfw _ => bitsMask 47 32 ||| bitsMask 3 0
  | .partcfg => bitsMask 47 32 ||| bitsMask 9 8 ||| bitsMask 4 0
  | .pdfq => bitsMask 63 6 ||| bitsMask 0 0
  | .pdfqst => bitsMask 31 0
  | .ftlgc => bitsMask 63 32 ||| bitsMask 23 16 ||| bitsMask 8 8 ||| bitsMask 6 0
  | .dnwgt w => if w = 0 then bitsMask 63 0 else bitsMask 41 32 ||| bitsMask 25 0
  | .dmap i => bitsMask 23 17 ||| (if i < 24 then bitsMask 4 0 else 0)
  | .slogctl _ => bitsMask 31 16
  | .mtrbase _ => bitsMask 63 0
  | .pwrlim => bitsMask 47 32 ||| bitsMask 16 0
  | .xpartst => bitsMask 15 0
  | .xpart _ => bitsMask 63 61 ||| bitsMask 56 23
  | .pasidtbl _ => bitsMask 63 63 ||| bitsMask 19 0
  | .vdcfg _ => bitsMask 47 24 ||| bitsMask 20 16 ||| bitsMask 0 0
  | .vdst _ => bitsMask 15 8 ||| bitsMask 3 0
  | .vdasid _ => bitsMask 16 0
  | _ => 0

/-- Reset values (chapters 01 to 07). MTRBASE has none: 0, DESIGN CHOICE, log 3. -/
def RegName.reset : RegName → DWord
  | .modid => 0x0002_C688_0000_0000
  | .sfw _ => 1
  | .ftlgc => 10
  | .dnwgt w => if w = 0 then 0x3333_3333_3333_3333 else 0x0000_0000_0200_3333
  | .dmap _ => 31 <<< 18
  | .pwrlim => 0x4650
  | _ => 0

/-- What a register that was never written holds. -/
def regReset (die off : Nat) : DWord :=
  match regAt die off with
  | some r => if r = .pwrlim ∧ die = 25 then 0 else r.reset
  | none => 0

/-- The bits that may be stored at an offset. -/
def regMask (die off : Nat) : DWord :=
  match regAt die off with
  | some r => r.stored
  | none => 0

/-- A stored register. -/
def State.reg (s : State) (die : Nat) (r : RegName) : DWord := s.regs.get (regReset die r.off) (die, r.off)

/-- A field of a stored register. -/
def State.regField (s : State) (die : Nat) (r : RegName) (hi lo : Nat) : Nat :=
  (s.reg die r).toNat / 2 ^ lo % 2 ^ (hi + 1 - lo)

/-- Bits [hi:lo] of a number. -/
def bitField (v hi lo : Nat) : Nat := v / 2 ^ lo % 2 ^ (hi + 1 - lo)

/-- A field replaced in a register value. -/
def withField (v : DWord) (hi lo x : Nat) : DWord := setBits v lo (hi + 1 - lo) x

end Sys2Proof.Machine
end

