-- ==== Sys2Proof/Machine/Effect.lean ====
section
/-!
DEFINITION. Every change of the state is a sequence of effects, one effect for each part of the state. A meaning is an
`Act`: a function on states together with the fact that it only performs effects, so a property that every effect
keeps is kept by every step.
-/
namespace Sys2Proof.Machine

inductive Effect
  | agenda (l : List (Nat × Turn))
  | focus (f : Focus)
  | cycle (n : Nat)
  | free (n : Nat)
  | nextId (n : Nat)
  | burn (lcs : BitVec 2)
  | wipe (t : Tier) (w : Wipe)
  | boot (x : Nat) (b : Boot)
  | spdm (pf : Nat) (v : Spdm)
  | firmware (x : Nat) (l : List Byte)
  | mediaKey (n : Nat)
  | power (p : Power)
  | fieldLog (die : Nat) (l : FieldLog)
  | flush (cycle : Nat)
  | feat (f : Feat)
  | reg (die : Nat) (r : RegName) (v : DWord)
  | regsClear (die : Nat) (keep : List Nat)
  | mem (k : Nat) (b : Byte)
  | memClear (lo hi : Nat)
  | ecc (l : List Nat)
  | lane (l : LaneId) (v : Lane)
  | link (l : LinkId) (v : Link)
  | cell (c : CellId) (v : Cell)
  | cellsClear (die : Nat)
  | node (c : CellId) (v : Node)
  | nodesClear (die : Nat)
  | reqs (l : List Req)
  | region (h : Word) (r : Option Region)
  | launch (n : Nat) (l : Option Launch)
  | dispatcher (die : Nat) (v : Dispatcher)
  | save (launch inst : Nat) (v : Option Snapshot)
  | vault (l : List Rci)
  | epoch (part n : Nat)
  | lots (die : Nat) (l : Lots)
  | slog (die i : Nat) (l : SideLog)
  | mtlb (die owner : Nat) (l : List TlbEntry)
  | copy (c : CopyId) (v : Copy)
  | hart (die n : Nat) (h : Hart)
  | xdie (x : Nat) (v : XDie)
  | resetAt (die n : Nat)
  | out (m : OutMsg)
  deriving DecidableEq, Repr

/-- The transitions of R71. -/
def lcsNext (a b : BitVec 2) : Bool :=
  match a.toNat, b.toNat with
  | 0, 1 => true
  | 0, 2 => true
  | 1, 2 => true
  | 1, 3 => true
  | 2, 3 => true
  | _, _ => false

/-- Lot 0 is never live (R200). -/
def Lots.proper (l : Lots) : Lots := { l with live := l.live.filter (· != 0) }

/-- x0 is not stored, the pc is even, reserved CSR bits are 0 (R378). -/
def Hart.proper (h : Hart) : Hart :=
  { h with
    x := h.x.erase 0
    pc := h.pc &&& ~~~1
    xpasid := h.xpasid &&& bitsMask 16 0
    xpseg := h.xpseg.map fun e => (e.1, e.2 &&& bitsMask 63 44) }

/-- What an effect does. -/
def State.apply (s : State) : Effect → State
  | .agenda l => { s with agenda := l }
  | .focus f => { s with focus := f }
  | .cycle n => { s with cycle := n }
  | .free n => { s with freeIx := n }
  | .nextId n => { s with nextId := n }
  | .burn l => if lcsNext s.fuses.lcs l then { s with fuses := { s.fuses with lcs := l } } else s
  | .wipe t w => { s with wipes := s.wipes.put t w }
  | .boot x b => { s with boots := s.boots.put x b }
  | .spdm pf v => { s with spdm := s.spdm.put pf v }
  | .firmware x l => { s with firmware := s.firmware.put x l }
  | .mediaKey n => { s with mediaKey := n }
  | .power p => { s with power := p }
  | .fieldLog d l => { s with fieldLog := s.fieldLog.put d l }
  | .flush n => { s with flushedLog := s.fieldLog, lastFlush := n }
  | .feat f => { s with feat := f }
  | .reg d r v => { s with regs := s.regs.put (d, r.off) (v &&& regMask d r.off) }
  | .regsClear d keep => { s with regs := s.regs.filter fun e => e.1.1 != d || keep.contains e.1.2 }
  | .mem k b => { s with mem := s.mem.write k b }
  | .memClear lo hi => { s with mem := s.mem.clear lo hi }
  | .ecc l => { s with eccBad := l }
  | .lane l v => { s with lanes := s.lanes.put l v }
  | .link l v => { s with links := s.links.put l v }
  | .cell c v => { s with cells := s.cells.put c v }
  | .cellsClear d => { s with cells := s.cells.filter fun e => e.1.die != d }
  | .node c v => { s with nodes := s.nodes.put c v }
  | .nodesClear d => { s with nodes := s.nodes.filter fun e => e.1.die != d }
  | .reqs l => { s with reqs := l }
  | .region h r =>
    { s with regions := match r with
        | some v => s.regions.put h v
        | none => s.regions.erase h }
  | .launch n l =>
    { s with launches := match l with
        | some v => s.launches.put n v
        | none => s.launches.erase n }
  | .dispatcher d v => { s with dispatchers := s.dispatchers.put d v }
  | .save l i v =>
    { s with saves := match v with
        | some x => s.saves.put (l, i) x
        | none => s.saves.erase (l, i) }
  | .vault l => { s with vault := l }
  | .epoch p n => { s with epochs := s.epochs.put p n }
  | .lots d l => { s with lots := s.lots.put d l.proper }
  | .slog d i l => { s with slogs := s.slogs.put (d, i) l }
  | .mtlb d o l => { s with mtlbs := s.mtlbs.put (d, o) l }
  | .copy c v => { s with copies := s.copies.put c v }
  | .hart d n h => { s with harts := s.harts.put (d, n) h.proper }
  | .xdie x v => { s with xdies := s.xdies.put x v }
  | .resetAt d n => { s with resetAt := s.resetAt.put d n }
  | .out m => { s with outbox := s.outbox ++ [m] }

/-- t comes from s by effects. -/
inductive Reaches (s : State) : State → Prop
  | refl : Reaches s s
  | step {t : State} (e : Effect) : Reaches s t → Reaches s (t.apply e)

theorem Reaches.trans {s t u : State} (a : Reaches s t) (b : Reaches t u) : Reaches s u := by
  induction b with
  | refl => exact a
  | step e _ ih => exact .step e ih

/-- A change of the state by effects alone. -/
structure Act where
  run : State → State
  ok : ∀ s, Reaches s (run s)

def Act.skip : Act := ⟨id, fun _ => .refl⟩

def Act.emit (e : Effect) : Act := ⟨fun s => s.apply e, fun _ => .step e .refl⟩

def Act.seq (a b : Act) : Act := ⟨fun s => b.run (a.run s), fun s => (a.ok s).trans (b.ok _)⟩

/-- What it does may depend on the state. -/
def Act.read (f : State → Act) : Act := ⟨fun s => (f s).run s, fun s => (f s).ok s⟩

/-- One after the other. -/
def Act.block : List Act → Act
  | [] => .skip
  | a :: r => a.seq (Act.block r)

def Act.when (c : Bool) (a : Act) : Act := if c then a else .skip

/-- For each element in turn. -/
def Act.each {α : Type} (l : List α) (f : α → Act) : Act := Act.block (l.map f)

/-- The effect on a cell, a hart, a request and so on, given what stands there. -/
def Act.onCell (c : CellId) (f : Cell → Cell) : Act := .read fun s => .emit (.cell c (f (s.cells.get {} c)))
def Act.onNode (c : CellId) (f : Node → Node) : Act := .read fun s => .emit (.node c (f (s.nodes.get {} c)))
def Act.onHart (d n : Nat) (f : Hart → Hart) : Act := .read fun s => .emit (.hart d n (f (s.harts.get {} (d, n))))
def Act.onXDie (x : Nat) (f : XDie → XDie) : Act := .read fun s => .emit (.xdie x (f (s.xdies.get {} x)))
def Act.onCopy (c : CopyId) (f : Copy → Copy) : Act := .read fun s => .emit (.copy c (f (s.copies.get {} c)))
def Act.onLane (l : LaneId) (f : Lane → Lane) : Act := .read fun s => .emit (.lane l (f (s.lanes.get {} l)))
def Act.onLink (l : LinkId) (f : Link → Link) : Act := .read fun s => .emit (.link l (f (s.links.get {} l)))
def Act.onDispatcher (d : Nat) (f : Dispatcher → Dispatcher) : Act :=
  .read fun s => .emit (.dispatcher d (f (s.dispatchers.get {} d)))
def Act.onReg (d : Nat) (r : RegName) (f : DWord → DWord) : Act := .read fun s => .emit (.reg d r (f (s.reg d r)))

/-- The effect on a region or launch that exists. -/
def Act.onRegion (h : Word) (f : Region → Region) : Act :=
  .read fun s => match s.regions.get? h with
    | some r => .emit (.region h (some (f r)))
    | none => .skip
def Act.onLaunch (n : Nat) (f : Launch → Launch) : Act :=
  .read fun s => match s.launches.get? n with
    | some l => .emit (.launch n (some (f l)))
    | none => .skip

/-- One request rewritten. -/
def Act.onReq (id : Nat) (f : Req → Req) : Act :=
  .read fun s => .emit (.reqs (s.reqs.map fun r => if r.id = id then f r else r))

/-- A saturating count in a register field. -/
def Act.countReg (d : Nat) (r : RegName) (hi lo : Nat) : Act :=
  .onReg d r fun v =>
    let n := v.toNat / 2 ^ lo % 2 ^ (hi + 1 - lo)
    withField v hi lo (min (2 ^ (hi + 1 - lo) - 1) (n + 1))

/-- A fresh number for a request, launch or part. -/
def Act.fresh (f : Nat → Act) : Act := .read fun s => (Act.emit (.nextId (s.nextId + 1))).seq (f s.nextId)

/-- The next free value (log 4). -/
def Act.freeValue (f : DWord → Act) : Act :=
  .read fun s => (Act.emit (.free (s.freeIx + 1))).seq (f (Config.freeDWord s.freeIx))

/-- Bytes stored from a key upward; `none` leaves a byte alone. -/
def Act.storeBytes (k : Nat) : List (Option Byte) → Act
  | [] => .skip
  | none :: r => Act.storeBytes (k + 1) r
  | some b :: r => (Act.emit (.mem k b)).seq (Act.storeBytes (k + 1) r)

/-- A step that performs an act. -/
abbrev Out := Host.Outcome State Fault Refusal

def Act.next (a : Act) (s : State) : Out := .next (a.run s)

end Sys2Proof.Machine
end

