-- ==== Sys2Proof/Machine/Ops.lean ====
section
/-!
DEFINITION. Named operations over the state: partitions and the die map, virtual addresses, memory-side translation,
fresh sub-blocks, reads and writes of memory (chapters 03 and 07), and a hart's registers and traps.
-/
namespace Sys2Proof.Machine

/-! ### Partitions and the die map (R73, R76, R187) -/

/-- The partition of a C-die, when it is assigned. -/
def State.partOf (s : State) (die : Nat) : Option Nat :=
  if isC die && s.regField die .partcfg 9 9 == 1 && decide (s.regField die .partcfg 4 0 < 24) then
    some (s.regField die .partcfg 4 0)
  else none

/-- Its C-dies, ascending. -/
def State.partDies (s : State) (p : Nat) : List Nat := (List.range 24).filter fun d => s.partOf d == some p

/-- The lead die: the one that PARTCFG.LEAD marks (R76). -/
def State.leadDie (s : State) (p : Nat) : Option Nat :=
  match (s.partDies p).find? fun d => s.regField d .partcfg 8 8 == 1 with
  | some d => some d
  | none => (s.partDies p).head?

/-- The physical die of logical die i, by the map of a die of the partition (R187). -/
def State.physOf (s : State) (die i : Nat) : Option Nat :=
  if s.regField die (.dmap i) 23 23 = 1 then some (s.regField die (.dmap i) 4 0) else none

/-- The logical number of a physical die. -/
def State.logicalOf (s : State) (die : Nat) : Nat :=
  ((List.range 24).find? fun i => s.physOf die i == some die).getD 0

/-- Any die of a partition through which its map is read. -/
def State.mapDie (s : State) (p : Nat) : Nat := (s.leadDie p).getD 0

/-- The die that an agent works on. -/
def Agent.die : Agent → Nat
  | .ctx c _ | .stream c _ => c.die
  | .copy c => c.die
  | .hart d _ | .dispatcher d => d
  | .func x _ | .qp x _ | .peer x _ => x
  | .module north cx _ => if north then cx else 18 + cx

/-- The die whose map an agent on die `d` goes by: its own C-die, or for an X-die, which has none, the partition's lead
die (R187). -/
def State.mapOf (s : State) (d p : Nat) : Nat := if isC d then d else s.mapDie p

/-- Highest module number of the federation (R26). -/
def State.maxModule (s : State) (die : Nat) : Nat :=
  if s.regField die .modid 16 16 = 1 then s.regField die .modid 13 8 else 0

def State.moduleNo (s : State) (die : Nat) : Nat :=
  if s.regField die .modid 16 16 = 1 then s.regField die .modid 5 0 else 0

/-! ### Virtual addresses (R185, R186) -/

def vaModule (va : DWord) : Nat := (va.extractLsb' 57 6).toNat
def vaOwner (va : DWord) : Nat := (va.extractLsb' 52 5).toNat
def vaOffset (va : DWord) : Nat := (va.extractLsb' 0 52).toNat

/-- The address is canonical for an agent of partition p on die d (R185); a logical die whose map entry is invalid is
not (R187). -/
def State.canonical (s : State) (d p : Nat) (va : DWord) : Bool :=
  let o := vaOwner va
  !va.getLsbD 63 && decide (o < 28) && decide (vaModule va ≤ s.maxModule (s.mapOf d p))
    && (decide (24 ≤ o) || (decide (o < (s.partDies p).length) && (s.physOf (s.mapOf d p) o).isSome))

/-- The host X-die of a partition (R45, R77). -/
def State.hostX (s : State) (p : Nat) : Nat := if s.regField 25 (.xpart p) 61 61 = 1 then 25 else 24

/-- The die whose MTLB serves an address (R186). -/
def State.ownerDie (s : State) (d p : Nat) (va : DWord) : Nat :=
  let o := vaOwner va
  if o < 24 then s.regField (s.mapOf d p) (.dmap o) 4 0
  else if o = 24 then 24
  else if o = 25 then 25
  else if o = 26 then (if (vaOffset va).testBit 51 then 25 else 24)
  else s.hostX p

/-- The MTLB of an address: its die, and 0 for a C-die or owner − 24 for an X-die. -/
def mtlbIndex (va : DWord) : Nat := if vaOwner va < 24 then 0 else vaOwner va - 24

/-- Memories by home: 0-23 HBM4 of a physical die, 24 and 25 LPDDR 6, 26 and 27 flash of X-die 24 and 25. -/
def homeKey (home pa : Nat) : Nat := home * 2 ^ 48 + pa

/-- Capacity of a home (R13). -/
def homeSize (home : Nat) : Nat :=
  if home < 24 then 96 * 2 ^ 30 else if home < 26 then 512 * 2 ^ 30 else 8 * 2 ^ 40

/-- The home of data at an address, and of the page tables of its MTLB (R189): flash and host tables lie in the
serving X-die's LPDDR 6. -/
def dataHome (die : Nat) (va : DWord) : Nat :=
  if vaOwner va = 26 then die + 2 else die
def tableHome (die : Nat) : Nat := die

/-- Bytes from a key, as a number. -/
def State.readLe (s : State) (k n : Nat) : Nat := leNat (s.mem.readN k n)

/-! ### Translation (R190, R191) -/

inductive Access | load | store | atomic (returns : Bool)
  deriving DecidableEq, Repr

/-- A page found by a walk. -/
structure Leaf where
  entry : DWord
  /-- Key of the entry in memory. -/
  key : Nat
  /-- 0: 64 KiB, 1: 32 MiB, 2: 16 GiB. -/
  level : Nat
  deriving DecidableEq, Repr

inductive Walk | leaf (l : Leaf) | fault (code : Nat)
  deriving DecidableEq, Repr

def transMiss : Nat := 0x01
def transPerm : Nat := 0x02

def Leaf.bits (l : Leaf) : Nat := 16 + 9 * l.level

/-- Reserved fields of a leaf, and the alignment of its PA (R190, R191). -/
def leafBad (level owner : Nat) (freshOn : Bool) (e : DWord) : Bool :=
  (e &&& bitsMask 15 13) != 0
    || (level != 0 && (e &&& bitsMask (15 + 9 * level) 16) != 0)
    || (owner != 27 && (e &&& bitsMask 11 4) != 0)
    || ((owner == 27 || !freshOn) && (e &&& bitsMask 63 48) != 0)

/-- One level of the walk: the table at `base` of memory `home` is indexed by `ix`; level 4 is the root array. -/
def walkLevels (s : State) (home owner off : Nat) (freshOn : Bool) : Nat → Nat → Nat → Walk
  | 0, _, _ => .fault transPerm
  | n + 1, base, ix =>
    let key := homeKey home (base + 8 * ix)
    let e : DWord := BitVec.ofNat 64 (s.readLe key 8)
    if !e.getLsbD 0 then .fault transMiss
    else if e.getLsbD 1 then
      (if 3 ≤ n ∨ leafBad n owner freshOn e then .fault transPerm else .leaf ⟨e, key, n⟩)
    else if n = 0 ∨ (e &&& (bitsMask 63 48 ||| bitsMask 11 2)) != 0 then .fault transPerm
    else walkLevels s home owner off freshOn n (e.toNat / 4096 % 2 ^ 36 * 4096) (off / 2 ^ (16 + 9 * (n - 1)) % 512)

def State.featOn (s : State) (bit : Nat) : Bool := s.feat.active.getLsbD bit
def featDet : Nat := 4
def featDevlaunch : Nat := 5
def featEthlaunch : Nat := 6
def featUashared : Nat := 7
def featUaexport : Nat := 8
def featFederation : Nat := 9
def featIde : Nat := 10
def featTdisp : Nat := 11
def featFresh : Nat := 12
def featDebuggrant : Nat := 13

/-- The walk of an address under an ASID at the MTLB of `die` (R190). -/
def State.walk (s : State) (die : Nat) (asid : BitVec 16) (va : DWord) : Walk :=
  let base := (s.reg die (.mtrbase (mtlbIndex va))).toNat
  walkLevels s (tableHome die) (vaOwner va) (vaOffset va) (s.featOn featFresh) 5 base asid.toNat

/-- The partition's range at an owner (R77): [low, high) of physical bytes; an HBM4 stack is whole. -/
def State.ownerRange (s : State) (p die owner : Nat) : Nat × Nat :=
  if owner < 24 then (0, homeSize die)
  else
    let en := s.regField die (.xpart p) 63 63 = 1
    if owner = 26 then
      let b := s.regField die (.xpart p) 37 31 * 64 * 2 ^ 30
      if en then (b, min (homeSize 26) (b + s.regField die (.xpart p) 30 23 * 64 * 2 ^ 30)) else (0, 0)
    else
      let b := s.regField die (.xpart p) 56 48 * 2 ^ 30
      if en then (b, min (homeSize 24) (b + s.regField die (.xpart p) 47 38 * 2 ^ 30)) else (0, 0)

/-- The physical address of an offset under a leaf. -/
def Leaf.pa (l : Leaf) (off : Nat) : Nat :=
  l.entry.toNat / 2 ^ 16 % 2 ^ 32 * 2 ^ 16 + off % 2 ^ l.bits

/-- Permissions (R191). -/
def Leaf.permits (l : Leaf) (a : Access) : Bool :=
  match a with
  | .load => l.entry.getLsbD 2
  | .store => l.entry.getLsbD 3
  | .atomic r => l.entry.getLsbD 3 && l.entry.getLsbD 12 && (!r || l.entry.getLsbD 2)

/-- A leaf checked for an access: its physical address, or a fault code (R191). -/
def State.checkLeaf (s : State) (p die : Nat) (va : DWord) (n : Nat) (a : Access) (l : Leaf) : Except Nat Nat :=
  let pa := l.pa (vaOffset va)
  if !l.permits a then .error transPerm
  else if vaOwner va = 27 then .ok pa
  else
    let r := s.ownerRange p die (vaOwner va)
    if r.1 ≤ pa ∧ pa + n ≤ r.2 then .ok pa else .error transPerm

/-- The cached leaf that covers an offset (R192). -/
def TlbEntry.covers (e : TlbEntry) (asid : BitVec 16) (off : Nat) : Bool :=
  e.asid == asid && off / 2 ^ (16 + 9 * e.level) * 2 ^ (16 + 9 * e.level) == e.base

/-- The leaf used for an access: a cached one when `cached` chooses it, otherwise that of a walk (R192, log 15). -/
def State.findLeaf (s : State) (die : Nat) (asid : BitVec 16) (va : DWord) (cached : Bool) : Walk :=
  match cached, (s.mtlbs.get [] (die, mtlbIndex va)).find? fun e => e.covers asid (vaOffset va) with
  | true, some e => .leaf ⟨e.leaf, e.at_, e.level⟩
  | _, _ => s.walk die asid va

/-- Translation of an access of n bytes: the leaf and the physical address, or a fault code. -/
def State.translate (s : State) (d p : Nat) (asid : Option (BitVec 16)) (va : DWord) (n : Nat) (a : Access)
    (cached : Bool) : Except Nat (Leaf × Nat) :=
  match asid with
  | none => .error transPerm
  | some k =>
    let die := s.ownerDie d p va
    match s.findLeaf die k va cached with
    | .fault c => .error c
    | .leaf l =>
      match s.checkLeaf p die va n a l with
      | .ok pa => .ok (l, pa)
      | .error c => .error c

/-- The ASID of a VD (R189): none while VDASID.V = 0. -/
def State.vdAsid (s : State) (p vd : Nat) : Option (BitVec 16) :=
  match s.leadDie p with
  | some d => if s.regField d (.vdasid vd) 16 16 = 1 then some (BitVec.ofNat 16 (s.regField d (.vdasid vd) 15 0)) else none
  | none => none

/-! ### Fresh sub-blocks and plain accesses (R14, R194) -/

/-- The fresh bit of an offset's sub-block, and the sub-block's bounds in physical memory. -/
def Leaf.freshBit (l : Leaf) (off : Nat) : Bool := l.entry.getLsbD (48 + off % 2 ^ l.bits / 2 ^ (l.bits - 4))
def Leaf.subBlock (l : Leaf) (pa : Nat) : Nat × Nat :=
  let b := pa / 2 ^ (l.bits - 4) * 2 ^ (l.bits - 4)
  (b, b + 2 ^ (l.bits - 4))

/-- Bytes of an on-module access: a fresh sub-block reads zero (R194). -/
def State.fetchBytes (s : State) (home : Nat) (l : Leaf) (off pa n : Nat) : List Byte :=
  if l.freshBit off then List.replicate n 0 else s.mem.readN (homeKey home pa) n

/-- An uncorrectable word among n bytes (R14). -/
def State.eccAt (s : State) (home pa n : Nat) : Bool :=
  s.eccBad.any fun k => decide (homeKey home pa < k + 8) && decide (k < homeKey home (pa + n))

/-- Written words have valid ECC again. -/
def Act.eccClear (home pa n : Nat) : Act :=
  .read fun s => .when (s.eccAt home pa n)
    (.emit (.ecc (s.eccBad.filter fun k =>
      !(decide (homeKey home pa ≤ k) && decide (k + 8 ≤ homeKey home (pa + n))))))

/-- The first write to a fresh sub-block zeroes it and clears its bit, in memory and in the cache (R194). -/
def Act.unfresh (die owner home : Nat) (l : Leaf) (off pa : Nat) : Act :=
  .read fun s =>
    if !l.freshBit off then .skip
    else
      let b := l.subBlock pa
      let bit := 48 + off % 2 ^ l.bits / 2 ^ (l.bits - 4)
      let e : DWord := BitVec.ofNat 64 (s.readLe l.key 8) &&& ~~~(1#64 <<< bit)
      .block
        [ .emit (.memClear (homeKey home b.1) (homeKey home b.2))
        , .eccClear home b.1 (b.2 - b.1)
        , .storeBytes l.key ((leBytes 8 e.toNat).map some)
        , .emit (.mtlb die owner ((s.mtlbs.get [] (die, owner)).map fun t =>
            if t.at_ = l.key then { t with leaf := t.leaf &&& ~~~(1#64 <<< bit) } else t)) ]

/-- A translated write. -/
def Act.storeAt (die : Nat) (va : DWord) (l : Leaf) (pa : Nat) (bytes : List (Option Byte)) : Act :=
  .block
    [ .unfresh die (mtlbIndex va) (dataHome die va) l (vaOffset va) pa
    , .eccClear (dataHome die va) pa bytes.length
    , .storeBytes (homeKey (dataHome die va) pa) bytes ]

/-- A cached leaf remembered (R192). -/
def Act.cacheLeaf (die : Nat) (asid : BitVec 16) (va : DWord) (l : Leaf) : Act :=
  .read fun s =>
    let es := s.mtlbs.get [] (die, mtlbIndex va)
    let b := vaOffset va / 2 ^ l.bits * 2 ^ l.bits
    .emit (.mtlb die (mtlbIndex va)
      ({ asid := asid, level := l.level, base := b, leaf := l.entry, at_ := l.key }
        :: es.filter fun e => !(e.asid == asid && e.base == b && e.level == l.level)))

/-! ### Harts: registers, addresses, traps (15 R376-R378; the RISC-V privileged architecture, log 11) -/

def State.hart (s : State) (d n : Nat) : Hart := s.harts.get {} (d, n)

/-- An integer register; x0 reads 0. -/
def Hart.readX (h : Hart) (r : Reg) : DWord := if r = 0 then 0 else h.x.get 0 r.toNat
def Hart.writeX (h : Hart) (r : Reg) (v : DWord) : Hart := if r = 0 then h else { h with x := h.x.put r.toNat v }

/-- An instruction of `len` bytes completes: rd written, no wait left, the pc past it. -/
def Act.retireLen (len : DWord) (d n : Nat) (rd : Reg) (v : DWord) : Act :=
  .onHart d n fun h => { h.writeX rd v with pc := h.pc + len, wait := none }
/-- A floating-point register written, which leaves mstatus.FS at Dirty (log 9). -/
def Hart.writeF (h : Hart) (r : Reg) (v : DWord) : Hart :=
  { h with f := h.f.put r.toNat v, csr := { h.csr with mstatus := h.csr.mstatus ||| bitsMask 14 13 } }

/-- A floating-point load of `size` bytes completes: a single is boxed. -/
def Act.retireF (len : DWord) (d n : Nat) (rd : Reg) (size : Nat) (v : DWord) : Act :=
  .onHart d n fun h =>
    { h.writeF rd (if size = 4 then v ||| bitsMask 63 32 else v) with pc := h.pc + len, wait := none }

def Act.retireX (d n : Nat) (rd : Reg) (v : DWord) : Act := .retireLen 4 d n rd v

def excFetch : Nat := 1
def excIllegal : Nat := 2
def excLoadMisaligned : Nat := 4
def excLoadAccess : Nat := 5
def excStoreMisaligned : Nat := 6
def excStoreAccess : Nat := 7
def excLoadPage : Nat := 13
def excStorePage : Nat := 15
def irqSExternal : Nat := 9

def Priv.code : Priv → Nat
  | .u => 0 | .s => 1 | .m => 3

/-- A vector base with its mode: an interrupt goes to base + 4 × cause in vectored mode. -/
def trapVector (tvec : DWord) (intr : Bool) (cause : Nat) : DWord :=
  let base := tvec &&& ~~~3
  if intr && tvec.getLsbD 0 then base + BitVec.ofNat 64 (4 * cause) else base

def causeWord (intr : Bool) (cause : Nat) : DWord := BitVec.ofNat 64 (cause + if intr then 2 ^ 63 else 0)

/-- Entry into a trap: in S-mode when delegated and not in M-mode, otherwise in M-mode. The epc names the
instruction, the status keeps the interrupt enable and the mode, the pc goes to the vector. -/
def Hart.trap (h : Hart) (intr : Bool) (cause : Nat) (tval : DWord) : Hart :=
  let deleg := (if intr then h.csr.mideleg else h.csr.medeleg).getLsbD cause && h.priv != .m
  let st := h.csr.mstatus
  if deleg then
    let st1 := setBits st 5 1 (if st.getLsbD 1 then 1 else 0)
    let st2 := setBits (setBits st1 1 1 0) 8 1 (if h.priv = .s then 1 else 0)
    { h with
      csr := { h.csr with mstatus := st2, sepc := h.pc, scause := causeWord intr cause, stval := tval }
      priv := .s, pc := trapVector h.csr.stvec intr cause, wait := none }
  else
    let st1 := setBits st 7 1 (if st.getLsbD 3 then 1 else 0)
    let st2 := setBits (setBits st1 3 1 0) 11 2 h.priv.code
    { h with
      csr := { h.csr with mstatus := st2, mepc := h.pc, mcause := causeWord intr cause, mtval := tval }
      priv := .m, pc := trapVector h.csr.mtvec intr cause, wait := none }

/-- Taking an exception, the one way every form of a hart does. -/
def Act.exception (d n cause : Nat) (tval : DWord) : Act := .onHart d n fun h => h.trap false cause tval

def privOf : Nat → Priv
  | 0 => .u | 1 => .s | _ => .m

/-- Return from a trap taken in M-mode or S-mode: mode, interrupt enable and pc come back. -/
def Hart.trapReturn (h : Hart) (fromM : Bool) : Hart :=
  let st := h.csr.mstatus
  if fromM then
    let st1 := setBits (setBits st 3 1 (if st.getLsbD 7 then 1 else 0)) 7 1 1
    { h with
      csr := { h.csr with mstatus := setBits st1 11 2 0 }
      priv := privOf (st.extractLsb' 11 2).toNat, pc := h.csr.mepc }
  else
    let st1 := setBits (setBits st 1 1 (if st.getLsbD 5 then 1 else 0)) 5 1 1
    { h with
      csr := { h.csr with mstatus := setBits st1 8 1 0 }
      priv := if st.getLsbD 8 then .s else .u, pc := h.csr.sepc }

/-- Interrupts pending: mip, and the S-mode external interrupt while XPIRQ is not 0 (R378). -/
def Hart.pendingIrqs (h : Hart) : DWord := (h.csr.mip ||| (if h.xpirq = 0 then 0 else 1#64 <<< irqSExternal)) &&& h.csr.mie

/-- The interrupt that would be taken now. -/
def Hart.takes (h : Hart) : Option Nat :=
  (List.range 16).find? fun i =>
    h.pendingIrqs.getLsbD i &&
      (if h.csr.mideleg.getLsbD i then h.priv == .u || (h.priv == .s && h.csr.mstatus.getLsbD 1)
       else h.priv != .m || h.csr.mstatus.getLsbD 3)

/-- Where a hart physical address leads (R377). Address translation is off: nothing in the table writes satp. -/
inductive HartPlace | own (pa : Nat) | block (die off : Nat) | aperture (va : DWord) | bad
  deriving DecidableEq, Repr

def Hart.place (h : Hart) (die : Nat) (a : DWord) : HartPlace :=
  let x := a.toNat
  if 2 ^ 56 ≤ x then .bad
  else if x < 2 ^ 54 then (if x < homeSize die then .own x else .bad)
  else if x < 2 ^ 55 then
    let die' := x / 2 ^ 48 % 64
    if die' < 26 && x / 2 ^ 24 % 2 ^ 24 = 0 then .block die' (x % 2 ^ 24) else .bad
  else
    let seg := h.xpseg.get 0 (x / 2 ^ 44 % 16)
    if x / 2 ^ 48 % 2 ^ 7 = 0 && seg.getLsbD 63 then
      .aperture (BitVec.ofNat 64 ((seg.extractLsb' 44 19).toNat * 2 ^ 44 + x % 2 ^ 44))
    else .bad

/-- The ASID of a hart's device-virtual operands (R378). -/
def Hart.asid (h : Hart) : Option (BitVec 16) :=
  if h.xpasid.getLsbD 16 then some (h.xpasid.extractLsb' 0 16) else none

/-- The four bytes at the pc, when it names the hart's own memory. -/
def State.fetchWord (s : State) (d n : Nat) : Option (BitVec 32) :=
  match (s.hart d n).place d (s.hart d n).pc with
  | .own pa => some (BitVec.ofNat 32 (s.readLe (homeKey d pa) 4))
  | _ => none

end Sys2Proof.Machine
end

