-- ==== Sys2Proof/Machine/Way.lean ====
section
/-!
DEFINITION. Seams and their registers, the way between two dies, and the accesses that the device makes for itself
(01 R15-R26, 02 R45, R228, 03 R74, R80, 07 R187).
-/
namespace Sys2Proof.Machine

/-! ### Seams (R15, R21) -/

/-- A port of a die. -/
abbrev DiePort := Nat × Nat

/-- The two sides of a seam: west or north side first. -/
def seamSides (n : Nat) : DiePort × DiePort :=
  if n < 28 then
    let cy := n / 7
    let j := n % 7
    (if j = 0 then (24, cy) else (cy * 6 + j - 1, 1), if j = 6 then (25, cy) else (cy * 6 + j, 3))
  else
    let cx := (n - 28) % 6
    let cy := (n - 28) / 6
    ((cy * 6 + cx, 2), (cy * 6 + 6 + cx, 0))

/-- The seam of a die's port; none for an edge link or no neighbour (R21). -/
def portSeam (die port : Nat) : Option Nat :=
  if isX die then (if port < 4 then some (port * 7 + (if die = 24 then 0 else 6)) else none)
  else
    let cx := dieCx die
    let cy := dieCy die
    match port with
    | 0 => if cy = 0 then none else some (28 + (cy - 1) * 6 + cx)
    | 1 => some (cy * 7 + cx + 1)
    | 2 => if cy = 3 then none else some (28 + cy * 6 + cx)
    | 3 => some (cy * 7 + cx)
    | _ => none

/-- The edge link of a die's port 4 (R22). -/
def portEdge (die port : Nat) : Option LinkId :=
  if isC die && port == 4 then
    (if dieCy die = 0 then some (.edge true (dieCx die)) else if dieCy die = 3 then some (.edge false (dieCx die)) else none)
  else none

def portLink (die port : Nat) : Option LinkId :=
  match portSeam die port with
  | some n => some (.seam n)
  | none => portEdge die port

/-- The ports on which a link ends within the module. -/
def linkPorts : LinkId → List DiePort
  | .seam n => [(seamSides n).1, (seamSides n).2]
  | .edge north cx => [(if north then cx else 18 + cx, 4)]

def stDown : Nat := 0
def stTraining : Nat := 1
def stUp : Nat := 2
def stRetraining : Nat := 3
def stFailed : Nat := 4

/-- STATE of a port. -/
def State.portState (s : State) (p : DiePort) : Nat := s.regField p.1 (.seamst p.2) 2 0

def State.linkFailed (s : State) (l : LinkId) : Bool := (linkPorts l).any fun p => s.portState p == stFailed

/-- CLOSE of either side (R74, R75). -/
def State.seamClosed (s : State) (n : Nat) : Bool :=
  let e := seamSides n
  s.regField e.1.1 (.sfw e.1.2) 0 0 == 1 || s.regField e.2.1 (.sfw e.2.2) 0 0 == 1

/-- A route may not cross it. -/
def State.seamBlocks (s : State) (n : Nat) : Bool := s.linkFailed (.seam n) || s.seamClosed n

def fSeam : Nat := 0x0D
def fFirewall : Nat := 0x13

/-- XPART.FENCED of a partition (R77, R80). -/
def State.fenced (s : State) (x p : Nat) : Bool := decide (p < 24) && s.regField x (.xpart p) 62 62 == 1

/-- A die lies in a partition of the seam's C-dies, or at the seam (R74). -/
def State.atSeam (s : State) (n d : Nat) : Bool :=
  let e := seamSides n
  d == e.1.1 || d == e.2.1 ||
    (match s.partOf d with
      | some p => s.partOf e.1.1 == some p || s.partOf e.2.1 == some p
      | none => false)

/-- Either side's register has a bit of SFW set. -/
def State.sfwBit (s : State) (n bit : Nat) : Bool :=
  let e := seamSides n
  s.regField e.1.1 (.sfw e.1.2) bit bit == 1 || s.regField e.2.1 (.sfw e.2.2) bit bit == 1

/-- A packet of one die for another is transit at a seam (R74). -/
def State.transit (s : State) (n src dst : Nat) : Bool := !s.atSeam n dst || !s.atSeam n src

/-- A closed seam lets a packet of a partition pass from die to die (R74). -/
def State.seamLets (s : State) (n : Nat) (part : Option Nat) (src dst : Nat) : Bool :=
  (isX dst || (part.isSome && part == s.partOf dst)) && (!s.transit n src dst || s.sfwBit n 1)

/-- The partition tag of what a die sends: its own, or for an X-die the requester's (R74). -/
def State.tagOf (s : State) (die p : Nat) : Option Nat := if isC die then s.partOf die else some p

/-- VIA and ORDER of the entry that a die's map has for a die; an X-die holds no map (R187). -/
def State.viaOf (s : State) (die dst : Nat) : Option Nat × Bool :=
  match if dst < 24 then (List.range 24).find? fun i => s.physOf die i == some dst else some dst with
  | none => (none, false)
  | some i =>
    let v := s.regField die (.dmap i) 22 18
    if isC die then (if v = 31 then none else some v, s.regField die (.dmap i) 17 17 == 1) else (none, false)

/-! ### Whole ways, for accesses that the model makes in one step -/

/-- Seams between two dies along a row or a column of dies, in the order of the way. -/
def dieRow (cy a b : Nat) : List Nat :=
  if a ≤ b then (List.range (b - a)).map fun k => cy * 7 + a + k + 1 else (List.range (a - b)).map fun k => cy * 7 + (a - k)
def dieCol (cx a b : Nat) : List Nat :=
  if a ≤ b then (List.range (b - a)).map fun k => 28 + (a + k) * 6 + cx
  else (List.range (a - b)).map fun k => 28 + (a - 1 - k) * 6 + cx

/-- Seams of one leg between two dies. -/
def legSeams (a b : Nat) (colFirst : Bool) : List Nat :=
  if a = b then []
  else if isX a && isX b then []
  else if isX b then (if b = 24 then (List.range (dieCx a + 1)).map fun k => dieCy a * 7 + (dieCx a - k)
      else (List.range (6 - dieCx a)).map fun k => dieCy a * 7 + dieCx a + k + 1)
  else if isX a then (if a = 24 then (List.range (dieCx b + 1)).map fun k => dieCy b * 7 + k
      else (List.range (6 - dieCx b)).map fun k => dieCy b * 7 + 6 - k)
  else if colFirst then dieCol (dieCx a) (dieCy a) (dieCy b) ++ dieRow (dieCy b) (dieCx a) (dieCx b)
  else dieRow (dieCy a) (dieCx a) (dieCx b) ++ dieCol (dieCx b) (dieCy a) (dieCy b)

/-- Seams from die to die under the map of the first. -/
def State.waySeams (s : State) (a b : Nat) : List Nat :=
  match s.viaOf a b with
  | (some v, o) => legSeams a v o ++ legSeams v b false
  | (none, o) => legSeams a b o

/-- A request held at a seam during the last-resort completion (R80, step 2). -/
def heldAtSeam : Nat := 0

/-- What stops a request of a partition from one die to another, and the seam: a failure, the firewall, or for transit
of others the reset of the partition behind the seam, which only holds it. -/
def State.wayStops (s : State) (p a b : Nat) : Option (Nat × Nat) :=
  firstSome ((s.waySeams a b).map fun n =>
    if s.linkFailed (.seam n) then some (fSeam, n)
    else if s.seamClosed n && !s.seamLets n (s.tagOf a p) a b then
      some (if s.sfwBit n 2 && s.transit n a b then heldAtSeam else fFirewall, n)
    else none)

/-- Neither a failure nor the firewall is on the way. -/
def State.wayOpen (s : State) (p a b : Nat) : Bool := (s.wayStops p a b).all fun x => x.1 == heldAtSeam

/-- The port of a seam on the side of a partition, else its first side. -/
def State.nearPort (s : State) (p : Option Nat) (n : Nat) : DiePort :=
  let e := seamSides n
  if s.partOf e.2.1 == p && s.partOf e.1.1 != p then e.2 else e.1

/-- BLOCKED of the port at which a packet is answered (R75). -/
def Act.countBlocked (d : DiePort) : Act := .countReg d.1 (.sfw d.2) 47 32

def Act.countStop (p : Option Nat) (x : Nat × Nat) : Act :=
  .read fun s => .when (x.1 == fFirewall) (.countBlocked (s.nearPort p x.2))

/-- A request that is answered frees its entries in the tables of crossings (R20). -/
def Act.untrack (id : Nat) : Act :=
  .read fun s => .each (s.links.filter fun e => e.2.table.any fun x => x.req == id) fun e =>
    .onLink e.1 fun v => { v with table := v.table.filter fun x => x.req != id }

/-! ### The way to the host (R45, R48, R228) -/

/-- The port and PASID of a leaf for owner 27, when the port is up (R45). -/
def State.hostPort (s : State) (x : Nat) (l : Leaf) : Option (Nat × BitVec 20) :=
  let port := bitField l.entry.toNat 11 8
  let sel := bitField l.entry.toNat 7 4
  let v := s.xdies.get {} x
  let up := if port < 2 then !v.pcieDown.contains port else port < 6 && !v.ualinkDown.contains (port - 2)
  if up && s.regField x (.pasidtbl sel) 63 63 == 1 then some (port, BitVec.ofNat 20 (s.regField x (.pasidtbl sel) 19 0))
  else none

/-- The valid shared range of an X-die that holds an address of a port (R48, R51). -/
def State.sharedAt (s : State) (x port a : Nat) : Bool :=
  s.featOn featUashared && decide (2 ≤ port) && (List.range 64).any fun i =>
    let r (j : Nat) : Nat := ((s.xdies.get {} x).ranges.get 0 (i, j)).toNat
    bitField (r 1) 63 63 == 1 && bitField (r 1) 57 56 == port - 2
      && decide (r 0 ≤ a) && decide (a < r 0 + bitField (r 1) 31 0 * 65536)

/-- Bytes of a port's largest payload: 256 for UALink (R46), one of PCIe's, 128 to 4,096 (PRESUMED, log 8). -/
def payloadOf (x port : Nat) : Nat := if port < 2 then 128 * 2 ^ (Config.payloadLog x port % 6) else 256

/-- Pieces of at most m bytes, none across a 4 KiB boundary: address and bytes. -/
def hostPieces (m : Nat) : Nat → Nat → Nat → List (Nat × Nat)
  | 0, _, _ => []
  | k + 1, a, n =>
    let b := min n (min m (4096 - a % 4096))
    if n = 0 then [] else (a, b) :: hostPieces m k (a + b) (n - b)

/-- A zero-length read over a PCIe port, which covers the posted writes that have left by it. -/
def Act.zeroRead (x port : Nat) : Act :=
  .read fun s =>
    let ids := ((s.xdies.get {} x).posted.filter fun e => e.2 == port).map (·.1)
    .when (ids != []) (.fresh fun id =>
      (Act.onXDie x fun v =>
        { v with posted := v.posted.filter fun e => e.2 != port, flushes := v.flushes ++ [(id, port, ids)] }).seq
        (.emit (.out (.zeroRead x port id))))

/-- Something waits at SYSTEM scope for requests: a posted write among them that has left by a PCIe port is covered by a
zero-length read now, one that has yet to leave when it leaves. -/
def Act.atSystem (ids : List Nat) : Act :=
  .when (ids != []) ((Act.read fun s => .emit (.reqs (s.reqs.map fun q =>
      if ids.contains q.id then { q with sys := true } else q))).seq (.each [24, 25] fun x => .each [0, 1] fun port => .read fun s =>
      .when ((s.xdies.get {} x).posted.any fun e => e.2 == port && ids.contains e.1) (.zeroRead x port)))

/-- The same when the wait is one at SYSTEM scope. -/
def Act.askSystem (sc : Scope) (ids : List Nat) : Act := .when (sc == .system) (.atSystem ids)

/-- n bytes of a request leave by a port, or go to the shared-range agent. A posted write over PCIe has no completion. -/
def Act.hostSend (id x port : Nat) (pasid : BitVec 20) (pa n : Nat) (posted sys : Bool) : Act :=
  .read fun s =>
    if s.sharedAt x port pa then
      .onXDie x fun v => { v with shared := { v.shared with queue := v.shared.queue ++ [⟨id, port - 2, pa, pasid⟩] } }
    else
      .block
        [ .onXDie x fun v =>
            if posted && decide (port < 2) then { v with posted := v.posted ++ [(id, port)] }
            else { v with outgoing := v.outgoing ++ [(id, port)] }
        , .each (hostPieces (payloadOf x port) (n + 2) pa n) fun e => .emit (.out (.hostRequest x port pasid e.1 e.2 id))
        , .when (sys && posted && decide (port < 2)) (.zeroRead x port) ]

/-- A write that an agent of the device makes at the host: it counts as performed up to SYSTEM scope at once. -/
def Act.hostWrite (a : Agent) (p : Nat) (asid : Option (BitVec 16)) (va : DWord) (l : Leaf) (pa : Nat) (bytes : List Byte)
    (k : Nat → Act) : Act :=
  .fresh fun id => .read fun s =>
    match s.hostPort (s.hostX p) l with
    | none => .skip
    | some (port, pasid) =>
      .block
        [ .emit (.reqs (s.reqs ++
            [{ id := id, agent := a, asid := asid, part := p, goal := .mem va (.store (bytes.map some))
               st := .performed 0 0, back := true, landed := true, owed := true }]))
        , .hostSend id (s.hostX p) port pasid pa bytes.length true false
        , k id ]

/-- The same in pieces of 64 bytes, the lines of a shared range (R48). -/
def Act.hostLines (a : Agent) (p : Nat) (asid : Option (BitVec 16)) (va : DWord) (l : Leaf) (pa : Nat) (bytes : List Byte)
    (k : Nat → Act) : Act :=
  .each ((List.range ((bytes.length + 63) / 64)).map (64 * ·)) fun i =>
    .hostWrite a p asid (va + BitVec.ofNat 64 i) l (pa + i) ((bytes.drop i).take 64) k

/-! ### Accesses that the device makes for itself under an ASID

They are made from a die `d`, over the way from it to the owner, and read at the owner's memory as it is now. -/

/-- The way to an address's owner is open, and no fence keeps its partition from an X-die (R74, R77). -/
def State.vaOpen (s : State) (d p : Nat) (va : DWord) : Bool :=
  let home := s.ownerDie d p va
  s.canonical d p va && vaModule va == s.moduleNo (s.mapOf d p) && s.wayOpen p d home && !(isX home && s.fenced home p)

/-- n bytes of device virtual memory within one page, or none when the access fails. Owner 27 is outside the module:
none, log 20. -/
def State.loadVa (s : State) (d p : Nat) (asid : Option (BitVec 16)) (va : DWord) (n : Nat) : Option (List Byte) :=
  if !s.vaOpen d p va || vaOwner va == 27 then none
  else match s.translate d p asid va n .load false with
    | .error _ => none
    | .ok (l, pa) =>
      let home := dataHome (s.ownerDie d p va) va
      if s.eccAt home pa n && !l.freshBit (vaOffset va) then none else some (s.fetchBytes home l (vaOffset va) pa n)

/-- A long read, in pieces of 64 bytes. -/
def State.loadLong (s : State) (d p : Nat) (asid : Option (BitVec 16)) (va : DWord) : Nat → Option (List Byte)
  | 0 => some []
  | k + 1 =>
    match s.loadVa d p asid va 64, s.loadLong d p asid (va + 64) k with
    | some a, some b => some (a ++ b)
    | _, _ => none

/-- An even number of bytes at an even address, in pieces of two. -/
def State.loadHalves (s : State) (d p : Nat) (asid : Option (BitVec 16)) (va : DWord) : Nat → Option (List Byte)
  | 0 => some []
  | k + 1 =>
    match s.loadVa d p asid va 2, s.loadHalves d p asid (va + 2) k with
    | some a, some b => some (a ++ b)
    | _, _ => none

/-- The first address of a long read that fails. -/
def State.loadFails (s : State) (d p : Nat) (asid : Option (BitVec 16)) (va : DWord) : Nat → Option DWord
  | 0 => none
  | k + 1 => if (s.loadVa d p asid va 64).isSome then s.loadFails d p asid (va + 64) k else some va

/-- Whether n bytes at an address can be written. -/
def State.canStore (s : State) (d p : Nat) (asid : Option (BitVec 16)) (va : DWord) (n : Nat) : Bool :=
  s.vaOpen d p va
    && (match s.translate d p asid va n .store false with
      | .ok (l, _) => vaOwner va != 27 || (s.hostPort (s.hostX p) l).isSome
      | .error _ => false)

/-- A write that the device makes within one page; bytes for owner 27 leave through the port (R45). -/
def Act.storeVa (d p : Nat) (asid : Option (BitVec 16)) (va : DWord) (bytes : List Byte) : Act :=
  .read fun s =>
    match s.translate d p asid va bytes.length .store false with
    | .error _ => .skip
    | .ok (l, pa) =>
      if !s.vaOpen d p va then .skip
      else if vaOwner va = 27 then .hostLines (.dispatcher d) p asid va l pa bytes fun _ => .skip
      else .storeAt (s.ownerDie d p va) va l pa (bytes.map some)

/-- A long write in pieces of 64 bytes. -/
def Act.storeLong (d p : Nat) (asid : Option (BitVec 16)) : DWord → List Byte → Nat → Act
  | _, _, 0 => .skip
  | va, bytes, k + 1 => (Act.storeVa d p asid va (bytes.take 64)).seq (Act.storeLong d p asid (va + 64) (bytes.drop 64) k)

end Sys2Proof.Machine
end

