-- ==== Sys2Proof/Machine/Fabric.lean ====
section
/-!
DEFINITION. Places on the fabric, launch-record fields, and which region, lot and policy a cell is under
(chapters 04, 05).
-/
namespace Sys2Proof.Machine

/-! ### Places (R3, R6, R16) -/

/-- Module fabric column and row of a cell (R6). -/
def fabX (c : CellId) : Nat := dieCx c.die * 96 + c.col
def fabY (c : CellId) : Nat := dieCy c.die * 48 + c.row

def cellOf (x y : Nat) : CellId := { die := y / 48 * 6 + x / 96, col := x % 96, row := y % 48 }

def natDist (a b : Nat) : Nat := (a - b) + (b - a)

/-- Cells between two cells, and seams crossed. -/
def cellDist (a b : CellId) : Nat := natDist (fabX a) (fabX b) + natDist (fabY a) (fabY b)
def seamCount (a b : CellId) : Nat := natDist (dieCx a.die) (dieCx b.die) + natDist (dieCy a.die) (dieCy b.die)

/-- Cycles of a freeze wave (R141). -/
def waveTime (a b : CellId) : Nat := cellDist a b + 6 * seamCount a b

/-- Cycles of a stop or exit, within the bound of R129 and R304. -/
def stopTime (at_ : Nat) (a b : CellId) : Nat := min (16 + 6 * seamCount a b) (Config.stopDelay at_ (fabX b) (fabY b))

/-- The physical cell of a logical one (R126). -/
def Region.cellAt (r : Region) (col row : Nat) : CellId := cellOf (r.cols.getD col 0) (r.rows.getD row 0)
def Region.origin (r : Region) : CellId := r.cellAt 0 0

/-- Logical place of a physical cell. -/
def Region.place (r : Region) (c : CellId) : Option (Nat × Nat) :=
  match r.cols.idxOf? (fabX c), r.rows.idxOf? (fabY c) with
  | some i, some j => if r.cells.contains (i, j) then some (i, j) else none
  | _, _ => none

/-- Where a physical cell stands: its region and its logical place there. -/
structure Spot where
  h : Word
  r : Region
  col : Nat
  row : Nat
  deriving DecidableEq, Repr

def findSpot (c : CellId) : List (Word × Region) → Option Spot
  | [] => none
  | (h, r) :: rest =>
    match r.place c with
    | some (i, j) => some ⟨h, r, i, j⟩
    | none => findSpot c rest

def State.spot (s : State) (c : CellId) : Option Spot := findSpot c s.regions

/-! ### Region handles (R125)

Within the model a region's handle names the physical die of its origin; the handles that programs, records and
descriptors carry name the logical one. -/

def handleDie (h : Word) : Nat := (h.extractLsb' 24 5).toNat

/-- The handle with another die. -/
def withHandleDie (h : Word) (d : Nat) : Word := BitVec.ofNat 32 ((h.extractLsb' 0 13).toNat + d * 2 ^ 24)

def State.archHandle (s : State) (h : Word) : Word := withHandleDie h (s.logicalOf (handleDie h))

/-- The region that a handle of a program on die d names in a partition (R125). -/
def State.findHandle (s : State) (d p : Nat) (h : Word) : Option Word :=
  match s.physOf (s.mapOf d p) (handleDie h) with
  | none => none
  | some d =>
    let k := withHandleDie h d
    if h = withHandleDie h (handleDie h) ∧ s.partOf d = some p ∧ (s.regions.get? k).isSome then some k else none

/-! ### When a cell acts (R129, R130, R141, R304) -/

/-- The region's exit has reached a cell. -/
def Region.exited (r : Region) (now : Nat) (c : CellId) : Bool :=
  match r.exitAt with
  | some (o, t) => decide (t + stopTime t o c ≤ now)
  | none => false

/-- The region's stop holds requests of a cell. -/
def Region.held (r : Region) (now : Nat) (c : CellId) : Bool :=
  match r.stopAt with
  | some t => decide (t + stopTime t r.origin c ≤ now)
  | none => false

/-- CEs of the region fire at a cell: of the freeze waves on their way none has reached it. -/
def Region.fires (r : Region) (now : Nat) (c : CellId) : Bool :=
  !r.exited now c &&
    (match r.state with
      | .running | .stopping => true
      | .freezing =>
        r.wave != [] && r.wave.all fun w => decide (now < w.2 + waveTime w.1 c)
      | _ => false)

/-- The lot of the instance on a die (R138). -/
def Region.lotOn (r : Region) (die : Nat) : Lot := ((r.lots.find? fun p => p.1 == die).map (·.2)).getD 0

/-! ### Given banks (R364, R365) -/

/-- A handle that names no region. -/
def noHandle : Word := 0xFFFFFFFF

def Region.isInst (r : Region) (g : Nat × Nat) : Bool := r.launch == some g.1 && r.inst == g.2

/-- The region that holds a given bank now: that of the giver's instance wherever it stands. -/
def State.bankHandle (s : State) (b : BankRef) : Word :=
  match b.giver with
  | none => b.handle
  | some g => ((s.regions.find? fun e => e.2.isInst g).map (·.1)).getD noHandle

/-- The giver's live lot on the bank's die. -/
def State.bankLot (s : State) (b : BankRef) : Lot :=
  match s.regions.get? (s.bankHandle b) with
  | some r => r.lotOn (r.cellAt b.col b.row).die
  | none => b.lot

/-! ### Region operations of harts: status values and drains (R128, R131, R381, R382) -/

def rsOk : DWord := 0
def rsBadState : DWord := 1
def rsBadHandle : DWord := 2
def rsShape : DWord := 3
def rsPlace : DWord := 4
def rsRciBad : DWord := 5
def rsBotHeld : DWord := 6
def rsNoCells : DWord := 7
def rsRetired : DWord := 8
def rsFaulted : DWord := 9
def rsPending : DWord := 10
def rsLoadReject : DWord := 11
def rsNondet : DWord := 12
def rsMemFault : DWord := 13
def rsDenied : DWord := 14
def rsBadArg : DWord := 15
def allOnes : DWord := 0xFFFF_FFFF_FFFF_FFFF

/-- The result of a drain: size and status (R382). -/
def drainResult (size : Nat) (st : DWord) : DWord := BitVec.ofNat 64 (size * 2 ^ 16) ||| st

/-- A drain of a handle that a hart waits in: since when, and its destination. -/
def Hart.draining (h : Hart) (w : Word) : Option (Nat × Reg) :=
  match h.wait with
  | some (.drain t rd k) => if k = w then some (t, rd) else none
  | _ => none

/-- Harts that wait in a drain of a handle: die, number, destination. -/
def State.drainers (s : State) (w : Word) : List (Nat × Nat × Reg) :=
  s.harts.filterMap fun e => (e.2.draining w).map fun t => (e.1.1, e.1.2, t.2)

/-- Drains of a handle end with a result (R131, R390). -/
def Act.endDrains (w : Word) (v : DWord) : Act :=
  .read fun s => .each (s.drainers w) fun e => .retireX e.1 e.2.1 e.2.2 v

/-! ### Launch record fields (R85-R89) -/

/-- A field of `n` bytes of a record copy. -/
def recNat (b : List Byte) (off n : Nat) : Nat := leNat ((b.drop off).take n)

def Launch.levels (l : Launch) : Nat := recNat l.copy 0x00A 1
def Launch.level (l : Launch) (k : Nat) : Nat := recNat l.copy (0x100 + 8 * k) 8
def Launch.fanout (l : Launch) (k : Nat) : Nat := bitField (l.level k) 12 0
def Launch.domain (l : Launch) (k : Nat) : Nat := bitField (l.level k) 18 16
def Launch.scopeCode (l : Launch) (k : Nat) : Nat := bitField (l.level k) 26 24
def Launch.flag (l : Launch) (i : Nat) : Bool := (recNat l.copy 0x004 4).testBit i
def Launch.policy (l : Launch) (cls : Nat) : Nat := bitField (recNat l.copy 0x028 1) (2 * cls + 1) (2 * cls)

/-- Number of level-k teams: the product of the fan-outs above (R89). -/
def Launch.teams (l : Launch) (k : Nat) : Nat :=
  (List.range (l.levels - 1 - k)).foldl (fun n i => n * l.fanout (k + 1 + i)) 1

/-- N(k) of the instance N(0) = n (R89). -/
def Launch.teamNo (l : Launch) (n : Nat) : Nat → Nat
  | 0 => n
  | k + 1 => if k + 1 < l.levels then l.teamNo n k / l.fanout (k + 1) else 0

/-- Coordinate of the level-k ancestor (R89). -/
def Launch.coord (l : Launch) (n k : Nat) : Nat :=
  if k + 1 < l.levels then l.teamNo n k % l.fanout (k + 1) else 0

/-- The level-1 team, 0 for a launch of one level. -/
def Launch.team1 (l : Launch) (n : Nat) : Nat := if l.levels ≤ 1 then 0 else l.teamNo n 1

/-- Launch of a region. -/
def State.launchOf (s : State) (r : Region) : Option Launch := r.launch.bind s.launches.get?

def polSuspend : Nat := 0
def polKill : Nat := 1
def polShut : Nat := 2
def polMap : Nat := 3

/-- The policy for a fault class (0 precise, 1 stream-held, 2 imprecise); SUSPEND without a launch (R145, R383), SHUT
after `rg.shut` (R127). -/
def State.policyOf (s : State) (r : Region) (cls : Nat) : Nat :=
  if r.forceShut then polShut
  else match s.launchOf r with
    | some l => l.policy cls
    | none => polSuspend

/-! ### Routes of a region on the fabric -/

/-- The adjacent physical cell, when there is one. -/
def besides (c : CellId) (d : Dir) : Option CellId :=
  let x := fabX c
  let y := fabY c
  match d with
  | .n => if y = 0 then none else some (cellOf x (y - 1))
  | .s => if y + 1 < 192 then some (cellOf x (y + 1)) else none
  | .w => if x = 0 then none else some (cellOf (x - 1) y)
  | .e => if x + 1 < 576 then some (cellOf (x + 1) y) else none
  | .l => none

/-- The logical neighbour of a cell within the region's shape. -/
def Region.beside (r : Region) (col row : Nat) (d : Dir) : Option (Nat × Nat) :=
  match d with
  | .n => if row = 0 then none else some (col, row - 1)
  | .s => if row + 1 < r.height then some (col, row + 1) else none
  | .w => if col = 0 then none else some (col - 1, row)
  | .e => if col + 1 < r.width then some (col + 1, row) else none
  | .l => none

/-- The next cell that takes a token leaving a cell in a direction: pass-through cells are passed over (R126). -/
def Region.nextCell (r : Region) (col row : Nat) (d : Dir) : Option CellId :=
  match r.beside col row d with
  | some q => some (r.cellAt q.1 q.2)
  | none => besides (r.cellAt col row) d

/-- Seams crossed from fabric column x to x' in row y, and from row y to y' in column x. -/
def rowSeams (x x' y : Nat) : List Nat :=
  let a := min x x' / 96
  let b := max x x' / 96
  (List.range (b - a)).map fun k => (y / 48) * 7 + a + k + 1
def colSeams (y y' x : Nat) : List Nat :=
  let a := min y y' / 48
  let b := max y y' / 48
  (List.range (b - a)).map fun k => 28 + (a + k) * 6 + x / 96

/-- Seams between two cells of one row or column. -/
def seamsBetween (a b : CellId) : List Nat := rowSeams (fabX a) (fabX b) (fabY a) ++ colSeams (fabY a) (fabY b) (fabX a)

/-- Seams that a routing word's outputs cross under the region's map. -/
def Region.routeSeams (r : Region) (col row : Nat) (w : Route) : List Nat :=
  w.outs.flatMap fun o =>
    match o with
    | .dir d =>
      (match r.nextCell col row d with
        | some c => seamsBetween (r.cellAt col row) c
        | none => [])
    | _ => []

/-- The network class of a lane. -/
def laneClass : Net → LaneClass
  | .vec => .vec
  | .scal => .scal
  | .ctl => .ctl

/-- The crossing of a cell at a seam of its row or column. -/
def crossingAt (n : Nat) (c : CellId) : Nat := if n < 28 then c.row else c.col

/-- The lane on which a token of a network that leaves a cell in a direction first crosses a seam. -/
def Region.laneOut (r : Region) (col row : Nat) (net : Net) (d : Dir) : Option LaneId :=
  match r.nextCell col row d with
  | none => none
  | some c => (seamsBetween (r.cellAt col row) c).head?.map fun n =>
      { link := .seam n, crossing := crossingAt n (r.cellAt col row), cls := laneClass net, up := d == .e || d == .s }

/-- Sequence numbers of a link (R18, R22). -/
def laneModulus : LinkId → Nat
  | .seam _ => 64
  | .edge _ _ => 256

/-- Flits of a lane that its receiver has not taken. -/
def Lane.coming (v : Lane) (l : LinkId) : List Flit :=
  match v.buf with
  | [] => []
  | f :: _ => v.buf.drop ((v.expect + laneModulus l - f.seq) % laneModulus l)

/-- The lanes on which tokens of the region's routes cross seams. -/
def Region.lanes (r : Region) : List LaneId :=
  (r.inits.flatMap fun e => e.2.2.sw.routes.flatMap fun w =>
    (r.routeSeams e.1 e.2.1 w).flatMap fun n =>
      [true, false].map fun u =>
        ({ link := .seam n, crossing := crossingAt n (r.cellAt e.1 e.2.1), cls := laneClass w.net, up := u } : LaneId)).eraseDups

end Sys2Proof.Machine
end

