-- ==== Sys2Proof/Machine/MeOps.lean ====
section
/-!
DEFINITION. Operations of the memory element: lot checks, reads, writes, merges, atomics, full/empty bits and bobbins
(06 R166-R178, 07 R202-R205, 14). Firings, streams and remote requests all perform these same operations.
-/
namespace Sys2Proof.Machine

/-- What a completed operation gives: payload, sideband, version, predicate result. -/
structure Got where
  value : Vec := 0
  sb : DWord := 0
  ver : BitVec 4 := 0
  flag : Bool := false
  deriving DecidableEq, Repr

/-- How an operation ends. -/
inductive MeRes
  | ok (me : Me) (g : Got)
  /-- Must wait: an empty line, a bank not owned, a full or empty bobbin. -/
  | wait
  /-- A precise fault; nothing changes. -/
  | fault (code : Nat)
  /-- A selvedge access: discarded, a read gives zero (R205). -/
  | selvedge
  /-- A pop or peek of a closed, drained bobbin (R362). -/
  | eos
  deriving DecidableEq, Repr

def fLotStale : Nat := 0x06
def fDivZero : Nat := 0x07
def fFormatSpan : Nat := 0x08
def fVersion : Nat := 0x09
def fRing : Nat := 0x0A
def fTrap : Nat := 0x0B
def fBreak : Nat := 0x0C
def fEcc : Nat := 0x0E
def fCanon : Nat := 0x03
def fAlign : Nat := 0x04
def fSelvedge : Nat := 0x05
def fPoison : Nat := 0x14

/-! ### Lines and allocations (R123, R138, R202) -/

def covers (first count line : Nat) : Bool := decide (first ≤ line) && decide (line < first + count)

/-- What the image says of a line: a live pool allocation, a declared allocation, or the parameter line. None is a
selvedge or unallocated line. -/
def Me.access (m : Me) (inst : Lot) (origin : Bool) (line : Nat) : Option LineAcc :=
  match m.pool.find? fun p => covers p.first p.count line with
  | some p => some { mode := p.mode, fesync := p.fesync, own := p.lot }
  | none =>
    match m.allocs.find? fun a => !a.pool && covers a.first a.count line with
    | some a => some { mode := a.mode, fesync := a.fesync, baste := a.baste, own := inst }
    | none => if origin && line == 1023 then some { mode := .z, param := true, own := inst } else none

def Me.line (m : Me) (n : Nat) : Line := m.lines.get {} n
def Me.bank (m : Me) (b : Nat) : Bank := m.banks.get {} b

def Line.isOwn (l : Line) (a : LineAcc) : Bool := a.own != 0 && l.lot == a.own

/-- The table of R202. -/
inductive Seen | data | zero | waits | stale
  deriving DecidableEq, Repr

def Line.seen (l : Line) (a : LineAcc) : Seen :=
  if !l.isOwn a then
    (match a.mode with
      | .z => .zero
      | .t => .stale
      | .w => .waits)
  else if !l.full && (a.mode == .w || a.fesync) then .waits
  else .data

/-- Bytes of a line from a byte offset. -/
def Line.bytes (l : Line) (off n : Nat) : Nat := l.data.toNat / 2 ^ (8 * off) % 2 ^ (8 * n)

/-- An uncorrectable word among them (R139). -/
def Line.badAt (l : Line) (off n : Nat) : Bool :=
  (List.range 16).any fun w => l.bad.getLsbD w && decide (off < 8 * w + 8) && decide (8 * w < off + n)

/-- The line as a plain write finds it: a foreign line is stamped and zeroed (R203). -/
def Line.stamped (l : Line) (a : LineAcc) : Line :=
  if l.isOwn a then l else { data := 0, full := false, lot := a.own, ver := 0, bad := 0 }

/-- Bits of the 32-bit groups of a 64-byte payload that a mask enables. -/
def maskBits (mask : BitVec 16) (groups : Nat) : Nat :=
  packElems 32 ((List.range groups).map fun i => if mask.getLsbD i then 2 ^ 32 - 1 else 0)

/-- Bits of a line replaced where `m` has a 1. -/
def Line.put (l : Line) (off : Nat) (m v : Nat) : Line :=
  let sh : BitVec 1024 := BitVec.ofNat 1024 (m * 2 ^ (8 * off))
  { l with
    data := (l.data &&& ~~~sh) ||| (BitVec.ofNat 1024 (v * 2 ^ (8 * off)) &&& sh)
    bad := l.bad &&& ~~~(BitVec.ofNat 16 (packElems 1 ((List.range 16).map fun w =>
      if sh.toNat / 2 ^ (64 * w) % 2 ^ 64 = 2 ^ 64 - 1 then 1 else 0))) }

def Me.putLine (m : Me) (n : Nat) (l : Line) : Me := { m with lines := m.lines.put n l }

/-- The line lies in a basting tile that holds a final version (R366). -/
def Me.finalTile (m : Me) (line : Nat) : Bool :=
  m.decls.any fun d => match d.2 with
    | .basting b => covers b.base b.lines line && b.shown == some 15
    | .bobbin _ => false

/-- A write is discarded there: no allocation, the parameter line, a reduction port, a final tile (R356, R358). -/
def Me.writeBad (m : Me) (acc : Option LineAcc) (line : Nat) (port : Bool) : Bool :=
  match acc with
  | none => true
  | some a => a.param || (!port && (m.bank (line / 128)).rport.isSome) || (a.baste && m.finalTile line)

/-- The bank is this instance's; the parameter line is always. -/
def Me.bankOk (m : Me) (line : Nat) : Bool := (m.bank (line / 128)).owned

/-! ### Reads and writes -/

def lineOf (off : Nat) : Nat := off / 128

/-- A read of `n` bytes (R356). -/
def meRead (m : Me) (acc : Option LineAcc) (off n : Nat) : MeRes :=
  match acc with
  | none => .selvedge
  | some a =>
    let l := m.line (lineOf off)
    if !m.bankOk (lineOf off) then .wait
    else match l.seen a with
      | .zero => .ok m {}
      | .stale => .fault fLotStale
      | .waits => .wait
      | .data =>
        if l.badAt (off % 128) n then .fault fEcc
        else .ok m { value := BitVec.ofNat 512 (l.bytes (off % 128) n), ver := if a.baste then l.ver else 0 }

/-- A write of the enabled groups; `fills` sets the line full (R168, R169, R203). A write that enables no group
writes nothing. -/
def meWrite (m : Me) (acc : Option LineAcc) (off n : Nat) (data : Vec) (mask : BitVec 16) (fills : Bool) : MeRes :=
  if m.writeBad acc (lineOf off) false then .selvedge
  else match acc with
    | none => .selvedge
    | some a =>
      let l := m.line (lineOf off)
      if !m.bankOk (lineOf off) then .wait
      else
        let bits := maskBits mask (n / 4)
        let l' := if bits = 0 then l else (l.stamped a).put (off % 128) bits (data.toNat % 2 ^ (8 * n))
        .ok (m.putLine (lineOf off) { l' with full := l'.full || fills }) {}

/-- The sideband of a stream's element: 8 bytes (R174). -/
def meReadSb (m : Me) (acc : Option LineAcc) (sboff : Nat) : MeRes := meRead m acc sboff 8

def meWriteSb (m : Me) (acc : Option LineAcc) (sboff : Nat) (sb : DWord) (mask : BitVec 16) : MeRes :=
  if mask = 0 then .ok m {}
  else meWrite m acc sboff 8 (BitVec.ofNat 512 sb.toNat) 3 false

/-! ### Atomics and merges (R171, R358, R359) -/

/-- One element combined: I32 signed or unsigned, floating formats rounded once. -/
def combine (op : RmwOp) (f : Fmt) (rnd : Rnd) (uns : Bool) (bits : Nat) (old v new : Nat) : Nat :=
  let sgn (x : Nat) : Int := (BitVec.ofNat bits x).toInt
  match op with
  | .xchg => v
  | .cas => if old = v then new else old
  | .and => old &&& v
  | .or => old ||| v
  | .xor => old ^^^ v
  | .add =>
    (match f with
      | .i32 => (old + v) % 2 ^ bits
      | _ => roundTo f rnd false ((decodeBits f old 0 0).add rnd (decodeBits f v 0 0)))
  | .min =>
    (match f with
      | .i32 => if uns then min old v else if sgn v < sgn old then v else old
      | _ => roundTo f .rne false ((decodeBits f old 0 0).fmin (decodeBits f v 0 0)))
  | .max =>
    (match f with
      | .i32 => if uns then max old v else if sgn old < sgn v then v else old
      | _ => roundTo f .rne false ((decodeBits f old 0 0).fmax (decodeBits f v 0 0)))

def Rmw.apply (r : Rmw) (old : Nat) : Nat := combine r.op r.fmt r.rnd r.uns (8 * r.size) old r.v r.new % 2 ^ (8 * r.size)

def ROp.toRmw : ROp → RmwOp
  | .add => .add
  | .min => .min
  | .max => .max

/-- Elements of `n` bytes combined with resident ones, where a group is enabled. -/
def mergeElems (op : ROp) (f : Fmt) (n : Nat) (mask : BitVec 16) (old v : Nat) : Nat :=
  let w := fmtWidth f
  packElems w ((List.range (8 * n / w)).map fun i =>
    let o := old / 2 ^ (w * i) % 2 ^ w
    if mask.getLsbD (w * i / 32) then combine op.toRmw f .rne false w o (v / 2 ^ (w * i) % 2 ^ w) 0 else o)

/-- The old value of a read-modify-write: the table of R202 applies to its read half. -/
inductive OldRes | old (v : Nat) (l : Line) | stop (r : MeRes)

def meOld (m : Me) (a : LineAcc) (off n : Nat) : OldRes :=
  let l := m.line (lineOf off)
  if !m.bankOk (lineOf off) then .stop .wait
  else match l.seen a with
    | .stale => .stop (.fault fLotStale)
    | .waits => .stop .wait
    | .zero => .old 0 (l.stamped a)
    | .data => if l.badAt (off % 128) n then .stop (.fault fEcc) else .old (l.bytes (off % 128) n) l

def meRmw (m : Me) (acc : Option LineAcc) (off : Nat) (r : Rmw) : MeRes :=
  if m.writeBad acc (lineOf off) false then .selvedge
  else match acc with
    | none => .selvedge
    | some a =>
      match meOld m a off r.size with
      | .stop x => x
      | .old v l =>
        .ok (m.putLine (lineOf off) (l.put (off % 128) (2 ^ (8 * r.size) - 1) (r.apply v))) { value := BitVec.ofNat 512 v }

/-- The element's source is the one that the port declares (R171). `sc` is the source's logical cell; none is the
port's own cell. -/
def Me.portOk (m : Me) (line : Nat) (sc : Option (Nat × Nat)) (k : Nat) (f : Fmt) (op : ROp) : Bool :=
  match (m.bank (line / 128)).rport with
  | none => true
  | some p => p.source == sc && p.stream == k && p.fmt == f && p.op == op

def meMerge (m : Me) (acc : Option LineAcc) (off n : Nat) (data : Vec) (mask : BitVec 16) (f : Fmt) (op : ROp)
    (portOk : Bool) : MeRes :=
  if !portOk || m.writeBad acc (lineOf off) true then .selvedge
  else match acc with
    | none => .selvedge
    | some a =>
      if maskBits mask (n / 4) = 0 then .ok m {}
      else match meOld m a off n with
        | .stop x => x
        | .old v l =>
          .ok (m.putLine (lineOf off) (l.put (off % 128) (2 ^ (8 * n) - 1) (mergeElems op f n mask v data.toNat)))
            {}

/-! ### Full/empty (R360) -/

def meFe (m : Me) (acc : Option LineAcc) (off : Nat) (full : Bool) : MeRes :=
  match acc with
  | none => .selvedge
  | some a =>
    if a.param then .selvedge
    else if !m.bankOk (lineOf off) then .wait
    else .ok (m.putLine (lineOf off) { (m.line (lineOf off)).stamped a with full := full }) {}

def meFeTest (m : Me) (acc : Option LineAcc) (off : Nat) : MeRes :=
  match acc with
  | none => .selvedge
  | some a =>
    let l := m.line (lineOf off)
    let b := l.isOwn a && l.full
    .ok m { value := if b then 1 else 0, flag := b }

/-! ### Bobbins (R178, R361-R363) -/

def Bobbin.slotBit (b : Bobbin) (j : Word) : Nat := j.toNat % b.slots

/-- TAIL advances over published slots whose publication has nothing left to wait for (R178, R361). -/
def Bobbin.advance (b : Bobbin) : Nat → Bobbin
  | 0 => b
  | n + 1 =>
    if b.pub.getLsbD (b.slotBit b.tail) && b.tail != b.res && (b.held.find? fun e => e.1 == b.tail).isNone then
      Bobbin.advance { b with pub := b.pub &&& ~~~(1#256 <<< b.slotBit b.tail), tail := b.tail + 1 } n
    else b

/-- The bobbin once the requests that `isDone` names are performed. -/
def Bobbin.settle (b : Bobbin) (isDone : Nat → Bool) : Bobbin :=
  Bobbin.advance { b with held := b.held.filter fun e => !e.2.all isDone } b.slots

def Bobbin.inUse (b : Bobbin) : Nat := (b.res - b.head).toNat

def Bobbin.close (b : Bobbin) : Bobbin :=
  if b.closed then b
  else { b with closed := true, discarded := b.res, res := b.tail, pub := 0, held := [] }

/-- j lies below the RES that the close discarded (R361). -/
def Bobbin.wasReserved (b : Bobbin) (j : Word) : Bool := b.closed && (b.discarded - 1 - j).toNat < 2 ^ 31

def Me.putDecl (m : Me) (i : Nat) (d : Decl) : Me := { m with decls := m.decls.put i d }

/-- The bobbin that declaration i names. -/
def Me.bobbin (m : Me) (i : Nat) : Option Bobbin :=
  match m.decls.get? i with
  | some (.bobbin b) => some b
  | _ => none

def Me.basting (m : Me) (i : Nat) : Option Basting :=
  match m.decls.get? i with
  | some (.basting b) => some b
  | _ => none

def wordVec (w : Word) : Vec := BitVec.ofNat 512 w.toNat

/-- Ring operations on bobbin i; `reqs` are the accesses that a publication releases. -/
def meRing (m : Me) (i : Nat) (isDone : Nat → Bool) (op : MeOp) (reqs : List Nat) : MeRes :=
  match m.bobbin i with
  | none => .fault fRing
  | some b0 =>
    let b := b0.settle isDone
    match op with
    | .ringRes _ =>
      if b.closed then .ok m { value := wordVec 0xFFFFFFFF }
      else if b.inUse < b.slots then
        .ok (m.putDecl i (.bobbin { b with res := b.res + 1 })) { value := wordVec b.res, flag := true }
      else .wait
    | .ringPub _ j =>
      if (j - b.tail).toNat < (b.res - b.tail).toNat && !b.pub.getLsbD (b.slotBit j) then
        let b1 := { b with pub := b.pub ||| (1#256 <<< b.slotBit j), held := if reqs = [] then b.held else (j, reqs) :: b.held }
        .ok (m.putDecl i (.bobbin (b1.advance b1.slots))) { flag := true }
      else if b.wasReserved j then .ok m {}
      else .fault fRing
    | .ringPop _ =>
      if b.head != b.tail then .ok (m.putDecl i (.bobbin { b with head := b.head + 1 })) { value := wordVec b.head, flag := true }
      else if b.closed then .eos
      else .wait
    | .ringPeek _ =>
      if b.head != b.tail then .ok (m.putDecl i (.bobbin b)) { value := wordVec b.head, flag := true }
      else if b.closed then .eos
      else .wait
    | .ringClose _ => .ok (m.putDecl i (.bobbin b.close)) {}
    | .ringStat _ =>
      .ok m
        { value := wordVec (BitVec.ofNat 32 ((b.tail - b.head).toNat % 512 + (b.slots - b.inUse) % 512 * 2 ^ 16
            + (if b.closed then 2 ^ 31 else 0)))
          flag := b.closed }
    | _ => .fault fRing

/-- `hem` (R368): no effect once a final version is held. -/
def meHem (m : Me) (i : Nat) : MeRes :=
  match m.basting i with
  | none => .ok m {}
  | some b => if b.shown == some 15 then .ok m {} else .ok (m.putDecl i (.basting { b with hemmed := true })) {}

/-! ### One operation -/

/-- The line that an operation touches, if it touches one. An offset above the scratchpad names no line (R356). -/
def MeOp.offset : MeOp → Option Nat
  | .read off _ | .write off _ _ _ _ | .readSb off _ | .writeSb off _ _ _ _ _ | .merge off _ _ _ _ _ _ _ | .rmw off _ _
  | .feSet off | .feClr off | .feTest off => some off
  | .ringRes _ | .ringPub _ _ | .ringPop _ | .ringPeek _ | .ringClose _ | .ringStat _ | .hem _ => none

/-- Two accesses of one element: the second follows on the first's result. -/
def MeRes.andThen (r : MeRes) (f : Me → Got → MeRes) : MeRes :=
  match r with
  | .ok m g => f m g
  | x => x

/-- What the operation does, given what the image says of each line. `sc` is the source cell of a reduce stream. -/
def meOp (m : Me) (acc : Nat → Option LineAcc) (isDone : Nat → Bool) (reqs : List Nat) (sc : Option (Nat × Nat))
    (op : MeOp) : MeRes :=
  let at_ (off : Nat) : Option LineAcc := if off < 0x20000 then acc (lineOf off) else none
  match op with
  | .read off n => meRead m (at_ off) off n
  | .write off n data mask fills => meWrite m (at_ off) off n data mask fills
  | .readSb off sboff =>
    (meRead m (at_ off) off 64).andThen fun m1 g =>
      (meReadSb m1 (at_ sboff) sboff).andThen fun m2 b => .ok m2 { g with sb := b.value.extractLsb' 0 64 }
  | .writeSb off sboff data sb mask fills =>
    (meWriteSb m (at_ sboff) sboff sb mask).andThen fun m1 _ => meWrite m1 (at_ off) off 64 data mask fills
  | .merge off pack data mask f rop _ k =>
    meMerge m (at_ off) off (if pack = .scal then 4 else 64) data mask f rop (m.portOk (lineOf off) sc k f rop)
  | .rmw off r _ => meRmw m (at_ off) off r
  | .feSet off => meFe m (at_ off) off true
  | .feClr off => meFe m (at_ off) off false
  | .feTest off => meFeTest m (at_ off) off
  | .ringRes i | .ringPub i _ | .ringPop i | .ringPeek i | .ringClose i | .ringStat i => meRing m i isDone op reqs
  | .hem i => meHem m i

end Sys2Proof.Machine
end

