-- ==== Sys2Proof/Machine/Operands.lean ====
section
/-!
DEFINITION. The operands of a firing: where it stands, what its sources read, what it consumes, and how results and
markers reach its destination (06 R156-R165, 10 R263, 12 R313).
-/
namespace Sys2Proof.Machine

/-- A firing's surroundings. -/
structure Env where
  s : State
  id : CellId
  slot : Nat
  c : Cell
  spot : Spot
  /-- A fault code suppressed by STEPOVER (R148). -/
  suppress : Option Nat := none

/-- A source as read: value, version, and the marker of a channel token. -/
structure Src where
  val : Val
  ver : BitVec 4 := 0
  mark : Marker := .data
  deriving DecidableEq, Repr

/-- What reading a source gives: a value, LOT_STALE, or nothing to read (R161). -/
inductive Fetch | ok (a : Src) | stale | absent
  deriving DecidableEq, Repr

/-- The instance lot on the cell's die (R138). -/
def Env.own (e : Env) : Lot := e.spot.r.lotOn e.id.die

def lotOwn (own lot : Lot) : Bool := own != 0 && lot == own

/-- A foreign-lot register under the register lot mode. -/
def Env.foreign (e : Env) (zero : Val) : Fetch :=
  match e.c.ce.rlmode with
  | .z => .ok { val := zero }
  | .t => if e.suppress = some fLotStale then .ok { val := zero } else .stale
  | .w => .absent

/-- The head token of a channel. -/
def Ce.head (c : Ce) : Opnd → Option Tok
  | .vi i => (c.vi.get [] i.val).head?
  | .si i => (c.si.get [] i.val).head?
  | .ci i => (c.ci.get [] i.val).head?
  | _ => none

def Body.val : Body → Val
  | .vec v => .vec v
  | .scal x => .scal x
  | .ctl b => .scal (if b then 1 else 0)

/-- A token as a source. The header of a control token has no VER (R162). -/
def Tok.src (t : Tok) : Src :=
  { val := t.body.val, mark := t.mark
    ver := match t.body with
      | .ctl _ => 0
      | _ => t.ver }

/-- The lane-index operand: I32 element i = i. -/
def laneIndex : VecVal :=
  { data := BitVec.ofNat 512 (packElems 32 (List.range 16)), mask := 0xFFFF }

/-- A source read (R161, R263). -/
def Env.src (e : Env) (w : CEWord) (o : Opnd) : Fetch :=
  match o with
  | .v i =>
    let r := e.c.ce.v.get {} i.val
    if lotOwn e.own r.lot then .ok { val := .vec r.val, ver := r.ver } else e.foreign (.vec {})
  | .s i =>
    let r := e.c.ce.s.get {} i.val
    if lotOwn e.own r.lot then .ok { val := .scal r.val, ver := r.ver } else e.foreign (.scal 0)
  | .vi _ | .si _ | .ci _ =>
    (match e.c.ce.head o with
      | some t => .ok t.src
      | none => .absent)
  | .imm => .ok { val := .scal w.imm }
  | .lane => .ok { val := .vec laneIndex }
  | .ctxn => .ok { val := .scal (w.ctx.zeroExtend 32) }
  | .p i => .ok { val := .scal (if e.c.ce.p.getLsbD i.val then 1 else 0) }
  | _ => .ok { val := .scal 0 }

/-- A register is present for the instance (R155). -/
def Env.present (e : Env) (code : BitVec 5) : Bool :=
  if code.getLsbD 4 then
    let r := e.c.ce.s.get {} (code.toNat % 16)
    r.pres && lotOwn e.own r.lot
  else
    let r := e.c.ce.v.get {} (code.toNat % 16)
    r.pres && lotOwn e.own r.lot

/-! ### Consumption (R156, R157) -/

def Ce.clearPres (c : Ce) : Opnd → Ce
  | .v i => { c with v := c.v.put i.val { c.v.get {} i.val with pres := false } }
  | .s i => { c with s := c.s.put i.val { c.s.get {} i.val with pres := false } }
  | _ => c

/-- One operand consumed: a channel pops its head, a register loses its presence. -/
def Ce.take (c : Ce) : Opnd → Ce
  | .vi i => { c with vi := c.vi.put i.val (c.vi.get [] i.val).tail }
  | .si i => { c with si := c.si.put i.val (c.si.get [] i.val).tail }
  | .ci i => { c with ci := c.ci.put i.val (c.ci.get [] i.val).tail }
  | o => c.clearPres o

/-- Operands once each, in order. -/
def dedupOpnds : List Opnd → List Opnd
  | [] => []
  | o :: r => o :: (dedupOpnds r).filter (· != o)

def regOpnd (code : BitVec 5) : Opnd :=
  if code.getLsbD 4 then .s ⟨code.toNat % 16, Nat.mod_lt _ (by decide)⟩ else .v ⟨code.toNat % 16, Nat.mod_lt _ (by decide)⟩

def praOf : PrTest → Option (BitVec 5)
  | .none => Option.none
  | .present a | .absent a | .presentAbsent a _ => some a

/-- DEQ[43]: the presence of PRA is cleared. -/
def dropsPra (w : CEWord) : List Opnd :=
  if w.deqP then (match praOf w.prt with
    | some a => [regOpnd a]
    | none => []) else []

/-- What DEQ consumes of the sources. -/
def consumesOf (w : CEWord) : List Opnd :=
  dedupOpnds ((if w.deqA then [w.sa] else []) ++ (if w.deqB then [w.sb] else []) ++ (if w.deqC then [w.sc] else []))

def Ce.takeAll (c : Ce) : List Opnd → Ce
  | [] => c
  | o :: r => (c.take o).takeAll r

/-- The firing's consumption as the guard's DEQ bits say. -/
def Ce.consume (c : Ce) (w : CEWord) : Ce := (c.takeAll (consumesOf w)).takeAll (dropsPra w)

/-! ### Destinations -/

/-- Outputs that a destination code names. -/
def outsOf : Opnd → List Opnd
  | .vo i => [.vo i]
  | .so i => [.so i]
  | .co i => [.co i]
  | .voBoth => [.vo 0, .vo 1]
  | .soBoth => [.so 0, .so 1]
  | _ => []

def Ce.outList (c : Ce) : Opnd → List OutEnt
  | .vo i => c.vo.get [] i.val
  | .so i => c.so.get [] i.val
  | .co i => c.co.get [] i.val
  | _ => []

/-- Every output named has a free entry of its two (R152, R159). -/
def Ce.room (c : Ce) (dst : Opnd) : Bool := (outsOf dst).all fun o => decide ((c.outList o).length < 2)

def Ce.pushOut (c : Ce) (o : Opnd) (x : OutEnt) : Ce :=
  match o with
  | .vo i => { c with vo := c.vo.put i.val (c.vo.get [] i.val ++ [x]) }
  | .so i => { c with so := c.so.put i.val (c.so.get [] i.val ++ [x]) }
  | .co i => { c with co := c.co.put i.val (c.co.get [] i.val ++ [x]) }
  | _ => c

/-- A result in the class of an output: a scalar result fills every element of a vector (R313), a control output
takes whether it is non-zero (R263). -/
def bodyFor (o : Opnd) (fmt : Fmt) (v : Val) : Body :=
  match o with
  | .vo _ => .vec (match v with
    | .vec x => x
    | .scal x => spread fmt x)
  | .co _ => .ctl (v.word != 0)
  | _ => .scal v.word

/-- The context of emitted tokens (R164). -/
def outCtx (w : CEWord) : BitVec 3 := if w.octx then w.imm.extractLsb' 0 3 else w.ctx

/-- What a write needs to know beside the value: format of a spread scalar, context, version, lot, cycle. -/
structure Stamp where
  fmt : Fmt
  ctx : BitVec 3
  ver : BitVec 4
  own : Lot
  now : Nat
  deriving DecidableEq, Repr

/-- The version that a token of an output carries: control tokens carry none (R162). -/
def verFor : Opnd → BitVec 4 → BitVec 4
  | .co _, _ => 0
  | _, v => v

/-- A data result written to a destination (R160, R164, R263). -/
def Ce.write (c : Ce) (dst : Opnd) (t : Stamp) (v : Val) : Ce :=
  match dst with
  | .v i =>
    let x := match v with
      | .vec x => x
      | .scal x => spread t.fmt x
    { c with v := c.v.put i.val { val := x, ver := t.ver, pres := true, lot := t.own, since := t.now } }
  | .s i => { c with s := c.s.put i.val { val := v.word, ver := t.ver, pres := true, lot := t.own, since := t.now } }
  | .p i => { c with p := setBits c.p i.val 1 (if v.word = 0 then 0 else 1) }
  | _ =>
    (outsOf dst).foldl (fun c o =>
      c.pushOut o (.filled { body := bodyFor o t.fmt v, ctx := t.ctx, ver := verFor o t.ver, since := t.now })) c

/-- The empty body of a passed marker (R165). -/
def emptyBody : Opnd → Body
  | .vo _ => .vec {}
  | .co _ => .ctl false
  | _ => .scal 0

/-- A marker passed to every output named; registers and predicates keep their value (R160, R165). -/
def Ce.pass (c : Ce) (dst : Opnd) (ctx : BitVec 3) (ver : BitVec 4) (mk : Marker) (now : Nat) : Ce :=
  (outsOf dst).foldl (fun c o =>
    c.pushOut o (.filled { body := emptyBody o, ctx := ctx, ver := verFor o ver, mark := mk, since := now })) c

/-- A source forwarded whole (R288): a marker never writes a register. -/
def Ce.forward (c : Ce) (dst : Opnd) (t : Stamp) (a : Src) : Ce :=
  if a.mark = .data then c.write dst t a.val
  else (outsOf dst).foldl (fun c o =>
    c.pushOut o (.filled { body := bodyFor o t.fmt a.val, ctx := t.ctx, ver := verFor o t.ver, mark := a.mark, since := t.now })) c

def maxVer (a b : BitVec 4) : BitVec 4 := if a.ult b then b else a

/-- The largest version read (R164). -/
def verOf : List Src → BitVec 4
  | [] => 0
  | a :: r => maxVer a.ver (verOf r)

/-- The marker passed: the first in the order REFIRE, EOS, CFG (R165). -/
def markOf (l : List Src) : Option Marker :=
  if l.any fun a => a.mark == .refire then some .refire
  else if l.any fun a => a.mark == .eos then some .eos
  else if l.any fun a => a.mark == .cfg then some .cfg
  else none

def Env.stamp (e : Env) (w : CEWord) (ver : BitVec 4) : Stamp :=
  { fmt := w.fmt, ctx := outCtx w, ver := ver, own := e.own, now := e.s.cycle }

/-- A request's response: filled into the reserved entry (R353). -/
def fillEnt (id : Nat) (t : Tok) : List OutEnt → List OutEnt
  | [] => []
  | .reserved i :: r => if i = id then .filled t :: r else .reserved i :: fillEnt id t r
  | x :: r => x :: fillEnt id t r

def Ce.fill (c : Ce) (o : Opnd) (id : Nat) (t : Tok) : Ce :=
  match o with
  | .vo i => { c with vo := c.vo.put i.val (fillEnt id t (c.vo.get [] i.val)) }
  | .so i => { c with so := c.so.put i.val (fillEnt id t (c.so.get [] i.val)) }
  | .co i => { c with co := c.co.put i.val (fillEnt id t (c.co.get [] i.val)) }
  | _ => c

end Sys2Proof.Machine
end

