-- ==== Sys2Proof/Machine/Flags.lean ====
section
/-!
DEFINITION. Guards and predicates: the tests that a guard makes on channels, markers, presence bits and predicates
(06 R152-R155), and the write of a predicate result (10 R261).
-/
namespace Sys2Proof.Machine

/-- A required channel holds a token of the slot's context. -/
def chanReady (q : List Tok) (ctx : BitVec 3) : Bool :=
  match q.head? with
  | some t => t.ctx == ctx
  | none => false

/-- Every channel that a requirement field names is ready. -/
def allReady (qs : Store Nat (List Tok)) (ctx : BitVec 3) (req : BitVec 4) : Bool :=
  (List.range 4).all fun i => !req.getLsbD i || chanReady (qs.get [] i) ctx

/-- The head of the lowest-numbered required channel of a class carries the marker. -/
def markerAt (qs : Store Nat (List Tok)) (req : BitVec 4) (m : Marker) : Bool :=
  match (List.range 4).find? req.getLsbD with
  | some i =>
    (match (qs.get [] i).head? with
      | some t => t.mark == m
      | none => false)
  | none => false

def Env.markerTest (e : Env) (w : CEWord) : Bool :=
  match w.mkt with
  | .none => true
  | .vector m => markerAt e.c.ce.vi w.vreq m
  | .scalar m => markerAt e.c.ce.si w.sreq m
  | .control m => markerAt e.c.ce.ci w.creq m

def Env.presenceTest (e : Env) (w : CEWord) : Bool :=
  match w.prt with
  | .none => true
  | .present a => e.present a
  | .absent a => !e.present a
  | .presentAbsent a b => e.present a && !e.present b

/-- The guard of R152, its last two items left out. -/
def Env.guard (e : Env) (w : CEWord) : Bool :=
  w.ctx.toNat == e.slot / 16
    && allReady e.c.ce.vi w.ctx w.vreq && allReady e.c.ce.si w.ctx w.sreq && allReady e.c.ce.ci w.ctx w.creq
    && e.markerTest w && e.presenceTest w && (e.c.ce.p &&& w.pmask) == w.pval

/-- The predicate result written when PSET = 1 (R261). -/
def Ce.setPred (c : Ce) (w : CEWord) (r : Bool) : Ce :=
  if w.pset then { c with p := setBits c.p w.pdst.toNat 1 (if r then 1 else 0) } else c

end Sys2Proof.Machine
end

