-- ==== Sys2Proof/Machine/Enable.lean ====
section
/-!
DEFINITION. When a slot is enabled: the region, the context and the guard, and what single instructions add
(06 R151, R152, R161, R170, R172, 08 R219, 14 R353, R375).
-/
namespace Sys2Proof.Machine

/-! ### Surroundings -/

/-- The firing that the focus names. STEPOVER suppresses the recorded fault (R148). -/
def State.envAt (s : State) (id : CellId) (slot : Nat) : Option Env :=
  match s.spot id with
  | none => none
  | some sp =>
    let sup := match sp.r.stepover, sp.r.fault with
      | true, some f => if f.stream = none && f.req = none && f.cell == some (sp.col, sp.row) && f.slot = slot then some f.code else none
      | _, _ => none
    some { s := s, id := id, slot := slot, c := s.cells.get {} id, spot := sp, suppress := sup }

def State.env (s : State) : Option Env :=
  match s.focus with
  | .ce id slot => s.envAt id slot
  | _ => none

def Env.part (e : Env) : Nat := (e.s.partOf e.id.die).getD 0
def Env.asid (e : Env) : Option (BitVec 16) := e.s.vdAsid e.part e.spot.r.vd
def Env.launch (e : Env) : Option Launch := e.s.launchOf e.spot.r
def Env.ctx (e : Env) : Nat := e.slot / 16
def Env.agent (e : Env) : Agent := .ctx e.id e.ctx

/-! ### Requests outstanding (R129, R218) -/

def Req.isDone (r : Req) : Bool :=
  match r.st with
  | .performed _ _ => !r.owed
  | _ => false

/-- Performed at MODULE scope: only SYSTEM may still be owed (R53, R228). -/
def Req.acked (r : Req) : Bool :=
  match r.st with
  | .performed _ _ => true
  | _ => false

/-- Accesses that a memory element still has to perform for contexts of its cell, by the slots that fired them: full
bits to be set and publications (R360, R366). -/
def Me.deferred (m : Me) (slots : Nat → Bool) : List Nat :=
  (m.later.filterMap fun l => match l.op with
    | .feSet _ => if slots l.slot then some l.id else none
    | .give _ _ _ _ _ _ => none)
    ++ m.decls.flatMap fun d => match d.2 with
      | .basting b => (b.due.filter fun p => slots p.slot).map (·.id)
      | .bobbin _ => []

/-- A request or deferred access of that number is performed, or no longer there. -/
def State.reqDone (s : State) (id : Nat) : Bool :=
  match s.reqs.find? fun r => r.id == id with
  | some r => r.isDone
  | none => !(s.cells.any fun e => (e.2.me.deferred fun _ => true).contains id)

/-- An access that reads (R218). -/
def Goal.reads : Goal → Bool
  | .me _ _ _ op =>
    (match op with
      | .read _ _ | .readSb _ _ | .feTest _ | .ringPop _ | .ringPeek _ | .ringStat _ | .ringRes _ => true
      | .rmw _ _ r => r
      | _ => false)
  | .mem _ op =>
    (match op with
      | .load _ => true
      | .rmw _ r => r
      | _ => false)
  | .tl _ _ | .launch _ _ _ => false

/-- The home of an access lies in a scope measured from a cell of a region (R217). Timeline requests and launches are
no accesses. -/
def State.homeIn (s : State) (cell : CellId) (h : Word) (sc : Scope) (g : Goal) : Bool :=
  let p := (s.partOf cell.die).getD 0
  match g with
  | .me th col row _ =>
    (match s.regions.get? th with
      | none => true
      | some r =>
        let c := r.cellAt col row
        match sc with
        | .cell => c == cell
        | .region => th == h
        | .die => c.die == cell.die
        | .part => s.partOf c.die == some p
        | _ => true)
  | .mem va _ =>
    let near := vaModule va == s.moduleNo cell.die
    (match sc with
      | .cell | .region => false
      | .die => near && decide (vaOwner va < 24) && s.ownerDie cell.die p va == cell.die
      | .part | .module => near && decide (vaOwner va < 27)
      | _ => true)
  | .tl _ _ | .launch _ _ _ => false

def scopeOf : Nat → Scope
  | 0 => .cell | 1 => .region | 2 => .team | 3 => .die | 4 => .part | 5 => .module | _ => .system

/-- TEAM(k) is the scope that level k declares (R217); a region without a launch has level 0 only. -/
def teamScope (l : Option Launch) (k : Nat) : Scope :=
  match l with
  | some x => scopeOf (x.scopeCode (min k (x.levels - 1)))
  | none => .region

def resolveScope (l : Option Launch) (sc : Scope) (k : Nat) : Scope := if sc = .team then teamScope l k else sc

/-- Deferred accesses of contexts, in every cell. They are writes, and their home is the context's own cell. -/
def State.deferred (s : State) (who : Agent → Bool) : List Nat :=
  s.cells.flatMap fun e => e.2.me.deferred fun slot => who (.ctx e.1 (slot / 16))

/-- Accesses of some agents that are not performed, with their home in a scope: requests, and deferred writes, whose
home every scope holds. -/
def State.pending (s : State) (who : Agent → Bool) (cell : CellId) (h : Word) (sc : Scope) (readsOnly : Bool) : List Nat :=
  (s.reqs.filter fun r =>
    who r.agent && !r.isDone && s.homeIn cell h sc r.goal && (!readsOnly || r.goal.reads)).map (·.id)
    ++ if readsOnly then [] else s.deferred who

/-- A⁺ of the firing's context with home in a scope (R218). -/
def Env.aPlus (e : Env) (sc : Scope) : List Nat := e.s.pending (· == e.agent) e.id e.spot.h sc false

def agentCell : Agent → Option CellId
  | .ctx c _ => some c
  | .stream c _ => some c
  | _ => none

/-- Accesses of agents of a cell to the lines of a bank, or to a range of lines, of a logical cell: requests, and full
bits that the cell still has to set in its own lines. -/
def State.touching (s : State) (cell : CellId) (h : Word) (col row first count : Nat) : List Nat :=
  (s.reqs.filter fun r =>
    agentCell r.agent == some cell && !r.isDone &&
      (match r.goal with
        | .me th c w op =>
          th == h && c == col && w == row
            && (match op.offset with
              | some off => covers first count (lineOf off)
              | none => false)
        | _ => false)).map (·.id)
    ++ (if (s.regions.get? h).any fun r => r.cellAt col row == cell then
        ((s.cells.get {} cell).me.later.filterMap fun l => match l.op with
          | .feSet off => if covers first count (lineOf off) then some l.id else none
          | .give _ _ _ _ _ _ => none)
       else [])

/-- Requests of the CE that have not landed: at most 32 (R353). -/
def State.slotsUsed (s : State) (cell : CellId) : Nat :=
  (s.reqs.filter fun r => (match r.agent with
    | .ctx c _ => c == cell
    | _ => false) && !r.landed).length

def Env.slotFree (e : Env) : Bool := decide (e.s.slotsUsed e.id < 32)

/-- A stop holds what would issue a request, a bank token or a publication (R129, R375). -/
def Env.held (e : Env) : Bool := e.spot.r.held e.s.cycle e.id

def Env.canIssue (e : Env) : Bool := e.slotFree && !e.held

/-! ### Operations on the own memory element -/

def Env.origin (e : Env) : Bool := e.spot.col == 0 && e.spot.row == 0
def Env.acc (e : Env) (line : Nat) : Option LineAcc := e.c.me.access e.own e.origin line

/-- The bank of a line is bound to another cell's (R365). -/
def Env.boundTo (e : Env) (op : MeOp) : Option BankRef :=
  match op.offset with
  | some off => if off < 0x20000 then (e.c.me.bank (lineOf off / 128)).bound else none
  | none => none

/-- What the image says of a line, under mode Z (R148). -/
def asModeZ (acc : Nat → Option LineAcc) (line : Nat) : Option LineAcc := (acc line).map fun a => { a with mode := .z }

/-- The operation inside the firing. A LOT_STALE that STEPOVER suppresses leaves it as in mode Z (R148). -/
def Env.meLocal (e : Env) (op : MeOp) (reqs : List Nat) : MeRes :=
  let acc : Nat → Option LineAcc := if e.suppress = some fLotStale then asModeZ e.acc else e.acc
  meOp e.c.me acc e.s.reqDone reqs none op

/-- An earlier access of the context to the line of an operation on the own memory element is not performed: a request
that names the own cell, or a full bit that is still to be set (R216, R225). -/
def Env.lineBusy (e : Env) (op : MeOp) : Bool :=
  op.offset.any fun off =>
    (e.c.me.later.any fun l => l.slot / 16 == e.ctx && (match l.op with
      | .feSet x => lineOf x == lineOf off
      | .give _ _ _ _ _ _ => false))
    || e.s.reqs.any fun r => r.agent == e.agent && !r.isDone && (match r.goal with
      | .me h c w o => h == e.spot.h && c == e.spot.col && w == e.spot.row && (o.offset.any fun x => lineOf x == lineOf off)
      | _ => false)

/-- A word without REMOTE acting on no bound bank (R353). -/
def Env.isLocal (e : Env) (w : CEWord) (op : MeOp) : Bool := !w.remote && (e.boundTo op).isNone

/-- The bank of a line of the own cell is OWNED by the instance (R172). -/
def Env.bankOwned (e : Env) (op : MeOp) : Bool :=
  match op.offset with
  | some off => decide (0x20000 ≤ off) || e.c.me.bankOk (lineOf off)
  | none => true

/-- Ready to fire: a request needs a slot, and a bound bank must still be OWNED; a local operation must not have to
wait, for its line or for an earlier access of the context to it. -/
def Env.meReady (e : Env) (w : CEWord) (op : MeOp) (reqs : List Nat) : Bool :=
  if e.isLocal w op then !e.lineBusy op && e.meLocal op reqs != .wait
  else e.canIssue && (w.remote || e.bankOwned op)

/-! ### The operations that words name (14) -/

def Src.nat (a : Src) : Nat := a.val.word.toNat

def loadSize (w : CEWord) : Nat := if w.dst.isVecDst then 64 else 4
def dataSize (b : Src) : Nat := if b.val.isVec then 64 else 4
def dataVec (b : Src) : Vec :=
  match b.val with
  | .vec v => v.data
  | .scal x => wordVec x
def dataMask (b : Src) : BitVec 16 :=
  match b.val with
  | .vec v => v.mask
  | .scal _ => 1

def ldsOp (w : CEWord) (a : Src) : MeOp := .read a.nat (loadSize w)
def stsOp (a b : Src) : MeOp := .write a.nat (dataSize b) (dataVec b) (dataMask b) false

/-- Elements of V as raw words; one that is not computed reads 0 (R358). -/
def vWord (c : Src) (i : Nat) : Nat :=
  match c.val with
  | .vec v => if v.mask.getLsbD i then (v.lane i).toNat else 0
  | .scal x => if i = 0 then x.toNat else 0

def atomSize (w : CEWord) : Nat := if w.size64 then 8 else 4

def rmwOpOf : AtomOp → RmwOp
  | .add => .add | .min => .min | .max => .max | .xchg => .xchg | .cas => .cas | .and => .and | .or => .or

def atomRmw (op : AtomOp) (w : CEWord) (c : Src) : Rmw :=
  let lo := vWord c 0
  let pair (i : Nat) : Nat := vWord c i + 2 ^ 32 * vWord c (i + 1)
  { op := rmwOpOf op, size := atomSize w
    v := if w.size64 then pair 0 else lo
    new := if w.size64 then pair 2 else vWord c 1
    fmt := w.fmt, rnd := w.rnd, uns := w.uns }

def atomOp (op : AtomOp) (w : CEWord) (a c : Src) : MeOp := .rmw a.nat (atomRmw op w c) (!w.dst.isZero)

/-- `fe` offsets ignore bits [6:0] (R360). -/
def feOff (a : Src) : Nat := a.nat / 128 * 128

def idxOf (w : CEWord) : Nat := w.immBits 8 3

/-- Alignment of a scratchpad or global access. -/
def aligned (x n : Nat) : Bool := x % n == 0

/-- Lines of a bobbin's slot j. -/
def Bobbin.slotFirst (b : Bobbin) (j : Word) : Nat := b.base + j.toNat % b.slots * b.slotLines

/-- Accesses that agents of the cell made to the lines of the slot that a pop would hand back (R362). -/
def Env.popWaits (e : Env) (w : CEWord) (h : Word) (col row : Nat) : List Nat :=
  match e.spot.r.place (e.spot.r.cellAt col row) with
  | none => []
  | some _ =>
    match (e.s.cells.get {} (e.spot.r.cellAt col row)).me.bobbin (idxOf w) with
    | none => []
    | some b => e.s.touching e.id h col row (b.slotFirst b.head) b.slotLines

/-- An input of `merge` or `amerge` is ready (R295). -/
def Env.inputReady (e : Env) (w : CEWord) (o : Opnd) : Bool :=
  match o with
  | .v _ | .s _ => e.present (o.code.extractLsb' 0 5)
  | _ =>
    (match e.c.ce.head o with
      | some t => t.ctx == w.ctx
      | none => false)

/-- Every basting tile published by the instance holds a final version (R304). -/
def Region.allFinal (r : Region) (cells : Store CellId Cell) : Bool :=
  r.cells.all fun p => ((cells.get {} (r.cellAt p.1 p.2)).me.decls).all fun d =>
    match d.2 with
    | .basting b => b.shown == none || b.shown == some 15
    | .bobbin _ => true

/-- A lot can be issued on a die at once (R200). -/
def lotFree (l : Lots) : Option Lot :=
  ((List.range 4096).map (BitVec.ofNat 12)).find? fun v =>
    l.counter.ult v && !l.live.contains v && !l.barred.contains v && !l.passed.contains v

def Env.lots (e : Env) : Lots := e.s.lots.get {} e.id.die

/-- Instructions that access memory or issue a request (R219). -/
def isAccess : Instr → Bool
  | .lds _ | .sts _ | .ldg _ | .stg _ | .atomAdd _ | .atomMin _ | .atomMax _ | .atomXchg _ | .atomCas _ | .atomAnd _
  | .atomOr _ | .feSet _ | .feClr _ | .feTest _ | .ringRes _ | .ringPub _ | .ringPop _ | .ringPeek _ | .ringClose _
  | .ringStat _ | .botGive _ | .botTake _ | .baste _ | .hem _ | .basteFinal _ | .sbar _ | .fence _ | .tlWait _
  | .tlRead _ | .lotNew _ | .lotEnd _ | .launch _ => true
  | _ => false

def Wait.isTbar : Wait → Bool
  | .tbar _ _ => true
  | _ => false

/-- The condition that an instruction itself adds (R152, last item), for sources without a passed marker. -/
def Env.adds (e : Env) (i : Instr) (a b c : Src) : Bool :=
  let atom (op : AtomOp) (w : CEWord) : Bool :=
    if w.atomGlobal then !aligned a.nat (atomSize w) || e.canIssue
    else !aligned a.nat (atomSize w) || e.meReady w (atomOp op w a c) []
  match i with
  | .merge w => a.mark != .data || e.inputReady w (if a.val.word = 0 then w.in0 else w.in1)
  | .amerge w => e.inputReady w w.in0 || e.inputReady w w.in1
  | .exit _ => e.spot.r.allFinal e.s.cells
  | .mma _ | .mmz _ => decide (e.c.ce.mmaBusy ≤ e.s.cycle)
  | .lds w => !aligned a.nat (loadSize w) || e.meReady w (ldsOp w a) []
  | .sts w => dataMask b == 0 || !aligned a.nat (dataSize b) || e.meReady w (stsOp a b) []
  | .ldg w => !aligned a.nat (loadSize w) || e.canIssue
  | .stg _ => dataMask c == 0 || !aligned a.nat (dataSize c) || e.canIssue
  | .atomAdd w => atom .add w
  | .atomMin w => atom .min w
  | .atomMax w => atom .max w
  | .atomXchg w => atom .xchg w
  | .atomCas w => atom .cas w
  | .atomAnd w => atom .and w
  | .atomOr w => atom .or w
  | .feSet w => e.meReady w (.feSet (feOff a)) []
  | .feClr w => e.meReady w (.feClr (feOff a)) []
  | .feTest w => e.meReady w (.feTest (feOff a)) []
  | .ringRes w => e.meReady w (.ringRes (idxOf w)) []
  | .ringPub w => e.meReady w (.ringPub (idxOf w) a.val.word) []
  | .ringPop w =>
    e.meReady w (.ringPop (idxOf w)) [] && (w.remote || e.popWaits w e.spot.h e.spot.col e.spot.row == [])
  | .ringPeek w => e.meReady w (.ringPeek (idxOf w)) []
  | .ringClose w => e.meReady w (.ringClose (idxOf w)) []
  | .ringStat w => e.meReady w (.ringStat (idxOf w)) []
  | .hem w => e.meReady w (.hem (idxOf w)) []
  | .botGive w => (e.c.me.bank (idxOf w)).owned && !e.held
  | .botTake w => (e.c.me.bank (idxOf w)).tokens != []
  | .baste _ | .basteFinal _ => !e.held
  | .tlWait _ | .tlRead _ => e.canIssue
  | .launch _ => e.canIssue
  | .lotNew _ => !e.lots.sweeping && ((lotFree e.lots).isSome || decide (e.lots.live.length < 4095))
  | .tbar _ => !e.held
  | _ => true

/-- Instructions that deal with a marker on a source themselves (R288). -/
def ownMarkers : Instr → Bool
  | .mov _ | .steer _ | .merge _ | .amerge _ | .filter _ | .absorb _ | .repeatTok _ | .count _ | .mark _ | .rfclr _
  | .trap _ | .brk _ => true
  | _ => false

/-- The region, the CE and the context let the slot fire. -/
def Env.alive (e : Env) (i : Instr) : Bool :=
  let ws := e.c.ce.waits.get [] e.ctx
  e.spot.r.fires e.s.cycle e.id
    && (!e.spot.r.stepover || e.suppress.isSome)
    && !e.c.ce.halted.getLsbD e.ctx
    && !ws.any Wait.isTbar
    && (!isAccess i || ws == [])

/-- A slot holding the instruction is enabled (R152). -/
def Env.enabled (e : Env) (i : Instr) (w : CEWord) : Bool :=
  e.alive i && e.guard w && e.c.ce.room w.dst
    && (match e.src w w.sa, e.src w w.sb, e.src w w.sc with
      | .absent, _, _ => false
      | _, .absent, _ => false
      | _, _, .absent => false
      | .ok a, .ok b, .ok c =>
        (!ownMarkers i && (markOf [a, b, c]).isSome) || e.adds i a b c
      | _, _, _ => true)

def Env.ready (e : Env) (i : Instr) : Bool :=
  match i.ceParts with
  | some (_, w) => e.enabled i w
  | none => false

/-- The slot that the CE fires in this cycle: the first ready context after the one that fired last, and its lowest
enabled slot (R151). -/
def State.selected (s : State) (id : CellId) : Option (Nat × Instr) :=
  let c := s.cells.get {} id
  let order := (List.range 8).flatMap fun k => (List.range 16).map fun j => (c.ce.lastCtx + 1 + k) % 8 * 16 + j
  firstSome (order.map fun slot =>
    match c.ce.slots.get? slot, s.envAt id slot with
    | some i, some e => if e.ready i then some (slot, i) else none
    | _, _ => none)

end Sys2Proof.Machine
end

