-- ==== Sys2Proof/Machine/Records.lean ====
section
/-!
DEFINITION. Fault records and the queues that take them (05 R143, R144, 10 R274).
-/
namespace Sys2Proof.Machine

/-- The partition's cycle counter (R274, R311). -/
def State.partCycle (s : State) (p : Nat) : Nat :=
  s.cycle - s.resetAt.get 0 ((s.leadDie p).getD 0)

/-- Who a record is about: launch record address, VD, instance, level-1 team, region handle. -/
structure RecordOf where
  vd : Nat := 0
  record : DWord := 0
  inst : Nat := 0
  team1 : Nat := 0
  handle : Word := 0
  deriving DecidableEq, Repr

/-- The 64 bytes of a record (R274). -/
def recordBytes (w : RecordOf) (f : FaultRec) (policy cycle : Nat) : List Byte :=
  let stream := f.stream.isSome
  let flags := (if stream then 1 else 0) + (if f.kind = 1 then 2 else if f.kind = 2 then 4 else 0)
  let cell := match f.cell with
    | some (c, r) => c * 2 ^ 16 + r
    | none => 0
  leBytes 1 f.code ++ leBytes 1 f.cls ++ leBytes 1 policy ++ leBytes 1 flags ++ leBytes 2 w.vd
    ++ leBytes 1 (f.stream.getD f.slot) ++ leBytes 1 (if f.kind = 2 then f.bank else 0)
    ++ leBytes 8 w.record.toNat ++ leBytes 4 w.inst ++ leBytes 4 w.team1 ++ leBytes 4 w.handle.toNat
    ++ leBytes 4 cell ++ leBytes 8 f.addr.toNat ++ leBytes 8 cycle ++ leBytes 8 f.aux.toNat
    ++ leBytes 7 f.aux2 ++ leBytes 1 (min f.more 255)

/-- What became of a record offered to a queue. -/
inductive Offer | bad | full (act : Act) | taken (act : Act)

/-- A record offered to the queue whose descriptor lies at an address (R143). -/
def State.offer (s : State) (p : Nat) (asid : Option (BitVec 16)) (desc : DWord) (bytes : List Byte) : Offer :=
  match s.loadVa (s.mapDie p) p asid desc 64 with
  | none => .bad
  | some d =>
    let base : DWord := BitVec.ofNat 64 (recNat d 0x00 8)
    let size := recNat d 0x08 4
    let head := recNat d 0x10 8
    let tail := recNat d 0x18 8
    if size = 0 then .bad
    else if (tail + 2 ^ 64 - head) % 2 ^ 64 = size then
      .full (.storeVa (s.mapDie p) p asid (desc + 0x20) (leBytes 8 (recNat d 0x20 8 + 1)))
    else
      let slot := base + BitVec.ofNat 64 (64 * (tail % size))
      if s.canStore (s.mapDie p) p asid slot 64 && s.canStore (s.mapDie p) p asid (desc + 0x18) 8 then
        .taken (.block [.storeVa (s.mapDie p) p asid slot bytes, .storeVa (s.mapDie p) p asid (desc + 0x18) (leBytes 8 (tail + 1))])
      else .bad

/-- The address space of the default queue: ASID 0 (DESIGN CHOICE, log 21). -/
def defaultAsid : Option (BitVec 16) := some 0

/-- What a record for the partition's default queue does, and whether it is written (R143, R144). -/
def State.defaultOffer (s : State) (p : Nat) (bytes : List Byte) : Act × Bool :=
  match s.leadDie p with
  | none => (.skip, false)
  | some lead =>
    let drop := Act.countReg lead .pdfqst 31 0
    if s.regField lead .pdfq 0 0 = 0 then (drop, false)
    else match s.offer p defaultAsid (s.reg lead .pdfq &&& bitsMask 63 6) bytes with
      | .bad => (drop, false)
      | .full a => (a, false)
      | .taken a => (a, true)

def Act.defaultRecord (p : Nat) (bytes : List Byte) : Act := .read fun s => (s.defaultOffer p bytes).1

/-- The tailor cores of a die are interrupted (R143, R378). -/
def Act.faultIrq (die : Nat) : Act :=
  .each (List.range 4) fun n => .onHart die n fun h => { h with xpirq := h.xpirq ||| 1 }

/-- What a record for a launch's queue, or else the default queue, does, and whether it is written (R143). -/
def State.launchOffer (s : State) (p : Nat) (l : Option Launch) (bytes : List Byte) : Act × Bool :=
  match l with
  | none => s.defaultOffer p bytes
  | some x =>
    let q : DWord := BitVec.ofNat 64 (recNat x.copy 0x020 8)
    if q = 0 || x.st == .complete then s.defaultOffer p bytes
    else match s.offer p (s.vdAsid p x.vd) q bytes with
      | .bad => s.defaultOffer p bytes
      | .full a => (a.seq (.defaultRecord p bytes), (s.defaultOffer p bytes).2)
      | .taken a => (a, true)

/-- A launch's record sent; the launch counts it (R94, R143). -/
def Act.launchRecord (p : Nat) (n : Option Nat) (code : Nat) (bytes : List Byte) : Act :=
  .read fun s =>
    let o := s.launchOffer p (n.bind s.launches.get?) bytes
    o.1.seq (match n with
      | none => .skip
      | some k => .onLaunch k fun l =>
        { l with faults := l.faults + 1, firstFault := if l.faults = 0 then code else l.firstFault
                 written := l.written || o.2 })

/-- A launch's record; one that is written interrupts the tailor cores of the faulting cell's die (R143). -/
def Act.launchRecordAt (p : Nat) (n : Option Nat) (code : Nat) (bytes : List Byte) (die : Option Nat) : Act :=
  .read fun s =>
    (Act.launchRecord p n code bytes).seq (match die with
      | some d => .when (s.launchOffer p (n.bind s.launches.get?) bytes).2 (.faultIrq d)
      | none => .skip)

/-- The record of a fault in a region (R143). -/
def Act.record (h : Word) (f : FaultRec) (policy : Nat) : Act :=
  .read fun s =>
    match s.regions.get? h with
    | none => .skip
    | some r =>
      let p := (s.partOf r.origin.die).getD 0
      let l := s.launchOf r
      let die := match f.cell with
        | some (c, w) => (r.cellAt c w).die
        | none => r.origin.die
      let who : RecordOf :=
        { vd := r.vd, record := (l.map (·.recAddr)).getD 0, inst := r.inst
          team1 := (l.map (·.team1 r.inst)).getD 0, handle := s.archHandle h }
      .launchRecordAt p r.launch f.code (recordBytes who f policy (s.partCycle p)) (some die)

end Sys2Proof.Machine
end

