-- ==== Sys2Proof/Machine/Firing.lean ====
section
/-!
DEFINITION. A firing: its precise faults and their treatment (05 R139-R148), its writes, its requests (14 R353), and
the one pattern that every instruction of a CE follows (06 R150-R165).
-/
namespace Sys2Proof.Machine

/-! ### Packets (R181, R182) -/

/-- Cell at whose switch an owner's controller is reached (Config, log 8). -/
def homeCell (die off : Nat) : CellId :=
  { die := die, col := Config.homeColumn die off % Config.columns, row := Config.homeRow die off % Config.rows }

/-- The switch at an edge link's crossing; which crossing, the device chooses (Config, log 8). -/
def edgeNode (north : Bool) (cx k : Nat) : CellId :=
  { die := if north then cx else 18 + cx, col := Config.homeColumn 28 k % Config.columns, row := if north then 0 else 47 }

/-- The switch of an X-die at which its own agents are reached. -/
def hostNode (x : Nat) : CellId := { die := x, col := 0, row := 0 }

/-- The switch at which an agent's packets enter and leave the network. Copy engines and dispatchers send none: their
accesses are single steps (log 12). -/
def Agent.port : Agent → Option CellId
  | .ctx c _ | .stream c _ => some c
  | .hart d _ =>
    some (if isC d then { die := d, col := Config.coreColumn d % Config.columns, row := Config.coreRow d % Config.rows }
      else hostNode d)
  | .func x _ | .qp x _ | .peer x _ => some (hostNode x)
  | .module north cx tag => some (edgeNode north cx tag)
  | .copy _ | .dispatcher _ => none

/-- The virtual channel of an agent's requests (R181); the cores' memory traffic is VC3's (R197). -/
def Agent.vc : Agent → Nat
  | .ctx _ _ => 0
  | .hart _ _ => 3
  | _ => 1

/-- The edge link that a request of a die for another module uses: the cell at it, and whether it faces north (R24,
R26). -/
def State.edgeCell (s : State) (die : Nat) (va : DWord) : CellId × Bool :=
  let cx := if isC die then dieCx die else if die = 24 then 0 else 5
  let route := s.regField die .modid (34 + 3 * cx) (32 + 3 * cx)
  let north := decide (vaModule va < s.moduleNo die)
  (edgeNode north route (vaOffset va), north)

/-- The cell to which a request of a partition, made on die d, goes: that of its home, or the one at which it leaves the
module. -/
def State.goalCell (s : State) (d p : Nat) (g : Goal) : CellId :=
  match g with
  | .me h col row _ =>
    (match s.regions.get? h with
      | some r => r.cellAt col row
      | none => { die := 0, col := 0, row := 0 })
  | .mem va _ => if vaModule va = s.moduleNo d then homeCell (s.ownerDie d p va) (vaOffset va) else (s.edgeCell d va).1
  | .tl c _ => homeCell c.die (c.eng * 8 + c.ctx)
  | .launch _ _ _ => homeCell ((s.leadDie p).getD 0) 0

/-- Beats: a header, and data in pieces of 16 bytes. -/
def goalBeats : Goal → Nat
  | .me _ _ _ op =>
    (match op with
      | .write _ n _ _ _ => 1 + (n + 15) / 16
      | .writeSb _ _ _ _ _ _ => 6
      | .merge _ p _ _ _ _ _ _ => if p = .scal then 2 else 5
      | .rmw _ _ _ => 2
      | _ => 1)
  | .mem _ op =>
    (match op with
      | .load _ => 1
      | .store bytes => 1 + (bytes.length + 15) / 16
      | .rmw _ _ => 2
      | .reduce _ _ _ _ _ => 5)
  | .tl _ _ => 2
  | .launch _ _ _ => 8

/-- The edge link by which a die's messages for a module leave: north, and the column. -/
def State.edgeTo (s : State) (die dst : Nat) : Bool × Nat :=
  let cx := if isC die then dieCx die else if die = 24 then 0 else 5
  (decide (dst < s.moduleNo die), s.regField die .modid (34 + 3 * cx) (32 + 3 * cx))

def State.edgeIsUp (s : State) (e : Bool × Nat) : Bool := s.portState (if e.1 then e.2 else 18 + e.2, 4) == stUp

/-- A system message of a partition's lead dispatcher for another module, while the link is UP. -/
def Act.toModule (p dst : Nat) (m : EdgeIn) : Act :=
  .read fun s =>
    let e := s.edgeTo (s.mapDie p) dst
    .when (s.edgeIsUp e) (.emit (.out (.edgeMsg e.1 e.2 m)))

/-- Where a request leaves the module: only one for another module does. -/
def State.exitOf (s : State) (die : Nat) (g : Goal) : Option (CellId × Bool) :=
  match g with
  | .mem va _ => if vaModule va = s.moduleNo die then none else some (s.edgeCell die va)
  | _ => none

/-- A packet from a cell to a cell, under VIA and ORDER; a response takes the way of its request back (R187). -/
def State.packet (s : State) (src dst : CellId) (vc : Nat) (l : Load) (beats part : Nat) (way : Option Nat × Bool)
    (back : Bool) : Packet :=
  { load := l, vc := vc, src := src, dst := dst, via := way.1
    colFirst := if back then way.1.isSome || !way.2 else way.2, after := back && !way.2
    beats := beats, part := s.tagOf src.die part, way := way, head := s.cycle }

def Node.push (n : Node) (k : Dir × Nat) (p : Packet) : Node := { n with bufs := n.bufs.put k (n.bufs.get [] k ++ [p]) }

/-- The cell for which a request makes. -/
def State.headsFor (s : State) (src : CellId) (p : Nat) (g : Goal) : CellId :=
  ((s.exitOf src.die g).map (·.1)).getD (s.goalCell src.die p g)

/-- VIA and ORDER of a request that leaves now (R187). -/
def State.wayTo (s : State) (src : CellId) (p : Nat) (g : Goal) : Option Nat × Bool :=
  s.viaOf src.die (s.headsFor src p g).die

/-- A request's packet is put into the local input of a switch. -/
def Act.send (src : CellId) (p vc id : Nat) (g : Goal) : Act :=
  .read fun s => .onNode src fun n => n.push (.l, vc)
    { s.packet src (s.headsFor src p g) vc (.request id) (goalBeats g) p (s.wayTo src p g) false with
      exits := (s.exitOf src.die g).map (·.2) }

/-- A response or notice leaves a request's home for its issuer. -/
def Act.respond (q : Req) (l : Load) (beats : Nat) : Act :=
  match q.agent.port with
  | none => .skip
  | some c => .read fun s =>
      let home := s.goalCell q.agent.die q.part q.goal
      .onNode home fun n => n.push (.l, 2)
        { s.packet home c 2 l beats q.part q.way true with exits := match q.agent with
            | .module north _ _ => some north
            | _ => none }

/-! ### Requests -/

/-- A request made by an agent in a cell: it waits for `after`, or leaves at once. -/
def Act.issue (cell : CellId) (p : Nat) (vc : Nat) (r : Req) (after : List Nat) (andThen : Nat → Act) : Act :=
  .fresh fun id =>
    .read fun s =>
      let st : ReqState := if after.all s.reqDone then .net else .waiting after
      .block
        [ .emit (.reqs (s.reqs ++ [{ r with id := id, st := st, way := s.wayTo cell p r.goal }]))
        , .when (st == .net) (.send cell p vc id r.goal)
        , andThen id ]

/-- A request that stands in the list leaves now. -/
def Act.sendAgain (c : CellId) (p : Nat) (q : Req) : Act :=
  .read fun s =>
    (Act.onReq q.id fun r => if r.st = q.st then { r with st := .net, way := s.wayTo c p q.goal } else r).seq
      (.send c p q.agent.vc q.id q.goal)

/-- Requests that wait to leave do so once what they wait for is performed and their region runs (R129, R310). -/
def Act.releaseWaiting : Act :=
  .read fun s => .each (s.reqs.filter fun q => match q.st with
      | .waiting l => l.all s.reqDone && (match q.region.bind s.regions.get? with
        | some r => r.state == .running
        | none => q.region.isNone)
      | _ => false) fun q =>
    match q.agent.port with
    | some c => .sendAgain c q.part q
    | none => .skip

/-! ### Faults (R139-R148) -/

/-- The region freezes from a cell with a fault (R141, R142): the first fault is the recorded one, and every fault
sends its wave. -/
def Act.freezeFrom (h : Word) (cell : CellId) (f : FaultRec) (held : Bool) : Act :=
  .read fun s => .onRegion h fun r =>
    { r with
      due := r.due ++ [f]
      state := .freezing
      fault := some (r.fault.getD f)
      pendingFault := r.pendingFault || held
      wave := r.wave ++ [(cell, s.cycle)] }

/-- Bobbins that a cell's `ring.res` and `ring.pub` slots name (R147). -/
def ringTargets (r : Region) (col row : Nat) (c : Cell) : List (CellId × Nat) :=
  c.ce.slots.filterMap fun e =>
    match e.2 with
    | .ringRes w | .ringPub w =>
      some (if w.remote then r.cellAt w.cellCol w.cellRow else r.cellAt col row, idxOf w)
    | _ => none

def closeDecl (i : Nat) (c : Cell) : Cell :=
  match c.me.bobbin i with
  | some b => { c with me := c.me.putDecl i (.bobbin b.close) }
  | none => c

/-- Every bobbin into which the instance reserves or publishes is closed. -/
def Act.closeBobbins (h : Word) : Act :=
  .read fun s =>
    match s.regions.get? h with
    | none => .skip
    | some r =>
      .each (r.cells.flatMap fun p => ringTargets r p.1 p.2 (s.cells.get {} (r.cellAt p.1 p.2))) fun t =>
        .onCell t.1 (closeDecl t.2)

/-- SHUT is on the books of the region and its launch (R147). -/
def Act.markShut (h : Word) : Act :=
  .read fun s =>
    match s.regions.get? h with
    | none => .skip
    | some r =>
      (Act.onRegion h fun r => { r with shut := true }).seq
        (match r.launch with
          | some n => .onLaunch n fun l => { l with shut := true }
          | none => .skip)

/-- The firing replaced under SHUT: EOS on its outputs, a register destination absent, inputs discarded. -/
def Ce.shutFiring (c : Ce) (w : CEWord) (now : Nat) : Ce :=
  let c1 := c.consume w
  let c2 := c1.clearPres w.dst
  (outsOf w.dst).foldl (fun c o =>
    c.pushOut o (.filled { body := emptyBody o, ctx := w.ctx, mark := .eos, since := now })) c2

/-- The firing counts for R151, R147 and clock gating (R9). -/
def Act.fired (e : Env) : Act :=
  .block
    [ .onCell e.id fun c => { c with ce := { c.ce with lastCtx := e.ctx }, busy := e.s.cycle }
    , .onRegion e.spot.h fun r =>
        if e.suppress.isSome then
          { r with lastActive := e.s.cycle, stepover := false, fault := none, pendingFault := false }
        else { r with lastActive := e.s.cycle } ]

/-- A record for a fault of this firing. -/
def Env.faultRec (e : Env) (code : Nat) : FaultRec :=
  { code := code, cls := 0, cell := some (e.spot.col, e.spot.row), slot := e.slot }

/-- A precise fault of this firing: frozen, or handled under SHUT (R141, R145, R147). -/
def Env.fault (e : Env) (w : CEWord) (f : FaultRec) : Act :=
  let pol := e.s.policyOf e.spot.r 0
  if pol = polShut then
    .block
      [ .onCell e.id fun c => { c with ce := c.ce.shutFiring w e.s.cycle }
      , .fired e
      , .closeBobbins e.spot.h
      , .markShut e.spot.h
      , .record e.spot.h f polShut ]
  else .freezeFrom e.spot.h e.id f true

/-- An imprecise fault remembered until the next report: one record per cell and stream or context and slot, with
further touches counted (R140, R205). -/
def Act.imprecise (h : Word) (f : FaultRec) : Act :=
  .onRegion h fun r =>
    let same (x : FaultRec) : Bool :=
      x.code = f.code && x.cell == f.cell && x.stream == f.stream && (f.stream.isSome || x.slot = f.slot)
    if f.code = fSelvedge && r.imprecise.any same then
      { r with imprecise := r.imprecise.map fun x => if same x then { x with more := min 255 (x.more + 1) } else x }
    else { r with imprecise := r.imprecise ++ [{ f with cls := 2 }] }

/-- A SELVEDGE touch of this firing at a scratchpad offset: bank and line (R205). -/
def Env.selvedge (e : Env) (off : Nat) : Act :=
  .imprecise e.spot.h
    { e.faultRec fSelvedge with kind := 2, bank := lineOf off % 1024 / 128, addr := BitVec.ofNat 64 (lineOf off % 1024) }

/-! ### The pattern of a firing -/

/-- A firing of an enabled slot: a stale source faults, otherwise the body runs on the sources (R150, R161). -/
def fire (i : Instr) (w : CEWord) (body : Env → Src → Src → Src → Act) (s : State) : Out :=
  (match s.env with
    | none => Act.skip
    | some e =>
      if e.enabled i w then
        match e.src w w.sa, e.src w w.sb, e.src w w.sc with
        | .ok a, .ok b, .ok c => body e a b c
        | _, _, _ => e.fault w (e.faultRec fLotStale)
      else .skip).next s

/-- The cell rewritten by a firing that completes. -/
def Env.done (e : Env) (f : Ce → Ce) : Act :=
  .block [.onCell e.id fun c => { c with ce := f c.ce }, .fired e]

/-- A marker on a source is passed (R165). -/
def Env.passes (e : Env) (w : CEWord) (srcs : List Src) (mk : Marker) : Act :=
  e.done fun c => (c.consume w).pass w.dst (outCtx w) (verOf srcs) mk e.s.cycle

/-- Sources are consumed, the result is written, and PSET writes the predicate result (R150, R261). -/
def Env.yields (e : Env) (w : CEWord) (srcs : List Src) (r : Res) : Act :=
  e.done fun c => ((c.consume w).write w.dst (e.stamp w (verOf srcs)) r.val).setPred w r.pred

/-- A firing that passes markers and otherwise runs the body. -/
def firePass (i : Instr) (w : CEWord) (body : Env → Src → Src → Src → Act) : State → Out :=
  fire i w fun e a b c =>
    match markOf [a, b, c] with
    | some m => e.passes w [a, b, c] m
    | none => body e a b c

/-- A firing that computes a result from its sources. -/
def fireRes (i : Instr) (w : CEWord) (f : Env → Val → Val → Val → Res) : State → Out :=
  firePass i w fun e a b c => e.yields w [a, b, c] (f e a.val b.val c.val)

end Sys2Proof.Machine
end

