-- ==== Sys2Proof/Machine/Scratch.lean ====
section
/-!
DEFINITION. Scratchpad, global memory, atomics, full/empty bits and bobbins (14 R352-R363).
-/
namespace Sys2Proof.Machine

/-! ### Inside the firing -/

/-- A vector or scalar result of `n` bytes. -/
def loadVal (vector : Bool) (fmt : Fmt) (v : Vec) : Val :=
  if vector then .vec { data := v, mask := 0xFFFF, fmt := fmt } else .scal (v.extractLsb' 0 32)

/-- The bank and line of a scratchpad offset in a record (R274). -/
def FaultRec.atLine (f : FaultRec) (off : Nat) : FaultRec :=
  { f with kind := 2, bank := lineOf off % 1024 / 128, addr := BitVec.ofNat 64 (lineOf off % 1024) }

/-- A completed local operation: the memory element is `me`, the sources are consumed, `write` delivers the result. -/
def Env.meDone (e : Env) (w : CEWord) (me : Me) (write : Ce → Ce) (pred : Bool) : Act :=
  .block [.onCell e.id fun c => { c with me := me, ce := (write (c.ce.consume w)).setPred w pred }, .fired e]

/-- A local operation in its firing (R353). `val` is the result, when the instruction has one. -/
def Env.runLocal (e : Env) (w : CEWord) (srcs : List Src) (op : MeOp) (reqs : List Nat) (ver : Got → BitVec 4)
    (val : Vec → Option Val) : Act :=
  let put (g : Got) (c : Ce) : Ce :=
    match val g.value with
    | some v => c.write w.dst (e.stamp w (ver g)) v
    | none => c
  match e.meLocal op reqs with
  | .ok me g => e.meDone w me (put g) g.flag
  | .wait => .skip
  | .fault code =>
    e.fault w (match op.offset with
      | some off => (e.faultRec code).atLine off
      | none => e.faultRec code)
  | .selvedge =>
    .block
      [ e.meDone w e.c.me (put {}) false
      , match op.offset with
        | some off => e.selvedge off
        | none => .skip ]
  | .eos => e.meDone w e.c.me (fun c => c.pass w.dst (outCtx w) (verOf srcs) .eos e.s.cycle) false

/-! ### Through a request (R353) -/

/-- The destination kept for a response: a register absent, an output entry reserved. -/
def Ce.reserve (c : Ce) (dst : Opnd) (id : Nat) : Ce :=
  (outsOf dst).foldl (fun c o => c.pushOut o (.reserved id)) (c.clearPres dst)

def retOf (dst : Opnd) : Ret := if dst.isOutChan then .out dst else if dst.isReg then .reg dst else .none

/-- The request of a firing. -/
def Env.req (e : Env) (w : CEWord) (goal : Goal) (ver : BitVec 4) : Req :=
  { id := 0, agent := e.agent, slot := e.slot, region := some e.spot.h, launch := e.spot.r.launch, asid := e.asid, vd := e.spot.r.vd, part := e.part
    goal := goal, ret := retOf w.dst, ctx := outCtx w, ver := ver, fmt := w.fmt }

/-- A firing that issues a request, after the requests of `after`; `more` is what it leaves besides. -/
def Env.issues (e : Env) (w : CEWord) (r : Req) (after : List Nat) (more : Nat → Act) : Act :=
  .issue e.id e.part 0 r after fun id =>
    .block [.onCell e.id fun c => { c with ce := (c.ce.consume w).reserve w.dst id }, .fired e, more id]

/-- The request for an operation on another cell's memory element, or on a bound bank (R365). -/
def Env.meReq (e : Env) (w : CEWord) (op : MeOp) (ver : BitVec 4) : Req :=
  match w.remote, e.boundTo op with
  | false, some b =>
    { e.req w (.me (e.s.bankHandle b) b.col b.row op) ver with
      bound := true
      acc := (op.offset.bind fun off => e.acc (lineOf off)).map fun a => { a with own := e.s.bankLot b } }
  | _, _ => e.req w (.me e.spot.h w.cellCol w.cellRow op) ver

/-- A scratchpad operation: inside the firing, or as a request that waits for `after`. -/
def Env.meAct (e : Env) (w : CEWord) (srcs : List Src) (op : MeOp) (reqs after : List Nat) (ver : Got → BitVec 4)
    (val : Vec → Option Val) : Act :=
  if e.isLocal w op then e.runLocal w srcs op reqs ver val
  else e.issues w (e.meReq w op (verOf srcs)) after fun _ => .skip

def Env.misaligned (e : Env) (w : CEWord) (off : Nat) : Act := e.fault w ((e.faultRec fAlign).atLine off)

def noVal (_ : Vec) : Option Val := none
def wordVal (v : Vec) : Option Val := some (.scal (v.extractLsb' 0 32))

/-- `lds` (R356). -/
def execLds (w : CEWord) : State → Out := firePass (.lds w) w fun e a b c =>
  if !aligned a.nat (loadSize w) then e.misaligned w a.nat
  else e.meAct w [a, b, c] (ldsOp w a) [] [] (fun g => g.ver) fun v => some (loadVal w.dst.isVecDst w.fmt v)

/-- `sts` (R356): an empty mask writes and issues nothing. -/
def execSts (w : CEWord) : State → Out := firePass (.sts w) w fun e a b c =>
  if !aligned a.nat (dataSize b) then e.misaligned w a.nat
  else if dataMask b == 0 then e.done fun c => c.consume w
  else e.meAct w [a, b, c] (stsOp a b) [] [] (fun _ => 0) noVal

/-- A virtual address from its low and high words. -/
def vaOf (lo hi : Src) : DWord := BitVec.ofNat 64 (hi.nat * 2 ^ 32 + lo.nat)

/-- Address checks of a firing: ALIGN, then CANON, both precise (R357). -/
def Env.vaFault (e : Env) (va : DWord) (n : Nat) : Option FaultRec :=
  if !aligned va.toNat n then some { e.faultRec fAlign with kind := 1, addr := va }
  else if !e.s.canonical e.id.die e.part va then some { e.faultRec fCanon with kind := 1, addr := va }
  else none

/-- `ldg` (R357). -/
def execLdg (w : CEWord) : State → Out := firePass (.ldg w) w fun e a b c =>
  let va := vaOf a b
  match e.vaFault va (loadSize w) with
  | some f => e.fault w f
  | none => e.issues w (e.req w (.mem va (.load (loadSize w))) (verOf [a, b, c])) [] fun _ => .skip

/-- The bytes of a data source that its mask enables. -/
def storeBytesOf (c : Src) : List (Option Byte) :=
  ((leBytes (dataSize c) (dataVec c).toNat).zipIdx).map fun p =>
    if (dataMask c).getLsbD (p.2 / 4) then some p.1 else none

/-- `stg` (R357). -/
def execStg (w : CEWord) : State → Out := firePass (.stg w) w fun e a b c =>
  let va := vaOf a b
  match e.vaFault va (dataSize c) with
  | some f => e.fault w f
  | none =>
    if dataMask c == 0 then e.done fun x => x.consume w
    else e.issues w (e.req w (.mem va (.store (storeBytesOf c))) (verOf [a, b, c])) [] fun _ => .skip

/-- The old value delivered by an atomic (R358). -/
def oldVal (w : CEWord) (v : Vec) : Option Val :=
  if w.dst.isZero then none
  else if w.dst.isVecDst then
    some (.vec
      { data := BitVec.ofNat 512 (v.toNat % 2 ^ (8 * atomSize w)), mask := if w.size64 then 3 else 1, fmt := .i32 })
  else wordVal v

/-- An atomic on a scratchpad offset or a global address (R358). -/
def fireAtom (i : Instr) (op : AtomOp) (w : CEWord) : State → Out := firePass i w fun e a b c =>
  if w.atomGlobal then
    let va := vaOf a b
    match e.vaFault va (atomSize w) with
    | some f => e.fault w f
    | none =>
      e.issues w (e.req w (.mem va (.rmw (atomRmw op w c) (!w.dst.isZero))) (verOf [a, b, c])) [] fun _ => .skip
  else if !aligned a.nat (atomSize w) then e.misaligned w a.nat
  else e.meAct w [a, b, c] (atomOp op w a c) [] [] (fun _ => verOf [a, b, c]) (oldVal w)

/-- `atom.add` (R359). -/
def execAtomAdd (w : CEWord) : State → Out := fireAtom (.atomAdd w) .add w
/-- `atom.min` (R359). -/
def execAtomMin (w : CEWord) : State → Out := fireAtom (.atomMin w) .min w
/-- `atom.max` (R359). -/
def execAtomMax (w : CEWord) : State → Out := fireAtom (.atomMax w) .max w
/-- `atom.xchg` (R359). -/
def execAtomXchg (w : CEWord) : State → Out := fireAtom (.atomXchg w) .xchg w
/-- `atom.cas` (R359). -/
def execAtomCas (w : CEWord) : State → Out := fireAtom (.atomCas w) .cas w
/-- `atom.and` (R359). -/
def execAtomAnd (w : CEWord) : State → Out := fireAtom (.atomAnd w) .and w
/-- `atom.or` (R359). -/
def execAtomOr (w : CEWord) : State → Out := fireAtom (.atomOr w) .or w

/-! ### Full/empty (R360) -/

/-- `fe.set`: performed once the accesses that it releases are; at once when there are none. -/
def execFeSet (w : CEWord) : State → Out := firePass (.feSet w) w fun e a b c =>
  let op := MeOp.feSet (feOff a)
  let waits := e.aPlus .region
  if e.isLocal w op then
    if waits = [] then e.runLocal w [a, b, c] op [] (fun _ => 0) noVal
    else
      .fresh fun id =>
        .block
          [ .onCell e.id fun x =>
              { x with
                me := { x.me with later := x.me.later ++ [{ id := id, slot := e.slot, op := .feSet (feOff a), reqs := waits }] }
                ce := x.ce.consume w }
          , .fired e ]
  else e.issues w (e.meReq w op 0) waits fun _ => .skip

/-- `fe.clr`. -/
def execFeClr (w : CEWord) : State → Out := firePass (.feClr w) w fun e a b c =>
  e.meAct w [a, b, c] (.feClr (feOff a)) [] [] (fun _ => 0) noVal

/-- `fe.test`. -/
def execFeTest (w : CEWord) : State → Out := firePass (.feTest w) w fun e a b c =>
  e.meAct w [a, b, c] (.feTest (feOff a)) [] [] (fun _ => verOf [a, b, c]) wordVal

/-! ### Bobbins (R361-R363) -/

/-- `ring.res` (R361). -/
def execRingRes (w : CEWord) : State → Out := firePass (.ringRes w) w fun e a b c =>
  e.meAct w [a, b, c] (.ringRes (idxOf w)) [] [] (fun _ => verOf [a, b, c]) wordVal

/-- `ring.pub` (R361): the TAIL advance releases the context's A⁺ at REGION. -/
def execRingPub (w : CEWord) : State → Out := firePass (.ringPub w) w fun e a b c =>
  let waits := e.aPlus .region
  e.meAct w [a, b, c] (.ringPub (idxOf w) a.val.word) waits waits (fun _ => 0) noVal

/-- `ring.pop` (R362): the slot is handed back after the cell's accesses to it. -/
def execRingPop (w : CEWord) : State → Out := firePass (.ringPop w) w fun e a b c =>
  e.meAct w [a, b, c] (.ringPop (idxOf w)) [] (e.popWaits w e.spot.h w.cellCol w.cellRow) (fun _ => verOf [a, b, c])
    wordVal

/-- `ring.peek` (R362). -/
def execRingPeek (w : CEWord) : State → Out := firePass (.ringPeek w) w fun e a b c =>
  e.meAct w [a, b, c] (.ringPeek (idxOf w)) [] [] (fun _ => verOf [a, b, c]) wordVal

/-- `ring.close` (R363). -/
def execRingClose (w : CEWord) : State → Out := firePass (.ringClose w) w fun e a b c =>
  e.meAct w [a, b, c] (.ringClose (idxOf w)) [] [] (fun _ => 0) noVal

/-- `ring.stat` (R363). -/
def execRingStat (w : CEWord) : State → Out := firePass (.ringStat w) w fun e a b c =>
  e.meAct w [a, b, c] (.ringStat (idxOf w)) [] [] (fun _ => verOf [a, b, c]) wordVal

/-- `hem` (R368). -/
def execHem (w : CEWord) : State → Out := firePass (.hem w) w fun e a b c =>
  e.meAct w [a, b, c] (.hem (idxOf w)) [] [] (fun _ => 0) noVal

end Sys2Proof.Machine
end

