-- ==== Sys2Proof/Machine/Sync.lean ====
section
/-!
DEFINITION. Bank tokens, basting, fences, timelines and pool lots (14 R364-R374).
-/
namespace Sys2Proof.Machine

/-! ### Bank ownership tokens (R364, R365) -/

/-- The bank that a bank of the cell stands for: its binding, or itself. -/
def Env.bankRef (e : Env) (b : Nat) : BankRef :=
  match (e.c.me.bank b).bound with
  | some r => r
  | none => { handle := e.spot.h, giver := e.spot.r.launch.map fun n => (n, e.spot.r.inst), col := e.spot.col, row := e.spot.row, bank := b, lot := e.own }

def Me.putBank (m : Me) (b : Nat) (f : Bank → Bank) : Me := { m with banks := m.banks.put b (f (m.bank b)) }

/-- The entry is that of a bank. -/
def Given.names (g : Given) (b : BankRef) : Bool := g.col == b.col && g.row == b.row && g.bank == b.bank

/-- `bot.give` (R364). -/
def execBotGive (w : CEWord) : State → Out := firePass (.botGive w) w fun e a _ _ =>
  let b := idxOf w
  let ref := e.bankRef b
  let next := w.imm.getLsbD 12
  let waits := e.s.touching e.id (e.s.bankHandle ref) ref.col ref.row (128 * ref.bank) 128
  .fresh fun id =>
    .block
      [ .onCell e.id fun c =>
          { c with
            me := { c.me.putBank b fun k => { k with owned := false } with
                    later := c.me.later ++ [{ id := id, slot := e.slot, op := .give b w.cellCol w.cellRow a.nat next ref, reqs := waits }] }
            ce := c.ce.consume w }
      , .onRegion (e.s.bankHandle ref) fun r =>
          { r with
            given := r.given.filter (fun g => !g.names ref) ++
              [{ col := ref.col, row := ref.row, bank := ref.bank, launch := none, inst := a.nat, other := next }] }
      , .fired e ]

/-- The token names the taker cell's own bank. -/
def Env.ownRef (e : Env) (b : Nat) (r : BankRef) : Bool :=
  e.s.bankHandle r == e.spot.h && r.col == e.spot.col && r.row == e.spot.row && r.bank == b

/-- `bot.take` (R365). -/
def execBotTake (w : CEWord) : State → Out := firePass (.botTake w) w fun e _ _ _ =>
  let b := idxOf w
  match (e.c.me.bank b).tokens with
  | [] => .skip
  | t :: rest =>
    (e.meDone w
      (e.c.me.putBank b fun k =>
        { k with owned := true, tokens := rest, bound := if e.ownRef b t then none else some t })
      id false).seq
      (if e.ownRef b t then .onRegion e.spot.h fun r => { r with given := r.given.filter fun g => !g.names t } else .skip)

/-! ### Basting (R366-R369) -/

/-- The version of a publication: none for VERSION_OVERFLOW (R366). -/
def Basting.next (b : Basting) (final : Bool) : Option (BitVec 4 × Nat) :=
  if b.shown == some 15 || b.due.any (fun d => d.ver == 15) then none
  else if final || b.hemmed then some (15, b.v)
  else if b.v = 15 then none
  else some (BitVec.ofNat 4 b.v, b.v + 1)

/-- The basting tile of a cell in which a line lies. -/
def Me.tileOf (m : Me) (line : Nat) : Option Basting :=
  firstSome (m.decls.map fun d => match d.2 with
    | .basting b => if covers b.base b.lines line then some b else none
    | .bobbin _ => none)

/-- The cell that a stream addresses; none for global memory. -/
def Region.streamCell (r : Region) (col row : Nat) (d : Desc) : Option CellId :=
  match d.target with
  | .here => some (r.cellAt col row)
  | .cell c w => some (r.cellAt c w)
  | .global => none

/-- The tile that a read stream consumes (R367). -/
def State.tileRead (s : State) (r : Region) (col row : Nat) (d : Desc) : Option Basting :=
  match d.dir, r.streamCell col row d with
  | .read, some c => (s.cells.get {} c).me.tileOf (lineOf d.base.toNat)
  | _, _ => none

/-- A newer publication restarts a consumer that has begun to read: from the first element, a REFIRE before the new
data (R177, R367). -/
def Stream.restart (t : Stream) (ver : BitVec 4) : Stream :=
  { t with
    idx := [0, 0, 0, 0, 0, 0], elem := 0, ended := false, boundary := false, eosDue := 0
    refires := t.refires ++ [ver], reading := some ver }

/-- The consumers of declaration i of a region's cell restart. -/
def Act.restartConsumers (r : Region) (cell : CellId) (i : Nat) (ver : BitVec 4) : Act :=
  .each r.cells fun p => .read fun s =>
    let id := r.cellAt p.1 p.2
    let reads (t : Stream) : Bool :=
      t.desc.dir == .read && r.streamCell p.1 p.2 t.desc == some cell && t.reading.isSome
        && ((s.cells.get {} cell).me.basting i).any fun b => covers b.base b.lines (lineOf t.desc.base.toNat)
    .when ((s.cells.get {} id).me.streams.any fun e => reads e.2)
      (.onCell id fun c =>
        { c with me := { c.me with streams := c.me.streams.map fun e => (e.1, if reads e.2 then e.2.restart ver else e.2) } })

/-- The publication performed: every line of the tile takes the version (R366). Lines of a bound bank lie in the
given bank. -/
def Act.publish (s : State) (cell : CellId) (i : Nat) (ver : BitVec 4) : Act :=
  match (s.cells.get {} cell).me.basting i with
  | none => .skip
  | some b =>
    (Act.each (List.range b.lines) fun k =>
      let line := b.base + k
      let m := (s.cells.get {} cell).me
      let at_ := match (m.bank (line / 128)).bound with
        | some r =>
          (match s.regions.get? (s.bankHandle r) with
            | some g => g.cellAt r.col r.row
            | none => cell)
        | none => cell
      .onCell at_ fun c => { c with me := c.me.putLine line { c.me.line line with ver := ver } }).seq
      (.block
        [ .onCell cell fun c =>
            match c.me.basting i with
            | some x => { c with me := c.me.putDecl i (.basting { x with shown := some ver }) }
            | none => c
        , match s.spot cell with
          | some sp => .restartConsumers sp.r cell i ver
          | none => .skip ])

/-- `baste` and `baste.final`: the publication waits for the accesses that it releases (R366). -/
def fireBaste (i : Instr) (final : Bool) (w : CEWord) : State → Out := firePass i w fun e a b c =>
  match e.c.me.basting (idxOf w) with
  | none => .skip
  | some t =>
    match t.next final with
    | none => e.fault w (e.faultRec fVersion)
    | some (ver, v) =>
      let waits := e.s.touching e.id e.spot.h e.spot.col e.spot.row t.base t.lines ++ e.aPlus .region
      let done (t' : Basting) : Act :=
        e.meDone w (e.c.me.putDecl (idxOf w) (.basting t'))
          (fun x => x.write w.dst (e.stamp w (verOf [a, b, c])) (.scal (ver.zeroExtend 32))) (ver != 15)
      if waits = [] then (done { t with v := v }).seq (.read fun s => .publish s e.id (idxOf w) ver)
      else .fresh fun id =>
        done { t with v := v, due := t.due ++ [{ id := id, slot := e.slot, ver := ver, reqs := waits }] }

/-- `baste` (R366). -/
def execBaste (w : CEWord) : State → Out := fireBaste (.baste w) false w
/-- `baste.final` (R366). -/
def execBasteFinal (w : CEWord) : State → Out := fireBaste (.basteFinal w) true w

/-- A REFIRE token stands in a cell: its channels, buffers, stream queues. -/
def hasRefire (c : Cell) : Bool :=
  let toks (q : Store Nat (List Tok)) : Bool := q.any fun x => x.2.any fun t => t.mark == .refire
  let outs (l : List OutEnt) : Bool := l.any fun x => match x with
    | .filled t => t.mark == .refire
    | .reserved _ => false
  toks c.ce.vi || toks c.ce.si || toks c.ce.ci
    || (c.ce.vo.any fun x => outs x.2) || (c.ce.so.any fun x => outs x.2) || (c.ce.co.any fun x => outs x.2)
    || (c.sw.bufs.any fun x => x.2.any fun t => t.mark == .refire)
    || (c.sw.inb.any fun x => x.2.any fun t => t.mark == .refire)
    || (c.me.streams.any fun x => outs x.2.outq || x.2.refires != [] || x.2.inq.any fun t => t.mark == .refire)

/-- REFIRE tokens on the seam lanes of the region's routes. -/
def State.refireOnLanes (s : State) (r : Region) : Bool :=
  r.lanes.any fun l => ((s.lanes.get {} l).coming l.link).any fun f => match f.load with
    | .token t => t.mark == .refire
    | _ => false

/-- Every consumer stream of a published tile has read its final version. -/
def State.finalsRead (s : State) (r : Region) : Bool :=
  r.cells.all fun p => ((s.cells.get {} (r.cellAt p.1 p.2)).me.streams).all fun x =>
    match s.tileRead r p.1 p.2 x.2.desc with
    | some b => b.shown.isNone || x.2.finalRead
    | none => true

/-- The instance is pressed (R369). -/
def State.pressed (s : State) (r : Region) : Bool :=
  r.allFinal s.cells
    && !(r.cells.any fun p => hasRefire (s.cells.get {} (r.cellAt p.1 p.2)))
    && !s.refireOnLanes r && s.finalsRead r

/-- `press.test` (R369). -/
def execPressTest (w : CEWord) : State → Out := fireRes (.pressTest w) w fun e _ _ _ =>
  let r := e.s.pressed e.spot.r
  { val := .scal (if r then 1 else 0), pred := r }

/-! ### Fences and stream barriers (R370) -/

/-- A wait left on the context. -/
def Ce.addWait (c : Ce) (ctx : Nat) (x : Wait) : Ce := { c with waits := c.waits.put ctx (c.waits.get [] ctx ++ [x]) }

def Env.scope (e : Env) (w : CEWord) : Scope := resolveScope e.launch (scopeOf (w.immBits 8 3)) (w.immBits 11 3)

/-- `sbar` (08 R220). -/
def execSbar (w : CEWord) : State → Out := firePass (.sbar w) w fun e _ _ _ =>
  let m : BitVec 4 := w.imm.extractLsb' 16 4
  let who (x : Agent) : Bool := match x with
    | .ctx c k => c == e.id && k == e.ctx
    | .stream c k => c == e.id && m.getLsbD k
    | _ => false
  let waits := e.s.pending who e.id e.spot.h (e.scope w) false
  (e.done fun c => if waits = [] then c.consume w else (c.consume w).addWait e.ctx (.sbar m waits)).seq
    (.askSystem (e.scope w) waits)

/-- `fence` (08 R218, R219): an acquire waits for the reads of A, every other order for A⁺. -/
def execFence (w : CEWord) : State → Out := firePass (.fence w) w fun e _ _ _ =>
  let acq := w.immBits 14 2 = 0
  let waits := e.s.pending (· == e.agent) e.id e.spot.h (e.scope w) acq
  (e.done fun c => if waits = [] then c.consume w else (c.consume w).addWait e.ctx (.fence waits)).seq
    (.askSystem (e.scope w) waits)

/-! ### Timelines (R371, R372) -/

/-- The copy context that a TLID names (R85). -/
def State.tlCopy (s : State) (d p tlid : Nat) : CopyId :=
  { die := s.regField (s.mapOf d p) (.dmap (bitField tlid 14 10)) 4 0, eng := bitField tlid 9 6, ctx := bitField tlid 5 3 }

/-- `tl.wait` (R371). -/
def execTlWait (w : CEWord) : State → Out := firePass (.tlWait w) w fun e a b c =>
  e.issues w (e.req w (.tl (e.s.tlCopy e.id.die e.part (w.immBits 16 16)) (.arm (vaOf a b))) (verOf [a, b, c])) [] fun id =>
    .onCell e.id fun x => { x with ce := x.ce.addWait e.ctx (.timeline id) }

/-- `tl.read` (R372). -/
def execTlRead (w : CEWord) : State → Out := firePass (.tlRead w) w fun e _ _ _ =>
  e.issues w (e.req w (.tl (e.s.tlCopy e.id.die e.part (w.immBits 16 16)) .read) 0) [] fun _ => .skip

/-! ### Lots from a pool (R373, R374) -/

/-- Lines f to f + k − 1 with a selvedge line on each side fit a pool and every live allocation (R373). -/
def poolFits (pool : Alloc) (live : List PoolAlloc) (f k : Nat) : Bool :=
  decide (pool.first + 1 ≤ f) && decide (f + k + 1 ≤ pool.first + pool.count)
    && live.all fun p => decide (f + k < p.first) || decide (p.first + p.count < f)

def Me.poolPlace (m : Me) (k : Nat) : Option Nat :=
  firstSome ((m.allocs.filter (·.pool)).map fun a =>
    ((List.range a.count).map (a.first + ·)).find? fun f => poolFits a m.pool f k)

/-- Lot-map indices that the instance's pool allocations hold. -/
def State.poolIdx (s : State) (r : Region) : List Nat :=
  r.cells.flatMap fun p => (s.cells.get {} (r.cellAt p.1 p.2)).me.pool.map (·.idx)

/-- A lot taken on a die (R200). -/
def Lots.taken (l : Lots) (v : Lot) : Lots := { l with counter := v, live := v :: l.live }

/-- A lot ended: barred until a later sweep when one runs (R200). -/
def Lots.ended (l : Lots) (v : Lot) : Lots :=
  { l with live := l.live.filter (· != v), barred := if l.sweeping then v :: l.barred else l.barred }

def modeOf (n : Nat) : LotMode :=
  match n with
  | 0 => .z
  | 1 => .t
  | _ => .w

/-- `lot.new` (R373). A die that has no lot above its counter sweeps first, and the firing happens later (R200). -/
def execLotNew (w : CEWord) : State → Out := firePass (.lotNew w) w fun e a b c =>
  let k := a.nat
  let put (x : Word) (x' : Ce) : Ce := x'.write w.dst (e.stamp w (verOf [a, b, c])) (.scal x)
  let refuse := e.meDone w e.c.me (put 0xFFFFFFFF) false
  let used := e.s.poolIdx e.spot.r
  match e.c.me.poolPlace k, ((List.range 63).map (· + 1)).find? fun i => !used.contains i with
  | some f, some idx =>
    if k = 0 ∨ 1024 < k then refuse
    else match lotFree e.lots with
    | none => .emit (.lots e.id.die { e.lots with sweeping := true })
    | some v =>
      (e.meDone w
        { e.c.me with
          pool := { first := f, count := k, idx := idx, lot := v, mode := modeOf (w.immBits 8 2)
                    fesync := w.imm.getLsbD 10, born := e.s.cycle } :: e.c.me.pool }
        (put (BitVec.ofNat 32 (f + idx * 2 ^ 16))) true).seq (.emit (.lots e.id.die (e.lots.taken v)))
  | _, _ => refuse

/-- `lot.end` (R374). -/
def execLotEnd (w : CEWord) : State → Out := firePass (.lotEnd w) w fun e a _ _ =>
  match e.c.me.pool.find? fun p => a.nat == p.first + p.idx * 2 ^ 16 with
  | none => e.meDone w e.c.me id false
  | some p =>
    (e.meDone w { e.c.me with pool := e.c.me.pool.filter (· != p) } id true).seq
      (.emit (.lots e.id.die (e.lots.ended p.lot)))

end Sys2Proof.Machine
end

