-- ==== Sys2Proof/Machine/Team.lean ====
section
/-!
DEFINITION. Team and launch instructions of a CE (11 R307-R311).
-/
namespace Sys2Proof.Machine

/-- The value of `teamid` (R307). A region without a launch has level 0 only. -/
def Env.teamValue (e : Env) (k kind : Nat) : Nat :=
  match e.launch with
  | some l =>
    if k < l.levels then
      (match kind with
        | 0 => l.coord e.spot.r.inst k
        | 1 => l.teamNo e.spot.r.inst k
        | 2 => l.teams k
        | _ => l.fanout k)
    else if kind < 2 then 0 else 1
  | none => if kind < 2 then 0 else 1

/-- `teamid` (R307). -/
def execTeamid (w : CEWord) : State → Out := fireRes (.teamid w) w fun e _ _ _ =>
  { val := .scal (BitVec.ofNat 32 (e.teamValue (w.immBits 8 3) (w.immBits 16 2))) }

/-- The barrier level that a word names: a level at or above NLEVELS is the top one (R308). -/
def Env.tbarLevel (e : Env) (k : Nat) : Nat :=
  match e.launch with
  | some l => min k (l.levels - 1)
  | none => 0

/-- An agent of a region's cells. -/
def Region.hasAgent (r : Region) (a : Agent) : Bool :=
  match agentCell a with
  | some c => (r.place c).isSome
  | none => false

/-- `tbar` (R308): the first of an epoch makes the arrival, which waits for every access of the instance; a later one
joins the wait. -/
def execTbar (w : CEWord) : State → Out := firePass (.tbar w) w fun e _ _ _ =>
  let k := e.tbarLevel (w.immBits 8 3)
  let t := e.spot.r.tbars.get {} k
  let waits := e.s.pending e.spot.r.hasAgent e.id e.spot.h (teamScope e.launch k) false
  .block
    [ e.done fun c =>
        let c1 := c.consume w
        { c1 with waits := c1.waits.put e.ctx (c1.waits.get [] e.ctx ++ [.tbar k t.epoch]) }
    , .onRegion e.spot.h fun r =>
        { r with tbars := r.tbars.put k (if t.arrived || t.due.isSome then t else { t with due := some waits }) }
    , .askSystem (teamScope e.launch k) waits ]

/-- A 64-bit number in two elements of a vector source. -/
def vPair (a : Src) (i : Nat) : DWord := BitVec.ofNat 64 (vWord a i + 2 ^ 32 * vWord a (i + 1))

/-- `launch` (R310). -/
def execLaunch (w : CEWord) : State → Out := firePass (.launch w) w fun e a b c =>
  let rec_ := vPair a 0
  let reply := vPair a 2
  let n := min 11 (vWord a 4)
  let bad (code : Nat) (va : DWord) : Act := e.fault w { e.faultRec code with kind := 1, addr := va }
  if !aligned rec_.toNat 1024 then bad fAlign rec_
  else if !aligned reply.toNat 128 then bad fAlign reply
  else if !e.s.canonical e.id.die e.part rec_ then bad fCanon rec_
  else if reply != 0 && !e.s.canonical e.id.die e.part reply then bad fCanon reply
  else
    let ov := (List.range n).map fun i => BitVec.ofNat 32 (vWord a (5 + i))
    e.issues w (e.req w (.launch rec_ reply ov) (verOf [a, b, c])) (e.aPlus .system) fun _ => .atSystem (e.aPlus .system)

/-- `clkrd` (R311). -/
def execClkrd (w : CEWord) : State → Out := fireRes (.clkrd w) w fun e _ _ _ =>
  let n : DWord := BitVec.ofNat 64 (e.s.partCycle e.part)
  if w.dst.isVecDst then { val := .vec { data := BitVec.ofNat 512 n.toNat, mask := 3 } }
  else { val := .scal (n.extractLsb' 0 32) }

end Sys2Proof.Machine
end

