-- ==== Sys2Proof/Machine/Image.lean ====
section
/-!
DEFINITION. The configuration image: its layout, its validation in the eight steps of R124, and the cells that it
describes (05 R122-R124, 06 R149, 09 R258, 10 R265-R273, 14 R352, R355).
-/
namespace Sys2Proof.Machine

/-- A refusal: code, step of R124, item kind, index, logical cell (R124, R274). -/
structure Reject where
  code : Nat := 0x11
  step : Nat
  kind : Nat
  index : Nat := 0
  col : Nat := 0
  row : Nat := 0
  deriving DecidableEq, Repr

/-- A little-endian number of `n` bytes. -/
def numAt (b : List Byte) (off n : Nat) : Nat := leNat ((b.drop off).take n)
def zeroAt (b : List Byte) (off n : Nat) : Bool := ((b.drop off).take n).all (· == 0)

/-- First of some items that fails, with its number. -/
def firstBad {α : Type} (bad : α → Bool) : Nat → List α → Option Nat
  | _, [] => none
  | i, x :: r => if bad x then some i else firstBad bad (i + 1) r

/-! ### Parts of a cell section (R265-R272) -/

def fmtOf (n : Nat) : Fmt := .ofCode (BitVec.ofNat 3 n)

/-- A routing word (R268). `ok` holds for a valid one; V = 0 gives none. -/
structure RouteWord where
  net : Nat
  inp : Nat
  entry : Bool
  exit : Nat
  out : Nat
  deriving DecidableEq, Repr

def routeWord (v : Nat) : RouteWord :=
  { net := bitField v 30 29, inp := bitField v 28 25, entry := v.testBit 24, exit := bitField v 23 20
    out := bitField v 15 0 }

/-- A descriptor's bytes (R271). -/
structure RawDesc where
  bytes : List Byte
  deriving DecidableEq, Repr

def RawDesc.ctrl (d : RawDesc) (hi lo : Nat) : Nat := bitField (numAt d.bytes 0x38 8) hi lo
def RawDesc.en (d : RawDesc) : Bool := d.ctrl 24 24 == 1
def RawDesc.ndim (d : RawDesc) : Nat := d.ctrl 2 0
def RawDesc.count (d : RawDesc) (k : Nat) : Nat := numAt d.bytes (8 + 4 * k) 4
def RawDesc.stride (d : RawDesc) (k : Nat) : Int := (BitVec.ofNat 32 (numAt d.bytes (0x20 + 4 * k) 4)).toInt
def RawDesc.base (d : RawDesc) : Nat := numAt d.bytes 0 8
def RawDesc.sbbase (d : RawDesc) : Nat := numAt d.bytes 0x40 8
def RawDesc.elemSize (d : RawDesc) : Nat := if d.ctrl 13 12 = 2 then 4 else 64

def netOf (n : Nat) : Net :=
  match n with
  | 0 => .vec
  | 1 => .scal
  | _ => .ctl

/-- The descriptor of an enabled stream. -/
def RawDesc.desc (d : RawDesc) : Desc :=
  { base := BitVec.ofNat 64 d.base
    counts := (List.range 6).map fun k => BitVec.ofNat 20 (d.count k)
    strides := (List.range 6).map fun k => BitVec.ofInt 32 (d.stride k)
    ndim := d.ndim
    fmt := fmtOf (d.ctrl 5 3)
    dir := match d.ctrl 7 6 with | 0 => .read | 1 => .write | _ => .reduce
    target := match d.ctrl 9 8 with | 0 => .here | 1 => .cell (d.ctrl 49 40) (d.ctrl 39 32) | _ => .global
    page := BitVec.ofNat 2 (d.ctrl 11 10)
    pack := match d.ctrl 13 12 with | 0 => .vec | 1 => .vecsb | _ => .scal
    eosrule := d.ctrl 17 14
    lotmode := match d.ctrl 19 18 with | 0 => some .z | 1 => some .t | 2 => some .w | _ => none
    fill := d.ctrl 20 20 == 1
    sctx := BitVec.ofNat 3 (d.ctrl 23 21)
    rop := match d.ctrl 27 26 with | 1 => .min | 2 => .max | _ => .add
    sbbase := BitVec.ofNat 64 d.sbbase }

/-- An image as its bytes say. -/
structure Image where
  bytes : List Byte
  deriving DecidableEq, Repr

def Image.width (m : Image) : Nat := numAt m.bytes 0x10 2
def Image.height (m : Image) : Nat := numAt m.bytes 0x12 2
def Image.arith (m : Image) : Nat := numAt m.bytes 0x14 1
def Image.length (m : Image) : Nat := numAt m.bytes 0x18 8
def Image.dirOff (m : Image) : Nat := numAt m.bytes 0x20 8
def Image.allocOff (m : Image) : Nat := numAt m.bytes 0x28 8
def Image.nalloc (m : Image) : Nat := numAt m.bytes 0x30 4
def Image.rfsOff (m : Image) : Nat := numAt m.bytes 0x38 8
def Image.id (m : Image) : DWord := BitVec.ofNat 64 (numAt m.bytes 8 8)
def Image.dztrap (m : Image) : Bool := (numAt m.bytes 6 2).testBit 0

def Image.dirEntry (m : Image) (i : Nat) : List Byte := (m.bytes.drop (m.dirOff + 16 * i)).take 16
def Image.sectionOff (m : Image) (col row : Nat) : Nat := numAt (m.dirEntry (row * m.width + col)) 0 8

/-- Logical cells in row-major order, and those that are not empty. -/
def Image.places (m : Image) : List (Nat × Nat) :=
  (List.range m.height).flatMap fun j => (List.range m.width).map fun i => (i, j)
def Image.live (m : Image) (col row : Nat) : Bool :=
  decide (col < m.width) && decide (row < m.height) && m.sectionOff col row != 0
def Image.cells (m : Image) : List (Nat × Nat) := m.places.filter fun p => m.live p.1 p.2

def Image.section (m : Image) (p : Nat × Nat) : List Byte := (m.bytes.drop (m.sectionOff p.1 p.2)).take 8448
def slotWord (s : List Byte) (i : Nat) : BitVec 128 := BitVec.ofNat 128 (numAt s (16 * i) 16)
def routeAt (s : List Byte) (i : Nat) : Nat := numAt s (0x800 + 4 * i) 4
def descAt (s : List Byte) (k : Nat) : RawDesc := ⟨(s.drop (0x880 + 80 * k)).take 80⟩
def ctlByte (s : List Byte) (off n : Nat) : Nat := numAt s (0x9C0 + off) n
def rportAt (s : List Byte) (b : Nat) : Nat := ctlByte s (16 + 4 * b) 4
def declAt (s : List Byte) (i : Nat) : Nat := numAt s (0xA00 + 16 * i) 16
def awaited (s : List Byte) (b : Nat) : Bool := (ctlByte s 2 1).testBit b

/-- Allocation declaration i (R123). -/
def Image.rawAlloc (m : Image) (i : Nat) : Nat := numAt m.bytes (m.allocOff + 16 * i) 16

def lotModeOf (n : Nat) : LotMode :=
  match n with
  | 0 => .z
  | 1 => .t
  | _ => .w

def allocOf (i v : Nat) : Alloc :=
  { first := bitField v 109 100, count := bitField v 99 89, selv := bitField v 88 87 + 1
    mode := lotModeOf (bitField v 86 85), fesync := v.testBit 84, baste := v.testBit 83, pool := v.testBit 82
    index := i }

def Image.allocs (m : Image) (p : Nat × Nat) : List Alloc :=
  ((List.range m.nalloc).filter fun i =>
    bitField (m.rawAlloc i) 127 118 == p.1 && bitField (m.rawAlloc i) 117 110 == p.2).map fun i => allocOf i (m.rawAlloc i)

def Image.refire (m : Image) (i : Nat) : Nat := numAt m.bytes (m.rfsOff + 8 + 4 * i) 4
def Image.nrefire (m : Image) : Nat := if m.rfsOff = 0 then 0 else numAt m.bytes m.rfsOff 4

/-! ### Step 1 (R122, R265-R267, R273) -/

def Image.headerOk (m : Image) : Bool :=
  numAt m.bytes 0 4 == 0x5A474349 && numAt m.bytes 4 2 == 1 && decide (numAt m.bytes 6 2 < 2)
    && zeroAt m.bytes 0x15 3 && zeroAt m.bytes 0x34 4 && zeroAt m.bytes 0x40 192
    && decide (256 ≤ m.length) && decide (m.length ≤ m.bytes.length)
    && decide (1 ≤ m.width ∧ m.width ≤ 576) && decide (1 ≤ m.height ∧ m.height ≤ 192)
    && m.dirOff % 16 == 0 && m.allocOff % 16 == 0 && decide (m.nalloc ≤ 65536)
    && decide (m.dirOff + 16 * (m.width * m.height) ≤ m.length)
    && decide (m.allocOff + 16 * m.nalloc ≤ m.length)
    && (m.rfsOff == 0 || decide (m.rfsOff + 8 ≤ m.length))

/-- A directory entry in error (R122). An empty cell's entry, of offset 0, with a length other than 0 is one: the spec does
not say it is refused (DESIGN CHOICE, log 71). -/
def Image.dirBad (m : Image) (p : Nat × Nat) : Bool :=
  let e := m.dirEntry (p.2 * m.width + p.1)
  let off := numAt e 0 8
  !zeroAt e 12 4
    || (if off = 0 then p == (0, 0) || !zeroAt e 8 4
        else off % 64 != 0 || numAt e 8 4 != 8448 || decide (m.length < off + 8448))

/-- First byte in error of the control block and the initial contents (R265-R267). -/
def ctlBad (s : List Byte) : Option Nat :=
  let byte (i : Nat) : Nat := numAt s i 1
  let winit (k : Nat) : Bool := (ctlByte s 3 1).testBit k
  let vinit (k : Nat) : Bool := (ctlByte s 6 2).testBit k
  let sinit (k : Nat) : Bool := (ctlByte s 10 2).testBit k
  let wtags := ctlByte s 4 2
  let tagBad (i : Nat) : Bool :=
    (List.range 8).any fun j =>
      wtags.testBit (8 * i + j) && (decide (12 ≤ 8 * i + j) || !winit ((8 * i + j) / 3))
  let presBad (pres init i : Nat) : Bool := (List.range 8).any fun j => pres.testBit (8 * i + j) && !init.testBit (8 * i + j)
  let off0 : Nat := 0x9C0
  firstSome
    [ if ctlByte s 0 1 % 4 = 3 ∨ 4 ≤ ctlByte s 0 1 then some off0 else none
    , if 16 ≤ ctlByte s 3 1 then some (off0 + 3) else none
    , (firstBad tagBad 0 [0, 1]).map (off0 + 4 + ·)
    , (firstBad (presBad (ctlByte s 8 2) (ctlByte s 6 2)) 0 [0, 1]).map (off0 + 8 + ·)
    , (firstBad (presBad (ctlByte s 12 2) (ctlByte s 10 2)) 0 [0, 1]).map (off0 + 12 + ·)
    , (firstBad (fun i => byte i != 0) 0 [off0 + 14, off0 + 15]).map (off0 + 14 + ·)
    , (firstBad (fun i => !(rportAt s (i / 4)).testBit 0 && byte (off0 + 16 + i) != 0) 0 (List.range 32)).map (off0 + 16 + ·)
    , (firstBad (fun i => byte (off0 + 48 + i) != 0) 0 (List.range 16)).map (off0 + 48 + ·)
    , (firstBad (fun i => !winit (i / 1088) && byte (0xA80 + i) != 0) 0 (List.range 4352)).map (0xA80 + ·)
    , (firstBad (fun i =>
        let b := byte (0x1B80 + i)
        if vinit (i / 80) then (decide (75 ≤ i % 80) && b != 0) || (i % 80 == 74 && decide (8 ≤ b)) else b != 0)
        0 (List.range 1280)).map (0x1B80 + ·)
    , (firstBad (fun i => byte (0x2080 + i) != 0 && (!sinit (i / 8) || decide (4 ≤ i % 8))) 0 (List.range 128)).map
        (0x2080 + ·) ]

/-- First refire entry in error, or 0 for the count (R273). -/
def Image.refireBad (m : Image) : Option (Nat × Nat) :=
  if m.rfsOff = 0 then none
  else if 4096 < m.nrefire || !zeroAt m.bytes (m.rfsOff + 4) 4 || decide (m.length < m.rfsOff + 8 + 4 * m.nrefire) then some (0, 0)
  else
    let bad (i : Nat) : Bool :=
      let v := m.refire i
      bitField v 13 6 != 0 || decide (32 ≤ bitField v 5 0) || !m.live (bitField v 31 22) (bitField v 21 14)
        || (List.range i).any fun j => m.refire j == v
    (firstBad bad 0 (List.range m.nrefire)).map fun i => (i, m.refire i)

def Image.step1 (m : Image) (width height arith : Nat) : Option Reject :=
  if !m.headerOk || m.width != width || m.height != height || m.arith != arith then some { step := 1, kind := 0 }
  else firstSome
    [ (m.places.find? m.dirBad).map fun p =>
        { step := 1, kind := 7, index := p.2 * m.width + p.1, col := p.1, row := p.2 }
    , firstSome (m.cells.map fun p => (ctlBad (m.section p)).map fun i =>
        { step := 1, kind := 9, index := i, col := p.1, row := p.2 })
    , m.refireBad.map fun e =>
        { step := 1, kind := 8, index := e.1, col := bitField e.2 31 22, row := bitField e.2 21 14 } ]

/-! ### Step 3: instruction words (R149, R153, R259-R263, R352, R355, R370) -/

/-- Declaration i of a section: V and KIND. -/
def declKind (s : List Byte) (i : Nat) : Option Bool :=
  let d := declAt s i
  if d.testBit 127 then some (d.testBit 126) else none

def isRing : Instr → Bool
  | .ringRes _ | .ringPub _ | .ringPop _ | .ringPeek _ | .ringClose _ | .ringStat _ => true
  | _ => false

def hasCell : Instr → Bool
  | .lds _ | .sts _ | .feSet _ | .feClr _ | .feTest _ | .hem _ => true
  | .atomAdd w | .atomMin w | .atomMax w | .atomXchg w | .atomCas w | .atomAnd w | .atomOr w => !w.atomGlobal
  | i => isRing i

/-- What a word may name in this image, partition and feature set. -/
def Image.refsOk (m : Image) (p : Nat × Nat) (dies : Nat) (devlaunch : Bool) (i : Instr) (w : CEWord) : Bool :=
  let target : Nat × Nat := if hasCell i && w.remote then (w.cellCol, w.cellRow) else p
  let here := m.section p
  (!(hasCell i && w.remote) || (target != p && m.live target.1 target.2))
    && (match i with
      | .baste _ | .basteFinal _ | .hem _ => declKind (m.section target) (idxOf w) == some true
      | .sbar _ => (List.range 4).all fun k => !w.imm.getLsbD (16 + k) || (descAt here k).en
      | .botTake _ => awaited here (idxOf w)
      | .lotNew _ => (m.allocs p).any (·.pool)
      | .tlWait _ | .tlRead _ => decide (bitField (w.immBits 16 16) 14 10 < dies)
      | .launch _ => devlaunch
      | _ => !isRing i || declKind (m.section target) (idxOf w) == some false)

/-- A slot's word is refused: a set bit beside EN = 0 (R260, R278), or a bad word with EN = 1. -/
def Image.wordBad (m : Image) (p : Nat × Nat) (dies : Nat) (devlaunch : Bool) (slot : Nat) : Bool :=
  let v := slotWord (m.section p) slot
  if v.getLsbD 127 then
    match decodeCE v with
    | .error _ => true
    | .ok i =>
      match i.ceParts with
      | none => true
      | some (_, w) => !i.wf || w.ctx.toNat != slot / 16 || !m.refsOk p dies devlaunch i w
  else v != 0

/-- The first item of the cells that fails, cells in row-major order. -/
def Image.firstIn (m : Image) (step kind n : Nat) (bad : Nat × Nat → Nat → Bool) : Option Reject :=
  firstSome (m.cells.map fun p => (firstBad (bad p) 0 (List.range n)).map fun i =>
    { step := step, kind := kind, index := i, col := p.1, row := p.2 })

/-! ### Step 4: routing words (R268-R270) -/

/-- The neighbour of a logical cell at output or input 0-3: N, E, S, W. None is outside the region. -/
def Image.neighbour (m : Image) (p : Nat × Nat) (d : Nat) : Option (Nat × Nat) :=
  match d with
  | 0 => if p.2 = 0 then none else some (p.1, p.2 - 1)
  | 1 => if p.1 + 1 < m.width then some (p.1 + 1, p.2) else none
  | 2 => if p.2 + 1 < m.height then some (p.1, p.2 + 1) else none
  | _ => if p.1 = 0 then none else some (p.1 - 1, p.2)

def netMask (net : Nat) : Nat :=
  match net with
  | 0 => 0x0FFF
  | 1 => 0xFFFF
  | _ => 0x00FF

/-- A stream that may be joined to a network in a direction. -/
def spFits (s : List Byte) (k net : Nat) (reads : Bool) : Bool :=
  let d := descAt s k
  d.en && ((d.ctrl 13 12 == 2) == (net == 1)) && ((d.ctrl 7 6 == 0) == reads)

def Image.routeBad (m : Image) (p : Nat × Nat) (i : Nat) : Bool :=
  let s := m.section p
  let v := routeAt s i
  let r := routeWord v
  let before := (List.range i).map fun j => routeAt s j
  if !v.testBit 31 then v != 0
  else
    r.net == 3 || bitField v 19 16 != 0 || r.out == 0 || decide (9 < r.inp) || (r.net == 2 && decide (5 < r.inp))
      || (r.out ||| netMask r.net) != netMask r.net
      || (before.any fun u =>
          let q := routeWord u
          u.testBit 31 && q.net == r.net &&
            (q.inp == r.inp ||
              (List.range 16).any fun b => !(4 ≤ b && b ≤ 7) && r.out.testBit b && q.out.testBit b))
      || (decide (6 ≤ r.inp) && !spFits s (r.inp - 6) r.net true)
      || ((List.range 4).any fun k => r.out.testBit (8 + k) && !spFits s k r.net false)
      || ((List.range 4).any fun k => r.out.testBit (12 + k) && !(descAt s k).en)
      || ((List.range 4).any fun d =>
          if r.out.testBit d then
            (match m.neighbour p d with
              | none => !r.exit.testBit d
              | some q => r.exit.testBit d || !m.live q.1 q.2)
          else r.exit.testBit d)
      || (if r.inp < 4 then r.entry != (m.neighbour p r.inp).isNone else r.entry)

/-! ### Step 5: descriptors and reduction ports (R123, R173, R174, R193, R266, R271) -/

/-- `f` holds of every address of the loops. -/
def reachAll (f : Int → Bool) : List (Nat × Int) → Int → Bool
  | [], a => f a
  | (n, st) :: r, a => (List.range n).all fun i => reachAll f r (a + i * st)

def RawDesc.loops (d : RawDesc) : List (Nat × Int) := (List.range d.ndim).map fun k => (d.count k, d.stride k)

def RawDesc.target (d : RawDesc) (p : Nat × Nat) : Nat × Nat := if d.ctrl 9 8 = 1 then (d.ctrl 49 40, d.ctrl 39 32) else p

/-- The n bytes at an offset lie in an allocation that the stream may reach. -/
def inAlloc (as_ : List Alloc) (zOnly : Bool) (a : Int) : Bool :=
  decide (0 ≤ a) && as_.any fun x =>
    covers x.first x.count (lineOf a.toNat) && (!zOnly || (x.mode == .z && !x.pool))

def Image.descBad (m : Image) (p : Nat × Nat) (k : Nat) : Bool :=
  let d := descAt (m.section p) k
  let global := d.ctrl 9 8 == 2
  let dims := List.range 6
  let as_ := m.allocs (d.target p)
  let zOnly := d.ctrl 19 18 != 3
  if !d.en then !zeroAt d.bytes 0 80
  else
    d.ctrl 63 50 != 0 || d.ctrl 31 28 != 0 || d.ctrl 25 25 != 0 || !zeroAt d.bytes 0x48 8
      || d.ndim == 0 || d.ndim == 7 || d.ctrl 7 6 == 3 || d.ctrl 9 8 == 3 || d.ctrl 13 12 == 3
      || d.ctrl 11 10 == 3 || d.ctrl 27 26 == 3
      || decide (7 < d.ctrl 17 14) || (decide (2 ≤ d.ctrl 17 14) && decide (d.ndim ≤ d.ctrl 17 14 - 2))
      || (d.ctrl 27 26 != 0 && d.ctrl 7 6 != 2) || (d.ctrl 7 6 == 2 && decide (3 < d.ctrl 5 3))
      || (d.ctrl 20 20 == 1 && (d.ctrl 7 6 != 1 || global))
      || (zOnly && (d.ctrl 7 6 != 0 || global)) || (!global && d.ctrl 11 10 != 0)
      || (d.ctrl 9 8 != 1 && (d.ctrl 49 40 != 0 || d.ctrl 39 32 != 0)) || (d.ctrl 13 12 != 1 && d.sbbase != 0)
      || (dims.any fun j =>
          if j < d.ndim then d.count j == 0 || decide (1048575 < d.count j) else d.count j != 0 || d.stride j != 0)
      || d.base % d.elemSize != 0 || ((List.range d.ndim).any fun j => d.stride j % d.elemSize != 0)
      || d.sbbase % 8 != 0
      || (!global &&
          (!m.live (d.target p).1 (d.target p).2
            || !reachAll (inAlloc as_ zOnly) d.loops d.base
            || (d.ctrl 13 12 == 1 &&
                !((List.range (d.loops.foldl (fun n l => n * l.1) 1)).all fun e => inAlloc as_ zOnly (d.sbbase + 8 * e : Nat)))))

/-- A reduction port's stream: direction, operation, format, and a target that addresses the bank (R266). -/
def Image.portBad (m : Image) (p : Nat × Nat) (b : Nat) : Bool :=
  let v := rportAt (m.section p) b
  let source : Nat × Nat := if v.testBit 7 then (bitField v 17 8, bitField v 25 18) else p
  let d := descAt (m.section source) (bitField v 6 5)
  v.testBit 0 &&
    (bitField v 31 26 != 0 || bitField v 2 1 == 3 || (!v.testBit 7 && bitField v 25 8 != 0)
      || !m.live source.1 source.2 || !d.en || d.ctrl 7 6 != 2 || d.ctrl 9 8 == 2 || d.target source != p
      || d.ctrl 27 26 != bitField v 2 1 || d.ctrl 5 3 != bitField v 4 3
      || reachAll (fun a => decide (lineOf a.toNat / 128 ≠ b)) d.loops d.base)

/-! ### Steps 6 and 7: allocations and declarations (R123, R272) -/

def Alloc.lo (a : Alloc) : Int := a.first - a.selv
def Alloc.hi (a : Alloc) : Nat := a.first + a.count + a.selv

def Image.allocBad (m : Image) (i : Nat) : Bool :=
  let v := m.rawAlloc i
  let a := allocOf i v
  let p : Nat × Nat := (bitField v 127 118, bitField v 117 110)
  bitField v 81 0 != 0 || !m.live p.1 p.2 || a.count == 0 || decide (1024 < a.count) || bitField v 86 85 == 3
    || (a.pool && (bitField v 86 85 != 0 || a.fesync || a.baste))
    || decide (a.lo < 0) || decide (1024 < a.hi) || (p == (0, 0) && decide (1023 < a.hi))
    || (m.allocs p).any fun x => decide (x.index < i) && decide (x.lo < a.hi) && decide (a.lo < x.hi)

/-- First line and lines of a declaration. -/
def declSpan (d : Nat) : Nat × Nat :=
  (bitField d 125 116, if d.testBit 126 then bitField d 115 106 else (bitField d 115 108 + 1) * bitField d 107 98)

def Image.declBad (m : Image) (p : Nat × Nat) (i : Nat) : Bool :=
  let s := m.section p
  let d := declAt s i
  let sp := declSpan d
  if !d.testBit 127 then d != 0
  else
    (if d.testBit 126 then bitField d 105 0 != 0 else bitField d 97 0 != 0 || bitField d 115 108 == 0)
      || sp.2 == 0
      || !((m.allocs p).any fun a =>
          !a.pool && a.baste == d.testBit 126 && decide (a.first ≤ sp.1) && decide (sp.1 + sp.2 ≤ a.first + a.count))
      || (List.range i).any fun j =>
          let e := declAt s j
          e.testBit 127 && decide ((declSpan e).1 < sp.1 + sp.2) && decide (sp.1 < (declSpan e).1 + (declSpan e).2)

/-! ### Step 8: determinism (R232, R258) -/

/-- Membership of the nondeterministic class, from the word alone (R232). -/
def nondet : Instr → Bool
  | .amerge _ | .clkrd _ | .atomXchg _ | .atomCas _ => true
  | .atomAdd w => !w.dst.isZero || w.fmt != .i32
  | .atomMin w | .atomMax w | .atomAnd w | .atomOr w => !w.dst.isZero
  | _ => false

def nondetDesc (d : RawDesc) : Bool :=
  d.en && d.ctrl 7 6 == 2 && d.ctrl 9 8 == 2 && d.ctrl 27 26 == 0 && d.ctrl 5 3 != 0

/-- A place that a value can stand in: cell and operand code. -/
abbrev Spot' := (Nat × Nat) × Nat

def outCodes (o : Opnd) : List Nat :=
  match o with
  | .voBoth => [Opnd.code (.vo 0), Opnd.code (.vo 1)].map (·.toNat)
  | .soBoth => [Opnd.code (.so 0), Opnd.code (.so 1)].map (·.toNat)
  | o => [o.code.toNat]

/-- Where values written by a word go: its destination and its predicate result. -/
def CEWord_writes (w : CEWord) : List Nat :=
  (if w.dst.isZero then [] else outCodes w.dst) ++ (if w.pset then [(Opnd.code (.p 0)).toNat + w.pdst.toNat] else [])

def CEWord_reads (i : Instr) (w : CEWord) : List Nat :=
  [w.sa, w.sb, w.sc].map (·.code.toNat) ++
    (match i with
      | .merge _ | .amerge _ => [w.in0.code.toNat, w.in1.code.toNat]
      | _ => [])

/-- Places that a guard examines the contents of: predicates in PMASK, the token of the marker test (R258). -/
def guardReads (w : CEWord) : List Nat :=
  ((List.range 8).filter w.pmask.getLsbD).map ((Opnd.code (.p 0)).toNat + ·) ++
    (let lowest (req : BitVec 4) (base : Nat) : List Nat := (((List.range 4).find? req.getLsbD).map (base + ·)).toList
     match w.mkt with
      | .none => []
      | .vector _ => lowest w.vreq (Opnd.code (.vi 0)).toNat
      | .scalar _ => lowest w.sreq (Opnd.code (.si 0)).toNat
      | .control _ => lowest w.creq (Opnd.code (.ci 0)).toNat)

def timingSource : Instr → Bool
  | .feTest _ | .ringStat _ | .tlRead _ | .pressTest _ => true
  | _ => false

/-- Words of a cell with EN = 1. -/
def Image.words (m : Image) (p : Nat × Nat) : List (Nat × Instr × CEWord) :=
  (List.range 128).filterMap fun k =>
    match decodeCE (slotWord (m.section p) k) with
    | .ok i => (i.ceParts.map fun x => (k, i, x.2))
    | .error _ => none

/-- Network and input number (R268) of an output channel's code. -/
def outPort (code : Nat) : Option (Nat × Nat) :=
  firstSome ([(0, Opnd.code (.vo 0)), (1, Opnd.code (.so 0)), (2, Opnd.code (.co 0))].map fun x =>
    if x.2.toNat ≤ code ∧ code < x.2.toNat + 2 then some (x.1, 4 + (code - x.2.toNat)) else none)

def inBase (net : Nat) : Nat :=
  match net with
  | 0 => (Opnd.code (.vi 0)).toNat
  | 1 => (Opnd.code (.si 0)).toNat
  | _ => (Opnd.code (.ci 0)).toNat

/-- Input channels that tokens entering a switch input reach, following at most `fuel` hops. -/
def Image.flow (m : Image) (net : Nat) : Nat → Nat × Nat → Nat → List Spot'
  | 0, _, _ => []
  | fuel + 1, p, inp =>
    (List.range 32).flatMap fun i =>
      let v := routeAt (m.section p) i
      let r := routeWord v
      if v.testBit 31 && r.net == net && r.inp == inp then
        ((List.range 4).filter fun b => r.out.testBit (4 + b)).map (fun b => (p, inBase net + b)) ++
          ((List.range 4).filter r.out.testBit).flatMap fun d =>
            match m.neighbour p d with
            | some q => m.flow net fuel q ((d + 2) % 4)
            | none => []
      else []

/-- One round of the trace: places that depend on a tainted place. -/
def Image.taintRound (m : Image) (t : List Spot') : List Spot' :=
  m.cells.foldl (fun t p =>
    (m.words p).foldl (fun t e =>
      if timingSource e.2.1 || (CEWord_reads e.2.1 e.2.2).any fun c => t.contains (p, c) then
        (CEWord_writes e.2.2).foldl (fun t c =>
          let new := (p, c) :: (match outPort c with
            | some (net, inp) => m.flow net (m.cells.length + 1) p inp
            | none => [])
          t ++ new.filter fun x => !t.contains x) t
      else t) t) t

def Image.taint (m : Image) : Nat → List Spot' → List Spot'
  | 0, t => t
  | n + 1, t =>
    let t' := m.taintRound t
    if t'.length = t.length then t else m.taint n t'

def Image.step8 (m : Image) : Option Reject :=
  let bad (r : Reject) : Reject := { r with code := 0x12 }
  firstSome
    [ firstSome (m.cells.map fun p => firstSome
        [ (((m.words p).find? fun e => nondet e.2.1).map fun e =>
            ({ code := 0x12, step := 8, kind := 1, index := e.1, col := p.1, row := p.2 } : Reject))
        , (firstBad (fun k => nondetDesc (descAt (m.section p) k)) 0 (List.range 4)).map fun k =>
            { code := 0x12, step := 8, kind := 3, index := k, col := p.1, row := p.2 } ])
    , (let t := m.taint (64 * m.cells.length + 1) []
       firstSome (m.cells.map fun p =>
        ((m.words p).find? fun e => (guardReads e.2.2).any fun c => t.contains (p, c)).map fun e =>
          bad { step := 8, kind := 1, index := e.1, col := p.1, row := p.2 })) ]

/-! ### The whole check (R124) -/

/-- What the check compares with: shape, revision, identifier where step 2 applies, and whether step 8 does. -/
structure Want where
  width : Nat
  height : Nat
  arith : Nat
  id : Option DWord := none
  det : Bool := false
  dies : Nat
  devlaunch : Bool := false
  deriving DecidableEq, Repr

def Image.check (m : Image) (w : Want) : Option Reject :=
  firstSome
    [ m.step1 w.width w.height w.arith
    , (match w.id with
        | some k => if m.id = k then none else some { step := 2, kind := 0 }
        | none => none)
    , m.firstIn 3 1 128 fun p i => m.wordBad p w.dies w.devlaunch i
    , m.firstIn 4 2 32 m.routeBad
    , m.firstIn 5 3 4 m.descBad
    , (m.firstIn 5 9 8 m.portBad).map fun r => { r with index := 0x9C0 + 16 + 4 * r.index }
    , (firstBad m.allocBad 0 (List.range m.nalloc)).map fun i =>
        { step := 6, kind := 4, index := i, col := bitField (m.rawAlloc i) 127 118, row := bitField (m.rawAlloc i) 117 110 }
    , (m.firstIn 7 5 8 m.declBad).map fun r =>
        { r with kind := if (declAt (m.section (r.col, r.row)) r.index).testBit 126 then 6 else 5 }
    , if w.det then m.step8 else none ]

/-! ### The cells that an image describes (R159, R265-R272) -/

def dirOf (n : Nat) : Dir :=
  match n with
  | 0 => .n
  | 1 => .e
  | 2 => .s
  | _ => .w

def portInOf (n : Nat) : PortIn :=
  if n < 4 then .dir (dirOf n) else if n < 6 then .out (if n = 4 then 0 else 1)
  else .sp (match n with | 6 => 0 | 7 => 1 | 8 => 2 | _ => 3)

def routeOutOf (b : Nat) : RouteOut :=
  if b < 4 then .dir (dirOf b) else if b < 8 then .chan (b - 4) else if b < 12 then .sp (b - 8) else .cfg (b - 12)

def routeOf (v : Nat) : Route :=
  let r := routeWord v
  { net := netOf r.net, src := portInOf r.inp
    outs := ((List.range 16).filter r.out.testBit).map routeOutOf
    entry := r.entry, exits := ((List.range 4).filter r.exit.testBit).map dirOf }

def declOf (d : Nat) : Decl :=
  if d.testBit 126 then .basting { base := bitField d 125 116, lines := bitField d 115 106 }
  else .bobbin { base := bitField d 125 116, slots := bitField d 115 108 + 1, slotLines := bitField d 107 98 }

/-- A reduction port of logical cell p: its own stream, however the entry names it, is the local one. -/
def rportOf (p : Nat × Nat) (v : Nat) : RPort :=
  { source := if v.testBit 7 ∧ (bitField v 17 8, bitField v 25 18) ≠ p then some (bitField v 17 8, bitField v 25 18) else none
    stream := bitField v 6 5, fmt := fmtOf (bitField v 4 3)
    op := match bitField v 2 1 with | 1 => .min | 2 => .max | _ => .add }

/-- The compute element at start: the registers listed are those with initial contents. -/
def sectionCe (s : List Byte) (own : Lot) : Ce :=
  { slots := (List.range 128).filterMap fun k =>
      match decodeCE (slotWord s k) with
      | .ok i => some (k, i)
      | .error _ => none
    v := ((List.range 16).filter fun k => (ctlByte s 6 2).testBit k).map fun k =>
      (k, { val := { data := BitVec.ofNat 512 (numAt s (0x1B80 + 80 * k) 64), sb := BitVec.ofNat 64 (numAt s (0x1B80 + 80 * k + 64) 8)
                     mask := BitVec.ofNat 16 (numAt s (0x1B80 + 80 * k + 72) 2), fmt := fmtOf (numAt s (0x1B80 + 80 * k + 74) 1) }
            pres := (ctlByte s 8 2).testBit k, lot := own })
    s := ((List.range 16).filter fun k => (ctlByte s 10 2).testBit k).map fun k =>
      (k, { val := BitVec.ofNat 32 (numAt s (0x2080 + 8 * k) 4), pres := (ctlByte s 12 2).testBit k, lot := own })
    p := BitVec.ofNat 8 (ctlByte s 1 1)
    w := ((List.range 4).filter fun k => (ctlByte s 3 1).testBit k).map fun k =>
      (k, { data := BitVec.ofNat 8192 (numAt s (0xA80 + 1088 * k) 1024), scales := BitVec.ofNat 512 (numAt s (0xA80 + 1088 * k + 1024) 64)
            fmt := fmtOf (ctlByte s 4 2 / 8 ^ k % 8) })
    rlmode := lotModeOf (ctlByte s 0 1 % 4) }

def sectionMe (p : Nat × Nat) (s : List Byte) (allocs : List Alloc) : Me :=
  { streams := ((List.range 4).filter fun k => (descAt s k).en).map fun k => (k, { desc := (descAt s k).desc })
    decls := ((List.range 8).filter fun i => (declAt s i).testBit 127).map fun i => (i, declOf (declAt s i))
    banks := (List.range 8).map fun b =>
      (b, { owned := !awaited s b, awaited := awaited s b
            rport := if (rportAt s b).testBit 0 then some (rportOf p (rportAt s b)) else none })
    allocs := allocs }

/-- A cell as an instance finds it, less what no image gives: the contents of lines and of other registers. -/
def Image.initCell (m : Image) (p : Nat × Nat) : Cell :=
  let s := m.section p
  { ce := sectionCe s 0, me := sectionMe p s (m.allocs p)
    sw := { routes := ((List.range 32).filter fun i => (routeAt s i).testBit 31).map fun i => routeOf (routeAt s i) } }

def Image.inits (m : Image) : List (Nat × Nat × Cell) := m.cells.map fun p => (p.1, p.2, m.initCell p)

def Image.refires (m : Image) : List (Nat × Nat × BitVec 6) :=
  (List.range m.nrefire).map fun i =>
    (bitField (m.refire i) 31 22, bitField (m.refire i) 21 14, BitVec.ofNat 6 (bitField (m.refire i) 5 0))

/-- WCS (R132): lines of allocations and pools, the parameter line, 128 for every awaited bank. -/
def wcsOf (inits : List (Nat × Nat × Cell)) : Nat :=
  let lines := (inits.map fun e => (e.2.2.me.allocs.map (·.count)).foldl (· + ·) 0
    + 128 * (e.2.2.me.banks.filter fun b => b.2.awaited).length).foldl (· + ·) 1
  4096 + 16384 * inits.length + 128 * lines

/-! ### Reading an image -/

/-- The image at an address: its bytes, or the first address that could not be read. -/
def State.readImage (s : State) (d p : Nat) (asid : Option (BitVec 16)) (va : DWord) : Except DWord Image :=
  match s.loadLong d p asid va 4 with
  | none => .error ((s.loadFails d p asid va 4).getD va)
  | some h =>
    let n := max 4 ((numAt h 0x18 8 + 63) / 64)
    match s.loadLong d p asid va n with
    | some b => .ok ⟨b.take (max 256 (numAt h 0x18 8))⟩
    | none => .error ((s.loadFails d p asid va n).getD va)

end Sys2Proof.Machine
end

