-- ==== Sys2Proof/Machine/Place.lean ====
section
/-!
DEFINITION. Where regions stand: seams between dies, defect maps, free cells, first fit and place tables
(01 R8-R21, 03 R74, 04 R91, R104, 05 R126).
-/
namespace Sys2Proof.Machine

/-! ### Seams of a region's routes -/

/-- The seams crossed by the region's routes. -/
def Region.seams (r : Region) : List Nat :=
  r.inits.flatMap fun e => e.2.2.sw.routes.flatMap (r.routeSeams e.1 e.2.1)

/-- The first cell and routing word whose route crosses a blocked seam. -/
def State.blockedRoute (s : State) (r : Region) : Option (Nat × Nat × Nat) :=
  firstSome (r.inits.map fun e =>
    (firstBad (fun w => (r.routeSeams e.1 e.2.1 w).any s.seamBlocks) 0 e.2.2.sw.routes).map fun i => (e.1, e.2.1, i))

/-! ### Lanes of a seam (R15-R17) -/

/-- The cells between which a crossing of a seam lies: west or north one first. -/
def crossingCells (n crossing : Nat) : CellId × CellId :=
  let e := seamSides n
  if n < 28 then ({ die := e.1.1, col := 95, row := crossing }, { die := e.2.1, col := 0, row := crossing })
  else ({ die := e.1.1, col := crossing, row := 47 }, { die := e.2.1, col := crossing, row := 0 })

/-- The cell that sends on a lane and the one that receives; none for an edge link. -/
def laneEnds (l : LaneId) : Option (CellId × CellId) :=
  match l.link with
  | .seam n =>
    let e := crossingCells n l.crossing
    some (if l.up then e else (e.2, e.1))
  | .edge _ _ => none

def laneNet : LaneClass → Option Net
  | .vec => some .vec
  | .scal => some .scal
  | .ctl => some .ctl
  | .dyn => none

/-- The direction in which a lane leaves its sending cell. -/
def laneDir (l : LaneId) : Dir :=
  match l.link with
  | .seam n => if n < 28 then (if l.up then .e else .w) else (if l.up then .s else .n)
  | .edge north _ => if north then .n else .s

def Dir.flip : Dir → Dir
  | .n => .s | .s => .n | .e => .w | .w => .e | .l => .l

/-! ### Rectangles (R11, R104, R126) -/

/-- A rectangle of the module fabric. -/
structure Rect where
  x : Nat
  y : Nat
  w : Nat
  h : Nat
  deriving DecidableEq, Repr

def Rect.inside (r : Rect) : Bool := decide (r.x + r.w ≤ 576) && decide (r.y + r.h ≤ 192)
def Rect.meets (a b : Rect) : Bool :=
  decide (a.x < b.x + b.w) && decide (b.x < a.x + a.w) && decide (a.y < b.y + b.h) && decide (b.y < a.y + a.h)

/-- The cells that a map covers: mapped ones and gaps. -/
def spanRect (cols rows : List Nat) : Rect :=
  { x := cols.headD 0, y := rows.headD 0
    w := cols.getLastD 0 + 1 - cols.headD 0, h := rows.getLastD 0 + 1 - rows.headD 0 }
def Region.rect (r : Region) : Rect := spanRect r.cols r.rows

/-- Dies that a rectangle touches. -/
def Rect.dies (r : Rect) : List Nat :=
  (List.range 24).filter fun d => r.meets { x := dieCx d * 96, y := dieCy d * 48, w := 96, h := 48 }

def patchRect (die p : Nat) : Rect := { x := dieCx die * 96 + p % 24 * 4, y := dieCy die * 48 + p / 24 * 4, w := 4, h := 4 }

/-- Power-gated patches of a rectangle (R9). -/
def State.asleepIn (s : State) (r : Rect) : List (Nat × Nat) :=
  (s.power.patches.filter fun e => e.2.powerGated && r.meets (patchRect e.1.1 e.1.2)).map (·.1)

/-- The dispatcher begins to wake them. -/
def Act.beginWake (ks : List (Nat × Nat)) : Act :=
  .each ks fun k => .read fun s =>
    let p := s.power.patches.get {} k
    .emit (.power { s.power with patches := s.power.patches.put k { p with waking := some (p.waking.getD s.cycle) } })

/-- The patch is marked in DEFMAP (R11, R12). -/
def State.defective (s : State) (die p : Nat) : Bool := (s.reg die (.defmap (p / 64))).getLsbD (p % 64)

/-- A patch of a rectangle is marked. -/
def State.coversDefect (s : State) (r : Rect) : Bool :=
  r.dies.any fun d => (List.range 288).any fun p => s.defective d p && r.meets (patchRect d p)

/-- The cells of a rectangle are free; `skip` is a region that may overlap. -/
def State.rectFree (s : State) (r : Rect) (skip : List Word) : Bool :=
  s.regions.all fun e => skip.contains e.1 || e.2.cols == [] || !r.meets e.2.rect

/-- A gap-free rectangle fits on permitted dies (R104). -/
def State.rectFits (s : State) (dies : List Nat) (skip : List Word) (r : Rect) : Bool :=
  r.inside && r.dies.all dies.contains && s.rectFree r skip && !s.coversDefect r

def upTo (a n : Nat) : List Nat := (List.range n).map (a + ·)

/-- First fit: on each permitted die in logical order, or over the fabric for a larger region (R104). `ok` adds what
the routes demand. -/
def State.firstFit (s : State) (dies : List Nat) (skip : List Word) (w h : Nat) (ok : Rect → Bool) : Option Rect :=
  let test (r : Rect) : Bool := s.rectFits dies skip r && ok r
  if w ≤ 96 ∧ h ≤ 48 then
    firstSome (dies.map fun d => firstSome ((List.range (49 - h)).map fun j =>
      ((List.range (97 - w)).map fun i => ({ x := dieCx d * 96 + i, y := dieCy d * 48 + j, w := w, h := h } : Rect)).find? test))
  else
    firstSome ((List.range (193 - h)).map fun j =>
      ((List.range (577 - w)).map fun i => ({ x := i, y := j, w := w, h := h } : Rect)).find? test)

/-- A gap-free map. -/
def Rect.cols (r : Rect) : List Nat := upTo r.x r.w
def Rect.rows (r : Rect) : List Nat := upTo r.y r.h

/-- Strictly rising, with at most four unmapped lines between (R126). -/
def risingBy : List Nat → Bool
  | a :: b :: r => decide (a < b) && risingBy (b :: r)
  | _ => true

def axisOk (l : List Nat) (limit : Nat) : Bool :=
  risingBy l && l != [] && decide (l.getLastD 0 < limit) && decide (l.getLastD 0 + 1 - l.headD 0 - l.length ≤ 4)

/-! ### Dies permitted to an instance (R91) -/

/-- Physical die of logical die i of a partition. -/
def State.dieAt (s : State) (p i : Nat) : Nat := s.regField (s.mapDie p) (.dmap i) 4 0

/-- Dies of a partition in logical order. -/
def State.diesInOrder (s : State) (p : Nat) : List Nat := (List.range (s.partDies p).length).map (s.dieAt p)

/-- The highest level whose domain is d. -/
def Launch.topLevel (l : Launch) (d : Nat) : Option Nat := (List.range l.levels).reverse.find? fun k => l.domain k == d

/-- Children of level `lo` below one team of level `hi`. -/
def Launch.below (l : Launch) (lo hi : Nat) : Nat :=
  (List.range (hi - lo)).foldl (fun n i => n * l.fanout (lo + 1 + i)) 1

/-- Logical dies permitted to instance n in a partition of `dies` dies (R91). -/
def Launch.logicalDies (l : Launch) (dies n : Nat) : List Nat :=
  let group (j : Nat) : Nat := bitField (l.level j) 36 32
  match l.topLevel 1, l.topLevel 2 with
  | some k, some j =>
    if k < j then
      let t := l.teamNo n k
      let per := l.below k j
      [(l.teamNo n j * group j + t % per % group j) % dies]
    else [l.teamNo n k % dies]
  | some k, none => [l.teamNo n k % dies]
  | none, some j => ((List.range (group j)).map fun i => (l.teamNo n j * group j + i) % dies)
  | none, none => List.range dies

/-- Physical dies permitted to instance n, in ascending logical order. -/
def State.permitted (s : State) (l : Launch) (n : Nat) : List Nat :=
  ((List.range 24).filter (l.logicalDies (s.partDies l.part).length n).contains).map (s.dieAt l.part)

/-- The dies on which a region may stand. -/
def State.regionDies (s : State) (r : Region) : List Nat :=
  match s.launchOf r with
  | some l => s.permitted l r.inst
  | none => s.diesInOrder ((s.partOf r.origin.die).getD 0)

/-- A place table obeys R126. -/
def State.tableOk (s : State) (h : Word) (r : Region) (cols rows : List Nat) : Bool :=
  let r' := { r with cols := cols, rows := rows }
  axisOk cols 576 && axisOk rows 192
    && r'.rect.dies.all (s.regionDies r).contains && s.rectFree r'.rect [h] && !s.coversDefect r'.rect
    && (s.blockedRoute r').isNone

end Sys2Proof.Machine
end

