-- ==== Sys2Proof/Machine/Lives.lean ====
section
/-!
DEFINITION. The life of a region's instance: lots, start, stop, resume, retirement and the freeing of its cells
(04 R92, R105, R106, R110, 05 R127-R131, R147, R148, 07 R200).
-/
namespace Sys2Proof.Machine

/-! ### Lots (R138, R200) -/

/-- n lots in a row, and the map after them. -/
def Lots.pick : Lots → Nat → Option (List Lot × Lots)
  | l, 0 => some ([], l)
  | l, n + 1 =>
    match lotFree l with
    | none => none
    | some v => (Lots.pick (l.taken v) n).map fun p => (v :: p.1, p.2)

def State.lotsOf (s : State) (die : Nat) : Lots := s.lots.get {} die

/-- So many lots of each die can be taken now. -/
def State.lotsReady (s : State) (want : List (Nat × Nat)) : Bool :=
  want.all fun w => !(s.lotsOf w.1).sweeping && ((s.lotsOf w.1).pick w.2).isSome

/-- A sweep begins on every die that runs out (R200). -/
def Act.forceSweeps (want : List (Nat × Nat)) : Act :=
  .each want fun w => .read fun s =>
    let l := s.lotsOf w.1
    .when (!l.sweeping && (l.pick w.2).isNone) (.emit (.lots w.1 { l with sweeping := true }))

def Act.takeLots (die n : Nat) : Act :=
  .read fun s =>
    match (s.lotsOf die).pick n with
    | some p => .emit (.lots die p.2)
    | none => .skip

/-- The lots that `takeLots` hands out. -/
def State.lotsTaken (s : State) (die n : Nat) : List Lot :=
  match (s.lotsOf die).pick n with
  | some p => p.1
  | none => []

def Act.endLot (die : Nat) (v : Lot) : Act := .read fun s => .emit (.lots die ((s.lotsOf die).ended v))

/-- Dies on which the region has cells. -/
def Region.dieList (r : Region) : List Nat := (r.cells.map fun p => (r.cellAt p.1 p.2).die).eraseDups

def Region.wantLots (r : Region) : List (Nat × Nat) := r.dieList.map fun d => (d, 1)

/-! ### Start (R105, R106, R127, R159) -/

/-- Contexts whose 16 slots are all empty count as halted (R303). -/
def emptyCtxs (slots : Store Nat Instr) : BitVec 8 :=
  BitVec.ofNat 8 (packElems 1 ((List.range 8).map fun k =>
    if (List.range 16).all fun j => (slots.get? (16 * k + j)).isNone then 1 else 0))

/-- Entries of `old` that `new` does not list. -/
def Store.under {V : Type} (new old : Store Nat V) : Store Nat V :=
  new ++ old.filter fun e => (new.get? e.1).isNone

/-- The compute element at start: registers with initial contents take the instance lot, the others keep what they
hold; channels and outputs are empty. -/
def startCe (init old : Ce) (own : Lot) (now : Nat) : Ce :=
  { init with
    v := Store.under (init.v.map fun e => (e.1, { e.2 with lot := own, since := now })) old.v
    s := Store.under (init.s.map fun e => (e.1, { e.2 with lot := own, since := now })) old.s
    halted := emptyCtxs init.slots }

def startCell (init old : Cell) (own : Lot) (now : Nat) : Cell :=
  { ce := startCe init.ce old.ce own now
    me := { init.me with lines := old.me.lines }
    sw := init.sw
    busy := now }

/-- The parameter line (R106, R123): written full, with the instance lot. -/
def paramLine (own : Lot) (scal : List Byte) : Line :=
  { data := BitVec.ofNat 1024 (leNat (scal.take 128)), full := true, lot := own }

/-- A held token is for the instance (R110). -/
def HeldToken.isFor (t : HeldToken) (n : Nat) (l : Launch) (inst : Nat) : Bool :=
  t.inst == inst && (match t.launch with
    | some k => k == n
    | none => t.recAddr == l.recAddr && t.vd == l.vd && t.giver != some n)

def Me.addToken (m : Me) (b : Nat) (t : BankRef) : Me := m.putBank b fun k => { k with tokens := k.tokens ++ [t] }

/-- The launch to which a given bank has gone, now that its token is delivered (R133). -/
def markGiven (ref : BankRef) (n : Nat) (r : Region) : Region :=
  { r with given := r.given.map fun g => if g.names ref then { g with launch := some n } else g }

/-- Tokens that dispatchers hold for the instance of a region are delivered (R110). -/
def Act.deliverHeld (h : Word) : Act :=
  .read fun s =>
    match s.regions.get? h with
    | none => .skip
    | some r =>
      match r.launch, s.launchOf r with
      | some n, some l =>
        .each (List.range 24) fun d => .read fun s =>
          let ts := (s.dispatchers.get {} d).tokens.filter fun t => t.isFor n l r.inst
          .when (ts != [])
            (.block
              [ .onDispatcher d fun x => { x with tokens := x.tokens.filter fun t => !t.isFor n l r.inst }
              , .each ts fun t =>
                  .block
                    [ .onCell (r.cellAt t.col t.row) fun c => { c with me := c.me.addToken t.bank t.ref }
                    , .onRegion (s.bankHandle t.ref) (markGiven t.ref n) ] ])
      | _, _ => .skip

/-- The instance starts: lots are assigned, cells set from the resident copy, the parameter line written. -/
def Act.startInstance (h : Word) (scal : List Byte) : Act :=
  .read fun s =>
    match s.regions.get? h with
    | none => .skip
    | some r =>
      let lots := r.dieList.map fun d => (d, (s.lotsTaken d 1).headD 0)
      let r' : Region :=
        { r with
          lots := lots, state := .running, fault := none, pendingFault := false, wave := [], stopAt := none
          exitAt := none, byStop := false, lastActive := s.cycle, shut := false, forceShut := false, tbars := [], imprecise := []
          given := [], due := [], stepover := false }
      .block
        [ .each r.dieList fun d => .takeLots d 1
        , .each r.inits fun e =>
            let id := r.cellAt e.1 e.2.1
            .onCell id fun c => startCell e.2.2 c (r'.lotOn id.die) s.cycle
        , .onCell r.origin fun c =>
            { c with me := c.me.putLine 1023 (paramLine (r'.lotOn r.origin.die) scal) }
        , .emit (.region h (some r'))
        , .deliverHeld h ]

/-! ### Freeing (R110, R127, R353) -/

/-- What stays in a cell when its region is freed: lines and registers with their lots. -/
def Cell.stripped (c : Cell) : Cell := { ce := { v := c.ce.v, s := c.ce.s }, me := { lines := c.me.lines }, busy := c.busy }

def Flit.voided (f : Flit) : Flit :=
  match f.load with
  | .token _ => { f with load := .void }
  | _ => f

/-- Tokens of the region on seam lanes are discarded with it. -/
def Act.voidLanes (r : Region) : Act :=
  .each r.lanes fun l => .onLane l fun v => { v with buf := v.buf.map Flit.voided }

/-- A request of a region that is gone: performed requests stay performed, what had not left or was refused ends
(R131). -/
def Req.detached (die : Nat) (r : Req) : Option Req :=
  match r.st with
  | .waiting _ | .recalled => none
  | .held code => if code = 0 then some { r with agent := .dispatcher die, region := none, ret := .none, landed := true } else none
  | _ => some { r with agent := .dispatcher die, region := none, ret := .none, landed := true }

/-- A request to a cell of a region that is gone reaches no cell (R353). -/
def Goal.without (h : Word) : Goal → Goal
  | .me k c w op => .me (if k = h then noHandle else k) c w op
  | g => g

def Act.detachReqs (h : Word) (die : Nat) : Act :=
  .read fun s => .emit (.reqs ((s.reqs.filterMap fun r => if r.region = some h then r.detached die else some r).map
    fun r => { r with goal := r.goal.without h }))

/-- The lots of a region: instance lots, and pool lots by die. -/
def State.regionLots (s : State) (r : Region) : List (Nat × Lot) :=
  r.lots ++ r.cells.flatMap fun p =>
    let id := r.cellAt p.1 p.2
    (s.cells.get {} id).me.pool.map fun a => (id.die, a.lot)

/-- One region made FREE: its lots end, its cells lose their configuration, its table entry goes. A launch's region
stays warm with its resident copy (R104, R105). -/
def Act.freeRegion (h : Word) : Act :=
  .read fun s =>
    match s.regions.get? h with
    | none => .skip
    | some r =>
      .block
        [ .each (s.regionLots r) fun p => .endLot p.1 p.2
        , .voidLanes r
        , .each r.cells fun p => .onCell (r.cellAt p.1 p.2) Cell.stripped
        , .detachReqs h r.origin.die
        , .when (r.launch.isSome && r.inits != [])
            (.onDispatcher r.origin.die fun d => { d with warm := { region := r } :: d.warm })
        , .emit (.region h none) ]

/-- The instance's hold on banks given to it ends (R110). -/
def dropGiven (n inst : Nat) (r : Region) : Region :=
  { r with given := r.given.filter fun g => !(g.launch == some n && g.inst == inst) }

/-- The launch of a region is over. -/
def State.launchOver (s : State) (r : Region) : Bool :=
  match s.launchOf r with
  | some l => l.st == .complete
  | none => r.launch.isSome

/-- RETIRED regions of completed launches whose given banks are all back are freed (R110, R127). -/
def Act.freeRetired : Act :=
  .read fun s => .each (s.regions.filter fun e => e.2.state == .retired && e.2.given == [] && s.launchOver e.2)
    fun e => .freeRegion e.1

/-- The banks taken by an instance go back to be freed. -/
def Act.dropTakings (n inst : Nat) : Act :=
  .block
    [ .read fun s => .each (s.regions.filter fun e => dropGiven n inst e.2 != e.2) fun e => .onRegion e.1 (dropGiven n inst)
    , .freeRetired ]

/-- A region freed whose instance is over. -/
def Act.endRegion (h : Word) : Act :=
  .read fun s =>
    match s.regions.get? h with
    | none => .skip
    | some r =>
      (Act.freeRegion h).seq (match r.launch with
        | some n => .dropTakings n r.inst
        | none => .freeRetired)

/-! ### Slices and their charge (R97, R98, R101, R102) -/

/-- Fabric cycles of a µs (R1). -/
def usCycles : Nat := 1600

/-- µs, rounded up, of a number of cycles. -/
def usOf (cycles : Nat) : Nat := (cycles + usCycles - 1) / usCycles

/-- µs, rounded up, to move bytes at 3.2 TB/s (R98). -/
def saveTime (bytes : Nat) : Nat := (bytes + 3199999) / 3200000

def State.vdField (s : State) (p vd hi lo : Nat) : Nat :=
  match s.leadDie p with
  | some d => s.regField d (.vdcfg vd) hi lo
  | none => 0

def State.weight (s : State) (p vd : Nat) : Nat := s.vdField p vd 31 24

/-- EQUANTUM (R98). -/
def State.equantum (s : State) (p vd : Nat) : Nat :=
  let sizes := (s.regions.filter fun e => e.2.vd == vd && s.partOf e.2.origin.die == some p && e.2.wcs != 0).map (·.2.wcs)
  let q := s.vdField p vd 47 32
  match sizes with
  | [] => q
  | _ => max q (saveTime (sizes.foldl max 0) + 20)

def Dispatcher.def_ (d : Dispatcher) (c v : Nat) : Int := d.deficit.get 0 (c, v)
def Dispatcher.setDef (d : Dispatcher) (c v : Nat) (x : Int) : Dispatcher := { d with deficit := d.deficit.put (c, v) x }

/-- The slice is over: its unused charge goes back (R102). -/
def Act.endCharge (n : Nat) : Act :=
  .read fun s =>
    match s.launches.get? n with
    | none => .skip
    | some l =>
      .when (s.weight l.part l.vd != 0)
        (.onDispatcher (s.dieAt l.part l.home) fun d =>
          d.setDef l.chargeCls l.vd (d.def_ l.chargeCls l.vd + l.charge - usOf (s.cycle - l.sliceStart)))

/-- A further slice, charged like the first (DEDUCED, log 25). -/
def Act.newSlice (n : Nat) : Act :=
  .read fun s =>
    match s.launches.get? n with
    | none => .skip
    | some l =>
      let q := s.equantum l.part l.vd
      .block
        [ .when (s.weight l.part l.vd != 0)
            (.onDispatcher (s.dieAt l.part l.home) fun d => d.setDef l.cls l.vd (d.def_ l.cls l.vd - q))
        , .onLaunch n fun l => { l with sliceStart := s.cycle, charge := q, quantum := q, chargeCls := l.cls } ]

/-- A slice that ends early gives its unused charge back (R102). -/
def Act.closeSlice (n : Nat) : Act :=
  .read fun s => .when ((s.launches.get? n).any fun l => l.st == .running) (.endCharge n)

/-! ### Launches of regions (R92, R121) -/

def stDone : Nat := 0x00
def stSeamFailed : Nat := 0x0D
def stLoadReject : Nat := 0x11
def stNondet : Nat := 0x12
def stPoison : Nat := 0x14
def stKilled : Nat := 0x80
def stShut : Nat := 0x81
def stRejected : Nat := 0x82
def stFeatures : Nat := 0x83
def stCancelled : Nat := 0x84
def stQueueFull : Nat := 0x85

/-- The launch goes to COMPLETING with a status. -/
def Launch.finish (l : Launch) (status : Nat) : Launch :=
  if l.st = .complete then l
  else { l with st := .completing, ending := some (l.ending.getD status), switch := none, killAfter := false, suspendAfter := false }

/-- Every region of the launch ends, and so do its subtrees on other modules and its saved contexts; it completes with the status (R112, R121). -/
def Act.endLaunch (n status : Nat) : Act :=
  .read fun s =>
    match s.launches.get? n with
    | none => .skip
    | some l =>
      .block
        [ .closeSlice n
        , .each l.outside fun m => .toModule l.part m (.killed m (s.moduleNo (s.mapDie l.part)) n status)
        , .each (s.regions.filter fun e => e.2.launch == some n && e.2.state != .retired) fun e => .endRegion e.1
        , .each l.insts fun i => .emit (.save n i.n none)
        , .onLaunch n fun l => l.finish status ]

/-- An open switch brings the launch in (R113). -/
def State.isIncoming (s : State) (n : Nat) : Bool :=
  s.launches.any fun e => e.2.st == .switching && e.2.switch.any fun w => w.incoming.contains n

/-- KILL of a launch; while a switch that involves it is open, after the switch (R112, R117). -/
def Act.killLaunch (n status : Nat) : Act :=
  .read fun s =>
    match s.launches.get? n with
    | none => .skip
    | some l =>
      if l.st = .switching ∨ s.isIncoming n then .onLaunch n fun l => { l with killAfter := true, ending := some (l.ending.getD status) }
      else .endLaunch n status

/-! ### Retirement (R92, R140, R304) -/

/-- The records of the imprecise faults of a region (R140). -/
def Act.reportImprecise (h : Word) : Act :=
  .read fun s =>
    match s.regions.get? h with
    | none => .skip
    | some r =>
      (Act.each r.imprecise fun f => .record h f (s.policyOf r 2)).seq (.onRegion h fun r => { r with imprecise := [] })

/-- Every instance of the launch that runs has retired, and no subtree runs on another module. -/
def Launch.allRetired (l : Launch) : Bool := l.insts.all (·.retired) && l.outside == []

def retireInst (inst : Nat) (l : Launch) : Launch :=
  { l with insts := l.insts.map fun i => if i.n = inst then { i with retired := true } else i }

/-- The instance of a region retires; with the last one the launch completes (R92, R121). A class policy of SHUT for
imprecise faults that are reported here makes the status SHUT, KILL ends the launch (R145). -/
def Act.retire (h : Word) : Act :=
  .read fun s =>
    match s.regions.get? h with
    | none => .skip
    | some r =>
      let pol := s.policyOf r 2
      let shut := r.imprecise != [] && pol == polShut
      let kill := r.imprecise != [] && pol == polKill
      .block
        [ .reportImprecise h
        , .voidLanes r
        , .onRegion h fun r => { r with state := .retired, stopAt := none, exitAt := none, wave := [] }
        , .endDrains h rsRetired
        , match r.launch with
          | none => .skip
          | some n =>
            .block
              [ .onLaunch n fun l => let l := retireInst r.inst l; { l with shut := l.shut || shut }
              , .dropTakings n r.inst
              , .when kill (.killLaunch n stKilled)
              , .read fun s =>
                  match s.launches.get? n with
                  | none => .skip
                  | some l =>
                    .when (!kill && l.allRetired && l.st != .completing && l.st != .complete && l.st != .freezing)
                      ((Act.closeSlice n).seq (.onLaunch n fun l => l.finish (if l.shut then stShut else stDone))) ] ]

/-! ### Allocation and loading (R125, R126) -/

/-- Index of a free entry of a die's region table (R125). -/
def State.freeEntry (s : State) (die : Nat) : Option Word :=
  (List.range Config.regionEntries).findSome? fun i =>
    let w := BitVec.ofNat 32 (die * 2 ^ 24 + i)
    if (s.regions.get? w).isNone then some w else none

/-- Resident copies that a rectangle covers are discarded (R105). -/
def Act.dropWarm (q : Rect) : Act :=
  .read fun s => .each s.dispatchers fun e =>
    .when (e.2.warm.any fun w => q.meets w.region.rect)
      (.onDispatcher e.1 fun d => { d with warm := d.warm.filter fun w => !q.meets w.region.rect })

/-- A region made ALLOCATED on a rectangle. -/
def Act.allocate (w : Word) (r : Region) (q : Rect) : Act :=
  (Act.dropWarm q).seq
    (.emit (.region w (some { r with state := .allocated, width := q.w, height := q.h, cols := q.cols, rows := q.rows })))

/-- The handle of a region that leaves its launch's instance without cells. -/
def Act.unplace (w : Word) (r : Region) : Act :=
  match r.launch with
  | none => .skip
  | some n => .onLaunch n fun l =>
      { l with insts := l.insts.map fun i => if i.handle = some w then { i with handle := none } else i }

/-- A region loaded with an image (R127). -/
def loadedWith (m : Image) (va : DWord) (r : Region) : Region :=
  let cs := m.inits
  { r with
    state := .loaded, imageId := m.id, imageAddr := va, dztrap := m.dztrap, det := m.step8.isNone, refire := m.refires
    cells := cs.map fun e => (e.1, e.2.1), inits := cs, wcs := wcsOf cs }

/-- The record of a refused image (R124, R274). -/
def rejectRec (j : Reject) : FaultRec :=
  { code := j.code, cls := 4, cell := some (j.col, j.row)
    aux := BitVec.ofNat 64 (j.kind + j.index % 2 ^ 16 * 2 ^ 8 + j.step * 2 ^ 24) }

/-- The refusal for a route across a closed or failed seam (R74, R126). -/
def seamReject (t : Nat × Nat × Nat) : Reject := { code := 0x11, step := 4, kind := 2, index := t.2.2, col := t.1, row := t.2.1 }

/-- A record for the default queue about a region without a launch. -/
def Act.regionDefault (w : Word) (r : Region) (f : FaultRec) (policy : Nat) : Act :=
  .read fun s =>
    let p := (s.partOf r.origin.die).getD 31
    let o := s.defaultOffer p (recordBytes { vd := r.vd, handle := s.archHandle w } f policy (s.partCycle p))
    o.1.seq (.when o.2 (.faultIrq r.origin.die))

/-! ### Stop and resume (R127, R129, R148) -/

/-- The region stops: no new requests from the cycles of R129 on. -/
def Act.stop (h : Word) (byHart : Bool) : Act :=
  .read fun s => .onRegion h fun r => { r with state := .stopping, stopAt := some s.cycle, byStop := r.byStop || byHart }

/-- Codes whose firing STEPOVER performs with the fault suppressed (R148). -/
def stepoverCode (c : Nat) : Bool := c == fTrap || c == fBreak || c == fDivZero || c == fLotStale

/-- A replay entry goes out again. -/
def Act.reissue (id : Nat) : Act :=
  .read fun s =>
    match s.reqs.find? fun r => r.id == id with
    | none => .skip
    | some r =>
      match agentCell r.agent with
      | none => .skip
      | some c => .sendAgain c ((s.partOf c.die).getD 0) r

/-- A replay entry that a resume issues again. -/
def Req.replays (r : Req) : Bool :=
  match r.st with
  | .recalled => true
  | .held code => code != 0
  | _ => false

/-- Held streams take up their elements again (R146). -/
def Cell.unheld (c : Cell) : Cell :=
  { c with me := { c.me with streams := c.me.streams.map fun e => (e.1, { e.2 with held := none }) } }

/-- FROZEN to RUNNING: replay entries are issued, and with STEPOVER the faulting firing goes on first. -/
def Act.resume (h : Word) (step : Bool) : Act :=
  .read fun s =>
    match s.regions.get? h with
    | none => .skip
    | some r =>
      let onReq := if step then r.fault.bind (·.req) else none
      let ids := (s.reqs.filter fun q => q.region == some h && q.replays).map (·.id)
      .block
        [ .onRegion h fun r =>
            { r with
              state := .running, wave := [], stopAt := none, byStop := false, pendingFault := false, due := []
              lastActive := s.cycle, stepover := step && onReq.isNone
              fault := if step && onReq.isNone then r.fault else none }
        , .each r.cells fun p => .onCell (r.cellAt p.1 p.2) Cell.unheld
        , .each ids fun i => (Act.when (onReq == some i) (.onReq i fun q => { q with stepZ := true })).seq (.reissue i)
        , .deliverHeld h
        , .releaseWaiting
        , match r.launch with
          | none => .skip
          | some n => .read fun s =>
              .when (s.regions.all fun e => e.2.launch != some n || e.2.state != .frozen)
                (.when ((s.launches.get? n).any fun l => l.st == .suspended)
                  ((Act.onLaunch n fun l => { l with st := if l.seamAt.isSome then .freezing else .running }).seq
                    (.newSlice n))) ]

/-! ### SHUT of a whole instance (R127, R147) -/

/-- The contexts of the faulting firing replaced as under SHUT. -/
def Act.shutFaulted (h : Word) : Act :=
  .read fun s =>
    match s.regions.get? h with
    | none => .skip
    | some r =>
      match r.fault, r.fault.bind (·.cell) with
      | some f, some (col, row) =>
        let id := r.cellAt col row
        (match (s.cells.get {} id).ce.slots.get? f.slot with
          | some i =>
            (match i.ceParts with
              | some (_, w) =>
                .when (f.stream.isNone && f.req.isNone && r.pendingFault)
                  (.onCell id fun c => { c with ce := c.ce.shutFiring w s.cycle })
              | none => .skip)
          | none => .skip)
      | _, _ => .skip

/-- `rg.shut` on an instance: bobbins closed, SHUT noted, a firing that a fault froze replaced; a FROZEN region runs
again. -/
def Act.shutRegion (h : Word) : Act :=
  .read fun s =>
    match s.regions.get? h with
    | none => .skip
    | some r =>
      .block
        [ .closeBobbins h, .markShut h, .onRegion h fun r => { r with forceShut := true }
        , if r.state = .frozen then (Act.shutFaulted h).seq (.resume h false) else .skip ]

end Sys2Proof.Machine
end

