-- ==== Sys2Proof/Machine/Context.lean ====
section
/-!
DEFINITION. Region context images: what a frozen region's context holds, its size and bytes, and its restoration
(05 R130, R132-R138, 10 R275).
-/
namespace Sys2Proof.Machine

/-! ### What is saved (R130, R133) -/

/-- The lot of a line is in the lot map: the instance lot of its die, or a live `lot.new` lot of its cell. -/
def Cell.knows (c : Cell) (own v : Lot) : Bool := v != 0 && (v == own || c.me.pool.any fun p => p.lot == v)

/-- The line lies in an allocation, a pool, or is the parameter line. -/
def Cell.allocated (c : Cell) (origin : Bool) (line : Nat) : Bool :=
  (c.me.allocs.any fun a => covers a.first a.count line) || (origin && line == 1023)

/-- DATA lines of a cell. -/
def Cell.dataLines (c : Cell) (origin : Bool) (own : Lot) : List (Nat × Line) :=
  (List.range 1024).filterMap fun n =>
    let l := c.me.line n
    if c.allocated origin n && c.knows own l.lot then some (n, l) else none

/-- Tokens that a cell has sent over a seam and that have not arrived, put back into its outputs (R136). -/
def withLaneTokens (s : State) (r : Region) (col row : Nat) (c : Cell) : Cell :=
  ([Net.vec, .scal, .ctl].flatMap fun n => [Dir.n, .e, .s, .w].map fun d => (n, d)).foldl (fun c k =>
    match r.laneOut col row k.1 k.2 with
    | none => c
    | some l =>
      let ts := ((s.lanes.get {} l).coming l.link).filterMap fun f => match f.load with
        | .token t => some t
        | _ => none
      if ts = [] then c else { c with sw := { c.sw with bufs := c.sw.bufs.put k (ts ++ c.sw.bufs.get [] k) } }) c

/-- A cell as the context holds it: of its lines the DATA ones, of its registers those with its own lots. -/
def Cell.captured (c : Cell) (origin : Bool) (own : Lot) : Cell :=
  { c with
    me := { c.me with lines := c.dataLines origin own }
    ce := { c.ce with
            v := c.ce.v.filter fun e => c.knows own e.2.lot
            s := c.ce.s.filter fun e => c.knows own e.2.lot } }

/-- Lines of banks that the cell has bound (R365). -/
def State.takenLines (s : State) (r : Region) : List (Nat × Nat × Nat × Nat × Line) :=
  r.cells.flatMap fun p =>
    let c := s.cells.get {} (r.cellAt p.1 p.2)
    c.me.banks.flatMap fun b =>
      match b.2.owned, b.2.bound with
      | true, some ref =>
        (match s.regions.get? (s.bankHandle ref) with
          | none => []
          | some g =>
            let m := (s.cells.get {} (g.cellAt ref.col ref.row)).me
            (List.range 128).filterMap fun k =>
              let l := m.line (128 * ref.bank + k)
              if l.lot != 0 && l.lot == s.bankLot ref then some (p.1, p.2, b.1, k, l) else none)
      | _, _ => []

/-- Requests that the context takes along: replay entries, and stores that a side log still holds. -/
def Req.saved (r : Req) : Bool :=
  match r.st with
  | .recalled | .waiting _ | .logged => true
  | .held code => code != 0
  | _ => false

def State.snapshot (s : State) (h : Word) (r : Region) : Snapshot :=
  { region := r, handle := h
    cells := r.cells.map fun p =>
      let id := r.cellAt p.1 p.2
      (p.1, p.2, (withLaneTokens s r p.1 p.2 (s.cells.get {} id)).captured (p.1 == 0 && p.2 == 0) (r.lotOn id.die))
    reqs := s.reqs.filter fun q => q.region == some h && q.saved
    taken := s.takenLines r }

/-- DATA lines of the context. -/
def Snapshot.ndata (x : Snapshot) : Nat := (x.cells.map fun e => e.2.2.me.lines.length).foldl (· + ·) x.taken.length

/-- Size of the context (R130, R133). -/
def Snapshot.size (x : Snapshot) : Nat := 4096 + 16384 * x.cells.length + 128 * x.ndata

/-! ### The bytes (R275) -/

/-- Replay entries of a region: requests and held streams. -/
def State.replayCount (s : State) (h : Word) (r : Region) : Nat :=
  (s.reqs.filter fun q => q.region == some h && q.replays).length
    + (r.cells.map fun p =>
        ((s.cells.get {} (r.cellAt p.1 p.2)).me.streams.filter fun e => e.2.held.isSome).length).foldl (· + ·) 0

def lotMapEntry (idx alloc kind die : Nat) (v : Lot) : Nat :=
  2 ^ 63 + idx * 2 ^ 34 + alloc * 2 ^ 18 + kind * 2 ^ 17 + die * 2 ^ 12 + v.toNat

/-- By the cycle of their `lot.new`, oldest first. -/
def insertPool (x : Nat × Nat × PoolAlloc) : List (Nat × Nat × PoolAlloc) → List (Nat × Nat × PoolAlloc)
  | [] => [x]
  | y :: r => if x.2.2.born < y.2.2.born then x :: y :: r else y :: insertPool x r

/-- Pool allocations of a context: declaration number, die, allocation. -/
def Snapshot.pools (x : Snapshot) : List (Nat × Nat × PoolAlloc) :=
  (x.cells.flatMap fun e =>
    e.2.2.me.pool.reverse.map fun p =>
      (((e.2.2.me.allocs.find? fun a => a.pool && covers a.first a.count p.first).map (·.index)).getD 0
      , (x.region.cellAt e.1 e.2.1).die, p)).foldl (fun l p => insertPool p l) []

/-- The lot map: instance lots, then `lot.new` lots in allocation order. -/
def State.lotMap (s : State) (x : Snapshot) : List Nat :=
  x.region.lots.map (fun p => lotMapEntry 0 0 0 (s.logicalOf p.1) p.2)
    ++ x.pools.map fun p => lotMapEntry p.2.2.idx p.1 1 (s.logicalOf p.2.1) p.2.2.lot

def padTo (n : Nat) (l : List Byte) : List Byte := l ++ List.replicate (n - l.length) 0

/-- Banks that the image marks AWAITED and that the region does not own. -/
def Snapshot.awaiting (x : Snapshot) : Nat :=
  (x.cells.map fun e => (e.2.2.me.banks.filter fun b => b.2.awaited && !b.2.owned).length).foldl (· + ·) 0

/-- The header up to the tag. -/
def State.rciHeader (s : State) (p arith : Nat) (x : Snapshot) : List Byte :=
  let r := x.region
  let f := r.fault.getD { code := 0, cls := 0 }
  let map := (s.lotMap x).flatMap (leBytes 8)
  let cell := match f.cell with
    | some (c, w) => c * 2 ^ 16 + w
    | none => 0
  let tb (k : Nat) : List Byte :=
    let t := r.tbars.get {} k
    leBytes 8 (t.epoch % 2 ^ 32 + (if t.arrived then 2 ^ 32 else 0))
  padTo 0xFF0
    (leBytes 4 0x5A475243 ++ leBytes 2 1 ++ leBytes 2 0 ++ leBytes 8 r.imageId.toNat ++ leBytes 2 r.width
      ++ leBytes 2 r.height ++ leBytes 4 x.cells.length ++ leBytes 8 x.size
      ++ leBytes 8 (match r.launch with
        | some n => (Config.storeAddr p n).toNat
        | none => 0)
      ++ leBytes 4 r.inst ++ leBytes 2 r.vd ++ leBytes 1 arith ++ leBytes 1 p ++ leBytes 4 x.ndata
      ++ leBytes 1 (s.lotMap x).length ++ leBytes 1 (if r.fault.isSome then 1 else 0) ++ leBytes 1 f.code
      ++ leBytes 1 f.slot ++ leBytes 4 cell ++ leBytes 4 0
      ++ padTo 512 (map.take 512)
      ++ leBytes 8 r.given.length ++ leBytes 8 x.awaiting
      ++ (List.range 8).flatMap tb
      ++ padTo 256 (map.drop 512))

/-- The integrity tag over what lies before it and behind it, its own field taken as 0 (R135). -/
def rciTag (p epoch : Nat) (before behind : List Byte) : List Byte :=
  (leBytes 32 (hmacSha256 (Config.rciKey p epoch) (before ++ List.replicate 16 0 ++ behind)).toNat).take 16

/-- The DATA lines in cell order and then in line order (R133); those of a bound bank stand at its lines. -/
def Snapshot.lineBytes (x : Snapshot) : List Byte :=
  x.cells.flatMap fun e => (List.range 1024).flatMap fun n =>
    (((e.2.2.me.lines.filter fun l => l.1 == n).map (·.2))
      ++ (x.taken.filter fun t => t.1 == e.1 && t.2.1 == e.2.1 && 128 * t.2.2.1 + t.2.2.2.1 == n).map (·.2.2.2.2)).flatMap
        fun l => leBytes 128 l.data.toNat

/-- The whole image: the layout of the cell records is the device's own (log 6). -/
def State.rciBytes (s : State) (number p arith : Nat) (x : Snapshot) : List Byte :=
  let before := s.rciHeader p arith x
  let behind := (List.range (16384 * x.cells.length)).map (Config.freeByte number) ++ x.lineBytes
  before ++ rciTag p (s.epochs.get 0 p) before behind ++ behind

/-- The bytes of an image pass the check of `rg.restore`: magic, version, size, tag (R135). -/
def rciOk (p epoch : Nat) (b : List Byte) : Bool :=
  recNat b 0 4 == 0x5A475243 && recNat b 4 2 == 1 && recNat b 0x18 8 == b.length
    && (b.drop 0xFF0).take 16 == rciTag p epoch (b.take 0xFF0) (b.drop 0x1000)

/-- The size that a header gives the image, when it is that of its cells and lines (R133, R275). -/
def rciSize (hd : List Byte) : Option Nat :=
  let n := 4096 + 16384 * recNat hd 0x14 4 + 128 * recNat hd 0x30 4
  if recNat hd 0x18 8 = n then some n else none

/-- The active arithmetic revision, one-hot (R64, R65). -/
def State.arith (s : State) : Nat := (s.feat.active.extractLsb' 0 4).toNat

/-! ### Restore (R136-R138) -/

/-- Numbers of requests changed wherever a cell keeps them. -/
def Wait.renum (f : Nat → Nat) : Wait → Wait
  | .fence l => .fence (l.map f)
  | .sbar m l => .sbar m (l.map f)
  | .timeline n => .timeline (f n)
  | .tbar k e => .tbar k e

def OutEnt.renum (f : Nat → Nat) : OutEnt → OutEnt
  | .reserved n => .reserved (f n)
  | x => x

def outsRenum (f : Nat → Nat) (q : Store Nat (List OutEnt)) : Store Nat (List OutEnt) :=
  q.map fun e => (e.1, e.2.map (OutEnt.renum f))

def Decl.renum (f : Nat → Nat) : Decl → Decl
  | .bobbin b => .bobbin { b with held := b.held.map fun e => (e.1, e.2.map f) }
  | .basting b => .basting { b with due := b.due.map fun d => { d with id := f d.id, reqs := d.reqs.map f } }

def Cell.renum (f : Nat → Nat) (c : Cell) : Cell :=
  { c with
    ce := { c.ce with
            vo := outsRenum f c.ce.vo, so := outsRenum f c.ce.so, co := outsRenum f c.ce.co
            waits := c.ce.waits.map fun e => (e.1, e.2.map (Wait.renum f)) }
    me := { c.me with
            streams := c.me.streams.map fun e => (e.1, { e.2 with outq := e.2.outq.map (OutEnt.renum f) })
            decls := c.me.decls.map fun e => (e.1, e.2.renum f)
            later := c.me.later.map fun l => { l with id := f l.id, reqs := l.reqs.map f } } }

def Region.renum (f : Nat → Nat) (r : Region) : Region :=
  { r with
    fault := r.fault.map fun x => { x with req := x.req.map f }
    tbars := r.tbars.map fun e => (e.1, { e.2 with due := e.2.due.map fun l => l.map f }) }

/-- Numbers of accesses that a context keeps: its requests that no side log holds, and deferred accesses. -/
def Snapshot.ids (x : Snapshot) : List Nat :=
  (x.reqs.filter fun q => q.st != .logged).map (·.id)
    ++ x.cells.flatMap fun e =>
        e.2.2.me.later.map (·.id) ++ e.2.2.me.decls.flatMap fun d => match d.2 with
          | .basting b => b.due.map (·.id)
          | .bobbin _ => []

/-- The new lots of a restored region: of each die the instance lot, and of each cell its pool lots in order. -/
structure NewLots where
  inst : List (Nat × Lot)
  pool : List ((Nat × Nat) × List Lot)
  deriving DecidableEq, Repr

def zipLots : List PoolAlloc → List Lot → List (Lot × Lot)
  | p :: ps, v :: vs => (p.lot, v) :: zipLots ps vs
  | _, _ => []

/-- The lot that takes the place of a saved one; 0 for a lot outside the lot map. -/
def relot (oldOwn newOwn : Lot) (pools : List (Lot × Lot)) (v : Lot) : Lot :=
  if v = 0 then 0
  else if v = oldOwn then newOwn
  else match pools.find? fun p => p.1 == v with
    | some p => p.2
    | none => 0

/-- A standalone region's own banks follow it to its new handle. -/
def BankRef.moved (old new : Word) (f : Lot → Lot) (b : BankRef) : BankRef :=
  if b.giver.isNone && b.handle == old then { b with handle := new, lot := f b.lot } else b

def Later.moved (old new : Word) (f : Lot → Lot) (l : Later) : Later :=
  match l.op with
  | .give b c w i n ref => { l with op := .give b c w i n (ref.moved old new f) }
  | .feSet _ => l

/-- A saved bank, the giver of which may be gone: its lines are then in the taker's own bank (log 6). -/
def State.rebound (s : State) (old new : Word) (f : Lot → Lot) (b : Bank) : Bank :=
  let b' := { b with tokens := b.tokens.map (BankRef.moved old new f), bound := b.bound.map (BankRef.moved old new f) }
  match b'.bound with
  | some ref => if ref.handle = new ∨ (s.regions.get? (s.bankHandle ref)).isSome then b' else { b' with bound := none }
  | none => b'

/-- The restored lines over those that stand in the cell: allocated lines that are not DATA become null (R136). -/
def restoredLines (c : Cell) (origin : Bool) (saved : List (Nat × Line)) (old : Store Nat Line) : Store Nat Line :=
  let data := saved.filter fun e => e.1 < 1024
  data ++ old.filter fun e => !c.allocated origin e.1 && data.all fun d => d.1 != e.1

/-- Registers: those saved, and null for the rest. -/
def Ce.relotted (c : Ce) (f : Lot → Lot) : Ce :=
  { c with v := c.v.map fun e => (e.1, { e.2 with lot := f e.2.lot }), s := c.s.map fun e => (e.1, { e.2 with lot := f e.2.lot }) }

/-- Lines of a bound bank whose giver is gone. -/
def Snapshot.orphans (x : Snapshot) (s : State) (new : Word) (col row : Nat) (c : Cell) (own : Lot) : List (Nat × Line) :=
  (x.taken.filter fun t => t.1 == col && t.2.1 == row).filterMap fun t =>
    let b := t.2.2.1
    match (c.me.bank b).bound with
    | some ref =>
      if ref.handle = new ∨ (s.regions.get? (s.bankHandle ref)).isSome then none
      else some (128 * b + t.2.2.2.1, { t.2.2.2.2 with lot := own })
    | none => none

/-- One cell of a restored context. -/
def restoreCell (s : State) (x : Snapshot) (new : Word) (r : Region) (lots : NewLots) (num : Nat → Nat)
    (e : Nat × Nat × Cell) (old : Cell) : Cell :=
  let die := (r.cellAt e.1 e.2.1).die
  let newOwn := ((lots.inst.find? fun p => p.1 == die).map (·.2)).getD 0
  let oldOwn := x.region.lotOn (x.region.cellAt e.1 e.2.1).die
  let pools := zipLots e.2.2.me.pool (((lots.pool.find? fun p => p.1 == (e.1, e.2.1)).map (·.2)).getD [])
  let f := relot oldOwn newOwn pools
  let c := e.2.2.renum num
  let origin := e.1 == 0 && e.2.1 == 0
  let saved := c.me.lines.map (fun l => (l.1, { l.2 with lot := f l.2.lot })) ++ x.orphans s new e.1 e.2.1 c newOwn
  { c with
    ce := c.ce.relotted f
    me := { c.me with
            lines := restoredLines c origin saved old.me.lines
            pool := c.me.pool.map fun p => { p with lot := f p.lot }
            later := c.me.later.map (Later.moved x.handle new f)
            banks := c.me.banks.map fun b => (b.1, s.rebound x.handle new f b.2) }
    busy := s.cycle }

/-- The logical place of an agent's cell carried over to the new place. -/
def moveAgent (x : Snapshot) (r : Region) (a : Agent) : Agent :=
  let go (c : CellId) : CellId :=
    match x.region.place c with
    | some q => r.cellAt q.1 q.2
    | none => c
  match a with
  | .ctx c k => .ctx (go c) k
  | .stream c k => .stream (go c) k
  | y => y

/-- A replay entry of the restored region: it is issued when the region runs again. -/
def restoreReq (x : Snapshot) (new : Word) (r : Region) (num : Nat → Nat) (q : Req) : Req :=
  { q with
    id := num q.id, agent := moveAgent x r q.agent, region := some new, launch := r.launch
    goal := (match q.goal with
      | .me h c w op => .me (if h = x.handle then new else h) c w op
      | g => g)
    st := (match q.st with
      | .waiting l => .waiting (l.map num)
      | y => y) }

/-- Barrier states brought up to the releases that the launch's teams saw meanwhile (R308, R309). -/
def syncTbars (l : Launch) (inst : Nat) (t : Store Nat TbarState) : Store Nat TbarState :=
  t.map fun e =>
    let ep := l.released.get 0 (e.1, l.teamNo inst e.1)
    (e.1, if e.2.epoch < ep then { epoch := ep } else e.2)

/-- Lots that a context needs on each die of the region's place (R136). -/
def Snapshot.wants (x : Snapshot) (r : Region) : List (Nat × Nat) :=
  r.dieList.map fun d =>
    (d, 1 + ((x.cells.filter fun e => (r.cellAt e.1 e.2.1).die == d).map fun e => e.2.2.me.pool.length).foldl (· + ·) 0)

/-- The lots of a die dealt out: the instance lot, then each cell's pool lots. -/
def dealLots (x : Snapshot) (r : Region) (die : Nat) : List Lot → List ((Nat × Nat) × List Lot)
  | l => ((x.cells.filter fun e => (r.cellAt e.1 e.2.1).die == die).foldl
      (fun a e => (a.1 ++ [((e.1, e.2.1), a.2.take e.2.2.me.pool.length)], a.2.drop e.2.2.me.pool.length))
      (([] : List ((Nat × Nat) × List Lot)), l)).1

def State.newLots (s : State) (x : Snapshot) (r : Region) : NewLots :=
  let per := (x.wants r).map fun w => (w.1, s.lotsTaken w.1 w.2)
  { inst := per.map fun e => (e.1, e.2.headD 0)
    pool := per.flatMap fun e => dealLots x r e.1 e.2.tail }

/-- A context restored into an ALLOCATED region: FROZEN, under the launch of the context while that is not over
(R136, R388). Its stores in side logs belong to it again. -/
def Act.restoreInto (h : Word) (x : Snapshot) : Act :=
  .read fun s =>
    match s.regions.get? h with
    | none => .skip
    | some r0 =>
      let launch := match x.region.launch with
        | some n => (match s.launches.get? n with
          | some l => if l.st = .complete then none else some n
          | none => none)
        | none => none
      let own := x.reqs.filter fun q => q.st != .logged
      let base := s.nextId
      let num (i : Nat) : Nat := if x.ids.contains i then base + i else i
      let saved := x.region.renum num
      let r : Region :=
        { saved with
          exitAt := x.region.exitAt.map fun e =>
            ((match x.region.place e.1 with
              | some q => { x.region with cols := r0.cols, rows := r0.rows }.cellAt q.1 q.2
              | none => e.1), e.2)
          uid := r0.uid, cols := r0.cols, rows := r0.rows, launch := launch, state := .frozen, lastSize := 0
          tbars := (match launch.bind s.launches.get? with
            | some l => syncTbars l x.region.inst saved.tbars
            | none => saved.tbars)
          lots := (s.newLots x { x.region with cols := r0.cols, rows := r0.rows }).inst }
      let lots := s.newLots x r
      let back := x.reqs.filter fun q => q.st == .logged
      .block
        [ .emit (.nextId (2 * base))
        , .each (x.wants r) fun w => .takeLots w.1 w.2
        , .each x.cells fun e => .onCell (r.cellAt e.1 e.2.1) (restoreCell s x h r lots num e)
        , .emit (.region h (some r))
        , .read fun s => .emit (.reqs ((s.reqs.map fun q =>
            match back.find? fun b => b.id == q.id, q.agent with
            | some b, .dispatcher _ => { q with agent := moveAgent x r b.agent, region := some h }
            | _, _ => q) ++ own.map (restoreReq x h r num)))
        , match launch with
          | some n => .onLaunch n fun l =>
              { l with insts := l.insts.map fun i => if i.n = r.inst then { i with handle := some h } else i }
          | none => .skip ]

end Sys2Proof.Machine
end

