-- ==== Sys2Proof/Machine/Sched.lean ====
section
/-!
DEFINITION. Launches and the dispatchers: the checks of a record, completion records, virtual devices, selection,
placement, start and the gang switch (04 R83-R118).
-/
namespace Sys2Proof.Machine

/-! ### Record fields (R85-R87) -/

def Launch.field (l : Launch) (off n : Nat) : Nat := recNat l.copy off n
def Launch.queue (l : Launch) : Nat := l.field 0x003 1 % 8
def Launch.nscal (l : Launch) : Nat := l.field 0x00B 1
def Launch.image (l : Launch) : DWord := BitVec.ofNat 64 (l.field 0x010 8)
def Launch.imageId (l : Launch) : DWord := BitVec.ofNat 64 (l.field 0x018 8)
def Launch.comptl (l : Launch) : Nat := l.field 0x038 8
def Launch.wait (l : Launch) (i : Nat) : Nat × DWord := (l.field (0x040 + 16 * i) 2, BitVec.ofNat 64 (l.field (0x048 + 16 * i) 8))
def Launch.next (l : Launch) : DWord := BitVec.ofNat 64 (l.field 0x090 8)
def Launch.width (l : Launch) : Nat := bitField (l.level 0) 63 54
def Launch.height (l : Launch) : Nat := bitField (l.level 0) 53 46
def Launch.ageBound (l : Launch) : Nat := if l.field 0x00C 4 = 0 then 10000 else l.field 0x00C 4

def flagDet : Nat := 0
def flagReentrant : Nat := 1
def flagDebug : Nat := 3
def flagIrq : Nat := 4

/-- Bytes [lo, hi) of the record are 0. -/
def Launch.zero (l : Launch) (lo hi : Nat) : Bool := ((l.copy.drop lo).take (hi - lo)).all (· == 0)

/-- A TLID that R85 admits: V with a die of the partition, or 0. -/
def tlidOk (dies t : Nat) : Bool := if t.testBit 15 then t % 8 == 0 && decide (bitField t 14 10 < dies) else t == 0

/-- The queue descriptor that FAULTQ names (R143). -/
def State.faultqOk (s : State) (p : Nat) (asid : Option (BitVec 16)) (q : DWord) : Bool :=
  q == 0 || (aligned q.toNat 64 &&
    (match s.loadVa (s.mapDie p) p asid q 64 with
      | some d => (List.range 13).any fun k => recNat d 0x08 4 == 2 ^ (k + 4)
      | none => false))

/-- Step 2 of R93 for a record that was copied. -/
def State.recordOk (s : State) (l : Launch) : Bool :=
  let n := (s.partDies l.part).length
  aligned l.reply.toNat 128
    && l.field 0x000 2 == 1 && decide (1 ≤ l.levels) && decide (l.levels ≤ 8) && decide (l.nscal ≤ 32)
    && decide (l.field 0x002 1 < 16) && decide (l.field 0x003 1 < 8) && decide (l.field 0x004 4 < 32)
    && decide (l.field 0x028 1 < 64) && l.policy 0 != polMap && l.policy 2 != polMap
    && l.zero 0x029 0x030 && l.zero 0x098 0x100 && l.zero 0x140 0x200 && l.zero 0x280 0x400
    && l.zero (0x100 + 8 * l.levels) 0x140 && l.zero (0x200 + 4 * l.nscal) 0x280
    && ((List.range 4).all fun i => l.zero (0x042 + 16 * i) (0x048 + 16 * i) && tlidOk n (l.wait i).1)
    && decide (l.comptl < 2 ^ 48) && tlidOk n (l.comptl % 2 ^ 16) && (!l.comptl.testBit 15 || l.comptl / 2 ^ 16 != 0)
    && ((List.range l.levels).all fun k =>
        bitField (l.level k) 45 37 == 0 && bitField (l.level k) 31 27 == 0 && bitField (l.level k) 23 19 == 0
          && bitField (l.level k) 15 13 == 0 && (k == 0 || bitField (l.level k) 63 46 == 0)
          && (l.domain k == 2 || bitField (l.level k) 36 32 == 0))
    && aligned l.image.toNat 64 && aligned (l.field 0x080 8) 64 && aligned (l.field 0x088 8) 64
    && s.faultqOk l.part (s.vdAsid l.part (l.field 0x008 2)) (BitVec.ofNat 64 (l.field 0x020 8))

/-- Scope codes that cover a domain (R88). -/
def scopeCovers (dom sc : Nat) : Bool :=
  let rank (c : Nat) : Nat := match c with | 1 => 1 | 3 => 2 | 4 => 3 | 5 => 4 | 6 => 5 | _ => 0
  decide ((match dom with | 0 => 1 | 1 => 2 | 2 => 3 | 3 => 3 | 4 => 4 | 5 => 5 | _ => 9) ≤ rank sc)

/-- The team structure is valid (R87, R88, R90). -/
def Launch.teamsOk (l : Launch) (dies : Nat) : Bool :=
  let ks := List.range l.levels
  l.domain 0 == 0 && l.scopeCode 0 == 1 && l.fanout 0 == 1
    && decide (1 ≤ l.width) && decide (l.width ≤ 576) && decide (1 ≤ l.height) && decide (l.height ≤ 192)
    && (ks.all fun k =>
        decide (1 ≤ l.fanout k) && decide (l.fanout k ≤ 4096) && scopeCovers (l.domain k) (l.scopeCode k)
          && (k == 0 || l.domain k != 0 || l.fanout k == 1)
          && (k == 0 || decide (l.domain (k - 1) ≤ l.domain k))
          && (l.domain k != 2 ||
              (let g := bitField (l.level k) 36 32
               decide (2 ≤ g) && decide (g ≤ 24) && dies % g == 0))
          && (l.domain k != 4 || dies == 24))
    && decide (l.teams 0 ≤ 65536)
    && ((l.width ≤ 96 && l.height ≤ 48) || ks.all fun k => l.domain k != 1)

/-- Every instance has a placement on its permitted dies when they are empty (R93 step 6). Each set of permitted dies is
looked at on its own, not all instances together: the spec does not say which (DESIGN CHOICE, log 71). -/
def State.placeable (s : State) (l : Launch) : Bool :=
  let empty := { s with regions := [] }
  (((List.range (l.teams 0)).map fun n => s.permitted l n).eraseDups).all fun dies =>
    (empty.firstFit dies [] l.width l.height fun _ => true).isSome

/-! ### Virtual devices (R96-R98) -/

/-- The VD is enabled in the partition. -/
def State.vdEnabled (s : State) (p vd : Nat) : Bool :=
  decide (vd < 1024) && s.vdField p vd 0 0 == 1 && s.vdField p vd 20 16 == p

/-- The partition in which a VD is enabled. -/
def State.vdPart (s : State) (vd : Nat) : Option Nat := (List.range 24).find? fun p => s.vdEnabled p vd

/-- Launches of a VD that are accepted and not complete. -/
def LState.accepted : LState → Bool
  | .issued | .complete => false
  | _ => true

def State.pendingOf (s : State) (p vd : Nat) : Nat :=
  (s.launches.filter fun e => e.2.part == p && e.2.vd == vd && e.2.st.accepted).length

/-! ### Modules of a launch (R91) -/

/-- The lowest FEDERATION level; its children run on the module of their coordinate (R91). -/
def Launch.fedLevel (l : Launch) : Option Nat := (List.range l.levels).find? fun k => l.domain k == 5

/-- The module on which an instance runs; none when no level spans modules. -/
def Launch.moduleOf (l : Launch) (n : Nat) : Option Nat :=
  match l.fedLevel with
  | some (k + 1) => some (l.coord n k)
  | _ => none

def Launch.onModule (l : Launch) (module n : Nat) : Bool := (l.moduleOf n).all (· == module)

/-- The instance runs on a module whose subtree is not over. -/
def Launch.isOutside (l : Launch) (n : Nat) : Bool := (l.moduleOf n).any l.outside.contains

/-- A level-k team has instances on several modules. -/
def Launch.spans (l : Launch) (k : Nat) : Bool := l.fedLevel.any fun f => decide (f ≤ k)

/-! ### Completion (R92, R94) -/

/-- Level-1 teams that retired, and those that TEAMMASK excluded. -/
def Launch.teamRetired (l : Launch) (t : Nat) : Bool :=
  l.masked.contains t || ((l.insts.filter fun i => l.team1 i.n == t).all (·.retired)
    && (l.outTeams.contains t || l.insts.any fun i => l.team1 i.n == t)
    && (l.outside == [] || (List.range (l.teams 0)).all fun n => l.team1 n != t || !l.isOutside n))

def teamBytes (l : Launch) (from_ n : Nat) : List Byte :=
  (List.range n).map fun b => BitVec.ofNat 8 (packElems 1 ((List.range 8).map fun i =>
    let t := 8 * (from_ + b) + i
    if t < l.teams 1 ∧ l.teamRetired t then 1 else 0))

/-- The completion record (R94). `formed` tells whether the team structure stands. -/
def completionBytes (l : Launch) (arith status tl : Nat) (bitmap formed : Bool) : List Byte :=
  let teams := if formed then l.teams 1 else 0
  let ret := if formed then ((List.range teams).filter l.teamRetired).length else 0
  leBytes 4 status ++ leBytes 1 arith ++ leBytes 1 ((if bitmap then 1 else 0) + (if l.written then 2 else 0))
    ++ leBytes 2 l.vd ++ leBytes 8 l.recAddr.toNat ++ leBytes 4 l.hostSeq.toNat
    ++ leBytes 4 (min l.faults 0xFFFFFFFF) ++ leBytes 1 l.firstFault ++ [0]
    ++ leBytes 2 (min teams 0xFFFF) ++ leBytes 2 (min ret 0xFFFF) ++ leBytes 2 0 ++ leBytes 8 tl
    ++ (if formed then teamBytes l 0 64 else List.replicate 64 0)
    ++ leBytes 4 teams ++ leBytes 4 ret ++ List.replicate 16 0

/-- The record written to the reply address, where one is given (R83, R94). -/
def Act.writeCompletion (l : Launch) (status tl : Nat) (bitmap formed : Bool) : Act :=
  .read fun s =>
    .when (l.reply != 0 && aligned l.reply.toNat 128)
      (.storeLong (s.mapDie l.part) l.part (s.vdAsid l.part l.vd) l.reply (completionBytes l s.arith status tl bitmap formed) 2)

/-- The issuer learns the status of its launch (R310, R399). -/
def Act.answerIssuer (l : Launch) (status : Nat) : Act :=
  match l.issuer with
  | .hart d n rd => .retireX d n rd (BitVec.ofNat 64 status)
  | .firing req => .onReq req fun r => { r with st := .performed (BitVec.ofNat 512 status) 0, back := true }
  | .host _ | .module _ _ => .skip

/-- A launch refused at issue: its record is written, and that is all (R92, R93). -/
def Act.refuse (n : Nat) (status : Nat) (record formed : Bool) : Act :=
  .read fun s =>
    match s.launches.get? n with
    | none => .skip
    | some l =>
      .block
        [ .onLaunch n fun l => { l with st := .complete }
        , .when record (.writeCompletion l status 0 false formed)
        , .answerIssuer l status ]

/-! ### Timelines (R206, R211) -/

/-- The copy context that a TLID names in a partition (R85). -/
def State.tlidCtx (s : State) (p t : Nat) : CopyId := s.tlCopy (s.mapDie p) p t

/-- A WAIT entry is satisfied, or poisoned (R100, R109). -/
def State.waitMet (s : State) (p : Nat) (w : Nat × DWord) : Bool :=
  !w.1.testBit 15 || w.2.toNat ≤ (s.copies.get {} (s.tlidCtx p w.1)).tlc.toNat

def State.waitPoisoned (s : State) (p : Nat) (w : Nat × DWord) : Bool :=
  w.1.testBit 15 &&
    (match (s.copies.get {} (s.tlidCtx p w.1)).poison with
      | some q => decide (q.1.toNat ≤ w.2.toNat)
      | none => false)

/-! ### Ready and eligible (R99, R100, R103, R104, R111) -/

/-- Not started, or SAVED: what selection may choose. A SAVED launch whose policy SUSPEND fell due during its switch is
never chosen again: the spec names no event that would (DESIGN CHOICE, log 71). -/
def Launch.choosable (l : Launch) : Bool :=
  !l.killAfter && (l.st == .queued || (l.st == .saved && !l.suspendAfter))

def Launch.sameQueue (a b : Launch) : Bool := a.part == b.part && a.vd == b.vd && a.queue == b.queue

/-- The launch is its queue's head: no older launch of the queue waits to be chosen. -/
def State.isHead (s : State) (l : Launch) : Bool :=
  s.launches.all fun e => !(e.2.sameQueue l && e.2.choosable && decide (e.2.seq < l.seq))

/-- A launch of the same record and VD before it holds it back (R111). -/
def State.heldBack (s : State) (n : Nat) (l : Launch) : Bool :=
  !l.flag flagReentrant && l.st == .queued &&
    s.launches.any fun e => e.1 != n && e.2.st.accepted && e.2.part == l.part && e.2.vd == l.vd
      && e.2.recAddr == l.recAddr && decide (e.2.seq < l.seq)

def State.ready (s : State) (n : Nat) (l : Launch) : Bool :=
  l.choosable && s.isHead l && s.vdEnabled l.part l.vd && !s.heldBack n l
    && (l.st == .saved || l.foreign.isSome || (List.range 4).all fun i => s.waitMet l.part (l.wait i))

/-- One region of a plan: handle, region with its place table, and whether it is a warm one. -/
structure Planned where
  w : Word
  r : Region
  warm : Bool := false
  deriving DecidableEq, Repr

/-- A resident copy that suits the launch (R104): in the order of the dispatcher's list. One of a nondeterministic image
suits no DET launch (R86). -/
def State.warmFor (s : State) (l : Launch) (dies : List Nat) : Option Region :=
  firstSome (dies.map fun d =>
    ((s.dispatchers.get {} d).warm.find? fun w =>
      let r := w.region
      r.vd == l.vd && r.imageAddr == l.image && r.imageId == l.imageId && r.width == l.width && r.height == l.height
        && (!l.flag flagDet || r.det) && r.rect.dies.all dies.contains && s.rectFree r.rect [] && !s.coversDefect r.rect
        && (s.blockedRoute r).isNone).map (·.region))

/-- An instance has a region. -/
def State.stands (s : State) (launch inst : Nat) : Bool := s.regions.any fun e => e.2.isInst (launch, inst)

/-- Bytes reserved in the save area of a die (R84): one reservation for a region with its shadow context, or for a saved
context whose instance has no region. -/
def State.reserved (s : State) (die : Nat) : Nat :=
  ((s.regions.filter fun e => e.2.cols != [] && e.2.origin.die == die).map (·.2.wcs)).foldl (· + ·)
    (((s.saves.filter fun e => e.2.region.origin.die == die && !s.stands e.1.1 e.1.2).map (·.2.region.wcs)).foldl (· + ·) 0)

def State.saveFits (s : State) (die wcs : Nat) : Bool := decide (s.reserved die + wcs ≤ Config.saveAreaBytes)

/-- The region of an instance in a place. -/
def Launch.regionAt (l : Launch) (n inst : Nat) (q : Rect) : Region :=
  { vd := l.vd, width := l.width, height := l.height, cols := q.cols, rows := q.rows, launch := some n, inst := inst
    imageId := l.imageId, imageAddr := l.image }

/-- The place is the one that an open switch has chosen for the instance, where it has (R113). -/
def Launch.suits (l : Launch) (inst : Nat) (cols rows : List Nat) : Bool :=
  l.places.all fun p => p.1 != inst || (p.2.1 == cols && p.2.2 == rows)

/-- One instance placed in the given state: warm, or first fit (R104). -/
def State.planInst (s : State) (n : Nat) (l : Launch) (inits : List (Nat × Nat × Cell)) (inst : Nat) : Option Planned :=
  let dies := s.permitted l inst
  match (s.warmFor l dies).filter fun r => l.suits inst r.cols r.rows with
  | some r =>
    let r' := { l.regionAt n inst r.rect with
                cols := r.cols, rows := r.rows, imageId := r.imageId, dztrap := r.dztrap, det := r.det, refire := r.refire
                cells := r.cells, inits := r.inits, wcs := r.wcs, state := .loaded }
    if s.saveFits r'.origin.die r'.wcs then (s.freeEntry r'.origin.die).map fun w => ⟨w, r', true⟩ else none
  | none =>
    let w0 := if inits = [] then 0 else wcsOf inits
    let ok (q : Rect) : Bool :=
      l.suits inst q.cols q.rows && s.saveFits (cellOf q.x q.y).die w0
        && (s.blockedRoute { l.regionAt n inst q with inits := inits, cells := inits.map fun e => (e.1, e.2.1) }).isNone
    match s.firstFit dies [] l.width l.height ok with
    | some q => (s.freeEntry (cellOf q.x q.y).die).map fun w => ⟨w, { l.regionAt n inst q with wcs := w0 }, false⟩
    | none => none

/-! ### Placing a whole launch (R103) -/

/-- Level-1 teams that TEAMMASK excludes; none when the mask is refused (R85). -/
def State.maskOf (s : State) (l : Launch) : Option (List Nat) :=
  let a : DWord := BitVec.ofNat 64 (l.field 0x080 8)
  if l.foreign.isSome then some l.masked
  else if a = 0 then some []
  else
    let teams := l.teams 1
    let blocks := (teams + 511) / 512
    match s.loadLong (s.mapDie l.part) l.part (s.vdAsid l.part l.vd) a blocks with
    | none => none
    | some b =>
      let bit (t : Nat) : Bool := ((b.getD (t / 8) 0).toNat).testBit (t % 8)
      if (List.range (512 * blocks - teams)).any fun i => bit (teams + i) then none
      else some ((List.range teams).filter fun t => !bit t)

/-- Instances that the launch places: the saved ones of a SAVED launch, or all but the excluded (R103). -/
def State.toPlace (s : State) (l : Launch) : List Nat :=
  if l.st = .saved then (l.insts.filter fun i => !i.retired).map (·.n)
  else match s.maskOf l with
    | none => []
    | some ex => (List.range (l.teams 0)).filter fun n =>
        !ex.contains (l.team1 n) && l.onModule (s.moduleNo (s.mapDie l.part)) n

/-- The launch's image: at its address, or as it came with a subtree. -/
def State.launchImage (s : State) (l : Launch) : Except DWord Image :=
  match l.foreign with
  | some b => .ok ⟨b⟩
  | none => s.readImage (s.mapDie l.part) l.part (s.vdAsid l.part l.vd) l.image

/-- The cells of the launch's image, as far as it can be read: its routes limit placement (R104). -/
def State.launchInits (s : State) (l : Launch) : List (Nat × Nat × Cell) :=
  match s.launchImage l with
  | .ok m => if (m.check { width := l.width, height := l.height, arith := s.arith, dies := (s.partDies l.part).length
                           devlaunch := s.featOn featDevlaunch }).isNone then m.inits else []
  | .error _ => []

/-- Other modules on which the launch places instances. -/
def State.otherModules (s : State) (l : Launch) (masked : List Nat) : List Nat :=
  if l.fedLevel.isNone || l.foreign.isSome then []
  else (((List.range (l.teams 0)).filter fun n => !masked.contains (l.team1 n)).filterMap fun n =>
    (l.moduleOf n).bind fun m => if m = s.moduleNo (s.mapDie l.part) then none else some m).eraseDups

/-- The subtree of a launch for each other module (R91). -/
def Act.sendSubtrees (n : Nat) (l : Launch) (masked : List Nat) : Act :=
  .read fun s => .each (s.otherModules l masked) fun m =>
    .toModule l.part m (.subtree m (s.moduleNo (s.mapDie l.part)) n l.part l.vd l.recAddr l.copy
      (match s.launchImage l with
        | .ok i => i.bytes
        | .error _ => []) masked)

/-- A saved instance placed: the same shape, by first fit (R107). Its own saved context gives its reservation up. -/
def State.planSaved (s : State) (n : Nat) (l : Launch) (inst : Nat) : Option Planned :=
  match s.saves.get? (n, inst) with
  | none => none
  | some x =>
    let ok (q : Rect) : Bool :=
      l.suits inst q.cols q.rows && { s with saves := s.saves.erase (n, inst) }.saveFits (cellOf q.x q.y).die x.region.wcs && (s.blockedRoute { x.region with cols := q.cols, rows := q.rows }).isNone
    match s.firstFit (s.permitted l inst) [] x.region.width x.region.height ok with
    | some q =>
      (s.freeEntry (cellOf q.x q.y).die).map fun w =>
        ⟨w, { x.region with cols := q.cols, rows := q.rows, state := .allocated, lots := [] }, true⟩
    | none => none

/-- Instances placed one after the other (R104). -/
def State.planAll (n : Nat) (l : Launch) (inits : List (Nat × Nat × Cell)) : State → List Nat → Option (List Planned)
  | _, [] => some []
  | s, i :: r =>
    match if l.st = .saved then s.planSaved n l i else s.planInst n l inits i with
    | none => none
    | some p => (State.planAll n l inits { s with regions := s.regions.put p.w p.r } r).map (p :: ·)

/-- The places that open switches have chosen for launches are no others' (R113). -/
def State.keptPlaces (s : State) (n : Nat) : List (Word × Region) :=
  (s.launches.filter fun e => e.1 != n).flatMap fun e => e.2.places.map fun p =>
    (noHandle, { width := p.2.1.length, height := p.2.2.length, cols := p.2.1, rows := p.2.2 })

/-- The launch's placement on the cells that are free in a state (R100, R103). -/
def State.plan (s : State) (n : Nat) (l : Launch) : Option (List Planned) :=
  State.planAll n l (if l.st = .saved then [] else s.launchInits l) { s with regions := s.regions ++ s.keptPlaces n }
    (s.toPlace l)

def State.eligible (s : State) (n : Nat) (l : Launch) : Bool := s.ready n l && (s.plan n l).isSome

/-! ### Start (R105, R106, R115, R121) -/

/-- Scalars of the parameter line (R106). -/
def Launch.scalars (l : Launch) : List Byte :=
  padTo 128 ((l.copy.drop 0x200).take (4 * min 32 l.nscal))

def Act.toRunning (n : Nat) : Act :=
  .read fun s => .onLaunch n fun l =>
    { l with st := .running, sliceStart := s.cycle, quantum := s.equantum l.part l.vd, switch := none }

/-- Lots that the placed regions of a launch need. -/
def State.placedWants (s : State) (n : Nat) : List (Nat × Nat) :=
  let per := (s.regions.filter fun e => e.2.launch == some n).flatMap fun e =>
    match s.saves.get? (n, e.2.inst) with
    | some x => x.wants e.2
    | none => e.2.wantLots
  (List.range 24).filterMap fun d =>
    let k := ((per.filter fun w => w.1 == d).map (·.2)).foldl (· + ·) 0
    if k = 0 then none else some (d, k)

/-- Every placed region starts, or is restored and runs on; while a patch wakes or a die
sweeps, all wait (R9, R200). -/
def Act.startPlaced (n : Nat) : Act :=
  .read fun s =>
    match s.launches.get? n with
    | none => .skip
    | some l =>
      let want := s.placedWants n
      let asleep := (s.regions.filter fun e => e.2.launch == some n).flatMap fun e => s.asleepIn e.2.rect
      if asleep != [] then .beginWake asleep
      else if !s.lotsReady want then .forceSweeps want
      else
        .block
          [ .each (s.regions.filter fun e => e.2.launch == some n) fun e =>
              match s.saves.get? (n, e.2.inst) with
              | some x => .block [.restoreInto e.1 x, .emit (.save n e.2.inst none), .resume e.1 false]
              | none => .startInstance e.1 l.scalars
          , .toRunning n ]

/-- The chosen launch is placed; with resident copies or saved contexts it starts at once, otherwise its image is
loaded (R103-R108). -/
def Act.beginLaunch (n : Nat) : Act :=
  .read fun s =>
    match s.launches.get? n with
    | none => .skip
    | some l =>
      if l.st = .queued ∧ (s.maskOf l).isNone then .onLaunch n fun l => l.finish stLoadReject
      else if (s.otherModules l ((s.maskOf l).getD [])).any fun m => !s.edgeIsUp (s.edgeTo (s.mapDie l.part) m) then
        .onLaunch n fun l => l.finish stSeamFailed
      else match s.plan n l with
        | none => .skip
        | some ps =>
          let masked := (s.maskOf l).getD []
          let others := if l.st = .saved then l.outside else s.otherModules l masked
          let insts := if l.st = .saved then l.insts else (s.toPlace l).map fun i => { n := i }
          .block
            [ .onLaunch n fun l =>
                { l with
                  st := .placing, masked := if l.st = .saved then l.masked else masked, outside := others
                  insts := insts.map fun i => match ps.find? fun p => p.r.inst == i.n with
                    | some p => { i with handle := some p.w }
                    | none => i }
            , .each ps fun p => .fresh fun u =>
                (Act.dropWarm p.r.rect).seq (.emit (.region p.w (some { p.r with uid := if l.st = .saved then p.r.uid else u })))
            , .when (l.st != .saved) (.sendSubtrees n l masked)
            , if ps = [] ∧ others = [] then .onLaunch n fun l => l.finish (if l.shut then stShut else stDone)
              else .when (ps.all (·.warm)) (.startPlaced n) ]

/-! ### What a launch that is over reports (R92, R94) -/

/-- Blocks of 64 bytes of a mask or bitmap of n teams. -/
def bitmapBlocks (n : Nat) : Nat := (n + 511) / 512

/-- The retired bits of every team, where they go to BITMAP. -/
def Act.writeBitmap (l : Launch) : Act :=
  .read fun s =>
    let n := bitmapBlocks (l.teams 1)
    .storeLong (s.mapDie l.part) l.part (s.vdAsid l.part l.vd) (BitVec.ofNat 64 (l.field 0x088 8)) (teamBytes l 0 (64 * n)) n

/-- The retired bits go to BITMAP as well (R94). -/
def Launch.mapped (l : Launch) : Bool := decide (512 < l.teams 1) && l.field 0x088 8 != 0

/-- Bitmap and record of a launch that is over, in that order (R92, R94); of a subtree the launch's module learns (R91). The teams that TEAMMASK excludes count as
retired also where the launch ended before it was placed. -/
def Act.reportLaunch (l : Launch) (status tl : Nat) : Act :=
  .read fun s =>
    let m := if l.insts = [] ∧ l.masked = [] then { l with masked := (s.maskOf l).getD [] } else l
    match l.issuer with
    | .module home k =>
      .toModule l.part home (.ended home k (s.moduleNo (s.mapDie l.part)) status
        ((List.range (l.teams 1)).filter fun t => m.teamRetired t && !m.masked.contains t) l.faults l.firstFault)
    | _ => (Act.when m.mapped (.writeBitmap m)).seq (.writeCompletion m status tl m.mapped true)

/-- The interrupt of FLAGS.IRQ (R92), and that of a LAUNCH message, whose reply is the record (R39). -/
def Act.completionIrq (l : Launch) : Act :=
  (Act.when (l.flag flagIrq && l.foreign.isNone) (.emit (.out (.msix (24 + l.vd / 512) (l.vd % 512) 1)))).seq
    (.when (l.replyIrq && l.reply != 0) (.emit (.out (.msix (24 + l.vd / 512) (l.vd % 512) 0))))

/-! ### Selection (R101, R102) -/

/-- VDs in ascending order from a pointer, wrapping. -/
def fromPtr (ptr : Nat) (vs : List Nat) : List Nat :=
  ((List.range 1024).map fun i => (ptr + i) % 1024).filter vs.contains

/-- The head of the VD's lowest-numbered queue among candidates of the class. -/
def headOf (cands : List (Nat × Launch)) (c v : Nat) : Option (Nat × Launch) :=
  (List.range 8).findSome? fun q => cands.find? fun e => e.2.vd == v && e.2.cls == c && e.2.queue == q

/-- The deficit round: the first VD with credit, after as many rounds of weights as it takes. -/
def deficitRound (weight : Nat → Nat) (c : Nat) (vs : List Nat) : Nat → Dispatcher → Option (Nat × Dispatcher)
  | 0, _ => none
  | k + 1, d =>
    match (fromPtr (d.ptr.get 0 c) vs).find? fun v => decide (0 < d.def_ c v) with
    | some v => some (v, { d with ptr := d.ptr.put c v })
    | none => deficitRound weight c vs k (vs.foldl (fun d v => d.setDef c v (d.def_ c v + weight v * 4)) d)

/-- Rounds after which some VD has credit. -/
def roundsFor (d : Dispatcher) (c : Nat) (vs : List Nat) : Nat :=
  2 + (vs.map fun v => (-(d.def_ c v)).toNat).foldl max 0

/-- select() of R101 over candidates: the launch, and the dispatcher's pointers and deficits after it. -/
def State.selectFrom (s : State) (p : Nat) (cands : List (Nat × Launch)) (elsewhere : Bool) (d : Dispatcher) :
    Nat → Option (Nat × Dispatcher)
  | 0 => none
  | k + 1 =>
    let c := k
    let vds := ((cands.filter fun e => e.2.cls == c).map (·.2.vd)).eraseDups
    let es := vds.filter fun v => decide (0 < s.weight p v)
    let zs := vds.filter fun v => s.weight p v == 0
    if es = [] then
      (match if elsewhere then none else (fromPtr (d.ptr0.get 1023 c + 1) zs).head? with
        | some v => (headOf cands c v).map fun e => (e.1, { d with ptr0 := d.ptr0.put c v })
        | none => s.selectFrom p cands elsewhere d k)
    else
      match deficitRound (s.weight p) c es (roundsFor d c es) d with
      | some (v, d') => (headOf cands c v).map fun e => (e.1, d'.setDef c v (d'.def_ c v - s.equantum p v))
      | none => none

/-- Launches homed on a die's dispatcher. -/
def State.homed (s : State) (p die : Nat) : List (Nat × Launch) :=
  s.launches.filter fun e => e.2.part == p && s.dieAt p e.2.home == die

def State.eligibleAt (s : State) (p die : Nat) : List (Nat × Launch) :=
  (s.homed p die).filter fun e => s.eligible e.1 e.2

/-- Weighted VDs have eligible launches on another die, by the latest summaries (R101). -/
def Dispatcher.elsewhere (d : Dispatcher) (die : Nat) : Bool := d.summaries.any fun e => e.1 != die && e.2 != []

/-- Credit is not kept by a VD without launches of the class (R101). -/
def State.settleCredit (s : State) (p : Nat) (d : Dispatcher) : Dispatcher :=
  { d with deficit := d.deficit.map fun e =>
      if 0 < e.2 ∧ !(s.launches.any fun l => l.2.part == p && l.2.vd == e.1.2 && l.2.cls == e.1.1 && l.2.st.accepted)
      then (e.1, 0) else e }

/-- One selection on a die: the launch taken is charged and begun. -/
def Act.selectOnce (p die : Nat) : Act :=
  .read fun s =>
    let d := s.settleCredit p (s.dispatchers.get {} die)
    match s.selectFrom p (s.eligibleAt p die) (d.elsewhere die) d 4 with
    | none => .emit (.dispatcher die d)
    | some (n, d') =>
      .block
        [ .emit (.dispatcher die d')
        , .onLaunch n fun l => { l with charge := if s.weight p l.vd = 0 then 0 else s.equantum p l.vd, chargeCls := l.cls }
        , .beginLaunch n ]

def Act.selectTimes (p die : Nat) : Nat → Act
  | 0 => .skip
  | k + 1 => (Act.selectOnce p die).seq (Act.selectTimes p die k)

/-- Launches that wait for a poisoned timeline complete (R109). -/
def Act.poisonWaits (p : Nat) : Act :=
  .read fun s => .each (s.launches.filter fun e => e.2.part == p && e.2.st == .queued && e.2.foreign.isNone
      && (List.range 4).any fun i => s.waitPoisoned p (e.2.wait i)) fun e =>
    .onLaunch e.1 fun l => l.finish stPoison

/-- Selection on every die of the partition, until nothing more can be taken (R100, R101). -/
def Act.select (p : Nat) : Act :=
  (Act.poisonWaits p).seq
    (.read fun s => .each (s.diesInOrder p) fun die => .read fun s => .selectTimes p die (s.homed p die).length)

/-! ### Gang switch (R107, R113-R118) -/

/-- Regions of a launch, by handle. -/
def State.regionsOf (s : State) (n : Nat) : List (Word × Region) := s.regions.filter fun e => e.2.launch == some n

/-- Dies that hold the origins of the gang's regions. -/
def State.gangDies (s : State) (n : Nat) : List Nat := ((s.regionsOf n).map fun e => e.2.origin.die).eraseDups

/-- No region of it was stopped by a tailor core, and none holds a bank given to another launch (R133, R390). -/
def State.switchable (s : State) (n : Nat) : Bool :=
  (s.regionsOf n).all fun e => !e.2.byStop && !(e.2.given.any fun g => g.other && g.launch.isSome)

/-- Ready launches of the dispatcher that the cells of a running one would let start (R107). -/
def State.preemptors (s : State) (n : Nat) (l : Launch) : List (Nat × Launch) :=
  let freed := { s with regions := s.regions.filter fun e => e.2.launch != some n }
  (s.homed l.part (s.dieAt l.part l.home)).filter fun e =>
    s.ready e.1 e.2 && decide (l.cls ≤ e.2.cls) && (s.plan e.1 e.2).isNone && (freed.plan e.1 e.2).isSome

/-- Largest save time of one die's part of the gang (R114). -/
def State.gangTime (s : State) (n : Nat) : Nat :=
  ((s.gangDies n).map fun d =>
    saveTime (((s.regionsOf n).filter fun e => e.2.origin.die == d).map (·.2.wcs) |>.foldl (· + ·) 0)).foldl max 0

/-- A DEADLINE record (R118): to the launch's queue, and to the default queue. -/
def Act.deadlineRecords (n : Nat) (l : Launch) : Act :=
  .read fun s =>
    let bytes := recordBytes { vd := l.vd, record := l.recAddr } { code := 0x10, cls := 4 } 0xFF (s.partCycle l.part)
    (Act.launchRecord l.part (some n) 0x10 bytes).seq (.defaultRecord l.part bytes)

/-- DLMISS: the largest count among the VD's gangs (R118). -/
def Act.showMisses (p vd : Nat) : Act :=
  .read fun s =>
    let m := ((s.launches.filter fun e => e.2.part == p && e.2.vd == vd && e.2.st.accepted).map (·.2.misses)).foldl max 0
    match s.leadDie p with
    | some d => .onReg d (.vdst vd) fun v => withField v 15 8 (min 255 m)
    | none => .skip

/-- The lead sends ABORT: the outgoing VD is charged for the attempt, and the miss is counted. -/
def Act.missSwitch (n : Nat) (l : Launch) (w : Switch) : Act :=
  .read fun s =>
    let m := l.misses + 1
    .block
      [ .when (s.weight l.part l.vd != 0) (.onDispatcher (s.dieAt l.part l.home) fun d =>
          d.setDef l.chargeCls l.vd (d.def_ l.chargeCls l.vd - usOf (s.cycle - w.tick)))
      , .onLaunch n fun l => { l with misses := m, switch := l.switch.map fun w => { w with verdict := 2 } }
      , .showMisses l.part l.vd
      , .when (m % 3 == 0) (.deadlineRecords n l) ]

/-- An open switch of the launch aborts, charged and counted like any (R117, R118). -/
def Act.seamAbort (n : Option Nat) : Act :=
  match n with
  | none => .skip
  | some k => .read fun s => match s.launches.get? k with
    | some l => (match l.switch with
      | some w => .when (w.verdict == 0) (.missSwitch k l w)
      | none => .skip)
    | none => .skip

/-- Once a switch is over: what had to wait for it (R112, R117). -/
def Act.afterSwitch (n : Nat) : Act :=
  .read fun s =>
    match s.launches.get? n with
    | none => .skip
    | some l =>
      if l.killAfter then .endLaunch n stKilled
      else .when (l.suspendAfter && l.st == .running) (.onLaunch n fun l => { l with st := .suspended, suspendAfter := false })

end Sys2Proof.Machine
end

