-- ==== Sys2Proof/Machine/Inbound.lean ====
section
/-!
DEFINITION. Functions of an X-die, mailbox pages, and the inbound ordering point: which posted writes, reads and
AtomicOps it holds and releases (02 R35-R38, R41, R53-R56).
-/
namespace Sys2Proof.Machine

def State.xdie (s : State) (x : Nat) : XDie := s.xdies.get {} x

def xDies : List Nat := [24, 25]

/-! ### Wipes (R72) -/

def State.wipeOf (s : State) (t : Tier) : Wipe := s.wipes.get .pending t

/-- A memory may be used: wiped, and not in self-refresh (R27, R72). -/
def State.memoryReady (s : State) (die : Nat) : Bool :=
  s.wipeOf (if isX die then .lpddr die else .hbm die) == .done && !s.power.selfRefresh.contains die

/-- The scratchpads of a die may be used (R72). -/
def State.cellsReady (s : State) (die : Nat) : Bool := s.wipeOf (.cells die) == .done

/-! ### Boot state (R70) -/

def State.bootOf (s : State) (x : Nat) : Boot := s.boots.get {} x
def Act.onBoot (x : Nat) (f : Boot → Boot) : Act := .read fun s => .emit (.boot x (f (s.bootOf x)))

/-- BOOTST as it reads. DESIGN CHOICE: a 32-bit SVN shows there modulo 256 (log 71). -/
def State.bootst (s : State) (x : Nat) : DWord :=
  let b := s.bootOf x
  BitVec.ofNat 64 (b.stage.code + b.err * 2 ^ 8 + s.fuses.lcs.toNat * 2 ^ 16 + (if b.verified then b.svn.toNat % 256 else 0) * 2 ^ 24)

/-! ### Functions (R35, R44) -/

/-- Functions 0-511 are VFs, 512 and 513 the PFs. -/
def isVf (f : Nat) : Bool := decide (f < 512)

/-- The VD of a VF: its global number. -/
def fnVd (x f : Nat) : Nat := (x - 24) * 512 + f

def State.fn (s : State) (x f : Nat) : Fn := (s.xdie x).fns.get {} f
def Act.onFn (x f : Nat) (g : Fn → Fn) : Act := .onXDie x fun v => { v with fns := v.fns.put f (g (v.fns.get {} f)) }

/-- The function answers requests: a PF always, a VF while Abuaby has enabled it (R35). -/
def State.fnOn (s : State) (x f : Nat) : Bool := isX x && decide (f < 514) && (!isVf f || (s.fn x f).en)

/-- Partition and ASID of a function; a PF is no VD and has neither. -/
def State.fnPart (s : State) (x f : Nat) : Nat := if isVf f then (s.vdPart (fnVd x f)).getD 31 else 31
def State.fnAsid (s : State) (x f : Nat) : Option (BitVec 16) :=
  if isVf f then s.vdAsid (s.fnPart x f) (fnVd x f) else none

/-- DROPS (R44). -/
def Act.countDrop (x f : Nat) : Act :=
  .onFn x f fun v => { v with drops := if v.drops = 0xFFFF then v.drops else v.drops + 1 }

/-! ### Mailbox pages (R37, R38) -/

def Fn.overrun (v : Fn) : Fn := { v with overruns := if v.overruns = 0xFFFF then v.overruns else v.overruns + 1 }

/-- The 64 bytes of a slot. -/
def Fn.slot (v : Fn) (k : Nat) : List Byte := (v.slots.get [] k ++ List.replicate 64 0).take 64

/-- Bytes of a page write that fall into slot k, from byte `lo` of the slot. -/
def spliceBytes (old : List Byte) (lo : Nat) (new : List Byte) : List Byte :=
  old.take lo ++ new.take (old.length - lo) ++ old.drop (lo + new.length)

/-- A write to the message slots: dropped and counted for a slot that is busy. -/
def Fn.writeSlots (v : Fn) (off : Nat) (data : List Byte) : Fn :=
  (List.range 32).foldl (fun v k =>
    let base := 0x800 + 64 * k
    if off + data.length ≤ base ∨ base + 64 ≤ off then v
    else if v.busy.getLsbD k then v.overrun
    else { v with slots := v.slots.put k (spliceBytes (v.slot k) (off - base) (data.drop (base - off))) }) v

/-- A doorbell: values above 31 are ignored, that of a busy slot is counted. -/
def Fn.doorbell (v : Fn) (k : Nat) : Fn :=
  if 31 < k then v
  else if v.busy.getLsbD k then v.overrun
  else { v with busy := v.busy ||| (1#32 <<< k) }

/-- A mailbox write performed. -/
def Fn.mailbox (v : Fn) (off : Nat) (data : List Byte) : Fn :=
  if off = 0 then v.doorbell (leNat data) else v.writeSlots off data

/-- The function whose PF serves the primary driver (R63). -/
def isPrimary (x f : Nat) : Bool := x == 24 && f == 512

/-- A byte of a function's mailbox page (R37, R38, R63): only the primary PF has been offered anything, and it alone
accepts. -/
def State.pageByte (s : State) (x f o : Nat) : Byte :=
  let v := s.fn x f
  let le (n w : Nat) : Byte := (leBytes n w).getD (o % n) 0
  if o < 8 then 0
  else if o < 0x10 then le 8 (v.busy.toNat + v.overruns.toNat * 2 ^ 32)
  else if o < 0x20 then (if isPrimary x f then le 16 s.feat.offer.toNat else 0)
  else if o < 0x30 then (if isPrimary x f && s.feat.accepted then le 16 s.feat.active.toNat else 0)
  else if o < 0x40 then le 16 s.feat.active.toNat
  else if o < 0x800 then 0
  else if o < 0x1000 then (v.slot ((o - 0x800) / 64)).getD (o % 64) 0
  else 0

def State.pageBytes (s : State) (x f off n : Nat) : List Byte := (List.range n).map fun i => s.pageByte x f (off + i)

/-- Bytes that a request reads. -/
def Goal.loadSize : Goal → Nat
  | .mem _ (.load n) => n
  | _ => 0

/-! ### The ordering point (R53-R56) -/

def InPart.posted (p : InPart) : Bool := p.kind == .write || p.kind == .relaxed

/-- Earlier parts of the same requester that are still there: posted writes not acknowledged, reads not answered. -/
def XDie.before (v : XDie) (p : InPart) : List InPart :=
  (v.inbound.takeWhile fun q => q.id != p.id).filter fun q => q.requester == p.requester

/-- What a requester outside is told of a part that a check stopped (R42, R47). -/
def Agent.told (a : Agent) (tag st : Nat) : Act :=
  match a with
  | .func x fn => .emit (.out (.completion x fn tag st []))
  | .qp x n => .emit (.out (.roce x n st []))
  | .peer x port => .emit (.out (.ualink x port st []))
  | _ => .skip

/-- The part may be released into the fabric (R54, R55). -/
def XDie.mayRelease (v : XDie) (p : InPart) : Bool :=
  let es := v.before p
  match p.kind with
  | .relaxed => true
  | .write => es.all fun q => !q.posted || (q.released && q.route == p.route)
  | .read | .atomic => es.all fun q => !q.posted && !(q.kind == p.kind && q.tag == p.tag)

/-- The request of a part. -/
def InPart.request (p : InPart) : Req :=
  { id := p.id, agent := p.requester, asid := p.asid, vd := p.vd, part := p.part, goal := p.goal
    ret := if p.posted then .none else .tag p.tag, st := .net }

def Act.removePart (x id : Nat) : Act := .onXDie x fun v => { v with inbound := v.inbound.filter fun p => p.id != id }

/-- One part looked at: a mailbox access is performed and so acknowledged or answered, one that its check stopped is
answered, another becomes a request on VC1. -/
def Act.releaseOne (x id : Nat) : Act :=
  .read fun s =>
    match (s.xdie x).inbound.find? fun p => p.id == id with
    | none => .skip
    | some p =>
      if p.released || !(s.xdie x).mayRelease p then .skip
      else match p.mailbox, p.route, p.fate, p.requester.port with
        | some (off, data), .mailbox f, _, _ =>
          (if p.posted then Act.onFn x f fun v => v.mailbox off data
           else .emit (.out (.completion x f p.tag 0 (s.pageBytes x f off p.goal.loadSize)))).seq (.removePart x id)
        | _, _, some st, _ => (p.requester.told p.tag st).seq (.removePart x id)
        | _, _, none, some c =>
          .block
            [ .onXDie x fun v => { v with inbound := v.inbound.map fun q => if q.id = id then { q with released := true } else q }
            , .emit (.reqs (s.reqs ++ [{ p.request with way := s.wayTo c p.part p.goal }])), .send c p.part 1 p.id p.goal ]
        | _, _, none, none => .skip

/-- Everything that may go now, oldest first. -/
def Act.releaseParts (x : Nat) : Act := .read fun s => .each ((s.xdie x).inbound.map (·.id)) fun id => .releaseOne x id

/-- Posted writes that the X-die tracks: in all, and of one requester (R56). -/
def XDie.postedCount (v : XDie) : Nat := (v.inbound.filter (·.posted)).length
def XDie.postedOf (v : XDie) (r : Agent) : Nat := (v.inbound.filter fun p => p.posted && p.requester == r).length

/-- The PCIe port of a function; a queue pair stands for itself (R35, R44). -/
def Agent.samePort : Agent → Agent → Bool
  | .func x f, .func y g => x == y && (if f < 512 then f / 256 else f - 512) == (if g < 512 then g / 256 else g - 512)
  | a, b => a == b

/-- Room for n more posted writes of a requester: a limit that is reached stops every write of its port (R56). -/
def XDie.roomFor (v : XDie) (r : Agent) (n : Nat) : Bool :=
  decide (v.postedCount + n ≤ 4096) && decide (v.postedOf r + n ≤ 256)
    && v.inbound.all fun p => !p.requester.samePort r || decide (v.postedOf p.requester < 256)

/-- Non-posted requests of a port that are outstanding, by requester and tag: up to 768 (R33). -/
def XDie.tagRoom (v : XDie) (r : Agent) : Bool :=
  decide ((((v.inbound.filter fun p => !p.posted && p.requester.samePort r).map fun p => (p.requester, p.tag)).eraseDups).length < 768)

/-- A part is taken in. -/
def Act.takePart (x : Nat) (f : Nat → InPart) : Act :=
  .fresh fun id => .onXDie x fun v => { v with inbound := v.inbound ++ [f id] }

/-- A request of a host is over and leaves no trace. -/
def Act.dropReq (id : Nat) : Act := .read fun s => .emit (.reqs (s.reqs.filter fun q => q.id != id))

/-- A part is over; what waited for it goes. -/
def Act.dropPart (x id : Nat) : Act := (Act.removePart x id).seq (.releaseParts x)

end Sys2Proof.Machine
end

