-- ==== Sys2Proof/Machine/Global.lean ====
section
/-!
DEFINITION. What happens to a request at its home and to its fault at its issuer: translation, side logs, performing,
answers (05 R139-R147, 07 R189-R199, 08 R213-R223, 14 R353, R354).
-/
namespace Sys2Proof.Machine

/-! ### Answers -/

def bytesVec (b : List Byte) : Vec := BitVec.ofNat 512 (leNat b)

/-- Packets of a response: a header, and data in pieces of 16 bytes. -/
def answerBeats (bytes : List Byte) : Nat := 1 + (min 64 bytes.length + 15) / 16

def stSuccess : Nat := 0
def stUnsupported : Nat := 1
def stAbort : Nat := 4

/-- A request is performed, with a fault code and the bytes that its response will carry. -/
def Act.performed (q : Req) (bytes : List Byte) (code : Nat) (back : Bool) : Act :=
  .onReq q.id fun r =>
    { r with st := .performed (bytesVec bytes) code, back := r.back || back, owed := false, resp := bytes }

/-- The status that a requester outside sees: a fault of translation or of data is a Completer Abort (R42, R47). -/
def hostStatus (code : Nat) : Nat := if code = 0 then stSuccess else stAbort

/-- The response is back at its issuer, or at the edge link to it. A host's request is answered outside then; a posted
write is acknowledged later (R53). -/
def Act.arriveBack (q : Req) (bytes : List Byte) (code : Nat) : Act :=
  let back : Act := .onReq q.id fun r => { r with back := true }
  match q.agent with
  | .func x fn =>
    (match q.ret with
      | .tag t =>
        .block
          [ .emit (.out (.completion x fn t (hostStatus code) (if code = 0 then bytes else [])))
          , .dropReq q.id, .dropPart x q.id ]
      | _ => back.seq (.when (code != 0) (.countDrop x fn)))
  | .peer x port => .block [.emit (.out (.ualink x port (hostStatus code) bytes)), .dropReq q.id, .removePart x q.id]
  | .qp x n =>
    (Act.emit (.out (.roce x n (hostStatus code) bytes))).seq
      (match q.ret with
        | .tag _ => (Act.dropReq q.id).seq (.dropPart x q.id)
        | _ => back)
  | .module north cx tag =>
    (Act.emit (.out (.edgeMsg north cx (.answer tag code false bytes)))).seq (.dropReq q.id)
  | _ => back

/-- A request is performed at its home, and the response leaves (R213, R353). -/
def Act.answer (q : Req) (bytes : List Byte) (code : Nat) : Act :=
  (Act.performed q bytes code q.agent.port.isNone).seq (.respond q (.response q.id) (answerBeats bytes))

/-- A request is answered at its issuer, without a response from its home. -/
def Act.settle (q : Req) (bytes : List Byte) (code : Nat) : Act :=
  .block [.untrack q.id, .performed q bytes code true, .arriveBack q bytes code]

/-- A write of the device itself that was performed up to SYSTEM scope when it left: its performance there, or the fault
with which it is answered, ends it; a copy takes note of either (R206, R211, R228). -/
def Act.deviceDone (q : Req) (code : Nat) : Act :=
  (Act.dropReq q.id).seq (match q.agent with
    | .copy c => .onCopy c fun t =>
      { t with
        jobs := t.jobs.map fun j =>
          if j.owed.contains q.id then
            { j with owed := j.owed.filter (· != q.id), lost := if code = 0 then j.lost else some code }
          else j }
    | _ => .skip)

/-! ### Faults met by a request (R139, R140, R145, R147, R354) -/

/-- Where a request's issuer stands. -/
structure IssuedBy where
  h : Word
  r : Region
  c : CellId
  f : FaultRec
  deriving DecidableEq, Repr

def State.issuedBy (s : State) (q : Req) (code cls : Nat) : Option IssuedBy :=
  match q.region, agentCell q.agent with
  | some h, some c =>
    (match s.regions.get? h with
      | some r =>
        (r.place c).map fun p =>
          { h := h, r := r, c := c
            f := { code := code, cls := cls, cell := some p, req := some q.id, slot := q.slot
                   stream := match q.agent with
                     | .stream _ k => some k
                     | _ => none } }
      | none => none)
  | _, _ => none

/-- ADDR of the request: a virtual address, or a bank and line (R274). -/
def FaultRec.atGoal (f : FaultRec) (g : Goal) : FaultRec :=
  match g with
  | .mem va _ => { f with kind := 1, addr := va }
  | .me _ _ _ op =>
    (match op.offset with
      | some off => f.atLine off
      | none => f)
  | _ => f

/-- The stream emits EOS in place of an element and ends (R145): of the element whose entry a request fills, or of the
one that it stands at. Elements before it keep their entries. -/
def Stream.shut (t : Stream) (now : Nat) (el : Option Nat) : Stream :=
  let eos : Tok :=
    { body := (if t.desc.pack = .scal then .scal 0 else .vec {}), ctx := t.desc.sctx, mark := .eos, since := now }
  { t with
    ended := true, held := none, eosDue := 0
    outq := if t.desc.dir = .read then (t.outq.takeWhile fun e => match e, el with
      | .reserved id, some x => id != x
      | _, _ => true) ++ [.filled eos] else t.outq }

/-- The request whose entry a request's response fills: its own, or that of the data it is the sideband of. -/
def Req.entry (q : Req) : Nat :=
  match q.ret with
  | .streamSb id => id
  | _ => q.id

/-- The stream ends at an element; its requests for later elements are discarded. -/
def Act.shutStream (c : CellId) (k : Nat) (el : Option Nat) : Act :=
  (Act.read fun s => .onCell c fun x =>
      match x.me.streams.get? k with
      | some t => { x with me := { x.me with streams := x.me.streams.put k (t.shut s.cycle el) } }
      | none => x).seq
    (.read fun s =>
      let kept (q : Req) : Bool := ((s.cells.get {} c).me.streams.get? k).any fun t => t.outq.contains (.reserved q.entry)
      .emit (.reqs (s.reqs.map fun q =>
        if q.agent = .stream c k ∧ q.goal.reads ∧ !kept q then { q with ret := .none } else q)))

/-- A request that is given up: it counts as performed and landed. -/
def Act.discard (q : Req) (code : Nat) : Act :=
  .onReq q.id fun r => { r with st := .performed 0 code, ret := .none, back := true, landed := true }

/-- EOS takes the place of a response under SHUT; a register stays absent (R147, R354). -/
def Act.shutReturn (q : Req) (c : CellId) : Act :=
  .read fun s =>
    match q.ret with
    | .out d => .onCell c fun x =>
        { x with ce := (outsOf d).foldl (fun ce o =>
            ce.fill o q.id { body := emptyBody o, ctx := q.ctx, mark := .eos, since := s.cycle }) x.ce }
    | _ => .skip

/-- A precise or stream-held fault of a request, treated under its policy at the issuer. -/
def Act.requestFault (q : Req) (code cls : Nat) (more : FaultRec → FaultRec) : Act :=
  .read fun s =>
    match s.issuedBy q code cls with
    | none => .answer q [] code
    | some i =>
      let f := more (i.f.atGoal q.goal)
      let pol := s.policyOf i.r cls
      (Act.untrack q.id).seq <|
      if pol = polShut then
        (match q.agent with
          | .stream c k =>
            .block [.shutStream c k (some q.entry), .discard q code, .markShut i.h, .record i.h f polShut]
          | _ =>
            .block
              [ .shutReturn q i.c, .discard q code
              , .when (cls == 0) (.closeBobbins i.h)
              , .markShut i.h, .record i.h f polShut ])
      else if pol = polMap ∧ cls = 1 then
        (Act.onReq q.id fun r => { r with st := .held code }).seq (.record i.h f polMap)
      else
        (Act.onReq q.id fun r => { r with st := .held code }).seq (.freezeFrom i.h i.c f true)

/-- An imprecise fault of a request: it is answered, and the fault reported at the next `tbar` or exit (R140). -/
def Act.imprecisely (q : Req) (code : Nat) (bytes : List Byte) : Act :=
  .read fun s =>
    (match s.issuedBy q code 2 with
      | some i => Act.imprecise i.h (i.f.atGoal q.goal)
      | none => Act.skip).seq (.answer q bytes (match q.agent with
        | .ctx _ _ | .stream _ _ => 0
        | _ => code))

/-! ### Memory operations -/

def MemOp.access : MemOp → Access
  | .load _ => .load
  | .store _ => .store
  | .rmw _ r => .atomic r
  | .reduce _ _ _ _ _ => .store

def MemOp.size : MemOp → Nat
  | .load n => n
  | .store b => b.length
  | .rmw r _ => r.size
  | .reduce _ _ pack _ _ => if pack = .scal then 4 else 64

/-- A read or returning atomic, of which the issuer waits for a value. -/
def MemOp.returns : MemOp → Bool
  | .load _ => true
  | .rmw _ r => r
  | _ => false

def MemOp.isLoad : MemOp → Bool
  | .load _ => true
  | _ => false

/-- It reads what it writes over. -/
def MemOp.rmws : MemOp → Bool
  | .rmw _ _ => true
  | .reduce _ _ _ _ _ => true
  | _ => false

/-- A load reservation ends when its bytes are written by anyone (R221). -/
def Act.clearResv (key n : Nat) : Act :=
  .read fun s => .each (s.harts.filter fun e => match e.2.resv with
      | some (k, m) => decide (k < key + n) && decide (key < k + m)
      | none => false) fun e => .onHart e.1.1 e.1.2 fun h => { h with resv := none }

/-- The owner of a request's address. -/
def State.ownerOf (s : State) (q : Req) (va : DWord) : Nat := s.ownerDie q.agent.die q.part va

def Act.putBytes (die : Nat) (va : DWord) (l : Leaf) (pa : Nat) (bytes : List (Option Byte)) : Act :=
  (Act.storeAt die va l pa bytes).seq (.clearResv (homeKey (dataHome die va) pa) bytes.length)

/-- The part of a cell's 64-byte access that a turn performs, each naturally aligned 8 bytes being a part; none for all
that is left of it (R222). -/
def Req.unit (q : Req) (op : MemOp) (part : Option Nat) : Option Nat :=
  if (agentCell q.agent).isSome && op.size == 64 then part.map (· % 8) else none

/-- What the operation writes over `old`; nothing for a load. -/
def MemOp.written (op : MemOp) (old : List Byte) : List (Option Byte) :=
  match op with
  | .load n => List.replicate n none
  | .store bytes => bytes
  | .rmw r _ => (leBytes r.size (r.apply (leNat old))).map some
  | .reduce rop f _ data mask => (leBytes op.size (mergeElems rop f op.size mask (leNat old) data.toNat)).map some

/-- One part of a vector access, or all that is left of one of which a part is performed; with the last part it is
answered (R222). -/
def Act.performPart (q : Req) (va : DWord) (op : MemOp) (die : Nat) (l : Leaf) (pa : Nat) (part : Option Nat) : Act :=
  .read fun s =>
    let home := dataHome die va
    let o := 8 * part.getD 0
    let m := if part.isSome then 8 else op.size
    let old := s.fetchBytes home l (vaOffset va) pa op.size
    let now (k : Nat) : Bool := decide (o ≤ k) && decide (k < o + m) && (q.got.getD k none).isNone
    let got := (List.range op.size).map fun k => if now k then some (old.getD k 0) else q.got.getD k none
    let put := ((List.range op.size).map fun k => if now k then (op.written old).getD k none else none).drop o |>.take m
    if s.eccAt home (pa + o) m && !l.freshBit (vaOffset va) && (op.isLoad || op.rmws) then
      (if op.isLoad then .requestFault q fEcc 0 id else .imprecisely q fEcc [])
    else
      .block
        [ .when (!op.isLoad && (List.range op.size).any now) (.putBytes die va l (pa + o) put)
        , if got.all (·.isSome) then .answer q (if op.isLoad then got.map (·.getD 0) else []) 0
          else .onReq q.id fun r => { r with got := got } ]

/-- The operation performed at an on-module home (R194, R223), or a part of a vector access (R222). -/
def Act.performMem (q : Req) (va : DWord) (op : MemOp) (die : Nat) (l : Leaf) (pa : Nat) (part : Option Nat) : Act :=
  if (q.unit op part).isSome || q.got != [] then .performPart q va op die l pa (q.unit op part)
  else
  .read fun s =>
    let home := dataHome die va
    let n := op.size
    let old := s.fetchBytes home l (vaOffset va) pa n
    let bad := s.eccAt home pa n && !l.freshBit (vaOffset va)
    match op with
    | .load _ => if bad then .requestFault q fEcc 0 id else .answer q old 0
    | .store bytes => (Act.putBytes die va l pa bytes).seq (.answer q [] 0)
    | .rmw r ret =>
      if bad then (if ret then .requestFault q fEcc 0 id else .imprecisely q fEcc [])
      else (Act.putBytes die va l pa ((leBytes n (r.apply (leNat old))).map some)).seq (.answer q (if ret then old else []) 0)
    | .reduce rop f _ data mask =>
      if bad then .imprecisely q fEcc []
      else
        (Act.putBytes die va l pa ((leBytes n (mergeElems rop f n mask (leNat old) data.toNat)).map some)).seq
          (.answer q [] 0)

/-! ### Side logs (R195-R198) -/

/-- The side log of an address: its die and controller. -/
def State.logOf (s : State) (d p : Nat) (va : DWord) : Nat × Nat :=
  (s.ownerDie d p va,
    if vaOwner va = 26 then 8 else if vaOwner va = 27 then 9 else Config.slogController (vaOwner va) (vaOffset va) % 8)

def State.log (s : State) (k : Nat × Nat) : SideLog := s.slogs.get {} k

def State.reqOf (s : State) (id : Nat) : Option Req := s.reqs.find? fun r => r.id == id

/-- Requests that a log holds, oldest first. -/
def State.logged (s : State) (k : Nat × Nat) : List Req := (s.log k).entries.filterMap s.reqOf

def State.logHolds (s : State) (k : Nat × Nat) (asid : Option (BitVec 16)) : Bool := (s.logged k).any fun q => q.asid == asid

def Goal.va : Goal → DWord
  | .mem va _ => va
  | _ => 0

/-- The record of a miss that opens a log for its ASID (R195): VD and address alone. DEDUCED, log 26. -/
def Act.missRecord (p vd : Nat) (code cls : Nat) (va : DWord) : Act :=
  .read fun s => .defaultRecord p
    (recordBytes { vd := vd } { code := code, cls := cls, kind := 1, addr := va } 0xFF (s.partCycle p))

/-- An access enters a log: a logged acknowledgement goes out at once, none for a returning atomic (R195, R196). -/
def Act.enterLog (q : Req) (va : DWord) (op : MemOp) (k : Nat × Nat) : Act :=
  .read fun s =>
    if 256 ≤ (s.log k).entries.length then .skip
    else
      .block
        [ .emit (.slog k.1 k.2 { s.log k with entries := (s.log k).entries ++ [q.id] })
        , .onReq q.id fun r => { r with st := .logged, back := r.back || (!op.returns && q.agent.port.isNone) }
        , .when (!op.returns) (.respond q (.notice q.id) 1)
        , .when (!s.logHolds k q.asid) (.missRecord q.part q.vd transMiss 3 va) ]

def Act.leaveLog (k : Nat × Nat) (id : Nat) (performed : Bool) : Act :=
  .read fun s =>
    let l := s.log k
    .emit (.slog k.1 k.2
      { l with
        entries := l.entries.filter (· != id)
        replays := if performed ∧ l.replays != 0xFFFF then l.replays + 1 else l.replays
        discards := if !performed ∧ l.discards != 0xFFFF then l.discards + 1 else l.discards })

/-- The 128-byte blocks of two byte ranges of one address space meet. -/
def blocksMeet (a : DWord) (n : Nat) (b : DWord) (m : Nat) : Bool :=
  decide (a.toNat / 128 ≤ (b.toNat + m - 1) / 128) && decide (b.toNat / 128 ≤ (a.toNat + n - 1) / 128)

/-- A load's block is logged: it is held (R196). -/
def State.loadHeld (s : State) (die : Nat) (asid : Option (BitVec 16)) (va : DWord) (n : Nat) : Bool :=
  (List.range 10).any fun i => (s.logged (die, i)).any fun r => r.asid == asid && (match r.goal with
    | .mem vb op => blocksMeet va n vb op.size
    | _ => false)

/-! ### Order of one agent's accesses (R216) -/

def Agent.isPeer : Agent → Bool
  | .peer _ _ => true
  | _ => false

/-- Requesters of the inbound ordering point (R53, R56). -/
def Agent.ordered : Agent → Bool
  | .func _ _ | .qp _ _ => true
  | _ => false

/-- The home of a request, or the port for one of the host's, and its first byte there, as its page is mapped now: two
addresses of one byte are one byte (R216). -/
def State.physBytes (s : State) (q : Req) : Option (Nat × Nat) :=
  match q.goal, q.asid with
  | .mem va _, some a =>
    let die := s.ownerOf q va
    (match s.walk die a va with
      | .leaf l => some (if vaOwner va = 27 then 32 + bitField l.entry.toNat 11 8 else dataHome die va, l.pa (vaOffset va))
      | .fault _ => none)
  | _, _ => none

/-- Two accesses with a common byte; UALink peers keep the order of a whole 64-byte line (R46), and a bank that of one
requester's accesses to it (R167). -/
def State.sameBytes (s : State) (a b : Req) : Bool :=
  match a.goal, b.goal with
  | .mem va op, .mem vb ob =>
    let line (x n : Nat) : Nat × Nat := if a.agent.isPeer then (x / 64 * 64, n + x % 64) else (x, n)
    let meet (x y : Nat) : Bool :=
      let l := line x op.size
      let m := line y ob.size
      decide (l.1 < m.1 + m.2) && decide (m.1 < l.1 + l.2)
    (a.asid == b.asid && meet va.toNat vb.toNat)
      || (match s.physBytes a, s.physBytes b with
        | some x, some y => x.1 == y.1 && meet x.2 y.2
        | _, _ => false)
  | .me h c w op, .me h' c' w' op' =>
    h == h' && c == c' && w == w' && (match op.offset, op'.offset with
      | some x, some y => lineOf x / 128 == lineOf y / 128
      | none, none => true
      | _, _ => false)
  | .tl c _, .tl c' _ => c == c'
  | _, _ => false

def Agent.isStream : Agent → Bool
  | .stream _ _ => true
  | _ => false

/-- The destination of an address: an owner, by physical die. -/
def State.destination (s : State) (d p : Nat) (va : DWord) : Nat :=
  if vaOwner va < 24 then s.ownerDie d p va else vaOwner va

/-- Two requests of one requester of the ordering point on one route (R53). -/
def State.sameRoute (s : State) (a b : Req) : Bool :=
  a.agent.ordered && (match a.goal, b.goal with
    | .mem va _, .mem vb _ => s.destination a.agent.die a.part va == s.destination b.agent.die b.part vb
    | _, _ => false)

/-- Requests of one source: of another module all that come by one edge link, whose agents are not told apart. -/
def Agent.sameSource : Agent → Agent → Bool
  | .module n c _, .module m d _ => n == m && c == d
  | a, b => a == b

/-- Earlier requests of the agent before which this one may not be performed: all of a stream's, of a function's or
queue pair's those of its route, otherwise those to a common byte. Requests stand in the order of their issue. -/
def State.earlier (s : State) (q : Req) : List Req :=
  (s.reqs.takeWhile fun r => r.id != q.id).filter fun r => r.agent.sameSource q.agent && !(match r.st with
    | .performed _ _ => true
    | _ => false) && (q.agent.isStream || s.sameRoute r q || s.sameBytes r q)

/-- They are all in the log that this one is about to enter. -/
def State.behind (s : State) (q : Req) (k : Nat × Nat) : Bool := (s.earlier q).all fun r => (s.log k).entries.contains r.id

/-! ### Arrival (R191, R194-R197) -/

/-- Translation as the operation wants it; an atomic to flash is not permitted (R358). -/
def State.resolve (s : State) (q : Req) (va : DWord) (op : MemOp) (cached : Bool) : Except Nat (Leaf × Nat) :=
  match op with
  | .rmw _ _ => if vaOwner va = 26 then .error transPerm else s.translate q.agent.die q.part q.asid va op.size op.access cached
  | _ => s.translate q.agent.die q.part q.asid va op.size op.access cached

/-- Functions, queue pairs and UALink peers. -/
def Agent.isHost : Agent → Bool
  | .func _ _ | .qp _ _ | .peer _ _ => true
  | _ => false

/-- The X-die through which they come. -/
def Agent.hostX : Agent → Nat
  | .func x _ => x
  | .qp x _ => x
  | .peer x _ => x
  | _ => 24

/-- An access refused by translation (R139, R42, R377). -/
def Act.refused (q : Req) (va : DWord) (op : MemOp) (code : Nat) : Act :=
  if q.agent.isHost then (Act.missRecord q.part q.vd code 4 va).seq (.answer q [] code)
  else if op.returns then .requestFault q code 1 id
  else .imprecisely q code []

/-- A read or atomic of a host requester that misses is held, from now (R42). -/
def Act.holdInbound (q : Req) (va : DWord) : Act :=
  .read fun s =>
    let x := q.agent.hostX
    let fresh := (s.xdies.get {} x).inbound.any fun p => p.id == q.id && p.heldAt.isNone
    .when fresh
      ((Act.onXDie x fun v => { v with inbound := v.inbound.map fun p =>
          if p.id = q.id then { p with heldAt := some s.cycle } else p }).seq (.missRecord q.part q.vd transMiss 4 va))

/-- A request to the host leaves by its port, or goes to the shared-range agent; what follows is a later step (R45,
R48, R49, R228). -/
def Act.outbound (q : Req) (va : DWord) (op : MemOp) (x : Nat) (l : Leaf) (pa : Nat) : Act :=
  .read fun s =>
    match s.hostPort x l with
    | none => .refused q va op transPerm
    | some (port, pasid) =>
      let posted := !op.isLoad && !op.returns
      .block
        [ .hostSend q.id x port pasid pa op.size posted q.sys
        , .when (posted && decide (port < 2)) (.answer q [] 0)
        , .onReq q.id fun r => { r with owed := true } ]

/-- The port of a read or AtomicOp to the host has as many outstanding as PCIe allows (R33). -/
def State.portFull (s : State) (x : Nat) (l : Leaf) (op : MemOp) : Bool :=
  (op.isLoad || op.returns) && (match s.hostPort x l with
    | some (port, _) => decide (port < 2) && decide (768 ≤ ((s.xdies.get {} x).outgoing.filter fun e => e.2 == port).length)
    | none => false)

/-- An access whose page is known: performed at its home here, or sent on to the host. -/
def Act.reachHome (q : Req) (va : DWord) (op : MemOp) (die : Nat) (l : Leaf) (pa : Nat) (part : Option Nat) : Act :=
  .read fun s =>
    if vaOwner va = 27 then (if s.portFull die l op then .skip else .outbound q va op die l pa)
    else .performMem q va op die l pa part

/-- Stores wait at the flash window while no block is free (R82). -/
def State.flashFull (s : State) (die : Nat) (va : DWord) (op : MemOp) : Bool :=
  vaOwner va == 26 && !op.isLoad && (s.xdies.get {} die).flashStall

/-- A memory request at its home; `part` as for `performMem`. -/
def Act.arriveMem (q : Req) (va : DWord) (op : MemOp) (cached : Bool) (part : Option Nat) : Act :=
  .read fun s =>
    let die := s.ownerOf q va
    let k := s.logOf q.agent.die q.part va
    if op.isLoad then
      if s.earlier q != [] || s.loadHeld die q.asid va op.size then .skip
      else match s.resolve q va op cached with
        | .error c =>
          if c = transMiss ∧ q.agent.isHost then .holdInbound q va else .refused q va op c
        | .ok (l, pa) =>
          (Act.when (cached == false) (match q.asid with
            | some a => .cacheLeaf die a va l
            | none => .skip)).seq (.reachHome q va op die l pa part)
    else if s.flashFull die va op then .skip
    else if decide (256 ≤ (s.log k).entries.length) && q.agent.vc != 3 then .skip
    else if s.logHolds k q.asid then .when (s.behind q k) (.enterLog q va op k)
    else if s.earlier q != [] then .skip
    else match s.resolve q va op cached with
      | .error c =>
        if c = transMiss then
          (if op.returns then (if q.agent.isHost then .holdInbound q va else .refused q va op c) else .enterLog q va op k)
        else .refused q va op c
      | .ok (l, pa) =>
        (Act.when (cached == false) (match q.asid with
          | some a => .cacheLeaf die a va l
          | none => .skip)).seq (.reachHome q va op die l pa part)

/-! ### Replay (R196) and invalidation (R199) -/

/-- Replay of the entries in order; an ASID that misses again stops. -/
def Act.replayEntries (k : Nat × Nat) : List Nat → List (Option (BitVec 16)) → Act
  | [], _ => .skip
  | e :: rest, stopped =>
    .read fun s =>
      match s.reqOf e with
      | none => (Act.leaveLog k e false).seq (Act.replayEntries k rest stopped)
      | some q =>
        if stopped.contains q.asid then Act.replayEntries k rest stopped
        else match q.goal with
          | .mem va op =>
            (match s.resolve q va op false with
              | .error c =>
                if c = transMiss then Act.replayEntries k rest (q.asid :: stopped)
                else
                  .block
                    [ .leaveLog k e false
                    , .when q.agent.isHost (.missRecord q.part q.vd c 4 va)
                    , if op.returns then .requestFault q c 1 id else .imprecisely q c []
                    , Act.replayEntries k rest stopped ]
              | .ok (l, pa) =>
                .block
                  [ .leaveLog k e true
                  , if vaOwner va = 27 then .outbound q va op (s.ownerOf q va) l pa
                    else .performMem q va op (s.ownerOf q va) l pa none
                  , Act.replayEntries k rest stopped ])
          | _ => Act.replayEntries k rest stopped

def Act.replayLog (k : Nat × Nat) : Act := .read fun s => .replayEntries k (s.log k).entries []

/-- Controllers whose side logs an MTLB serves: 0-7 of a C-die or LPDDR 6, 8 flash, 9 host. -/
def logsOf (owner : Nat) : List Nat := if owner = 26 then [8] else if owner = 27 then [9] else List.range 8

/-- The MTLB of an address on a die: 0 on a C-die, owner − 24 on an X-die. -/
def servedBy (s : State) (die ix : Nat) (q : Req) (va : DWord) : Bool := s.ownerOf q va == die && mtlbIndex va == ix

/-- Loads that stay held under RESUME-AFTER-MAP look again (R145). -/
def Act.retryHeld (die ix : Nat) : Act :=
  .read fun s => .emit (.reqs (s.reqs.map fun q =>
    match q.st, q.goal with
    | .held code, .mem va _ =>
      if code == transMiss && servedBy s die ix q va && (match q.region.bind s.regions.get? with
          | some r => s.policyOf r 1 == polMap
          | none => false) then { q with st := .held 0 } else q
    | _, _ => q))

/-- Copies that a miss suspended at the MTLB take up their line (R211). -/
def Act.resumeCopies (die ix : Nat) : Act :=
  .read fun s => .each s.copies fun e =>
    .when (e.2.jobs.any fun j => match j.suspended with
        | some (_, m) => m == die * 4 + ix
        | none => false)
      (.onCopy e.1 fun c => { c with jobs := c.jobs.map fun j => { j with suspended := none } })

/-- What follows an invalidation or a KICK at an MTLB (R196, R211). -/
def Act.replayAt (die ix : Nat) (logs : List Nat) : Act :=
  .block [.each logs fun i => .replayLog (die, i), .retryHeld die ix, .resumeCopies die ix]

end Sys2Proof.Machine
end

