-- ==== Sys2Proof/Machine/Route.lean ====
section
/-!
DEFINITION. The dynamic network: routes, seams on the way, the arbiter of an output port, and delivery (01 R16-R20, R24,
03 R74, R80, 06 R181-R184, 07 R187).
-/
namespace Sys2Proof.Machine

/-! ### Requests turned away on their way (R20, R74, R119) -/

/-- The launch of a region is affected by a seam failure: a running one freezes, an open switch aborts first, and a
suspended one freezes once it runs again (R117, R119, R121). -/
def Act.seamAffects (n : Option Nat) : Act :=
  match n with
  | none => .skip
  | some k =>
    .block
      [ .seamAbort n, .closeSlice k
      , .read fun s => .onLaunch k fun l =>
          { l with st := if l.st = .running then .freezing else l.st, seamAt := some (l.seamAt.getD s.cycle) } ]

/-- A region freezes because of a failed seam, whatever its policy, with one record for all of it (R119). -/
def Act.seamFreeze (h : Word) (cell : CellId) (f : FaultRec) (held : Bool) : Act :=
  .read fun s =>
    match s.regions.get? h with
    | none => .skip
    | some r =>
      .block
        [ .freezeFrom h cell { f with code := fSeam, cls := 0 } held
        , .when (r.due.any (·.code == fSeam)) (.onRegion h fun q => { q with due := r.due })
        , .seamAffects r.launch ]

/-- A request answered SEAM_FAILED or FIREWALL on its way; its response, if there is one, is not waited for. -/
def Act.turnedAway (q : Req) (code : Nat) : Act :=
  .read fun s =>
    match s.issuedBy q code (if code = fSeam then 0 else 1) with
    | none => .settle q [] code
    | some i =>
      (Act.untrack q.id).seq <|
      if code = fSeam then (Act.onReq q.id fun r => { r with st := .held code }).seq (.seamFreeze i.h i.c (i.f.atGoal q.goal) true)
      else if q.goal.reads then .requestFault q code 1 id
      else (Act.imprecise i.h { i.f.atGoal q.goal with cls := 2 }).seq (.performed q [] 0 true)

/-- A request of the device itself: it is performed up to SYSTEM scope and holds nothing but its own number. -/
def Req.isDevice (q : Req) : Bool := q.landed && (match q.agent with
  | .copy _ | .dispatcher _ => true
  | _ => false)

/-- What was on its way to the host over a port that is lost (R52). -/
def Act.hostFails (id code : Nat) : Act :=
  .read fun s =>
    match s.reqOf id with
    | none => .skip
    | some q => if q.isDevice then .deviceDone q code else (Act.onReq id fun r => { r with owed := false }).seq (.turnedAway q code)

/-! ### Where a packet goes (R181, R187, R24) -/

/-- The cell that a packet makes for: the cell of its VIA die that lies like its target, or its destination. -/
def Packet.target (p : Packet) : CellId :=
  match p.via with
  | some v => let t := if p.vc = 2 then p.src else p.dst
              { t with die := v }
  | none => p.dst

/-- The packet as it goes on from a cell: VIA passed. -/
def Packet.steer (p : Packet) (c : CellId) : Packet :=
  if p.via.isSome ∧ c = p.target then { p with via := none, colFirst := p.after } else p

/-- The direction in which it leaves a switch; .l is delivery. An X-die is reached along any row. -/
def Packet.dir (p : Packet) (c : CellId) : Dir :=
  let t := p.target
  if isX c.die then (if t.die = c.die then .l else if c.die = 24 then .e else .w)
  else if t.die = 24 then .w
  else if t.die = 25 then .e
  else
    let dx : Dir := if fabX c < fabX t then .e else .w
    let dy : Dir := if fabY c < fabY t then .s else .n
    if fabX c = fabX t ∧ fabY c = fabY t then
      (match p.exits with
        | some north => if north then .n else .s
        | none => .l)
    else if fabX c = fabX t then dy
    else if fabY c = fabY t then dx
    else if p.colFirst then dy else dx

/-- What lies behind an output port for a packet. -/
inductive Hop
  | deliver
  | node (c : CellId) (inp : Dir)
  | lane (l : LaneId)
  deriving DecidableEq, Repr

/-- The seam between a cell and its neighbour in a direction; X-die seams among them. -/
def seamOf (c : CellId) (d : Dir) : Option Nat :=
  let cx := dieCx c.die
  let cy := dieCy c.die
  match d with
  | .n => if c.row = 0 ∧ cy ≠ 0 then some (28 + (cy - 1) * 6 + cx) else none
  | .s => if c.row = 47 ∧ cy ≠ 3 then some (28 + cy * 6 + cx) else none
  | .e => if c.col = 95 then some (cy * 7 + cx + 1) else none
  | .w => if c.col = 0 then some (cy * 7 + cx) else none
  | .l => none

def dynLane (l : LinkId) (crossing : Nat) (up : Bool) : LaneId := { link := l, crossing := crossing, cls := .dyn, up := up }

/-- The hop of a packet from a cell through a port. An X-die sends into the row of the cell that the packet makes
for. -/
def Packet.hop (p : Packet) (c : CellId) (out : Dir) : Option Hop :=
  if out = .l then some .deliver
  else if isX c.die then
    let t := p.target
    some (.lane (dynLane (.seam (dieCy t.die * 7 + if c.die = 24 then 0 else 6)) t.row (c.die == 24)))
  else match seamOf c out with
    | some n => some (.lane (dynLane (.seam n) (crossingAt n c) (out == .e || out == .s)))
    | none =>
      match besides c out with
      | some k => some (Hop.node k (Dir.flip out))
      | none => if out = .n ∨ out = .s then some (.lane (dynLane (.edge (out == .n) (dieCx c.die)) c.col (out == .s))) else none

/-! ### Seams (R18-R20, R74, R80) -/

/-- Flits that a lane's replay buffer holds (R18, R22). -/
def laneDepth : LinkId → Nat
  | .seam _ => 16
  | .edge _ _ => 64

def State.laneHolds (s : State) (l : LaneId) : Bool :=
  (((s.links.get {} l.link).crossings.get {} l.crossing).retraining).isSome

/-- A lane takes new flits: it has room, and no packet's beats wait to follow each other on it. -/
def State.laneRoom (s : State) (l : LaneId) : Bool :=
  let v := s.lanes.get {} l
  decide (v.buf.length < laneDepth l.link) && v.pend == []

/-- Flits that wait go on the lane while its replay buffer has room. -/
def Lane.fill (v : Lane) (l : LinkId) (now : Nat) : Lane :=
  let out := v.pend.take (laneDepth l - v.buf.length)
  { v with
    buf := v.buf ++ out.zipIdx.map fun e => { seq := (v.nextSend + e.2) % laneModulus l, load := e.1 }
    pend := v.pend.drop out.length
    nextSend := (v.nextSend + out.length) % laneModulus l
    lastSend := if out = [] then v.lastSend else now }

/-- Flits put on a lane, one after the other. -/
def Act.putFlits (l : LaneId) (xs : List FlitLoad) : Act :=
  .read fun s => .onLane l fun v => { v with pend := v.pend ++ xs }.fill l.link s.cycle

/-- The beats of a packet (R17). -/
def Packet.flits (p : Packet) : List FlitLoad := List.replicate (p.beats - 1) .beat ++ [.packet p]

def State.linkUp (s : State) (l : LinkId) : Bool :=
  (linkPorts l).all fun p => s.portState p == stUp || s.portState p == stRetraining

/-- The die's port at which a lane begins. -/
def lanePort (l : LaneId) : DiePort :=
  match l.link with
  | .seam n => if l.up then (seamSides n).1 else (seamSides n).2
  | .edge north cx => (if north then cx else 18 + cx, 4)

def Packet.transit (s : State) (n : Nat) (p : Packet) : Bool := s.transit n p.src.die p.dst.die

/-- A closed seam lets the packet pass (R74). -/
def State.seamPasses (s : State) (n : Nat) (p : Packet) : Bool := s.seamLets n p.part p.src.die p.dst.die

/-- What becomes of a packet at a lane. -/
inductive AtLane | cross | waits | answer (code : Nat) | drop
  deriving DecidableEq, Repr

/-- Outstanding crossings of one direction (R20). -/
def Link.count (l : Link) (up : Bool) : Nat := (l.table.filter fun e => e.up == up).length

def Load.req : Load → Nat
  | .request id | .response id | .notice id => id

/-- The link's table has an entry of the request. -/
def State.tracks (s : State) (l : LinkId) (req : Nat) : Bool := (s.links.get {} l).table.any fun e => e.req == req

def Packet.tracked (p : Packet) : Bool := decide (p.vc < 2)

/-- What becomes of a packet at a lane. While the last-resort completer works at a closed seam, transit is held, and a
response is discarded unless the seam lets it pass and still tracks its request (R80). -/
def State.atLane (s : State) (l : LaneId) (p : Packet) : AtLane :=
  let go : AtLane :=
    if !s.laneRoom l || s.laneHolds l || (p.tracked && decide (512 ≤ (s.links.get {} l.link).count l.up)) then .waits else .cross
  match l.link with
  | .edge _ _ =>
    if s.regField (lanePort l).1 (.sfw 4) 0 0 = 1 then .answer fFirewall
    else if s.linkUp l.link then go else .answer fSeam
  | .seam n =>
    if s.linkFailed l.link then .answer fSeam
    else if s.seamClosed n && s.sfwBit n 2 && p.transit s n then .waits
    else if s.seamClosed n && s.sfwBit n 2 && p.vc == 2 && !(s.seamPasses n p && s.tracks l.link p.load.req) then .drop
    else if s.seamClosed n && !s.seamPasses n p then .answer fFirewall
    else if s.linkUp l.link then go else .waits

/-- A request takes an entry of the table before it crosses (R20). -/
def Act.track (l : LaneId) (p : Packet) : Act :=
  match p.load with
  | .request id => .when p.tracked (.onLink l.link fun v => { v with table := v.table ++ [{ req := id, up := l.up }] })
  | .response _ | .notice _ => .skip

/-- A final response that has crossed frees the entry (R20, R80). -/
def Act.crossed (l : LaneId) (p : Packet) : Act :=
  match p.load with
  | .response id => .onLink l.link fun v => { v with table := v.table.filter fun e => e.req != id }
  | .request _ | .notice _ => .skip

/-! ### The arbiter (R182, R183) -/

def inputOrder : List Dir := [.n, .e, .s, .w, .l]

def wrrPairs : List (Dir × Nat) := inputOrder.flatMap fun d => (List.range 3).map fun v => (d, v)

/-- Packets that an input buffer holds: at least one (Config, log 8). -/
def vcRoom : Nat := Config.vcDepth + 1

/-- Weight of an input and virtual channel (R183); an X-die's node, where no register stands, has the reset weights
(DESIGN CHOICE, log 71). -/
def State.dnWeight (s : State) (die : Nat) (d : Dir) (vc : Nat) : Nat :=
  if isX die then 3
  else match d with
    | .n => s.regField die (.dnwgt 0) (4 * vc + 3) (4 * vc)
    | .e => s.regField die (.dnwgt 0) (16 + 4 * vc + 3) (16 + 4 * vc)
    | .s => s.regField die (.dnwgt 0) (32 + 4 * vc + 3) (32 + 4 * vc)
    | .w => s.regField die (.dnwgt 0) (48 + 4 * vc + 3) (48 + 4 * vc)
    | .l => s.regField die (.dnwgt 1) (4 * vc + 3) (4 * vc)

/-- AGETH; an X-die has no such register (DESIGN CHOICE, log 71). -/
def State.ageLimit (s : State) (die : Nat) : Nat := if isX die then 512 else s.regField die (.dnwgt 1) 25 16

/-- A packet at the head of an input buffer that wants the port and can go. -/
structure Waiter where
  inp : Dir
  vc : Nat
  p : Packet
  hop : Hop
  deriving DecidableEq, Repr

/-- The side of the receiving switch at which a lane ends. -/
def laneInput (l : LaneId) : Dir := Dir.flip (laneDir l)

/-- The node that takes a packet from a lane. -/
def laneNode (l : LaneId) (p : Packet) : CellId :=
  match laneEnds l with
  | some (_, c) => if isX c.die then (if p.vc = 2 then p.dst else p.target) else c
  | none => p.dst

/-- The far switch has room for one packet more than those on the lane (R182). -/
def State.laneCredit (s : State) (l : LaneId) (p : Packet) : Bool :=
  match laneEnds l with
  | none => true
  | some _ =>
    let v := s.lanes.get {} l
    let flying := ((v.coming l.link).map (·.load) ++ v.pend).filter fun f => match f with
      | .packet q => q.vc == p.vc
      | _ => false
    decide (((s.nodes.get {} (laneNode l p)).bufs.get [] (laneInput l, p.vc)).length + flying.length < vcRoom)

def State.hopReady (s : State) (p : Packet) : Hop → Bool
  | .deliver => true
  | .node c inp => decide (((s.nodes.get {} c).bufs.get [] (inp, p.vc)).length < vcRoom)
  | .lane l => s.atLane l p != .waits && s.laneCredit l p

/-- The packet and another of the same switch for the same die went in under different map entries. -/
def Packet.otherWay (p q : Packet) : Bool := q.src == p.src && q.dst.die == p.dst.die && q.way != p.way

/-- A packet that the switch injected for the same die under the map's old entry is still on its way (R188). -/
def State.oldWay (s : State) (p : Packet) : Bool :=
  s.nodes.any (fun e => e.2.bufs.any fun b => !(e.1 == p.src && b.1.1 == .l) && b.2.any p.otherWay)
    || s.lanes.any fun e => (e.2.buf.map (·.load) ++ e.2.pend).any fun f => match f with
      | .packet q => p.otherWay q
      | _ => false

def State.waitersAt (s : State) (c : CellId) (out : Dir) : List Waiter :=
  inputOrder.flatMap fun d => (List.range 4).filterMap fun vc =>
    match (s.nodes.get {} c).bufs.get [] (d, vc) with
    | [] => none
    | p0 :: _ =>
      let p := p0.steer c
      if p.head ≤ s.cycle ∧ p.dir c = out ∧ !(d == .l && s.oldWay p) then
        (match p.hop c out with
          | some h => if s.hopReady p h then some { inp := d, vc := vc, p := p, hop := h } else none
          | none => none)
      else none

def Waiter.age (w : Waiter) (now : Nat) : Nat := min 1023 (now - w.p.head)

/-- Older first, then the lower VC, then the earlier input. -/
def oldest (now : Nat) : List Waiter → Option Waiter
  | [] => none
  | w :: r =>
    match oldest now r with
    | none => some w
    | some v => if v.age now > w.age now || (v.age now == w.age now && decide (v.vc < w.vc)) then some v else some w

def OutPort.credit (o : OutPort) (k : Dir × Nat) : Nat := o.cred.get 4 k

/-- Pairs in scan order from the pointer. -/
def fromPair (k : Dir × Nat) : List (Dir × Nat) :=
  let i := (wrrPairs.idxOf? k).getD 0
  wrrPairs.drop i ++ wrrPairs.take i

/-- Weighted round-robin over VC0 to VC2: the packet served and the port after it. A new round takes the weights and
the threshold as they are then (R183). -/
def robin (weight : Dir → Nat → Nat) (ageth : Nat) (o : OutPort) (ws : List Waiter) : Option (Waiter × OutPort) :=
  let at_ (k : Dir × Nat) : Option Waiter := ws.find? fun w => w.inp == k.1 && w.vc == k.2
  let serve (o : OutPort) (ks : List (Dir × Nat)) : Option (Waiter × OutPort) :=
    firstSome (ks.map fun k => match at_ k with
      | some w => if 0 < o.credit k then some (w, { o with ptr := k, cred := o.cred.put k (o.credit k - 1) }) else none
      | none => none)
  match serve o (fromPair o.ptr) with
  | some x => some x
  | none =>
    serve { o with cred := wrrPairs.map fun k => (k, weight k.1 k.2 + 1), ptr := (.n, 0), ageth := ageth } wrrPairs

/-- What the port sends next, the port after it, and whether it was promoted by age. -/
def State.choose (s : State) (c : CellId) (out : Dir) : Option (Waiter × OutPort × Bool) :=
  let o := (s.nodes.get {} c).ports.get {} out
  let ws := s.waitersAt c out
  if s.cycle < o.busyUntil then none
  else match ws.find? fun w => w.vc == 3 with
    | some w => some (w, o, false)
    | none =>
      match oldest s.cycle (ws.filter fun w => decide (o.ageth ≤ w.age s.cycle)) with
      | some w =>
        let k := (w.inp, w.vc)
        some (w, { o with cred := o.cred.put k (o.credit k - 1) }, true)
      | none => (robin (s.dnWeight c.die) (s.ageLimit c.die) o ws).map fun x => (x.1, x.2, false)

/-! ### A hop -/

/-- The packet leaves its input buffer; after its last beat the next one is at the head. -/
def Node.pop (n : Node) (k : Dir × Nat) (now : Nat) : Node :=
  { n with bufs := n.bufs.put k (match n.bufs.get [] k with
      | a :: b :: r => { b with head := now + a.beats } :: r
      | _ => []) }

/-- A packet reaches its destination: a request its home, a response its issuer (R213, R353). A launch goes to the
dispatcher, which has it issued (R310). -/
def Act.deliver (p : Packet) : Act :=
  match p.load with
  | .notice id => .onReq id fun r => { r with back := true }
  | .response id => .read fun s =>
      match s.reqOf id with
      | none => .skip
      | some q =>
        match q.st with
        | .performed _ code => .arriveBack q q.resp code
        | _ => .onReq id fun r => { r with back := true }
  | .request id => .read fun s =>
      match s.reqOf id with
      | none => .skip
      | some q =>
        match q.goal with
        | .launch rec reply ovr =>
          (Act.onReq id fun r => { r with st := .held 0 }).seq (.fresh fun n => .emit (.launch n (some
            { recAddr := rec, reply := reply, issuer := .firing id, overrides := ovr, asid := q.asid
              part := q.part, vd := q.vd })))
        | _ => .onReq id fun r => if r.st = .net then { r with st := .held 0 } else r

/-- The final response of a request is not back. -/
def Req.unanswered (q : Req) : Bool := !q.back || q.st == .logged

/-- The request of a packet answered with a code at a seam; one whose response had come is left alone. -/
def Act.answerPacket (p : Packet) (code : Nat) : Act :=
  .read fun s =>
    match s.reqOf p.load.req with
    | none => .skip
    | some q => .when (q.unanswered && q.st != .held code) (.turnedAway q code)

/-- The chosen packet sent. -/
def Act.sendPacket (w : Waiter) : Act :=
  .read fun s =>
    match w.hop with
    | .deliver => .deliver w.p
    | .node k inp => .onNode k fun n => n.push (inp, w.vc) { w.p with head := s.cycle + 1 }
    | .lane l =>
      match s.atLane l w.p with
      | .waits => .skip
      | .drop => .skip
      | .cross => (Act.track l w.p).seq (.putFlits l w.p.flits)
      | .answer code => (Act.when (code == fFirewall) (.countBlocked (lanePort l))).seq (.answerPacket w.p code)

/-- One grant of an output port. -/
def Act.hopAt (c : CellId) (out : Dir) : Act :=
  .read fun s =>
    match s.choose c out with
    | none => .skip
    | some (w, o, promoted) =>
      .block
        [ .onNode c fun n =>
            { n.pop (w.inp, w.vc) s.cycle with ports := n.ports.put out { o with busyUntil := s.cycle + w.p.beats } }
        , .when (promoted && isC c.die) (.onReg c.die (.dnwgt 1) fun v =>
            withField v 41 32 (((v.extractLsb' 32 10).toNat + 1) % 1024))
        , .sendPacket w ]

end Sys2Proof.Machine
end

