-- ==== Sys2Proof/Machine/Links.lean ====
section
/-!
DEFINITION. Patches, defect maps, seams and edge links, power states, monitors and the field log: the events of
chapter 01 (R9-R32).
-/
namespace Sys2Proof.Machine

/-! ### Link registers (R21) -/

/-- Port state written on a port of a link. -/
def Act.setPort (p : DiePort) (st : Nat) : Act :=
  .onReg p.1 (.seamst p.2) fun v =>
    let v := withField v 2 0 st
    if st = stFailed then withField v 6 6 1 else v

/-- Tailor cores of a die learn of a failed seam (R20, R378). -/
def Act.seamIrq (die : Nat) : Act :=
  .when (isC die) (.each (List.range 4) fun n => .onHart die n fun h => { h with xpirq := h.xpirq ||| 2 })

def Act.onFieldLog (die : Nat) (f : FieldLog → FieldLog) : Act := .read fun s => .emit (.fieldLog die (f (s.fieldLog.get {} die)))

/-- The field log is written to flash (R32). -/
def Act.flushLog : Act :=
  (Act.each (List.range 26) fun d => .read fun s => .onFieldLog d fun f => { f with life := f.life + (s.cycle - s.lastFlush) }).seq
    (.read fun s => .emit (.flush s.cycle))

/-- Number that a link carries in SEAMST and in messages. -/
def linkNo : LinkId → Nat
  | .seam n => n
  | .edge _ _ => 63

/-- Packets on the lanes of a link that its far side has not received whole. -/
def State.lostPackets (s : State) (l : LinkId) : List Packet :=
  (s.lanes.filter fun e => e.1.link == l).flatMap fun e =>
    ((e.2.coming l).map (·.load) ++ e.2.pend).filterMap fun f => match f with
      | .packet p => some p
      | _ => none

/-- A link is declared failed: both ports say so, its tailor cores are interrupted, requests that crossed it and have
not been answered complete with SEAM_FAILED, and so do requests whose packets are lost on its lanes; the field log records it
and is written to flash before anything follows (R19, R20, R25, R32). -/
def Act.linkFails (l : LinkId) (crossing : Nat) : Act :=
  .read fun s =>
    if s.linkFailed l then .skip
    else
      let out := (s.links.get {} l).table.map (·.req)
      .block
        [ .each (linkPorts l) fun p => .block
            [ .setPort p stFailed, .seamIrq p.1
            , .onFieldLog p.1 fun f => { f with failures := f.failures ++ [(linkNo l, crossing, s.cycle)] } ]
        , .flushLog
        , .onLink l fun v => { v with failed := some crossing, table := [] }
        , .each out fun id => .read fun s => match s.reqOf id with
            | some q => .when q.unanswered (.turnedAway q fSeam)
            | none => .skip
        , .each (s.lostPackets l) fun p => .answerPacket p fSeam
        , .each (s.lanes.filter fun e => e.1.link == l && e.1.cls == .dyn) fun e =>
            .onLane e.1 fun v => { v with buf := [], pend := [], header := none } ]

def Link.crossing (v : Link) (c : Nat) : Crossing := v.crossings.get {} c
def Link.setCrossing (v : Link) (c : Nat) (x : Crossing) : Link := { v with crossings := v.crossings.put c x }

/-- Retraining of a crossing starts: every lane of it holds (R19). -/
def Act.retrain (l : LinkId) (crossing : Nat) : Act :=
  .read fun s =>
    .block
      [ .onLink l fun v =>
          v.setCrossing crossing { v.crossing crossing with retraining := some s.cycle, crc := [] }
      , .each (linkPorts l) fun p => .when (s.portState p == stUp) (.setPort p stRetraining) ]

/-- Cycles of the window in which CRC errors are counted (R19). -/
def crcWindow : Nat := 2 ^ 20

/-- The port at which a lane ends. -/
def laneFarPort (l : LaneId) : DiePort := lanePort { l with up := !l.up }

/-- A flit failed its CRC: counted, and the crossing is retrained when the window that ends now holds more than 64
(R19). -/
def Act.crcError (l : LaneId) : Act :=
  .read fun s =>
    let c := (s.links.get {} l.link).crossings.get {} l.crossing
    let errors := s.cycle :: c.crc.filter fun t => decide (s.cycle < t + crcWindow)
    .block
      [ .countReg (laneFarPort l).1 (.seamst (laneFarPort l).2) 31 16
      , .onFieldLog (laneFarPort l).1 fun f => { f with crc := f.crc.put (laneFarPort l).2 (f.crc.get 0 (laneFarPort l).2 + 1) }
      , .onLink l.link fun v =>
          v.setCrossing l.crossing { c with crc := errors }
      , .when (decide (64 < errors.length) && c.retraining.isNone) (.retrain l.link l.crossing) ]

/-! ### Receiving (R17, R18) -/

/-- Flits up to a sequence number acknowledged: the timeout starts again, and flits that wait follow. -/
def Lane.ack (v : Lane) (l : LinkId) (seq now : Nat) : Lane :=
  let rest := v.buf.dropWhile fun f => f.seq != seq
  if v.buf.any fun f => f.seq == seq then { v with buf := rest.drop 1, retries := 0, stuck := false, lastSend := now }.fill l now else v

/-- A static input that tokens from over a seam wait in holds two (R179). -/
def inbRoom (c : Cell) (net : Net) (d : Dir) : Bool := decide ((c.sw.inb.get [] (net, d)).length < 2)

/-- The cell that takes a token entering a cell: pass-through cells, at most four, are passed over (R126). -/
def State.landing (s : State) (d : Dir) : Nat → CellId → CellId
  | 0, c => c
  | n + 1, c =>
    if (s.spot c).isSome then c
    else match besides c d with
      | some k => s.landing d n k
      | none => c

/-- The cell in whose switch a token of a lane arrives. -/
def State.laneCell (s : State) (l : LaneId) (c : CellId) : CellId :=
  let k := s.landing (laneDir l) 4 c
  if (s.spot k).isSome then k else c

/-- The receiver has room for what a flit carries. -/
def State.flitRoom (s : State) (l : LaneId) (f : FlitLoad) : Bool :=
  match f, laneEnds l, laneNet l.cls with
  | .token _, some (_, c), some net => inbRoom (s.cells.get {} (s.laneCell l c)) net (laneInput l)
  | .packet p, some _, _ => decide (((s.nodes.get {} (laneNode l p)).bufs.get [] (laneInput l, p.vc)).length < vcRoom)
  | _, _, _ => true

/-- Patch of a cell. -/
def patchOf (c : CellId) : Nat × Nat := (c.die, c.row / 4 * 24 + c.col / 4)

/-- A token arrives at a patch: one that is clock-gated wakes, 3 cycles later (R9). -/
def State.wakeDelay (s : State) (c : CellId) : Nat :=
  if (s.power.patches.get {} (patchOf c)).clockGated then 3 else 0

def Act.onPatch (k : Nat × Nat) (f : Patch → Patch) : Act :=
  .read fun s => .emit (.power { s.power with patches := s.power.patches.put k (f (s.power.patches.get {} k)) })

def Act.patchWake (c : CellId) : Act :=
  .read fun s => .when (s.wakeDelay c != 0) (.onPatch (patchOf c) fun p => { p with clockGated := false })

/-- A token taken in from over a seam. -/
def Sw.arrives (w : Sw) (net : Net) (d : Dir) (t : Tok) : Sw :=
  { w with inb := w.inb.put (net, d) (w.inb.get [] (net, d) ++ [t]) }

/-! ### Retry, retraining, failure (R18, R19) -/

/-- The transmitter replays from the oldest flit: one more retry of it. -/
def Act.retry (l : LaneId) : Act :=
  .read fun s =>
    let n := (s.lanes.get {} l).retries + 1
    .block
      [ .onLane l fun v => { v with retries := n, nak := none, lastSend := s.cycle }
      , .countReg (lanePort l).1 (.seamst (lanePort l).2) 47 32
      , .onReg (lanePort l).1 (.seamst (lanePort l).2) fun v => withField v 55 48 (max n (v.extractLsb' 48 8).toNat)
      , .onFieldLog (lanePort l).1 fun f =>
          { f with retries := f.retries.put (lanePort l).2 (f.retries.get 0 (lanePort l).2 + 1) } ]

/-- After 8 unsuccessful retries the link fails, after 4 the crossing is retrained first, otherwise the flit is
replayed (R19). -/
def Act.replayFlit (l : LaneId) : Act :=
  .read fun s =>
    let n := (s.lanes.get {} l).retries
    if 8 ≤ n then .linkFails l.link l.crossing
    else if n = 4 then (Act.onLane l fun v => { v with stuck := true, nak := none }).seq (.retrain l.link l.crossing)
    else .retry l

/-- FLIT_REPLAY (R18): on a negative acknowledgement. -/
def execFlitReplay (l : LaneId) (s : State) : Out :=
  Act.next (Act.when ((s.lanes.get {} l).nak.isSome && !s.laneHolds l && !s.linkFailed l.link) (.replayFlit l)) s

/-- Cycles without an acknowledgement after which the transmitter replays (R18, R22). -/
def replayWait : LinkId → Nat
  | .seam _ => 12
  | .edge _ _ => 40

/-- REPLAY_TIMEOUT (R18). -/
def execReplayTimeout (l : LaneId) (s : State) : Out :=
  let v := s.lanes.get {} l
  Act.next (Act.when (v.buf != [] && v.nak.isNone && decide (v.lastSend + replayWait l.link ≤ s.cycle) && !s.laneHolds l
    && !s.linkFailed l.link) (.replayFlit l)) s

def laneClasses : List LaneClass := [.vec, .scal, .ctl, .dyn]

/-- RETRAINING_LOCK (R19), within 1,600 cycles: the lanes of the crossing resume; one whose fourth retry failed goes on
with its fifth. -/
def execRetrainingLock (l : LinkId) (crossing : Nat) (s : State) : Out :=
  Act.next (match ((s.links.get {} l).crossings.get {} crossing).retraining with
    | none => Act.skip
    | some t =>
      if s.linkFailed l || decide (t + 1600 < s.cycle) then .skip
      else
        .block
          [ .onLink l fun v => v.setCrossing crossing { v.crossing crossing with retraining := none }
          , .read fun s => .when ((s.links.get {} l).crossings.all fun e => e.2.retraining.isNone)
              (.each (linkPorts l) fun p => .when (s.portState p == stRetraining) (.setPort p stUp))
          , .each laneClasses fun c => .each [true, false] fun up =>
              let k : LaneId := { link := l, crossing := crossing, cls := c, up := up }
              .when (s.lanes.get {} k).stuck ((Act.onLane k fun v => { v with stuck := false }).seq (.retry k)) ]) s

/-- RETRAINING_TIMEOUT (R19). -/
def execRetrainingTimeout (l : LinkId) (crossing : Nat) (s : State) : Out :=
  Act.next (match ((s.links.get {} l).crossings.get {} crossing).retraining with
    | none => Act.skip
    | some t => .when (decide (t + 1600 ≤ s.cycle)) (.linkFails l crossing)) s

/-- The switch at which a request waits for the link in a direction, and the request's packet. -/
def State.tableWaiter (s : State) (l : LinkId) (up : Bool) : Option (CellId × Node) :=
  let lane : LaneId := { link := l, crossing := 0, cls := .dyn, up := up }
  s.nodes.find? fun e => e.1.die == (lanePort lane).1 && (s.choose e.1 (laneDir lane)).any fun w =>
    w.1.p.tracked && (match w.1.hop with
      | .lane k => k.link == l && k.up == up
      | _ => false)

/-- CROSSING_TABLE_RESUME (R20): a request that waits for an entry of the link's table crosses. -/
def execCrossingTableResume (l : LinkId) (up : Bool) (s : State) : Out :=
  Act.next (match s.tableWaiter l up with
    | some e => Act.hopAt e.1 (laneDir { link := l, crossing := 0, cls := .dyn, up := up })
    | none => .skip) s

/-- An edge link is brought up only in a federation, and not at its ends (R24, R26). -/
def State.edgeWanted (s : State) : LinkId → Bool
  | .seam _ => true
  | .edge north cx =>
    let d := if north then cx else 18 + cx
    s.regField d .modid 16 16 == 1 && (if north then decide (0 < s.moduleNo d) else decide (s.moduleNo d < s.maxModule d))

/-- SEAMST.CLR (R21). -/
def Act.seamstClr (die port : Nat) : Act := .onReg die (.seamst port) fun v => withField v 55 16 0
def execSeamstClr (die port : Nat) (s : State) : Out := (Act.seamstClr die port).next s

/-- SEAMST.FAILIRQ written 1 (R21): the die's interrupt ends with the last such bit. -/
def Act.failirqClear (die port : Nat) : Act :=
  (Act.onReg die (.seamst port) fun v => withField v 6 6 0).seq
    (.read fun s => .when ((List.range 5).all fun p => s.regField die (.seamst p) 6 6 == 0)
      (.each (List.range 4) fun n => .onHart die n fun h => { h with xpirq := h.xpirq &&& 1 }))
def execSeamstFailirqClear (die port : Nat) (s : State) : Out := (Act.failirqClear die port).next s

/-- A launch with a FEDERATION-domain level that is not complete (R26). -/
def State.federated (s : State) : Bool :=
  s.launches.any fun e => e.2.st.accepted && (List.range e.2.levels).any fun k => e.2.domain k == 5

/-- MODID (R26): a link that is no longer wanted is left DOWN (R24). -/
def Act.modidWrite (die : Nat) (v : DWord) : Act :=
  .read fun s =>
    let route := (v.extractLsb' 32 18).toNat
    let bad := (List.range 6).any fun i => 6 ≤ bitField route (3 * i + 2) (3 * i)
    if bad || (route != s.regField die .modid 49 32 && s.federated) then .skip
    else
      (Act.emit (.reg die .modid v)).seq
        (.read fun s => .when (((portEdge die 4).any fun l => !s.edgeWanted l) && s.portState (die, 4) != stFailed)
          (.setPort (die, 4) stDown))
def execModidWrite (die : Nat) (v : DWord) (s : State) : Out := (Act.modidWrite die v).next s

/-! ### Patches and the defect map (R9, R11, R12) -/

/-- Cells of a patch. -/
def patchCells (die p : Nat) : List CellId :=
  (List.range 16).map fun i => { die := die, col := p % 24 * 4 + i % 4, row := p / 24 * 4 + i / 4 }

/-- A region covers a cell of the patch. -/
def State.patchUsed (s : State) (die p : Nat) : Bool :=
  s.regions.any fun e => e.2.cols != [] && e.2.rect.meets (patchRect die p)

/-- PATCH_CLOCK_GATE (R9): nothing fired or arrived for 64 cycles. -/
def execPatchClockGate (die patch : Nat) (s : State) : Out :=
  Act.next (Act.when ((patchCells die patch).all fun c => decide ((s.cells.get {} c).busy + 64 ≤ s.cycle))
    (.onPatch (die, patch) fun p => { p with clockGated := true })) s

/-- POWER_GATE_PATCH (R9): CEs and switches lose what they hold, MEs keep it. -/
def execPowerGatePatch (die patch : Nat) (s : State) : Out :=
  Act.next (Act.when (!s.patchUsed die patch && !(s.power.patches.get {} (die, patch)).powerGated)
    (.block
      [ .each (patchCells die patch) fun c => .onCell c fun x => { me := x.me, busy := x.busy }
      , .dropWarm (patchRect die patch)
      , .onPatch (die, patch) fun p => { p with powerGated := true, waking := none } ])) s

/-- POWER_GATE_WAKE (R9): 1,600 cycles after the dispatcher began it, while the module is ACTIVE. -/
def execPowerGateWake (die patch : Nat) (s : State) : Out :=
  Act.next (match (s.power.patches.get {} (die, patch)).waking with
    | none => Act.skip
    | some t => .when (decide (t + 1600 ≤ s.cycle) && s.power.state == .active)
        (.onPatch (die, patch) fun p => { p with powerGated := false, waking := none })) s

/-- DEFMAP (R11, R12): a change inside a region is counted and ignored. -/
def Act.defmapWrite (die w : Nat) (v : DWord) : Act :=
  .read fun s =>
    let new := v &&& (RegName.defmap w).stored
    let diff := new ^^^ s.reg die (.defmap w)
    if (List.range 64).any fun b => diff.getLsbD b && s.patchUsed die (64 * w + b) then .countReg die .defmapst 15 0
    else
      .block
        [ .emit (.reg die (.defmap w) v)
        , .onFieldLog die fun f => { f with defmap := f.defmap.put w new } ]
def execDefmapWrite (die w : Nat) (v : DWord) (s : State) : Out := (Act.defmapWrite die w v).next s

/-! ### Power states (R27, R29) -/

def tierHomes : List Nat := List.range 26

/-- What the field log had not written to flash is lost with the power (R32). -/
def Act.loseLog : Act := .each (List.range 26) fun d => .read fun s => .emit (.fieldLog d (s.flushedLog.get {} d))

/-- Memory contents of the module's DRAM, and everything that power keeps, are lost (R27, R29). -/
def Act.powerOff : Act :=
  .block
    [ .read fun s => .emit (.power { s.power with state := .off, exiting := none })
    , .loseLog
    , .each tierHomes fun h => .emit (.memClear (homeKey h 0) (homeKey (h + 1) 0))
    , .each (List.range 24) fun d => (Act.emit (.cellsClear d)).seq (.emit (.nodesClear d))
    , .emit (.reqs [])
    , .read fun s => .each s.regions fun e => .emit (.region e.1 none)
    , .read fun s => .each s.launches fun e => .emit (.launch e.1 none)
    , .read fun s => .each s.harts fun e => .onHart e.1.1 e.1.2 fun h => { h with running := false } ]

/-- The memories of partitions without a launch: HBM4 by physical die. -/
def State.idleHbm (s : State) : List Nat :=
  (List.range 24).filter fun d => !(s.launches.any fun e => e.2.st.accepted && s.partOf d == some e.2.part)

def Act.runTailors (on : Bool) : Act :=
  .read fun s => .each (s.harts.filter fun e => isC e.1.1) fun e => .onHart e.1.1 e.1.2 fun h => { h with running := on }

/-- Every patch of the C-dies (R9). -/
def allPatches (p : Patch) : Store (Nat × Nat) Patch := (List.range 24).flatMap fun d => (List.range 288).map fun i => ((d, i), p)

/-- The fabric of every C-die is power-gated: CEs and switches lose what they hold and resident copies go, MEs stay
(R27). -/
def Act.gateFabric : Act :=
  .block
    [ .read fun s => .each s.cells fun e => .onCell e.1 fun x => { me := x.me, busy := x.busy }
    , .read fun s => .each s.dispatchers fun e => .onDispatcher e.1 fun d => { d with warm := [] }
    , .read fun s => .emit (.power { s.power with patches := allPatches { powerGated := true } }) ]

/-- The tailor cores lose their power, and with it their registers (R27). -/
def Act.gateTailors : Act := .read fun s => .each (s.harts.filter fun e => isC e.1.1) fun e => .emit (.hart e.1.1 e.1.2 {})

/-- POWER_STATE_CHANGE (R27). C-dies are gated only while they hold no region (R9). From STANDBY to IDLE no time is
given: it takes none (DESIGN CHOICE, log 71). -/
def execPowerStateChange (p : PowerState) (s : State) : Out :=
  Act.next (match s.power.state, p with
    | .off, _ => Act.skip
    | _, .off => .powerOff
    | .active, .active => Act.skip
    | _, .active => .when (s.power.exiting.isNone) (.emit (.power { s.power with exiting := some s.cycle }))
    | .active, .idle =>
      .when (s.regions == [])
        ((Act.emit (.power { s.power with state := .idle, selfRefresh := s.idleHbm })).seq .gateFabric)
    | .standby, .idle =>
      .when s.power.exiting.isNone
        ((Act.emit (.power { s.power with state := .idle, selfRefresh := s.idleHbm })).seq (.runTailors true))
    | .idle, .idle => Act.skip
    | _, .standby =>
      .when (s.regions == [])
        (.block
          [ .emit (.power { s.power with state := .standby, exiting := none, selfRefresh := tierHomes })
          , .gateFabric, .gateTailors ])) s

/-- Cycles to leave a state (R27). -/
def exitTime : PowerState → Nat
  | .idle => 20 * 1600
  | .standby => 2000 * 1600
  | _ => 0

/-- POWER_STATE_EXIT_DONE (R27). -/
def execPowerStateExitDone (s : State) : Out :=
  Act.next (match s.power.exiting with
    | none => Act.skip
    | some t =>
      .when (decide (t + exitTime s.power.state ≤ s.cycle))
        (.block
          [ .when (s.power.state == .standby) (.runTailors true)
          , .read fun s => .emit (.power { s.power with state := .active, exiting := none, selfRefresh := [], patches := [] }) ])) s

/-! ### Monitors (R29-R32) -/

def fullClock : Nat := 1600

/-- THROT: a clock is lowered because of the power limit (R31). -/
def Act.showThrot : Act :=
  .read fun s => .onReg 24 .pwrlim fun v =>
    withField v 16 16 (if (List.range 24).any fun d => s.power.byPower.get false d && decide (s.power.clocks.get fullClock d < fullClock)
      then 1 else 0)

/-- One step down: 100 MHz, not below 800 (R29). -/
def Act.throttle (die : Nat) (byPower : Bool) : Act :=
  (Act.read fun s => .emit (.power
    { s.power with
      clocks := s.power.clocks.put die (max 800 (s.power.clocks.get fullClock die - 100))
      lastOver := s.power.lastOver.put die s.cycle
      byPower := s.power.byPower.put die (byPower || s.power.byPower.get false die) })).seq .showThrot

/-- Bin of 5 °C of a temperature in sixteenths. -/
def tempBin (t : Int) : Int := t / 80

/-- Bin of 1 % of nominal of a voltage excursion. The spec gives no width (DESIGN CHOICE, log 71). -/
def voltBin (nom v : Nat) : Int := (100 * ((v : Int) - nom)) / (max nom 1 : Nat)

/-- MONITOR_SAMPLE (R30): the register, module power, throttling, the trip at 105 °C, the field log. -/
def execMonitorSample (die k : Nat) (volt : BitVec 16) (proc : BitVec 12) (temp power : BitVec 16) (s : State) : Out :=
  let t := temp.toInt
  let limit := s.regField 24 .pwrlim 15 0
  let above := decide (limit < power.toNat)
  let nom := Config.nominalMv die
  let out := decide (100 * volt.toNat < 97 * nom) || decide (103 * nom < 100 * volt.toNat)
  let bin := voltBin nom volt.toNat
  Act.next (Act.block
    [ .emit (.reg die (.monpr k) (BitVec.ofNat 64 (volt.toNat * 2 ^ 32 + proc.toNat * 2 ^ 20 + temp.toNat)))
    , .onReg 24 .pwrlim fun v => withField v 47 32 power.toNat
    , .onFieldLog die fun f =>
        { f with
          temps := f.temps.put (tempBin t) (f.temps.get 0 (tempBin t) + 1)
          volts := if out then f.volts.put bin (f.volts.get 0 bin + 1) else f.volts }
    , if 1680 ≤ t then .powerOff
      else
        .block
          [ .when (isC die && decide (1520 < t)) (.throttle die false)
          , .when above (.each (List.range 24) fun d => .throttle d true) ] ]) s

/-- THROTTLE_RAISE (R29): 1 ms below the thresholds. -/
def execThrottleRaise (die : Nat) (s : State) : Out :=
  Act.next (Act.when (decide (s.power.clocks.get fullClock die < fullClock)
      && decide (s.power.lastOver.get 0 die + 1000 * 1600 ≤ s.cycle))
    ((Act.emit (.power
      { s.power with
        clocks := s.power.clocks.put die (min fullClock (s.power.clocks.get fullClock die + 100))
        byPower := if s.power.clocks.get fullClock die + 100 < fullClock then s.power.byPower else s.power.byPower.put die false })).seq
      .showThrot)) s

/-- PWRLIM (R31). -/
def Act.pwrlimWrite (x : Nat) (v : DWord) : Act :=
  .when (x == 24) (.onReg 24 .pwrlim fun o => withField o 15 0 (min 18000 (max 6000 (v.extractLsb' 0 16).toNat)))
def execPwrlimWrite (x : Nat) (v : DWord) (s : State) : Out := (Act.pwrlimWrite x v).next s

/-- FIELD_LOG_FLUSH (R32). -/
def execFieldLogFlush (s : State) : Out := Act.flushLog.next s

end Sys2Proof.Machine
end

