-- ==== Sys2Proof/Machine/Host.lean ====
section
/-!
DEFINITION. What hosts do over PCIe: inbound requests through windows, mailbox messages, function registers, resets of
functions, feature negotiation (02 R33-R44, R53-R56, R63-R65).
-/
namespace Sys2Proof.Machine

/-! ### Windows (R41, R42) -/

/-- Entries of a function's window table. -/
def Fn.wincnt (v : Fn) : Nat := 2 ^ v.winlog

/-- The window entry at an aperture offset; 0 beyond the aperture. -/
def State.window (s : State) (x f off : Nat) : DWord :=
  if off / 4096 < (s.fn x f).wincnt then (s.fn x f).windows.get 0 (off / 4096) else 0

def windowVa (e : DWord) (off : Nat) : DWord := (e &&& bitsMask 62 12) + BitVec.ofNat 64 (off % 4096)

/-- Parts of n bytes from an offset, at 4 KiB boundaries: offset, first byte, bytes. -/
def pageParts : Nat → Nat → Nat → Nat → List (Nat × Nat × Nat)
  | 0, _, _, _ => []
  | k + 1, off, done, n =>
    let m := min n (4096 - off % 4096)
    if n = 0 then [] else (off, done, m) :: pageParts k (off + m) (done + m) (n - m)

def splitPages (off n : Nat) : List (Nat × Nat × Nat) := pageParts (n / 4096 + 2) off 0 n

/-- The route of an address (R53). -/
def State.routeOf (s : State) (p : Nat) (va : DWord) : InRoute :=
  let o := vaOwner va
  if o < 24 then .hbm (s.ownerDie 24 p va) else if o < 26 then .lpddr o else if o = 26 then .flash else .host

/-- A request stopped by the fence, counted at the port of the X-die by which it would leave (R42). -/
def Act.countFenced (x p : Nat) (va : DWord) : Act :=
  .read fun s =>
    match s.waySeams x (s.ownerDie x p va) with
    | n :: _ => .countBlocked (if (seamSides n).1.1 = x then (seamSides n).1 else (seamSides n).2)
    | [] => .countBlocked (x, 0)

/-- AtomicOps as read-modify-writes (R42). -/
def atomicRmw : HostAtomic → Rmw
  | .fetchAdd32 v => { op := .add, size := 4, v := v.toNat }
  | .fetchAdd64 v => { op := .add, size := 8, v := v.toNat }
  | .swap32 v => { op := .xchg, size := 4, v := v.toNat }
  | .swap64 v => { op := .xchg, size := 8, v := v.toNat }
  | .cas64 c n => { op := .cas, size := 8, v := c.toNat, new := n.toNat }
  | .cas128 c n => { op := .cas, size := 16, v := c.toNat, new := n.toNat }

/-- Window permission bit of a kind. -/
def InKind.permBit : InKind → Nat
  | .write | .relaxed => 1
  | .read => 0
  | .atomic => 2

/-- One part of an inbound request: looked up, checked, taken in or answered; a later part of a split read is answered
after the earlier ones (R42, R55). -/
def Act.inbound (x f tag off : Nat) (kind : InKind) (op : MemOp) : Act :=
  .read fun s =>
    let p := s.fnPart x f
    let e := s.window x f off
    let va := windowVa e off
    let posted := kind == .write || kind == .relaxed
    let part (fate : Option Nat) (id : Nat) : InPart :=
      { id := id, requester := .func x f, kind := kind, route := s.routeOf p va, goal := .mem va op
        asid := s.fnAsid x f, vd := if isVf f then fnVd x f else 0, part := p, tag := tag, fate := fate }
    let after := (s.xdie x).inbound.any fun q => q.requester == .func x f && q.kind == .read && q.tag == tag
    let stop (st : Nat) : Act :=
      if posted then .countDrop x f
      else if kind == .read && after then .takePart x (part (some st))
      else .emit (.out (.completion x f tag st []))
    if !e.getLsbD 63 || !e.getLsbD kind.permBit || !s.canonical x p va then stop stUnsupported
    else if s.fenced x p then (Act.countFenced x p va).seq (stop stAbort)
    else if kind == .atomic && va.toNat % op.size != 0 then stop stAbort
    else .takePart x (part none)

/-- A function that is off answers Unsupported Request. -/
def Act.forFn (x f : Nat) (a : Act) : Act :=
  .read fun s => if s.fnOn x f then a else .when (isX x) (.emit (.out (.unsupported x f)))

/-- A write of the mailbox page passes the ordering point on the route of the requester's own page. -/
def Act.mailboxWrite (x f off : Nat) (data : List Byte) : Act :=
  .read fun s =>
    .forFn x f (.when ((s.xdie x).roomFor (.func x f) 1)
      ((Act.takePart x fun id =>
        { id := id, requester := .func x f, kind := .write, route := .mailbox f, goal := .mem 0 (.store []), asid := none
          vd := 0, mailbox := some (off, data) }).seq (.releaseParts x)))

/-- The PF that the recovery loader serves: that of PCIe port 0 of its X-die (R69). -/
def loaderPf : Nat := 512

/-- Bytes of BAR4 as they read: BOOTST in its control page, the image area (R69). -/
def State.bar4Bytes (s : State) (x off n : Nat) : List Byte :=
  (List.range n).map fun i =>
    let o := off + i
    if o < 8 then (leBytes 8 (s.bootst x).toNat).getD o 0
    else if o < 0x1000 then 0
    else (s.bootOf x).bar4.get 0 o

/-- A write to BAR4's image area, in stage RECOVERY_WAIT alone (R69). -/
def Act.bar4Write (x off : Nat) (data : List Byte) : Act :=
  .read fun s => .when ((s.bootOf x).stage == .recoveryWait)
    (.onBoot x fun b =>
      { b with
        bar4 := (data.zipIdx.filter fun e => decide (0x1000 ≤ off + e.2) && decide (off + e.2 < 2 ^ 26)).foldl
          (fun m e => m.put (off + e.2) e.1) b.bar4 })

/-- INBOUND_POSTED_WRITE (R42, R54, R56): without room for its parts the write waits in the link. Of the mailbox page
only the doorbell and the slots are written so; FEAT.ACCEPT has a step of its own. -/
def execInboundPostedWrite (x fn : Nat) (bar : Bar) (off : Nat) (data : List Byte) (relaxed : Bool) (s : State) : Out :=
  Act.next (match bar with
    | .bar0 => .when (off == 0 && data.length == 8 || decide (0x800 ≤ off) && decide (off + data.length ≤ 0x1000))
        (.mailboxWrite x fn off data)
    | .bar4 => .when (isX x && fn == loaderPf) (.bar4Write x off data)
    | .bar2 => Act.forFn x fn
        (Act.when ((s.xdie x).roomFor (.func x fn) (splitPages off data.length).length)
          ((Act.each (splitPages off data.length) fun q =>
            .inbound x fn 0 q.1 (if relaxed then .relaxed else .write) (.store (((data.drop q.2.1).take q.2.2).map some))).seq
            (.releaseParts x)))) s

/-- INBOUND_READ (R37, R42, R55, R69), while the port has a tag's room (R33). -/
def execInboundRead (x fn : Nat) (bar : Bar) (tag off len : Nat) (s : State) : Out :=
  Act.next (match bar with
    | .bar4 =>
      if isX x && fn == loaderPf then Act.emit (.out (.completion x fn tag 0 (s.bar4Bytes x off len)))
      else Act.when (isX x) (.emit (.out (.unsupported x fn)))
    | .bar0 => Act.forFn x fn (Act.when ((s.xdie x).tagRoom (.func x fn))
        ((Act.takePart x fun id =>
          { id := id, requester := .func x fn, kind := .read, route := .mailbox fn, goal := .mem 0 (.load len), asid := none
            vd := 0, tag := tag, mailbox := some (off, []) }).seq (.releaseParts x)))
    | .bar2 => Act.forFn x fn (Act.when ((s.xdie x).tagRoom (.func x fn))
        ((Act.each (splitPages off len) fun q => .inbound x fn tag q.1 .read (.load q.2.2)).seq (.releaseParts x)))) s

/-- INBOUND_ATOMICOP (R42). -/
def execInboundAtomicop (x fn tag off : Nat) (op : HostAtomic) (s : State) : Out :=
  Act.next (Act.forFn x fn (Act.when ((s.xdie x).tagRoom (.func x fn))
    ((Act.inbound x fn tag off .atomic (.rmw (atomicRmw op) true)).seq (.releaseParts x)))) s

/-- INBOUND_WRITE_ACK (R53, R54): the write is performed, or answered with an error. -/
def execInboundWriteAck (x id : Nat) (s : State) : Out :=
  Act.next (Act.when ((s.xdie x).inbound.any fun p => p.id == id && p.posted && p.released
      && (s.reqOf id).all fun q => q.acked && q.back)
    ((Act.dropReq id).seq (.dropPart x id))) s

/-- INBOUND_HOLD_TIMEOUT (R42): 1 ms after a miss. -/
def execInboundHoldTimeout (x id : Nat) (s : State) : Out :=
  Act.next (Act.when ((s.xdie x).inbound.any fun p => p.id == id && (match p.heldAt with
      | some t => decide (t + 1000 * usCycles ≤ s.cycle)
      | none => false))
    (match s.reqOf id with
      | some q => .answer q [] transMiss
      | none => .skip)) s

/-- ATS_INVALIDATION (R34). -/
def execAtsInvalidation (x fn : Nat) (s : State) : Out := (Act.emit (.out (.unsupported x fn))).next s

/-! ### Function-level reset (R36) -/

/-- Every launch of a VD that is not over ends with policy KILL. -/
def Act.killVd (p vd : Nat) : Act :=
  .read fun s => .each (s.launches.filter fun e => e.2.part == p && e.2.vd == vd) fun e =>
    if e.2.st = .issued then .refuse e.1 stKilled true false
    else .when e.2.st.accepted ((Act.killLaunch e.1 stKilled).seq (.onLaunch e.1 fun l => { l with ending := some stKilled }))

/-- The reset of a VF. -/
def Act.resetVf (x f : Nat) : Act :=
  .block
    [ .onXDie x fun v => { v with inbound := v.inbound.filter fun p => p.released || p.requester != .func x f }
    , .read fun s => .killVd (s.fnPart x f) (fnVd x f)
    , .read fun s => .select (s.fnPart x f)
    , .onFn x f fun v => { v with slots := [], busy := 0, windows := [], tdisp := .unlocked }
    , .releaseParts x ]

/-- FUNCTION_LEVEL_RESET: of a VF, or of a PF, which resets its VFs. -/
def execFunctionLevelReset (x fn : Nat) (s : State) : Out :=
  Act.next (Act.when (isX x && decide (fn < 514))
    (if isVf fn then .resetVf x fn else .each (List.range 256) fun v => .resetVf x ((fn - 512) * 256 + v))) s

/-! ### Mailbox writes (R37, R38) -/

/-- MSLOT_WRITE. -/
def execMslotWrite (x fn off : Nat) (data : List Byte) (s : State) : Out :=
  Act.next (Act.when (decide (0x800 ≤ off) && decide (off + data.length ≤ 0x1000)) (.mailboxWrite x fn off data)) s

/-- MBXDB_WRITE. -/
def execMbxdbWrite (x fn : Nat) (v : DWord) (s : State) : Out := (Act.mailboxWrite x fn 0 (leBytes 8 v.toNat)).next s

/-! ### Messages (R39, R40) -/

def msgType (b : List Byte) : Nat := recNat b 0 1
def msgSeq (b : List Byte) : Nat := recNat b 4 4
def msgArg (b : List Byte) : Nat := recNat b 8 8
def msgReply (b : List Byte) : Nat := recNat b 16 8

/-- Bytes [lo, 64) are 0, and so are bytes 2 and 3 and the flags but bit 0. -/
def msgZero (b : List Byte) (lo : Nat) : Bool :=
  decide (recNat b 1 1 < 2) && recNat b 2 2 == 0 && (b.drop lo).all (· == 0)

/-- The reply address that is used: 0 when it is non-canonical or misaligned. -/
def State.replyAddr (s : State) (p : Nat) (b : List Byte) (size : Nat) : DWord :=
  let r : DWord := BitVec.ofNat 64 (msgReply b)
  if s.canonical 24 p r && aligned (msgReply b) size then r else 0

/-- Bytes 0 to 15 of a reply. -/
def replyHead (type reason : Nat) (b : List Byte) : List Byte :=
  leBytes 1 type ++ leBytes 1 (if reason = 0 then 0 else 1) ++ leBytes 2 reason ++ leBytes 4 (msgSeq b) ++ leBytes 8 (msgArg b)

/-- A reply may be written: its launches are complete, or WINCTL.SYNC reads 0 again. -/
def State.replyReady (s : State) (v : XDie) (r : Reply) : Bool :=
  (r.index.isNone || v.sync.isNone) &&
    r.launches.all fun n => match s.launches.get? n with
      | some l => l.st == .complete
      | none => true

def Act.writeReply (x : Nat) (r : Reply) : Act :=
  .read fun s =>
    let result := match r.index with
      | some i => leBytes 8 ((s.fn x r.fn).windows.get 0 i).toNat
      | none => r.result
    (Act.when (r.addr != 0) (.storeVa x r.part r.asid r.addr (padTo 64 (r.head ++ result)))).seq
      (.when (r.irq && r.addr != 0) (.emit (.out (.msix x r.fn 0))))

/-- Replies whose message's effect is complete are written. -/
def Act.flushReplies (x : Nat) : Act :=
  .read fun s =>
    let v := s.xdie x
    (Act.onXDie x fun v => { v with replies := v.replies.filter fun r => !s.replyReady v r }).seq
      (.each (v.replies.filter fun r => s.replyReady v r) fun r => .writeReply x r)

def Act.flushAll : Act := (Act.flushReplies 24).seq (.flushReplies 25)

/-- A reply to a message. -/
def Act.reply (x f type reason : Nat) (b result : List Byte) (index : Option Nat) (launches : List Nat) : Act :=
  .read fun s =>
    let p := s.fnPart x f
    (Act.onXDie x fun v =>
      { v with
        replies := v.replies ++
          [{ fn := f, addr := s.replyAddr p b 64, part := p, asid := s.fnAsid x f, irq := recNat b 1 1 % 2 == 1
             head := replyHead type reason b, result := result, index := index, launches := launches }] }).seq
      (.flushReplies x)

/-- Abuaby takes the message of a busy slot, if it is of the expected type. -/
def Act.takeMsg (x f k : Nat) (types : Nat → Bool) (a : List Byte → Act) : Act :=
  .read fun s =>
    let v := s.fn x f
    let b := v.slot k
    .when (decide (k < 32) && v.busy.getLsbD k && types (msgType b))
      ((Act.onFn x f fun v => { v with busy := v.busy &&& ~~~(1#32 <<< k) }).seq (a b))

/-- Words of 4 bytes. -/
def wordsOf (b : List Byte) (n : Nat) : List Word := (List.range n).map fun i => BitVec.ofNat 32 (recNat b (4 * i) 4)

/-- MSG_LAUNCH (R39, R83). -/
def execMsgLaunch (x fn slot : Nat) (inRange : Bool) (s : State) : Out :=
  let p := s.fnPart x fn
  Act.next (Act.takeMsg x fn slot (· == 1) fun b =>
    let novr := recNat b 24 1
    let ok := inRange && isVf fn && decide (novr ≤ 9) && aligned (msgReply b) 128 && recNat b 25 3 == 0
      && msgZero b (28 + 4 * novr)
    let l : Launch :=
      { recAddr := BitVec.ofNat 64 (msgArg b), reply := s.replyAddr p b 128, issuer := .host x
        overrides := wordsOf (b.drop 28) (min 9 novr), asid := s.fnAsid x fn, part := p, vd := fnVd x fn
        hostSeq := BitVec.ofNat 32 (msgSeq b), replyIrq := recNat b 1 1 % 2 == 1 }
    if ok then .fresh fun n => .emit (.launch n (some l))
    else
      (Act.writeCompletion l stRejected 0 false false).seq
        (.when (l.replyIrq && l.reply != 0) (.emit (.out (.msix x fn 0))))) s

/-- Launches of a VD with a record address that have not ended: not started, and started (R112). -/
def State.named (s : State) (p vd : Nat) (rec : DWord) : List (Nat × Launch) :=
  s.launches.filter fun e => e.2.part == p && e.2.vd == vd && e.2.recAddr == rec && e.2.st != .complete
    && e.2.st != .completing
def LState.notStarted : LState → Bool
  | .issued | .queued | .placing => true
  | _ => false

/-- CANCEL (R112). -/
def Act.cancel (p vd : Nat) (rec : DWord) : Act :=
  .read fun s => .each (s.named p vd rec) fun e =>
    if e.2.st = .issued then .refuse e.1 stCancelled true false
    else if e.2.st.notStarted then .endLaunch e.1 stCancelled
    else .killLaunch e.1 stKilled

/-- MSG_CANCEL (R39, R40, R112). -/
def execMsgCancel (x fn slot : Nat) (inRange : Bool) (s : State) : Out :=
  let p := s.fnPart x fn
  Act.next (Act.takeMsg x fn slot (· == 2) fun b =>
    let rec_ : DWord := BitVec.ofNat 64 (msgArg b)
    let reason := if !inRange || !isVf fn then 2 else if !msgZero b 24 then 4 else 0
    if reason != 0 || !aligned (msgReply b) 64 then .reply x fn 2 reason b [] none []
    else
      let es := s.named p (fnVd x fn) rec_
      let early := (es.filter fun e => e.2.st.notStarted).length
      .block
        [ .cancel p (fnVd x fn) rec_
        , .reply x fn 2 0 b (leBytes 4 early ++ leBytes 4 (es.length - early)) none (es.map (·.1))
        , .select p ]) s

/-! ### Window table (R43, R44) -/

/-- Bits that a window entry holds. -/
def windowBits : DWord := bitsMask 63 12 ||| bitsMask 2 0

/-- An entry written; an index at or above WINCNT is ignored. -/
def Act.setWindow (x f i : Nat) (e : DWord) : Act :=
  .read fun s => .when (decide (f < 514) && decide (i < (s.fn x f).wincnt))
    (.onFn x f fun v => { v with windows := v.windows.put i (e &&& windowBits) })

/-- WINCTL.SYNC set: it waits for every part that has looked up an entry. -/
def Act.startSync (x : Nat) : Act :=
  .onXDie x fun v => { v with sync := some ((v.inbound.filter fun p => p.mailbox.isNone).map (·.id)) }

/-- A part is performed, parked in a side log, or over. -/
def State.partSettled (s : State) (x id : Nat) : Bool :=
  !((s.xdie x).inbound.any fun p => p.id == id) ||
    (match s.reqOf id with
      | some q => q.st == .logged || q.acked
      | none => false)

/-- The drain is complete: SYNC reads 0, and MAPWIN is answered. -/
def Act.endSync (x : Nat) : Act :=
  .read fun s => .when (match (s.xdie x).sync with
      | some ids => ids.all (s.partSettled x)
      | none => false)
    ((Act.onXDie x fun v => { v with sync := none }).seq (.flushReplies x))

/-- MSG_MAPWIN (R39, R40, R43). -/
def execMsgMapwin (x fn slot : Nat) (allowed : Bool) (s : State) : Out :=
  Act.next (Act.takeMsg x fn slot (· == 3) fun b =>
    let i := msgArg b
    let reason := if !allowed then 3 else if (s.fn x fn).wincnt ≤ i then 5 else if !msgZero b 32 then 4 else 0
    if reason != 0 || !aligned (msgReply b) 64 then .reply x fn 3 reason b [] none []
    else
      .block
        [ .setWindow x fn i (BitVec.ofNat 64 (recNat b 24 8)), .startSync x
        , .reply x fn 3 0 b [] (some i) [] ]) s

/-- VDST as it reads (R96). -/
def State.vdst (s : State) (p vd : Nat) : DWord :=
  match s.leadDie p with
  | none => 0
  | some d =>
    let q := s.equantum p vd
    let v := withField (withField (s.reg d (.vdst vd)) 47 32 (min 0xFFFF q)) 31 16 (min 0xFFFF (s.pendingOf p vd))
    withField v 4 4 (if s.vdField p vd 47 32 < q then 1 else 0)

/-- MSG_QUERY (R39, R40); a message of unknown TYPE is taken here as well. -/
def execMsgQuery (x fn slot : Nat) (s : State) : Out :=
  let p := s.fnPart x fn
  Act.next (Act.takeMsg x fn slot (fun t => t == 0 || decide (3 < t)) fun b =>
    let reason := if msgType b != 4 then 1 else if !msgZero b 24 || msgArg b != 0 then 4 else 0
    .read fun t =>
      let v := t.fn x fn
      let free := ((List.range 32).filter fun k => !v.busy.getLsbD k).length
      let cfg := match s.leadDie p with
        | some d => (s.reg d (.vdcfg (fnVd x fn))).toNat
        | none => 0
      let result := leBytes 8 cfg ++ leBytes 8 (s.vdst p (fnVd x fn)).toNat ++ leBytes 16 s.feat.active.toNat
        ++ leBytes 2 v.wincnt ++ leBytes 2 free
      .reply x fn (if reason = 1 then 0 else 4) reason b (if reason = 0 then result else []) none []) s

/-- Window entries of the X-die when function f has 2^w of them. -/
def State.entriesWith (s : State) (x f w : Nat) : Nat :=
  ((List.range 514).map fun g => if g = f then 2 ^ w else (s.fn x g).wincnt).foldl (· + ·) 0

/-- FNCFG (R44): EN; WINLOG while EN = 0, at most 14, within the entries of the X-die. -/
def Act.fncfgWrite (x f : Nat) (v : DWord) : Act :=
  .read fun s =>
    let old := s.fn x f
    let w := if old.en || !isVf f then old.winlog else min 14 (v.extractLsb' 0 4).toNat
    .when (decide (s.entriesWith x f w ≤ 524288)) (.onFn x f fun o => { o with en := v.getLsbD 16, winlog := w })

def execFncfgWrite (x fn : Nat) (v : DWord) (s : State) : Out :=
  Act.next (Act.when (isX x && decide (fn < 514)) (.fncfgWrite x fn v)) s

/-- WINENT (R43, R44): the entry that WINSEL names. -/
def Act.winentWrite (x : Nat) (v : DWord) : Act :=
  .read fun s =>
    let w := (s.xdie x).winsel.toNat
    .setWindow x (bitField w 25 16) (bitField w 13 0) v
def execWinentWrite (x : Nat) (v : DWord) (s : State) : Out := Act.next (Act.when (isX x) (.winentWrite x v)) s

/-- WINCTL_SYNC (R43). -/
def execWinctlSync (x : Nat) (s : State) : Out := Act.next (Act.when (isX x) (.startSync x)) s

/-- WINCTL_SYNC_DONE (R43). -/
def execWinctlSyncDone (x : Nat) (s : State) : Out := (Act.endSync x).next s

/-- WINST.CLR (R44). -/
def Act.winstClr (x f : Nat) : Act := .onFn x f fun v => { v with drops := 0 }
def execWinstClr (x fn : Nat) (s : State) : Out := Act.next (Act.when (isX x && decide (fn < 514)) (.winstClr x fn)) s

/-! ### Features (R63-R65) -/

/-- Bits 0 to 3: the arithmetic revisions. -/
def revisionBits : BitVec 128 := 0xF

/-- The accepted subset, with the lowest offered revision when none was accepted. -/
def acceptedFeatures (offer v : BitVec 128) : BitVec 128 :=
  let a := v &&& offer
  if a &&& revisionBits != 0 then a
  else match (List.range 4).find? fun i => offer.getLsbD i with
    | some i => a ||| (1#128 <<< i)
    | none => a

/-- FEAT_ACCEPT_WRITE: the primary PF alone, once. -/
def execFeatAcceptWrite (pf : Nat) (v : BitVec 128) (s : State) : Out :=
  Act.next (Act.when (pf == 0 && s.feat.offer != 0 && !s.feat.accepted)
    (.emit (.feat { s.feat with active := acceptedFeatures s.feat.offer v, accepted := true }))) s

end Sys2Proof.Machine
end

