-- ==== Sys2Proof/Machine/Peers.lean ====
section
/-!
DEFINITION. UALink peers and shared ranges, RoCEv2, launch frames and tenants (02 R46-R52, R57-R62).
-/
namespace Sys2Proof.Machine

/-! ### The export table (R47, R51) -/

def XDie.export (v : XDie) (i j : Nat) : Nat := (v.exports.get 0 (i, j)).toNat

def exportEntries : Nat := 1024

/-- First address and size of a valid entry's range. -/
def XDie.exportRange (v : XDie) (i : Nat) : Option (Nat × Nat) :=
  if bitField (v.export i 3) 63 63 = 1 then some (v.export i 0, bitField (v.export i 1) 31 0 * 65536) else none

/-- An entry that covers n bytes from a peer-visible address. -/
def State.exportAt (s : State) (x a n : Nat) : Option Nat :=
  let v := s.xdie x
  if !s.featOn featUaexport then none
  else (List.range exportEntries).find? fun i => match v.exportRange i with
    | some (b, m) => decide (b ≤ a) && decide (a + n ≤ b + m)
    | none => false

/-- An entry whose device addresses cover n bytes; RoCEv2 targets are device virtual addresses (DEDUCED, log 35). -/
def State.exportVa (s : State) (x a n : Nat) : Option Nat :=
  let v := s.xdie x
  if !s.featOn featUaexport then none
  else (List.range exportEntries).find? fun i => match v.exportRange i with
    | some (_, m) => decide (v.export i 2 ≤ a) && decide (a + n ≤ v.export i 2 + m)
    | none => false

/-- Partition and VD that an ASID belongs to (DEDUCED, log 34). -/
def State.asidOwner (s : State) (a : BitVec 16) : Option (Nat × Nat) :=
  (List.range 1024).findSome? fun vd =>
    (s.vdPart vd).bind fun p => if s.vdAsid p vd = some a then some (p, vd) else none

/-! ### Peer requests (R46, R47, R57) -/

def peerSize : PeerOp → Nat
  | .load n => n
  | .store d => d.length
  | .atomic op => (atomicRmw op).size
  | .send d => d.length

/-- Permission bit of EXPENT3. -/
def peerPerm : PeerOp → Nat
  | .load _ => 16
  | .store _ => 17
  | .send _ => 17
  | .atomic _ => 18

/-- A part as an export entry gives it: checked against the entry, the address, the fence (R42 steps 3 to 5). -/
inductive PeerCheck | bad (status : Nat) | fenced (p : Nat) (va : DWord) | ok (va : DWord) (asid : BitVec 16) (p vd : Nat)
  deriving DecidableEq, Repr

def State.peerCheck (s : State) (x : Nat) (e : Option Nat) (va : Nat → DWord) (op : PeerOp) : PeerCheck :=
  match e with
  | none => .bad stUnsupported
  | some i =>
    let w := (s.xdie x).export i 3
    let asid : BitVec 16 := BitVec.ofNat 16 w
    match s.asidOwner asid with
    | none => .bad stUnsupported
    | some (p, vd) =>
      let a := va i
      if !w.testBit (peerPerm op) || !s.canonical x p a then .bad stUnsupported
      else if s.fenced x p then .fenced p a
      else match op with
        | .atomic _ => if a.toNat % peerSize op = 0 then .ok a asid p vd else .bad stAbort
        | _ => .ok a asid p vd

def peerMemOp : PeerOp → MemOp
  | .load n => .load n
  | .store d => .store (d.map some)
  | .atomic op => .rmw (atomicRmw op) true
  | .send d => .store (d.map some)

def peerKind : PeerOp → InKind
  | .load _ => .read
  | .store _ => .write
  | .send _ => .write
  | .atomic _ => .atomic

/-- UALINK_PEER_REQUEST: up to 256 bytes, not ordered by the ordering point; it leaves as a packet at once. -/
def execUalinkPeerRequest (x port : Nat) (ua : DWord) (op : PeerOp) (s : State) : Out :=
  let n := peerSize op
  let e := s.exportAt x ua.toNat n
  let isSend := match op with
    | .send _ => true
    | _ => false
  let va (i : Nat) : DWord := BitVec.ofNat 64 ((s.xdie x).export i 2 + (ua.toNat - (s.xdie x).export i 0))
  let stop (st : Nat) : Act := .emit (.out (.ualink x port st []))
  Act.next (Act.when (isX x && decide (port < 4) && !(s.xdie x).ualinkDown.contains port && decide (n ≤ 256) && n != 0
      && !isSend && s.featOn featUaexport)
    (match s.peerCheck x e va op with
      | .bad st => stop st
      | .fenced p a => (Act.countFenced x p a).seq (stop stAbort)
      | .ok a asid p vd =>
        .fresh fun id => .read fun s =>
          let part : InPart :=
            { id := id, requester := .peer x port, kind := peerKind op, route := s.routeOf p a
              goal := .mem a (peerMemOp op), asid := some asid, vd := vd, part := p, released := true }
          .block
            [ .when (peerMemOp op).returns (.onXDie x fun v => { v with inbound := v.inbound ++ [part] })
            , .emit (.reqs (s.reqs ++ [{ part.request with way := s.wayTo (hostNode x) p part.goal }]))
            , .send (hostNode x) p 1 id part.goal ])) s

/-- One part of a RoCEv2 request; a part of a read that its check stops is answered after the earlier ones (R55). -/
def Act.rocePart (x qp : Nat) (va : DWord) (op : PeerOp) : Act :=
  .read fun s =>
    let part (a : DWord) (asid : Option (BitVec 16)) (p vd : Nat) (fate : Option Nat) (id : Nat) : InPart :=
      { id := id, requester := .qp x qp, kind := peerKind op, route := s.routeOf p a, goal := .mem a (peerMemOp op)
        asid := asid, vd := vd, part := p, fate := fate }
    let after := (s.xdie x).inbound.any fun q => q.requester == .qp x qp && q.kind == .read
    let stop (st : Nat) : Act :=
      if peerKind op == .read && after then .takePart x (part va none 31 0 (some st)) else .emit (.out (.roce x qp st []))
    match s.peerCheck x (s.exportVa x va.toNat (peerSize op)) (fun _ => va) op with
    | .bad st => stop st
    | .fenced p a => (Act.countFenced x p a).seq (stop stAbort)
    | .ok a asid p vd => .takePart x (part a (some asid) p vd none)

/-- Pieces of a RoCEv2 request at 4 KiB boundaries. -/
def rocePieces (va : DWord) (op : PeerOp) : List (DWord × PeerOp) :=
  match op with
  | .load n => (splitPages va.toNat n).map fun q => (BitVec.ofNat 64 q.1, .load q.2.2)
  | .store d => (splitPages va.toNat d.length).map fun q => (BitVec.ofNat 64 q.1, .store ((d.drop q.2.1).take q.2.2))
  | _ => [(va, op)]

/-- ROCE_REQUEST (R56, R57): through the ordering point, each queue pair one requester. A send is acknowledged in order
and its payload leaves the model (log 35). -/
def execRoceRequest (x qp : Nat) (va : DWord) (op : PeerOp) (s : State) : Out :=
  let ps := rocePieces va op
  Act.next (Act.when (isX x && decide (qp < 4096))
    (match op with
      | .send d => .when ((s.xdie x).postedOf (.qp x qp) == 0) (.emit (.out (.roce x qp 0 d)))
      | .store _ => .when ((s.xdie x).roomFor (.qp x qp) ps.length)
          ((Act.each ps fun q => .rocePart x qp q.1 q.2).seq (.releaseParts x))
      | _ => (Act.each ps fun q => .rocePart x qp q.1 q.2).seq (.releaseParts x))) s

/-- EXPENT (R51): words 0 to 2 are held, word 3 commits; an empty range or an overlap is not committed. -/
def Act.expentCommit (x : Nat) (v : DWord) : Act :=
  .read fun s =>
    let d := s.xdie x
    let i := d.expsel
    let w (j : Nat) : DWord := d.expHeld.get (d.exports.get 0 (i, j)) j
    let w0 := w 0 &&& bitsMask 63 16
    let w1 := w 1 &&& bitsMask 31 0
    let w2 := w 2 &&& bitsMask 63 16
    let w3 := v &&& (bitsMask 63 63 ||| bitsMask 18 0)
    let n := w1.toNat * 65536
    let clash := (List.range exportEntries).any fun k => k != i && (match d.exportRange k with
      | some (b, m) => decide (b < w0.toNat + n) && decide (w0.toNat < b + m)
      | none => false)
    .when (s.featOn featUaexport && !(w3.getLsbD 63 && (n == 0 || clash)))
      (.onXDie x fun d =>
        { d with
          expHeld := []
          exports := (((d.exports.put (i, 0) w0).put (i, 1) w1).put (i, 2) w2).put (i, 3) w3 })
def execExpentCommit (x : Nat) (v : DWord) (s : State) : Out := Act.next (Act.when (isX x) (.expentCommit x v)) s

/-! ### Shared ranges (R48-R52) -/

def lineOfAddr (a : Nat) : Nat := a / 64

def SharedAgent.waiting (v : SharedAgent) (req : Nat) : Option SharedReq := v.queue.find? fun q => q.req == req
def SharedAgent.take (v : SharedAgent) (req : Nat) : SharedAgent := { v with queue := v.queue.filter fun q => q.req != req }

def Act.onShared (x : Nat) (f : SharedAgent → SharedAgent) : Act := .onXDie x fun v => { v with shared := f v.shared }

def State.reqReads (s : State) (req : Nat) : Bool := match s.reqOf req with
  | some q => (match q.goal with
    | .mem _ op => op.isLoad
    | _ => false)
  | none => false

def State.reqSize (s : State) (req : Nat) : Nat := match s.reqOf req with
  | some q => (match q.goal with
    | .mem _ op => op.size
    | _ => 0)
  | none => 0

/-- The agent sends a write that was granted to its home. -/
def Act.toHome (x : Nat) (q : SharedReq) : Act :=
  .read fun s =>
    let n := s.reqSize q.req
    (Act.onXDie x fun v =>
      { v with
        outgoing := v.outgoing ++ [(q.req, q.port + 2)]
        shared := { v.shared with granted := v.shared.granted ++ [(q.req, lineOfAddr q.addr)] } }).seq
      (.each (hostPieces (payloadOf x (q.port + 2)) (n + 2) q.addr n) fun e =>
        .emit (.out (.hostRequest x (q.port + 2) q.pasid e.1 e.2 q.req)))

/-- A write of the same line reached the agent before a request and still stands in its queue (R49). -/
def State.writeBefore (s : State) (v : SharedAgent) (q : SharedReq) : Bool :=
  (v.queue.takeWhile fun e => e.req != q.req).any fun e => lineOfAddr e.addr == lineOfAddr q.addr && !s.reqReads e.req

def SharedAgent.isGranted (v : SharedAgent) (line : Nat) : Bool := v.granted.any fun e => e.2 == line

/-- SHARED_RANGE_WRITE (R49): a write or atomic at the agent is held, and the directory is asked for ownership. -/
def execSharedRangeWrite (x req : Nat) (s : State) : Out :=
  Act.next (match (s.xdie x).shared.waiting req with
    | none => Act.skip
    | some q => .when (!s.reqReads req && !s.writeBefore (s.xdie x).shared q)
        ((Act.onShared x fun v => let v := v.take req
          { v with heldWrites := v.heldWrites ++ [q] }).seq
          (.emit (.out (.directory x (lineOfAddr q.addr) false))))) s

/-- SHARED_RANGE_GRANT (R49): the oldest write held for the line goes to its home, once the one before it is performed
there; the agent's copy is dropped. -/
def execSharedRangeGrant (x line : Nat) (s : State) : Out :=
  Act.next (match (s.xdie x).shared.heldWrites.find? fun q => lineOfAddr q.addr == line with
    | none => Act.skip
    | some q => .when (!(s.xdie x).shared.isGranted line)
      ((Act.onShared x fun v =>
        { v with heldWrites := v.heldWrites.filter fun w => w.req != q.req, copies := v.copies.erase line }).seq
        (.toHome x q))) s

/-- Bytes of a read within the data of its lines. -/
def sharedBytes (addr n : Nat) (line : List Byte) : List Byte := (padTo (addr % 64 + n) line).drop (addr % 64) |>.take n

/-- Copies that the agent may hold: 16 MiB (R48). -/
def maxCopies : Nat := 262144

/-- SHARED_RANGE_READ (R48): served from the held copy, else from the line fetched from its home, of which a copy is
made unless a write to it is on its way. -/
def execSharedRangeRead (x req : Nat) (line : List Byte) (s : State) : Out :=
  Act.next (match (s.xdie x).shared.waiting req, s.reqOf req with
    | some w, some q =>
      (match q.goal with
        | .mem _ (.load n) =>
          let k := lineOfAddr w.addr
          let whole := decide (w.addr % 64 + n ≤ 64)
          (match whole, (s.xdie x).shared.copies.get? k with
            | true, some data =>
              (Act.onShared x fun v => let v := v.take req
                { v with serving := v.serving ++ [(req, k)] }).seq (.answer q (sharedBytes w.addr n data) 0)
            | _, _ =>
              (Act.onShared x fun v =>
                let v := v.take req
                if whole ∧ v.copies.length < maxCopies ∧ !v.isGranted k then { v with copies := v.copies.put k (padTo 64 line) } else v).seq
                (.answer q (sharedBytes w.addr n line) 0))
        | _ => Act.skip)
    | _, _ => Act.skip) s

/-- SHARED_RANGE_INVALIDATE (R50): the copy goes at once. -/
def execSharedRangeInvalidate (x line : Nat) (s : State) : Out :=
  Act.next (Act.when (isX x)
    (.onShared x fun v => { v with copies := v.copies.erase line, owed := if v.owed.contains line then v.owed else v.owed ++ [line] })) s

/-- A read served from a copy has returned its data. -/
def State.returned (s : State) (req : Nat) : Bool := match s.reqOf req with
  | some q => q.back
  | none => true

/-- SHARED_INVALIDATE_ACK (R50). -/
def execSharedInvalidateAck (x line : Nat) (s : State) : Out :=
  let v := (s.xdie x).shared
  Act.next (Act.when (v.owed.contains line && v.serving.all fun e => e.2 != line || s.returned e.1)
    ((Act.onShared x fun v => { v with owed := v.owed.filter (· != line), serving := v.serving.filter fun e => e.2 != line }).seq
      (.emit (.out (.directory x line true))))) s

/-- Words of a shared-range entry. -/
def XDie.range (v : XDie) (i j : Nat) : Nat := (v.ranges.get 0 (i, j)).toNat

/-- First address and end of a valid entry. -/
def XDie.rangeOf (v : XDie) (i : Nat) : Option (Nat × Nat) :=
  if bitField (v.range i 1) 63 63 = 1 then some (v.range i 0, v.range i 0 + bitField (v.range i 1) 31 0 * 65536) else none

def XDie.inRange (v : XDie) (i a : Nat) : Bool := match v.rangeOf i with
  | some (b, e) => decide (b ≤ a) && decide (a < e)
  | none => false

/-- SRENT (R51): word 1 commits both; an overlap is not committed; clearing V of a range waits. -/
def Act.srentCommit (x : Nat) (v : DWord) : Act :=
  .read fun s =>
    let d := s.xdie x
    let i := d.srsel
    let w0 := d.srHeld &&& bitsMask 63 16
    let w1 := v &&& (bitsMask 63 63 ||| bitsMask 57 56 ||| bitsMask 31 0)
    let n := (w1.extractLsb' 0 32).toNat * 65536
    let clash := (List.range 64).any fun k => k != i && (match d.rangeOf k with
      | some (b, e) => decide (b < w0.toNat + n) && decide (w0.toNat < e)
      | none => false)
    .when (s.featOn featUashared)
      (if w1.getLsbD 63 then
        .when (!clash) (.onXDie x fun d => { d with ranges := (d.ranges.put (i, 0) w0).put (i, 1) w1, clearing := d.clearing.erase i })
       else if (d.rangeOf i).isSome then .onXDie x fun d => { d with clearing := d.clearing.put i (w0, w1) }
       else .onXDie x fun d => { d with ranges := (d.ranges.put (i, 0) w0).put (i, 1) w1 })
def execSrentCommit (x : Nat) (v : DWord) (s : State) : Out := Act.next (Act.when (isX x) (.srentCommit x v)) s

/-- SRENT_CLEAR_DONE (R51): every write held for the range is performed; its copies are dropped and the entry is
cleared. -/
def execSrentClearDone (x i : Nat) (s : State) : Out :=
  let d := s.xdie x
  Act.next (match d.clearing.get? i with
    | none => Act.skip
    | some (w0, w1) =>
      .when (!((d.shared.heldWrites ++ d.shared.queue).any fun q => d.inRange i q.addr)
          && !d.shared.granted.any fun e => d.inRange i (e.2 * 64))
        (.onXDie x fun d =>
          { d with
            shared := { d.shared with copies := d.shared.copies.filter fun e => !d.inRange i (e.1 * 64) }
            ranges := (d.ranges.put (i, 0) w0).put (i, 1) w1, clearing := d.clearing.erase i })) s

/-- UALINK_PORT_DOWN (R52): what was on its way over the port completes with SEAM_FAILED. -/
def execUalinkPortDown (x port : Nat) (s : State) : Out :=
  let d := s.xdie x
  let lost := ((d.shared.queue ++ d.shared.heldWrites).filter fun q => q.port == port).map (·.req)
    ++ (d.outgoing.filter fun e => e.2 == port + 2).map (·.1)
  Act.next (Act.when (isX x && decide (port < 4))
    (.block
      [ .onXDie x fun d =>
          { d with
            ualinkDown := if d.ualinkDown.contains port then d.ualinkDown else port :: d.ualinkDown
            outgoing := d.outgoing.filter fun e => e.2 != port + 2
            shared :=
              { d.shared with
                queue := d.shared.queue.filter fun q => q.port != port
                heldWrites := d.shared.heldWrites.filter fun q => q.port != port
                granted := d.shared.granted.filter fun e => !lost.contains e.1
                copies := d.shared.copies.filter fun e => !(List.range 64).any fun i =>
                  d.inRange i (e.1 * 64) && bitField (d.range i 1) 57 56 == port } }
      , .each lost fun id => .hostFails id fSeam ])) s

/-! ### Launch frames and tenants (R57-R62) -/

/-- Fields of a tenant entry (R59). -/
def Tenant.word (t : Tenant) (j : Nat) : Nat := (t.words.get 0 j).toNat
def Tenant.vd (t : Tenant) : Nat := bitField (t.word 0) 9 0
def Tenant.part (t : Tenant) : Nat := bitField (t.word 0) 14 10
def Tenant.en (t : Tenant) : Bool := bitField (t.word 0) 15 15 == 1
def Tenant.lastSeq (t : Tenant) : Nat := bitField (t.word 1) 63 32
def Tenant.rate (t : Tenant) : Nat := bitField (t.word 1) 31 16
def Tenant.burst (t : Tenant) : Nat := bitField (t.word 1) 15 8
def Tenant.key (t : Tenant) : BitVec 256 :=
  BitVec.ofNat 256 (t.word 4 + t.word 5 * 2 ^ 64 + t.word 6 * 2 ^ 128 + t.word 7 * 2 ^ 192)

def State.tenant (s : State) (x t : Nat) : Tenant := (s.xdie x).tenants.get {} t
def Act.onTenant (x t : Nat) (f : Tenant → Tenant) : Act :=
  .onXDie x fun v => { v with tenants := v.tenants.put t (f (v.tenants.get {} t)) }

/-- DROPS of a tenant, saturating. -/
def Tenant.drop (t : Tenant) : Tenant :=
  { t with words := t.words.put 0 (withField (t.words.get 0 0) 31 16 (min 0xFFFF (bitField (t.word 0) 31 16 + 1))) }

/-- Frame fields (R58). -/
def frameTenant (b : List Byte) : Nat := recNat b 4 4
def frameNscal (b : List Byte) : Nat := recNat b 14 2
def frameRecord (b : List Byte) : Nat := recNat b 16 8

/-- LFDROP[n], and DROPS of the tenant once it is known (R60, R61). -/
def Act.dropFrame (x n : Nat) (b : List Byte) : Act :=
  (Act.onXDie x fun v => { v with lfdrop := v.lfdrop.put n (let c := v.lfdrop.get 0 n
    if c = 0xFFFFFFFF then c else c + 1) }).seq
    (.when (decide (2 ≤ n)) (.onTenant x (frameTenant b) Tenant.drop))

/-- The first of checks 0 to 4 that a frame fails (R60). -/
def State.frameFails (s : State) (x : Nat) (b : List Byte) : Option Nat :=
  let n := frameNscal b
  let t := s.tenant x (frameTenant b)
  let body := 32 + 4 * n
  if !s.featOn featEthlaunch || decide (b.length < 48) || b.length != 48 + 4 * n || recNat b 0 2 != 0x5A47
    || recNat b 2 1 != 1 || recNat b 3 1 != 0 || decide (32 < n) then some 0
  else if 4096 ≤ frameTenant b ∨ !t.en then some 1
  else if (leBytes 32 (hmacSha256 t.key (b.take body)).toNat).take 16 != b.drop body then some 2
  else if recNat b 12 2 != t.vd then some 3
  else if frameRecord b < t.word 2 ∨ t.word 3 < frameRecord b ∨ !aligned (frameRecord b) 1024 then some 4
  else none

/-- LAUNCH_FRAME (R60, R62): a frame that passes goes to the check stage of the tenant's home X-die. -/
def execLaunchFrame (x : Nat) (payload : List Byte) (s : State) : Out :=
  Act.next (Act.when (isX x)
    (match s.frameFails x payload with
      | some n => .dropFrame x n payload
      | none => .onXDie (s.hostX (s.tenant x (frameTenant payload)).part) fun v => { v with frames := v.frames ++ [payload] })) s

/-- LAUNCH_FRAME_HOME_CHECK (R60, R62): checks 5 and 6, one frame at a time. RATE = 0 accepts none (R59). -/
def execLaunchFrameHomeCheck (x : Nat) (s : State) : Out :=
  Act.next (match (s.xdie x).frames with
    | [] => Act.skip
    | b :: _ =>
      let k := frameTenant b
      let t := s.tenant x k
      let seq := recNat b 8 4
      let reply : DWord := BitVec.ofNat 64 (recNat b 24 8)
      (Act.onXDie x fun v => { v with frames := v.frames.drop 1 }).seq
        (if seq ≤ t.lastSeq then .dropFrame x 5 b
         else if t.bucket = 0 ∨ t.rate = 0 then .dropFrame x 6 b
         else
          (Act.onTenant x k fun t =>
            { t with words := t.words.put 1 (withField (t.words.get 0 1) 63 32 seq), bucket := t.bucket - 1 }).seq
            (.fresh fun n => .emit (.launch n (some
              { recAddr := BitVec.ofNat 64 (frameRecord b)
                reply := if s.canonical x t.part reply && aligned reply.toNat 128 then reply else 0
                issuer := .host x, overrides := wordsOf (b.drop 32) (frameNscal b)
                asid := s.vdAsid t.part t.vd, part := t.part, vd := t.vd, hostSeq := BitVec.ofNat 32 seq }))))) s

/-- TENANT_BUCKET_REFILL (R60): RATE tokens a ms, at most BURST. -/
def execTenantBucketRefill (x tenant : Nat) (s : State) : Out :=
  let t := s.tenant x tenant
  Act.next (Act.when (isX x && decide (tenant < 4096) && decide (t.refilled + 1000 * usCycles ≤ s.cycle))
    (.onTenant x tenant fun t => { t with bucket := min t.burst (t.bucket + t.rate), refilled := s.cycle })) s

/-- LFDROP.CLR (R61). -/
def Act.lfdropClr (x n : Nat) : Act := .onXDie x fun v => { v with lfdrop := v.lfdrop.put n 0 }
def execLfdropClr (x n : Nat) (s : State) : Out := Act.next (Act.when (isX x && decide (n < 7)) (.lfdropClr x n)) s

/-- Bits that the words of a tenant entry hold (R59). -/
def tenantBits (j : Nat) : DWord :=
  if j = 0 then bitsMask 31 0 else if j = 1 then bitsMask 63 8 else bitsMask 63 0

/-- TNENT0 (R61): the eight words become the entry at once; DROPS stays. -/
def Act.tnentCommit (x : Nat) (v : DWord) : Act :=
  .read fun s =>
    let d := s.xdie x
    let t := d.tenants.get {} d.tnsel
    let part := (v.extractLsb' 10 5).toNat
    let bad := v.getLsbD 15 && !(decide (part < 24) && s.regField x (.xpart part) 63 63 == 1)
    let w (j : Nat) : DWord :=
      if j = 0 then withField v 31 16 (bitField (t.word 0) 31 16) else d.tnHeld.get (t.words.get 0 j) j
    .when (s.featOn featEthlaunch && !bad)
      (.onXDie x fun d =>
        { d with
          tnHeld := []
          tenants := d.tenants.put d.tnsel { t with words := (List.range 8).map fun j => (j, w j &&& tenantBits j) } })
def execTnentCommit (x : Nat) (v : DWord) (s : State) : Out := Act.next (Act.when (isX x) (.tnentCommit x v)) s

end Sys2Proof.Machine
end

