-- ==== Sys2Proof/Machine/Boot.lean ====
section
/-!
DEFINITION. Cold reset and boot, attestation, recovery, the life cycle (03 R66-R72).
-/
namespace Sys2Proof.Machine

/-- Every tier that a cold reset wipes (R72). -/
def tiers : List Tier :=
  (xDies.map Tier.sram) ++ ((List.range 24).map Tier.cells) ++ ((List.range 24).map Tier.hbm) ++ (xDies.map Tier.lpddr)

/-! ### Cold reset (R67, R72) -/

/-- What every cell, switch, request, region and launch holds is lost. -/
def Act.clearFabric : Act :=
  .block
    [ .each (List.range 24) fun d => .block [.emit (.cellsClear d), .emit (.lots d {}), .emit (.dispatcher d {})]
    , .each (List.range 26) fun d => .emit (.nodesClear d)
    , .read fun s => .each s.lanes fun e => .emit (.lane e.1 {})
    , .read fun s => .each s.links fun e => .emit (.link e.1 {})
    , .emit (.reqs [])
    , .read fun s => .each s.regions fun e => .emit (.region e.1 none)
    , .read fun s => .each s.launches fun e => .emit (.launch e.1 none)
    , .read fun s => .each s.saves fun e => .emit (.save e.1.1 e.1.2 none)
    , .emit (.vault [])
    , .read fun s => .each s.slogs fun e => .emit (.slog e.1.1 e.1.2 {})
    , .read fun s => .each s.mtlbs fun e => .emit (.mtlb e.1.1 e.1.2 [])
    , .read fun s => .each s.copies fun e => .emit (.copy e.1 {})
    , .read fun s => .each s.harts fun e => .emit (.hart e.1.1 e.1.2 {}) ]

/-- A cold reset: fuses, flash and the field log stay; every wiped tier is empty from here on, and reads of it are held
until its wipe is verified. In state RETURN the identity is zeroised (R70, R71). -/
def Act.coldReset : Act :=
  .block
    [ .clearFabric
    , .each (List.range 26) fun d => .block
        [.emit (.regsClear d []), .emit (.memClear (homeKey d 0) (homeKey (d + 1) 0)), .read fun s => .emit (.resetAt d s.cycle)]
    , .emit (.ecc [])
    , .loseLog
    , .each tiers fun t => .emit (.wipe t .running)
    , .each xDies fun x => .block
        [ .read fun s => .emit (.boot x { stage := .wipe, err := if s.fuses.lcs = 3 then 6 else 0 })
        , .emit (.xdie x {}) ]
    , .each (List.range 4) fun pf => .emit (.spdm pf {})
    , .emit (.feat {})
    , .emit (.power {}) ]

/-- COLD_RESET. -/
def execColdReset (s : State) : Out := Act.coldReset.next s

/-! ### The image (R66) -/

def imageLen (b : List Byte) : Nat := recNat b 4 4

/-- The image proper: header and body. -/
def imageWhole (b : List Byte) : List Byte := b.take (7968 + imageLen b)

def zeroBytes (b : List Byte) (lo hi : Nat) : Bool := ((b.drop lo).take (hi - lo)).all (· == 0)

def headerOk (b : List Byte) : Bool :=
  recNat b 0 4 == 0x5A474657 && decide (imageLen b ≤ 0x03FF0000 - 7968) && decide (7968 + imageLen b ≤ b.length)
    && decide (recNat b 12 4 < 2) && zeroBytes b 48 80 && zeroBytes b 7936 7968

/-! ### Progress of boot (R67) -/

/-- Both X-dies halt. -/
def Act.haltBoth (err : Nat) : Act := .each xDies fun x => .onBoot x fun b => { b with stage := .halted, err := err }

def Act.runHarts (die n : Nat) : Act := .each (List.range n) fun i => .onHart die i fun h => { h with running := true }

/-- DEFMAP as the field log keeps it (R11). -/
def Act.loadDefmap (die : Nat) : Act :=
  .read fun s => .each (s.fieldLog.get {} die).defmap fun e => .emit (.reg die (.defmap e.1) e.2)

/-- The Abuaby image in the body of a firmware image, behind the firmware (R66, Config). -/
def abuabyOf (image : List Byte) : List Byte :=
  (((imageWhole image).drop 7968).zipIdx.filter fun e => decide (Config.abuabyStart ≤ e.2)).map (·.1)

/-- Firmware loads Abuaby where its system cores start: at the bottom of the LPDDR 6 (DESIGN CHOICE, log 71). -/
def Act.loadAbuaby (x : Nat) : Act := .read fun s => .storeBytes (homeKey x 0) ((abuabyOf (s.bootOf x).image).map some)

/-- Every seam has trained or failed to (R21). -/
def State.seamsTrained (s : State) : Bool :=
  (List.range 46).all fun n => (linkPorts (.seam n)).all fun p => s.portState p == stUp || s.portState p == stFailed

/-- Firmware and Abuaby come up as soon as their memories are wiped: the system cores with the LPDDR 6, the tailor
cores with everything else and with every seam UP or FAILED; then the features are offered. -/
def Act.bootGoesOn : Act :=
  .block
    [ .read fun s => .when (xDies.all fun x => (s.bootOf x).stage == .firmware && s.wipeOf (.lpddr x) == .done)
        (.each xDies fun x =>
          .block [.onBoot x fun b => { b with stage := .abuaby }, .loadAbuaby x, .runHarts x Config.systemHarts])
    , .read fun s => .when (xDies.all (fun x => (s.bootOf x).stage == .abuaby) && s.seamsTrained
          && tiers.all fun t => s.wipeOf t == .done)
        (.block
          [ .each (List.range 24) fun d => (Act.runHarts d Config.tailorHarts).seq (.loadDefmap d)
          , .read fun s => .emit (.feat { s.feat with offer := Config.featOffer })
          , .each xDies fun x => .onBoot x fun b => { b with stage := .ready } ]) ]

/-- SEAM_TRAINING (R21): from DOWN to TRAINING, and from there to UP, or to FAILED. Which crossing did not train the
spec does not say: the field log records crossing 0 (DESIGN CHOICE, log 71). -/
def execSeamTraining (l : LinkId) (ok : Bool) (s : State) : Out :=
  Act.next (Act.when (s.edgeWanted l)
    (if (linkPorts l).all fun p => s.portState p == stDown then .each (linkPorts l) fun p => .setPort p stTraining
     else .when ((linkPorts l).all fun p => s.portState p == stTraining)
      (if ok then .each (linkPorts l) fun p => .setPort p stUp else .linkFails l 0)) |>.seq .bootGoesOn) s

/-- WIPE_COMPLETE (R72): the tier may be read; with its SRAM an X-die copies the flash image and verifies it. -/
def execWipeComplete (t : Tier) (ok : Bool) (s : State) : Out :=
  Act.next (Act.when (s.wipeOf t == .running)
    (if !ok then (Act.emit (.wipe t .failed)).seq (.haltBoth 5)
     else
      .block
        [ .emit (.wipe t .done)
        , match t with
          | .sram x => .when ((s.bootOf x).stage == .wipe)
              (.onBoot x fun b => { b with stage := .verify, image := s.firmware.get [] x })
          | _ => .skip
        , .bootGoesOn ])) s

/-! ### Verification (R66, R67) -/

/-- BOOTST.ERR of an image, 0 when it is accepted (R66, R70). -/
def State.imageErr (s : State) (b : List Byte) : Nat :=
  if !headerOk b then 4
  else if sha256 ((b.drop 16).take 32) != s.fuses.keyDigest
    || !slhDsaVerify (BitVec.ofNat 256 (recNat b 16 32)) (b.take 80 ++ (imageWhole b).drop 7968) ((b.drop 80).take 7856) then 1
  else if recNat b 8 4 < s.fuses.svnMin.toNat then 2
  else 0

/-- IMAGE_VERIFY_DONE (R66, R67, R69). -/
def execImageVerifyDone (x : Nat) (s : State) : Out :=
  let b := s.bootOf x
  let err := s.imageErr b.image
  Act.next (Act.when (isX x && !b.verified && (b.stage == .verify || b.stage == .recoveryVerify))
    (if err = 0 then .onBoot x fun b =>
      { b with
        stage := .verify, verified := true, svn := BitVec.ofNat 32 (recNat b.image 8 4)
        replace := b.stage == .recoveryVerify && recNat b.image 12 4 % 2 == 1 }
     else .onBoot x fun b => { b with stage := .recoveryWait, err := err })) s

/-- A row of C-dies whose seven seams are UP (R67). -/
def State.bootPath (s : State) : Bool :=
  (List.range 4).any fun cy => (List.range 7).all fun j =>
    (linkPorts (.seam (cy * 7 + j))).all fun p => s.portState p == stUp

/-- The X-die has both digests: boot goes on when they agree, otherwise both X-dies halt. -/
def Act.compareDigests (x : Nat) : Act :=
  .read fun s =>
    let b := s.bootOf x
    match b.peerDigest with
    | none => .skip
    | some d =>
      if !b.verified || b.stage != .verify then .skip
      else if d != sha256 (imageWhole b.image) then .haltBoth 3
      else
        (Act.when b.replace (.emit (.firmware x (imageWhole b.image)))).seq
          (.onBoot x fun b => { b with stage := .firmware, err := if b.err = 6 then 6 else 0 })

/-- DIGEST_EXCHANGE: X-die x receives the digest of the other. -/
def execDigestExchange (x : Nat) (s : State) : Out :=
  let y := 49 - x
  Act.next (Act.when (isX x && (s.bootOf y).verified && (s.bootOf x).verified && s.bootPath
      && (s.bootOf x).stage != .halted && (s.bootOf y).stage != .halted)
    (.block
      [ .onBoot x fun b => { b with peerDigest := some (sha256 (imageWhole (s.bootOf y).image)) }
      , .compareDigests x, .bootGoesOn ])) s

/-- BOOT_PATH_TIMEOUT: 20 ms after reset. -/
def execBootPathTimeout (s : State) : Out :=
  Act.next (Act.when (decide (s.resetAt.get 0 24 + 20000 * usCycles ≤ s.cycle) && !s.bootPath
      && xDies.any fun x => (s.bootOf x).stage.code < 5)
    (.haltBoth 7)) s

/-! ### Attestation (R68) -/

/-- The responder answers from the end of the wipe of its SRAM on. -/
def State.spdmUp (s : State) (pf : Nat) : Bool :=
  decide (pf < 4) && (let st := (s.bootOf (24 + pf / 2)).stage
    st != .rom && st != .wipe)

def digestBytes (d : BitVec 256) : List Byte := leBytes 32 d.toNat

/-- The measurement blocks of the X-die's responder, in index order. Their bytes the spec does not lay out: block 1 has 8,
block 4 is three words LCS, SVNMIN and SVN, block 5 digests whole registers, REJECTS among them, first every PARTCFG and
then the XPART entries of X-die 24 and of 25 (DESIGN CHOICE, log 71). -/
def State.measurements (s : State) (x : Nat) : List Byte :=
  let b := s.bootOf x
  let parts := (List.range 24).flatMap fun d => leBytes 8 (s.reg d .partcfg).toNat
  let xparts := xDies.flatMap fun x => (List.range 24).flatMap fun p => leBytes 8 (s.reg x (.xpart p)).toNat
  leBytes 8 Config.romVersion.toNat ++ digestBytes (sha256 (imageWhole b.image)) ++ digestBytes (sha256 (abuabyOf b.image))
    ++ leBytes 4 s.fuses.lcs.toNat ++ leBytes 4 s.fuses.svnMin.toNat ++ leBytes 4 b.svn.toNat
    ++ digestBytes (sha256 (parts ++ xparts)) ++ leBytes 16 s.feat.active.toNat

/-- 32 bytes that the responder draws. -/
def freshNonce (ix : Nat) : List Byte := (List.range 32).map fun i => Config.freeByte ix i

def Act.doe (pf : Nat) (data : List Byte) : Act := .emit (.out (.doe pf data))

def Act.onSpdm (pf : Nat) (f : Spdm → Spdm) : Act := .read fun s => .emit (.spdm pf (f (s.spdm.get {} pf)))

/-- An answer that carries a new nonce, signed on request. -/
def Act.noncedAnswer (pf : Nat) (signed : Bool) (theirs body : List Byte) : Act :=
  .read fun s =>
    let mine := freshNonce s.freeIx
    .block
      [ .emit (.free (s.freeIx + 1)), .onSpdm pf fun v => { v with nonce := some mine }
      , .doe pf (body ++ mine ++ (if signed then Config.identitySign (theirs ++ body ++ mine) else [])) ]

def Act.spdmError (pf : Nat) : Act := .doe pf [0x7F]

/-- The state that a TDISP message leads to; none where it is an error (the TDISP standard; PRESUMED, log 71). -/
def tdispNext : TdispMsg → Tdisp → Option Tdisp
  | .lock, .unlocked => some .locked
  | .start, .locked => some .run
  | .stop, _ => some .unlocked
  | .state, t => some t
  | _, _ => none

def Tdisp.code : Tdisp → Nat
  | .unlocked => 0 | .locked => 1 | .run => 2

/-- A TDISP message for a VF of the PF, answered with the state that the VF is in then (R33). -/
def Act.tdispMsg (pf vf : Nat) (m : TdispMsg) : Act :=
  .read fun s =>
    let x := 24 + pf / 2
    let f := pf % 2 * 256 + vf
    match if s.featOn featTdisp && decide (vf < 256) then tdispNext m (s.fn x f).tdisp else none with
    | none => .spdmError pf
    | some t => (Act.onFn x f fun v => { v with tdisp := t }).seq (.doe pf (leBytes 1 t.code))

/-- SPDM_REQUEST: in RETURN only GET_VERSION and unsigned GET_MEASUREMENTS are answered (R71). -/
def execSpdmRequest (pf : Nat) (req : SpdmReq) (s : State) : Out :=
  let zeroised := s.fuses.lcs == 3
  let x := 24 + pf / 2
  Act.next (Act.when (s.spdmUp pf) (match req with
    | .getVersion => .doe pf [0x13]
    | .getMeasurements nonce signed => .noncedAnswer pf (signed && !zeroised) nonce (s.measurements x)
    | .getCertificate slot => if zeroised || slot != 0 then .spdmError pf else .doe pf (Config.identityChain slot)
    | .challenge nonce => if zeroised then .spdmError pf else .noncedAnswer pf true nonce (s.measurements x)
    | .keyExchange =>
      if zeroised then .spdmError pf
      else (Act.onSpdm pf fun v => { v with inSession := true }).seq (.noncedAnswer pf true [] [])
    | .endSession => (Act.onSpdm pf fun v => { v with inSession := false }).seq (.doe pf [])
    | .ideKey stream key =>
      if zeroised || !(s.spdm.get {} pf).inSession || !s.featOn featIde || 64 < stream then .spdmError pf
      else (Act.onSpdm pf fun v => { v with ide := v.ide.put stream key }).seq (.doe pf [])
    | .tdisp vf m => if zeroised || !(s.spdm.get {} pf).inSession then .spdmError pf else .tdispMsg pf vf m)) s

/-! ### Life cycle (R71, R72) and recovery (R69) -/

/-- The token is in order. The target's code is signed as one byte: the spec gives no width (DESIGN CHOICE, log 71). -/
def State.tokenOk (s : State) (pf : Nat) (target : BitVec 2) (serial nonce sig : List Byte) : Bool :=
  let v := s.spdm.get {} pf
  v.inSession && slhDsaVerify Config.vendorKey (leBytes 1 target.toNat ++ serial ++ nonce) sig
    && serial == leBytes 16 s.fuses.serial.toNat && v.nonce == some nonce && lcsNext s.fuses.lcs target
    && decide (5 ≤ (s.bootOf (24 + pf / 2)).stage.code) && (s.bootOf (24 + pf / 2)).stage != .halted

/-- LIFECYCLE_TOKEN: the fuses are burnt, the flash media key is replaced so that every user block becomes unreadable,
and a cold reset follows; any other token is refused. -/
def execLifecycleToken (pf : Nat) (target : BitVec 2) (serial nonce sig : List Byte) (s : State) : Out :=
  Act.next (Act.when (s.spdmUp pf)
    (if s.tokenOk pf target serial nonce sig then
      .block
        [ .emit (.burn target), .emit (.mediaKey (s.mediaKey + 1)), .emit (.memClear (homeKey 26 0) (homeKey 28 0))
        , .coldReset ]
     else .spdmError pf)) s

/-- The image that stands in BAR4: as many bytes as RECGO names. -/
def Boot.loaderImage (b : Boot) (len : Nat) : List Byte :=
  (List.range (min len (2 ^ 26 - 0x1000))).map fun i => b.bar4.get 0 (0x1000 + i)

/-- RECGO_WRITE: the recovery loader takes the image that stands in BAR4; elsewhere nothing happens. -/
def execRecgoWrite (x : Nat) (len : DWord) (s : State) : Out :=
  Act.next (Act.when (isX x && (s.bootOf x).stage == .recoveryWait)
    (.onBoot x fun b =>
      { b with stage := .recoveryVerify, recgo := len, image := b.loaderImage len.toNat, verified := false })) s

end Sys2Proof.Machine
end

