-- ==== Sys2Proof/Machine/Parts.lean ====
section
/-!
DEFINITION. Hard partitions: their registers, the last-resort completer, the reset of one tenant, and the flash
translation layer's cap (03 R73-R82).
-/
namespace Sys2Proof.Machine

/-! ### PARTCFG and XPART (R76-R78) -/

/-- The die holds an allocated region, or a part of one. -/
def State.dieUsed (s : State) (die : Nat) : Bool := s.regions.any fun e => e.2.cols != [] && e.2.rect.dies.contains die

/-- The credit and the pointers with which selection starts when its partition is formed (R101). -/
def Dispatcher.formed (d : Dispatcher) : Dispatcher := { d with deficit := [], ptr := [], ptr0 := [] }

/-- PARTCFG (R76): a die that changes its partition forms the new one. -/
def Act.partcfgWrite (die : Nat) (v : DWord) : Act :=
  .read fun s =>
    if s.dieUsed die then .countReg die .partcfg 47 32
    else
      (Act.onReg die .partcfg fun o => (v &&& (bitsMask 9 8 ||| bitsMask 4 0)) ||| (o &&& bitsMask 47 32)).seq
        (.when (v.toNat % 32 != s.regField die .partcfg 4 0)
          (.read fun s => .each (s.partDies (v.toNat % 32)) fun d => .onDispatcher d Dispatcher.formed))
def execPartcfgWrite (die : Nat) (v : DWord) (s : State) : Out := Act.next (Act.when (isC die) (.partcfgWrite die v)) s

/-- LPDDR 6 and flash ranges of an enabled entry, in GiB and in units of 64 GiB: base, size. -/
def lpRange (v : Nat) : Nat × Nat := (bitField v 56 48, bitField v 47 38)
def flRange (v : Nat) : Nat × Nat := (bitField v 37 31, bitField v 30 23)
def rangesClash (a b : Nat × Nat) : Bool :=
  decide (0 < a.2) && decide (0 < b.2) && decide (a.1 < b.1 + b.2) && decide (b.1 < a.1 + a.2)

/-- XPART[p] (R77): an overlap of enabled ranges is counted and ignored. A base and size whose sum is above the bound is
stored as written, and the range ends at the memory's end (`State.ownerRange`): the spec names no refusal of it (DESIGN
CHOICE, log 71). -/
def Act.xpartWrite (x p : Nat) (v : DWord) : Act :=
  .read fun s =>
    let clash := v.getLsbD 63 && (List.range 24).any fun q =>
      let o := (s.reg x (.xpart q)).toNat
      q != p && o.testBit 63 && (rangesClash (lpRange v.toNat) (lpRange o) || rangesClash (flRange v.toNat) (flRange o))
    if clash then .countReg x .xpartst 15 0 else .emit (.reg x (.xpart p) v)
def execXpartWrite (x p : Nat) (v : DWord) (s : State) : Out :=
  Act.next (Act.when (isX x && decide (p < 24)) (.xpartWrite x p v)) s

/-! ### The last-resort completer (R80) -/

/-- The link at a port. -/
def linkAt (p : DiePort) : Option LinkId :=
  ((List.range 46).find? fun n => (seamSides n).1 == p || (seamSides n).2 == p).map LinkId.seam

/-- LRC_DONE: every crossing that the port tracks is answered FIREWALL, in both directions. -/
def execLrcDone (die port : Nat) (s : State) : Out :=
  Act.next (match linkAt (die, port) with
    | none => Act.skip
    | some l =>
      .when (s.regField die (.sfw port) 2 2 == 1 && s.regField die (.sfw port) 3 3 == 0)
        (.block
          [ .onLink l fun v => { v with table := [] }
          , .each (s.links.get {} l).table fun e => .read fun s => match s.reqOf e.req with
              | some q => .when q.unanswered (.turnedAway q fFirewall)
              | none => .skip
          , .onReg die (.sfw port) fun v => withField v 3 3 1 ])) s

/-! ### The reset of a tenant (R80) -/

/-- Ports on both sides of the seams that border a partition. -/
def State.borderPorts (s : State) (p : Nat) : List DiePort :=
  (List.range 46).flatMap fun n =>
    let e := seamSides n
    if (s.partOf e.1.1 == some p) != (s.partOf e.2.1 == some p) then [e.1, e.2] else []

/-- The partition is fenced, and the completers of its border are done. -/
def State.mayReset (s : State) (p : Nat) : Bool :=
  xDies.all (fun x => s.fenced x p) && (s.borderPorts p).all fun e => s.regField e.1 (.sfw e.2) 3 3 == 1

/-- Lanes between dies of a list. -/
def laneWithin (dies : List Nat) (l : LaneId) : Bool :=
  match laneEnds l with
  | some (a, b) => dies.contains a.die && dies.contains b.die
  | none => false

/-- The agent works on a die of the list. -/
def agentOnDies (dies : List Nat) (a : Agent) : Bool :=
  match a with
  | .ctx c _ | .stream c _ => dies.contains c.die
  | .copy c => dies.contains c.die
  | .hart d _ => dies.contains d
  | .dispatcher d => dies.contains d
  | _ => false

/-- Requests of a side log are discarded: issuers outside the dies are answered FIREWALL. -/
def Act.discardLog (dies : List Nat) (k : Nat × Nat) (which : Req → Bool) : Act :=
  .read fun s => .each ((s.logged k).filter which) fun q =>
    (Act.leaveLog k q.id false).seq
      (.when (!agentOnDies dies q.agent) ((Act.onReq q.id fun r => { r with st := .held 0 }).seq (.turnedAway q fFirewall)))

/-- The side logs of a partition: all that its dies' logs hold, and its own entries in those of the X-dies. -/
def Act.discardLogs (p : Nat) (dies : List Nat) : Act :=
  (Act.each dies fun d => .each (List.range 8) fun i => .discardLog dies (d, i) fun _ => true).seq
    (.each xDies fun x => .each (List.range 10) fun i => .discardLog dies (x, i) fun q => q.part == p)

/-- One die reset and wiped. -/
def Act.resetDie (die : Nat) : Act :=
  .block
    [ .emit (.cellsClear die), .emit (.nodesClear die), .emit (.dispatcher die {}), .emit (.lots die {})
    , .each (List.range 8) fun i => .emit (.slog die i {})
    , .emit (.mtlb die 0 [])
    , .read fun s => .each (s.copies.filter fun e => e.1.die == die) fun e => .emit (.copy e.1 {})
    , .each (List.range Config.tailorHarts) fun n => .emit (.hart die n { running := true })
    , .emit (.memClear (homeKey die 0) (homeKey (die + 1) 0))
    , .read fun s => .emit (.ecc (s.eccBad.filter fun k => decide (k < homeKey die 0) || decide (homeKey (die + 1) 0 ≤ k)))
    , .emit (.wipe (.cells die) .running), .emit (.wipe (.hbm die) .running)
    , .read fun s => .emit (.resetAt die s.cycle) ]

/-- PARTITION_RESET: every launch of the partition ends with KILLED, its side logs are discarded, its dies are reset
and wiped; saved contexts of the old tenant can no longer be restored (R135). -/
def execPartitionReset (p : Nat) (s : State) : Out :=
  let dies := s.partDies p
  Act.next (Act.when (s.mayReset p)
    (.block
      [ .each (s.launches.filter fun e => e.2.part == p) fun e =>
          if e.2.st = .issued then .refuse e.1 stKilled true false
          else .when (e.2.st.accepted) (.endLaunch e.1 stKilled)
      , .discardLogs p dies
      , .read fun s => .each (s.regions.filter fun e => dies.contains e.2.origin.die) fun e => .emit (.region e.1 none)
      , .each dies .resetDie
      , .read fun s => .emit (.reqs (s.reqs.filter fun q => !agentOnDies dies q.agent))
      , .read fun s => .each s.links fun e => .onLink e.1 fun v =>
          { v with table := v.table.filter fun x => (s.reqOf x.req).isSome }
      , .read fun s => .each (s.lanes.filter fun e => laneWithin dies e.1) fun e => .emit (.lane e.1 {})
      , .emit (.vault (s.vault.filter fun r => r.part != p))
      , .emit (.epoch p (s.epochs.get 0 p + 1))
      , .each (s.launches.filter fun e => e.2.part == p && e.2.st.accepted) fun e =>
          .block
            [ .reportLaunch e.2 stKilled 0, .completionIrq e.2
            , .onLaunch e.1 fun l => { l with st := .complete } ]
      , .flushAll ])) s

/-! ### The flash translation layer's cap (R82) -/

/-- HELD, and with it the interrupt of Abuaby's harts, which stays while it is 1. Which of their interrupts that is the
spec does not say: the S-mode external one (DESIGN CHOICE, log 71). -/
def Act.setHeld (x : Nat) (on : Bool) : Act :=
  (Act.onReg x .ftlgc fun o => withField o 8 8 (if on then 1 else 0)).seq
    (.each (List.range Config.systemHarts) fun n => .onHart x n fun h => { h with xpirq := if on then 1 else 0 })

/-- FTLGC: CAP, at most 50; writing 1 to HELD clears it. -/
def Act.ftlgcWrite (x : Nat) (v : DWord) : Act :=
  (Act.onReg x .ftlgc fun o => withField o 6 0 (min 50 (v.extractLsb' 0 7).toNat)).seq (.when (v.getLsbD 8) (.setHeld x false))
def execFtlgcWrite (x : Nat) (v : DWord) (s : State) : Out := Act.next (Act.when (isX x) (.ftlgcWrite x v)) s

/-- FTLGC_HELD_CLEAR. -/
def execFtlgcHeldClear (x : Nat) (s : State) : Out :=
  Act.next (Act.when (isX x) (.setHeld x false)) s

/-- FTL_GC_WINDOW: the window's collection traffic in percent, never above the cap; held back when more was wanted. While
it is held back and no block is free, stores wait at the flash window; `free` says whether one is. -/
def execFtlGcWindow (x traffic : Nat) (wanted free : Bool) (s : State) : Out :=
  let cap := s.regField x .ftlgc 6 0
  let held := wanted && decide (cap ≤ traffic)
  Act.next (Act.when (isX x)
    (.block
      [ .onReg x .ftlgc fun o => withField o 23 16 (min cap traffic)
      , .onXDie x fun v => { v with flashStall := held && !free }
      , .when held
          (.block
            [.setHeld x true, .countReg x .ftlgc 63 32, .emit (.out (.abuabyIrq x 0))]) ])) s

end Sys2Proof.Machine
end

