-- ==== Sys2Proof/Machine/XForm.lean ====
section
/-!
DEFINITION. What every form of the Xphido extension shares: where it may run, how it is ordered and how it waits
(15 R376-R381, R390).
-/
namespace Sys2Proof.Machine

/-- A form's surroundings: the hart's die and number, its registers, its partition (31 for none). -/
structure XEnv where
  s : State
  d : Nat
  n : Nat
  h : Hart
  part : Nat

/-- The partition whose lead die assigns the ASID to a VD (DESIGN CHOICE, log 23). -/
def State.asidPart (s : State) (asid : Option (BitVec 16)) : Nat :=
  match asid with
  | none => 31
  | some a =>
    ((List.range 24).find? fun p => match s.leadDie p with
      | some l => (List.range 1024).any fun v =>
          s.regField l (.vdasid v) 16 16 == 1 && s.regField l (.vdasid v) 15 0 == a.toNat
      | none => false).getD 31

/-- The partition on whose behalf a hart acts: its die's, for a tailor core. -/
def State.hartPart (s : State) (d n : Nat) : Nat :=
  if isC d then (s.partOf d).getD 31 else s.asidPart (s.hart d n).asid

def Req.ofHart (d n : Nat) (r : Req) : Bool := r.agent == .hart d n && !r.isDone

/-- The hart has accesses that are not performed (R379). -/
def State.hartPending (s : State) (d n : Nat) : Bool := s.reqs.any (Req.ofHart d n)

/-- The instruction waits: the pc stays, and a later turn executes it again. -/
def Act.holdX (d n : Nat) (w : HartWait) : Act := .onHart d n fun h => { h with wait := some w }

/-- The instruction waits for accesses; what they owe at SYSTEM scope is asked for (R228). -/
def Act.awaitX (d n : Nat) (ids : List Nat) : Act := (Act.holdX d n .queued).seq (.atSystem ids)

/-- Accesses of the hart that are not performed. -/
def State.hartOwes (s : State) (d n : Nat) : List Nat := (s.reqs.filter (Req.ofHart d n)).map (·.id)

/-- Who may execute a form (R376). -/
structure Allowed where
  tailor : Bool
  system : Bool
  /-- S-mode is the lowest mode. -/
  priv : Bool
  deriving DecidableEq, Repr

def tailorOnly : Allowed := { tailor := true, system := false, priv := true }
def systemOnly : Allowed := { tailor := false, system := true, priv := true }
def bothCores : Allowed := { tailor := true, system := true, priv := true }
def anyMode : Allowed := { tailor := true, system := true, priv := false }

def Allowed.permits (a : Allowed) (die : Nat) (p : Priv) : Bool :=
  (if isC die then a.tailor else a.system) && (!a.priv || p != .u)

/-- Bits of an instruction, as tval holds them (R277). -/
def instBits (i : Instr) : DWord := ((i.xphidoWord).getD 0).zeroExtend 64

/-- A form: the illegal-instruction exception where it may not run, otherwise its body. -/
def xform (i : Instr) (a : Allowed) (body : XEnv → Act) (s : State) : Out :=
  (match s.focus with
    | .hart d n =>
      let h := s.hart d n
      if !a.permits d h.priv then Act.exception d n excIllegal (instBits i)
      else body { s := s, d := d, n := n, h := h, part := s.hartPart d n }
    | _ => Act.skip).next s

/-- A form that is ordered after every earlier access of the hart (R379). -/
def xordered (i : Instr) (a : Allowed) (body : XEnv → Act) : State → Out :=
  xform i a fun x => if x.s.hartPending x.d x.n then .awaitX x.d x.n (x.s.hartOwes x.d x.n) else body x

/-- The form completes with a value in rd. -/
def XEnv.ends (x : XEnv) (rd : Reg) (v : DWord) : Act := .retireX x.d x.n rd v
/-- It performs an act and completes. -/
def XEnv.does (x : XEnv) (rd : Reg) (a : Act) (v : DWord) : Act := a.seq (x.ends rd v)
def XEnv.waits (x : XEnv) : Act := .holdX x.d x.n .queued
def XEnv.asid (x : XEnv) : Option (BitVec 16) := x.h.asid

/-- Another hart's drain of the handle runs (R390). -/
def XEnv.busy (x : XEnv) (w : Word) : Bool := (x.s.drainers w).any fun e => !(e.1 == x.d && e.2.1 == x.n)

/-- The region that rs1 names on the hart's own die: its handle, or a status (R125, R376, R382). -/
def XEnv.target (x : XEnv) (v : DWord) : Except DWord (Word × Region) :=
  if v.extractLsb' 32 32 != 0 then .error rsBadArg
  else match x.s.findHandle x.d x.part (v.extractLsb' 0 32) with
    | none => .error rsBadHandle
    | some w =>
      if handleDie w != x.d then .error rsBadHandle
      else match x.s.regions.get? w with
        | some r => .ok (w, r)
        | none => .error rsBadHandle

/-- The launch of the region is in a gang switch. -/
def XEnv.switching (x : XEnv) (r : Region) : Bool :=
  match x.s.launchOf r with
  | some l => l.st == .switching
  | none => false

/-- A region operation: it waits while another hart's drain of the handle runs (R390). -/
def xregion (i : Instr) (rd rs1 : Reg) (body : XEnv → Word → Region → Act) : State → Out :=
  xordered i tailorOnly fun x =>
    match x.target (x.h.readX rs1) with
    | .error st => x.ends rd st
    | .ok (w, r) => if x.busy w then x.waits else body x w r

end Sys2Proof.Machine
end

