-- ==== Sys2Proof/Machine/XRegion.lean ====
section
/-!
DEFINITION. Region operations of the Xphido extension (15 R382-R391).
-/
namespace Sys2Proof.Machine

/-- `rg.alloc` (R383). -/
def execRgAlloc (rd rs1 rs2 : Reg) : State → Out := xordered (.rgAlloc rd rs1 rs2) tailorOnly fun x =>
  let a := (x.h.readX rs1).toNat
  let b := (x.h.readX rs2).toNat
  let vd := bitField a 41 32
  let w := bitField a 25 16
  let h := bitField a 7 0
  let exact := b != 0
  let stops (st : DWord) : Act := x.ends rd (st <<< 32)
  let clean := a == vd * 2 ^ 32 + w * 2 ^ 16 + h
    && (b == 0 || (b.testBit 63 && b == 2 ^ 63 + bitField b 57 48 * 2 ^ 48 + bitField b 39 32 * 2 ^ 32))
  let dies := x.s.diesInOrder x.part
  if !clean || w == 0 || h == 0 || 576 < w || 192 < h || (!exact && (96 < w || 48 < h))
      || (exact && (576 ≤ bitField b 57 48 || 192 ≤ bitField b 39 32)) then stops rsBadArg
  else
    let lead := (x.s.leadDie x.part).getD 0
    if (x.s.leadDie x.part).isNone || x.s.regField lead (.vdcfg vd) 0 0 != 1
        || x.s.regField lead (.vdcfg vd) 20 16 != x.part then stops rsBadHandle
    else
      let place : Option Rect :=
        if exact then
          let q : Rect := { x := bitField b 57 48, y := bitField b 39 32, w := w, h := h }
          if x.s.rectFits dies [] q then some q else none
        else x.s.firstFit [x.d] [] w h fun _ => true
      match place with
      | none => stops rsNoCells
      | some q =>
        let die := (cellOf q.x q.y).die
        match x.s.freeEntry die with
        | none => stops rsNoCells
        | some k =>
          .fresh fun u => x.does rd (.allocate k { vd := vd, uid := u } q) ((x.s.archHandle k).zeroExtend 64)

/-- `rg.free` (R127, R389). -/
def execRgFree (rd rs1 : Reg) : State → Out := xregion (.rgFree rd rs1) rd rs1 fun x w r =>
  if r.state = .allocated ∨ r.state = .frozen ∨ (r.state = .retired ∧ r.launch = none) then
    x.does rd (.block [.unplace w r, .freeRegion w, .select x.part]) rsOk
  else x.ends rd rsBadState

/-- 16-bit numbers of a byte list. -/
def halves : List Byte → List Nat
  | a :: b :: r => (a.toNat + 256 * b.toNat) :: halves r
  | _ => []

/-- A frozen region's cells are moved to another place table (R126, R137). -/
def Act.moveRegion (w : Word) (r : Region) (cols rows : List Nat) : Act :=
  .read fun s =>
    let snap := s.snapshot w r
    .block
      [ .freeRegion w
      , .dropWarm (spanRect cols rows)
      , .emit (.region w (some { r with state := .allocated, cols := cols, rows := rows }))
      , .restoreInto w snap
      , .onRegion w fun q => { q with lastSize := r.lastSize } ]

/-- `rg.place` (R126, R384). The region keeps its handle where its origin moves to another die: DEDUCED, log 24. -/
def execRgPlace (rd rs1 rs2 : Reg) : State → Out := xregion (.rgPlace rd rs1 rs2) rd rs1 fun x w r =>
  let va := x.h.readX rs2
  if r.state != .allocated && r.state != .frozen then x.ends rd rsBadState
  else if !aligned va.toNat 8 then x.ends rd rsBadArg
  else match x.s.loadHalves x.d x.part x.asid va (r.width + r.height) with
    | none => x.ends rd rsMemFault
    | some b =>
      let t := halves b
      let cols := t.take r.width
      let rows := (t.drop r.width).take r.height
      if !x.s.tableOk w r cols rows then x.ends rd rsPlace
      else if r.state = .allocated then
        x.does rd ((Act.dropWarm (spanRect cols rows)).seq
          (.onRegion w fun q => { q with cols := cols, rows := rows })) rsOk
      else
        let snap := x.s.snapshot w r
        let want := snap.wants { r with cols := cols, rows := rows }
        let asleep := x.s.asleepIn (spanRect cols rows)
        if asleep != [] then (Act.beginWake asleep).seq x.waits
        else if x.s.lotsReady want then x.does rd (.moveRegion w r cols rows) rsOk
        else (Act.forceSweeps want).seq x.waits

def XEnv.wantOf (x : XEnv) (r : Region) (det : Bool) : Want :=
  { width := r.width, height := r.height, arith := x.s.arith, det := det
    dies := (x.s.partDies x.part).length, devlaunch := x.s.featOn featDevlaunch }

/-- `rg.load` (R385). -/
def execRgLoad (rd rs1 rs2 : Reg) : State → Out := xregion (.rgLoad rd rs1 rs2) rd rs1 fun x w r =>
  let v := x.h.readX rs2
  let va := v &&& bitsMask 63 6
  if r.state != .allocated || r.launch.isSome then x.ends rd rsBadState
  else if v &&& bitsMask 5 1 != 0 then x.ends rd rsBadArg
  else if x.s.asleepIn r.rect != [] then (Act.beginWake (x.s.asleepIn r.rect)).seq x.waits
  else match x.s.readImage x.d x.part x.asid va with
    | .error _ => x.ends rd rsMemFault
    | .ok m =>
      match m.check (x.wantOf r (v.getLsbD 0)) with
      | some j => x.does rd (.regionDefault w r (rejectRec j) 0xFF) (if j.code = 0x12 then rsNondet else rsLoadReject)
      | none =>
        match x.s.blockedRoute (loadedWith m va r) with
        | some t => x.does rd (.regionDefault w r (rejectRec (seamReject t)) 0xFF) rsLoadReject
        | none => x.does rd (.onRegion w (loadedWith m va)) rsOk

/-- `rg.start` (R386, R148). -/
def execRgStart (rd rs1 rs2 : Reg) : State → Out := xregion (.rgStart rd rs1 rs2) rd rs1 fun x w r =>
  let v := x.h.readX rs2
  let va := v &&& bitsMask 63 7
  let step := v.getLsbD 0
  match r.state with
  | .loaded =>
    if v &&& bitsMask 6 1 != 0 then x.ends rd rsBadArg
    else match if va = 0 then some (List.replicate 128 0) else x.s.loadLong x.d x.part x.asid va 2 with
      | none => x.ends rd rsMemFault
      | some b =>
        if x.s.lotsReady r.wantLots then x.does rd (.startInstance w b) rsOk
        else (Act.forceSweeps r.wantLots).seq x.waits
  | .frozen =>
    if v &&& bitsMask 6 1 != 0 || va != 0 then x.ends rd rsBadArg
    else if x.switching r then x.waits
    else if step && !(match r.fault with
        | some f => stepoverCode f.code && (f.req.isNone || f.code == fLotStale)
        | none => false) then x.ends rd rsBadState
    else x.does rd (.resume w step) rsOk
  | _ => x.ends rd rsBadState

/-- `rg.stop` (R129, R387). -/
def execRgStop (rd rs1 : Reg) : State → Out := xregion (.rgStop rd rs1) rd rs1 fun x w r =>
  match r.state with
  | .running => x.does rd (.stop w true) rsOk
  | .stopping | .freezing | .frozen => x.ends rd rsOk
  | _ => x.ends rd rsBadState

/-- `rg.drain` (R131, R387): the hart waits until the region is FROZEN or RETIRED. -/
def execRgDrain (rd rs1 : Reg) : State → Out := xregion (.rgDrain rd rs1) rd rs1 fun x w r =>
  let size := (x.s.snapshot w r).size
  match x.h.draining w, r.state with
  | none, .frozen => x.ends rd (drainResult size rsOk)
  | none, .stopping => .holdX x.d x.n (.drain x.s.cycle rd w)
  | none, .freezing => .holdX x.d x.n (.drain x.s.cycle rd w)
  | none, _ => x.ends rd rsBadState
  | some _, .frozen => x.ends rd (drainResult size (if r.fault.isSome then rsFaulted else rsOk))
  | some _, .retired => x.ends rd rsRetired
  | some _, .stopping => .skip
  | some _, .freezing => .skip
  | some _, _ => x.ends rd rsBadState

/-- Cycles of 100 µs (R387). -/
def drainLimit : Nat := 160000

/-- A bank given to a started instance of another launch has not come back (R133). -/
def Region.botHeld (r : Region) : Bool := r.given.any fun g => g.other && g.launch.isSome

/-- Lines of 128 bytes, of n, that can be written before the first that cannot (R388). -/
def State.writable (s : State) (d p : Nat) (asid : Option (BitVec 16)) : DWord → Nat → Nat
  | _, 0 => 0
  | va, n + 1 => if s.canStore d p asid va 128 then s.writable d p asid (va + 128) n + 1 else 0

/-- `rg.save` (R133, R135, R388). -/
def execRgSave (rd rs1 rs2 : Reg) : State → Out := xregion (.rgSave rd rs1 rs2) rd rs1 fun x w r =>
  let va := x.h.readX rs2
  if r.state != .frozen then x.ends rd rsBadState
  else if !aligned va.toNat 4096 then x.ends rd rsBadArg
  else if r.botHeld then x.ends rd rsBotHeld
  else
    .fresh fun number =>
      let snap := x.s.snapshot w r
      let bytes := x.s.rciBytes number x.part x.s.arith snap
      let lines := bytes.length / 128
      let ok := x.s.writable x.d x.part x.asid va lines
      if ok < lines then x.does rd (.storeLong x.d x.part x.asid va bytes (2 * ok)) rsMemFault
      else
        x.does rd
          (.block
            [ .storeLong x.d x.part x.asid va bytes (2 * lines)
            , .emit (.vault (x.s.vault ++
                [{ part := x.part, epoch := x.s.epochs.get 0 x.part, bytes := bytes, snap := snap }]))
            , .onRegion w fun q => { q with lastSize := bytes.length } ]) rsOk

/-- The context whose bytes lie at an address, under a tag of this partition and boot (R135). -/
def State.findRci (s : State) (d p : Nat) (asid : Option (BitVec 16)) (va : DWord) : Except DWord Rci :=
  match s.loadLong d p asid va 64 with
  | none => .error rsMemFault
  | some hd =>
    match rciSize hd with
    | none => .error rsRciBad
    | some n =>
      match s.loadLong d p asid va (n / 64) with
      | none => .error rsMemFault
      | some b =>
        if !rciOk p (s.epochs.get 0 p) b then .error rsRciBad
        else match s.vault.find? fun e => e.part == p && e.epoch == s.epochs.get 0 p && e.bytes == b with
          | none => .error rsRciBad
          | some e => .ok e

/-- `rg.restore` (R136, R388). -/
def execRgRestore (rd rs1 rs2 : Reg) : State → Out := xregion (.rgRestore rd rs1 rs2) rd rs1 fun x w r =>
  let va := x.h.readX rs2
  if r.state != .allocated then x.ends rd rsBadState
  else if !aligned va.toNat 4096 then x.ends rd rsBadArg
  else match x.s.findRci x.d x.part x.asid va with
    | .error st => x.ends rd st
    | .ok e =>
      if e.snap.region.width != r.width || e.snap.region.height != r.height then x.ends rd rsShape
      else
        let moved := { e.snap.region with cols := r.cols, rows := r.rows }
        let want := e.snap.wants moved
        if (x.s.blockedRoute moved).isSome then x.ends rd rsPlace
        else if x.s.asleepIn r.rect != [] then (Act.beginWake (x.s.asleepIn r.rect)).seq x.waits
        else if x.s.lotsReady want then x.does rd (.restoreInto w e.snap) rsOk
        else (Act.forceSweeps want).seq x.waits

/-- `rg.kill` (R127, R117, R389, R390): with a launched instance its launch ends (R121). -/
def execRgKill (rd rs1 : Reg) : State → Out := xordered (.rgKill rd rs1) tailorOnly fun x =>
  match x.target (x.h.readX rs1) with
  | .error st => x.ends rd st
  | .ok (w, r) =>
    if x.switching r then x.waits
    else
      x.does rd
        (.block
          [ .endDrains w rsBadState
          , .endRegion w
          , match r.launch with
            | some n => .read fun s => .when (r.state != .retired && !s.launchOver r) (.endLaunch n stKilled)
            | none => .skip
          , .select x.part ]) rsOk

/-- `rg.shut` (R127, R147). -/
def execRgShut (rd rs1 : Reg) : State → Out := xregion (.rgShut rd rs1) rd rs1 fun x w r =>
  if r.state = .running ∨ r.state = .frozen then x.does rd (.shutRegion w) rsOk else x.ends rd rsBadState

def RState.code : RState → Nat
  | .allocated => 1 | .loaded => 2 | .running => 3 | .stopping => 4 | .freezing => 5 | .frozen => 6 | .retired => 7

/-- What `rg.stat` reads (R389). -/
def State.statWord (s : State) (w : Word) (r : Region) (sel : Nat) : DWord :=
  if sel = 0 then
    BitVec.ofNat 64 (r.state.code + s.logicalOf r.origin.die * 2 ^ 8
      + (match r.fault with
        | some f => f.code % 256 * 2 ^ 16
        | none => 0)
      + (if r.given.any (·.other) then 2 ^ 24 else 0) + (if r.launch.isNone then 2 ^ 25 else 0)
      + min 0xFFFF (s.replayCount w r) * 2 ^ 32)
  else if sel = 1 then BitVec.ofNat 64 r.wcs
  else BitVec.ofNat 64 r.lastSize

/-- `rg.stat` (R389): served at once (R390), for a system core on any die of its partition. -/
def execRgStat (rd rs1 rs2 : Reg) : State → Out := xordered (.rgStat rd rs1 rs2) bothCores fun x =>
  let v := x.h.readX rs1
  let sel := (x.h.readX rs2).toNat
  if v.extractLsb' 32 32 != 0 || 2 < sel then x.ends rd allOnes
  else match x.s.findHandle x.d x.part (v.extractLsb' 0 32) with
    | none => x.ends rd allOnes
    | some w =>
      match x.s.regions.get? w with
      | none => x.ends rd allOnes
      | some r => if isC x.d && handleDie w != x.d then x.ends rd allOnes else x.ends rd (x.s.statWord w r sel)

/-- `lot.sweep` (R391). -/
def execLotSweep (rd : Reg) : State → Out := xordered (.lotSweep rd) tailorOnly fun x =>
  let l := x.s.lotsOf x.d
  if l.sweeping then x.ends rd 1 else x.does rd (.emit (.lots x.d { l with sweeping := true })) 0

end Sys2Proof.Machine
end

