-- ==== Sys2Proof/Machine/XTime.lean ====
section
/-!
DEFINITION. Copies and timelines of the Xphido extension (07 R206-R211, 15 R392-R394).
-/
namespace Sys2Proof.Machine

/-! ### Timelines -/

/-- The context that a TLID names, in a partition; none for a bad one (R85, R394). -/
def XEnv.timeline (x : XEnv) (v : DWord) : Option CopyId :=
  if v.toNat < 2 ^ 16 ∧ v.getLsbD 15 ∧ tlidOk (x.s.partDies x.part).length v.toNat then some (x.s.tlCopy x.d x.part v.toNat)
  else none

/-! ### Scratchpad references (R208) -/

def isRef (v : DWord) : Bool := v.getLsbD 63
def refHandle (v : DWord) : Word := v.extractLsb' 28 32
def refCol (v : DWord) : Nat := (v.extractLsb' 18 10).toNat
def refRow (v : DWord) : Nat := (v.extractLsb' 10 8).toNat
def refLine (v : DWord) : Nat := (v.extractLsb' 0 10).toNat

/-- The region with a uid. -/
def State.regionUid (s : State) (uid : Nat) : Option (Word × Region) := s.regions.find? fun e => e.2.uid == uid

/-- The memory element of a logical cell as the region's image and its live pool allocations describe it. -/
def State.refMe (s : State) (r : Region) (col row : Nat) : Option Me :=
  (r.inits.find? fun e => e.1 == col && e.2.1 == row).map fun e =>
    { e.2.2.me with pool := (s.cells.get {} (r.cellAt col row)).me.pool }

/-- The lines that the rows of a reference name: first line and lines of a row, rows, stride in lines. -/
structure RefSpan where
  first : Nat
  count : Nat
  rows : Nat
  stride : Int
  deriving DecidableEq, Repr

/-- First line of a row. -/
def RefSpan.rowAt (q : RefSpan) (i : Nat) : Int := q.first + q.stride * i

/-- Every line lies in 0 to 1,023. -/
def RefSpan.inside (q : RefSpan) : Bool :=
  q.rows == 0 || q.count == 0 ||
    (decide (0 ≤ q.rowAt 0) && decide (0 ≤ q.rowAt (q.rows - 1)) && decide (q.rowAt 0 + q.count ≤ 1024)
      && decide (q.rowAt (q.rows - 1) + q.count ≤ 1024))

/-- The span, which lies inside, names a line. -/
def RefSpan.names (q : RefSpan) (line : Nat) : Bool :=
  q.count != 0 && (List.range (min q.rows 1024)).any fun i =>
    decide (q.rowAt i ≤ line) && decide ((line : Int) < q.rowAt i + q.count)

/-- Check 4 of R209 for one reference. -/
def State.refOk (s : State) (die p : Nat) (v : DWord) (rows lines : Nat) (stride : DWord) (isDst : Bool) : Bool :=
  let q : RefSpan := { first := refLine v, count := lines, rows := rows, stride := stride.toInt / 128 }
  v.extractLsb' 60 3 == 0 &&
    (match (s.findHandle die p (refHandle v)).bind s.regions.get? with
      | none => false
      | some r =>
        decide (refCol v < r.width) && decide (refRow v < r.height) && q.inside &&
          (match s.refMe r (refCol v) (refRow v) with
            | none => lines == 0 || rows == 0
            | some m => (List.range 1024).all fun l => !q.names l ||
                (match m.access 1 (refCol v == 0 && refRow v == 0) l with
                  | some a => !(a.param && isDst)
                  | none => false)))

/-! ### `cp.start` (R206-R209, R392) -/

def copyFmt : Nat → Fmt
  | 0 => .i32 | 1 => .f32 | 2 => .bf16 | _ => .f16

def copyOp : Nat → Option ROp
  | 1 => some .add | 2 => some .min | 3 => some .max | _ => none

/-- The fields of a descriptor's 64 bytes. -/
def copyDesc (b : List Byte) : CopyDesc :=
  let f (off n : Nat) : Nat := recNat b off n
  { src := BitVec.ofNat 64 (f 0x00 8), dst := BitVec.ofNat 64 (f 0x08 8), len := f 0x10 4, rows := f 0x14 4
    sstride := BitVec.ofNat 64 (f 0x18 8), dstride := BitVec.ofNat 64 (f 0x20 8)
    op := copyOp (f 0x28 1), fmt := copyFmt (f 0x29 1), scope := scopeOf (f 0x2A 1), acc := f 0x2B 1 % 2 == 1
    diemask := BitVec.ofNat 24 (f 0x2C 4), origin := BitVec.ofNat 32 (f 0x30 4) }

/-- Check 1 of R209 on a descriptor that was read. -/
def State.descOk (s : State) (die p : Nat) (b : List Byte) : Bool :=
  let f (off n : Nat) : Nat := recNat b off n
  let d := copyDesc b
  (b.drop 0x34).all (· == 0) && decide (f 0x28 1 < 4) && decide (f 0x29 1 < if d.op.isSome then 4 else 1)
    && decide (3 ≤ f 0x2A 1) && decide (f 0x2A 1 ≤ 6) && decide (f 0x2B 1 < if d.op.isSome then 2 else 1)
    && decide (f 0x2C 4 < 2 ^ 24)
    && (d.diemask == 0 || (d.op.isSome && !isRef d.src && decide (vaOwner d.src < 24)))
    && (d.origin == 0 || (s.findHandle die p d.origin).isSome)

/-- An address with another owner. -/
def withOwner (va : DWord) (o : Nat) : DWord := setBits va 52 5 o

/-- Checks 2 to 7 of R209, in order: the number of the first that fails. -/
def State.descCode (s : State) (p : Nat) (c : CopyId) (d : CopyDesc) : Option Nat :=
  let t := s.copies.get {} c
  let al (v : DWord) : Bool := isRef v || aligned v.toNat 128
  let canon (v : DWord) : Bool := isRef v || s.canonical c.die p v
  let ref (v stride : DWord) (isDst : Bool) : Bool := !isRef v || s.refOk c.die p v d.rows (d.len / 128) stride isDst
  if !(al d.src && al d.dst && aligned d.len 128 && aligned d.sstride.toNat 128 && aligned d.dstride.toNat 128) then some 2
  else if !(canon d.src && canon d.dst
      && (List.range 24).all fun i => !d.diemask.getLsbD i || s.canonical c.die p (withOwner d.src i)) then some 3
  else if !(ref d.src d.sstride false && ref d.dst d.dstride true) then some 4
  else if !(decide (128 ≤ d.len) && decide (d.len ≤ 0xFFFFFF80) && decide (1 ≤ d.rows) && decide (d.rows ≤ 65536)) then some 5
  else if 64 ≤ t.jobs.length then some 6
  else if t.poison.isSome then some 7
  else none

/-- The uid of the region that a handle names; 0 for none. -/
def State.uidOf (s : State) (die p : Nat) (h : Word) : Nat :=
  (((s.findHandle die p h).bind s.regions.get?).map (·.uid)).getD 0

/-- The number of the next copy of a context (R206). -/
def Copy.nextNo (t : Copy) : DWord := (if t.last.ult t.tlc then t.tlc else t.last) + 1

/-- A copy submitted: regions are named by uid from here on. -/
def Act.submit (p : Nat) (asid : Option (BitVec 16)) (c : CopyId) (d : CopyDesc) : Act :=
  .read fun s =>
    let ref (v : DWord) : Nat := if isRef v then s.uidOf c.die p (refHandle v) else 0
    let org := if d.origin = 0 then none else (s.findHandle c.die p d.origin).bind s.regions.get?
    .onCopy c fun t =>
      { t with
        last := t.nextNo
        jobs := t.jobs ++ [{ n := t.nextNo, desc := d, asid := asid, srcUid := ref d.src, dstUid := ref d.dst
                             originUid := (org.map (·.uid)).getD 0, originLaunch := org.bind (·.launch) }] }

/-- 0 − code. -/
def codeWord (k : Nat) : DWord := 0 - BitVec.ofNat 64 k

/-- `cp.start` (R392). -/
def execCpStart (rd rs1 rs2 : Reg) : State → Out := xordered (.cpStart rd rs1 rs2) tailorOnly fun x =>
  let va := x.h.readX rs1
  match x.timeline (x.h.readX rs2) with
  | none => x.ends rd (codeWord 1)
  | some c =>
    if c.die != x.d || !aligned va.toNat 64 then x.ends rd (codeWord 1)
    else match x.s.loadVa x.d x.part x.asid va 64 with
      | none => x.ends rd (codeWord 1)
      | some b =>
        if !x.s.descOk x.d x.part b then x.ends rd (codeWord 1)
        else match x.s.descCode x.part c (copyDesc b) with
          | some k => x.ends rd (codeWord k)
          | none => x.does rd (.submit x.part x.asid c (copyDesc b)) (x.s.copies.get {} c).nextNo

/-! ### Reading and advancing timelines -/

/-- What `cp.query` reports of copy n (R393). -/
def Copy.query (t : Copy) (n : DWord) : DWord :=
  match t.failed.find? fun e => e.1 == n with
  | some (_, some cause) => 5 + BitVec.ofNat 64 (cause % 256 * 2 ^ 8)
  | some (_, none) => 6
  | none =>
    if t.last.ult n then 0
    else match t.jobs with
      | [] => 4
      | j :: rest =>
        if j.n = n then (if j.suspended.isSome then 3 else 2)
        else if rest.any fun k => k.n == n then 1
        else 4

/-- `cp.query` (R393). -/
def execCpQuery (rd rs1 rs2 : Reg) : State → Out := xordered (.cpQuery rd rs1 rs2) bothCores fun x =>
  match x.timeline (x.h.readX rs1) with
  | none => x.ends rd allOnes
  | some c => x.ends rd ((x.s.copies.get {} c).query (x.h.readX rs2))

/-- `tl.read` on a core (R394). -/
def execCoreTlRead (rd rs1 : Reg) : State → Out := xordered (.coreTlRead rd rs1) bothCores fun x =>
  match x.timeline (x.h.readX rs1) with
  | none => x.ends rd allOnes
  | some c => x.ends rd (x.s.copies.get {} c).tlc

/-- The context is poisoned at a number at or below n (R211). -/
def Copy.poisonedBy (t : Copy) (n : DWord) : Bool :=
  match t.poison with
  | some q => decide (q.1.toNat ≤ n.toNat)
  | none => false

/-- `tl.wait` on a core (R227, R394): the hart waits while the count is below. -/
def execCoreTlWait (rd rs1 rs2 : Reg) : State → Out := xordered (.coreTlWait rd rs1 rs2) bothCores fun x =>
  match x.timeline (x.h.readX rs1) with
  | none => x.ends rd allOnes
  | some c =>
    let t := x.s.copies.get {} c
    let n := x.h.readX rs2
    if t.poisonedBy n then x.ends rd 0x14
    else if n.toNat ≤ t.tlc.toNat then x.ends rd 0
    else .holdX x.d x.n (.timeline c n rd)

/-- `tl.add` (R394): the poison is cleared, and launches that wait on the timeline may go on. -/
def execTlAdd (rd rs1 rs2 : Reg) : State → Out := xordered (.tlAdd rd rs1 rs2) bothCores fun x =>
  match x.timeline (x.h.readX rs1) with
  | none => x.ends rd allOnes
  | some c =>
    let v := (x.s.copies.get {} c).tlc + x.h.readX rs2
    x.does rd ((Act.onCopy c fun t => { t with tlc := v, poison := none }).seq (.select x.part)) v

end Sys2Proof.Machine
end

