-- ==== Sys2Proof/Machine/Launches.lean ====
section
/-!
DEFINITION. The events of launches and dispatchers: issue, first placement, summaries, ageing, slices, the gang switch,
completion, seam failures (04 R84, R92-R121, 05 R124).
-/
namespace Sys2Proof.Machine

/-! ### Issue (R84, R93) -/

/-- The copy with its overrides; one at or above NSCAL is dropped. -/
def overridden (copy : List Byte) (ov : List Word) : List Byte :=
  let n := min ov.length (recNat copy 0x00B 1)
  copy.take 0x200 ++ ((ov.take n).flatMap fun w => leBytes 4 w.toNat) ++ copy.drop (0x200 + 4 * n)

def Issuer.isHart : Issuer → Bool
  | .hart _ _ _ => true
  | _ => false

/-- The launch with its record taken; for a hart the VD is the copy's, and the partition that VD's (R84). -/
def State.taken (s : State) (l : Launch) (b : List Byte) : Launch :=
  let l := { l with copy := overridden b l.overrides }
  if l.issuer.isHart then
    let vd := l.field 0x008 2
    { l with vd := vd, part := (s.vdPart vd).getD l.part }
  else l

/-- The VD is enabled and permitted to the issuer (R83). -/
def State.vdPermitted (s : State) (l : Launch) : Bool :=
  s.vdEnabled l.part l.vd && l.field 0x008 2 == l.vd &&
    (match l.issuer with
      | .hart d _ _ => !isC d || s.partOf d == some l.part
      | _ => true)

/-- Features that the record uses are active. -/
def State.featuresOk (s : State) (l : Launch) : Bool :=
  (!l.flag flagDet || s.featOn featDet) && (!l.flag flagDebug || s.featOn featDebuggrant)
    && (!((List.range l.levels).any fun k => l.domain k == 5) || s.featOn featFederation)

def State.queueHolds (s : State) (l : Launch) : Nat :=
  (s.launches.filter fun e => e.2.sameQueue l && e.2.st.accepted).length

/-- The fan-out of a FEDERATION-domain team is at most the number of modules (R91). -/
def State.fedFits (s : State) (l : Launch) : Bool :=
  (List.range l.levels).all fun k => l.domain k != 5 || decide (l.fanout k ≤ s.maxModule (s.mapDie l.part) + 1)

/-- Steps 2 to 7 of R93 for a copied record: the status of the first that fails. -/
def State.issueCheck (s : State) (l : Launch) : Option Nat :=
  if !s.recordOk l || l.field 0x002 1 != s.arith then some stLoadReject
  else if !s.vdPermitted l then some stRejected
  else if !s.featuresOk l then some stLoadReject
  else if !l.teamsOk (s.partDies l.part).length || !s.fedFits l || !s.placeable l then some stLoadReject
  else if 64 ≤ s.queueHolds l then some stQueueFull
  else none

/-- The dispatcher that homes the launch: that of one die when every instance is bound to it, else the lead (R100). -/
def State.homeOf (s : State) (l : Launch) : Nat :=
  match (((List.range (l.teams 0)).map fun n => l.logicalDies (s.partDies l.part).length n)).eraseDups with
  | [[h]] => h
  | _ => 0

/-- The launch enters its queue (R93, R99), and the issuer learns it. -/
def Act.accept (id : Nat) : Act :=
  .fresh fun k => .read fun s =>
    match s.launches.get? id with
    | none => .skip
    | some l =>
      .block
        [ .onLaunch id fun l =>
            { l with st := .queued, seq := k, cls := 3 - l.queue / 2, waitSince := s.cycle, home := s.homeOf l }
        , .answerIssuer l 0
        , .select l.part ]

/-- LAUNCH_ISSUE (R84, R93). -/
def execLaunchIssue (id : Nat) (s : State) : Out :=
  Act.next (match s.launches.get? id with
    | none => Act.skip
    | some l =>
      let hart := l.issuer.isHart
      if l.st != .issued || !s.memoryReady (s.ownerDie (s.mapDie l.part) l.part l.recAddr) then .skip
      else match if aligned l.recAddr.toNat 1024 then s.loadLong (s.mapDie l.part) l.part l.asid l.recAddr 16 else none with
        | none => .refuse id (if s.feat.accepted then stLoadReject else stFeatures) (!hart) false
        | some b =>
          let t := s.taken l b
          (Act.onLaunch id fun _ => t).seq
            (match if s.feat.accepted then s.issueCheck t else some stFeatures with
              | some status => .refuse id status true (s.recordOk t && t.teamsOk (s.partDies t.part).length)
              | none => .accept id)) s

/-! ### The first placement (R93, R124) -/

/-- The want of a launch's image check. -/
def State.launchWant (s : State) (l : Launch) : Want :=
  { width := l.width, height := l.height, arith := s.arith, id := some l.imageId, det := l.flag flagDet
    dies := (s.partDies l.part).length, devlaunch := s.featOn featDevlaunch }

/-- The image is refused: one record, and the launch ends without a region. The cell that it names is taken where the
first region that was to be loaded has it. -/
def Act.rejectImage (n : Nat) (l : Launch) (r : Option Region) (f : FaultRec) : Act :=
  .read fun s =>
    .block
      [ .launchRecordAt l.part (some n) f.code
          (recordBytes { vd := l.vd, record := l.recAddr } f 0xFF (s.partCycle l.part))
          (r.map fun q => match f.cell with
            | some (c, w) => (q.cellAt c w).die
            | none => q.origin.die)
      , .endLaunch n f.code
      , .select l.part ]

/-- IMAGE_LOAD_COMPLETE (R103, R106, R124): the image is read, validated and loaded into every cold region, and all
instances start. A launch that lost a region meanwhile ends with KILLED. -/
def execImageLoadComplete (launch : Nat) (s : State) : Out :=
  Act.next (match s.launches.get? launch with
    | none => Act.skip
    | some l =>
      let rs := s.regionsOf launch
      let cold := rs.filter fun e => e.2.state == .allocated && (s.saves.get? (launch, e.2.inst)).isNone
      let first := cold.head?.map (·.2)
      if l.st != .placing then .skip
      else if l.insts.any fun i => !i.retired && i.handle.isNone then .endLaunch launch stKilled
      else if cold = [] then .startPlaced launch
      else match s.launchImage l with
        | .error va => .rejectImage launch l first { rejectRec { step := 1, kind := 0 } with kind := 1, addr := va }
        | .ok m =>
          match m.check (s.launchWant l), firstSome (cold.map fun e => s.blockedRoute (loadedWith m l.image e.2)) with
          | some j, _ => .rejectImage launch l first (rejectRec j)
          | none, some t => .rejectImage launch l first (rejectRec (seamReject t))
          | none, none =>
            (Act.each cold fun e => .onRegion e.1 (loadedWith m l.image)).seq (.startPlaced launch)) s

/-! ### Summaries and ageing (R101, R102) -/

/-- Weighted VDs with an eligible launch on a die, by class. -/
def State.summary (s : State) (p die : Nat) : List (Nat × Nat) :=
  (((s.eligibleAt p die).filter fun e => decide (0 < s.weight p e.2.vd)).map fun e => (e.2.cls, e.2.vd)).eraseDups

/-- DISPATCHER_SUMMARY (R101): every dispatcher of the partition receives it, and one that waited for its weighted
rivals selects again. -/
def execDispatcherSummary (die : Nat) (s : State) : Out :=
  Act.next (match s.partOf die with
    | none => Act.skip
    | some p =>
      (Act.each (s.partDies p) fun d => .onDispatcher d fun v => { v with summaries := v.summaries.put die (s.summary p die) }).seq
        (.select p)) s

/-- AGEING_PROMOTION (R102). -/
def execAgeingPromotion (launch : Nat) (s : State) : Out :=
  Act.next (match s.launches.get? launch with
    | none => Act.skip
    | some l =>
      .when ((l.st == .queued || l.st == .saved) && decide (l.cls < 3)
          && decide (l.waitSince + l.ageBound * usCycles < s.cycle))
        ((Act.onLaunch launch fun l => { l with cls := l.cls + 1, waitSince := s.cycle }).seq (.select l.part))) s

/-! ### Slices and the gang switch (R102, R107, R113-R118) -/

/-- The launch that would take the cells of a running one: the one that select() takes among those that qualify. -/
def State.successor (s : State) (n : Nat) (l : Launch) : Option Nat :=
  let die := s.dieAt l.part l.home
  let d := s.dispatchers.get {} die
  (s.selectFrom l.part (s.preemptors n l) (d.elsewhere die) d 4).map (·.1)

/-- The incoming launch's places are chosen before the switch starts (R113). -/
def Act.keepPlaces (n m : Nat) : Act :=
  .read fun s =>
    let freed := { s with regions := s.regions.filter fun e => e.2.launch != some n }
    match (s.launches.get? m).bind (freed.plan m) with
    | some ps => .onLaunch m fun l => { l with places := ps.map fun p => (p.r.inst, p.r.cols, p.r.rows) }
    | none => .skip

/-- SLICE_END (R102, R107, R113). -/
def execSliceEnd (launch : Nat) (s : State) : Out :=
  Act.next (match s.launches.get? launch with
    | none => Act.skip
    | some l =>
      if l.st != .running || s.cycle < l.sliceStart + l.quantum * usCycles then .skip
      else
        (Act.endCharge launch).seq
          (match if s.switchable launch then s.successor launch l else none with
            | some m => (Act.keepPlaces launch m).seq <| .onLaunch launch fun l =>
                { l with
                  st := .switching
                  switch := some { tick := s.cycle, deadline := s.cycle + (s.gangTime launch + 20) * usCycles, incoming := [m] } }
            | none => (Act.newSlice launch).seq (.select l.part))) s

/-- The launch and its open switch. -/
def State.switchOf (s : State) (n : Nat) : Option (Launch × Switch) :=
  match s.launches.get? n with
  | some l => if l.st = .switching then l.switch.map fun w => (l, w) else none
  | none => none

/-- Regions of the gang whose origin lies on a die. -/
def State.gangOn (s : State) (n die : Nat) : List (Word × Region) := (s.regionsOf n).filter fun e => e.2.origin.die == die

def Act.onSwitch (n : Nat) (f : Switch → Switch) : Act := .onLaunch n fun l => { l with switch := l.switch.map f }

/-- SWITCH_TICK (R114): the die stops its regions of the gang. -/
def execSwitchTick (launch die : Nat) (s : State) : Out :=
  Act.next (match s.switchOf launch with
    | none => Act.skip
    | some (_, w) =>
      .when (w.verdict == 0 && !w.ticked.contains die && (s.gangDies launch).contains die)
        ((Act.each ((s.gangOn launch die).filter fun e => e.2.state == .running) fun e => .stop e.1 false).seq
          (.onSwitch launch fun w => { w with ticked := die :: w.ticked }))) s

/-- SWITCH_READY (R114, R115): every region of the die's part is frozen and saved, or retired; with the last die the
lead commits. -/
def execSwitchReady (launch die : Nat) (s : State) : Out :=
  Act.next (match s.switchOf launch with
    | none => Act.skip
    | some (_, w) =>
      let rs := s.gangOn launch die
      let ready := die :: w.ready
      .when (w.verdict == 0 && w.ticked.contains die && !w.ready.contains die && decide (s.cycle ≤ w.deadline)
          && rs.all fun e => e.2.state == .frozen || e.2.state == .retired)
        ((Act.each (rs.filter fun e => e.2.state == .frozen) fun e =>
            .emit (.save launch e.2.inst (some (s.snapshot e.1 e.2)))).seq
          (.onSwitch launch fun w =>
            { w with ready := ready, verdict := if (s.gangDies launch).all ready.contains then 1 else w.verdict }))) s

/-- SWITCH_DEADLINE (R116, R118). -/
def execSwitchDeadline (launch : Nat) (s : State) : Out :=
  Act.next (match s.switchOf launch with
    | none => Act.skip
    | some (l, w) => .when (w.verdict == 0 && decide (w.deadline ≤ s.cycle)) (.missSwitch launch l w)) s

/-- An incoming launch is involved in the switch no more: its places are free, and a kill that waited follows (R112). -/
def Act.incomingOver (m : Nat) : Act :=
  (Act.onLaunch m fun l => { l with places := [] }).seq
    (.read fun s => .when ((s.launches.get? m).any (·.killAfter)) (.endLaunch m stKilled))

/-- The incoming launches are charged as selected ones are, and placed where the lead chose. -/
def Act.beginIncoming (p die : Nat) (ms : List Nat) : Act :=
  .each ms fun m => .read fun s =>
    match s.launches.get? m with
    | none => .skip
    | some l =>
      let d := s.dispatchers.get {} die
      (Act.when (s.eligible m l) (match s.selectFrom p [(m, l)] (d.elsewhere die) d 4 with
        | some (_, d') =>
          .block
            [ .emit (.dispatcher die d')
            , .onLaunch m fun l => { l with charge := if s.weight p l.vd = 0 then 0 else s.equantum p l.vd, chargeCls := l.cls }
            , .beginLaunch m ]
        | none => .skip)).seq (.incomingOver m)

/-- Every die has freed its cells: the launch is SAVED, and the incoming launches start. -/
def Act.committed (n : Nat) (l : Launch) (w : Switch) : Act :=
  .read fun s =>
    .block
      [ .onLaunch n fun l =>
          { l with
            st := .saved, switch := none, misses := 0, waitSince := s.cycle
            insts := l.insts.map fun i => if i.retired then i else { i with handle := none } }
      , .showMisses l.part l.vd
      , .afterSwitch n
      , .read fun s => .when ((s.launches.get? n).any fun l => l.st == .saved && l.seamAt.isSome) (.endLaunch n stSeamFailed)
      , .beginIncoming l.part (s.dieAt l.part l.home) w.incoming
      , .select l.part ]

/-- SWITCH_COMMIT (R115). -/
def execSwitchCommit (launch die : Nat) (s : State) : Out :=
  Act.next (match s.switchOf launch with
    | none => Act.skip
    | some (l, w) =>
      .when (w.verdict == 1 && w.ready.contains die && !w.committed.contains die)
        (.block
          [ .each ((s.gangOn launch die).filter fun e => e.2.state == .frozen) fun e => .freeRegion e.1
          , .onSwitch launch fun w => { w with committed := die :: w.committed }
          , .when (w.ready.all fun d => d == die || w.committed.contains d) (.committed launch l w) ])) s

/-- A region of an aborted switch goes on from where it stands; one that a fault holds stays (R116). -/
def Act.unswitch (h : Word) (r : Region) : Act :=
  if r.fault.isSome || r.byStop then .skip
  else if r.state = .stopping then .onRegion h fun r => { r with state := .running, stopAt := none }
  else if r.state = .freezing ∨ r.state = .frozen then .resume h false
  else .skip

/-- Every region of a freezing launch is frozen or retired: it ends with SEAM_FAILED. -/
def Act.seamSettled (n : Nat) : Act :=
  .read fun s => .when ((s.launches.get? n).any (·.st == .freezing)
      && (s.regionsOf n).all fun e => e.2.state == .frozen || e.2.state == .retired)
    ((Act.endLaunch n stSeamFailed).seq (.read fun s => match s.launches.get? n with
      | some l => .select l.part
      | none => .skip))

/-- Every die has resumed its part: the launch runs a further slice, or freezes if a seam has failed. -/
def Act.aborted (n : Nat) (l : Launch) : Act :=
  .block
    [ .onLaunch n fun l => { l with st := if l.seamAt.isSome then .freezing else .running, switch := none }
    , .when l.seamAt.isNone (.newSlice n), .afterSwitch n
    , .each ((l.switch.map (·.incoming)).getD []) .incomingOver
    , .seamSettled n, .select l.part ]

/-- SWITCH_ABORT (R116). -/
def execSwitchAbort (launch die : Nat) (s : State) : Out :=
  Act.next (match s.switchOf launch with
    | none => Act.skip
    | some (l, w) =>
      let dies := s.gangDies launch
      .when (w.verdict == 2 && dies.contains die && !w.aborted.contains die)
        (.block
          [ .each (s.gangOn launch die) fun e => (Act.emit (.save launch e.2.inst none)).seq (.unswitch e.1 e.2)
          , .onSwitch launch fun w => { w with aborted := die :: w.aborted }
          , .when (dies.all fun d => d == die || w.aborted.contains d) (.aborted launch l) ])) s

/-! ### Virtual devices (R97, R101) -/

/-- VDCFG (R97). -/
def Act.vdcfgWrite (die vd : Nat) (v : DWord) : Act :=
  .read fun s =>
    let p := (s.partOf die).getD 31
    let part := (v.extractLsb' 16 5).toNat
    let quantum := (v.extractLsb' 32 16).toNat
    let en := v.getLsbD 0
    let old := s.reg die (.vdcfg vd)
    let err (k : Nat) : Act := .onReg die (.vdst vd) fun w => withField w 3 0 k
    let off (k : Nat) : Act := (Act.onReg die (.vdcfg vd) fun w => withField w 0 0 0).seq (err k)
    if en && quantum == 0 then off 1
    else if 24 ≤ part ∨ (en ∧ s.partDies part = []) then off 2
    else if part != (old.extractLsb' 16 5).toNat && s.pendingOf p vd != 0 then err 3
    else
      .block
        [ .emit (.reg die (.vdcfg vd) v), err 0
        , .when (en && !old.getLsbD 0) (.each (s.partDies part) fun d =>
            .onDispatcher d fun x => { x with deficit := x.deficit.filter fun e => e.1.2 != vd })
        , .select p ]
def execVdcfgWrite (die vd : Nat) (v : DWord) (s : State) : Out :=
  Act.next (Act.when (isC die && decide (vd < 1024)) (.vdcfgWrite die vd v)) s

/-! ### Completion (R92, R94, R110) -/

/-- Stores, reductions and atomics of the launch that are not performed at SYSTEM. -/
def State.launchOwes (s : State) (n : Nat) : List Nat :=
  (s.reqs.filter fun q => q.launch == some n && !q.isDone &&
    (match q.goal with
      | .mem _ op => !op.isLoad
      | .me _ _ _ (.read _ _) | .me _ _ _ (.readSb _ _) => false
      | .me _ _ _ _ => true
      | _ => false)).map (·.id)

/-- Tokens kept for a launch that is over: the banks go back. -/
def Act.dropTokens (n : Nat) (l : Launch) : Act :=
  .each (List.range 24) fun d => .read fun s =>
    let mine (t : HeldToken) : Bool := match t.launch with
      | some k => k == n
      | none => t.recAddr == l.recAddr && t.vd == l.vd && t.giver != some n
    let ts := (s.dispatchers.get {} d).tokens.filter mine
    .when (ts != [])
      ((Act.onDispatcher d fun x => { x with tokens := x.tokens.filter fun t => !mine t }).seq
        (.each ts fun t => .read fun s => .onRegion (s.bankHandle t.ref) fun r =>
          { r with given := r.given.filter fun g => !(g.col == t.ref.col && g.row == t.ref.row && g.bank == t.ref.bank) }))

/-- The timeline of COMPTL and its value after the increment. -/
def State.comptlAfter (s : State) (l : Launch) : Option (CopyId × DWord) :=
  if (l.comptl).testBit 15 ∧ l.foreign.isNone then
    let c := s.tlCopy (s.mapDie l.part) l.part (l.comptl % 2 ^ 16)
    some (c, (s.copies.get {} c).tlc + BitVec.ofNat 64 (bitField l.comptl 47 16))
  else none

/-- LAUNCH_COMPLETION (R92): bitmap, record, timeline, interrupt, in that order, once its subtrees are over and its
accesses performed at SYSTEM, which is asked for until then. -/
def execLaunchCompletion (launch : Nat) (s : State) : Out :=
  Act.next (match s.launches.get? launch with
    | none => Act.skip
    | some l =>
      let tl := s.comptlAfter l
      .when (l.st == .completing && l.outside == [])
        (if s.launchOwes launch != [] then .atSystem (s.launchOwes launch) else .block
          [ .reportLaunch l (l.ending.getD stDone) (match tl with
              | some (_, v) => v.toNat
              | none => 0)
          , match tl with
            | some (c, v) => .onCopy c fun t => { t with tlc := v }
            | none => .skip
          , .completionIrq l
          , .onLaunch launch fun l => { l with st := .complete }
          , .showMisses l.part l.vd
          , .dropTokens launch l, .freeRetired, .flushAll, .select l.part ])) s

/-! ### Seam failures (R119) -/

/-- The first cell and routing word of a region whose route crosses a seam. -/
def Region.routeAcross (r : Region) (seam : Nat) : Option (Nat × Nat × Nat) :=
  r.inits.findSome? fun e =>
    ((List.range e.2.2.sw.routes.length).find? fun i => match e.2.2.sw.routes[i]? with
      | some w => (r.routeSeams e.1 e.2.1 w).contains seam
      | none => false).map fun i => (e.1, e.2.1, i)

def Region.active (r : Region) : Bool := r.state == .running || r.state == .stopping || r.state == .freezing

/-- A message from a die's edge link that failed: launches with a subtree behind the link, and subtrees whose module lies
behind it, are affected as by a seam. The spec gives R119 for interior seams alone (DESIGN CHOICE, log 72). -/
def Act.edgeFailure (die : Nat) : Act :=
  .read fun s => .each (s.launches.filter fun e => some e.2.part == s.partOf die && e.2.st.accepted) fun e =>
    let behind (m : Nat) : Bool :=
      let x := s.edgeTo (s.mapDie e.2.part) m
      portEdge die 4 == some (.edge x.1 x.2)
    .when (e.2.outside.any behind || (match e.2.issuer with
        | .module home _ => behind home
        | _ => false))
      (.block
        [ .onLaunch e.1 fun l => { l with outside := l.outside.filter fun m => !behind m }
        , .seamAffects (some e.1), .seamSettled e.1 ])

/-- SEAM_FAILURE_MESSAGE (R20, R119): the dispatcher freezes its regions whose routes cross the seam. Seam 63 is the die's
edge link (R25). -/
def execSeamFailureMessage (die seam : Nat) (s : State) : Out :=
  Act.next (if seam = 63 then .when ((portEdge die 4).any s.linkFailed) (.edgeFailure die) else .when (s.linkFailed (.seam seam))
    (.each (s.regions.filter fun e => e.2.origin.die == die && e.2.active && e.2.fault.all (·.code != fSeam)) fun e =>
      match e.2.routeAcross seam with
      | none => Act.skip
      | some (col, row, _) =>
        .seamFreeze e.1 (e.2.cellAt col row) { code := fSeam, cls := 0, cell := some (col, row) } false)) s

/-- SEAM_FAILURE_STOP_TIMEOUT (R119): 10 ms after the failure, a region that still runs is stopped. -/
def execSeamFailureStopTimeout (h : Word) (s : State) : Out :=
  Act.next (match s.regions.get? h with
    | none => Act.skip
    | some r => .when (r.state == .running && (match s.launchOf r with
        | some l => l.st == .freezing && (match l.seamAt with
          | some t => decide (t + 10000 * usCycles ≤ s.cycle)
          | none => false)
        | none => false)) (.stop h false)) s

end Sys2Proof.Machine
end

