-- ==== Sys2Proof/Machine/Fronts.lean ====
section
/-!
DEFINITION. How instances end, stop and freeze, and the barriers of teams (04 R92, 05 R129-R131, R144-R147, 11 R303,
R304, R308, R309).
-/
namespace Sys2Proof.Machine

/-! ### Landing (R129, R130) -/

/-- Every request of the region has landed. -/
def State.allLanded (s : State) (h : Word) : Bool := s.reqs.all fun q => q.region != some h || q.landed

/-- Cycles that a request may take to land before it becomes a replay entry (R130). -/
def landLimit : Nat := 4096

/-- A request that waits at its home, or for an armed timeline, past the limit is taken back; one to the host waits
for its completion (R130, R375). -/
def State.recallable (s : State) (r : Region) (since : Nat) (q : Req) : Bool :=
  q.st == .held 0 && !q.owed &&
    (match agentCell q.agent with
      | some c => decide (since + landLimit + 12 * seamCount c (s.goalCell q.agent.die q.part q.goal) ≤ s.cycle) && (r.place c).isSome
      | none => false)

/-- A request that holds a freeze back no longer: landed, held as a replay entry, or not sent. -/
def State.reqSettled (s : State) (r : Region) (since : Nat) (q : Req) : Bool :=
  q.landed || s.recallable r since q ||
    (match q.st with
      | .waiting _ | .recalled => true
      | .held code => code != 0
      | _ => false)

def State.frontSettled (s : State) (h : Word) (r : Region) (since : Nat) : Bool :=
  s.reqs.all fun q => q.region != some h || s.reqSettled r since q

/-- The requests that have not landed become replay entries (R130). -/
def Act.recallAll (h : Word) (r : Region) (since : Nat) : Act :=
  .read fun s => .emit (.reqs (s.reqs.map fun q =>
    if q.region = some h ∧ !q.landed ∧ s.recallable r since q then { q with st := .recalled } else q))

/-- The stop has reached every cell (R129). -/
def Region.heldAll (r : Region) (now : Nat) : Bool := r.cells.all fun p => r.held now (r.cellAt p.1 p.2)

/-- Operations of a cell that accesses hold back and that could go now: bank tokens that are free to leave (R129). -/
def State.tokensOut (s : State) (c : Cell) : Bool :=
  c.me.later.any fun l => l.reqs.all s.reqDone && (match l.op with
    | .give _ _ _ _ _ _ => true
    | .feSet _ => false)

/-- An arrival that could be counted now. -/
def State.arrivalDue (s : State) (r : Region) : Bool :=
  r.tbars.any fun e => match e.2.due with
    | some reqs => !e.2.arrived && reqs.all s.reqDone
    | none => false

/-! ### Barriers (R308, R309) -/

/-- Instances of the level-k team. -/
def Launch.members (l : Launch) (k team : Nat) : List Inst := l.insts.filter fun i => l.teamNo i.n k == team

/-- It has arrived in the epoch, or counts as arrived. -/
def Launch.hasArrived (l : Launch) (k epoch : Nat) (i : Inst) : Bool := i.retired || l.arrivals.contains (k, i.n, epoch)

/-- The instances of the team on other modules have arrived; the barrier of a subtree's team that spans modules is
released by the launch's module (R91). -/
def Launch.outsideArrived (l : Launch) (k team epoch : Nat) : Bool :=
  !l.spans k || (l.foreign.isNone && (l.outside == [] || (List.range (l.teams 0)).all fun n =>
    l.teamNo n k != team || l.masked.contains (l.team1 n) || !l.isOutside n || l.arrivals.contains (k, n, epoch)))

/-- Waits of a cell that the release of a level ends. -/
def Cell.released (k epoch : Nat) (c : Cell) : Cell :=
  { c with ce := { c.ce with waits := c.ce.waits.map fun w => (w.1, w.2.filter fun x => match x with
      | .tbar j e => !(j == k && decide (e < epoch))
      | _ => true) } }

/-- A region freezes from its origin without a fault of a firing (R145, R309). -/
def Act.freezeOrigin (h : Word) (f : Option FaultRec) : Act :=
  .read fun s => .onRegion h fun r =>
    { r with state := .freezing, fault := r.fault.or f, wave := r.wave ++ [(r.origin, s.cycle)] }

/-- A region's part of a release: its epoch of the level advances and its contexts go on; one that is FROZEN goes on
when it runs again (R308). A region whose arrival reported imprecise faults under SUSPEND then freezes (R145). -/
def Act.releaseRegion (h : Word) (k epoch : Nat) : Act :=
  .read fun s =>
    match s.regions.get? h with
    | none => .skip
    | some r =>
      .block
        [ .onRegion h fun r => { r with tbars := r.tbars.put k { epoch := epoch } }
        , .when r.active (.each r.cells fun p => .onCell (r.cellAt p.1 p.2) (Cell.released k epoch))
        , match (r.tbars.get {} k).freeze with
          | some f => .when r.active (.freezeOrigin h (some f))
          | none => .skip ]

/-- The barrier of a level-k team of a launch releases every member. -/
def Act.releaseTeam (n k team : Nat) : Act :=
  .read fun s =>
    match s.launches.get? n with
    | none => .skip
    | some l =>
      let epoch := l.released.get 0 (k, team)
      .block
        [ .onLaunch n fun l =>
            { l with
              released := l.released.put (k, team) (epoch + 1)
              arrivals := l.arrivals.filter fun a => !(a.1 == k && l.teamNo a.2.1 k == team) }
        , .each ((s.regionsOf n).filter fun e => (l.members k team).any fun i => i.n == e.2.inst) fun e =>
            .releaseRegion e.1 k (epoch + 1) ]

/-- It does once all of them have arrived. -/
def Act.checkTeam (n k team : Nat) : Act :=
  .read fun s =>
    match s.launches.get? n with
    | none => .skip
    | some l =>
      let epoch := l.released.get 0 (k, team)
      let ms := l.members k team
      .when (l.arrivals.any (fun a => a.1 == k && l.teamNo a.2.1 k == team) && ms.all (l.hasArrived k epoch)
          && l.outsideArrived k team epoch)
        ((Act.when (l.spans k) (.each l.outside fun m =>
            .toModule l.part m (.released m (s.moduleNo (s.mapDie l.part)) n k team))).seq (.releaseTeam n k team))

/-- Every barrier of the launch looked at. -/
def Act.checkBarriers (n : Option Nat) : Act :=
  match n with
  | none => .skip
  | some n => .read fun s =>
      match s.launches.get? n with
      | none => .skip
      | some l => .each (l.arrivals.map fun a => (a.1, l.teamNo a.2.1 a.1)).eraseDups fun t => .checkTeam n t.1 t.2

/-- The arrival of an instance of a subtree, told to the launch's module. -/
def Act.arriveOutside (n k inst epoch : Nat) : Act :=
  .read fun s =>
    match s.launches.get? n with
    | none => .skip
    | some l =>
      match l.issuer with
      | .module home m => .when (l.spans k) (.toModule l.part home (.arrived home m k inst epoch))
      | _ => .skip

/-- The arrival of an instance is counted; a region without a launch has only itself to wait for. -/
def Act.arrive (h : Word) (k : Nat) : Act :=
  .read fun s =>
    match s.regions.get? h with
    | none => .skip
    | some r =>
      let t := r.tbars.get {} k
      (Act.onRegion h fun r => { r with tbars := r.tbars.put k { t with due := none, arrived := true } }).seq
        (match r.launch with
          | none => .releaseRegion h k (t.epoch + 1)
          | some n => .block
              [ .onLaunch n fun l => { l with arrivals := l.arrivals ++ [(k, r.inst, t.epoch)] }
              , .arriveOutside n k r.inst t.epoch, .checkBarriers (some n) ])

/-- What KILL and SHUT for imprecise faults do once they are reported at a `tbar` (R145). -/
def Act.imprecisePolicy (h : Word) (r : Region) (pol : Nat) : Act :=
  if pol = polKill then (match r.launch with
    | some n => .killLaunch n stKilled
    | none => .endRegion h)
  else if pol = polShut then .markShut h
  else .skip

/-- The fault with which the region freezes once the `tbar` of the report completes: under SUSPEND (R145). -/
def suspendedFault (r : Region) (pol : Nat) : Option FaultRec :=
  if pol = polKill ∨ pol = polShut then none else r.imprecise.head?.map fun f => { f with cls := 2 }

/-- TBAR_ARRIVAL (R308, R140): the imprecise faults of the instance are reported, then its arrival is counted. In a
launch that a seam failure stops, the instance freezes instead (R309). -/
def execTbarArrival (h : Word) (level : Fin 8) (s : State) : Out :=
  Act.next (match s.regions.get? h with
    | none => Act.skip
    | some r =>
      let t := r.tbars.get {} level.val
      match t.due with
      | none => .skip
      | some reqs =>
        if t.arrived || !r.active || !reqs.all s.reqDone then .skip
        else if (s.launchOf r).any (·.st == .freezing) then .freezeOrigin h none
        else
          .block
            [ .reportImprecise h
            , .onRegion h fun q =>
                { q with tbars := q.tbars.put level.val { t with freeze := suspendedFault r (s.policyOf r 2) } }
            , .arrive h level.val
            , .when (r.imprecise != [])
                ((Act.imprecisePolicy h r (s.policyOf r 2)).seq (.select ((s.partOf r.origin.die).getD 31))) ]) s

/-! ### Retirement (R92, R303, R304) -/

/-- The end of the instance has come: it has exited everywhere, tokens in flight being discarded, or has halted and
is pressed. -/
def State.over (s : State) (r : Region) : Bool :=
  if r.cells.all fun p => r.exited s.cycle (r.cellAt p.1 p.2) then r.allFinal s.cells && s.finalsRead r
  else r.cells.all (fun p => (s.cells.get {} (r.cellAt p.1 p.2)).ce.halted == 0xFF) && s.pressed r

/-- Nothing of a cell still waits for accesses. -/
def Cell.nothingDue (c : Cell) : Bool :=
  c.me.later == [] && c.me.decls.all fun d => match d.2 with
    | .basting b => b.due == []
    | .bobbin _ => true

def Act.settledOf (n : Option Nat) : Act :=
  match n with
  | some n => .seamSettled n
  | none => .skip

/-- Requests of the region that are not performed at SYSTEM scope (R226). -/
def State.regionOwes (s : State) (h : Word) : List Nat :=
  (s.reqs.filter fun q => q.region == some h && !q.isDone).map (·.id)

/-- INSTANCE_RETIRE (R303, R304, R131): a freeze wave on its way wins (R305). Its accesses are performed at SYSTEM before
it retires (R226): until they are, what they owe there is asked for. -/
def execInstanceRetire (h : Word) (s : State) : Out :=
  Act.next (match s.regions.get? h with
    | none => Act.skip
    | some r =>
      .when (r.active && r.wave == [] && s.over r && s.allLanded h
          && r.cells.all fun p => (s.cells.get {} (r.cellAt p.1 p.2)).nothingDue)
        (if s.regionOwes h != [] then .atSystem (s.regionOwes h)
         else .block
          [.retire h, .checkBarriers r.launch, .settledOf r.launch, .select ((s.partOf r.origin.die).getD 31)])) s

/-- Cycles without a firing after which a region under SHUT is over: 10 ms (R147). -/
def shutIdle : Nat := 10000 * usCycles

/-- SHUT_IDLE_TIMEOUT (R147): as if `exit` had been received. -/
def execShutIdleTimeout (h : Word) (s : State) : Out :=
  Act.next (match s.regions.get? h with
    | none => Act.skip
    | some r =>
      .when (r.shut && r.state == .running && r.exitAt.isNone && decide (r.lastActive + shutIdle ≤ s.cycle) && s.allLanded h)
        (.onRegion h fun r => { r with exitAt := some (r.origin, s.cycle) })) s

/-! ### Quiescence and the frozen front (R129-R131, R141-R145) -/

/-- QUIESCENCE (R129, R130). -/
def execQuiescence (h : Word) (s : State) : Out :=
  Act.next (match s.regions.get? h with
    | none => Act.skip
    | some r =>
      let since := r.stopAt.getD s.cycle
      .when (r.state == .stopping && r.heldAll s.cycle && s.frontSettled h r since && !s.arrivalDue r
          && r.cells.all fun p => !s.tokensOut (s.cells.get {} (r.cellAt p.1 p.2)))
        (.block
          [ .recallAll h r since
          , .onRegion h fun r => { r with state := .freezing, wave := [], settleAt := s.cycle } ])) s

/-- A wave has reached every cell (R141). -/
def Region.waveDone (r : Region) (now : Nat) : Bool :=
  r.wave == [] || r.cells.all fun p => r.wave.any fun w => decide (w.2 + waveTime w.1 (r.cellAt p.1 p.2) ≤ now)

/-- The launch of a frozen region under SUSPEND (R121, R145); while a switch of it is open, after the switch. -/
def Act.suspendLaunch (n : Nat) : Act :=
  (Act.closeSlice n).seq (.onLaunch n fun l =>
    if l.st = .running then { l with st := .suspended }
    else if l.st = .switching then { l with suspendAfter := true }
    else l)

/-- The policy for a fault of a class, once the region is FROZEN (R131, R145); a seam failure has its own rule. -/
def Act.frozenPolicy (h : Word) (r : Region) (f : FaultRec) : Act :=
  .read fun s =>
    if f.code = fSeam then .skip
    else if s.policyOf r f.cls = polKill then (match r.launch with
      | some n => .killLaunch n stKilled
      | none => .endRegion h)
    else match r.launch with
      | some n => .suspendLaunch n
      | none => .skip

/-- The policy for imprecise faults that the freeze reports, as a report at region exit (R131, R145). -/
def Act.freezeReport (h : Word) (r : Region) : Act :=
  .read fun s =>
    let pol := s.policyOf r 2
    (Act.reportImprecise h).seq
      (.when (r.imprecise != [])
        (if pol = polShut then .markShut h
         else if pol = polKill then (match r.launch with
           | some n => .killLaunch n stKilled
           | none => .skip)
         else .skip))

/-- FRONT_SETTLED (R130, R131, R141-R145): the region is FROZEN, the records of its faults are written, a drain that
waits returns, and then the policies apply. -/
def execFrontSettled (h : Word) (s : State) : Out :=
  Act.next (match s.regions.get? h with
    | none => Act.skip
    | some r =>
      let since := r.stopAt.getD ((r.wave.head?.map (·.2)).getD r.settleAt)
      let late := match r.fault with
        | some f => if f.cls = 2 then [f] else []
        | none => []
      .when (r.state == .freezing && r.waveDone s.cycle && s.frontSettled h r since)
        (.block
          [ .recallAll h r since
          , .onRegion h fun r => { r with state := .frozen, wave := [], due := [] }
          , .each r.due fun f => .record h f (s.policyOf r f.cls)
          , .freezeReport h r
          , .read fun s => .each (s.regions.get? h).toList fun q =>
              .endDrains h (drainResult (s.snapshot h q).size (if q.fault.isSome then rsFaulted else rsOk))
          , .each (r.due ++ late) (.frozenPolicy h r)
          , .settledOf r.launch
          , .select ((s.partOf r.origin.die).getD 31) ])) s

/-! ### The default fault queue (R144) -/

/-- A write of PDFQST: CLR clears DROPS. -/
def Act.pdfqstClr (die : Nat) : Act := .emit (.reg die .pdfqst 0)

/-- PDFQST_CLR (R144). -/
def execPdfqstClr (die : Nat) (s : State) : Out := Act.next (Act.when (isC die) (.pdfqstClr die)) s

end Sys2Proof.Machine
end

