-- ==== Sys2Proof/Machine/Arrivals.lean ====
section
/-!
DEFINITION. Requests at their homes and back at their issuers, and what waits for them: responses, pending waits,
released operations, bank tokens (07 R191, R195, 08 R213-R228, 14 R353-R371).
-/
namespace Sys2Proof.Machine

/-! ### Responses land (R129, R353) -/

/-- The value code of a response that carries EOS (R362). -/
def eosCode : Nat := 0x100

/-- The value that a response delivers to a vector or a scalar-class destination (R356-R362, R371, R372). -/
def Req.value (q : Req) (vector : Bool) (v : Vec) : Val :=
  match q.goal with
  | .mem _ (.load _) | .me _ _ _ (.read _ _) => loadVal vector q.fmt v
  | .mem _ (.rmw r _) | .me _ _ _ (.rmw _ r _) =>
    if vector then
      .vec { data := BitVec.ofNat 512 (v.toNat % 2 ^ (8 * r.size)), mask := if r.size = 8 then 3 else 1, fmt := .i32 }
    else .scal (v.extractLsb' 0 32)
  | .tl _ .read => if vector then .vec { data := v, mask := 7, fmt := .i32 } else .scal (v.extractLsb' 0 32)
  | _ => .scal (v.extractLsb' 0 32)

/-- A read stream has read its publication whole: the final one counts for pressed (R367, R369). -/
def Stream.noteFinal (t : Stream) : Stream :=
  let whole := t.ended && t.eosDue == 0 && t.refires == [] && t.held.isNone && !(t.outq.any fun e => match e with
    | .reserved _ => true
    | .filled _ => false)
  { t with finalRead := t.finalRead || (whole && t.reading == some 15) }

/-- The token of a stream's element (R174). -/
def Stream.token (t : Stream) (v : Vec) (sb : DWord) (ver : BitVec 4) (now : Nat) : Tok :=
  { body := if t.desc.pack = .scal then .scal (v.extractLsb' 0 32)
            else .vec { data := v, sb := sb, mask := 0xFFFF, fmt := t.desc.fmt }
    ctx := t.desc.sctx, ver := ver, since := now }

def Me.onStream (m : Me) (k : Nat) (f : Stream → Stream) : Me :=
  match m.streams.get? k with
  | some t => { m with streams := m.streams.put k (f t) }
  | none => m

/-- n bytes, sign-extended or not, as a hart's register takes them. -/
def hartValue (size : Nat) (signed : Bool) (v : Vec) : DWord :=
  let n := v.toNat % 2 ^ (8 * size)
  if signed && n.testBit (8 * size - 1) then BitVec.ofInt 64 ((n : Int) - 2 ^ (8 * size)) else BitVec.ofNat 64 n

/-- The exception of a hart's access that its home refuses (R377); a hart's request keeps its address in `sb`. -/
def Req.hartCause (q : Req) (code : Nat) : Nat :=
  match q.goal, code == transMiss with
  | .mem _ (.load _), true => excLoadPage
  | .mem _ (.load _), false => excLoadAccess
  | _, true => excStorePage
  | _, false => excStoreAccess

/-- A response fills the register, the output entry or the stream's element that was kept for it. -/
def Act.deliverTo (q : Req) (v : Vec) (code : Nat) : Act :=
  .read fun s =>
    match q.ret, agentCell q.agent with
    | .reg d, some c =>
      (match s.spot c with
        | some sp =>
          .when (code != eosCode) (.onCell c fun x =>
            { x with ce := x.ce.write d { fmt := q.fmt, ctx := q.ctx, ver := q.ver, own := sp.r.lotOn c.die, now := s.cycle }
                             (q.value d.isVecDst v) })
        | none => .skip)
    | .out d, some c => .onCell c fun x =>
        { x with ce := (outsOf d).foldl (fun ce o =>
            ce.fill o q.id
              (if code = eosCode then { body := emptyBody o, ctx := q.ctx, ver := verFor o q.ver, mark := .eos, since := s.cycle }
               else { body := bodyFor o q.fmt (q.value d.isVecDst v), ctx := q.ctx, ver := verFor o q.ver, since := s.cycle })) x.ce }
    | .stream k, some c => .onCell c fun x =>
        { x with me := x.me.onStream k fun t =>
            { t with outq := fillEnt q.id (t.token v q.sb q.ver s.cycle) t.outq }.noteFinal }
    | .hartF rd size len, _ =>
      (match q.agent with
        | .hart d n =>
          if code = 0 then .retireF (BitVec.ofNat 64 len) d n rd size (v.extractLsb' 0 64)
          else .exception d n (q.hartCause code) q.sb
        | _ => .skip)
    | .streamSb id, _ => .onReq id fun r => { r with sb := v.extractLsb' 0 64 }
    | .hartReg rd size signed len, _ =>
      (match q.agent with
        | .hart d n =>
          if code = 0 then .retireLen (BitVec.ofNat 64 len) d n rd (hartValue size signed v)
          else .exception d n (q.hartCause code) q.sb
        | _ => .skip)
    | _, _ => .skip

/-- A region in which nothing lands any more: it is frozen. -/
def State.landsIn (s : State) (q : Req) : Bool :=
  match q.region.bind s.regions.get? with
  | some r => r.active || r.state == .retired
  | none => true

/-- Responses to one register are written in issue order (R353); an element's data wait for its sideband. -/
def State.regTurn (s : State) (q : Req) : Bool :=
  match q.ret, agentCell q.agent with
  | .stream _, _ => s.reqs.all fun r => r.ret != .streamSb q.id || r.landed
  | .reg d, some c => s.reqs.all fun r => !(decide (r.id < q.id) && agentCell r.agent == some c && r.ret == .reg d && !r.landed)
  | _, _ => true

/-- The region of a request had it outstanding until now (R147). -/
def Act.landing (q : Req) : Act :=
  .read fun s => match q.region with
    | some h => .when (!q.landed) (.onRegion h fun r => { r with lastActive := s.cycle })
    | none => .skip

/-- REQUEST_LANDS (R129, R353): the request slot is free; a request with nothing owed is over. -/
def execRequestLands (req : Nat) (s : State) : Out :=
  Act.next (match s.reqOf req with
    | none => Act.skip
    | some q =>
      if !q.back || q.agent.isHost || !s.landsIn q || !s.regTurn q then .skip
      else match q.st with
        | .performed v code =>
          .block
            [ .when (!q.landed) (.deliverTo q v code)
            , .landing q
            , if q.owed then .onReq req fun r => { r with landed := true } else .dropReq req
            , .releaseWaiting ]
        | .logged =>
          .block [.when (!q.landed) (.deliverTo q 0 0), .landing q, .onReq req fun r => { r with landed := true }]
        | _ => .skip) s

/-! ### Pending waits (R218-R220, R308, R371) -/

/-- The wait is over. A timeline's answer has to be back. -/
def Wait.over (s : State) (r : Region) : Wait → Bool
  | .fence l | .sbar _ l => l.all s.reqDone
  | .timeline id => (s.reqOf id).all (·.landed)
  | .tbar k e => decide (e < (r.tbars.get {} k).epoch)

/-- PENDING_WAIT_COMPLETE (R219). -/
def execPendingWaitComplete (cell : CellId) (ctx : Fin 8) (s : State) : Out :=
  Act.next (match s.spot cell with
    | none => Act.skip
    | some sp =>
      .when sp.r.active (.onCell cell fun c =>
        { c with ce := { c.ce with waits := c.ce.waits.put ctx.val ((c.ce.waits.get [] ctx.val).filter fun w => !w.over s sp.r) } })) s

/-! ### Operations that accesses hold back (R360, R364, R366) -/

/-- The cell that holds a deferred operation. -/
def State.laterAt (s : State) (id : Nat) : Option (CellId × Later) :=
  s.cells.findSome? fun e => (e.2.me.later.find? fun l => l.id == id).map fun l => (e.1, l)

def Me.dropLater (m : Me) (id : Nat) : Me := { m with later := m.later.filter fun l => l.id != id }

/-- What a cell's own image says of its lines. -/
def Spot.acc (sp : Spot) (id : CellId) (m : Me) (line : Nat) : Option LineAcc :=
  m.access (sp.r.lotOn id.die) (sp.col == 0 && sp.row == 0) line

/-- FE_SET_PERFORM (R360). -/
def execFeSetPerform (id : Nat) (s : State) : Out :=
  Act.next (match s.laterAt id with
    | none => Act.skip
    | some (c, l) =>
      match l.op, s.spot c with
      | .feSet off, some sp =>
        if !sp.r.active || !l.reqs.all s.reqDone then .skip
        else
          let m := (s.cells.get {} c).me
          (match meOp m (sp.acc c m) s.reqDone [] none (.feSet off) with
            | .ok m' _ => .onCell c fun x => { x with me := m'.dropLater id }
            | .selvedge =>
              (Act.onCell c fun x => { x with me := x.me.dropLater id }).seq
                (.imprecise sp.h ({ code := fSelvedge, cls := 2, cell := some (sp.col, sp.row), slot := l.slot : FaultRec }.atLine off))
            | _ => .skip)
      | _, _ => .skip) s

/-- BASTE_PUBLISH (R366, R177). -/
def execBastePublish (cell : CellId) (i : Fin 8) (s : State) : Out :=
  Act.next (match s.spot cell, (s.cells.get {} cell).me.basting i.val with
    | some sp, some b =>
      (match b.due with
        | [] => Act.skip
        | p :: rest =>
          .when (sp.r.active && p.reqs.all s.reqDone)
            ((Act.onCell cell fun c => { c with me := c.me.putDecl i.val (.basting { b with due := rest }) }).seq
              (.read fun s => .publish s cell i.val p.ver)))
    | _, _ => .skip) s

/-- The bank of a token that no one takes is free once the giver's launch is over (R364). -/
def Act.tokenLost (ref : BankRef) : Act :=
  .read fun s => (Act.onRegion (s.bankHandle ref) fun r => { r with given := r.given.filter fun g => !g.names ref }).seq .freeRetired

/-- The token reaches the taker: its cell, or the giver's dispatcher while the instance has none, or has a saved context
that a switch may start from (R110, R364). -/
def Act.tokenTo (die giver n : Nat) (l : Launch) (inst bank col row : Nat) (ref : BankRef) : Act :=
  .read fun s =>
    let held : HeldToken :=
      { giver := some giver, launch := if giver = n then some n else none, recAddr := l.recAddr, vd := l.vd, inst := inst, col := col, row := row
        bank := bank, ref := ref }
    if l.insts.any fun i => i.n == inst && i.retired then .tokenLost ref
    else match s.regions.find? fun e => e.2.isInst (n, inst) with
      | some (_, r) =>
        if !r.cells.contains (col, row) then .tokenLost ref
        else if r.state = .allocated ∨ r.state = .loaded ∨ (s.saves.get? (n, inst)).isSome then
          .onDispatcher die fun d => { d with tokens := d.tokens ++ [held] }
        else
          (Act.onCell (r.cellAt col row) fun c => { c with me := c.me.addToken bank ref }).seq
            (.onRegion (s.bankHandle ref) (markGiven ref n))
      | none => .onDispatcher die fun d => { d with tokens := d.tokens ++ [held] }

/-- A launch that may still take the token. -/
def Launch.mayTake (l : Launch) (vd : Nat) (rec_ : DWord) : Bool :=
  l.recAddr == rec_ && l.vd == vd && l.st.accepted && l.st != .complete

/-- The launch that NEXT names: of several, the one accepted first, and never the giver itself (DESIGN CHOICE, log 71). -/
def State.successorOf (s : State) (n : Nat) (l : Launch) : Option (Nat × Launch) :=
  (s.launches.filter fun e => e.1 != n && e.2.mayTake l.vd l.next).foldl
    (fun a e => match a with
      | some b => if e.2.seq < b.2.seq then some e else a
      | none => some e) none

/-- A bank token on its way (R364). -/
def Act.sendToken (sp : Spot) (bank col row inst : Nat) (next : Bool) (ref : BankRef) : Act :=
  .read fun s =>
    let die := sp.r.origin.die
    match sp.r.launch, s.launchOf sp.r with
    | some n, some l =>
      if !next then (if l.teams 0 ≤ inst then .tokenLost ref else .tokenTo die n n l inst bank col row ref)
      else if l.next = 0 then .tokenLost ref
      else
        (match s.successorOf n l with
          | some (k, m) => if m.teams 0 ≤ inst then .tokenLost ref else .tokenTo die n k m inst bank col row ref
          | none => .onDispatcher die fun d =>
              { d with tokens := d.tokens ++
                  [{ giver := some n, recAddr := l.next, vd := l.vd, inst := inst, col := col, row := row, bank := bank, ref := ref }] })
    | _, _ =>
      if !next && inst == sp.r.inst && sp.r.cells.contains (col, row) then
        .onCell (sp.r.cellAt col row) fun c => { c with me := c.me.addToken bank ref }
      else .tokenLost ref

/-- BOT_TOKEN_SEND (R364). -/
def execBotTokenSend (cell : CellId) (bank : Fin 8) (s : State) : Out :=
  let isGive (l : Later) : Bool := match l.op with
    | .give b _ _ _ _ _ => b == bank.val
    | .feSet _ => false
  Act.next (match s.spot cell, (s.cells.get {} cell).me.later.find? isGive with
    | some sp, some l =>
      (match l.op with
        | .give b col row inst next ref =>
          .when (sp.r.active && l.reqs.all s.reqDone)
            ((Act.onCell cell fun c =>
                { c with me := (c.me.dropLater l.id).putBank b fun k => if k.owned then k else { k with bound := none } }).seq
              (.sendToken sp b col row inst next ref))
        | .feSet _ => Act.skip)
    | _, _ => .skip) s

/-! ### ECC (R14, R32, R166) -/

/-- Structures of the field log's counts: scratchpad, registers, HBM4, LPDDR 6, X-die SRAM (R32). -/
def logScratch : Nat := 0
def logHbm : Nat := 2
def logLpddr : Nat := 3

/-- A corrected error of a structure counted in the field log. -/
def Act.countCorrected (die structure_ : Nat) : Act :=
  .onFieldLog die fun f => { f with corrected := f.corrected.put structure_ (f.corrected.get 0 structure_ + 1) }

/-- The check of the word of DRAM at which an access starts to read: an error that is corrected is counted in the
controller and in the field log, one that cannot be marks the word (R14). -/
def Act.eccOfMem (q : Req) (va : DWord) (op : MemOp) (cached : Bool) (ecc : EccSeen) (part : Option Nat) : Act :=
  .read fun s =>
    let die := s.ownerOf q va
    let reads := match op with
      | .store _ => false
      | _ => true
    match s.resolve q va op cached with
    | .error _ => .skip
    | .ok (l, pa) =>
      .when (decide (vaOwner va < 26) && reads && !l.freshBit (vaOffset va))
        (match ecc with
          | .clean => .skip
          | .corrected =>
            let k := s.logOf q.agent.die q.part va
            (Act.emit (.slog k.1 k.2 { s.log k with corrected := (s.log k).corrected + 1 })).seq
              (.countCorrected die (if isX die then logLpddr else logHbm))
          | .uncorrectable => .emit (.ecc (homeKey (dataHome die va) (pa / 8 * 8 + 8 * (q.unit op part).getD 0) :: s.eccBad)))

/-- The check of the word of a scratchpad line at which an access starts to read: an error that is corrected is repaired
and counted, one that cannot be marks the word (R166). -/
def Act.eccOfLine (id : CellId) (off : Nat) (ecc : EccSeen) : Act :=
  match ecc with
  | .clean => .skip
  | .corrected => .countCorrected id.die logScratch
  | .uncorrectable => .onCell id fun c =>
      let l := c.me.line (lineOf off)
      { c with me := c.me.putLine (lineOf off) { l with bad := l.bad ||| (1#16 <<< (off % 128 / 8)) } }

/-! ### Remote scratchpad accesses (R353) -/

/-- The bank is still given to the instance that sent the request (R353). -/
def State.stillGiven (s : State) (q : Req) (g : Region) (col row off : Nat) : Bool :=
  match q.region.bind s.regions.get? with
  | none => false
  | some r => g.given.any fun x =>
      x.col == col && x.row == row && x.bank == lineOf off / 128 && x.inst == r.inst && (x.launch == r.launch || x.launch.isNone)

/-- The mode of a line for a request: a stream's LOTMODE goes before the allocation's (R271), and a request that
STEPOVER repeats is served as in mode Z (R148). -/
def State.reqMode (s : State) (q : Req) (m : LotMode) : LotMode :=
  if q.stepZ then .z
  else match q.agent with
    | .stream c k => (((s.cells.get {} c).me.streams.get? k).bind (·.desc.lotmode)).getD m
    | _ => m

/-- The logical cell from which a merge comes; none for the port's own (R171). -/
def sourceCell (r : Region) (home : CellId) : MeOp → Option (Nat × Nat)
  | .merge _ _ _ _ _ _ src _ => if src = home then none else r.place src
  | _ => none

/-- A merge that reaches a reduction port from a cell outside the region that declares it: no such stream is the
port's source (R171). -/
def Me.foreignMerge (m : Me) (r : Region) (op : MeOp) : Bool :=
  match op with
  | .merge off _ _ _ _ _ src _ => (m.bank (lineOf off / 128)).rport.isSome && (r.place src).isNone
  | _ => false

/-- The operation on the home's memory element. A bound bank is read and written as the taker's own. -/
def State.remoteOp (s : State) (q : Req) (r : Region) (col row : Nat) (op : MeOp) : MeRes :=
  let id := r.cellAt col row
  let m := (s.cells.get {} id).me
  if q.bound then
    match op.offset, q.acc with
    | some off, some a =>
      let b := lineOf off / 128
      if m.foreignMerge r op then .selvedge
      else (match meOp (m.putBank b fun k => { k with owned := true }) (fun _ => some { a with own := r.lotOn id.die, mode := if q.stepZ then .z else a.mode })
          s.reqDone [] (sourceCell r id op) op with
        | .ok m' g => .ok (m'.putBank b fun k => { k with owned := (m.bank b).owned }) g
        | x => x)
    | _, _ => .selvedge
  else
    let acc (line : Nat) : Option LineAcc :=
      (m.access (r.lotOn id.die) (col == 0 && row == 0) line).map fun a => { a with mode := s.reqMode q a.mode }
    meOp m acc s.reqDone [] (sourceCell r id op) op

/-- Bytes that a scratchpad operation answers. -/
def MeOp.answerSize : MeOp → Nat
  | .read _ n => n
  | .readSb _ _ => 64
  | .rmw _ r _ => r.size
  | _ => 4

/-- Version that the response carries: that of the line for a read, otherwise the sources' (R356). -/
def MeOp.reads : MeOp → Bool
  | .read _ _ | .readSb _ _ => true
  | _ => false

/-- A remote request performed, waiting, or answered as an access to a selvedge line at a cell that is not its target
any more. -/
def Act.atHome (q : Req) (h : Word) (col row : Nat) (op : MeOp) : Act :=
  .read fun s =>
    let zeros := List.replicate op.answerSize (0 : Byte)
    match s.regions.get? h with
    | none => .imprecisely q fSelvedge zeros
    | some r =>
      let stale := match q.bound, op.offset with
        | true, some off => !s.stillGiven q r col row off
        | _, _ => !r.cells.contains (col, row)
      if stale then .imprecisely q fSelvedge zeros
      else match s.remoteOp q r col row op with
        | .ok m g =>
          .block
            [ .onCell (r.cellAt col row) fun c => { c with me := m }
            , .onReq q.id fun x => { x with sb := g.sb, ver := if op.reads then g.ver else x.ver }
            , .answer q (leBytes op.answerSize g.value.toNat) 0 ]
        | .wait => .skip
        | .fault code => .requestFault q code 0 id
        | .selvedge => .imprecisely q fSelvedge zeros
        | .eos => .answer q [] eosCode

/-- Operations that may read the line they name. -/
def MeOp.mayRead : MeOp → Bool
  | .read _ _ | .readSb _ _ | .merge _ _ _ _ _ _ _ _ | .rmw _ _ _ => true
  | _ => false

/-- The cell of a request for a scratchpad, and the byte at which it reads. -/
def State.lineRead (s : State) (h : Word) (col row : Nat) (op : MeOp) : Option (CellId × Nat) :=
  match s.regions.get? h, op.offset with
  | some r, some off => if op.mayRead then some (r.cellAt col row, off) else none
  | _, _ => none

/-- The scratchpad of a request's target is not wiped yet (R72). -/
def State.lineWiping (s : State) (h : Word) (col row : Nat) : Bool :=
  (s.regions.get? h).any fun r => !s.cellsReady (r.cellAt col row).die

/-- REMOTE_ME_ACCESS (R353): `ecc` is what the check of the word read finds (R166). -/
def execRemoteMeAccess (req : Nat) (ecc : EccSeen) (s : State) : Out :=
  Act.next (match s.reqOf req with
    | none => Act.skip
    | some q =>
      match q.goal with
      | .me h col row op =>
        .when (q.st == .held 0 && s.earlier q == [] && !s.lineWiping h col row)
          (.block
            [ match s.lineRead h col row op with
              | some (id, off) => .eccOfLine id off ecc
              | none => .skip
            , .atHome q h col row op, .releaseWaiting ])
      | _ => .skip) s

/-! ### Global requests at their owner (R191, R195, R213) -/

/-- A compare-and-arm or a read at a copy context (R227, R371, R372). -/
def Act.atTimeline (q : Req) (c : CopyId) (op : TlOp) : Act :=
  .read fun s =>
    let t := s.copies.get {} c
    match op with
    | .arm n =>
      if t.poisonedBy n then
        .requestFault q fPoison 0 fun f =>
          match t.poison with
          | some (m, cause) => { f with aux := m, aux2 := cause }
          | none => f
      else if n.toNat ≤ t.tlc.toNat then .answer q (leBytes 8 t.tlc.toNat) 0
      else .skip
    | .read => .answer q (leBytes 8 t.tlc.toNat ++ leBytes 4 (if t.poison.isSome then 1 else 0)) 0

/-- A fenced partition's request at an X-die's memory (R77). -/
def State.fencedAt (s : State) (q : Req) (home : Nat) : Bool := isX home && s.fenced home q.part

/-- GLOBAL_REQUEST_ARRIVAL (R191, R195, R196): `cached` says whether the MTLB uses a leaf that it holds (log 15), `ecc`
what the memory controller finds in the word read (R14), `part` which part of a vector access is performed (R222). -/
def execGlobalRequestArrival (req : Nat) (cached : Bool) (ecc : EccSeen) (part : Option Nat) (s : State) : Out :=
  Act.next (match s.reqOf req with
    | none => Act.skip
    | some q =>
      if q.st != .held 0 || q.owed then .skip
      else match q.goal with
        | .mem va op =>
          let home := s.ownerOf q va
          if s.fencedAt q home then .turnedAway q fFirewall
          else .when (s.memoryReady home) ((Act.eccOfMem q va op cached ecc part).seq (.arriveMem q va op cached part))
        | .tl c op => .when (s.earlier q == []) (.atTimeline q c op)
        | .me _ _ _ _ | .launch _ _ _ => .skip) s

/-- A write is performed at SYSTEM scope: a request with nothing else owed is over (R228). -/
def Act.owedDone (id : Nat) : Act :=
  .read fun s =>
    match s.reqOf id with
    | none => .skip
    | some q =>
      if q.isDevice then .deviceDone q 0
      else if q.landed then .dropReq id
      else .onReq id fun r => { r with owed := false }

/-- The port and the writes of a zero-length read that is out. -/
def XDie.flush (v : XDie) (id : Nat) : Option (Nat × List Nat) := (v.flushes.find? fun e => e.1 == id).map (·.2)

/-- The completion of a request that an X-die sent out. -/
def Act.completed (x : Nat) (q : Req) (ok : Bool) (data : List Byte) : Act :=
  .block
    [ .onXDie x fun v =>
        { v with
          outgoing := v.outgoing.filter fun e => e.1 != q.id
          shared := { v.shared with granted := v.shared.granted.filter fun e => e.1 != q.id } }
    , if q.isDevice then .deviceDone q (if ok then 0 else transPerm)
      else
        (Act.onReq q.id fun r => { r with owed := false }).seq
          (match q.goal with
            | .mem va op => if ok then .answer q (if op.returns then data.take op.size else []) 0 else .refused q va op transPerm
            | _ => .skip)
    , .releaseWaiting ]

/-- OUTBOUND_HOST_COMPLETION (R45, R228): the completion of a request to the host or a peer comes back, and with it the
performance at SYSTEM of a write; that of a zero-length read performs every posted write before it. -/
def execOutboundHostCompletion (req : Nat) (ok : Bool) (data : List Byte) (s : State) : Out :=
  Act.next (match xDies.find? (fun x => ((s.xdie x).flush req).isSome), xDies.find? (fun x => (s.xdie x).outgoing.any fun e => e.1 == req) with
    | some x, _ =>
      .block
        [ .onXDie x fun v => { v with flushes := v.flushes.filter fun e => e.1 != req }
        , .each ((((s.xdie x).flush req).map (·.2)).getD []) .owedDone, .releaseWaiting ]
    | none, some x => (match s.reqOf req with
        | some q => .completed x q ok data
        | none => .onXDie x fun v =>
            { v with
              outgoing := v.outgoing.filter fun e => e.1 != req
              shared := { v.shared with granted := v.shared.granted.filter fun e => e.1 != req } })
    | none, none => .skip) s

end Sys2Proof.Machine
end

