-- ==== Sys2Proof/Machine/Ag.lean ====
section
/-!
DEFINITION. Address generators: their elements, ends of stream and configuration tokens (06 R168-R177, 07 R202, R205,
10 R271, 14 R365, R367).
-/
namespace Sys2Proof.Machine

/-! ### Surroundings -/

/-- An address generator's surroundings. -/
structure AgEnv where
  s : State
  id : CellId
  k : Nat
  sp : Spot
  t : Stream
  me : Me

def State.agEnv (s : State) (id : CellId) (k : Nat) : Option AgEnv :=
  let me := (s.cells.get {} id).me
  match s.spot id, me.streams.get? k with
  | some sp, some t => some { s := s, id := id, k := k, sp := sp, t := t, me := me }
  | _, _ => none

def AgEnv.part (e : AgEnv) : Nat := (e.s.partOf e.id.die).getD 0
def AgEnv.isRead (e : AgEnv) : Bool := e.t.desc.dir == .read
def AgEnv.exited (e : AgEnv) : Bool := e.sp.r.exited e.s.cycle e.id

/-- The tile that the stream consumes. -/
def AgEnv.tile (e : AgEnv) : Option Basting := e.s.tileRead e.sp.r e.sp.col e.sp.row e.t.desc

/-- Under `exit`, a consumer of a published tile still reads its final version; what it reads goes nowhere (R304,
R369). -/
def AgEnv.finishing (e : AgEnv) : Bool :=
  e.exited && (e.sp.r.state == .running || e.sp.r.state == .stopping) && !e.t.finalRead
    && (match e.tile with
      | some b => b.shown.isSome
      | none => false)

/-- The stream moves: its region runs and no exit or wave has reached the cell. -/
def AgEnv.runs (e : AgEnv) : Bool := e.sp.r.fires e.s.cycle e.id || e.finishing

/-- STEPOVER lets this stream's element go on with its fault suppressed (R148). -/
def AgEnv.stepped (e : AgEnv) : Option Nat :=
  match e.sp.r.stepover, e.sp.r.fault with
  | true, some f => if f.stream = some e.k ∧ f.cell = some (e.sp.col, e.sp.row) then some f.code else none
  | _, _ => none

/-- An `sbar` of the cell names the stream and waits (R220). -/
def AgEnv.barred (e : AgEnv) : Bool :=
  (e.s.cells.get {} e.id).ce.waits.any fun w => w.2.any fun x => match x with
    | .sbar m _ => m.getLsbD e.k && !x.over e.s e.sp.r
    | _ => false

/-- One of its requests is held by a fault (R140). -/
def AgEnv.requestHeld (e : AgEnv) : Bool :=
  e.s.reqs.any fun q => q.agent == .stream e.id e.k && (match q.st with
    | .held code => code != 0
    | _ => false)

/-- A new element may be taken: no stop, hold or barrier stands against it (R129, R140, R148, R220). -/
def AgEnv.mayTake (e : AgEnv) : Bool :=
  e.runs && (e.finishing || !e.sp.r.held e.s.cycle e.id) && (!e.sp.r.stepover || e.stepped.isSome)
    && e.t.held.isNone && !e.requestHeld && !e.barred

/-- Configuration tokens that are to be applied before the next element (R176). -/
def AgEnv.configFirst (e : AgEnv) : Bool := e.t.cfgq != [] && (e.t.boundary || e.t.ended)

/-! ### The element sequence (R173-R175) -/

def Desc.size (d : Desc) : Nat := if d.pack = .scal then 4 else 64

/-- Loops in use, innermost first: count, stride, index. -/
def Stream.loops (t : Stream) : List (Nat × Int × Nat) :=
  (List.range t.desc.ndim).map fun k =>
    ((t.desc.counts.getD k 0).toNat, (t.desc.strides.getD k 0).toInt, t.idx.getD k 0)

def Stream.addr (t : Stream) : Int := t.loops.foldl (fun a l => a + l.2.1 * l.2.2) t.desc.base.toNat

/-- Number of the element in its sequence: the sideband index. -/
def Stream.number (t : Stream) : Nat := (t.loops.foldl (fun (a : Nat × Nat) l => (a.1 + a.2 * l.2.2, a.2 * l.1)) (0, 1)).1

/-- Indices after the last `l` of some loops: the new ones, and how many inner loops are complete. -/
def advanceIdx : List (Nat × Int × Nat) → List Nat × Nat
  | [] => ([], 0)
  | (n, _, i) :: r =>
    if i + 1 < n then ((i + 1) :: r.map (·.2.2), 0)
    else
      let x := advanceIdx r
      (0 :: x.1, x.2 + 1)

def padIdx (l : List Nat) : List Nat := l ++ List.replicate (6 - l.length) 0

/-- The stream after an element (R173, R175). -/
def Stream.next (t : Stream) : Stream :=
  let x := advanceIdx t.loops
  let fin := x.2 == t.desc.ndim
  let eos := (t.desc.eosrule == 1 && fin) || (decide (2 ≤ t.desc.eosrule) && decide (t.desc.eosrule - 1 ≤ x.2))
  { t with
    idx := padIdx x.1, elem := t.elem + 1, boundary := false, ended := fin
    eosDue := if t.desc.dir = .read ∧ eos then 1 else 0
    closing := t.desc.dir != .read && fin }

/-! ### Lines that fill (R169) -/

/-- Lowest and highest sum of some loops. -/
def loopSpan (l : List (Nat × Int × Nat)) : Int × Int :=
  l.foldl (fun (a : Int × Int) (x : Nat × Int × Nat) =>
    let m : Int := x.2.1 * ((x.1 - 1 : Nat) : Int)
    (a.1 + min 0 m, a.2 + max 0 m)) (0, 0)

def onLine (line : Nat) (a : Int) : Bool := decide ((128 * line : Nat) ≤ a) && decide (a < 128 * line + 128)

/-- Some address of the loops lies on the line. -/
def hitsLine (line : Nat) : List (Nat × Int × Nat) → Int → Bool
  | [], a => onLine line a
  | (n, st, _) :: r, a =>
    (List.range n).any fun j =>
      let b := a + st * j
      decide (b + (loopSpan r).1 < 128 * line + 128) && decide ((128 * line : Nat) ≤ b + (loopSpan r).2) && hitsLine line r b

/-- Some element after the current one does; the loops are given outermost first. -/
def laterHits (line : Nat) : List (Nat × Int × Nat) → Int → Bool
  | [], _ => false
  | (n, st, i) :: r, a =>
    ((List.range n).any fun j => decide (i < j) && hitsLine line r (a + st * j)) || laterHits line r (a + st * i)

/-- The element is the last of the sequence that addresses its line. -/
def Stream.lastOnLine (t : Stream) : Bool :=
  t.desc.fill && !laterHits (lineOf t.addr.toNat) t.loops.reverse t.desc.base.toNat

/-- Lines whose last element is skipped when the iteration of dimension k ends here. -/
def Stream.skippedLines (t : Stream) (k : Nat) : List Nat :=
  if !t.desc.fill then []
  else
    let inner := t.loops.take (k + 1)
    let outer := t.loops.drop (k + 1)
    let a : Int := outer.foldl (fun (a : Int) l => a + l.2.1 * (l.2.2 : Int)) (t.desc.base.toNat : Int)
    let ended := inner.map fun l => (l.1, l.2.1, l.1 - 1)
    (List.range 1024).filter fun line =>
      (onLine line t.addr || laterHits line inner.reverse a)
        && !laterHits line (outer.reverse ++ ended.reverse) t.desc.base.toNat

/-- The stream after an EOS that ends an iteration of dimension k. -/
def Stream.skipTo (t : Stream) (k : Nat) : Stream :=
  let x := advanceIdx (t.loops.drop (k + 1))
  { t with
    idx := padIdx (List.replicate (min (k + 1) t.desc.ndim) 0 ++ x.1), boundary := true
    ended := x.2 == t.desc.ndim - (k + 1), closing := false }

/-- The last element was the natural end of an iteration of dimension k. -/
def Stream.atNaturalEnd (t : Stream) (k : Nat) : Bool :=
  !t.boundary && t.elem != 0 && (t.idx.take (k + 1)).all (· == 0)

/-! ### Faults of a stream (R139, R140, R145) -/

/-- A fault met at the element: under SHUT the stream ends with EOS, under RESUME-AFTER-MAP it is held, otherwise the
region freezes from its cell. -/
def AgEnv.fault (e : AgEnv) (code cls : Nat) (more : FaultRec → FaultRec) : Act :=
  let f := more { code := code, cls := cls, cell := some (e.sp.col, e.sp.row), stream := some e.k }
  let pol := e.s.policyOf e.sp.r cls
  let hold : Act := .onCell e.id fun c =>
    { c with me := c.me.onStream e.k fun t => { t with held := some { code := code, addr := f.addr } } }
  if pol = polShut then .block [.shutStream e.id e.k none, .markShut e.sp.h, .record e.sp.h f polShut]
  else if pol = polMap ∧ cls = 1 then hold.seq (.record e.sp.h f polMap)
  else (Act.when (cls == 1) hold).seq (.freezeFrom e.sp.h e.id f true)

/-- A SELVEDGE touch of the stream (R205). -/
def AgEnv.selvedge (e : AgEnv) (off : Nat) : Act :=
  .imprecise e.sp.h
    ({ code := fSelvedge, cls := 2, cell := some (e.sp.col, e.sp.row), stream := some e.k : FaultRec }.atLine off)

/-! ### Accesses -/

/-- A scratchpad offset; an address outside the scratchpad names no line (R356). -/
def meOffset (a : Int) : Nat := if 0 ≤ a ∧ a < 0x20000 then a.toNat else 0x20000

/-- What the image says of a line of the own cell, under the stream's LOTMODE; under mode Z for the element whose
LOT_STALE STEPOVER suppresses (R148). -/
def AgEnv.acc (e : AgEnv) (line : Nat) : Option LineAcc :=
  (e.sp.acc e.id e.me line).map fun a =>
    { a with mode := if e.stepped = some fLotStale then .z else e.t.desc.lotmode.getD a.mode }

/-- Requests of the stream are not performed: its later accesses inside the cell wait for them (R216). -/
def AgEnv.outstanding (e : AgEnv) : Bool := e.s.reqs.any fun q => q.agent == .stream e.id e.k && !q.isDone

/-- Where the stream's accesses go: its own element, another cell's by request, a bound bank, global memory. -/
inductive AgPath | here | me (h : Word) (col row : Nat) (acc : Option LineAcc) (bound : Bool) | mem
  deriving DecidableEq, Repr

def AgEnv.path (e : AgEnv) (off : Nat) : AgPath :=
  match e.t.desc.target with
  | .global => .mem
  | .cell c r => .me e.sp.h c r none false
  | .here =>
    (match if off < 0x20000 then (e.me.bank (lineOf off / 128)).bound else none with
      | some b =>
        if (e.me.bank (lineOf off / 128)).owned then
          .me (e.s.bankHandle b) b.col b.row ((e.acc (lineOf off)).map fun a => { a with own := e.s.bankLot b }) true
        else .here
      | none => .here)

/-- A request of the stream. -/
def AgEnv.req (e : AgEnv) (goal : Goal) (ret : Ret) : Req :=
  { id := 0, agent := .stream e.id e.k, region := some e.sp.h, launch := e.sp.r.launch
    asid := e.s.vdAsid e.part e.sp.r.vd, vd := e.sp.r.vd, part := e.part, goal := goal, ret := ret, ctx := e.t.desc.sctx
    fmt := e.t.desc.fmt }

def AgEnv.meReq (e : AgEnv) (h : Word) (col row : Nat) (acc : Option LineAcc) (bound : Bool) (op : MeOp) (ret : Ret) : Req :=
  { e.req (.me h col row op) ret with acc := acc, bound := bound }

def AgEnv.issue (e : AgEnv) (r : Req) (andThen : Nat → Act) : Act := .issue e.id e.part 1 r [] andThen

/-- The stream rewritten. -/
def AgEnv.put (e : AgEnv) (f : Stream → Stream) : Act :=
  .onCell e.id fun c => { c with me := c.me.onStream e.k f }

/-- STEPOVER is over once the element is done (R148). -/
def AgEnv.stepDone (e : AgEnv) : Act :=
  .when e.stepped.isSome (.onRegion e.sp.h fun r => { r with stepover := false, fault := none, pendingFault := false })

/-- An entry put on the output, unless the cell has exited. -/
def AgEnv.push (e : AgEnv) (x : OutEnt) (t : Stream) : Stream :=
  if e.exited then t else { t with outq := t.outq ++ [x] }

/-- A marker token that the stream emits. -/
def Stream.marker (t : Stream) (m : Marker) (ver : BitVec 4) (now : Nat) : OutEnt :=
  .filled { body := if t.desc.pack = .scal then .scal 0 else .vec {}, ctx := t.desc.sctx, ver := ver, mark := m, since := now }

/-! ### Read streams (R174-R177, R367) -/

/-- The output has a free entry of its two (R179). -/
def AgEnv.room (e : AgEnv) : Bool := e.exited || decide (e.t.outq.length < 2)

/-- The version of the publication that the stream now reads. -/
def AgEnv.reading (e : AgEnv) : Option (BitVec 4) :=
  match e.t.reading, e.tile with
  | some v, _ => some v
  | none, some b => b.shown
  | none, none => none

/-- The stream after its element, with the entry that holds or awaits it. -/
def AgEnv.took (e : AgEnv) (x : OutEnt) : Act :=
  (e.put fun t => (e.push x { t.next with reading := e.reading }).noteFinal).seq e.stepDone

def AgEnv.tookToken (e : AgEnv) (v : Vec) (sb : DWord) (ver : BitVec 4) : Act :=
  e.took (.filled (e.t.token v sb ver e.s.cycle))

def AgEnv.readRet (e : AgEnv) : Ret := if e.exited then .none else .stream e.k

/-- The next element of a read stream. -/
def AgEnv.readElement (e : AgEnv) : Act :=
  let a := e.t.addr
  let n := e.t.desc.size
  let sb := e.t.desc.sbbase + BitVec.ofNat 64 (8 * e.t.number)
  let off := meOffset a
  let op : MeOp := if e.t.desc.pack = .vecsb then .readSb off (meOffset sb.toNat) else .read off n
  match e.path off with
  | .here =>
    if e.outstanding then .skip
    else (match meOp e.me e.acc e.s.reqDone [] none op with
      | .ok _ g => e.tookToken g.value g.sb g.ver
      | .wait | .eos => .skip
      | .selvedge => (e.tookToken 0 0 0).seq (e.selvedge off)
      | .fault code => e.fault code 0 fun f => f.atLine off)
  | .me h col row acc bound => e.issue (e.meReq h col row acc bound op e.readRet) fun id => e.took (.reserved id)
  | .mem =>
    let va : DWord := BitVec.ofInt 64 a
    let canon (f : FaultRec) : FaultRec := { f with kind := 1, addr := va }
    if !e.s.canonical e.id.die e.part va then e.fault fCanon 1 canon
    else if e.t.desc.pack = .vecsb && !e.s.canonical e.id.die e.part sb then e.fault fCanon 1 fun f => { f with kind := 1, addr := sb }
    else
      e.issue (e.req (.mem va (.load n)) e.readRet) fun id =>
        (Act.when (e.t.desc.pack == .vecsb && !e.exited)
          (e.issue (e.req (.mem sb (.load 8)) (.streamSb id)) fun _ => .skip)).seq (e.took (.reserved id))

/-- The element's address is not aligned: a CFG change left it so (R174). -/
def AgEnv.misaligned (e : AgEnv) : Bool := e.t.addr % e.t.desc.size != 0

def FaultRec.atAddr (f : FaultRec) (d : Desc) (a : Int) : FaultRec :=
  if d.target = .global then { f with kind := 1, addr := BitVec.ofInt 64 a } else f.atLine (meOffset a)

def AgEnv.stepRead (e : AgEnv) : Act :=
  if e.t.eosDue != 0 then
    .when (e.runs && e.room) (e.put fun t =>
      (e.push (t.marker .eos (t.reading.getD 0) e.s.cycle) { t with eosDue := t.eosDue - 1, boundary := true }).noteFinal)
  else if e.configFirst then .skip
  else match e.t.refires with
    | v :: rest => .when (e.runs && e.room) (e.put fun t => e.push (t.marker .refire v e.s.cycle) { t with refires := rest })
    | [] =>
      if e.t.ended || !e.mayTake || !e.room then .skip
      else if (e.tile.any fun b => b.shown.isNone) then .skip
      else if e.misaligned then e.fault fAlign 0 fun f => f.atAddr e.t.desc e.t.addr
      else e.readElement

/-! ### Write and reduce streams (R168, R171, R175) -/

def Tok.payload (k : Tok) : VecVal :=
  match k.body with
  | .vec v => v
  | .scal x => { data := wordVec x, mask := 1 }
  | .ctl b => { data := if b then 1 else 0, mask := 1 }

def AgEnv.drop (t : Stream) : Stream := { t with inq := t.inq.tail }

/-- The element is done: its token is consumed. -/
def AgEnv.wrote (e : AgEnv) : Act := (e.put fun t => (AgEnv.drop t).next).seq e.stepDone

/-- The scratchpad operation of an element. -/
def AgEnv.writeOp (e : AgEnv) (v : VecVal) (off : Nat) : MeOp :=
  let n := e.t.desc.size
  match e.t.desc.dir with
  | .reduce => .merge off e.t.desc.pack v.data v.mask e.t.desc.fmt e.t.desc.rop e.id e.k
  | _ =>
    if e.t.desc.pack = .vecsb then
      .writeSb off (meOffset (e.t.desc.sbbase + BitVec.ofNat 64 (8 * e.t.number)).toNat) v.data v.sb v.mask e.t.lastOnLine
    else .write off n v.data v.mask e.t.lastOnLine

/-- A local operation of the stream; `after` is what follows when it is done or discarded. -/
def AgEnv.meWrites (e : AgEnv) (op : MeOp) (off : Nat) (after : Act) : Act :=
  match meOp e.me e.acc e.s.reqDone [] none op with
  | .ok m _ => (Act.onCell e.id fun c => { c with me := m }).seq after
  | .selvedge => after.seq (e.selvedge off)
  | .fault code => e.fault code 0 fun f => f.atLine off
  | .wait | .eos => .skip

/-- Bytes of a payload that its mask enables. -/
def maskedBytes (n : Nat) (v : VecVal) : List (Option Byte) :=
  ((leBytes n v.data.toNat).zipIdx).map fun p => if v.mask.getLsbD (p.2 / 4) then some p.1 else none

/-- The next element of a write or reduce stream. -/
def AgEnv.writeElement (e : AgEnv) (k : Tok) : Act :=
  let v := k.payload
  let a := e.t.addr
  let off := meOffset a
  if v.mask = 0 ∧ !e.t.lastOnLine then e.wrote
  else match e.path off with
    | .here => if e.outstanding then .skip else e.meWrites (e.writeOp v off) off e.wrote
    | .me h col row acc bound => e.issue (e.meReq h col row acc bound (e.writeOp v off) .none) fun _ => e.wrote
    | .mem =>
      let va : DWord := BitVec.ofInt 64 a
      let sb := e.t.desc.sbbase + BitVec.ofNat 64 (8 * e.t.number)
      let op : MemOp := if e.t.desc.dir = .reduce then .reduce e.t.desc.rop e.t.desc.fmt e.t.desc.pack v.data v.mask
        else .store (maskedBytes e.t.desc.size v)
      if !e.s.canonical e.id.die e.part va then e.fault fCanon 1 fun f => { f with kind := 1, addr := va }
      else if e.t.desc.pack = .vecsb && !e.s.canonical e.id.die e.part sb then e.fault fCanon 1 fun f => { f with kind := 1, addr := sb }
      else
        e.issue (e.req (.mem va op) .none) fun _ =>
          (Act.when (e.t.desc.pack == .vecsb && e.t.desc.dir == .write)
            (e.issue (e.req (.mem sb (.store ((leBytes 8 v.sb.toNat).map some))) .none) fun _ => .skip)).seq e.wrote

/-- Lines that skipped elements complete become full, each where an element of it would go (R169). -/
def AgEnv.fillSkipped (e : AgEnv) (lines : List Nat) (after : Act) : Act :=
  let op (l : Nat) : MeOp := .write (128 * l) 4 0 0 true
  let go (m : MeRes) (l : Nat) : MeRes :=
    m.andThen fun m _ => match meOp m e.acc e.s.reqDone [] none (op l) with
      | .selvedge => .ok m {}
      | x => x
  let here := lines.filter fun l => e.path (128 * l) == .here
  if here != [] && e.outstanding then .skip
  else match here.foldl go (.ok e.me {}) with
    | .ok m _ =>
      .block
        [ .onCell e.id fun c => { c with me := m }
        , .each lines fun l => match e.path (128 * l) with
            | .me h c r acc bound => e.issue (e.meReq h c r acc bound (op l) .none) fun _ => .skip
            | .here | .mem => .skip
        , after ]
    | _ => .skip

/-- An EOS at the input (R175). Under EOSRULE 1 the elements that it cuts off count as no skipped ones and fill no line:
R169 and R175 do not say (DESIGN CHOICE, log 71). -/
def AgEnv.takeEos (e : AgEnv) : Act :=
  if e.t.ended then .when e.t.closing (e.put fun t => { AgEnv.drop t with closing := false })
  else match e.t.desc.eosrule with
    | 0 => e.put AgEnv.drop
    | 1 => e.put fun t => { AgEnv.drop t with ended := true, boundary := true }
    | r + 2 =>
      if e.t.atNaturalEnd r then e.put fun t => { AgEnv.drop t with boundary := true }
      else e.fillSkipped (e.t.skippedLines r) (e.put fun t => (AgEnv.drop t).skipTo r)

def AgEnv.stepWrite (e : AgEnv) : Act :=
  if e.configFirst then .skip
  else match e.t.inq with
    | [] => .skip
    | k :: _ =>
      if !e.runs || (e.sp.r.stepover && e.stepped.isNone) then .skip
      else match k.mark with
        | .eos => e.takeEos
        | .cfg => .when (!e.t.ended) (e.put AgEnv.drop)
        | .data | .refire =>
          if e.t.ended || !e.mayTake then .skip
          else if e.misaligned then e.fault fAlign 0 fun f => f.atAddr e.t.desc e.t.addr
          else e.writeElement k

/-- The next element reads a word of the own scratchpad now: a read stream's, or the word that a merge replaces. -/
def AgEnv.readsHere (e : AgEnv) : Bool :=
  e.t.desc.dir != .write && !e.configFirst && !e.t.ended && e.mayTake && !e.outstanding && !e.misaligned
    && e.path (meOffset e.t.addr) == .here
    && (if e.isRead then e.t.eosDue == 0 && e.t.refires == [] && e.room && !(e.tile.any fun b => b.shown.isNone)
        else e.t.inq.head?.any fun x => x.mark == .data)

/-- What the check of that word finds (R166). -/
def AgEnv.eccSeen (e : AgEnv) (ecc : EccSeen) : Act := .when e.readsHere (.eccOfLine e.id (meOffset e.t.addr) ecc)

/-- AG_ELEMENT (R173-R177): `ecc` is what the check of the word read finds (R166). -/
def execAgElement (cell : CellId) (k : Fin 4) (ecc : EccSeen) (s : State) : Out :=
  Act.next ((Act.read fun s =>
      match s.agEnv cell k.val with
      | some e => e.eccSeen ecc
      | none => .skip).seq (.read fun s =>
      match s.agEnv cell k.val with
      | none => .skip
      | some e => if e.isRead then e.stepRead else e.stepWrite)) s

/-! ### Configuration tokens (R176) -/

/-- The payload of a scalar token. -/
def Tok.word (k : Tok) : Word :=
  match k.body with
  | .scal x => x
  | .vec v => v.data.extractLsb' 0 32
  | .ctl b => if b then 1 else 0

/-- One CFG token applied. -/
def Stream.configure (t : Stream) (w : Word) : Stream :=
  let sel := (w.extractLsb' 26 6).toNat
  let v : BitVec 26 := w.extractLsb' 0 26
  let d := t.desc
  if sel = 0 then { t with desc := { d with base := setBits d.base 0 26 v.toNat } }
  else if sel = 1 then { t with desc := { d with base := setBits d.base 26 26 v.toNat } }
  else if sel = 2 then { t with desc := { d with base := setBits d.base 52 12 (v.toNat % 2 ^ 12) } }
  else if 8 ≤ sel ∧ sel ≤ 13 then
    let n : BitVec 20 := v.extractLsb' 0 20
    if n = 0 then t else { t with desc := { d with counts := d.counts.set (sel - 8) n } }
  else if 16 ≤ sel ∧ sel ≤ 21 then { t with desc := { d with strides := d.strides.set (sel - 16) (v.signExtend 32) } }
  else if 24 ≤ sel ∧ sel ≤ 29 then
    { t with desc := { d with strides := d.strides.set (sel - 24) (setBits (d.strides.getD (sel - 24) 0) 26 6 (v.toNat % 64)) } }
  else if sel = 32 then { t with idx := [0, 0, 0, 0, 0, 0], elem := 0, ended := false, closing := false }
  else t

/-- Every token that waits at the port, in order; one that is no CFG token is discarded. -/
def Stream.applyAll (t : Stream) : Stream :=
  { t.cfgq.foldl (fun t k => if k.mark = .cfg then t.configure k.word else t) t with cfgq := [] }

/-- A change left some element's address misaligned (R174). -/
def Stream.misplaced (t : Stream) : Bool :=
  t.desc.base.toNat % t.desc.size != 0 || t.loops.any fun l => decide (1 < l.1) && l.2.1 % t.desc.size != 0

/-- AG_CONFIG_TOKEN (R176): a token that is no CFG token is discarded at the head of the port; CFG tokens are applied
at an EOS boundary, all that wait, and then the addresses are checked. -/
def execAgConfigToken (cell : CellId) (k : Fin 4) (s : State) : Out :=
  Act.next (match s.agEnv cell k.val with
    | none => Act.skip
    | some e =>
      match e.t.cfgq with
      | [] => .skip
      | c :: rest =>
        if !e.runs then .skip
        else if c.mark ≠ .cfg then e.put fun t => { t with cfgq := rest }
        else if e.t.eosDue != 0 || !(e.t.boundary || e.t.ended) then .skip
        else
          (e.put Stream.applyAll).seq
            (.when (e.t.applyAll.misplaced && e.t.cfgq.any fun c => c.mark == .cfg && (c.word.extractLsb' 26 6) != 32)
              (e.fault fAlign 0 fun f => f.atAddr e.t.desc e.t.applyAll.addr))) s

end Sys2Proof.Machine
end

