-- ==== Sys2Proof/Machine/Hops.lean ====
section
/-!
DEFINITION. Hops of tokens on the static networks and of packets on the dynamic one (06 R179-R183, 10 R268-R270, 01 R9,
R16, R17).
-/
namespace Sys2Proof.Machine

/-! ### Ports (R268) -/

/-- Number of an input port: N, E, S, W, the two outputs of the CE, the four streams. -/
def portNo : PortIn → Nat
  | .dir .n => 0 | .dir .e => 1 | .dir .s => 2 | .dir .w => 3 | .dir .l => 10
  | .out i => 4 + i.val
  | .sp k => 6 + k.val

/-- The output channel of a network. -/
def netOut (net : Net) (i : Fin 2) : Opnd :=
  match net with
  | .vec => .vo i
  | .scal => .so i
  | .ctl => .co i

def Ce.popOut (c : Ce) (net : Net) (i : Nat) : Ce :=
  match net with
  | .vec => { c with vo := c.vo.put i (c.vo.get [] i).tail }
  | .scal => { c with so := c.so.put i (c.so.get [] i).tail }
  | .ctl => { c with co := c.co.put i (c.co.get [] i).tail }

def Ce.chan (c : Ce) (net : Net) (i : Nat) : List Tok :=
  match net with
  | .vec => c.vi.get [] i
  | .scal => c.si.get [] i
  | .ctl => c.ci.get [] i

def Ce.pushChan (c : Ce) (net : Net) (i : Nat) (t : Tok) : Ce :=
  match net with
  | .vec => { c with vi := c.vi.put i (c.vi.get [] i ++ [t]) }
  | .scal => { c with si := c.si.put i (c.si.get [] i ++ [t]) }
  | .ctl => { c with ci := c.ci.put i (c.ci.get [] i ++ [t]) }

def headFilled : List OutEnt → Option Tok
  | .filled t :: _ => some t
  | _ => none

/-! ### Where a route's tokens come from -/

/-- The cell from which an input of a route is fed: a neighbour of the region, or across an ENTRY the adjacent cell of
another region of the same launch while this one runs (R270). -/
def State.feeder (s : State) (sp : Spot) (cell : CellId) (w : Route) (d : Dir) : Option CellId :=
  if w.entry then
    (match besides cell d with
      | some c =>
        (match s.spot c with
          | some o => if o.h ≠ sp.h ∧ o.r.launch.isSome ∧ o.r.launch = sp.r.launch ∧ sp.r.state = .running then some c else none
          | none => none)
      | none => none)
  else (sp.r.beside sp.col sp.row d).map fun q => sp.r.cellAt q.1 q.2

/-- A token that a route can take now, and what taking it does. -/
structure Feed where
  t : Tok
  take : Act

/-- The token at a route's input (R179): one that has come over a seam goes first, also after its region was moved off
the seam. Pass-through cells cost a cycle each (R126). -/
def State.feed (s : State) (sp : Spot) (cell : CellId) (w : Route) : Option Feed :=
  let c := s.cells.get {} cell
  let ready (wait : Nat) (t : Tok) (a : Act) : Option Feed := if t.since + wait ≤ s.cycle then some ⟨t, a⟩ else none
  match w.src with
  | .out i =>
    (match headFilled (c.ce.outList (netOut w.net i)) with
      | some t => ready 0 t (.onCell cell fun c => { c with ce := c.ce.popOut w.net i.val })
      | none => none)
  | .sp k =>
    (match (c.me.streams.get? k.val).bind fun t => headFilled t.outq with
      | some t => ready 0 t (.onCell cell fun c => { c with me := c.me.onStream k.val fun t => { t with outq := t.outq.tail } })
      | none => none)
  | .dir d =>
    match s.feeder sp cell w d with
    | none => none
    | some f =>
      match c.sw.inb.get [] (w.net, d) with
      | t :: rest => ready 0 t
          (.onCell cell fun c => { c with sw := { c.sw with inb := c.sw.inb.put (w.net, d) rest } })
      | [] =>
        if seamsBetween f cell != [] then none
        else match (s.cells.get {} f).sw.bufs.get [] (w.net, Dir.flip d) with
          | t :: rest => ready (cellDist f cell - 1) t
              (.onCell f fun c => { c with sw := { c.sw with bufs := c.sw.bufs.put (w.net, Dir.flip d) rest } })
          | [] => none

/-! ### Where they go -/

/-- An output has room for a token: two entries each (R159, R176, R179). -/
def outRoom (c : Cell) (net : Net) : RouteOut → Bool
  | .dir d => decide ((c.sw.bufs.get [] (net, d)).length < 2)
  | .chan i => decide ((c.ce.chan net i).length < 2)
  | .sp k => (c.me.streams.get? k).any fun t => decide (t.inq.length < 2)
  | .cfg k => (c.me.streams.get? k).any fun t => decide (t.cfgq.length < 2)

/-- The token on an output. -/
def Cell.deliver (c : Cell) (net : Net) (src : PortIn) (t : Tok) (o : RouteOut) : Cell :=
  match o with
  | .dir d => { c with sw := { c.sw with bufs := c.sw.bufs.put (net, d) (c.sw.bufs.get [] (net, d) ++ [t]) } }
  | .chan i =>
    { c with ce := c.ce.pushChan net i t, sw := { c.sw with merge := c.sw.merge.put (net, i) (portNo src) } }
  | .sp k => { c with me := c.me.onStream k fun x => { x with inq := x.inq ++ [t] } }
  | .cfg k => { c with me := c.me.onStream k fun x => { x with cfgq := x.cfgq ++ [t] } }

/-- Place of a port in the round robin after the one served last (R180). -/
def turnOf (last : Option Nat) (p : Nat) : Nat :=
  match last with
  | some l => (p + 15 - l) % 16
  | none => p

/-- The route could deliver, leaving aside the round robin of channels. -/
def State.routeReady (s : State) (sp : Spot) (cell : CellId) (w : Route) : Bool :=
  (s.feed sp cell w).isSome && w.outs.all (outRoom (s.cells.get {} cell) w.net)

/-- At each channel where routes merge, this one comes before every other that is ready (R180). -/
def State.routeTurn (s : State) (sp : Spot) (cell : CellId) (w : Route) : Bool :=
  let c := s.cells.get {} cell
  w.outs.all fun o => match o with
    | .chan i =>
      let last := c.sw.merge.get? (w.net, i)
      (c.sw.routes.filter fun v => v.net == w.net && v.src != w.src && v.outs.contains o && s.routeReady sp cell v).all fun v =>
        decide (turnOf last (portNo w.src) < turnOf last (portNo v.src))
    | _ => true

/-! ### Over a seam (R16, R17) -/

/-- The token in the sending cell's output buffer goes on the lane, when the seam carries it and the lane has room. -/
def State.ontoLane (s : State) (sp : Spot) (cell : CellId) (w : Route) : Option Act :=
  match w.src with
  | .dir d =>
    (match s.feeder sp cell w d with
      | none => none
      | some f =>
        match seamsBetween f cell, (s.cells.get {} f).sw.bufs.get [] (w.net, Dir.flip d) with
        | n :: _, t :: rest =>
          let l : LaneId :=
            { link := .seam n, crossing := crossingAt n cell, cls := laneClass w.net, up := d == .w || d == .n }
          if s.laneRoom l && !s.laneHolds l && s.linkUp l.link && !s.seamBlocks n && decide (t.since ≤ s.cycle) then
            some ((Act.onCell f fun c => { c with sw := { c.sw with bufs := c.sw.bufs.put (w.net, Dir.flip d) rest } }).seq
              (.putFlits l [.token t]))
          else none
        | _, _ => none)
  | _ => none

/-- TOKEN_HOP (R179, R180, R270): the token leaves on every output of its route at once; over a seam it first goes on
the lane. -/
def execTokenHop (cell : CellId) (net : Net) (src : PortIn) (s : State) : Out :=
  Act.next (match s.spot cell with
    | none => Act.skip
    | some sp =>
      match (s.cells.get {} cell).sw.routes.find? fun w => w.net == net && w.src == src with
      | none => .skip
      | some w =>
        if !sp.r.active || sp.r.exited s.cycle cell then .skip
        else match s.feed sp cell w with
          | some f =>
            if s.routeReady sp cell w && s.routeTurn sp cell w then
              let t : Tok := { f.t with since := s.cycle + 1 + s.wakeDelay cell }
              .block
                [ f.take
                , .onCell cell fun c => { w.outs.foldl (fun c o => c.deliver net src t o) c with busy := s.cycle }
                , .patchWake cell ]
            else (s.ontoLane sp cell w).getD .skip
          | none => (s.ontoLane sp cell w).getD .skip) s

/-- DYNAMIC_PACKET_HOP (R182). -/
def execDynamicPacketHop (node : CellId) (out : Dir) (s : State) : Out := Act.next (Act.hopAt node out) s

/-- DNWGT0 and DNWGT1: AGETH holds at least 64, PROMOS is read-only (R183). -/
def Act.dnwgtWrite (die w : Nat) (v : DWord) : Act :=
  .onReg die (.dnwgt w) fun o =>
    if w = 0 then v
    else withField (withField o 15 0 (v.extractLsb' 0 16).toNat) 25 16 (max 64 (v.extractLsb' 16 10).toNat)

/-- DNWGT_WRITE (R183). -/
def execDnwgtWrite (die w : Nat) (v : DWord) (s : State) : Out :=
  Act.next (Act.when (isC die && decide (w < 2)) (.dnwgtWrite die w v)) s

end Sys2Proof.Machine
end

