-- ==== Sys2Proof/Machine/Owners.lean ====
section
/-!
DEFINITION. An owner's registers and steps: die map, address spaces of VDs, side-log control, sweeps, and the copy
engines (07 R187-R211).
-/
namespace Sys2Proof.Machine

/-! ### DMAP and VDASID (R187-R189) -/

/-- A request of the partition is not performed yet. -/
def State.partBusy (s : State) (p : Nat) : Bool :=
  s.reqs.any fun q => q.part == p && !(match q.st with
    | .performed _ _ => true
    | _ => false)

/-- PHYS of a die's map may change: its partition holds no region and has no request outstanding. -/
def State.physFree (s : State) (die : Nat) : Bool :=
  match s.partOf die with
  | none => true
  | some p => !((s.partDies p).any s.dieUsed) && !s.partBusy p

/-- DMAP[i]: V, VIA and ORDER at any time, PHYS when it may change; a refused PHYS is counted. -/
def Act.dmapWrite (die i : Nat) (v : DWord) : Act :=
  .read fun s =>
    let old := s.reg die (.dmap i)
    let moves := decide (i < 24) && v.extractLsb' 0 5 != old.extractLsb' 0 5
    let keep := moves && !s.physFree die
    (Act.emit (.reg die (.dmap i) (if keep then withField v 4 0 (old.extractLsb' 0 5).toNat else v))).seq
      (.when keep (.countReg die .partcfg 47 32))

/-- DMAP_WRITE (R188). -/
def execDmapWrite (die i : Nat) (v : DWord) (s : State) : Out :=
  Act.next (Act.when (isC die && decide (i < 26)) (.dmapWrite die i v)) s

/-- The register of a lead die is in use by pending launches of the VD. -/
def State.asidBusy (s : State) (die vd : Nat) : Bool :=
  match s.partOf die with
  | some p => s.leadDie p == some die && s.pendingOf p vd != 0
  | none => false

def Act.vdasidWrite (die vd : Nat) (v : DWord) : Act :=
  .read fun s => .when (!s.asidBusy die vd) (.emit (.reg die (.vdasid vd) v))

/-- VDASID_WRITE (R189). -/
def execVdasidWrite (die vd : Nat) (v : DWord) (s : State) : Out :=
  Act.next (Act.when (isC die && decide (vd < 1024)) (.vdasidWrite die vd v)) s

/-! ### SLOGCTL (R196-R198) -/

/-- Side logs that a die keeps. -/
def hasLog (die i : Nat) : Bool := (isC die && decide (i < 8)) || (isX die && decide (i < 10))

/-- The MTLB of a side log. -/
def logMtlb (die i : Nat) : Nat := if isC die then 0 else if i = 8 then 2 else if i = 9 then 3 else die - 24

/-- An entry discarded: its issuer is told as under TRANS_PERM, without a record for its instance. -/
def Act.discardEntry (k : Nat × Nat) (q : Req) : Act :=
  (Act.leaveLog k q.id false).seq
    (match q.goal with
      | .mem _ op =>
        if op.returns then .requestFault q transPerm 1 id
        else .answer q [] (match q.agent with
          | .ctx _ _ | .stream _ _ => 0
          | _ => transPerm)
      | _ => .skip)

/-- DISCARD: every entry of an ASID. -/
def Act.discardAsid (k : Nat × Nat) (asid : BitVec 16) : Act :=
  .read fun s => .each ((s.logged k).filter fun q => q.asid == some asid) fun q => .discardEntry k q

/-- SLOGCTL[i]: ASID is kept; DISCARD acts before KICK. -/
def Act.slogctlWrite (die i : Nat) (v : DWord) : Act :=
  .block
    [ .when (v.getLsbD 1) (.discardAsid (die, i) (v.extractLsb' 16 16))
    , .when (v.getLsbD 0) (.replayAt die (logMtlb die i) [i])
    , .emit (.reg die (.slogctl i) v) ]

/-- SLOGCTL_KICK (R196, R211). -/
def execSlogctlKick (die i : Nat) (v : DWord) (s : State) : Out :=
  Act.next (Act.when (hasLog die i && v.getLsbD 0) (.slogctlWrite die i v)) s

/-- SLOGCTL_DISCARD (R198). -/
def execSlogctlDiscard (die i : Nat) (v : DWord) (s : State) : Out :=
  Act.next (Act.when (hasLog die i && v.getLsbD 1) (.slogctlWrite die i v)) s

/-! ### Sweeps (R200, R201) -/

/-- Lines and registers whose lot is not live become zero, of lot 0, empty and absent. -/
def Cell.swept (live : List Lot) (c : Cell) : Cell :=
  { c with
    ce := { c.ce with
            v := c.ce.v.filter fun e => live.contains e.2.lot
            s := c.ce.s.filter fun e => live.contains e.2.lot }
    me := { c.me with lines := c.me.lines.filter fun e => live.contains e.2.lot } }

/-- The map after a sweep: lots that ended while it ran wait for the next one. -/
def Lots.afterSweep (l : Lots) : Lots :=
  { l with
    counter := 0, sweeping := false, passed := l.barred, barred := []
    sweeps := if l.sweeps = 0xFFFF then l.sweeps else l.sweeps + 1 }

/-- SWEEP_COMPLETE (R201). -/
def execSweepComplete (die : Nat) (s : State) : Out :=
  let l := s.lotsOf die
  Act.next (Act.when (isC die && l.sweeping)
    ((Act.each (s.cells.filter fun e => e.1.die == die) fun e => .onCell e.1 (Cell.swept l.live)).seq
      (.emit (.lots die l.afterSweep)))) s

/-! ### Copies: one line (R207-R211) -/

def fCopyFault : Nat := 0x0F

def CopyJob.rowLines (j : CopyJob) : Nat := j.desc.len / 128
def CopyJob.lines (j : CopyJob) : Nat := j.rowLines * j.desc.rows

/-- Lines written from the first on without a gap. -/
def prefixFrom (written : List Nat) (k : Nat) : Nat → Nat
  | 0 => k
  | n + 1 => if written.contains k then prefixFrom written (k + 1) n else k
def CopyJob.front (j : CopyJob) : Nat := prefixFrom j.written 0 j.written.length

/-- Row and line within it of a line in copy order. -/
def CopyJob.spot (j : CopyJob) (line : Nat) : Nat × Nat := (line / j.rowLines, line % j.rowLines)

/-- The virtual address of a line. -/
def CopyJob.vaAt (j : CopyJob) (base stride : DWord) (line : Nat) : DWord :=
  base + stride * BitVec.ofNat 64 (j.spot line).1 + BitVec.ofNat 64 (128 * (j.spot line).2)

/-- The scratchpad line that a reference means at a line of the copy. -/
def CopyJob.refAt (j : CopyJob) (ref stride : DWord) (line : Nat) : Nat :=
  ((refLine ref : Int) + stride.toInt / 128 * (j.spot line).1 + (j.spot line).2).toNat

/-- What a source gives, or why it gives nothing. `outside`: data of the host or of another module, which is free. -/
inductive SrcLine
  | val (v : Nat) | outside | untouched | hold | miss (va : DWord) (mtlb : Nat) | fail (code : Nat) (stop : Option (Nat × Nat))
  deriving DecidableEq, Repr

/-- A copy at work: its context, its partition, its job. -/
structure CopyEnv where
  s : State
  c : CopyId
  p : Nat
  j : CopyJob
  cached : Bool
  /-- The unit of the line that is written; all that is left of the line for none. -/
  part : Option Nat := none

/-- Translation for a line, what is between the engine and its owner, and whether the owner is ready. -/
inductive VaLine
  | page (l : Leaf) (pa : Nat) | away | hold | miss | fail (code : Nat) (stop : Option (Nat × Nat))
  deriving DecidableEq, Repr

/-- The edge link by which a copy's lines for another module leave (R24). -/
def CopyEnv.edge (e : CopyEnv) (va : DWord) : Bool × Nat := e.s.edgeTo e.c.die (vaModule va)

def CopyEnv.reach (e : CopyEnv) (va : DWord) (a : Access) : VaLine :=
  let home := e.s.ownerDie e.c.die e.p va
  if vaModule va ≠ e.s.moduleNo e.c.die then (if e.s.edgeIsUp (e.edge va) then .away else .fail fSeam none)
  else match e.s.wayStops e.p e.c.die home with
    | some x => if x.1 = heldAtSeam then .hold else .fail x.1 (some x)
    | none =>
      if isX home && e.s.fenced home e.p then .fail fFirewall none
      else if !e.s.memoryReady home then .hold
      else match e.s.translate e.c.die e.p e.j.asid va 128 a e.cached with
        | .error c => if c = transMiss then .miss else .fail c none
        | .ok (l, pa) =>
          if vaOwner va = 27 && (e.s.hostPort home l).isNone then .fail transPerm none else .page l pa

def CopyEnv.mtlb (e : CopyEnv) (va : DWord) : Nat := e.s.ownerDie e.c.die e.p va * 4 + mtlbIndex va

/-- A line of virtual memory as a source. -/
def CopyEnv.readVa (e : CopyEnv) (va : DWord) : SrcLine :=
  match e.reach va .load with
  | .away => .outside
  | .hold => .hold
  | .miss => .miss va (e.mtlb va)
  | .fail c x => .fail c x
  | .page l pa =>
    if vaOwner va = 27 then .outside
    else if e.s.loadHeld (e.s.ownerDie e.c.die e.p va) e.j.asid va 128 then .hold
    else
      let home := dataHome (e.s.ownerDie e.c.die e.p va) va
      if e.s.eccAt home pa 128 && !l.freshBit (vaOffset va) then .fail fEcc none
      else .val (leNat (e.s.fetchBytes home l (vaOffset va) pa 128))

/-- The cell and line of a scratchpad reference while its region runs and the way to it is open (R211). -/
inductive RefLine
  | at_ (id : CellId) (line : Nat) (acc : Option LineAcc) | hold | gone | shut (x : Nat × Nat)
  deriving DecidableEq, Repr

def CopyEnv.refLine (e : CopyEnv) (ref stride : DWord) (uid line : Nat) : RefLine :=
  match e.s.regionUid uid with
  | none => if e.s.saves.any fun x => x.2.region.uid == uid then .hold else .gone
  | some (_, r) =>
    if r.state ≠ .running then .hold
    else
      let id := r.cellAt (refCol ref) (refRow ref)
      let n := e.j.refAt ref stride line
      match e.s.wayStops e.p e.c.die id.die with
      | some x => if x.1 = heldAtSeam then .hold else .shut x
      | none => if !e.s.cellsReady id.die then .hold else .at_ id n ((e.s.cells.get {} id).me.access (r.lotOn id.die) (refCol ref == 0 && refRow ref == 0) n)

/-- A scratchpad line as a source (R202, R205). -/
def CopyEnv.readRef (e : CopyEnv) (ref stride : DWord) (uid line : Nat) : SrcLine :=
  match e.refLine ref stride uid line with
  | .hold => .hold
  | .gone => .fail transPerm none
  | .shut x => .fail x.1 (some x)
  | .at_ _ _ none => .untouched
  | .at_ id n (some a) =>
    let m := (e.s.cells.get {} id).me
    let l := m.line n
    if !m.bankOk n then .hold
    else match l.seen a with
      | .zero => .val 0
      | .stale => .fail fLotStale none
      | .waits => .hold
      | .data => if l.badAt 0 128 then .fail fEcc none else .val l.data.toNat

def CopyEnv.read (e : CopyEnv) (isDst : Bool) (line : Nat) : SrcLine :=
  let d := e.j.desc
  let v := if isDst then d.dst else d.src
  let st := if isDst then d.dstride else d.sstride
  if isRef v then e.readRef v st (if isDst then e.j.dstUid else e.j.srcUid) line else e.readVa (e.j.vaAt v st line)

/-- The operands of a line in their order (R207). -/
def CopyEnv.operands (e : CopyEnv) (line : Nat) : List SrcLine :=
  let d := e.j.desc
  let acc := if d.acc then [e.read true line] else []
  let srcs :=
    if d.diemask = 0 then [e.read false line]
    else ((List.range 24).filter d.diemask.getLsbD).map fun k => e.readVa (withOwner (e.j.vaAt d.src d.sstride line) k)
  acc ++ srcs

/-- A line combined from its operands. -/
def CopyDesc.merged (d : CopyDesc) : List Nat → Nat
  | [] => 0
  | v :: r =>
    match d.op with
    | none => v
    | some op => r.foldl (fun a b =>
        let half (k : Nat) : Nat := mergeElems op d.fmt 64 0xFFFF (a / 2 ^ (512 * k) % 2 ^ 512) (b / 2 ^ (512 * k) % 2 ^ 512)
        half 0 + half 1 * 2 ^ 512) v

/-- 128 free bytes. -/
def Act.freeLine (f : Nat → Act) : Act :=
  .read fun s => (Act.emit (.free (s.freeIx + 16))).seq
    (f (packElems 64 ((List.range 16).map fun i => (Config.freeDWord (s.freeIx + i)).toNat)))

/-- Values of the operands, free ones among them. -/
def Act.withLines : List SrcLine → List Nat → (List Nat → Act) → Act
  | [], vs, k => k vs.reverse
  | .val v :: r, vs, k => Act.withLines r (v :: vs) k
  | .outside :: r, vs, k => .freeLine fun v => Act.withLines r (v :: vs) k
  | _ :: r, vs, k => Act.withLines r (0 :: vs) k

/-- The record of a copy, in the queue of its origin's launch or the default queue; `die` is that of the cell it
names. -/
def CopyEnv.record (e : CopyEnv) (f : FaultRec) (die : Option Nat := none) : Act :=
  let r := (e.s.regionUid e.j.originUid).map (·.2)
  let l := e.j.originLaunch.bind e.s.launches.get?
  let who : RecordOf :=
    { vd := ((r.map (·.vd)).orElse fun _ => l.map (·.vd)).getD 0, record := (l.map (·.recAddr)).getD 0
      inst := (r.map (·.inst)).getD 0
      team1 := (match l, r with
        | some l, some r => l.team1 r.inst
        | _, _ => 0)
      handle := e.j.desc.origin }
  .read fun s => .launchRecordAt e.p (if l.any fun l => l.st != .complete then e.j.originLaunch else none) f.code
    (recordBytes who { f with cls := 4, aux := if f.code = fSelvedge then 0 else e.j.n } 0xFF (s.partCycle e.p)) die

/-- Someone waits for copy n or a later one at the context (R211). -/
def CopyEnv.awaited (e : CopyEnv) : Bool :=
  let n := e.j.n.toNat
  (e.s.reqs.any fun q => q.st == .held 0 && (match q.goal with
    | .tl c (.arm m) => c == e.c && decide (n ≤ m.toNat)
    | _ => false))
  || (e.s.harts.any fun h => match h.2.wait with
    | some (.timeline c m _) => c == e.c && decide (n ≤ m.toNat)
    | _ => false)
  || e.s.launches.any fun l => l.2.part == e.p && l.2.st == .queued && (List.range 4).any fun i =>
      (l.2.wait i).1.testBit 15 && e.s.tlidCtx e.p (l.2.wait i).1 == e.c && decide (n ≤ (l.2.wait i).2.toNat)

/-- Everyone who waits at a poisoned context is answered at once: requests, harts, launches (R211). -/
def Act.tellPoison (c : CopyId) (p : Nat) : Act :=
  .read fun s =>
    let t := s.copies.get {} c
    .block
      [ .each s.reqs fun q => .when (q.st == .held 0) (match q.goal with
          | .tl k (.arm n) => .when (k == c && t.poisonedBy n) (.atTimeline q c (.arm n))
          | _ => .skip)
      , .each s.harts fun h => match h.2.wait with
          | some (.timeline k n rd) => .when (k == c && t.poisonedBy n) (.retireX h.1.1 h.1.2 rd 0x14)
          | _ => .skip
      , .select p ]

/-- The context is poisoned at n (R211). -/
def CopyEnv.poison (e : CopyEnv) (code : Nat) : Act :=
  .block
    [ .onCopy e.c fun t =>
        { t with
          poison := some (e.j.n, code), jobs := []
          failed := t.failed ++ (e.j.n, some code) :: (t.jobs.drop 1).map fun k => (k.n, none) }
    , .when (!e.awaited) (e.record { code := fPoison, cls := 4, aux2 := code })
    , .tellPoison e.c e.p ]

def CopyEnv.onJob (e : CopyEnv) (f : CopyJob → CopyJob) : Act :=
  .onCopy e.c fun t => { t with jobs := match t.jobs with
      | j :: r => f j :: r
      | [] => [] }

/-- A miss suspends the copy at a line; later lines written already are written again. -/
def CopyEnv.suspend (e : CopyEnv) (line : Nat) (va : DWord) (mtlb : Nat) : Act :=
  (e.onJob fun j => { j with
      written := j.written.filter fun k => decide (k < line), parts := j.parts.filter fun k => decide (k.1 ≤ line)
      suspended := some (line, mtlb) }).seq
    (e.record { code := fCopyFault, cls := 4, kind := 1, addr := va })

/-- The first touch of a selvedge line is recorded (R210). -/
def CopyEnv.touch (e : CopyEnv) (ref stride : DWord) (uid line : Nat) : Act :=
  let n := e.j.refAt ref stride line
  .when (!e.j.touched)
    ((e.onJob fun j => { j with touched := true }).seq
      (e.record { code := fSelvedge, cls := 4, cell := some (refCol ref, refRow ref), kind := 2, bank := n / 128
                  addr := BitVec.ofNat 64 n }
        ((e.s.regionUid uid).map fun x => (x.2.cellAt (refCol ref) (refRow ref)).die)))

/-- Destination lines up to the front become full (R210). -/
def Act.fillFront (c : CopyId) (before : Nat) : Act :=
  .read fun s =>
    match (s.copies.get {} c).jobs with
    | j :: _ =>
      let e : CopyEnv := { s := s, c := c, p := (s.partOf c.die).getD 31, j := j, cached := false }
      .when (isRef j.desc.dst) (.each ((List.range (j.front - before)).map (· + before)) fun k =>
        match e.refLine j.desc.dst j.desc.dstride j.dstUid k with
        | .at_ id n (some a) => .onCell id fun x =>
            { x with me := if (x.me.line n).isOwn a then x.me.putLine n { x.me.line n with full := true } else x.me }
        | _ => .skip)
    | [] => .skip

/-- Bytes of a unit of its lines: 64 where a scratchpad line is read or written, otherwise 8 (R222). -/
def CopyJob.unit (j : CopyJob) : Nat := if isRef j.desc.src || isRef j.desc.dst then 64 else 8

/-- Byte k of the line is written now. -/
def CopyEnv.now (e : CopyEnv) (line k : Nat) : Bool :=
  !e.j.parts.contains (line, k / e.j.unit) && (match e.part with
    | none => true
    | some u => k / e.j.unit == u % (128 / e.j.unit))

/-- The line v, of which only what is written now is there. -/
def CopyEnv.bytesNow (e : CopyEnv) (line v : Nat) : List (Option Byte) :=
  ((leBytes 128 v).zip (List.range 128)).map fun b => if e.now line b.2 then some b.1 else none

/-- Bits of a scratchpad line that are written now. -/
def CopyEnv.bitsNow (e : CopyEnv) (line : Nat) : Nat :=
  packElems 8 ((List.range 128).map fun k => if e.now line k then 255 else 0)

/-- The line is written. -/
def CopyEnv.wrote (e : CopyEnv) (line : Nat) : Act :=
  (e.onJob fun j => { j with written := line :: j.written }).seq (.fillFront e.c e.j.front)

/-- What is written of the line now is written, and the line with its last unit. -/
def CopyEnv.wrotePart (e : CopyEnv) (line : Nat) : Act :=
  let parts := ((List.range (128 / e.j.unit)).filter fun u => e.now line (u * e.j.unit)).map fun u => (line, u)
  if (List.range (128 / e.j.unit)).all fun u => (parts ++ e.j.parts).contains (line, u) then
    (e.onJob fun j => { j with parts := j.parts.filter fun k => k.1 != line }).seq (e.wrote line)
  else e.onJob fun j => { j with parts := parts ++ j.parts }

/-- Where the line goes, or why it cannot: a line leaves the module whole. -/
inductive DstLine
  | put (f : Nat → Act) | whole (f : Nat → Act) | untouched | hold | miss (va : DWord) (mtlb : Nat)
  | fail (code : Nat) (stop : Option (Nat × Nat))

/-- A write of the copy that the completion may have to wait for (R206, R228). -/
def CopyEnv.owes (e : CopyEnv) (id : Nat) : Act := e.onJob fun j => { j with owed := j.owed ++ [id] }

/-- A line written in another module: it leaves by the edge link (R23). -/
def CopyEnv.sendAway (e : CopyEnv) (va : DWord) (bytes : List Byte) : Act :=
  .fresh fun id => .read fun s =>
    .block
      [ .emit (.reqs (s.reqs ++
          [{ id := id, agent := .copy e.c, asid := e.j.asid, part := e.p, goal := .mem va (.store (bytes.map some))
             st := .performed 0 0, back := true, landed := true, owed := true }]))
      , .emit (.out (.edge (e.edge va).1 (e.edge va).2 id)), e.owes id ]

def CopyEnv.writeTo (e : CopyEnv) (line : Nat) : DstLine :=
  let d := e.j.desc
  if isRef d.dst then
    match e.refLine d.dst d.dstride e.j.dstUid line with
    | .hold => .hold
    | .gone => .fail transPerm none
    | .shut x => .fail x.1 (some x)
    | .at_ id n acc =>
      let m := (e.s.cells.get {} id).me
      (match acc with
        | none => .untouched
        | some a =>
          if m.writeBad acc n false then .untouched
          else if !m.bankOk n then .hold
          else .put fun v => .onCell id fun x =>
            { x with me := x.me.putLine n (((x.me.line n).stamped a).put 0 (e.bitsNow line) v) })
  else
    let va := e.j.vaAt d.dst d.dstride line
    match e.reach va .store with
    | .away => .whole fun v => e.sendAway va (leBytes 128 v)
    | .hold => .hold
    | .miss => .miss va (e.mtlb va)
    | .fail c x => .fail c x
    | .page l pa =>
      if vaOwner va = 27 then
        .whole fun v => .hostLines (.copy e.c) e.p e.j.asid va l pa (leBytes 128 v) fun id => e.owes id
      else .put fun v => .putBytes (e.s.ownerDie e.c.die e.p va) va l pa (e.bytesNow line v)

/-- A line that cannot be written: a miss or failure counts once every earlier line is written. -/
def CopyEnv.stops (e : CopyEnv) (line : Nat) (x : SrcLine) : Act :=
  if line ≠ e.j.front then .skip
  else match x with
    | .miss va m => e.suspend line va m
    | .fail code y => (match y with
        | some y => Act.countStop (e.s.tagOf e.c.die e.p) y
        | none => Act.skip).seq (e.poison code)
    | _ => .skip

def SrcLine.stops : SrcLine → Bool
  | .hold | .miss _ _ | .fail _ _ => true
  | _ => false

/-- A line read, combined and written, or a unit of it. -/
def CopyEnv.line (e : CopyEnv) (line : Nat) : Act :=
  let srcs := e.operands line
  match srcs.find? SrcLine.stops with
  | some x => e.stops line x
  | none =>
    let touchSrc : Act := .when (srcs.contains .untouched) (e.touch e.j.desc.src e.j.desc.sstride e.j.srcUid line)
    match e.writeTo line with
    | .hold => .skip
    | .miss va m => e.stops line (.miss va m)
    | .fail code y => e.stops line (.fail code y)
    | .untouched => .block [touchSrc, e.touch e.j.desc.dst e.j.desc.dstride e.j.dstUid line, e.wrote line]
    | .put f => .block [touchSrc, .withLines srcs [] fun vs => f (e.j.desc.merged vs), e.wrotePart line]
    | .whole f => .block [touchSrc, .withLines srcs [] fun vs => f (e.j.desc.merged vs), e.wrote line]

/-- COPY_LINE (R210): any line of the head copy that is not written. `cached` says whether an MTLB uses a leaf that it
holds (log 15), `part` which unit of the line is read and written (R222). -/
def execCopyLine (c : CopyId) (line : Nat) (cached : Bool) (part : Option Nat) (s : State) : Out :=
  let t := s.copies.get {} c
  Act.next (match t.jobs with
    | [] => Act.skip
    | j :: _ =>
      let e : CopyEnv := { s := s, c := c, p := (s.partOf c.die).getD 31, j := j, cached := cached, part := part }
      .when (t.poison.isNone && j.suspended.isNone && decide (line < j.lines) && !j.written.contains line)
        (match j.lost with
          | some code => e.poison code
          | none => e.line line)) s

/-- Writes with home in the copy's scope that are not performed there (R206, R217, R228). -/
def State.copyOwes (s : State) (c : CopyId) (j : CopyJob) : List Nat :=
  j.owed.filter fun id => (s.reqOf id).any fun q => s.homeIn { die := c.die, col := 0, row := 0 } noHandle j.desc.scope q.goal

/-- COPY_COMPLETE (R206): once every line is performed in the copy's scope, TLC moves to n, unless it is past it already
(R394), and what waits for it may go on; until then the host's writes are asked for (R228). -/
def execCopyComplete (c : CopyId) (s : State) : Out :=
  let t := s.copies.get {} c
  Act.next (match t.jobs with
    | [] => Act.skip
    | j :: rest =>
      .when (t.poison.isNone && j.suspended.isNone && decide (j.lines ≤ j.front))
        (match j.lost with
          | some code => CopyEnv.poison { s := s, c := c, p := (s.partOf c.die).getD 31, j := j, cached := false } code
          | none =>
            if s.copyOwes c j != [] then .atSystem (s.copyOwes c j)
            else
              (Act.onCopy c fun t => { t with tlc := if t.tlc.ult j.n then j.n else t.tlc, jobs := rest }).seq
                (.select ((s.partOf c.die).getD 31)))) s

end Sys2Proof.Machine
end

