-- ==== Sys2Proof/Machine/Turns.lean ====
section
/-!
DEFINITION. What a turn of the schedule executes: the slot that a CE selects, the instruction that a hart fetches; and
the placing of an instruction where the next step fetches it (log 2, log 10).
-/
namespace Sys2Proof.Machine

/-- What a turn comes to. -/
inductive Job
  /-- The instruction, executed with this focus. -/
  | run (f : Focus) (i : Instr)
  /-- Only this happens. -/
  | act (a : Act)
  /-- A word of the base RISC-V set at the pc of a hart. -/
  | base (die n : Nat) (w : BitVec 32)
  /-- No such unit. -/
  | noUnit

def hartExists (die n : Nat) : Bool := if isC die then decide (n < 4) else isX die && decide (n < 32)

/-- The interrupt taken before the next instruction: none while a form with a bounded wait waits (R380). -/
def Hart.interrupted (h : Hart) : Option Nat :=
  match h.wait with
  | some (.drain _ _ _) => none
  | some .queued => none
  | some (.launched _) => none
  | _ => h.takes

/-- A hart's turn: an interrupt that it takes, or the instruction at its pc, once its memory may be read (R72). -/
def State.hartJob (s : State) (d n : Nat) : Job :=
  if !hartExists d n then .noUnit
  else
    let h := s.hart d n
    if !h.running then .act .skip
    else match h.interrupted with
      | some i => .act (.onHart d n fun h => h.trap true i 0)
      | none =>
        match s.fetchWord d n with
        | none => .act (.exception d n excFetch h.pc)
        | some w =>
          if !s.memoryReady d then .act .skip
          else match decodeHart w with
            | .ok i => .run (.hart d n) i
            | .error _ => .base d n w

/-- A CE's turn: the slot of R151, when one is enabled. -/
def State.ceJob (s : State) (c : CellId) : Job :=
  if c.ok then
    (match s.selected c with
      | some (slot, i) => .run (.ce c slot) i
      | none => .act .skip)
  else .noUnit

def State.job (s : State) : Turn → Job
  | .hart d n => s.hartJob d n
  | .ce c => s.ceJob c
  | .event i => .run .none i

/-- Time passes, and the turn is taken off the schedule. -/
def Act.advance (dt : Nat) (rest : List (Nat × Turn)) (f : Focus) : Act :=
  .block [.emit (.agenda rest), .read fun s => .emit (.cycle (s.cycle + dt)), .emit (.focus f)]

/-! ### Placing an instruction -/

/-- Tokens that let the guard of a word hold: one data token, or one of the marker tested, in each channel required. -/
def guardTok (w : CEWord) (b : Body) (m : Option Marker) : List Tok :=
  [{ body := b, ctx := w.ctx, mark := m.getD .data }]

def guardChans (w : CEWord) (req : BitVec 4) (b : Body) (m : Option Marker) : Store Nat (List Tok) :=
  ((List.range 4).filter req.getLsbD).map fun i => (i, guardTok w b m)

/-- Registers that the presence test wants. -/
def guardRegs (w : CEWord) : List Opnd :=
  match w.prt with
  | .present a | .presentAbsent a _ => [regOpnd a]
  | _ => []

/-- A CE whose slot 16 × CTX holds the instruction, with its guard true. -/
def placedCe (i : Instr) (w : CEWord) (own : Lot) : Ce :=
  let mv := match w.mkt with | .vector m => some m | _ => none
  let ms := match w.mkt with | .scalar m => some m | _ => none
  let mc := match w.mkt with | .control m => some m | _ => none
  let c : Ce :=
    { slots := [(16 * w.ctx.toNat, i)], p := w.pval
      vi := guardChans w w.vreq (.vec { mask := 0xFFFF }) mv
      si := guardChans w w.sreq (.scal 0) ms
      ci := guardChans w w.creq (.ctl false) mc }
  (guardRegs w).foldl (fun c o => c.write o { fmt := .i32, ctx := 0, ver := 0, own := own, now := 0 } (.scal 0)) c

/-- A cell that holds nothing but the instruction. -/
def placedCell (i : Instr) (w : CEWord) : Cell := { ce := placedCe i w 1 }

/-- A RUNNING region of one cell, cell (0, 0) of die 0. -/
def placedRegion : Region :=
  { state := .running, cols := [0], rows := [0], cells := [(0, 0)], lots := [(0, 1)] }

def placedAt : CellId := { die := 0, col := 0, row := 0 }

/-- Booted X-dies: stage READY. -/
def bootedX : Store Nat Boot := [(24, { stage := .ready }), (25, { stage := .ready })]

/-- The state with an instruction where the next step takes it from: a slot of a running region's cell, or the memory
at the pc of hart 0 of die 0, which runs. -/
def placeWord (s : State) (nbits w : Nat) : State :=
  if nbits = 128 then
    match decodeCE (BitVec.ofNat 128 w) with
    | .ok i =>
      (match i.ceParts with
        | some (_, cw) =>
          { s with
            agenda := (0, .ce placedAt) :: s.agenda, boots := bootedX
            cells := s.cells.put placedAt (placedCell i cw), regions := s.regions.put 0 placedRegion
            lots := s.lots.put 0 { counter := 1, live := [1] } }
        | none => s)
    | .error _ => s
  else
    let h := s.hart 0 0
    let a := match h.place 0 h.pc with
      | .own pa => pa
      | _ => 0
    { s with
      agenda := (0, .hart 0 0) :: s.agenda, boots := bootedX, wipes := s.wipes.put (.hbm 0) .done
      mem := s.mem.writeN (homeKey 0 a) ((leBytes 4 w).map some)
      harts := s.harts.put (0, 0) { h with running := true, pc := BitVec.ofNat 64 a } }

end Sys2Proof.Machine
end

