-- ==== Sys2Proof/Machine/Control.lean ====
section
/-!
DEFINITION. The control blocks as loads and stores see them, the CSRs of a hart, and the steps that write them
(01 R4, 15 R377, R378, and the register maps of chapters 01 to 07).
-/
namespace Sys2Proof.Machine

/-! ### Reads -/

/-- SEAMST with its computed fields (R21): SEAMNO, TYPE, FWCLOSED. -/
def State.readSeamst (s : State) (die port : Nat) : DWord :=
  let no := (portSeam die port).getD 63
  let ty := match portSeam die port with
    | some n => if isX (seamSides n).1.1 || isX (seamSides n).2.1 then 1 else 0
    | none => if (portEdge die port).isSome then 2 else 3
  let v := withField (withField (s.reg die (.seamst port)) 15 10 no) 9 8 ty
  withField v 7 7 (s.regField die (.sfw port) 0 0)

/-- The die and port across a seam. -/
def facing (die port : Nat) : Option DiePort :=
  (portSeam die port).map fun n => if (seamSides n).1 = (die, port) then (seamSides n).2 else (seamSides n).1

/-- SFW with PEER (R75): PARTCFG.PARTID of the C-die across the seam, 31 for an X-die or no neighbour. -/
def State.readSfw (s : State) (die port : Nat) : DWord :=
  withField (s.reg die (.sfw port)) 12 8 (match facing die port with
    | some e => if isC e.1 then s.regField e.1 .partcfg 4 0 else 31
    | none => 31)

/-- SLOGST (R197). -/
def State.readSlogst (s : State) (die i : Nat) : DWord :=
  let l := s.log (die, i)
  let oldest := match s.logged (die, i) with
    | q :: _ => ((q.asid).getD 0).toNat
    | [] => 0
  let n := l.entries.length
  BitVec.ofNat 64 (min 256 n + (if 256 ≤ n then 2 ^ 9 else 0) + oldest * 2 ^ 16 + l.discards.toNat * 2 ^ 32
    + l.replays.toNat * 2 ^ 48)

/-- LOTST (R200). -/
def State.readLotst (s : State) (die : Nat) : DWord :=
  let l := s.lotsOf die
  BitVec.ofNat 64 (l.counter.toNat + (if l.sweeping then 2 ^ 12 else 0) + min 4095 l.live.length * 2 ^ 32
    + l.sweeps.toNat * 2 ^ 48)

/-- The selected window entry; 0 at or above WINCNT (R44), and where nothing was written since reset (R41). -/
def State.readWinent (s : State) (x : Nat) : DWord :=
  let w := (s.xdie x).winsel.toNat
  let v := s.fn x (bitField w 25 16)
  if decide (bitField w 25 16 < 514) && decide (bitField w 13 0 < v.wincnt) then v.windows.get 0 (bitField w 13 0) else 0

/-- A register as a load sees it: stored bits, computed fields, and what lies elsewhere in the state. -/
def State.readReg (s : State) (die off : Nat) : DWord :=
  let x := s.xdie die
  match regAt die off with
  | none => 0
  | some r =>
    match r with
    | .seamst p => s.readSeamst die p
    | .sfw p => s.readSfw die p
    | .dmap i => if i < 24 then s.reg die r else s.reg die r ||| BitVec.ofNat 64 i
    | .slogst i => s.readSlogst die i
    | .lotst => s.readLotst die
    | .winsel => x.winsel
    | .winent => s.readWinent die
    | .winctl => if x.sync.isSome then 1 else 0
    | .lfdrop n => (x.lfdrop.get 0 n).zeroExtend 64
    | .tnsel => BitVec.ofNat 64 x.tnsel
    | .tnent j => if 4 ≤ j then 0 else x.tnHeld.get ((x.tenants.get {} x.tnsel).words.get 0 j) j
    | .expsel => BitVec.ofNat 64 x.expsel
    | .expent j => x.expHeld.get (x.exports.get 0 (x.expsel, j)) j
    | .srsel => BitVec.ofNat 64 x.srsel
    | .srent j => if j = 0 then x.srHeld else x.ranges.get 0 (x.srsel, 1)
    | .vdst v =>
      (match s.partOf die with
        | some p => if s.leadDie p = some die then s.vdst p v else s.reg die r
        | none => s.reg die r)
    | .fncfg f =>
      let v := s.fn die f
      BitVec.ofNat 64 (v.winlog + (if v.en || !isVf f then 2 ^ 16 else 0))
    | .winst f => (s.fn die f).drops.zeroExtend 64
    | .pwrlim => if die = 24 then s.reg die r else 0
    | _ => s.reg die r

/-! ### Writes -/

/-- SEAMST: CLR and FAILIRQ (R21). -/
def Act.seamstWrite (die port : Nat) (v : DWord) : Act :=
  (Act.when (v.getLsbD 3) (.seamstClr die port)).seq (.when (v.getLsbD 6) (.failirqClear die port))

/-- A register as a store writes it (R4): RW fields take the value, W1C and WO fields act, RO and RSV fields stay. A
store to SFW is ignored (R75). A new selection shows the entry that it names in the entry registers. -/
def Act.writeReg (die off : Nat) (v : DWord) : Act :=
  match regAt die off with
  | none => .skip
  | some r =>
    match r with
    | .defmap w => .defmapWrite die w v
    | .modid => .modidWrite die v
    | .seamst p => .seamstWrite die p v
    | .sfw _ => .skip
    | .partcfg => .partcfgWrite die v
    | .pdfq => .emit (.reg die .pdfq v)
    | .pdfqst => .when (v.getLsbD 63) (.pdfqstClr die)
    | .ftlgc => .ftlgcWrite die v
    | .dnwgt w => .dnwgtWrite die w v
    | .dmap i => .dmapWrite die i v
    | .slogctl i => .slogctlWrite die i v
    | .mtrbase i => .emit (.reg die (.mtrbase i) v)
    | .pwrlim => .pwrlimWrite die v
    | .winsel => .onXDie die fun x => { x with winsel := v &&& (bitsMask 25 16 ||| bitsMask 13 0) }
    | .winent => .winentWrite die v
    | .winctl => .when (v.getLsbD 0) (.startSync die)
    | .lfdrop n => .when (v.getLsbD 63) (.lfdropClr die n)
    | .tnsel => .onXDie die fun x => { x with tnsel := (v.extractLsb' 0 12).toNat, tnHeld := [] }
    | .tnent j =>
      if j = 0 then .tnentCommit die v else .onXDie die fun x => { x with tnHeld := x.tnHeld.put j (v &&& tenantBits j) }
    | .xpart p => .xpartWrite die p v
    | .pasidtbl i => .emit (.reg die (.pasidtbl i) v)
    | .expsel => .onXDie die fun x => { x with expsel := (v.extractLsb' 0 10).toNat, expHeld := [] }
    | .expent j =>
      if j = 3 then .expentCommit die v
      else .onXDie die fun x =>
        { x with expHeld := x.expHeld.put j (v &&& (if j = 1 then bitsMask 31 0 else bitsMask 63 16)) }
    | .srsel => .onXDie die fun x =>
        { x with srsel := (v.extractLsb' 0 6).toNat, srHeld := x.ranges.get 0 ((v.extractLsb' 0 6).toNat, 0) }
    | .srent j => if j = 0 then .onXDie die fun x => { x with srHeld := v &&& bitsMask 63 16 } else .srentCommit die v
    | .vdcfg i => .vdcfgWrite die i v
    | .vdasid i => .vdasidWrite die i v
    | .fncfg f => .fncfgWrite die f v
    | .winst f => .when (v.getLsbD 63) (.winstClr die f)
    | .defmapst | .monpr _ | .slogst _ | .lotst | .xpartst | .vdst _ => .skip

/-! ### CSRs (R378; the others by the RISC-V privileged architecture, log 11) -/

/-- XPIRQ written: a 1 clears a bit; SEAM stays while a FAILIRQ of the die is set. -/
def Act.xpirqWrite (die hart : Nat) (v : DWord) : Act :=
  .read fun s =>
    let keep : BitVec 2 := if (List.range 5).any fun p => s.regField die (.seamst p) 6 6 == 1 then 2 else 0
    .when (isC die) (.onHart die hart fun h => { h with xpirq := h.xpirq &&& (~~~(v.extractLsb' 0 2) ||| keep) })

/-- Bits of mstatus that sstatus shows (PRESUMED, log 11). -/
def sstatusBits : DWord := bitsMask 63 63 ||| bitsMask 19 18 ||| bitsMask 14 13 ||| bitsMask 8 8 ||| bitsMask 5 5 ||| bitsMask 1 1

/-- mstatus as it reads: SD says that FS is Dirty (log 9). -/
def Hart.mstatus (h : Hart) : DWord :=
  h.csr.mstatus ||| (if h.csr.mstatus &&& bitsMask 14 13 = bitsMask 14 13 then bitsMask 63 63 else 0)

/-- Bits of mstatus that a write does not reach: SD, and FS where there are no floating-point registers (log 9). -/
def mstatusKept (die : Nat) : DWord := bitsMask 63 63 ||| (if isX die then 0 else bitsMask 14 13)

/-- The F and D sets are there and not off: a system core with FS other than 0 (log 9). -/
def State.floatOn (s : State) (die hart : Nat) : Bool := isX die && (s.hart die hart).csr.mstatus &&& bitsMask 14 13 != 0

/-- A CSR as its hart reads it; none where there is no such CSR (R378; the others PRESUMED, log 11). -/
def State.csrGet (s : State) (die hart num : Nat) : Option DWord :=
  let h := s.hart die hart
  if num = 0x5C0 then some h.xpasid
  else if num = 0x5C1 then some (if isC die then h.xpirq.zeroExtend 64 else 0)
  else if 0x5D0 ≤ num ∧ num ≤ 0x5DF then some (h.xpseg.get 0 (num - 0x5D0))
  else match num with
    | 0x001 => if s.floatOn die hart then some ((h.fcsr &&& 31).zeroExtend 64) else none
    | 0x002 => if s.floatOn die hart then some ((h.fcsr >>> 5).zeroExtend 64) else none
    | 0x003 => if s.floatOn die hart then some (h.fcsr.zeroExtend 64) else none
    | 0x300 => some h.mstatus
    | 0x301 => some 0
    | 0x302 => some h.csr.medeleg
    | 0x303 => some h.csr.mideleg
    | 0x304 => some h.csr.mie
    | 0x305 => some h.csr.mtvec
    | 0x306 => some 0
    | 0x340 => some h.csr.mscratch
    | 0x341 => some h.csr.mepc
    | 0x342 => some h.csr.mcause
    | 0x343 => some h.csr.mtval
    | 0x344 => some h.csr.mip
    | 0x100 => some (h.mstatus &&& sstatusBits)
    | 0x104 => some (h.csr.mie &&& h.csr.mideleg)
    | 0x105 => some h.csr.stvec
    | 0x106 => some 0
    | 0x140 => some h.csr.sscratch
    | 0x141 => some h.csr.sepc
    | 0x142 => some h.csr.scause
    | 0x143 => some h.csr.stval
    | 0x144 => some (h.csr.mip &&& h.csr.mideleg)
    | 0x180 => some h.csr.satp
    | 0xF11 => some 0
    | 0xF12 => some 0
    | 0xF13 => some 0
    | 0xF14 => some (BitVec.ofNat 64 (32 * die + hart))
    | 0xF15 => some 0
    | _ => none

/-- Bits of a value taken, the others kept. -/
def masked (m old v : DWord) : DWord := (old &&& ~~~m) ||| (v &&& m)

/-- A CSR of a hart takes a value. Numbers that name no CSR here change nothing. -/
def Act.csrSet (die hart num : Nat) (v : DWord) : Act :=
  let at_ (f : Csrs → Csrs) : Act := .onHart die hart fun h => { h with csr := f h.csr }
  if num = 0x5C0 then .onHart die hart fun h => { h with xpasid := v }
  else if num = 0x5C1 then .xpirqWrite die hart v
  else if 0x5D0 ≤ num ∧ num ≤ 0x5DF then .onHart die hart fun h => { h with xpseg := h.xpseg.put (num - 0x5D0) v }
  else if num = 0x001 ∨ num = 0x002 ∨ num = 0x003 then
    .read fun s => .when (s.floatOn die hart) (.onHart die hart fun h =>
      { h with
        fcsr := if num = 1 then (h.fcsr &&& 0xE0) ||| (v.truncate 8 &&& 31)
          else if num = 2 then (h.fcsr &&& 31) ||| (v.truncate 8 <<< 5) else v.truncate 8
        csr := { h.csr with mstatus := h.csr.mstatus ||| bitsMask 14 13 } })
  else if num = 0x300 then at_ fun c => { c with mstatus := v &&& ~~~(mstatusKept die) }
  else if num = 0x302 then at_ fun c => { c with medeleg := v }
  else if num = 0x303 then at_ fun c => { c with mideleg := v }
  else if num = 0x304 then at_ fun c => { c with mie := v }
  else if num = 0x305 then at_ fun c => { c with mtvec := v }
  else if num = 0x340 then at_ fun c => { c with mscratch := v }
  else if num = 0x341 then at_ fun c => { c with mepc := v &&& ~~~1 }
  else if num = 0x342 then at_ fun c => { c with mcause := v }
  else if num = 0x343 then at_ fun c => { c with mtval := v }
  else if num = 0x344 then at_ fun c => { c with mip := v }
  else if num = 0x100 then at_ fun c => { c with mstatus := masked (sstatusBits &&& ~~~(mstatusKept die)) c.mstatus v }
  else if num = 0x104 then at_ fun c => { c with mie := masked c.mideleg c.mie v }
  else if num = 0x144 then at_ fun c => { c with mip := masked c.mideleg c.mip v }
  else if num = 0x105 then at_ fun c => { c with stvec := v }
  else if num = 0x140 then at_ fun c => { c with sscratch := v }
  else if num = 0x141 then at_ fun c => { c with sepc := v &&& ~~~1 }
  else if num = 0x142 then at_ fun c => { c with scause := v }
  else if num = 0x143 then at_ fun c => { c with stval := v }
  else .skip

/-- Lowest mode that may access a CSR: bits [9:8] of its number. -/
def csrAllowed (num : Nat) (p : Priv) : Bool := decide (num / 256 % 4 ≤ p.code)

/-- A CSR written by its hart: the illegal-instruction exception in too low a mode. -/
def Act.csrWrite (die hart num : Nat) (v : DWord) : Act :=
  .read fun s =>
    if csrAllowed num (s.hart die hart).priv then .csrSet die hart num v else .exception die hart excIllegal 0

/-- XPIRQ_CLEAR (R378). -/
def execXpirqClear (die hart : Nat) (v : DWord) (s : State) : Out :=
  Act.next (Act.when (decide (die < 26) && hartExists die hart) (.csrWrite die hart 0x5C1 v)) s

/-- REGISTER_WRITE (R4). -/
def execRegisterWrite (t : RegTarget) (v : DWord) (s : State) : Out :=
  Act.next (match t with
    | .block die off => Act.writeReg die off v
    | .csr die hart num => .when (hartExists die hart) (.csrWrite die hart num v)) s

/-! ### The end of a drain (R387) -/

/-- RG_DRAIN_TIMEOUT: the region is not FROZEN after 100 µs. -/
def execRgDrainTimeout (die hart : Nat) (s : State) : Out :=
  Act.next (match (s.hart die hart).wait with
    | some (.drain since rd w) =>
      let moving := match s.regions.get? w with
        | some r => r.state == .stopping || r.state == .freezing
        | none => false
      .when (moving && decide (since + drainLimit ≤ s.cycle)) (.retireX die hart rd (drainResult 0 rsPending))
    | _ => .skip) s

end Sys2Proof.Machine
end

