-- ==== Sys2Proof/Machine/XMem.lean ====
section
/-!
DEFINITION. Accesses of a hart to hart addresses: its own memory, the control blocks and the device aperture; and the
forms that acquire, release, fence and monitor (08 R216-R227, 15 R377, R395, R396).
-/
namespace Sys2Proof.Machine

/-! ### Ordinary accesses (R221, R377) -/

def HartAcc_addr : HartAcc → DWord
  | .load a _ _ _ | .loadF a _ _ | .store a _ _ | .amo _ a _ _ _ | .lr a _ _ | .sc a _ _ _ => a

def HartAcc_size : HartAcc → Nat
  | .load _ n _ _ | .loadF _ n _ | .store _ n _ | .amo _ _ n _ _ | .lr _ n _ | .sc _ n _ _ => n

/-- Loads and load-reserved: the misaligned exception of loads. -/
def HartAcc_loads : HartAcc → Bool
  | .load _ _ _ _ | .loadF _ _ _ | .lr _ _ _ => true
  | _ => false

/-- An access fault: that of loads for a load, of stores for everything else (R377). -/
def HartAcc_fault : HartAcc → Nat
  | .load _ _ _ _ | .loadF _ _ _ => excLoadAccess
  | _ => excStoreAccess

/-- Accesses that the event APERTURE_ACCESS names, and their sizes: 1 to 8 bytes for loads and stores, 4 or 8 for the
others. A floating-point load comes by its word alone. -/
def HartAcc_ok (acc : HartAcc) : Bool :=
  match acc with
  | .loadF _ _ _ => false
  | .load _ n _ _ | .store _ n _ => n == 1 || n == 2 || n == 4 || n == 8
  | _ => HartAcc_size acc == 4 || HartAcc_size acc == 8

/-- The `atom` that an AMO is performed as (R221). -/
def amoRmw (op : AmoOp) (size : Nat) (v : DWord) : Rmw :=
  let r (o : RmwOp) (uns : Bool) : Rmw := { op := o, size := size, v := v.toNat % 2 ^ (8 * size), uns := uns }
  match op with
  | .swap => r .xchg false
  | .add => r .add false
  | .xor => r .xor false
  | .and => r .and false
  | .or => r .or false
  | .min => r .min false
  | .max => r .max false
  | .minu => r .min true
  | .maxu => r .max true

/-- Bytes stored in a hart's own memory; reservations of the bytes end (R221). -/
def Act.ownStore (die pa : Nat) (bytes : List Byte) : Act :=
  .block [.eccClear die pa bytes.length, .storeBytes (homeKey die pa) (bytes.map some), .clearResv (homeKey die pa) bytes.length]

/-- An access to the hart's own die: cacheable, performed at once (R214). `len` is the length of the instruction. -/
def Act.ownAccess (len d n pa : Nat) (acc : HartAcc) : Act :=
  .read fun s =>
    let done (rd : Reg) (v : DWord) : Act := .retireLen (BitVec.ofNat 64 len) d n rd v
    let size := HartAcc_size acc
    let key := homeKey d pa
    let old := s.readLe key size
    let loaded (signed : Bool) : DWord := hartValue size signed (BitVec.ofNat 512 old)
    let fault : Act := .exception d n (HartAcc_fault acc) (HartAcc_addr acc)
    if !s.memoryReady d then .holdX d n .queued
    else match acc with
      | .load _ _ signed rd => if s.eccAt d pa size then fault else done rd (loaded signed)
      | .loadF _ _ rd =>
        if s.eccAt d pa size then fault else .retireF (BitVec.ofNat 64 len) d n rd size (BitVec.ofNat 64 old)
      | .store _ _ v => (Act.ownStore d pa (leBytes size v.toNat)).seq (done 0 0)
      | .amo op _ _ v rd =>
        if s.eccAt d pa size then fault
        else (Act.ownStore d pa (leBytes size ((amoRmw op size v).apply old))).seq (done rd (loaded true))
      | .lr _ _ rd =>
        if s.eccAt d pa size then fault
        else (Act.onHart d n fun h => { h with resv := some (key, size) }).seq (done rd (loaded true))
      | .sc _ _ v rd =>
        if (s.hart d n).resv = some (key, size) then
          .block
            [ .ownStore d pa (leBytes size v.toNat), .onHart d n fun h => { h with resv := none }, done rd 0 ]
        else (Act.onHart d n fun h => { h with resv := none }).seq (done rd 1)

/-- An access to a control block: aligned loads and stores of 8 bytes alone (R377). -/
def Act.blockAccess (len d n die off : Nat) (acc : HartAcc) : Act :=
  .read fun s =>
    match acc with
    | .load _ 8 _ rd => .retireLen (BitVec.ofNat 64 len) d n rd (s.readReg die off)
    | .loadF _ 8 rd => .retireF (BitVec.ofNat 64 len) d n rd 8 (s.readReg die off)
    | .store _ 8 v => (Act.retireLen (BitVec.ofNat 64 len) d n 0 0).seq (.writeReg die off v)
    | _ => .exception d n (HartAcc_fault acc) (HartAcc_addr acc)

/-- The request of an aperture access; none for LR and SC, which have no home there. -/
def apertureOp (len : Nat) : HartAcc → Option (MemOp × Ret)
  | .load _ n signed rd => some (.load n, .hartReg rd n signed len)
  | .loadF _ n rd => some (.load n, .hartF rd n len)
  | .store _ n v => some (.store ((leBytes n v.toNat).map some), .hartReg 0 8 false len)
  | .amo op _ n v rd => some (.rmw (amoRmw op n v) true, .hartReg rd n true len)
  | .lr _ _ _ | .sc _ _ _ _ => none

/-- An access to the device aperture: a request under XPASID on VC3 (R181, R197), whose answer ends the instruction. -/
def Act.apertureAccess (len d n : Nat) (va : DWord) (acc : HartAcc) : Act :=
  .read fun s =>
    let h := s.hart d n
    let p := s.hartPart d n
    let fault : Act := .exception d n (HartAcc_fault acc) (HartAcc_addr acc)
    match apertureOp len acc, h.asid, (Agent.hart d n).port with
    | some (op, ret), some a, some c =>
      if !s.canonical d p va then fault
      else .fresh fun id => .read fun s =>
        .block
          [ .emit (.reqs (s.reqs ++
              [{ id := id, agent := .hart d n, asid := some a, part := p, goal := .mem va op, ret := ret
                 st := .net, sb := HartAcc_addr acc, way := s.wayTo c p (.mem va op) }]))
          , .send c p 3 id (.mem va op)
          , .holdX d n .queued ]
    | _, _, _ => fault

/-- An access of a hart that has no access in flight. -/
def Act.hartAccess (len d n : Nat) (acc : HartAcc) : Act :=
  .read fun s =>
    let a := HartAcc_addr acc
    if !aligned a.toNat (HartAcc_size acc) then
      .exception d n (if HartAcc_loads acc then excLoadMisaligned else excStoreMisaligned) a
    else match (s.hart d n).place d a with
      | .own pa => .ownAccess len d n pa acc
      | .block die off => .blockAccess len d n die off acc
      | .aperture va => .apertureAccess len d n va acc
      | .bad => .exception d n (HartAcc_fault acc) a

/-- An access of the hart is on its way: the hart waits for its answer. -/
def State.hartInFlight (s : State) (d n : Nat) : Bool := s.reqs.any fun r => r.agent == .hart d n && !r.landed

/-- APERTURE_ACCESS (R377): a load, store or AMO of the base set. -/
def execApertureAccess (die hart : Nat) (acc : HartAcc) (s : State) : Out :=
  Act.next (Act.when (decide (die < 26) && hartExists die hart && (s.hart die hart).running && HartAcc_ok acc
      && (s.hart die hart).wait.isNone && !s.hartInFlight die hart)
    (.hartAccess 4 die hart acc)) s

/-! ### Scopes of a hart (R217) -/

/-- The home of an access of a hart lies in a scope. CELL and REGION act at DIE. -/
def State.hartScope (s : State) (d p : Nat) (sc : Scope) (va : DWord) : Bool :=
  let near := vaModule va == s.moduleNo d
  match sc with
  | .cell | .region | .die => near && decide (vaOwner va < 27) && s.ownerDie d p va == d
  | .part | .module => near && decide (vaOwner va < 27)
  | .team | .system => true

/-- Accesses of the hart with home in the scope that are not performed. -/
def XEnv.pendingIn (x : XEnv) (sc : Scope) (readsOnly : Bool) : List Nat :=
  (x.s.reqs.filter fun r => r.ofHart x.d x.n && (!readsOnly || r.goal.reads)
    && (match r.goal with
      | .mem va _ => x.s.hartScope x.d x.part sc va
      | _ => true)).map (·.id)

/-- A form that makes an access of its own: it waits for the access in flight. -/
def xaccess (i : Instr) (body : XEnv → Act) : State → Out :=
  xform i anyMode fun x => if x.s.hartInFlight x.d x.n then x.waits else body x

/-! ### `ldacq`, `strel`, `fence.p` (R395) -/

/-- An acquire: nothing of the hart follows before the load has its value. -/
def execLdacqW (rd rs1 : Reg) (scope : Scope) : State → Out := xaccess (.ldacqW rd rs1 scope) fun x =>
  .hartAccess 4 x.d x.n (.load (x.h.readX rs1) 4 true rd)
def execLdacqD (rd rs1 : Reg) (scope : Scope) : State → Out := xaccess (.ldacqD rd rs1 scope) fun x =>
  .hartAccess 4 x.d x.n (.load (x.h.readX rs1) 8 false rd)

/-- A release: the store is made once every access of the hart in the scope is performed. -/
def XEnv.release (x : XEnv) (sc : Scope) (a : DWord) (size : Nat) (v : DWord) : Act :=
  if aligned a.toNat size && x.pendingIn sc false != [] then .awaitX x.d x.n (x.pendingIn sc false)
  else .hartAccess 4 x.d x.n (.store a size v)

def execStrelW (rs2 rs1 : Reg) (scope : Scope) : State → Out := xaccess (.strelW rs2 rs1 scope) fun x =>
  x.release scope (x.h.readX rs1) 4 (x.h.readX rs2)
def execStrelD (rs2 rs1 : Reg) (scope : Scope) : State → Out := xaccess (.strelD rs2 rs1 scope) fun x =>
  x.release scope (x.h.readX rs1) 8 (x.h.readX rs2)

/-- `fence.p` (R218): an acquire waits for reads, every other order for all accesses. -/
def execFenceP (scope : Scope) (order : Order) : State → Out := xaccess (.fenceP scope order) fun x =>
  let ids := x.pendingIn scope (order == .acq)
  if ids != [] then .awaitX x.d x.n ids else x.ends 0 0

/-! ### `mon.wait` (R227, R396) -/

def Cond.met (c : Cond) (v r : DWord) : Bool :=
  match c with
  | .ne => v != r
  | .geu => decide (r.toNat ≤ v.toNat)

/-- What the monitor finds at its home. -/
inductive Seen8 | val (v : DWord) | waits | fault (cause : Nat)
  deriving DecidableEq, Repr

/-- The 8 bytes at a device virtual address, read at their home. -/
def XEnv.look (x : XEnv) (va : DWord) : Seen8 :=
  let s := x.s
  if x.asid.isNone || !s.canonical x.d x.part va || decide (26 ≤ vaOwner va) || vaModule va != s.moduleNo x.d then .fault excLoadAccess
  else
    let home := s.ownerDie x.d x.part va
    if !s.wayOpen x.part x.d home || (isX home && s.fenced home x.part) then .fault excLoadAccess
    else if (s.wayStops x.part x.d home).isSome || !s.memoryReady home || s.loadHeld home x.asid va 8 then .waits
    else match s.translate x.d x.part x.asid va 8 .load false with
      | .error c => .fault (if c = transMiss then excLoadPage else excLoadAccess)
      | .ok (l, pa) =>
        if s.eccAt home pa 8 && !l.freshBit (vaOffset va) then .fault excLoadAccess
        else .val (BitVec.ofNat 64 (leNat (s.fetchBytes home l (vaOffset va) pa 8)))

/-- The 8 bytes at a hart address on the module. -/
def XEnv.lookHart (x : XEnv) (a : DWord) : Seen8 :=
  if !aligned a.toNat 8 then .fault excLoadAccess
  else match x.h.place x.d a with
    | .own pa =>
      if !x.s.memoryReady x.d then .waits
      else if x.s.eccAt x.d pa 8 then .fault excLoadAccess
      else .val (BitVec.ofNat 64 (x.s.readLe (homeKey x.d pa) 8))
    | .aperture va => x.look va
    | .block _ _ | .bad => .fault excLoadAccess

/-- `mon.wait`: the hart compares again at each of its turns, so no write after the comparison is missed. -/
def execMonWait (rd rs1 rs2 : Reg) (scope : Scope) (cond : Cond) : State → Out :=
  xaccess (.monWait rd rs1 rs2 scope cond) fun x =>
    match x.lookHart (x.h.readX rs1) with
    | .val v => if Cond.met cond v (x.h.readX rs2) then x.ends rd v else .holdX x.d x.n .monitor
    | .waits => .holdX x.d x.n .monitor
    | .fault c => .exception x.d x.n c (x.h.readX rs1)

end Sys2Proof.Machine
end

