-- ==== Sys2Proof/Machine/XSys.lean ====
section
/-!
DEFINITION. Invalidation, fault queues, launches by a core, firewalls and debug access (15 R397-R401), and encodings that
name no form (10 R277).
-/
namespace Sys2Proof.Machine

/-! ### `pt.inv` (R199, R397) -/

/-- The operands of an invalidation. -/
structure Inval where
  all : Bool
  size : Nat
  owner : Nat
  asid : BitVec 16
  base : Nat
  deriving DecidableEq, Repr

def invalOf (a b : DWord) : Inval :=
  { all := a.getLsbD 46, size := (a.extractLsb' 40 6).toNat, owner := (a.extractLsb' 16 5).toNat
    asid := a.extractLsb' 0 16, base := (b.extractLsb' 0 52).toNat }

/-- Operands within their limits: an owner of the partition, a size from 16 to 52, an aligned base. -/
def XEnv.invalOk (x : XEnv) (a b : DWord) : Bool :=
  let v := invalOf a b
  a.extractLsb' 47 17 == 0 && a.extractLsb' 21 19 == 0
    && decide (v.owner < 28) && (decide (24 ≤ v.owner) || decide (v.owner < (x.s.partDies x.part).length))
    && (if v.all then v.size == 0 && b == 0 else decide (16 ≤ v.size) && decide (v.size ≤ 52) && v.base % 2 ^ v.size == 0)

/-- The MTLBs that it names. -/
def XEnv.invalAt (x : XEnv) (v : Inval) : List (Nat × Nat) :=
  if v.owner < 24 then [(x.s.regField (x.s.mapOf x.d x.part) (.dmap v.owner) 4 0, 0)]
  else if v.owner = 24 then [(24, 0)]
  else if v.owner = 25 then [(25, 1)]
  else if v.owner = 26 then (if v.all || v.size == 52 then [(24, 2), (25, 2)] else [(if v.base.testBit 51 then 25 else 24, 2)])
  else [(x.s.hostX x.part, 3)]

/-- A cached leaf that it drops. -/
def Inval.drops (v : Inval) (e : TlbEntry) : Bool :=
  e.asid == v.asid && (v.all || (decide (e.base < v.base + 2 ^ v.size) && decide (v.base < e.base + 2 ^ (16 + 9 * e.level))))

def Act.invalidate (v : Inval) (k : Nat × Nat) : Act :=
  .read fun s => .emit (.mtlb k.1 k.2 ((s.mtlbs.get [] k).filter fun e => !v.drops e))

/-- Requests that have left for the host through the MTLB under the ASID are not answered yet. -/
def XEnv.invalBusy (x : XEnv) (v : Inval) : Bool :=
  v.owner == 27 && x.s.reqs.any fun q => q.owed && q.asid == some v.asid && (match q.goal with
    | .mem va _ => vaOwner va == 27
    | _ => false)

/-- `pt.inv`: the entries are dropped; once no request uses them, side logs are replayed and copies go on. -/
def execPtInv (rd rs1 rs2 : Reg) : State → Out := xordered (.ptInv rd rs1 rs2) bothCores fun x =>
  let a := x.h.readX rs1
  let b := x.h.readX rs2
  let v := invalOf a b
  if !x.invalOk a b then x.ends rd rsBadArg
  else
    let drop : Act := .each (x.invalAt v) fun k => .invalidate v k
    if x.invalBusy v then drop.seq x.waits
    else x.does rd (drop.seq (.each (x.invalAt v) fun k => .replayAt k.1 k.2 (logsOf v.owner))) 0

/-! ### `fq.pop` (R398) -/

def execFqPop (rd rs1 : Reg) : State → Out := xordered (.fqPop rd rs1) bothCores fun x =>
  let va := x.h.readX rs1
  match if aligned va.toNat 64 then x.s.loadVa x.d x.part x.asid va 64 else none with
  | none => x.ends rd (allOnes - 1)
  | some b =>
    let head : DWord := BitVec.ofNat 64 (recNat b 0x10 8)
    if head = BitVec.ofNat 64 (recNat b 0x18 8) then x.ends rd allOnes
    else if !x.s.canStore x.d x.part x.asid (va + 0x10) 8 then x.ends rd (allOnes - 1)
    else x.does rd (.storeVa x.d x.part x.asid (va + 0x10) (leBytes 8 (head + 1).toNat)) head

/-! ### `launch` (R83, R84, R399) -/

/-- The launch request block: reply and overrides; none when it is misaligned or unreadable, or NOVR is above 11. -/
def XEnv.request (x : XEnv) (va : DWord) : Option (DWord × List Word) :=
  if va = 0 then some (0, [])
  else match if aligned va.toNat 64 then x.s.loadVa x.d x.part x.asid va 64 else none with
    | none => none
    | some b =>
      let n := recNat b 0x08 4
      if 11 < n then none
      else some (BitVec.ofNat 64 (recNat b 0x00 8), (List.range n).map fun i => BitVec.ofNat 32 (recNat b (0x10 + 4 * i) 4))

/-- The launch is handed to the dispatcher, whose answer ends the instruction (R93). -/
def execCoreLaunch (rd rs1 rs2 : Reg) : State → Out := xordered (.coreLaunch rd rs1 rs2) bothCores fun x =>
  match x.h.wait with
  | some (.launched _) => .skip
  | _ =>
    match x.request (x.h.readX rs2) with
    | none => x.ends rd (BitVec.ofNat 64 stLoadReject)
    | some (reply, ov) =>
      .fresh fun n =>
        (Act.emit (.launch n (some
          { recAddr := x.h.readX rs1, reply := reply, issuer := .hart x.d x.n rd, overrides := ov, asid := x.asid
            part := x.part, vd := 0 }))).seq (.holdX x.d x.n (.launched n))

/-! ### `fw.set` (R75, R400) -/

/-- A port of a die exists. -/
def portExists (die port : Nat) : Bool := (isC die && decide (port < 5)) || (isX die && decide (port < 4))

/-- CLOSE, XTRANSIT and LRC of a port. The completer starts anew when LRC goes from 0 to 1, and is idle while it is 0. -/
def Act.sfwSet (die port : Nat) (v : DWord) : Act :=
  .onReg die (.sfw port) fun o =>
    let done := o.getLsbD 3 && o.getLsbD 2 && v.getLsbD 2
    withField (withField o 2 0 (v.extractLsb' 0 3).toNat) 3 3 (if done then 1 else 0)

def execFwSet (rd rs1 rs2 : Reg) : State → Out := xordered (.fwSet rd rs1 rs2) systemOnly fun x =>
  let a := x.h.readX rs1
  let die := (a.extractLsb' 0 5).toNat
  let port := (a.extractLsb' 5 3).toNat
  let v := x.h.readX rs2
  if a.extractLsb' 8 56 != 0 || !portExists die port then x.ends rd allOnes
  else
    x.does rd
      ((Act.sfwSet die port v).seq (match facing die port with
        | some e => Act.sfwSet e.1 e.2 v
        | none => Act.skip))
      (x.s.readSfw die port)

/-! ### `dbg.rd` and `dbg.wr` (R71, R86, R204, R401) -/

/-- The life-cycle state, or the tenant's grant, permits debug access to the region. -/
def State.debugOk (s : State) (r : Region) : Bool :=
  s.fuses.lcs != 2 || (match s.launchOf r with
    | some l => l.flag flagDebug
    | none => false)

/-- What a debug block names. -/
structure DebugAt where
  id : CellId
  kind : Nat
  index : Nat
  deriving DecidableEq, Repr

def debugAt (r : Region) (b : List Byte) : Option DebugAt :=
  let col := recNat b 0 2
  let row := recNat b 2 1
  let kind := recNat b 3 1
  let index := recNat b 4 2
  if col < r.width ∧ row < r.height ∧ kind < 3 ∧ index < (if kind = 0 then 1024 else 16) then
    some { id := r.cellAt col row, kind := kind, index := index }
  else none

/-- Bytes of a block replaced from an offset. -/
def putAt (b : List Byte) (off : Nat) (new : List Byte) : List Byte := b.take off ++ new ++ b.drop (off + new.length)

/-- The block with LOT, STATE and the raw data filled in. -/
def State.debugFill (s : State) (t : DebugAt) (b : List Byte) : List Byte :=
  let c := s.cells.get {} t.id
  let head (lot : Lot) (state : Nat) (b : List Byte) : List Byte := putAt b 6 (leBytes 2 lot.toNat ++ leBytes 1 state)
  if t.kind = 0 then
    let l := c.me.line t.index
    putAt (head l.lot ((if l.full then 1 else 0) + 16 * l.ver.toNat) b) 0x10 (leBytes 128 l.data.toNat)
  else if t.kind = 1 then
    let v := c.ce.v.get {} t.index
    putAt (head v.lot (if v.pres then 1 else 0) b) 0x10
      (leBytes 64 v.val.data.toNat ++ leBytes 8 v.val.sb.toNat ++ leBytes 2 v.val.mask.toNat ++ leBytes 1 v.val.fmt.code.toNat)
  else
    let v := c.ce.s.get {} t.index
    putAt (head v.lot (if v.pres then 1 else 0) b) 0x10 (leBytes 4 v.val.toNat)

/-- A whole line or register written with the lot that the block names; F/E, presence and version stay. -/
def debugPut (t : DebugAt) (b : List Byte) (c : Cell) : Cell :=
  let lot : Lot := BitVec.ofNat 12 (recNat b 6 2)
  if t.kind = 0 then
    let l : Line := { c.me.line t.index with data := BitVec.ofNat 1024 (recNat b 0x10 128), lot := lot, bad := 0 }
    { c with me := c.me.putLine t.index l }
  else if t.kind = 1 then
    let x : VecVal :=
      { data := BitVec.ofNat 512 (recNat b 0x10 64), sb := BitVec.ofNat 64 (recNat b 0x50 8)
        mask := BitVec.ofNat 16 (recNat b 0x58 2), fmt := Fmt.ofCode (BitVec.ofNat 3 (recNat b 0x5A 1)) }
    let v : VReg := { c.ce.v.get {} t.index with lot := lot, val := x }
    { c with ce := { c.ce with v := c.ce.v.put t.index v } }
  else
    let v : SReg := { c.ce.s.get {} t.index with lot := lot, val := BitVec.ofNat 32 (recNat b 0x10 4) }
    { c with ce := { c.ce with s := c.ce.s.put t.index v } }

/-- What both forms check before they act: alignment, the region's state, the permission, the block. -/
def XEnv.debug (x : XEnv) (rd : Reg) (va : DWord) (r : Region) (act : DebugAt → List Byte → Act) : Act :=
  if !aligned va.toNat 64 then x.ends rd rsBadArg
  else if r.state != .frozen && r.state != .retired then x.ends rd rsBadState
  else if !x.s.debugOk r then x.ends rd rsDenied
  else match x.s.loadLong x.d x.part x.asid va 4 with
    | none => x.ends rd rsMemFault
    | some b =>
      match debugAt r b with
      | none => x.ends rd rsBadArg
      | some t => act t b

/-- `dbg.rd`. -/
def execDbgRd (rd rs1 rs2 : Reg) : State → Out := xregion (.dbgRd rd rs1 rs2) rd rs1 fun x _ r =>
  let va := x.h.readX rs2
  x.debug rd va r fun t b =>
    if (List.range 4).all fun i => x.s.canStore x.d x.part x.asid (va + BitVec.ofNat 64 (64 * i)) 64 then
      x.does rd (.storeLong x.d x.part x.asid va (x.s.debugFill t b) 4) rsOk
    else x.ends rd rsMemFault

/-- `dbg.wr`: a tag that names no format gives BADARG. -/
def execDbgWr (rd rs1 rs2 : Reg) : State → Out := xregion (.dbgWr rd rs1 rs2) rd rs1 fun x _ r =>
  x.debug rd (x.h.readX rs2) r fun t b =>
    if t.kind = 1 ∧ 8 ≤ recNat b 0x5A 1 then x.ends rd rsBadArg
    else x.does rd (.onCell t.id (debugPut t b)) rsOk

/-! ### Other encodings (R277) -/

/-- UNASSIGNED_XPHIDO_ENCODING: the illegal-instruction exception. -/
def execUnassignedXphido (word : BitVec 32) (s : State) : Out :=
  (match s.focus with
    | .hart d n => Act.exception d n excIllegal (word.zeroExtend 64)
    | _ => Act.skip).next s

end Sys2Proof.Machine
end

