-- ==== Sys2Proof/Machine/Base.lean ====
section
/-!
DEFINITION. The base instruction set of the harts: RV64I, M, A, C, Zicsr, Zifencei, the returns from traps, and F and D
on the system cores, which the spec names and the opcode table leaves to the RISC-V architecture (00, 08 R221, R223;
PRESUMED, log 9).
-/
namespace Sys2Proof.Machine

/-! ### Fields -/

def wordRd (w : BitVec 32) : Reg := w.extractLsb' 7 5
def wordRs1 (w : BitVec 32) : Reg := w.extractLsb' 15 5
def wordRs2 (w : BitVec 32) : Reg := w.extractLsb' 20 5
def wordF3 (w : BitVec 32) : Nat := (w.extractLsb' 12 3).toNat
def wordF7 (w : BitVec 32) : Nat := (w.extractLsb' 25 7).toNat

def immI (w : BitVec 32) : DWord := (w.extractLsb' 20 12).signExtend 64
def immS (w : BitVec 32) : DWord := (w.extractLsb' 25 7 ++ w.extractLsb' 7 5).signExtend 64
def immB (w : BitVec 32) : DWord :=
  (w.extractLsb' 31 1 ++ w.extractLsb' 7 1 ++ w.extractLsb' 25 6 ++ w.extractLsb' 8 4 ++ 0#1).signExtend 64
def immU (w : BitVec 32) : DWord := (w.extractLsb' 12 20 ++ 0#12).signExtend 64
def immJ (w : BitVec 32) : DWord :=
  (w.extractLsb' 31 1 ++ w.extractLsb' 12 8 ++ w.extractLsb' 20 1 ++ w.extractLsb' 21 10 ++ 0#1).signExtend 64

/-! ### Arithmetic -/

def boolD (b : Bool) : DWord := if b then 1 else 0

/-- I: operations by funct3; `alt` is bit 30. -/
def aluOp (f3 : Nat) (alt : Bool) (a b : DWord) : DWord :=
  match f3 with
  | 0 => if alt then a - b else a + b
  | 1 => a <<< (b.toNat % 64)
  | 2 => boolD (a.slt b)
  | 3 => boolD (a.ult b)
  | 4 => a ^^^ b
  | 5 => if alt then a.sshiftRight (b.toNat % 64) else a >>> (b.toNat % 64)
  | 6 => a ||| b
  | _ => a &&& b

/-- The same on the low words, sign-extended; none where RV64I has no such operation. -/
def aluOpW (f3 : Nat) (alt : Bool) (a b : DWord) : Option DWord :=
  let x : Word := a.extractLsb' 0 32
  let y : Word := b.extractLsb' 0 32
  let r : Option Word := match f3 with
    | 0 => some (if alt then x - y else x + y)
    | 1 => some (x <<< (y.toNat % 32))
    | 5 => some (if alt then x.sshiftRight (y.toNat % 32) else x >>> (y.toNat % 32))
    | _ => none
  r.map (·.signExtend 64)

/-- Signed and unsigned division and remainder: by zero the quotient is all ones and the remainder the dividend. -/
def divOp {n : Nat} (f3 : Nat) (a b : BitVec n) : BitVec n :=
  match f3 with
  | 4 => if b = 0 then ~~~0 else a.sdiv b
  | 5 => if b = 0 then ~~~0 else a / b
  | 6 => if b = 0 then a else a.srem b
  | _ => if b = 0 then a else a % b

/-- M: operations by funct3. -/
def mulOp (f3 : Nat) (a b : DWord) : DWord :=
  match f3 with
  | 0 => a * b
  | 1 => BitVec.ofInt 64 (a.toInt * b.toInt / 2 ^ 64)
  | 2 => BitVec.ofInt 64 (a.toInt * (b.toNat : Int) / 2 ^ 64)
  | 3 => BitVec.ofNat 64 (a.toNat * b.toNat / 2 ^ 64)
  | k => divOp k a b

def mulOpW (f3 : Nat) (a b : DWord) : Option DWord :=
  let x : Word := a.extractLsb' 0 32
  let y : Word := b.extractLsb' 0 32
  if f3 = 0 then some ((x * y).signExtend 64)
  else if 4 ≤ f3 then some ((divOp f3 x y).signExtend 64)
  else none

/-- Branch conditions. -/
def branches (f3 : Nat) (a b : DWord) : Option Bool :=
  match f3 with
  | 0 => some (a == b)
  | 1 => some (a != b)
  | 4 => some (a.slt b)
  | 5 => some (!a.slt b)
  | 6 => some (a.ult b)
  | 7 => some (!a.ult b)
  | _ => none

/-! ### Compressed words (C) -/

def encI (imm : Nat) (rs1 : Reg) (f3 : Nat) (rd : Reg) (opc : Nat) : BitVec 32 :=
  BitVec.ofNat 12 imm ++ rs1 ++ BitVec.ofNat 3 f3 ++ rd ++ BitVec.ofNat 7 opc
def encS (imm : Nat) (rs2 rs1 : Reg) (f3 : Nat) (opc : Nat) : BitVec 32 :=
  BitVec.ofNat 7 (imm / 32) ++ rs2 ++ rs1 ++ BitVec.ofNat 3 f3 ++ BitVec.ofNat 5 imm ++ BitVec.ofNat 7 opc
def encR (f7 : Nat) (rs2 rs1 : Reg) (f3 : Nat) (rd : Reg) (opc : Nat) : BitVec 32 :=
  BitVec.ofNat 7 f7 ++ rs2 ++ rs1 ++ BitVec.ofNat 3 f3 ++ rd ++ BitVec.ofNat 7 opc
def encB (imm : Nat) (rs1 : Reg) (f3 : Nat) : BitVec 32 :=
  BitVec.ofNat 1 (imm / 2 ^ 12) ++ BitVec.ofNat 6 (imm / 32) ++ (0 : Reg) ++ rs1 ++ BitVec.ofNat 3 f3
    ++ BitVec.ofNat 4 (imm / 2) ++ BitVec.ofNat 1 (imm / 2 ^ 11) ++ BitVec.ofNat 7 0x63
def encJ (imm : Nat) : BitVec 32 :=
  BitVec.ofNat 1 (imm / 2 ^ 20) ++ BitVec.ofNat 10 (imm / 2) ++ BitVec.ofNat 1 (imm / 2 ^ 11)
    ++ BitVec.ofNat 8 (imm / 2 ^ 12) ++ (0 : Reg) ++ BitVec.ofNat 7 0x6F

/-- Bits [hi:lo] of a parcel, moved to a place of the immediate. -/
def bitsTo (c : BitVec 16) (hi lo at_ : Nat) : Nat := bitField c.toNat hi lo * 2 ^ at_

/-- A number of so many bits, sign-extended to 64. -/
def signedTo (bits v : Nat) : Nat := (BitVec.ofInt 64 ((BitVec.ofNat bits v).toInt)).toNat

/-- The word that a compressed parcel stands for; none where it is reserved. -/
def expandC (c : BitVec 16) : Option (BitVec 32) :=
  let f3 := bitField c.toNat 15 13
  let rp (lo : Nat) : Reg := BitVec.ofNat 5 (8 + bitField c.toNat (lo + 2) lo)
  let rd : Reg := c.extractLsb' 7 5
  let rs2 : Reg := c.extractLsb' 2 5
  let imm6 := bitsTo c 12 12 5 + bitsTo c 6 2 0
  let simm6 := signedTo 6 imm6
  match bitField c.toNat 1 0 with
  | 0 =>
    let sp4 := bitsTo c 12 11 4 + bitsTo c 10 7 6 + bitsTo c 6 6 2 + bitsTo c 5 5 3
    let off4 := bitsTo c 12 10 3 + bitsTo c 6 6 2 + bitsTo c 5 5 6
    let off8 := bitsTo c 12 10 3 + bitsTo c 6 5 6
    (match f3 with
      | 0 => if sp4 = 0 then none else some (encI sp4 2 0 (rp 2) 0x13)
      | 1 => some (encI off8 (rp 7) 3 (rp 2) 0x07)
      | 2 => some (encI off4 (rp 7) 2 (rp 2) 0x03)
      | 3 => some (encI off8 (rp 7) 3 (rp 2) 0x03)
      | 5 => some (encS off8 (rp 2) (rp 7) 3 0x27)
      | 6 => some (encS off4 (rp 2) (rp 7) 2 0x23)
      | 7 => some (encS off8 (rp 2) (rp 7) 3 0x23)
      | _ => none)
  | 1 =>
    let sp16 := bitsTo c 12 12 9 + bitsTo c 6 6 4 + bitsTo c 5 5 6 + bitsTo c 4 3 7 + bitsTo c 2 2 5
    let jump := bitsTo c 12 12 11 + bitsTo c 11 11 4 + bitsTo c 10 9 8 + bitsTo c 8 8 10 + bitsTo c 7 7 6
      + bitsTo c 6 6 7 + bitsTo c 5 3 1 + bitsTo c 2 2 5
    let br := bitsTo c 12 12 8 + bitsTo c 11 10 3 + bitsTo c 6 5 6 + bitsTo c 4 3 1 + bitsTo c 2 2 5
    (match f3 with
      | 0 => some (encI simm6 rd 0 rd 0x13)
      | 1 => if rd = 0 then none else some (encI simm6 rd 0 rd 0x1B)
      | 2 => some (encI simm6 0 0 rd 0x13)
      | 3 =>
        if rd = 2 then (if sp16 = 0 then none else some (encI (signedTo 10 sp16) 2 0 2 0x13))
        else if imm6 = 0 then none
        else some (BitVec.ofNat 20 simm6 ++ rd ++ BitVec.ofNat 7 0x37)
      | 4 =>
        (match bitField c.toNat 11 10 with
          | 0 => some (encI imm6 (rp 7) 5 (rp 7) 0x13)
          | 1 => some (encI (0x400 + imm6) (rp 7) 5 (rp 7) 0x13)
          | 2 => some (encI simm6 (rp 7) 7 (rp 7) 0x13)
          | _ =>
            (match bitField c.toNat 12 12, bitField c.toNat 6 5 with
              | 0, 0 => some (encR 0x20 (rp 2) (rp 7) 0 (rp 7) 0x33)
              | 0, 1 => some (encR 0 (rp 2) (rp 7) 4 (rp 7) 0x33)
              | 0, 2 => some (encR 0 (rp 2) (rp 7) 6 (rp 7) 0x33)
              | 0, _ => some (encR 0 (rp 2) (rp 7) 7 (rp 7) 0x33)
              | _, 0 => some (encR 0x20 (rp 2) (rp 7) 0 (rp 7) 0x3B)
              | _, 1 => some (encR 0 (rp 2) (rp 7) 0 (rp 7) 0x3B)
              | _, _ => none))
      | 5 => some (encJ (signedTo 12 jump))
      | 6 => some (encB (signedTo 9 br) (rp 7) 0)
      | _ => some (encB (signedTo 9 br) (rp 7) 1))
  | 2 =>
    let lw := bitsTo c 12 12 5 + bitsTo c 6 4 2 + bitsTo c 3 2 6
    let ld := bitsTo c 12 12 5 + bitsTo c 6 5 3 + bitsTo c 4 2 6
    (match f3 with
      | 0 => some (encI imm6 rd 1 rd 0x13)
      | 1 => some (encI ld 2 3 rd 0x07)
      | 2 => if rd = 0 then none else some (encI lw 2 2 rd 0x03)
      | 3 => if rd = 0 then none else some (encI ld 2 3 rd 0x03)
      | 4 =>
        if c.getLsbD 12 then
          (if rs2 != 0 then some (encR 0 rs2 rd 0 rd 0x33)
           else if rd = 0 then some 0x00100073 else some (encI 0 rd 0 1 0x67))
        else if rs2 != 0 then some (encR 0 rs2 0 0 rd 0x33)
        else if rd = 0 then none else some (encI 0 rd 0 0 0x67)
      | 5 => some (encS (bitsTo c 12 10 3 + bitsTo c 9 7 6) rs2 2 3 0x27)
      | 6 => some (encS (bitsTo c 12 9 2 + bitsTo c 8 7 6) rs2 2 2 0x23)
      | _ => some (encS (bitsTo c 12 10 3 + bitsTo c 9 7 6) rs2 2 3 0x23))
  | _ => none

/-! ### Accesses (R221, R377) -/

/-- An access of a base word waits for the one in flight. -/
def Act.baseAccess (len d n : Nat) (acc : HartAcc) : Act :=
  .read fun s => if s.hartInFlight d n then .holdX d n .queued else .hartAccess len d n acc

/-- Accesses of the hart that a FENCE or a release waits for: those of the kinds of its predecessor set with home in
MODULE, and of owner 27 at SYSTEM those of its I/O bits (R221). -/
def State.fenceWaits (s : State) (d n : Nat) (i o r w : Bool) : List Nat :=
  (s.reqs.filter fun q => q.ofHart d n && (match q.goal with
    | .mem va op =>
      let reads := op.isLoad || op.returns
      if vaModule va != s.moduleNo d then false
      else if vaOwner va = 27 then (i && reads) || (o && !op.isLoad) else (r && reads) || (w && !op.isLoad)
    | _ => false)).map (·.id)

/-- The AMO of a funct5; none where there is none. -/
def amoOf : Nat → Option AmoOp
  | 0x00 => some .add
  | 0x01 => some .swap
  | 0x04 => some .xor
  | 0x08 => some .or
  | 0x0C => some .and
  | 0x10 => some .min
  | 0x14 => some .max
  | 0x18 => some .minu
  | 0x1C => some .maxu
  | _ => none

/-! ### One word -/

/-- What a base word of `len` bytes does at a hart, where it is one; `raw` is what tval shows of it. -/
structure BaseAt where
  s : State
  d : Nat
  n : Nat
  len : Nat
  raw : DWord
  w : BitVec 32

def BaseAt.h (e : BaseAt) : Hart := e.s.hart e.d e.n
def BaseAt.a (e : BaseAt) : DWord := e.h.readX (wordRs1 e.w)
def BaseAt.b (e : BaseAt) : DWord := e.h.readX (wordRs2 e.w)
def BaseAt.illegal (e : BaseAt) : Act := .exception e.d e.n excIllegal e.raw
def BaseAt.done (e : BaseAt) (v : DWord) : Act := .retireLen (BitVec.ofNat 64 e.len) e.d e.n (wordRd e.w) v
def BaseAt.doneIf (e : BaseAt) (v : Option DWord) : Act :=
  match v with
  | some x => e.done x
  | none => e.illegal

/-- A jump: the pc goes to a target, whose bit 0 is 0, and rd takes the address behind the instruction. -/
def BaseAt.jump (e : BaseAt) (t : DWord) : Act :=
  .onHart e.d e.n fun h => { h.writeX (wordRd e.w) (h.pc + BitVec.ofNat 64 e.len) with pc := t &&& ~~~1, wait := none }

def BaseAt.branch (e : BaseAt) : Act :=
  match branches (wordF3 e.w) e.a e.b with
  | none => e.illegal
  | some taken => .onHart e.d e.n fun h =>
      { h with pc := h.pc + (if taken then immB e.w else BitVec.ofNat 64 e.len), wait := none }

def BaseAt.load (e : BaseAt) : Act :=
  let go (size : Nat) (signed : Bool) : Act := .baseAccess e.len e.d e.n (.load (e.a + immI e.w) size signed (wordRd e.w))
  match wordF3 e.w with
  | 0 => go 1 true
  | 1 => go 2 true
  | 2 => go 4 true
  | 3 => go 8 false
  | 4 => go 1 false
  | 5 => go 2 false
  | 6 => go 4 false
  | _ => e.illegal

def BaseAt.store (e : BaseAt) : Act :=
  if wordF3 e.w < 4 then .baseAccess e.len e.d e.n (.store (e.a + immS e.w) (2 ^ wordF3 e.w) e.b) else e.illegal

/-- OP-IMM and OP-IMM-32: a shift's upper bits name it. -/
def BaseAt.opImm (e : BaseAt) : Act :=
  let f3 := wordF3 e.w
  let top := wordF7 e.w / 2
  let shift := f3 == 1 || f3 == 5
  if shift && top != 0 && !(f3 == 5 && top == 0x10) then e.illegal
  else e.done (aluOp f3 (f3 == 5 && top == 0x10) e.a (immI e.w))
def BaseAt.opImmW (e : BaseAt) : Act :=
  let f3 := wordF3 e.w
  let top := wordF7 e.w
  let shift := f3 == 1 || f3 == 5
  if shift && top != 0 && !(f3 == 5 && top == 0x20) then e.illegal
  else e.doneIf (aluOpW f3 (f3 == 5 && top == 0x20) e.a (immI e.w))

/-- OP and OP-32. -/
def BaseAt.op (e : BaseAt) : Act :=
  let f3 := wordF3 e.w
  match wordF7 e.w with
  | 0 => e.done (aluOp f3 false e.a e.b)
  | 0x20 => if f3 = 0 ∨ f3 = 5 then e.done (aluOp f3 true e.a e.b) else e.illegal
  | 1 => e.done (mulOp f3 e.a e.b)
  | _ => e.illegal
def BaseAt.opW (e : BaseAt) : Act :=
  let f3 := wordF3 e.w
  match wordF7 e.w with
  | 0 => e.doneIf (aluOpW f3 false e.a e.b)
  | 0x20 => if f3 = 0 ∨ f3 = 5 then e.doneIf (aluOpW f3 true e.a e.b) else e.illegal
  | 1 => e.doneIf (mulOpW f3 e.a e.b)
  | _ => e.illegal

/-- FENCE waits for the accesses of its predecessor set, which nothing of any successor set passes; FENCE.I finds
nothing to do (R214, R221). -/
def BaseAt.fence (e : BaseAt) : Act :=
  let ids := e.s.fenceWaits e.d e.n (e.w.getLsbD 27) (e.w.getLsbD 26) (e.w.getLsbD 25) (e.w.getLsbD 24)
  match wordF3 e.w with
  | 0 => if ids != [] then .awaitX e.d e.n ids else .retireLen (BitVec.ofNat 64 e.len) e.d e.n 0 0
  | 1 => .retireLen (BitVec.ofNat 64 e.len) e.d e.n 0 0
  | _ => e.illegal

/-- AMO, LR and SC. One with rl waits for the accesses before it; nothing of a hart passes one (R221). -/
def BaseAt.amo (e : BaseAt) : Act :=
  let f3 := wordF3 e.w
  let size := 2 ^ f3
  let acc : Option HartAcc := match wordF7 e.w / 4 with
    | 2 => if wordRs2 e.w = 0 then some (.lr e.a size (wordRd e.w)) else none
    | 3 => some (.sc e.a size e.b (wordRd e.w))
    | k => (amoOf k).map fun o => .amo o e.a size e.b (wordRd e.w)
  let ids := if e.w.getLsbD 25 then e.s.fenceWaits e.d e.n false false true true else []
  if f3 != 2 && f3 != 3 then e.illegal
  else match acc with
    | none => e.illegal
    | some x => if ids != [] then .awaitX e.d e.n ids else .baseAccess e.len e.d e.n x

/-- Zicsr: the old value to rd, and the new one written; set and clear with x0 or 0 write nothing. -/
def BaseAt.csr (e : BaseAt) : Act :=
  let num := (e.w.extractLsb' 20 12).toNat
  let f3 := wordF3 e.w
  let arg : DWord := if 4 ≤ f3 then (wordRs1 e.w).zeroExtend 64 else e.a
  let writes := f3 % 4 == 1 || wordRs1 e.w != 0
  match e.s.csrGet e.d e.n num with
  | none => e.illegal
  | some old =>
    if !csrAllowed num e.h.priv || (writes && decide (0xC00 ≤ num)) then e.illegal
    else
      let v := match f3 % 4 with
        | 1 => arg
        | 2 => old ||| arg
        | _ => old &&& ~~~arg
      (Act.when writes (.csrSet e.d e.n num v)).seq (e.done old)

/-- ECALL, EBREAK, the returns, WFI, which ends at once, and SFENCE.VMA, which finds no translation (log 11). -/
def BaseAt.system (e : BaseAt) : Act :=
  let next : Act := .retireLen (BitVec.ofNat 64 e.len) e.d e.n 0 0
  if wordF3 e.w = 4 then e.illegal
  else if wordF3 e.w != 0 then e.csr
  else if e.w = 0x00000073 then .exception e.d e.n (8 + e.h.priv.code) 0
  else if e.w = 0x00100073 then .exception e.d e.n 3 e.h.pc
  else if e.w = 0x30200073 then
    (if e.h.priv = .m then .onHart e.d e.n fun h => { h.trapReturn true with wait := none } else e.illegal)
  else if e.w = 0x10200073 then
    (if e.h.priv = .u ∨ (e.h.priv = .s ∧ e.h.csr.mstatus.getLsbD 22) then e.illegal
     else .onHart e.d e.n fun h => { h.trapReturn false with wait := none })
  else if e.w = 0x10500073 then next
  else if wordF7 e.w = 9 ∧ wordRd e.w = 0 ∧ e.h.priv ≠ .u then next
  else e.illegal

/-! ### F and D (system cores) -/

/-- A floating-point register in a format. -/
def BaseAt.fr (e : BaseAt) (d : Bool) (lo : Nat) : Nat := rvUnbox d (e.h.f.get 0 (e.w.extractLsb' lo 5).toNat)

/-- A result in a floating-point register, with its flags. -/
def BaseAt.doneF (e : BaseAt) (d : Bool) (r : Flagged) : Act :=
  .onHart e.d e.n fun h =>
    { h.writeF (wordRd e.w) (rvBox d r.val) with
      fcsr := h.fcsr ||| BitVec.ofNat 8 r.flags, pc := h.pc + BitVec.ofNat 64 e.len, wait := none }

/-- A result in an integer register, with its flags. -/
def BaseAt.doneX (e : BaseAt) (v : DWord) (flags : Nat) : Act :=
  .onHart e.d e.n fun h =>
    { h.writeX (wordRd e.w) v with
      fcsr := h.fcsr ||| BitVec.ofNat 8 flags, pc := h.pc + BitVec.ofNat 64 e.len, wait := none
      csr := { h.csr with mstatus := if flags = 0 then h.csr.mstatus else h.csr.mstatus ||| bitsMask 14 13 } }

/-- The rounding mode: that of the word, or frm where it says dynamic; none for a reserved one. -/
def BaseAt.rm (e : BaseAt) : Option Nat :=
  let m := if wordF3 e.w = 7 then (e.h.fcsr >>> 5).toNat else wordF3 e.w
  if m < 5 then some m else none

/-- OP-FP with rounding: what the operation gives in a mode, and whether it goes to an integer register. -/
def BaseAt.fpRounded (e : BaseAt) (d : Bool) (rm : Nat) : Option (Flagged ⊕ DWord × Nat) :=
  let a := e.fr d 15
  let b := e.fr d 20
  let rs2 := (wordRs2 e.w).toNat
  match wordF7 e.w / 4 with
  | 0x00 => some (.inl (rvAdd d rm a b))
  | 0x01 => some (.inl (rvSub d rm a b))
  | 0x02 => some (.inl (rvMul d rm a b))
  | 0x03 => some (.inl (rvDiv d rm a b))
  | 0x0B => if rs2 = 0 then some (.inl (rvSqrt d rm a)) else none
  | 0x08 => if rs2 = (if d then 0 else 1) then some (.inl (rvConvert d (!d) rm (e.fr (!d) 15))) else none
  | 0x18 => if rs2 < 4 then some (.inr (rvToInt d rm rs2 a)) else none
  | 0x1A => if rs2 < 4 then some (.inl (rvOfInt d rm rs2 e.a)) else none
  | _ => none

/-- OP-FP without rounding, where funct3 names the operation. -/
def BaseAt.fpPlain (e : BaseAt) (d : Bool) : Option (Flagged ⊕ DWord × Nat) :=
  let a := e.fr d 15
  let b := e.fr d 20
  let f3 := wordF3 e.w
  let raw := e.h.f.get 0 (wordRs1 e.w).toNat
  match wordF7 e.w / 4 with
  | 0x04 => if f3 < 3 then some (.inl ⟨rvSgnj d f3 a b, 0⟩) else none
  | 0x05 => if f3 < 2 then some (.inl (rvMinMax d (f3 == 1) a b)) else none
  | 0x14 => if f3 < 3 then some (.inr (BitVec.ofNat 64 (rvCompare d f3 a b).val, (rvCompare d f3 a b).flags)) else none
  | 0x1C =>
    if wordRs2 e.w != 0 then none
    else if f3 = 0 then some (.inr (if d then raw else (raw.extractLsb' 0 32).signExtend 64, 0))
    else if f3 = 1 then some (.inr (BitVec.ofNat 64 (rvClass d a), 0))
    else none
  | 0x1E => if wordRs2 e.w = 0 ∧ f3 = 0 then some (.inl ⟨e.a.toNat % 2 ^ rvWidth d, 0⟩) else none
  | _ => none

def BaseAt.fp (e : BaseAt) : Act :=
  let d := wordF7 e.w % 4 == 1
  let r := if [0x04, 0x05, 0x14, 0x1C, 0x1E].contains (wordF7 e.w / 4) then e.fpPlain d
    else e.rm.bind (e.fpRounded d)
  if 2 ≤ wordF7 e.w % 4 then e.illegal
  else match r with
    | none => e.illegal
    | some (.inl r) => e.doneF d r
    | some (.inr (v, fl)) => e.doneX v fl

/-- The fused forms: opcodes 0x43 fmadd, 0x47 fmsub, 0x4B fnmsub, 0x4F fnmadd. -/
def BaseAt.fma (e : BaseAt) : Act :=
  let d := wordF7 e.w % 4 == 1
  let op := (e.w.extractLsb' 2 2).toNat
  if 2 ≤ wordF7 e.w % 4 then e.illegal
  else match e.rm with
    | none => e.illegal
    | some rm => e.doneF d (rvFma d rm (decide (2 ≤ op)) (op == 1 || op == 3) (e.fr d 15) (e.fr d 20) (e.fr d 27))

/-- A word of F or D, on a hart that has the sets and has not turned them off. -/
def BaseAt.float (e : BaseAt) : Act :=
  if !e.s.floatOn e.d e.n then e.illegal
  else match (e.w.extractLsb' 0 7).toNat with
    | 0x07 => .baseAccess e.len e.d e.n (.loadF (e.a + immI e.w) (2 ^ wordF3 e.w) (wordRd e.w))
    | 0x27 => .baseAccess e.len e.d e.n (.store (e.a + immS e.w) (2 ^ wordF3 e.w) (e.h.f.get 0 (wordRs2 e.w).toNat))
    | 0x53 => e.fp
    | _ => e.fma

/-- CSRs of the V set. -/
def vectorCsr (num : Nat) : Bool :=
  [0x008, 0x009, 0x00A, 0x00F].contains num || (decide (0xC20 ≤ num) && decide (num ≤ 0xC22))

/-- A word of the V set, which only the system cores have: the spec states no vector length. -/
def isVectorSet (w : BitVec 32) : Bool :=
  match (w.extractLsb' 0 7).toNat with
  | 0x57 => true
  | 0x07 | 0x27 => wordF3 w == 0 || decide (5 ≤ wordF3 w)
  | 0x73 => wordF3 w % 4 != 0 && vectorCsr (w.extractLsb' 20 12).toNat
  | _ => false

/-- The effect of a base word. -/
def BaseAt.act (e : BaseAt) : Act :=
  match (e.w.extractLsb' 0 7).toNat with
  | 0x37 => e.done (immU e.w)
  | 0x17 => e.done (e.h.pc + immU e.w)
  | 0x6F => e.jump (e.h.pc + immJ e.w)
  | 0x67 => if wordF3 e.w = 0 then e.jump (e.a + immI e.w) else e.illegal
  | 0x63 => e.branch
  | 0x03 => e.load
  | 0x23 => e.store
  | 0x13 => e.opImm
  | 0x1B => e.opImmW
  | 0x33 => e.op
  | 0x3B => e.opW
  | 0x0F => e.fence
  | 0x73 => e.system
  | 0x2F => e.amo
  | 0x07 | 0x27 => if wordF3 e.w = 2 ∨ wordF3 e.w = 3 then e.float else e.illegal
  | 0x43 | 0x47 | 0x4B | 0x4F | 0x53 => e.float
  | _ => e.illegal

/-- What a hart does on a word at its pc that is none of the Xphido extension; none for the V set on a system core. -/
def State.baseJob (s : State) (d n : Nat) (w : BitVec 32) : Option Act :=
  if w.extractLsb' 0 2 = 3 then
    (if isX d && isVectorSet w then none
     else some ({ s := s, d := d, n := n, len := 4, raw := w.zeroExtend 64, w := w } : BaseAt).act)
  else
    let c : BitVec 16 := w.extractLsb' 0 16
    match expandC c with
    | none => some (.exception d n excIllegal (c.zeroExtend 64))
    | some x => some ({ s := s, d := d, n := n, len := 2, raw := c.zeroExtend 64, w := x } : BaseAt).act

end Sys2Proof.Machine
end

