-- ==== Sys2Proof/Machine/Convert.lean ====
section
/-!
DEFINITION. Conversion, pleated blocks, random words, weight slots and matrix steps (chapter 13, R335-R351).
-/
namespace Sys2Proof.Machine

def stagOf (w : CEWord) : Fmt := Fmt.ofCode (w.imm.extractLsb' 8 3)

/-- `cvt` (R337). -/
def execCvt (w : CEWord) : State → Out :=
  fireRes (.cvt w) w fun _ a _ _ => cvtRes w.sa.isVec w.fmt w.rnd w.sat fun i => a.elem? (stagOf w) i

/-- `retag` (R338). -/
def execRetag (w : CEWord) : State → Out :=
  fireRes (.retag w) w fun _ a _ _ =>
    { val := .vec { asVec a with fmt := w.fmt, sb := if isPleated w.fmt then (asVec a).sb else 0 } }

/-- `pack` (R339). -/
def execPack (w : CEWord) : State → Out :=
  fireRes (.pack w) w fun _ a b _ => cvtRes true w.fmt w.rnd w.sat (packSrc w.fmt (asVec a) (asVec b))

/-- `unpack` (R340). -/
def execUnpack (w : CEWord) : State → Out :=
  fireRes (.unpack w) w fun _ a _ _ => cvtRes true w.fmt w.rnd w.sat (unpackSrc w.fmt (asVec a) (w.immBits 8 3))

/-- `pbq` (R341). -/
def execPbq (w : CEWord) : State → Out := fireRes (.pbq w) w fun _ a _ _ => pbqRes w.fmt (w.immBits 8 4) (asVec a)

def blkOf (w : CEWord) : Nat := w.immBits 8 2

/-- `pbexp.get` (R342). -/
def execPbexpGet (w : CEWord) : State → Out :=
  fireRes (.pbexpGet w) w fun _ a _ _ =>
    let v := asVec a
    let b := blkOf w
    { val := .scal (if blockExists v b then BitVec.ofNat 32 (v.sbByte (2 * b) + 256 * v.sbByte (2 * b + 1)) else 0)
      pred := blockExists v b }

/-- `pbexp.set` (R342). -/
def execPbexpSet (w : CEWord) : State → Out :=
  fireRes (.pbexpSet w) w fun _ a b _ =>
    let v := asVec a
    if w.imm.getLsbD 12 then
      { val := .vec ((List.range 4).foldl (fun v k => setExps v k b.word) v), pred := blockExists v 0 }
    else { val := .vec (setExps v (blkOf w) b.word), pred := blockExists v (blkOf w) }

/-- The launch's RNGKEY, (0, 0) without a launch (R343). -/
def Env.rngKey (e : Env) : Word × Word :=
  match e.launch with
  | some l => (BitVec.ofNat 32 (recNat l.copy 0x030 4), BitVec.ofNat 32 (recNat l.copy 0x034 4))
  | none => (0, 0)

/-- `rng` (R343). -/
def execRng (w : CEWord) : State → Out :=
  fireRes (.rng w) w fun e a b c =>
    let k := if w.imm.getLsbD 8 then e.rngKey else (b.word, c.word)
    { val := .vec (rngVec (asVec a) k.1 k.2) }

/-- `wld` (R345). -/
def execWld (w : CEWord) : State → Out :=
  firePass (.wld w) w fun e a b _ =>
    let p := b.val.word
    let k := (p.extractLsb' 4 2).toNat
    match wldSlot (e.c.ce.w.get {} k) (asVec a.val) (p.extractLsb' 0 4).toNat with
    | none => e.fault w (e.faultRec fFormatSpan)
    | some s => e.done fun c => { c.consume w with w := c.w.put k s }

/-- `wldt` (R346). -/
def execWldt (w : CEWord) : State → Out :=
  firePass (.wldt w) w fun e a b _ =>
    let p := b.val.word
    match wldtSlots e.c.ce.w (asVec a.val) (p.extractLsb' 11 2).toNat (p.extractLsb' 4 7).toNat
        (p.extractLsb' 0 4).toNat with
    | none => e.fault w (e.faultRec fFormatSpan)
    | some ws => e.done fun c => { c.consume w with w := ws }

/-- `wclr` (R347). -/
def execWclr (w : CEWord) : State → Out :=
  fire (.wclr w) w fun e _ _ _ =>
    e.done fun c =>
      { c.consume w with
        w := (List.range 4).foldl (fun ws k => if w.imm.getLsbD (8 + k) then ws.put k { fmt := w.fmt } else ws) c.w }

/-- A matrix step: FORMAT_SPAN, or the result, with the matrix unit busy for 4 cycles (R348-R350). -/
def fireMatrix (i : Instr) (w : CEWord) (cin : Val → Option Val) : State → Out :=
  firePass i w fun e a b _ =>
    let v := asVec a.val
    let k := w.immBits 8 2
    let row := w.immBits 10 6
    if spanFault e.c.ce.w v.fmt k row then e.fault w (e.faultRec fFormatSpan)
    else
      e.done fun c =>
        { (c.consume w).write w.dst (e.stamp w (verOf [a, b])) (.vec (matrixVec c.w w.fmt w.rnd w.sat v (cin b.val) k row)) with
          mmaBusy := e.s.cycle + 4 }

/-- `mma` (R349). -/
def execMma (w : CEWord) : State → Out := fireMatrix (.mma w) w some
/-- `mmz` (R349). -/
def execMmz (w : CEWord) : State → Out := fireMatrix (.mmz w) w fun _ => none

end Sys2Proof.Machine
end

