-- ==== Sys2Proof/Machine/Dataflow.lean ====
section
/-!
DEFINITION. Dataflow, predicates, and the end of contexts and regions (chapter 11, R287-R306).
-/
namespace Sys2Proof.Machine

/-- Results that consume the sources and forward one of them (R288). -/
def Env.forwards (e : Env) (w : CEWord) (srcs : List Src) (a : Src) (pred : Option Bool) : Act :=
  e.done fun c =>
    let c1 := (c.consume w).forward w.dst (e.stamp w (verOf srcs)) a
    match pred with
    | some r => c1.setPred w r
    | none => c1

/-- `nop` (R290). -/
def execNop (w : CEWord) : State → Out := fire (.nop w) w fun e _ _ _ => e.done fun c => c.consume w

/-- `mov` (R291). -/
def execMov (w : CEWord) : State → Out := fire (.mov w) w fun e a _ _ => e.forwards w [a] a none

/-- The output that `steer` takes. -/
def steerOut (dst : Opnd) (k : Bool) : Opnd :=
  match dst with
  | .voBoth => if k then .vo 1 else .vo 0
  | _ => if k then .so 1 else .so 0

/-- `steer` (R292). -/
def execSteer (w : CEWord) : State → Out := fire (.steer w) w fun e a b _ =>
  if a.mark != .data then e.forwards w [a, b] a none
  else if b.mark != .data then e.passes w [a, b] b.mark
  else
    let k := b.val.word != 0
    e.done fun c =>
      ((c.consume w).forward (steerOut w.dst k) (e.stamp w (verOf [a, b])) a).setPred w k

/-- `filter` (R293). -/
def execFilter (w : CEWord) : State → Out := fire (.filter w) w fun e a b _ =>
  if a.mark != .data then e.forwards w [a, b] a (some true)
  else if b.mark != .data then e.passes w [a, b] b.mark
  else if b.val.word != 0 then e.forwards w [a, b] a (some true)
  else e.done fun c => (c.consume w).setPred w false

/-- `absorb` (R294). -/
def execAbsorb (w : CEWord) : State → Out := fire (.absorb w) w fun e a _ _ =>
  e.done fun c => (c.consume w).setPred w (a.mark == .eos)

/-- `merge` and `amerge` forward the input taken; `srcs` are the sources read (R296, R297). -/
def Env.takesInput (e : Env) (w : CEWord) (srcs : List Src) (o : Opnd) (take k : Bool) : Act :=
  match e.src w o with
  | .ok x =>
    e.done fun c =>
      let c1 := c.consume w
      let c2 := if take then c1.take o else c1
      (c2.forward w.dst (e.stamp w (verOf (x :: srcs))) x).setPred w k
  | _ => .skip

/-- `merge` (R296). -/
def execMerge (w : CEWord) : State → Out := fire (.merge w) w fun e a _ _ =>
  if a.mark != .data then e.passes w [a] a.mark
  else if a.val.word = 0 then e.takesInput w [a] w.in0 w.take0 false
  else e.takesInput w [a] w.in1 w.take1 true

/-- The cycle since which an input is ready: the arrival of its head token or the write of its register (R297). -/
def Env.inputSince (e : Env) (o : Opnd) : Nat :=
  match o with
  | .v i => (e.c.ce.v.get {} i.val).since
  | .s i => (e.c.ce.s.get {} i.val).since
  | _ =>
    (match e.c.ce.head o with
      | some t => t.since
      | none => 0)

/-- `amerge` (R297). -/
def execAmerge (w : CEWord) : State → Out := fire (.amerge w) w fun e _ _ _ =>
  let r0 := e.inputReady w w.in0
  let r1 := e.inputReady w w.in1
  if r0 && (!r1 || decide (e.inputSince w.in0 ≤ e.inputSince w.in1)) then e.takesInput w [] w.in0 w.take0 false
  else e.takesInput w [] w.in1 w.take1 true

/-- The counter register written with the instance lot (R298, R299). -/
def Env.counter (e : Env) (c : Ce) (o : Opnd) (x : Word) (ver : BitVec 4) : Ce :=
  c.write o { fmt := .i32, ctx := 0, ver := ver, own := e.own, now := e.s.cycle } (.scal x)

/-- SA and SC consumed as `repeat` says. -/
def repeatDrops (w : CEWord) : List Opnd := (if w.deqA then [w.sa] else []) ++ (if w.deqC then [w.sc] else [])

/-- `repeat` (R298): what is consumed, then what is emitted, then the counter. -/
def execRepeat (w : CEWord) : State → Out := fire (.repeatTok w) w fun e a b c =>
  let srcs := [a, b, c]
  let ver := verOf srcs
  let t := e.stamp w ver
  let limit := c.val.word
  let r := b.val.word + 1
  let used (x : Ce) : Ce := (x.takeAll (dedupOpnds (repeatDrops w))).takeAll (dropsPra w)
  let set (n : Word) (x : Ce) : Ce := e.counter x w.sb n ver
  if a.mark != .data then e.done fun x => set 0 ((used x).forward w.dst t a)
  else if c.mark != .data then
    e.done fun x =>
      ((if w.deqC then x.take w.sc else x).takeAll (dropsPra w)).pass w.dst (outCtx w) ver c.mark e.s.cycle
  else if limit = 0 then e.done fun x => (set 0 (used x)).setPred w true
  else if r.ult limit then e.done fun x => (set r ((x.takeAll (dropsPra w)).forward w.dst t a)).setPred w false
  else e.done fun x => (set 0 ((used x).forward w.dst t a)).setPred w true

/-- Tokens or lanes that `count` adds. -/
def countAdd (w : CEWord) (a : Src) : Word :=
  if w.imm.getLsbD 8 then BitVec.ofNat 32 (countBits a.val.mask) else 1

/-- `count` (R299): what is consumed, then what is emitted, then the counter. -/
def execCount (w : CEWord) : State → Out := fire (.count w) w fun e a b _ =>
  let ver := verOf [a, b]
  let set (n : Word) (x : Ce) : Ce := e.counter x w.sb n ver
  match a.mark with
  | .data => e.done fun c => (set (b.val.word + countAdd w a) (c.consume w)).setPred w false
  | .eos => e.done fun c => (set 0 ((c.consume w).write w.dst (e.stamp w ver) (.scal b.val.word))).setPred w true
  | .refire => e.done fun c => set 0 ((c.consume w).pass w.dst (outCtx w) ver .refire e.s.cycle)
  | .cfg => e.passes w [a, b] .cfg

/-- `mark` (R300). -/
def execMark (w : CEWord) : State → Out := fire (.mark w) w fun e a _ _ =>
  e.done fun c =>
    (outsOf w.dst).foldl (fun c o =>
      c.pushOut o (.filled
        { body := bodyFor o .i32 a.val, ctx := outCtx w, ver := verFor o a.ver
          mark := Marker.ofCode (w.imm.extractLsb' 8 2), since := e.s.cycle })) (c.consume w)

/-- The registers of the refire set in a logical cell (R273). -/
def Region.refireRegs (r : Region) (col row : Nat) : List Opnd :=
  (r.refire.filter fun x => x.1 == col && x.2.1 == row).map fun x => regOpnd (x.2.2.extractLsb' 0 5)

/-- A register cleared by `rfclr` (R301). -/
def Ce.clearReg (c : Ce) (own : Lot) (now : Nat) : Opnd → Ce
  | .v i => { c with v := c.v.put i.val { val := {}, ver := 0, pres := false, lot := own, since := now } }
  | .s i => { c with s := c.s.put i.val { val := 0, ver := 0, pres := false, lot := own, since := now } }
  | _ => c

/-- `rfclr` (R301). -/
def execRfclr (w : CEWord) : State → Out := fire (.rfclr w) w fun e a _ _ =>
  e.done fun c =>
    let c1 := (e.spot.r.refireRegs e.spot.col e.spot.row).foldl (fun c o => c.clearReg e.own e.s.cycle o) c
    let c2 := (({ c1 with p := c1.p &&& ~~~(w.imm.extractLsb' 8 8) } : Ce)).consume w
    if w.sa.isChan then c2.forward w.dst (e.stamp w a.ver) a else c2

/-- A predicate operation on bits (R302). -/
def firePred (i : Instr) (w : CEWord) (f : Bool → Bool → Bool) : State → Out :=
  fireRes i w fun _ a b _ => { val := .scal (if f (a.word != 0) (b.word != 0) then 1 else 0) }

/-- `pand` (R302). -/
def execPand (w : CEWord) : State → Out := firePred (.pand w) w fun a b => a && b
/-- `por` (R302). -/
def execPor (w : CEWord) : State → Out := firePred (.por w) w fun a b => a || b
/-- `pxor` (R302). -/
def execPxor (w : CEWord) : State → Out := firePred (.pxor w) w fun a b => a != b
/-- `pnot` (R302). -/
def execPnot (w : CEWord) : State → Out := firePred (.pnot w) w fun a _ => !a
/-- `pmov` (R302). -/
def execPmov (w : CEWord) : State → Out := firePred (.pmov w) w fun a _ => a

/-- `halt` (R303, R305): the context ends and its pending waits are dropped. -/
def execHalt (w : CEWord) : State → Out := fire (.halt w) w fun e _ _ _ =>
  e.done fun c =>
    let c1 := c.consume w
    { c1 with halted := c1.halted ||| (1#8 <<< e.ctx), waits := c1.waits.erase e.ctx }

/-- `exit` (R304): the first one counts. -/
def execExit (w : CEWord) : State → Out := fire (.exit w) w fun e _ _ _ =>
  (e.done fun c => c.consume w).seq
    (.onRegion e.spot.h fun r => { r with exitAt := some (r.exitAt.getD (e.id, e.s.cycle)) })

/-- TRAP and BREAK: a precise fault; under STEPOVER the firing is a `nop` whose inputs are consumed (R148, R306). -/
def Env.traps (e : Env) (w : CEWord) (code : Nat) : Act :=
  if e.suppress = some code then e.done fun c => c.consume w else e.fault w (e.faultRec code)

/-- `trap` (R306). -/
def execTrap (w : CEWord) : State → Out := fire (.trap w) w fun e _ _ _ => e.traps w fTrap
/-- `brk` (R306). -/
def execBrk (w : CEWord) : State → Out := fire (.brk w) w fun e _ _ _ => e.traps w fBreak

end Sys2Proof.Machine
end

