-- ==== Sys2Proof/Machine/Federation.lean ====
section
/-!
DEFINITION. Flits received on lanes, and what edge links bring from other modules and take there: requests, responses,
system messages (01 R17-R26, 04 R91, 11 R308).
-/
namespace Sys2Proof.Machine

/-! ### Leaving (R23, R24) -/

/-- A packet leaves the module: a request, which stays under its number here, or the response to one of another
module. -/
def Act.leaves (north : Bool) (cx : Nat) (p : Packet) : Act :=
  match p.load with
  | .request id => .emit (.out (.edge north cx id))
  | .response _ => .deliver p
  | .notice id => .read fun s => match s.reqOf id with
      | some q => (match q.agent with
        | .module _ _ tag => .emit (.out (.edgeMsg north cx (.answer tag 0 true [])))
        | _ => .skip)
      | none => .skip

/-! ### Requests and responses that arrive -/

/-- Read-modify-write and reduction operations by their numbers. -/
def edgeRmw (n : Nat) : RmwOp := [RmwOp.add, .min, .max, .xchg, .cas, .and, .or].getD n .xor
def edgeRop (n : Nat) : ROp := [ROp.add, .min].getD n .max

def edgeMemOp : EdgeOp → MemOp
  | .load n => .load n
  | .store b => .store b
  | .rmw op size v new fmt rnd uns returns =>
    .rmw { op := edgeRmw op, size := size, v := v, new := new, fmt := fmt, rnd := rnd, uns := uns } returns
  | .reduce op fmt scal data mask => .reduce (edgeRop op) fmt (if scal then .scal else .vec) data mask

/-- The cell at an edge link's crossing, and the side on which it lies. -/
def edgeEntry (north : Bool) (cx crossing : Nat) : CellId × Dir :=
  ({ die := if north then cx else 18 + cx, col := crossing, row := if north then 0 else 47 }, if north then .n else .s)

/-- A request of another module enters: it makes for its home, or straight along the column for the next module (R24). A
closed edge answers it (R74). -/
def Act.enterRequest (north : Bool) (cx crossing head tag part vd : Nat) (asid : BitVec 16) (va : DWord) (op : MemOp) : Act :=
  .fresh fun id => .read fun s =>
    let e := edgeEntry north cx crossing
    let away := vaModule va != s.moduleNo e.1.die
    let on := decide (vaModule va < s.moduleNo e.1.die)
    let dst := if away then edgeNode on cx tag else s.goalCell e.1.die part (.mem va op)
    let way := s.viaOf e.1.die dst.die
    if s.regField e.1.die (.sfw 4) 0 0 = 1 then
      (Act.countBlocked (e.1.die, 4)).seq (.emit (.out (.edgeMsg north cx (.answer tag fFirewall false []))))
    else
      (Act.emit (.reqs (s.reqs ++
          [{ id := id, agent := .module north cx tag, asid := some asid, vd := vd, part := part, goal := .mem va op
             ret := if op.returns then .tag tag else .none, way := way }]))).seq
        (.onNode e.1 fun n => n.push (e.2, 1)
          { s.packet e.1 dst 1 (.request id) (goalBeats (.mem va op)) part way false with
            exits := if away then some on else none, head := head })

/-- The answer of another module to a request: it goes on to its issuer, or the fault takes its course (R20, R195). -/
def Act.edgeAnswer (req code : Nat) (logged : Bool) (data : List Byte) : Act :=
  .read fun s =>
    match s.reqOf req with
    | none => .skip
    | some q =>
      if q.isDevice then .when (!logged) (.deviceDone q code)
      else if logged then (Act.onReq req fun r => { r with st := .logged }).seq (.respond q (.notice req) 1)
      else
        (Act.untrack req).seq (match q.goal, q.region with
          | .mem va op, some _ => if code = 0 then .answer q data 0 else .refused q va op code
          | _, _ => .answer q data code)

/-! ### Launches across modules (R91, R92, R308); log 72 -/

/-- The subtree of a launch of another module. -/
def State.subtreeOf (s : State) (home k : Nat) : Option Nat :=
  (s.launches.find? fun e => e.2.issuer == .module home k).map (·.1)

/-- A subtree is taken in (R91): its launch waits in its queue like any; a VD that is off here refuses it. -/
def Act.takeSubtree (home k part vd : Nat) (record : DWord) (copy image : List Byte) (masked : List Nat) : Act :=
  .fresh fun n => .read fun s =>
    if !s.vdEnabled part vd then .toModule part home (.ended home k (s.moduleNo (s.mapDie part)) stRejected [] 0 0)
    else
      (Act.emit (.launch n (some
        { recAddr := record, reply := 0, issuer := .module home k, asid := s.vdAsid part vd, part := part, vd := vd
          copy := copy, masked := masked, foreign := some image }))).seq (.accept n)

/-- A subtree is over: its teams and its faults are the launch's; with a status of its own it ends the launch, and with
the last of them the launch completes. -/
def Act.subtreeEnded (n module status : Nat) (teams : List Nat) (faults first : Nat) : Act :=
  .read fun s =>
    .when ((s.launches.get? n).any fun l => l.outside.contains module)
      (.block
        [ .onLaunch n fun l =>
            { l with
              outside := l.outside.filter (· != module), outTeams := l.outTeams ++ teams, faults := l.faults + faults
              firstFault := if l.firstFault = 0 then first else l.firstFault, shut := l.shut || status == stShut }
        , .when (status != stDone && status != stShut) (.killLaunch n status)
        , .read fun s => match s.launches.get? n with
            | some l =>
              .when (l.allRetired && l.st == .running)
                ((Act.closeSlice n).seq (.onLaunch n fun l => l.finish (if l.shut then stShut else stDone)))
            | none => .skip
        , .checkBarriers (some n)
        , .read fun s => match s.launches.get? n with
            | some l => .select l.part
            | none => .skip ])

/-- A subtree ends with the launch. -/
def Act.subtreeKilled (home k status : Nat) : Act :=
  .read fun s => match s.subtreeOf home k with
    | some n => .killLaunch n status
    | none => .skip

/-- The module for which a system message is; none for what is for the next module. -/
def edgeDst : EdgeIn → Option Nat
  | .subtree m _ _ _ _ _ _ _ _ | .killed m _ _ _ | .released m _ _ _ _ | .ended m _ _ _ _ _ _ | .arrived m _ _ _ _ => some m
  | .beat | .request _ _ _ _ _ _ | .answer _ _ _ _ => none

/-! ### What a flit of another module brings -/

/-- What the last flit of a packet has brought is taken; a message for a module beyond this one goes on along the
column. -/
def Act.fromEdge (l : LaneId) (north : Bool) (cx : Nat) (inb : EdgeIn) : Act :=
  .read fun s =>
    let head := ((s.lanes.get {} l).header).getD s.cycle
    let here := (edgeDst inb).all fun m => m == s.moduleNo (if north then cx else 18 + cx)
    if !here then .emit (.out (.edgeMsg (!north) cx inb))
    else match inb with
      | .beat => .skip
      | .request tag part vd asid va op => .enterRequest north cx l.crossing head tag part vd asid va (edgeMemOp op)
      | .answer req code logged data => .edgeAnswer req code logged data
      | .subtree _ home k part vd record copy image masked => .takeSubtree home k part vd record copy image masked
      | .ended _ k module status teams faults first => .subtreeEnded k module status teams faults first
      | .killed _ home k status => .subtreeKilled home k status
      | .arrived _ k level inst epoch =>
        (Act.onLaunch k fun v => { v with arrivals := v.arrivals ++ [(level, inst, epoch)] }).seq (.checkBarriers (some k))
      | .released _ home k level team => match s.subtreeOf home k with
        | some n => .releaseTeam n level team
        | none => .skip

/-- The lane by which the next module sends. -/
def laneIncoming (l : LaneId) : Bool :=
  match l.link with
  | .edge north _ => l.up == north && l.cls == .dyn
  | .seam _ => false

/-- Room for a request at the switch that takes it (R182). -/
def State.edgeRoom (s : State) (l : LaneId) (north : Bool) (cx : Nat) : EdgeIn → Bool
  | .request _ _ _ _ _ _ =>
    let e := edgeEntry north cx l.crossing
    decide (((s.nodes.get {} e.1).bufs.get [] (e.2, 1)).length < vcRoom)
  | _ => true

/-- A flit of the next module: one out of order, or one that fails its CRC, is discarded. -/
def Act.edgeFlit (l : LaneId) (seq : Nat) (crcOk : Bool) (inb : EdgeIn) : Act :=
  .read fun s =>
    match l.link with
    | .seam _ => .skip
    | .edge north cx =>
      if !laneIncoming l || s.laneHolds l || !s.linkUp l.link then .skip
      else if !crcOk then .crcError l
      else if seq != (s.lanes.get {} l).expect || !s.edgeRoom l north cx inb then .skip
      else
        .block
          [ .fromEdge l north cx inb
          , .onLane l fun v =>
              { v with
                expect := (seq + 1) % laneModulus l.link
                header := if inb = .beat then some (v.header.getD s.cycle) else none }
          , .releaseWaiting ]

/-! ### Flits (R17, R18) -/

/-- What a flit carries is delivered: a packet with its last beat, its age counted from its header beat (R17, R182). -/
def Act.takeFlit (l : LaneId) (f : FlitLoad) : Act :=
  .read fun s =>
    match f, laneEnds l, laneNet l.cls with
    | .token t, some (_, c), some net =>
      let k := s.laneCell l c
      (Act.onCell k fun x =>
        { x with
          busy := s.cycle
          sw := x.sw.arrives net (laneInput l) { t with since := s.cycle + cellDist c k + s.wakeDelay k } }).seq (.patchWake k)
    | .beat, _, _ => .onLane l fun v => { v with header := some (v.header.getD s.cycle) }
    | .packet p, some _, _ =>
      .block
        [ .onNode (laneNode l p) fun n => n.push (laneInput l, p.vc) { p with head := (s.lanes.get {} l).header.getD s.cycle }
        , .onLane l fun v => { v with header := none }, .crossed l p ]
    | .packet p, none, _ =>
      (match l.link with
        | .edge north cx => .leaves north cx p
        | .seam _ => .skip)
    | _, _, _ => .skip

/-- FLIT_RECEIVE (R18): the flit in order is delivered, a duplicate discarded; a CRC error or a gap discards it and
sends a negative acknowledgement. On a lane by which another module sends, the flit brings `inb`. -/
def execFlitReceive (l : LaneId) (seq : Nat) (crcOk ackOk : Bool) (inb : EdgeIn) (s : State) : Out :=
  Act.next (match (s.lanes.get {} l).buf.find? fun f => f.seq == seq with
    | none => Act.edgeFlit l seq crcOk inb
    | some f =>
      let v := s.lanes.get {} l
      let m := laneModulus l.link
      let d := (seq + m - v.expect) % m
      if s.laneHolds l || s.linkFailed l.link || v.nak.isSome then .skip
      else if !crcOk then (Act.crcError l).seq (.onLane l fun v => { v with nak := some v.expect })
      else if m / 2 < d then .when ackOk (.onLane l fun v => v.ack l.link seq s.cycle)
      else if d != 0 then .onLane l fun v => { v with nak := some v.expect }
      else if !s.flitRoom l f.load then .skip
      else
        (Act.takeFlit l f.load).seq (.onLane l fun v =>
          let v := { v with expect := (seq + 1) % m }
          if ackOk then v.ack l.link seq s.cycle else v)) s

end Sys2Proof.Machine
end

