-- ==== Sys2Proof/Machine/Integer.lean ====
section
/-!
DEFINITION. Integer, logic and bit-field instructions (12 R312-R321).
-/
namespace Sys2Proof.Machine

/-- The firing has a vector result (R313). -/
def isVector (w : CEWord) : Bool := w.sa.isVec || w.sb.isVec || w.sc.isVec

/-- An integer firing: `f` in each element, `p` the condition of the predicate result (R314). -/
def fireInt (i : Instr) (w : CEWord) (f : Word → Word → Word → Word) (p : Word → Word → Word → Bool) : State → Out :=
  fireRes i w fun _ a b c => intRes (isVector w) .i32 0 a b c f p

def never (_ _ _ : Word) : Bool := false

/-- `add` (R315). -/
def execAdd (w : CEWord) : State → Out := fireInt (.add w) w (fun a b _ => a + b) never
/-- `sub` (R315). -/
def execSub (w : CEWord) : State → Out := fireInt (.sub w) w (fun a b _ => a - b) never
/-- `mul` (R315). -/
def execMul (w : CEWord) : State → Out := fireInt (.mul w) w (fun a b _ => a * b) never
/-- `mulhs` (R315). -/
def execMulhs (w : CEWord) : State → Out := fireInt (.mulhs w) w (fun a b _ => mulhsW a b) never
/-- `mulhu` (R315). -/
def execMulhu (w : CEWord) : State → Out := fireInt (.mulhu w) w (fun a b _ => mulhuW a b) never
/-- `mad` (R315). -/
def execMad (w : CEWord) : State → Out := fireInt (.mad w) w (fun a b c => a * b + c) never

def zeroDivisor (_ b _ : Word) : Bool := b == 0

/-- A division: DIV_ZERO under DZTRAP when a computed divisor is 0, unless STEPOVER suppresses it (R148, R316). -/
def fireDiv (i : Instr) (w : CEWord) (f : Word → Word → Word) : State → Out :=
  firePass i w fun e a b c =>
    let r := intRes (isVector w) .i32 0 a.val b.val c.val (fun x y _ => f x y) zeroDivisor
    if r.pred && e.spot.r.dztrap && e.suppress != some fDivZero then e.fault w (e.faultRec fDivZero)
    else e.yields w [a, b, c] r

/-- `divs` (R316). -/
def execDivs (w : CEWord) : State → Out := fireDiv (.divs w) w divsW
/-- `divu` (R316). -/
def execDivu (w : CEWord) : State → Out := fireDiv (.divu w) w divuW
/-- `rems` (R316). -/
def execRems (w : CEWord) : State → Out := fireDiv (.rems w) w remsW
/-- `remu` (R316). -/
def execRemu (w : CEWord) : State → Out := fireDiv (.remu w) w remuW

/-- `add.sat` (R317). -/
def execAddSat (w : CEWord) : State → Out :=
  fireInt (.addSat w) w (fun a b _ => satS (a.toInt + b.toInt)) fun a b _ => leftS (a.toInt + b.toInt)
/-- `add.satu` (R317). -/
def execAddSatu (w : CEWord) : State → Out :=
  fireInt (.addSatu w) w (fun a b _ => satU (a.toNat + b.toNat)) fun a b _ => leftU (a.toNat + b.toNat)
/-- `sub.sat` (R317). -/
def execSubSat (w : CEWord) : State → Out :=
  fireInt (.subSat w) w (fun a b _ => satS (a.toInt - b.toInt)) fun a b _ => leftS (a.toInt - b.toInt)
/-- `sub.satu` (R317). -/
def execSubSatu (w : CEWord) : State → Out :=
  fireInt (.subSatu w) w (fun a b _ => satU ((a.toNat : Int) - b.toNat)) fun a b _ => leftU ((a.toNat : Int) - b.toNat)

/-- A bitwise firing: the tag is FMT, the sideband SA's under a pleated FMT (R314). -/
def fireBits (i : Instr) (w : CEWord) (f : Word → Word → Word) : State → Out :=
  fireRes i w fun _ a b c => intRes (isVector w) w.fmt (a.sideband w.fmt) a b c (fun x y _ => f x y) never

/-- `and` (R318). -/
def execAnd (w : CEWord) : State → Out := fireBits (.and w) w fun a b => a &&& b
/-- `or` (R318). -/
def execOr (w : CEWord) : State → Out := fireBits (.or w) w fun a b => a ||| b
/-- `xor` (R318). -/
def execXor (w : CEWord) : State → Out := fireBits (.xor w) w fun a b => a ^^^ b
/-- `andn` (R318). -/
def execAndn (w : CEWord) : State → Out := fireBits (.andn w) w fun a b => a &&& ~~~b
/-- `not` (R318). -/
def execNot (w : CEWord) : State → Out := fireBits (.not w) w fun a _ => ~~~a

/-- `shl` (R318). -/
def execShl (w : CEWord) : State → Out := fireInt (.shl w) w (fun a b _ => a <<< shiftN b) never
/-- `shr` (R318). -/
def execShr (w : CEWord) : State → Out := fireInt (.shr w) w (fun a b _ => a >>> shiftN b) never
/-- `sar` (R318). -/
def execSar (w : CEWord) : State → Out := fireInt (.sar w) w (fun a b _ => a.sshiftRight (shiftN b)) never
/-- `rol` (R318). -/
def execRol (w : CEWord) : State → Out := fireInt (.rol w) w (fun a b _ => a.rotateLeft (shiftN b)) never
/-- `clz` (R318). -/
def execClz (w : CEWord) : State → Out := fireInt (.clz w) w (fun a _ _ => clzW a) never
/-- `popc` (R318). -/
def execPopc (w : CEWord) : State → Out := fireInt (.popc w) w (fun a _ _ => popcW a) never

/-- `mins` (R315). -/
def execMins (w : CEWord) : State → Out := fireInt (.mins w) w (fun a b _ => minsW a b) never
/-- `minu` (R315). -/
def execMinu (w : CEWord) : State → Out := fireInt (.minu w) w (fun a b _ => minuW a b) never
/-- `maxs` (R315). -/
def execMaxs (w : CEWord) : State → Out := fireInt (.maxs w) w (fun a b _ => maxsW a b) never
/-- `maxu` (R315). -/
def execMaxu (w : CEWord) : State → Out := fireInt (.maxu w) w (fun a b _ => maxuW a b) never
/-- `abs` (R315). -/
def execAbs (w : CEWord) : State → Out := fireInt (.abs w) w (fun a _ _ => absW a) fun a _ _ => a == 0x80000000
/-- `neg` (R315). -/
def execNeg (w : CEWord) : State → Out := fireInt (.neg w) w (fun a _ _ => -a) never

/-- A comparison (R319). -/
def fireCmp (i : Instr) (w : CEWord) (p : Word → Word → Bool) : State → Out :=
  fireRes i w fun _ a b _ => cmpRes (isVector w) a b p

/-- `cmp.eq` (R319). -/
def execCmpEq (w : CEWord) : State → Out := fireCmp (.cmpEq w) w fun a b => a == b
/-- `cmp.ne` (R319). -/
def execCmpNe (w : CEWord) : State → Out := fireCmp (.cmpNe w) w fun a b => a != b
/-- `cmp.lt` (R319). -/
def execCmpLt (w : CEWord) : State → Out := fireCmp (.cmpLt w) w fun a b => a.slt b
/-- `cmp.le` (R319). -/
def execCmpLe (w : CEWord) : State → Out := fireCmp (.cmpLe w) w fun a b => a.sle b
/-- `cmp.ltu` (R319). -/
def execCmpLtu (w : CEWord) : State → Out := fireCmp (.cmpLtu w) w fun a b => a.ult b
/-- `cmp.leu` (R319). -/
def execCmpLeu (w : CEWord) : State → Out := fireCmp (.cmpLeu w) w fun a b => a.ule b

/-- `sel` (R320): the sideband comes from SB. -/
def execSel (w : CEWord) : State → Out :=
  fireRes (.sel w) w fun _ a b c =>
    intRes (isVector w) w.fmt (b.sideband w.fmt) a b c (fun x y z => if x = 0 then z else y) never

def posOf (w : CEWord) : Nat := w.immBits 0 5
def lenOf (w : CEWord) : Nat := w.immBits 8 6

/-- `bfx` (R321). -/
def execBfx (w : CEWord) : State → Out :=
  fireInt (.bfx w) w (fun a _ _ => bfxW (posOf w) (lenOf w) (w.imm.getLsbD 16) a) never
/-- `bfi` (R321). -/
def execBfi (w : CEWord) : State → Out :=
  fireInt (.bfi w) w (fun a b _ => bfiW (posOf w) (lenOf w) a b) never

end Sys2Proof.Machine
end

