-- ==== Sys2Proof/Machine/Float.lean ====
section
/-!
DEFINITION. Floating-point instructions (12 R322-R327).
-/
namespace Sys2Proof.Machine

/-- Element i of a source of this family: a scalar-class source is F32 (R322). -/
def Val.fl (a : Val) (i : Nat) : Option Exact := a.elem? .f32 i

def fireF1 (i : Instr) (w : CEWord) (f : Exact → Exact) : State → Out :=
  fireRes i w fun _ a _ _ => floatRes (isVector w) w.fmt w.rnd w.sat fun k => lift1 (a.fl k) f
def fireF2 (i : Instr) (w : CEWord) (f : Exact → Exact → Exact) : State → Out :=
  fireRes i w fun _ a b _ => floatRes (isVector w) w.fmt w.rnd w.sat fun k => lift2 (a.fl k) (b.fl k) f

/-- `fadd` (R323). -/
def execFadd (w : CEWord) : State → Out := fireF2 (.fadd w) w fun a b => a.add w.rnd b
/-- `fsub` (R323). -/
def execFsub (w : CEWord) : State → Out := fireF2 (.fsub w) w fun a b => a.sub w.rnd b
/-- `fmul` (R323). -/
def execFmul (w : CEWord) : State → Out := fireF2 (.fmul w) w fun a b => a.mul b
/-- `fma` (R323). -/
def execFma (w : CEWord) : State → Out :=
  fireRes (.fma w) w fun _ a b c =>
    floatRes (isVector w) w.fmt w.rnd w.sat fun k =>
      lift3 (a.fl k) (b.fl k) (c.fl k) fun x y z => (x.mul y).add w.rnd z
/-- `fmin` (R323). -/
def execFmin (w : CEWord) : State → Out := fireF2 (.fmin w) w fun a b => a.fmin b
/-- `fmax` (R323). -/
def execFmax (w : CEWord) : State → Out := fireF2 (.fmax w) w fun a b => a.fmax b
/-- `fabs` (R323). -/
def execFabs (w : CEWord) : State → Out := fireF1 (.fabs w) w fun a => a.abs
/-- `fneg` (R323). -/
def execFneg (w : CEWord) : State → Out := fireF1 (.fneg w) w fun a => a.neg

/-- A floating-point relation (R324). -/
def fireFcmp (i : Instr) (w : CEWord) (p : Exact → Exact → Bool) : State → Out :=
  fireRes i w fun _ a b _ => fcmpRes (isVector w) w.fmt a b p

/-- `fcmp.eq` (R324). -/
def execFcmpEq (w : CEWord) : State → Out := fireFcmp (.fcmpEq w) w fun a b => a.eqv b
/-- `fcmp.lt` (R324). -/
def execFcmpLt (w : CEWord) : State → Out := fireFcmp (.fcmpLt w) w fun a b => a.lt b
/-- `fcmp.le` (R324). -/
def execFcmpLe (w : CEWord) : State → Out := fireFcmp (.fcmpLe w) w fun a b => a.le b
/-- `fcmp.un` (R324). -/
def execFcmpUn (w : CEWord) : State → Out := fireFcmp (.fcmpUn w) w fun a b => a.unordered b

/-- `fdiv` (R323). -/
def execFdiv (w : CEWord) : State → Out := fireF2 (.fdiv w) w fun a b => a.div b
/-- `fsqrt` (R323). -/
def execFsqrt (w : CEWord) : State → Out := fireF1 (.fsqrt w) w fun a => a.sqrt
/-- `frcp` (R323). -/
def execFrcp (w : CEWord) : State → Out := fireF1 (.frcp w) w fun a => a.rcp
/-- `frsq` (R323). -/
def execFrsq (w : CEWord) : State → Out := fireF1 (.frsq w) w fun a => a.rsq
/-- `fexp2` (R323). -/
def execFexp2 (w : CEWord) : State → Out := fireF1 (.fexp2 w) w fun a => a.exp2
/-- `flog2` (R323). -/
def execFlog2 (w : CEWord) : State → Out := fireF1 (.flog2 w) w fun a => a.log2
/-- `ftanh` (R323). -/
def execFtanh (w : CEWord) : State → Out := fireF1 (.ftanh w) w fun a => a.tanh
/-- `fround` (R325). -/
def execFround (w : CEWord) : State → Out := fireF1 (.fround w) w fun a => a.toIntegral w.rnd
/-- `fclass` (R326). -/
def execFclass (w : CEWord) : State → Out := fireRes (.fclass w) w fun _ a _ _ => fclassRes (isVector w) w.fmt a
/-- `fscale` (R327). -/
def execFscale (w : CEWord) : State → Out :=
  fireRes (.fscale w) w fun _ a b _ =>
    floatRes (isVector w) w.fmt w.rnd w.sat fun k =>
      match a.fl k, scaleCount b k with
      | some x, some n => some (x.scale n)
      | _, _ => none

end Sys2Proof.Machine
end

