-- ==== Sys2Proof/Machine/Lanes.lean ====
section
/-!
DEFINITION. Lane instructions (12 R328-R334).
-/
namespace Sys2Proof.Machine

/-- A lane movement of SA (R328). -/
def fireLane (i : Instr) (w : CEWord) (f : VecVal → Val → Val → VecVal) : State → Out :=
  fireRes i w fun _ a b c => { val := .vec (f (asVec a) b c) }

/-- `bcast` (R329). -/
def execBcast (w : CEWord) : State → Out := fireLane (.bcast w) w fun a b _ => bcastVec a b.word.toNat
/-- `shuf` (R329). -/
def execShuf (w : CEWord) : State → Out := fireLane (.shuf w) w fun a b _ => shufVec a b
/-- `lrot` (R329). -/
def execLrot (w : CEWord) : State → Out := fireLane (.lrot w) w fun a b _ => lrotVec a b.word.toNat

/-- A reduction (R330). -/
def fireReduce (i : Instr) (w : CEWord) (op : ROp) : State → Out :=
  fireRes i w fun _ a _ _ => reduceRes w.dst.isVecDst w.fmt w.rnd w.sat op (asVec a)

/-- `redadd` (R330). -/
def execRedadd (w : CEWord) : State → Out := fireReduce (.redadd w) w .add
/-- `redmin` (R330). -/
def execRedmin (w : CEWord) : State → Out := fireReduce (.redmin w) w .min
/-- `redmax` (R330). -/
def execRedmax (w : CEWord) : State → Out := fireReduce (.redmax w) w .max

def scanOp (w : CEWord) : ROp :=
  match w.immBits 0 2 with
  | 0 => .add
  | 1 => .min
  | _ => .max

/-- `scan` (R331). -/
def execScan (w : CEWord) : State → Out :=
  fireRes (.scan w) w fun _ a _ _ => { val := .vec (scanVec w.fmt w.rnd w.sat (scanOp w) (asVec a)) }

/-- `cmpr` (R332). -/
def execCmpr (w : CEWord) : State → Out :=
  fireRes (.cmpr w) w fun _ a _ _ => { val := .vec (cmprVec (asVec a)), pred := (asVec a).mask == 0 }
/-- `expd` (R332). -/
def execExpd (w : CEWord) : State → Out :=
  fireLane (.expd w) w fun a b _ => expdVec a (b.word.extractLsb' 0 16)

/-- `lmask` (R333). -/
def execLmask (w : CEWord) : State → Out :=
  fireRes (.lmask w) w fun _ a b _ =>
    let v := asVec a
    let m := b.word.extractLsb' 0 16
    match w.immBits 0 2 with
    | 0 => { val := .vec (remask v m) }
    | 1 => { val := .vec (remask v (v.mask &&& m)) }
    | 2 => { val := .scal (v.mask.zeroExtend 32) }
    | _ => { val := .scal (BitVec.ofNat 32 (countBits v.mask)) }

/-- `insl` (R329). -/
def execInsl (w : CEWord) : State → Out := fireLane (.insl w) w fun a b c => inslVec a b.word c.word.toNat

/-- `extl` (R334). -/
def execExtl (w : CEWord) : State → Out :=
  fireRes (.extl w) w fun _ a b _ =>
    let v := asVec a
    let n := b.word.toNat % 16
    { val := .scal (if v.mask.getLsbD n then v.lane n else 0), pred := v.mask.getLsbD n }

end Sys2Proof.Machine
end

