-- ==== Sys2Proof/Machine/Dispatch.lean ====
section
/-!
DEFINITION. The one dispatch from constructors to meanings.
-/
namespace Sys2Proof.Machine

def exec (i : Instr) (s : State) : Host.Outcome State Fault Refusal :=
  match i with
  | .nop w => Sys2Proof.Machine.execNop w s
  | .mov w => Sys2Proof.Machine.execMov w s
  | .steer w => Sys2Proof.Machine.execSteer w s
  | .merge w => Sys2Proof.Machine.execMerge w s
  | .amerge w => Sys2Proof.Machine.execAmerge w s
  | .filter w => Sys2Proof.Machine.execFilter w s
  | .absorb w => Sys2Proof.Machine.execAbsorb w s
  | .repeatTok w => Sys2Proof.Machine.execRepeat w s
  | .count w => Sys2Proof.Machine.execCount w s
  | .mark w => Sys2Proof.Machine.execMark w s
  | .rfclr w => Sys2Proof.Machine.execRfclr w s
  | .pand w => Sys2Proof.Machine.execPand w s
  | .por w => Sys2Proof.Machine.execPor w s
  | .pxor w => Sys2Proof.Machine.execPxor w s
  | .pnot w => Sys2Proof.Machine.execPnot w s
  | .pmov w => Sys2Proof.Machine.execPmov w s
  | .halt w => Sys2Proof.Machine.execHalt w s
  | .exit w => Sys2Proof.Machine.execExit w s
  | .trap w => Sys2Proof.Machine.execTrap w s
  | .brk w => Sys2Proof.Machine.execBrk w s
  | .add w => Sys2Proof.Machine.execAdd w s
  | .sub w => Sys2Proof.Machine.execSub w s
  | .mul w => Sys2Proof.Machine.execMul w s
  | .mulhs w => Sys2Proof.Machine.execMulhs w s
  | .mulhu w => Sys2Proof.Machine.execMulhu w s
  | .mad w => Sys2Proof.Machine.execMad w s
  | .divs w => Sys2Proof.Machine.execDivs w s
  | .divu w => Sys2Proof.Machine.execDivu w s
  | .rems w => Sys2Proof.Machine.execRems w s
  | .remu w => Sys2Proof.Machine.execRemu w s
  | .addSat w => Sys2Proof.Machine.execAddSat w s
  | .addSatu w => Sys2Proof.Machine.execAddSatu w s
  | .subSat w => Sys2Proof.Machine.execSubSat w s
  | .subSatu w => Sys2Proof.Machine.execSubSatu w s
  | .and w => Sys2Proof.Machine.execAnd w s
  | .or w => Sys2Proof.Machine.execOr w s
  | .xor w => Sys2Proof.Machine.execXor w s
  | .andn w => Sys2Proof.Machine.execAndn w s
  | .not w => Sys2Proof.Machine.execNot w s
  | .shl w => Sys2Proof.Machine.execShl w s
  | .shr w => Sys2Proof.Machine.execShr w s
  | .sar w => Sys2Proof.Machine.execSar w s
  | .rol w => Sys2Proof.Machine.execRol w s
  | .clz w => Sys2Proof.Machine.execClz w s
  | .popc w => Sys2Proof.Machine.execPopc w s
  | .mins w => Sys2Proof.Machine.execMins w s
  | .minu w => Sys2Proof.Machine.execMinu w s
  | .maxs w => Sys2Proof.Machine.execMaxs w s
  | .maxu w => Sys2Proof.Machine.execMaxu w s
  | .abs w => Sys2Proof.Machine.execAbs w s
  | .neg w => Sys2Proof.Machine.execNeg w s
  | .cmpEq w => Sys2Proof.Machine.execCmpEq w s
  | .cmpNe w => Sys2Proof.Machine.execCmpNe w s
  | .cmpLt w => Sys2Proof.Machine.execCmpLt w s
  | .cmpLe w => Sys2Proof.Machine.execCmpLe w s
  | .cmpLtu w => Sys2Proof.Machine.execCmpLtu w s
  | .cmpLeu w => Sys2Proof.Machine.execCmpLeu w s
  | .sel w => Sys2Proof.Machine.execSel w s
  | .bfx w => Sys2Proof.Machine.execBfx w s
  | .bfi w => Sys2Proof.Machine.execBfi w s
  | .bcast w => Sys2Proof.Machine.execBcast w s
  | .shuf w => Sys2Proof.Machine.execShuf w s
  | .lrot w => Sys2Proof.Machine.execLrot w s
  | .redadd w => Sys2Proof.Machine.execRedadd w s
  | .redmin w => Sys2Proof.Machine.execRedmin w s
  | .redmax w => Sys2Proof.Machine.execRedmax w s
  | .scan w => Sys2Proof.Machine.execScan w s
  | .cmpr w => Sys2Proof.Machine.execCmpr w s
  | .expd w => Sys2Proof.Machine.execExpd w s
  | .lmask w => Sys2Proof.Machine.execLmask w s
  | .insl w => Sys2Proof.Machine.execInsl w s
  | .extl w => Sys2Proof.Machine.execExtl w s
  | .fadd w => Sys2Proof.Machine.execFadd w s
  | .fsub w => Sys2Proof.Machine.execFsub w s
  | .fmul w => Sys2Proof.Machine.execFmul w s
  | .fma w => Sys2Proof.Machine.execFma w s
  | .fmin w => Sys2Proof.Machine.execFmin w s
  | .fmax w => Sys2Proof.Machine.execFmax w s
  | .fabs w => Sys2Proof.Machine.execFabs w s
  | .fneg w => Sys2Proof.Machine.execFneg w s
  | .fcmpEq w => Sys2Proof.Machine.execFcmpEq w s
  | .fcmpLt w => Sys2Proof.Machine.execFcmpLt w s
  | .fcmpLe w => Sys2Proof.Machine.execFcmpLe w s
  | .fcmpUn w => Sys2Proof.Machine.execFcmpUn w s
  | .fdiv w => Sys2Proof.Machine.execFdiv w s
  | .fsqrt w => Sys2Proof.Machine.execFsqrt w s
  | .frcp w => Sys2Proof.Machine.execFrcp w s
  | .frsq w => Sys2Proof.Machine.execFrsq w s
  | .fexp2 w => Sys2Proof.Machine.execFexp2 w s
  | .flog2 w => Sys2Proof.Machine.execFlog2 w s
  | .ftanh w => Sys2Proof.Machine.execFtanh w s
  | .fround w => Sys2Proof.Machine.execFround w s
  | .fclass w => Sys2Proof.Machine.execFclass w s
  | .fscale w => Sys2Proof.Machine.execFscale w s
  | .cvt w => Sys2Proof.Machine.execCvt w s
  | .retag w => Sys2Proof.Machine.execRetag w s
  | .pack w => Sys2Proof.Machine.execPack w s
  | .unpack w => Sys2Proof.Machine.execUnpack w s
  | .pbq w => Sys2Proof.Machine.execPbq w s
  | .pbexpGet w => Sys2Proof.Machine.execPbexpGet w s
  | .pbexpSet w => Sys2Proof.Machine.execPbexpSet w s
  | .rng w => Sys2Proof.Machine.execRng w s
  | .wld w => Sys2Proof.Machine.execWld w s
  | .wldt w => Sys2Proof.Machine.execWldt w s
  | .wclr w => Sys2Proof.Machine.execWclr w s
  | .mma w => Sys2Proof.Machine.execMma w s
  | .mmz w => Sys2Proof.Machine.execMmz w s
  | .lds w => Sys2Proof.Machine.execLds w s
  | .sts w => Sys2Proof.Machine.execSts w s
  | .ldg w => Sys2Proof.Machine.execLdg w s
  | .stg w => Sys2Proof.Machine.execStg w s
  | .atomAdd w => Sys2Proof.Machine.execAtomAdd w s
  | .atomMin w => Sys2Proof.Machine.execAtomMin w s
  | .atomMax w => Sys2Proof.Machine.execAtomMax w s
  | .atomXchg w => Sys2Proof.Machine.execAtomXchg w s
  | .atomCas w => Sys2Proof.Machine.execAtomCas w s
  | .atomAnd w => Sys2Proof.Machine.execAtomAnd w s
  | .atomOr w => Sys2Proof.Machine.execAtomOr w s
  | .feSet w => Sys2Proof.Machine.execFeSet w s
  | .feClr w => Sys2Proof.Machine.execFeClr w s
  | .feTest w => Sys2Proof.Machine.execFeTest w s
  | .ringRes w => Sys2Proof.Machine.execRingRes w s
  | .ringPub w => Sys2Proof.Machine.execRingPub w s
  | .ringPop w => Sys2Proof.Machine.execRingPop w s
  | .ringPeek w => Sys2Proof.Machine.execRingPeek w s
  | .ringClose w => Sys2Proof.Machine.execRingClose w s
  | .ringStat w => Sys2Proof.Machine.execRingStat w s
  | .botGive w => Sys2Proof.Machine.execBotGive w s
  | .botTake w => Sys2Proof.Machine.execBotTake w s
  | .baste w => Sys2Proof.Machine.execBaste w s
  | .hem w => Sys2Proof.Machine.execHem w s
  | .pressTest w => Sys2Proof.Machine.execPressTest w s
  | .basteFinal w => Sys2Proof.Machine.execBasteFinal w s
  | .sbar w => Sys2Proof.Machine.execSbar w s
  | .fence w => Sys2Proof.Machine.execFence w s
  | .tlWait w => Sys2Proof.Machine.execTlWait w s
  | .tlRead w => Sys2Proof.Machine.execTlRead w s
  | .lotNew w => Sys2Proof.Machine.execLotNew w s
  | .lotEnd w => Sys2Proof.Machine.execLotEnd w s
  | .teamid w => Sys2Proof.Machine.execTeamid w s
  | .tbar w => Sys2Proof.Machine.execTbar w s
  | .launch w => Sys2Proof.Machine.execLaunch w s
  | .clkrd w => Sys2Proof.Machine.execClkrd w s
  | .rgAlloc rd rs1 rs2 => Sys2Proof.Machine.execRgAlloc rd rs1 rs2 s
  | .rgFree rd rs1 => Sys2Proof.Machine.execRgFree rd rs1 s
  | .rgPlace rd rs1 rs2 => Sys2Proof.Machine.execRgPlace rd rs1 rs2 s
  | .rgLoad rd rs1 rs2 => Sys2Proof.Machine.execRgLoad rd rs1 rs2 s
  | .rgStart rd rs1 rs2 => Sys2Proof.Machine.execRgStart rd rs1 rs2 s
  | .rgStop rd rs1 => Sys2Proof.Machine.execRgStop rd rs1 s
  | .rgDrain rd rs1 => Sys2Proof.Machine.execRgDrain rd rs1 s
  | .rgSave rd rs1 rs2 => Sys2Proof.Machine.execRgSave rd rs1 rs2 s
  | .rgRestore rd rs1 rs2 => Sys2Proof.Machine.execRgRestore rd rs1 rs2 s
  | .rgKill rd rs1 => Sys2Proof.Machine.execRgKill rd rs1 s
  | .rgShut rd rs1 => Sys2Proof.Machine.execRgShut rd rs1 s
  | .rgStat rd rs1 rs2 => Sys2Proof.Machine.execRgStat rd rs1 rs2 s
  | .lotSweep rd => Sys2Proof.Machine.execLotSweep rd s
  | .cpStart rd rs1 rs2 => Sys2Proof.Machine.execCpStart rd rs1 rs2 s
  | .cpQuery rd rs1 rs2 => Sys2Proof.Machine.execCpQuery rd rs1 rs2 s
  | .coreTlRead rd rs1 => Sys2Proof.Machine.execCoreTlRead rd rs1 s
  | .coreTlWait rd rs1 rs2 => Sys2Proof.Machine.execCoreTlWait rd rs1 rs2 s
  | .tlAdd rd rs1 rs2 => Sys2Proof.Machine.execTlAdd rd rs1 rs2 s
  | .coreLaunch rd rs1 rs2 => Sys2Proof.Machine.execCoreLaunch rd rs1 rs2 s
  | .fqPop rd rs1 => Sys2Proof.Machine.execFqPop rd rs1 s
  | .fwSet rd rs1 rs2 => Sys2Proof.Machine.execFwSet rd rs1 rs2 s
  | .ptInv rd rs1 rs2 => Sys2Proof.Machine.execPtInv rd rs1 rs2 s
  | .dbgRd rd rs1 rs2 => Sys2Proof.Machine.execDbgRd rd rs1 rs2 s
  | .dbgWr rd rs1 rs2 => Sys2Proof.Machine.execDbgWr rd rs1 rs2 s
  | .ldacqW rd rs1 scope => Sys2Proof.Machine.execLdacqW rd rs1 scope s
  | .ldacqD rd rs1 scope => Sys2Proof.Machine.execLdacqD rd rs1 scope s
  | .strelW rs2 rs1 scope => Sys2Proof.Machine.execStrelW rs2 rs1 scope s
  | .strelD rs2 rs1 scope => Sys2Proof.Machine.execStrelD rs2 rs1 scope s
  | .fenceP scope order => Sys2Proof.Machine.execFenceP scope order s
  | .monWait rd rs1 rs2 scope cond => Sys2Proof.Machine.execMonWait rd rs1 rs2 scope cond s
  | .unassignedXphido word => Sys2Proof.Machine.execUnassignedXphido word s
  | .registerWrite t v => Sys2Proof.Machine.execRegisterWrite t v s
  | .coldReset => Sys2Proof.Machine.execColdReset s
  | .wipeComplete t ok => Sys2Proof.Machine.execWipeComplete t ok s
  | .imageVerifyDone x => Sys2Proof.Machine.execImageVerifyDone x s
  | .digestExchange x => Sys2Proof.Machine.execDigestExchange x s
  | .bootPathTimeout => Sys2Proof.Machine.execBootPathTimeout s
  | .seamTraining l ok => Sys2Proof.Machine.execSeamTraining l ok s
  | .spdmRequest pf req => Sys2Proof.Machine.execSpdmRequest pf req s
  | .lifecycleToken pf target serial nonce sig => Sys2Proof.Machine.execLifecycleToken pf target serial nonce sig s
  | .recgoWrite x len => Sys2Proof.Machine.execRecgoWrite x len s
  | .patchClockGate die patch => Sys2Proof.Machine.execPatchClockGate die patch s
  | .powerGatePatch die patch => Sys2Proof.Machine.execPowerGatePatch die patch s
  | .powerGateWake die patch => Sys2Proof.Machine.execPowerGateWake die patch s
  | .defmapWrite die w v => Sys2Proof.Machine.execDefmapWrite die w v s
  | .flitReceive l seq crcOk ackOk inb => Sys2Proof.Machine.execFlitReceive l seq crcOk ackOk inb s
  | .flitReplay l => Sys2Proof.Machine.execFlitReplay l s
  | .replayTimeout l => Sys2Proof.Machine.execReplayTimeout l s
  | .retrainingLock l crossing => Sys2Proof.Machine.execRetrainingLock l crossing s
  | .retrainingTimeout l crossing => Sys2Proof.Machine.execRetrainingTimeout l crossing s
  | .crossingTableResume l up => Sys2Proof.Machine.execCrossingTableResume l up s
  | .seamstClr die port => Sys2Proof.Machine.execSeamstClr die port s
  | .seamstFailirqClear die port => Sys2Proof.Machine.execSeamstFailirqClear die port s
  | .modidWrite die v => Sys2Proof.Machine.execModidWrite die v s
  | .powerStateChange p => Sys2Proof.Machine.execPowerStateChange p s
  | .monitorSample die k volt proc temp power => Sys2Proof.Machine.execMonitorSample die k volt proc temp power s
  | .throttleRaise die => Sys2Proof.Machine.execThrottleRaise die s
  | .pwrlimWrite x v => Sys2Proof.Machine.execPwrlimWrite x v s
  | .inboundPostedWrite x fn bar off data relaxed => Sys2Proof.Machine.execInboundPostedWrite x fn bar off data relaxed s
  | .inboundWriteAck x id => Sys2Proof.Machine.execInboundWriteAck x id s
  | .inboundRead x fn bar tag off len => Sys2Proof.Machine.execInboundRead x fn bar tag off len s
  | .inboundAtomicop x fn tag off op => Sys2Proof.Machine.execInboundAtomicop x fn tag off op s
  | .inboundHoldTimeout x id => Sys2Proof.Machine.execInboundHoldTimeout x id s
  | .atsInvalidation x fn => Sys2Proof.Machine.execAtsInvalidation x fn s
  | .functionLevelReset x fn => Sys2Proof.Machine.execFunctionLevelReset x fn s
  | .mslotWrite x fn off data => Sys2Proof.Machine.execMslotWrite x fn off data s
  | .mbxdbWrite x fn v => Sys2Proof.Machine.execMbxdbWrite x fn v s
  | .msgLaunch x fn slot inRange => Sys2Proof.Machine.execMsgLaunch x fn slot inRange s
  | .msgCancel x fn slot inRange => Sys2Proof.Machine.execMsgCancel x fn slot inRange s
  | .msgMapwin x fn slot allowed => Sys2Proof.Machine.execMsgMapwin x fn slot allowed s
  | .msgQuery x fn slot => Sys2Proof.Machine.execMsgQuery x fn slot s
  | .featAcceptWrite pf v => Sys2Proof.Machine.execFeatAcceptWrite pf v s
  | .fncfgWrite x fn v => Sys2Proof.Machine.execFncfgWrite x fn v s
  | .winentWrite x v => Sys2Proof.Machine.execWinentWrite x v s
  | .winctlSync x => Sys2Proof.Machine.execWinctlSync x s
  | .winctlSyncDone x => Sys2Proof.Machine.execWinctlSyncDone x s
  | .winstClr x fn => Sys2Proof.Machine.execWinstClr x fn s
  | .ualinkPeerRequest x port ua op => Sys2Proof.Machine.execUalinkPeerRequest x port ua op s
  | .sharedRangeWrite x req => Sys2Proof.Machine.execSharedRangeWrite x req s
  | .sharedRangeGrant x line => Sys2Proof.Machine.execSharedRangeGrant x line s
  | .sharedRangeRead x req line => Sys2Proof.Machine.execSharedRangeRead x req line s
  | .sharedRangeInvalidate x line => Sys2Proof.Machine.execSharedRangeInvalidate x line s
  | .sharedInvalidateAck x line => Sys2Proof.Machine.execSharedInvalidateAck x line s
  | .expentCommit x v => Sys2Proof.Machine.execExpentCommit x v s
  | .srentCommit x v => Sys2Proof.Machine.execSrentCommit x v s
  | .srentClearDone x ix => Sys2Proof.Machine.execSrentClearDone x ix s
  | .ualinkPortDown x port => Sys2Proof.Machine.execUalinkPortDown x port s
  | .roceRequest x qp va op => Sys2Proof.Machine.execRoceRequest x qp va op s
  | .launchFrame x payload => Sys2Proof.Machine.execLaunchFrame x payload s
  | .launchFrameHomeCheck x => Sys2Proof.Machine.execLaunchFrameHomeCheck x s
  | .tenantBucketRefill x tenant => Sys2Proof.Machine.execTenantBucketRefill x tenant s
  | .lfdropClr x n => Sys2Proof.Machine.execLfdropClr x n s
  | .tnentCommit x v => Sys2Proof.Machine.execTnentCommit x v s
  | .partcfgWrite die v => Sys2Proof.Machine.execPartcfgWrite die v s
  | .xpartWrite x p v => Sys2Proof.Machine.execXpartWrite x p v s
  | .lrcDone die port => Sys2Proof.Machine.execLrcDone die port s
  | .partitionReset p => Sys2Proof.Machine.execPartitionReset p s
  | .ftlgcWrite x v => Sys2Proof.Machine.execFtlgcWrite x v s
  | .ftlgcHeldClear x => Sys2Proof.Machine.execFtlgcHeldClear x s
  | .ftlGcWindow x traffic wanted free => Sys2Proof.Machine.execFtlGcWindow x traffic wanted free s
  | .launchIssue id => Sys2Proof.Machine.execLaunchIssue id s
  | .imageLoadComplete launch => Sys2Proof.Machine.execImageLoadComplete launch s
  | .dispatcherSummary die => Sys2Proof.Machine.execDispatcherSummary die s
  | .ageingPromotion launch => Sys2Proof.Machine.execAgeingPromotion launch s
  | .sliceEnd launch => Sys2Proof.Machine.execSliceEnd launch s
  | .switchTick launch die => Sys2Proof.Machine.execSwitchTick launch die s
  | .switchReady launch die => Sys2Proof.Machine.execSwitchReady launch die s
  | .switchDeadline launch => Sys2Proof.Machine.execSwitchDeadline launch s
  | .switchCommit launch die => Sys2Proof.Machine.execSwitchCommit launch die s
  | .switchAbort launch die => Sys2Proof.Machine.execSwitchAbort launch die s
  | .vdcfgWrite die vd v => Sys2Proof.Machine.execVdcfgWrite die vd v s
  | .launchCompletion launch => Sys2Proof.Machine.execLaunchCompletion launch s
  | .instanceRetire h => Sys2Proof.Machine.execInstanceRetire h s
  | .seamFailureMessage die seam => Sys2Proof.Machine.execSeamFailureMessage die seam s
  | .seamFailureStopTimeout h => Sys2Proof.Machine.execSeamFailureStopTimeout h s
  | .quiescence h => Sys2Proof.Machine.execQuiescence h s
  | .frontSettled h => Sys2Proof.Machine.execFrontSettled h s
  | .pdfqstClr die => Sys2Proof.Machine.execPdfqstClr die s
  | .shutIdleTimeout h => Sys2Proof.Machine.execShutIdleTimeout h s
  | .tokenHop cell net src => Sys2Proof.Machine.execTokenHop cell net src s
  | .dynamicPacketHop node out => Sys2Proof.Machine.execDynamicPacketHop node out s
  | .dnwgtWrite die w v => Sys2Proof.Machine.execDnwgtWrite die w v s
  | .agElement cell k ecc => Sys2Proof.Machine.execAgElement cell k ecc s
  | .agConfigToken cell k => Sys2Proof.Machine.execAgConfigToken cell k s
  | .globalRequestArrival req cached ecc part => Sys2Proof.Machine.execGlobalRequestArrival req cached ecc part s
  | .slogctlKick die ix v => Sys2Proof.Machine.execSlogctlKick die ix v s
  | .slogctlDiscard die ix v => Sys2Proof.Machine.execSlogctlDiscard die ix v s
  | .dmapWrite die ix v => Sys2Proof.Machine.execDmapWrite die ix v s
  | .vdasidWrite die vd v => Sys2Proof.Machine.execVdasidWrite die vd v s
  | .sweepComplete die => Sys2Proof.Machine.execSweepComplete die s
  | .copyLine c line cached part => Sys2Proof.Machine.execCopyLine c line cached part s
  | .copyComplete c => Sys2Proof.Machine.execCopyComplete c s
  | .requestLands req => Sys2Proof.Machine.execRequestLands req s
  | .pendingWaitComplete cell ctx => Sys2Proof.Machine.execPendingWaitComplete cell ctx s
  | .tbarArrival h level => Sys2Proof.Machine.execTbarArrival h level s
  | .feSetPerform id => Sys2Proof.Machine.execFeSetPerform id s
  | .bastePublish cell ix => Sys2Proof.Machine.execBastePublish cell ix s
  | .botTokenSend cell bank => Sys2Proof.Machine.execBotTokenSend cell bank s
  | .rgDrainTimeout die hart => Sys2Proof.Machine.execRgDrainTimeout die hart s
  | .xpirqClear die hart v => Sys2Proof.Machine.execXpirqClear die hart v s
  | .apertureAccess die hart acc => Sys2Proof.Machine.execApertureAccess die hart acc s
  | .remoteMeAccess req ecc => Sys2Proof.Machine.execRemoteMeAccess req ecc s
  | .outboundHostCompletion req ok data => Sys2Proof.Machine.execOutboundHostCompletion req ok data s
  | .fieldLogFlush => Sys2Proof.Machine.execFieldLogFlush s
  | .powerStateExitDone => Sys2Proof.Machine.execPowerStateExitDone s

end Sys2Proof.Machine
end

