-- ==== Sys2Proof/Machine/Step.lean ====
section
/-!
DEFINITION. One step: the next turn of the schedule, or an idle cycle when nothing is scheduled (log 2).
-/
namespace Sys2Proof.Machine

def step (s : State) : Host.Outcome State Fault Refusal :=
  match s.agenda with
  | [] => .next (s.apply (.cycle (s.cycle + 1)))
  | (dt, t) :: rest =>
    let s1 := (Act.advance dt rest .none).run s
    match s1.job t with
    | .run f i => exec i (s1.apply (.focus f))
    | .act a => .next (a.run s1)
    | .base d n w =>
      match s1.baseJob d n w with
      | some a => .next (a.run s1)
      | none => .refused (.vectorSet w)
    | .noUnit => .fault .noUnit

/-- The state with an instruction of `nbits` bits where step takes its next one from (log 10). -/
def State.withFetchWord (s : State) (nbits w : Nat) : State := placeWord s nbits w

end Sys2Proof.Machine
end

