-- ==== Sys2Proof/Laws/PerInstr.lean ====
section
/-!
SUPPORT. Per instruction: the opcode map gives an instruction back from its own opcode and fields, and an instruction
has at most one of the two encodings.
-/
namespace Sys2Proof.Laws.Encodes

/-- The decoder's opcode map (R264) undoes the encoder's, and a CE instruction has no Xphido word. -/
def Statement (i : Instr) : Prop :=
  (∀ opc f, i.ceParts = some (opc, f) → ceOf opc f = some i) ∧ (i.ceParts.isSome = true → i.xphidoWord = none)

theorem of_no_parts {i : Instr} (h : i.ceParts = none) : Statement i := by
  constructor <;> simp [h]

theorem nop (a0) : Statement (.nop a0) := ⟨fun _ _ h => by cases h; rfl, fun _ => rfl⟩
theorem mov (a0) : Statement (.mov a0) := ⟨fun _ _ h => by cases h; rfl, fun _ => rfl⟩
theorem steer (a0) : Statement (.steer a0) := ⟨fun _ _ h => by cases h; rfl, fun _ => rfl⟩
theorem merge (a0) : Statement (.merge a0) := ⟨fun _ _ h => by cases h; rfl, fun _ => rfl⟩
theorem amerge (a0) : Statement (.amerge a0) := ⟨fun _ _ h => by cases h; rfl, fun _ => rfl⟩
theorem filter (a0) : Statement (.filter a0) := ⟨fun _ _ h => by cases h; rfl, fun _ => rfl⟩
theorem absorb (a0) : Statement (.absorb a0) := ⟨fun _ _ h => by cases h; rfl, fun _ => rfl⟩
theorem repeatTok (a0) : Statement (.repeatTok a0) := ⟨fun _ _ h => by cases h; rfl, fun _ => rfl⟩
theorem count (a0) : Statement (.count a0) := ⟨fun _ _ h => by cases h; rfl, fun _ => rfl⟩
theorem mark (a0) : Statement (.mark a0) := ⟨fun _ _ h => by cases h; rfl, fun _ => rfl⟩
theorem rfclr (a0) : Statement (.rfclr a0) := ⟨fun _ _ h => by cases h; rfl, fun _ => rfl⟩
theorem pand (a0) : Statement (.pand a0) := ⟨fun _ _ h => by cases h; rfl, fun _ => rfl⟩
theorem por (a0) : Statement (.por a0) := ⟨fun _ _ h => by cases h; rfl, fun _ => rfl⟩
theorem pxor (a0) : Statement (.pxor a0) := ⟨fun _ _ h => by cases h; rfl, fun _ => rfl⟩
theorem pnot (a0) : Statement (.pnot a0) := ⟨fun _ _ h => by cases h; rfl, fun _ => rfl⟩
theorem pmov (a0) : Statement (.pmov a0) := ⟨fun _ _ h => by cases h; rfl, fun _ => rfl⟩
theorem halt (a0) : Statement (.halt a0) := ⟨fun _ _ h => by cases h; rfl, fun _ => rfl⟩
theorem exit (a0) : Statement (.exit a0) := ⟨fun _ _ h => by cases h; rfl, fun _ => rfl⟩
theorem trap (a0) : Statement (.trap a0) := ⟨fun _ _ h => by cases h; rfl, fun _ => rfl⟩
theorem brk (a0) : Statement (.brk a0) := ⟨fun _ _ h => by cases h; rfl, fun _ => rfl⟩
theorem add (a0) : Statement (.add a0) := ⟨fun _ _ h => by cases h; rfl, fun _ => rfl⟩
theorem sub (a0) : Statement (.sub a0) := ⟨fun _ _ h => by cases h; rfl, fun _ => rfl⟩
theorem mul (a0) : Statement (.mul a0) := ⟨fun _ _ h => by cases h; rfl, fun _ => rfl⟩
theorem mulhs (a0) : Statement (.mulhs a0) := ⟨fun _ _ h => by cases h; rfl, fun _ => rfl⟩
theorem mulhu (a0) : Statement (.mulhu a0) := ⟨fun _ _ h => by cases h; rfl, fun _ => rfl⟩
theorem mad (a0) : Statement (.mad a0) := ⟨fun _ _ h => by cases h; rfl, fun _ => rfl⟩
theorem divs (a0) : Statement (.divs a0) := ⟨fun _ _ h => by cases h; rfl, fun _ => rfl⟩
theorem divu (a0) : Statement (.divu a0) := ⟨fun _ _ h => by cases h; rfl, fun _ => rfl⟩
theorem rems (a0) : Statement (.rems a0) := ⟨fun _ _ h => by cases h; rfl, fun _ => rfl⟩
theorem remu (a0) : Statement (.remu a0) := ⟨fun _ _ h => by cases h; rfl, fun _ => rfl⟩
theorem addSat (a0) : Statement (.addSat a0) := ⟨fun _ _ h => by cases h; rfl, fun _ => rfl⟩
theorem addSatu (a0) : Statement (.addSatu a0) := ⟨fun _ _ h => by cases h; rfl, fun _ => rfl⟩
theorem subSat (a0) : Statement (.subSat a0) := ⟨fun _ _ h => by cases h; rfl, fun _ => rfl⟩
theorem subSatu (a0) : Statement (.subSatu a0) := ⟨fun _ _ h => by cases h; rfl, fun _ => rfl⟩
theorem and (a0) : Statement (.and a0) := ⟨fun _ _ h => by cases h; rfl, fun _ => rfl⟩
theorem or (a0) : Statement (.or a0) := ⟨fun _ _ h => by cases h; rfl, fun _ => rfl⟩
theorem xor (a0) : Statement (.xor a0) := ⟨fun _ _ h => by cases h; rfl, fun _ => rfl⟩
theorem andn (a0) : Statement (.andn a0) := ⟨fun _ _ h => by cases h; rfl, fun _ => rfl⟩
theorem not (a0) : Statement (.not a0) := ⟨fun _ _ h => by cases h; rfl, fun _ => rfl⟩
theorem shl (a0) : Statement (.shl a0) := ⟨fun _ _ h => by cases h; rfl, fun _ => rfl⟩
theorem shr (a0) : Statement (.shr a0) := ⟨fun _ _ h => by cases h; rfl, fun _ => rfl⟩
theorem sar (a0) : Statement (.sar a0) := ⟨fun _ _ h => by cases h; rfl, fun _ => rfl⟩
theorem rol (a0) : Statement (.rol a0) := ⟨fun _ _ h => by cases h; rfl, fun _ => rfl⟩
theorem clz (a0) : Statement (.clz a0) := ⟨fun _ _ h => by cases h; rfl, fun _ => rfl⟩
theorem popc (a0) : Statement (.popc a0) := ⟨fun _ _ h => by cases h; rfl, fun _ => rfl⟩
theorem mins (a0) : Statement (.mins a0) := ⟨fun _ _ h => by cases h; rfl, fun _ => rfl⟩
theorem minu (a0) : Statement (.minu a0) := ⟨fun _ _ h => by cases h; rfl, fun _ => rfl⟩
theorem maxs (a0) : Statement (.maxs a0) := ⟨fun _ _ h => by cases h; rfl, fun _ => rfl⟩
theorem maxu (a0) : Statement (.maxu a0) := ⟨fun _ _ h => by cases h; rfl, fun _ => rfl⟩
theorem abs (a0) : Statement (.abs a0) := ⟨fun _ _ h => by cases h; rfl, fun _ => rfl⟩
theorem neg (a0) : Statement (.neg a0) := ⟨fun _ _ h => by cases h; rfl, fun _ => rfl⟩
theorem cmpEq (a0) : Statement (.cmpEq a0) := ⟨fun _ _ h => by cases h; rfl, fun _ => rfl⟩
theorem cmpNe (a0) : Statement (.cmpNe a0) := ⟨fun _ _ h => by cases h; rfl, fun _ => rfl⟩
theorem cmpLt (a0) : Statement (.cmpLt a0) := ⟨fun _ _ h => by cases h; rfl, fun _ => rfl⟩
theorem cmpLe (a0) : Statement (.cmpLe a0) := ⟨fun _ _ h => by cases h; rfl, fun _ => rfl⟩
theorem cmpLtu (a0) : Statement (.cmpLtu a0) := ⟨fun _ _ h => by cases h; rfl, fun _ => rfl⟩
theorem cmpLeu (a0) : Statement (.cmpLeu a0) := ⟨fun _ _ h => by cases h; rfl, fun _ => rfl⟩
theorem sel (a0) : Statement (.sel a0) := ⟨fun _ _ h => by cases h; rfl, fun _ => rfl⟩
theorem bfx (a0) : Statement (.bfx a0) := ⟨fun _ _ h => by cases h; rfl, fun _ => rfl⟩
theorem bfi (a0) : Statement (.bfi a0) := ⟨fun _ _ h => by cases h; rfl, fun _ => rfl⟩
theorem bcast (a0) : Statement (.bcast a0) := ⟨fun _ _ h => by cases h; rfl, fun _ => rfl⟩
theorem shuf (a0) : Statement (.shuf a0) := ⟨fun _ _ h => by cases h; rfl, fun _ => rfl⟩
theorem lrot (a0) : Statement (.lrot a0) := ⟨fun _ _ h => by cases h; rfl, fun _ => rfl⟩
theorem redadd (a0) : Statement (.redadd a0) := ⟨fun _ _ h => by cases h; rfl, fun _ => rfl⟩
theorem redmin (a0) : Statement (.redmin a0) := ⟨fun _ _ h => by cases h; rfl, fun _ => rfl⟩
theorem redmax (a0) : Statement (.redmax a0) := ⟨fun _ _ h => by cases h; rfl, fun _ => rfl⟩
theorem scan (a0) : Statement (.scan a0) := ⟨fun _ _ h => by cases h; rfl, fun _ => rfl⟩
theorem cmpr (a0) : Statement (.cmpr a0) := ⟨fun _ _ h => by cases h; rfl, fun _ => rfl⟩
theorem expd (a0) : Statement (.expd a0) := ⟨fun _ _ h => by cases h; rfl, fun _ => rfl⟩
theorem lmask (a0) : Statement (.lmask a0) := ⟨fun _ _ h => by cases h; rfl, fun _ => rfl⟩
theorem insl (a0) : Statement (.insl a0) := ⟨fun _ _ h => by cases h; rfl, fun _ => rfl⟩
theorem extl (a0) : Statement (.extl a0) := ⟨fun _ _ h => by cases h; rfl, fun _ => rfl⟩
theorem fadd (a0) : Statement (.fadd a0) := ⟨fun _ _ h => by cases h; rfl, fun _ => rfl⟩
theorem fsub (a0) : Statement (.fsub a0) := ⟨fun _ _ h => by cases h; rfl, fun _ => rfl⟩
theorem fmul (a0) : Statement (.fmul a0) := ⟨fun _ _ h => by cases h; rfl, fun _ => rfl⟩
theorem fma (a0) : Statement (.fma a0) := ⟨fun _ _ h => by cases h; rfl, fun _ => rfl⟩
theorem fmin (a0) : Statement (.fmin a0) := ⟨fun _ _ h => by cases h; rfl, fun _ => rfl⟩
theorem fmax (a0) : Statement (.fmax a0) := ⟨fun _ _ h => by cases h; rfl, fun _ => rfl⟩
theorem fabs (a0) : Statement (.fabs a0) := ⟨fun _ _ h => by cases h; rfl, fun _ => rfl⟩
theorem fneg (a0) : Statement (.fneg a0) := ⟨fun _ _ h => by cases h; rfl, fun _ => rfl⟩
theorem fcmpEq (a0) : Statement (.fcmpEq a0) := ⟨fun _ _ h => by cases h; rfl, fun _ => rfl⟩
theorem fcmpLt (a0) : Statement (.fcmpLt a0) := ⟨fun _ _ h => by cases h; rfl, fun _ => rfl⟩
theorem fcmpLe (a0) : Statement (.fcmpLe a0) := ⟨fun _ _ h => by cases h; rfl, fun _ => rfl⟩
theorem fcmpUn (a0) : Statement (.fcmpUn a0) := ⟨fun _ _ h => by cases h; rfl, fun _ => rfl⟩
theorem fdiv (a0) : Statement (.fdiv a0) := ⟨fun _ _ h => by cases h; rfl, fun _ => rfl⟩
theorem fsqrt (a0) : Statement (.fsqrt a0) := ⟨fun _ _ h => by cases h; rfl, fun _ => rfl⟩
theorem frcp (a0) : Statement (.frcp a0) := ⟨fun _ _ h => by cases h; rfl, fun _ => rfl⟩
theorem frsq (a0) : Statement (.frsq a0) := ⟨fun _ _ h => by cases h; rfl, fun _ => rfl⟩
theorem fexp2 (a0) : Statement (.fexp2 a0) := ⟨fun _ _ h => by cases h; rfl, fun _ => rfl⟩
theorem flog2 (a0) : Statement (.flog2 a0) := ⟨fun _ _ h => by cases h; rfl, fun _ => rfl⟩
theorem ftanh (a0) : Statement (.ftanh a0) := ⟨fun _ _ h => by cases h; rfl, fun _ => rfl⟩
theorem fround (a0) : Statement (.fround a0) := ⟨fun _ _ h => by cases h; rfl, fun _ => rfl⟩
theorem fclass (a0) : Statement (.fclass a0) := ⟨fun _ _ h => by cases h; rfl, fun _ => rfl⟩
theorem fscale (a0) : Statement (.fscale a0) := ⟨fun _ _ h => by cases h; rfl, fun _ => rfl⟩
theorem cvt (a0) : Statement (.cvt a0) := ⟨fun _ _ h => by cases h; rfl, fun _ => rfl⟩
theorem retag (a0) : Statement (.retag a0) := ⟨fun _ _ h => by cases h; rfl, fun _ => rfl⟩
theorem pack (a0) : Statement (.pack a0) := ⟨fun _ _ h => by cases h; rfl, fun _ => rfl⟩
theorem unpack (a0) : Statement (.unpack a0) := ⟨fun _ _ h => by cases h; rfl, fun _ => rfl⟩
theorem pbq (a0) : Statement (.pbq a0) := ⟨fun _ _ h => by cases h; rfl, fun _ => rfl⟩
theorem pbexpGet (a0) : Statement (.pbexpGet a0) := ⟨fun _ _ h => by cases h; rfl, fun _ => rfl⟩
theorem pbexpSet (a0) : Statement (.pbexpSet a0) := ⟨fun _ _ h => by cases h; rfl, fun _ => rfl⟩
theorem rng (a0) : Statement (.rng a0) := ⟨fun _ _ h => by cases h; rfl, fun _ => rfl⟩
theorem wld (a0) : Statement (.wld a0) := ⟨fun _ _ h => by cases h; rfl, fun _ => rfl⟩
theorem wldt (a0) : Statement (.wldt a0) := ⟨fun _ _ h => by cases h; rfl, fun _ => rfl⟩
theorem wclr (a0) : Statement (.wclr a0) := ⟨fun _ _ h => by cases h; rfl, fun _ => rfl⟩
theorem mma (a0) : Statement (.mma a0) := ⟨fun _ _ h => by cases h; rfl, fun _ => rfl⟩
theorem mmz (a0) : Statement (.mmz a0) := ⟨fun _ _ h => by cases h; rfl, fun _ => rfl⟩
theorem lds (a0) : Statement (.lds a0) := ⟨fun _ _ h => by cases h; rfl, fun _ => rfl⟩
theorem sts (a0) : Statement (.sts a0) := ⟨fun _ _ h => by cases h; rfl, fun _ => rfl⟩
theorem ldg (a0) : Statement (.ldg a0) := ⟨fun _ _ h => by cases h; rfl, fun _ => rfl⟩
theorem stg (a0) : Statement (.stg a0) := ⟨fun _ _ h => by cases h; rfl, fun _ => rfl⟩
theorem atomAdd (a0) : Statement (.atomAdd a0) := ⟨fun _ _ h => by cases h; rfl, fun _ => rfl⟩
theorem atomMin (a0) : Statement (.atomMin a0) := ⟨fun _ _ h => by cases h; rfl, fun _ => rfl⟩
theorem atomMax (a0) : Statement (.atomMax a0) := ⟨fun _ _ h => by cases h; rfl, fun _ => rfl⟩
theorem atomXchg (a0) : Statement (.atomXchg a0) := ⟨fun _ _ h => by cases h; rfl, fun _ => rfl⟩
theorem atomCas (a0) : Statement (.atomCas a0) := ⟨fun _ _ h => by cases h; rfl, fun _ => rfl⟩
theorem atomAnd (a0) : Statement (.atomAnd a0) := ⟨fun _ _ h => by cases h; rfl, fun _ => rfl⟩
theorem atomOr (a0) : Statement (.atomOr a0) := ⟨fun _ _ h => by cases h; rfl, fun _ => rfl⟩
theorem feSet (a0) : Statement (.feSet a0) := ⟨fun _ _ h => by cases h; rfl, fun _ => rfl⟩
theorem feClr (a0) : Statement (.feClr a0) := ⟨fun _ _ h => by cases h; rfl, fun _ => rfl⟩
theorem feTest (a0) : Statement (.feTest a0) := ⟨fun _ _ h => by cases h; rfl, fun _ => rfl⟩
theorem ringRes (a0) : Statement (.ringRes a0) := ⟨fun _ _ h => by cases h; rfl, fun _ => rfl⟩
theorem ringPub (a0) : Statement (.ringPub a0) := ⟨fun _ _ h => by cases h; rfl, fun _ => rfl⟩
theorem ringPop (a0) : Statement (.ringPop a0) := ⟨fun _ _ h => by cases h; rfl, fun _ => rfl⟩
theorem ringPeek (a0) : Statement (.ringPeek a0) := ⟨fun _ _ h => by cases h; rfl, fun _ => rfl⟩
theorem ringClose (a0) : Statement (.ringClose a0) := ⟨fun _ _ h => by cases h; rfl, fun _ => rfl⟩
theorem ringStat (a0) : Statement (.ringStat a0) := ⟨fun _ _ h => by cases h; rfl, fun _ => rfl⟩
theorem botGive (a0) : Statement (.botGive a0) := ⟨fun _ _ h => by cases h; rfl, fun _ => rfl⟩
theorem botTake (a0) : Statement (.botTake a0) := ⟨fun _ _ h => by cases h; rfl, fun _ => rfl⟩
theorem baste (a0) : Statement (.baste a0) := ⟨fun _ _ h => by cases h; rfl, fun _ => rfl⟩
theorem hem (a0) : Statement (.hem a0) := ⟨fun _ _ h => by cases h; rfl, fun _ => rfl⟩
theorem pressTest (a0) : Statement (.pressTest a0) := ⟨fun _ _ h => by cases h; rfl, fun _ => rfl⟩
theorem basteFinal (a0) : Statement (.basteFinal a0) := ⟨fun _ _ h => by cases h; rfl, fun _ => rfl⟩
theorem sbar (a0) : Statement (.sbar a0) := ⟨fun _ _ h => by cases h; rfl, fun _ => rfl⟩
theorem fence (a0) : Statement (.fence a0) := ⟨fun _ _ h => by cases h; rfl, fun _ => rfl⟩
theorem tlWait (a0) : Statement (.tlWait a0) := ⟨fun _ _ h => by cases h; rfl, fun _ => rfl⟩
theorem tlRead (a0) : Statement (.tlRead a0) := ⟨fun _ _ h => by cases h; rfl, fun _ => rfl⟩
theorem lotNew (a0) : Statement (.lotNew a0) := ⟨fun _ _ h => by cases h; rfl, fun _ => rfl⟩
theorem lotEnd (a0) : Statement (.lotEnd a0) := ⟨fun _ _ h => by cases h; rfl, fun _ => rfl⟩
theorem teamid (a0) : Statement (.teamid a0) := ⟨fun _ _ h => by cases h; rfl, fun _ => rfl⟩
theorem tbar (a0) : Statement (.tbar a0) := ⟨fun _ _ h => by cases h; rfl, fun _ => rfl⟩
theorem launch (a0) : Statement (.launch a0) := ⟨fun _ _ h => by cases h; rfl, fun _ => rfl⟩
theorem clkrd (a0) : Statement (.clkrd a0) := ⟨fun _ _ h => by cases h; rfl, fun _ => rfl⟩
theorem rgAlloc (a0) (a1) (a2) : Statement (.rgAlloc a0 a1 a2) := of_no_parts rfl
theorem rgFree (a0) (a1) : Statement (.rgFree a0 a1) := of_no_parts rfl
theorem rgPlace (a0) (a1) (a2) : Statement (.rgPlace a0 a1 a2) := of_no_parts rfl
theorem rgLoad (a0) (a1) (a2) : Statement (.rgLoad a0 a1 a2) := of_no_parts rfl
theorem rgStart (a0) (a1) (a2) : Statement (.rgStart a0 a1 a2) := of_no_parts rfl
theorem rgStop (a0) (a1) : Statement (.rgStop a0 a1) := of_no_parts rfl
theorem rgDrain (a0) (a1) : Statement (.rgDrain a0 a1) := of_no_parts rfl
theorem rgSave (a0) (a1) (a2) : Statement (.rgSave a0 a1 a2) := of_no_parts rfl
theorem rgRestore (a0) (a1) (a2) : Statement (.rgRestore a0 a1 a2) := of_no_parts rfl
theorem rgKill (a0) (a1) : Statement (.rgKill a0 a1) := of_no_parts rfl
theorem rgShut (a0) (a1) : Statement (.rgShut a0 a1) := of_no_parts rfl
theorem rgStat (a0) (a1) (a2) : Statement (.rgStat a0 a1 a2) := of_no_parts rfl
theorem lotSweep (a0) : Statement (.lotSweep a0) := of_no_parts rfl
theorem cpStart (a0) (a1) (a2) : Statement (.cpStart a0 a1 a2) := of_no_parts rfl
theorem cpQuery (a0) (a1) (a2) : Statement (.cpQuery a0 a1 a2) := of_no_parts rfl
theorem coreTlRead (a0) (a1) : Statement (.coreTlRead a0 a1) := of_no_parts rfl
theorem coreTlWait (a0) (a1) (a2) : Statement (.coreTlWait a0 a1 a2) := of_no_parts rfl
theorem tlAdd (a0) (a1) (a2) : Statement (.tlAdd a0 a1 a2) := of_no_parts rfl
theorem coreLaunch (a0) (a1) (a2) : Statement (.coreLaunch a0 a1 a2) := of_no_parts rfl
theorem fqPop (a0) (a1) : Statement (.fqPop a0 a1) := of_no_parts rfl
theorem fwSet (a0) (a1) (a2) : Statement (.fwSet a0 a1 a2) := of_no_parts rfl
theorem ptInv (a0) (a1) (a2) : Statement (.ptInv a0 a1 a2) := of_no_parts rfl
theorem dbgRd (a0) (a1) (a2) : Statement (.dbgRd a0 a1 a2) := of_no_parts rfl
theorem dbgWr (a0) (a1) (a2) : Statement (.dbgWr a0 a1 a2) := of_no_parts rfl
theorem ldacqW (a0) (a1) (a2) : Statement (.ldacqW a0 a1 a2) := of_no_parts rfl
theorem ldacqD (a0) (a1) (a2) : Statement (.ldacqD a0 a1 a2) := of_no_parts rfl
theorem strelW (a0) (a1) (a2) : Statement (.strelW a0 a1 a2) := of_no_parts rfl
theorem strelD (a0) (a1) (a2) : Statement (.strelD a0 a1 a2) := of_no_parts rfl
theorem fenceP (a0) (a1) : Statement (.fenceP a0 a1) := of_no_parts rfl
theorem monWait (a0) (a1) (a2) (a3) (a4) : Statement (.monWait a0 a1 a2 a3 a4) := of_no_parts rfl
theorem unassignedXphido (a0) : Statement (.unassignedXphido a0) := of_no_parts rfl
theorem registerWrite (a0) (a1) : Statement (.registerWrite a0 a1) := of_no_parts rfl
theorem coldReset : Statement .coldReset := of_no_parts rfl
theorem wipeComplete (a0) (a1) : Statement (.wipeComplete a0 a1) := of_no_parts rfl
theorem imageVerifyDone (a0) : Statement (.imageVerifyDone a0) := of_no_parts rfl
theorem digestExchange (a0) : Statement (.digestExchange a0) := of_no_parts rfl
theorem bootPathTimeout : Statement .bootPathTimeout := of_no_parts rfl
theorem seamTraining (a0) (a1) : Statement (.seamTraining a0 a1) := of_no_parts rfl
theorem spdmRequest (a0) (a1) : Statement (.spdmRequest a0 a1) := of_no_parts rfl
theorem lifecycleToken (a0) (a1) (a2) (a3) (a4) : Statement (.lifecycleToken a0 a1 a2 a3 a4) := of_no_parts rfl
theorem recgoWrite (a0) (a1) : Statement (.recgoWrite a0 a1) := of_no_parts rfl
theorem patchClockGate (a0) (a1) : Statement (.patchClockGate a0 a1) := of_no_parts rfl
theorem powerGatePatch (a0) (a1) : Statement (.powerGatePatch a0 a1) := of_no_parts rfl
theorem powerGateWake (a0) (a1) : Statement (.powerGateWake a0 a1) := of_no_parts rfl
theorem defmapWrite (a0) (a1) (a2) : Statement (.defmapWrite a0 a1 a2) := of_no_parts rfl
theorem flitReceive (a0) (a1) (a2) (a3) (a4) : Statement (.flitReceive a0 a1 a2 a3 a4) := of_no_parts rfl
theorem flitReplay (a0) : Statement (.flitReplay a0) := of_no_parts rfl
theorem replayTimeout (a0) : Statement (.replayTimeout a0) := of_no_parts rfl
theorem retrainingLock (a0) (a1) : Statement (.retrainingLock a0 a1) := of_no_parts rfl
theorem retrainingTimeout (a0) (a1) : Statement (.retrainingTimeout a0 a1) := of_no_parts rfl
theorem crossingTableResume (a0) (a1) : Statement (.crossingTableResume a0 a1) := of_no_parts rfl
theorem seamstClr (a0) (a1) : Statement (.seamstClr a0 a1) := of_no_parts rfl
theorem seamstFailirqClear (a0) (a1) : Statement (.seamstFailirqClear a0 a1) := of_no_parts rfl
theorem modidWrite (a0) (a1) : Statement (.modidWrite a0 a1) := of_no_parts rfl
theorem powerStateChange (a0) : Statement (.powerStateChange a0) := of_no_parts rfl
theorem monitorSample (a0) (a1) (a2) (a3) (a4) (a5) : Statement (.monitorSample a0 a1 a2 a3 a4 a5) := of_no_parts rfl
theorem throttleRaise (a0) : Statement (.throttleRaise a0) := of_no_parts rfl
theorem pwrlimWrite (a0) (a1) : Statement (.pwrlimWrite a0 a1) := of_no_parts rfl
theorem inboundPostedWrite (a0) (a1) (a2) (a3) (a4) (a5) : Statement (.inboundPostedWrite a0 a1 a2 a3 a4 a5) := of_no_parts rfl
theorem inboundWriteAck (a0) (a1) : Statement (.inboundWriteAck a0 a1) := of_no_parts rfl
theorem inboundRead (a0) (a1) (a2) (a3) (a4) (a5) : Statement (.inboundRead a0 a1 a2 a3 a4 a5) := of_no_parts rfl
theorem inboundAtomicop (a0) (a1) (a2) (a3) (a4) : Statement (.inboundAtomicop a0 a1 a2 a3 a4) := of_no_parts rfl
theorem inboundHoldTimeout (a0) (a1) : Statement (.inboundHoldTimeout a0 a1) := of_no_parts rfl
theorem atsInvalidation (a0) (a1) : Statement (.atsInvalidation a0 a1) := of_no_parts rfl
theorem functionLevelReset (a0) (a1) : Statement (.functionLevelReset a0 a1) := of_no_parts rfl
theorem mslotWrite (a0) (a1) (a2) (a3) : Statement (.mslotWrite a0 a1 a2 a3) := of_no_parts rfl
theorem mbxdbWrite (a0) (a1) (a2) : Statement (.mbxdbWrite a0 a1 a2) := of_no_parts rfl
theorem msgLaunch (a0) (a1) (a2) (a3) : Statement (.msgLaunch a0 a1 a2 a3) := of_no_parts rfl
theorem msgCancel (a0) (a1) (a2) (a3) : Statement (.msgCancel a0 a1 a2 a3) := of_no_parts rfl
theorem msgMapwin (a0) (a1) (a2) (a3) : Statement (.msgMapwin a0 a1 a2 a3) := of_no_parts rfl
theorem msgQuery (a0) (a1) (a2) : Statement (.msgQuery a0 a1 a2) := of_no_parts rfl
theorem featAcceptWrite (a0) (a1) : Statement (.featAcceptWrite a0 a1) := of_no_parts rfl
theorem fncfgWrite (a0) (a1) (a2) : Statement (.fncfgWrite a0 a1 a2) := of_no_parts rfl
theorem winentWrite (a0) (a1) : Statement (.winentWrite a0 a1) := of_no_parts rfl
theorem winctlSync (a0) : Statement (.winctlSync a0) := of_no_parts rfl
theorem winctlSyncDone (a0) : Statement (.winctlSyncDone a0) := of_no_parts rfl
theorem winstClr (a0) (a1) : Statement (.winstClr a0 a1) := of_no_parts rfl
theorem ualinkPeerRequest (a0) (a1) (a2) (a3) : Statement (.ualinkPeerRequest a0 a1 a2 a3) := of_no_parts rfl
theorem sharedRangeWrite (a0) (a1) : Statement (.sharedRangeWrite a0 a1) := of_no_parts rfl
theorem sharedRangeGrant (a0) (a1) : Statement (.sharedRangeGrant a0 a1) := of_no_parts rfl
theorem sharedRangeRead (a0) (a1) (a2) : Statement (.sharedRangeRead a0 a1 a2) := of_no_parts rfl
theorem sharedRangeInvalidate (a0) (a1) : Statement (.sharedRangeInvalidate a0 a1) := of_no_parts rfl
theorem sharedInvalidateAck (a0) (a1) : Statement (.sharedInvalidateAck a0 a1) := of_no_parts rfl
theorem expentCommit (a0) (a1) : Statement (.expentCommit a0 a1) := of_no_parts rfl
theorem srentCommit (a0) (a1) : Statement (.srentCommit a0 a1) := of_no_parts rfl
theorem srentClearDone (a0) (a1) : Statement (.srentClearDone a0 a1) := of_no_parts rfl
theorem ualinkPortDown (a0) (a1) : Statement (.ualinkPortDown a0 a1) := of_no_parts rfl
theorem roceRequest (a0) (a1) (a2) (a3) : Statement (.roceRequest a0 a1 a2 a3) := of_no_parts rfl
theorem launchFrame (a0) (a1) : Statement (.launchFrame a0 a1) := of_no_parts rfl
theorem launchFrameHomeCheck (a0) : Statement (.launchFrameHomeCheck a0) := of_no_parts rfl
theorem tenantBucketRefill (a0) (a1) : Statement (.tenantBucketRefill a0 a1) := of_no_parts rfl
theorem lfdropClr (a0) (a1) : Statement (.lfdropClr a0 a1) := of_no_parts rfl
theorem tnentCommit (a0) (a1) : Statement (.tnentCommit a0 a1) := of_no_parts rfl
theorem partcfgWrite (a0) (a1) : Statement (.partcfgWrite a0 a1) := of_no_parts rfl
theorem xpartWrite (a0) (a1) (a2) : Statement (.xpartWrite a0 a1 a2) := of_no_parts rfl
theorem lrcDone (a0) (a1) : Statement (.lrcDone a0 a1) := of_no_parts rfl
theorem partitionReset (a0) : Statement (.partitionReset a0) := of_no_parts rfl
theorem ftlgcWrite (a0) (a1) : Statement (.ftlgcWrite a0 a1) := of_no_parts rfl
theorem ftlgcHeldClear (a0) : Statement (.ftlgcHeldClear a0) := of_no_parts rfl
theorem ftlGcWindow (a0) (a1) (a2) (a3) : Statement (.ftlGcWindow a0 a1 a2 a3) := of_no_parts rfl
theorem launchIssue (a0) : Statement (.launchIssue a0) := of_no_parts rfl
theorem imageLoadComplete (a0) : Statement (.imageLoadComplete a0) := of_no_parts rfl
theorem dispatcherSummary (a0) : Statement (.dispatcherSummary a0) := of_no_parts rfl
theorem ageingPromotion (a0) : Statement (.ageingPromotion a0) := of_no_parts rfl
theorem sliceEnd (a0) : Statement (.sliceEnd a0) := of_no_parts rfl
theorem switchTick (a0) (a1) : Statement (.switchTick a0 a1) := of_no_parts rfl
theorem switchReady (a0) (a1) : Statement (.switchReady a0 a1) := of_no_parts rfl
theorem switchDeadline (a0) : Statement (.switchDeadline a0) := of_no_parts rfl
theorem switchCommit (a0) (a1) : Statement (.switchCommit a0 a1) := of_no_parts rfl
theorem switchAbort (a0) (a1) : Statement (.switchAbort a0 a1) := of_no_parts rfl
theorem vdcfgWrite (a0) (a1) (a2) : Statement (.vdcfgWrite a0 a1 a2) := of_no_parts rfl
theorem launchCompletion (a0) : Statement (.launchCompletion a0) := of_no_parts rfl
theorem instanceRetire (a0) : Statement (.instanceRetire a0) := of_no_parts rfl
theorem seamFailureMessage (a0) (a1) : Statement (.seamFailureMessage a0 a1) := of_no_parts rfl
theorem seamFailureStopTimeout (a0) : Statement (.seamFailureStopTimeout a0) := of_no_parts rfl
theorem quiescence (a0) : Statement (.quiescence a0) := of_no_parts rfl
theorem frontSettled (a0) : Statement (.frontSettled a0) := of_no_parts rfl
theorem pdfqstClr (a0) : Statement (.pdfqstClr a0) := of_no_parts rfl
theorem shutIdleTimeout (a0) : Statement (.shutIdleTimeout a0) := of_no_parts rfl
theorem tokenHop (a0) (a1) (a2) : Statement (.tokenHop a0 a1 a2) := of_no_parts rfl
theorem dynamicPacketHop (a0) (a1) : Statement (.dynamicPacketHop a0 a1) := of_no_parts rfl
theorem dnwgtWrite (a0) (a1) (a2) : Statement (.dnwgtWrite a0 a1 a2) := of_no_parts rfl
theorem agElement (a0) (a1) (a2) : Statement (.agElement a0 a1 a2) := of_no_parts rfl
theorem agConfigToken (a0) (a1) : Statement (.agConfigToken a0 a1) := of_no_parts rfl
theorem globalRequestArrival (a0) (a1) (a2) (a3) : Statement (.globalRequestArrival a0 a1 a2 a3) := of_no_parts rfl
theorem slogctlKick (a0) (a1) (a2) : Statement (.slogctlKick a0 a1 a2) := of_no_parts rfl
theorem slogctlDiscard (a0) (a1) (a2) : Statement (.slogctlDiscard a0 a1 a2) := of_no_parts rfl
theorem dmapWrite (a0) (a1) (a2) : Statement (.dmapWrite a0 a1 a2) := of_no_parts rfl
theorem vdasidWrite (a0) (a1) (a2) : Statement (.vdasidWrite a0 a1 a2) := of_no_parts rfl
theorem sweepComplete (a0) : Statement (.sweepComplete a0) := of_no_parts rfl
theorem copyLine (a0) (a1) (a2) (a3) : Statement (.copyLine a0 a1 a2 a3) := of_no_parts rfl
theorem copyComplete (a0) : Statement (.copyComplete a0) := of_no_parts rfl
theorem requestLands (a0) : Statement (.requestLands a0) := of_no_parts rfl
theorem pendingWaitComplete (a0) (a1) : Statement (.pendingWaitComplete a0 a1) := of_no_parts rfl
theorem tbarArrival (a0) (a1) : Statement (.tbarArrival a0 a1) := of_no_parts rfl
theorem feSetPerform (a0) : Statement (.feSetPerform a0) := of_no_parts rfl
theorem bastePublish (a0) (a1) : Statement (.bastePublish a0 a1) := of_no_parts rfl
theorem botTokenSend (a0) (a1) : Statement (.botTokenSend a0 a1) := of_no_parts rfl
theorem rgDrainTimeout (a0) (a1) : Statement (.rgDrainTimeout a0 a1) := of_no_parts rfl
theorem xpirqClear (a0) (a1) (a2) : Statement (.xpirqClear a0 a1 a2) := of_no_parts rfl
theorem apertureAccess (a0) (a1) (a2) : Statement (.apertureAccess a0 a1 a2) := of_no_parts rfl
theorem remoteMeAccess (a0) (a1) : Statement (.remoteMeAccess a0 a1) := of_no_parts rfl
theorem outboundHostCompletion (a0) (a1) (a2) : Statement (.outboundHostCompletion a0 a1 a2) := of_no_parts rfl
theorem fieldLogFlush : Statement .fieldLogFlush := of_no_parts rfl
theorem powerStateExitDone : Statement .powerStateExitDone := of_no_parts rfl

end Sys2Proof.Laws.Encodes
end

