-- ==== Sys2Proof/Safety.lean ====
section
/-!
DEFINITION. What holds of every state of a run: memory in its canonical form, reserved register bits 0, lot 0 not
live, the shape of a hart; and the life-cycle order.
-/
namespace Sys2Proof.Machine

/-- x0 is not stored, so it reads 0; the pc is even; the reserved bits of XPASID and XPSEG are 0 (R376, R378). -/
structure Hart.Ok (h : Hart) : Prop where
  x0 : h.x.get? 0 = none
  even : h.pc.getLsbD 0 = false
  asid : h.xpasid &&& ~~~(bitsMask 16 0) = 0
  seg : ∀ e ∈ h.xpseg, e.2 &&& ~~~(bitsMask 63 44) = 0

/-- Stored bits of registers are bits that the register map gives a meaning (R4). -/
def State.regsOk (s : State) : Prop := ∀ e ∈ s.regs, e.2 &&& ~~~(regMask e.1.1 e.1.2) = 0

/-- Lot 0 is null and never live (R200). -/
def State.lotsOk (s : State) : Prop := ∀ e ∈ s.lots, (0 : Lot) ∉ e.2.live

def State.hartsOk (s : State) : Prop := ∀ e ∈ s.harts, e.2.Ok

/-- The invariant of the module. -/
structure State.Inv (s : State) : Prop where
  mem : s.mem.wf = true
  regs : s.regsOk
  lots : s.lotsOk
  harts : s.hartsOk

/-- Life-cycle states in their order (R71): none is left toward a lower one. -/
def lcsLe (a b : BitVec 2) : Prop := a.toNat ≤ b.toNat

/-! ### Firings -/

/-- The instruction is enabled where the focus stands, and its sources read as a, b and c (R152, R161). -/
structure Fires (s : State) (i : Instr) (w : CEWord) (e : Env) (a b c : Src) : Prop where
  env : s.env = some e
  enabled : e.enabled i w = true
  sa : e.src w w.sa = .ok a
  sb : e.src w w.sb = .ok b
  sc : e.src w w.sc = .ok c

/-- The same with data on every source: no marker passes (R165). -/
structure FiresData (s : State) (i : Instr) (w : CEWord) (e : Env) (a b c : Src) : Prop extends
    Fires s i w e a b c where
  data : markOf [a, b, c] = none

/-- The CE of the firing's cell in a state. -/
def Env.ceIn (e : Env) (t : State) : Ce := (t.cells.get {} e.id).ce

/-- A value as a vector register or vector output takes it (R313). -/
def Val.spreadTo (f : Fmt) : Val → VecVal
  | .vec x => x
  | .scal x => spread f x

/-- What the destination holds after a data result: value, version, presence and lot of a register, a predicate bit,
or one token more in each output named (R160, R164, R263). -/
structure Delivered (c c' : Ce) (w : CEWord) (t : Stamp) (x : Val) : Prop where
  v : ∀ i, w.dst = .v i →
    c'.v.get {} i.val = { val := x.spreadTo t.fmt, ver := t.ver, pres := true, lot := t.own, since := t.now }
  s : ∀ i, w.dst = .s i → c'.s.get {} i.val = { val := x.word, ver := t.ver, pres := true, lot := t.own, since := t.now }
  p : ∀ i, w.dst = .p i → (w.pset = true → w.pdst.toNat ≠ i.val) → c'.p.getLsbD i.val = (x.word != 0)
  outs : ∀ o ∈ outsOf w.dst, c'.outList o =
    c.outList o ++ [.filled { body := bodyFor o t.fmt x, ctx := t.ctx, ver := verFor o t.ver, since := t.now }]

/-- Operands that a firing consumes: sources by DEQ, and PRA by DEQ[43] (R156, R157). -/
def dropsOf (w : CEWord) : List Opnd := consumesOf w ++ dropsPra w

/-- A channel consumed has lost its head token, a register consumed its presence and nothing else (R156, R157). -/
structure Consumed (c c' : Ce) (w : CEWord) : Prop where
  vi : ∀ i, .vi i ∈ consumesOf w → c'.vi.get [] i.val = (c.vi.get [] i.val).tail
  si : ∀ i, .si i ∈ consumesOf w → c'.si.get [] i.val = (c.si.get [] i.val).tail
  ci : ∀ i, .ci i ∈ consumesOf w → c'.ci.get [] i.val = (c.ci.get [] i.val).tail
  v : ∀ i, .v i ∈ dropsOf w → w.dst ≠ .v i → c'.v.get {} i.val = { c.v.get {} i.val with pres := false }
  s : ∀ i, .s i ∈ dropsOf w → w.dst ≠ .s i → c'.s.get {} i.val = { c.s.get {} i.val with pres := false }

/-- A firing that completed with the result r: what it wrote, consumed and set (R150, R261). -/
structure Yields (t : State) (e : Env) (w : CEWord) (srcs : List Src) (r : Res) : Prop where
  delivered : Delivered e.c.ce (e.ceIn t) w (e.stamp w (verOf srcs)) r.val
  consumed : Consumed e.c.ce (e.ceIn t) w
  pset : w.pset = true → (e.ceIn t).p.getLsbD w.pdst.toNat = r.pred

/-- What a firing with destination `dst` leaves alone in its CE: every register but the destination (presence
excepted where it is consumed), every channel not consumed, every output not named, every predicate but the
destination and PDST, weight slots, code, modes and waits. -/
structure CeKept (c c' : Ce) (w : CEWord) : Prop where
  v : ∀ i, w.dst ≠ .v i → .v i ∉ dropsOf w → c'.v.get {} i.val = c.v.get {} i.val
  s : ∀ i, w.dst ≠ .s i → .s i ∉ dropsOf w → c'.s.get {} i.val = c.s.get {} i.val
  vi : ∀ i, .vi i ∉ consumesOf w → c'.vi.get [] i.val = c.vi.get [] i.val
  si : ∀ i, .si i ∉ consumesOf w → c'.si.get [] i.val = c.si.get [] i.val
  ci : ∀ i, .ci i ∉ consumesOf w → c'.ci.get [] i.val = c.ci.get [] i.val
  outs : ∀ o, o ∉ outsOf w.dst → c'.outList o = c.outList o
  p : ∀ k : Fin 8, w.dst ≠ .p k → (w.pset = true → w.pdst.toNat ≠ k.val) → c'.p.getLsbD k.val = c.p.getLsbD k.val
  slots : c'.slots = c.slots
  weights : c'.w = c.w
  rlmode : c'.rlmode = c.rlmode
  halted : c'.halted = c.halted
  waits : c'.waits = c.waits

/-- Outside its cell a firing that issues nothing leaves the state alone: other cells, the cell's switch, every other
region and every other part of the state; of its region it moves the time of the last firing, and under STEPOVER it
settles the held fault (R148, R150). -/
structure FiresIn (s t : State) (e : Env) : Prop where
  rest : t = { s with cells := t.cells, regions := t.regions }
  cells : ∀ c, c ≠ e.id → t.cells.get {} c = s.cells.get {} c
  sw : (t.cells.get {} e.id).sw = (s.cells.get {} e.id).sw
  regions : ∀ h, h ≠ e.spot.h → t.regions.get? h = s.regions.get? h
  region : e.suppress = none → t.regions.get? e.spot.h =
    (s.regions.get? e.spot.h).map fun r => { r with lastActive := s.cycle }

/-- One that only computes leaves the cell's memory element alone too. -/
structure OnlyFires (s t : State) (e : Env) : Prop extends FiresIn s t e where
  me : (t.cells.get {} e.id).me = (s.cells.get {} e.id).me

/-- What a firing that completes leaves beside its result: its operands consumed, the rest of its CE and of the state
as they were. -/
structure Completes (s t : State) (e : Env) (w : CEWord) : Prop where
  consumed : Consumed e.c.ce (e.ceIn t) w
  kept : CeKept e.c.ce (e.ceIn t) w
  only : OnlyFires s t e

/-- The word without its destination: the firing writes no result. -/
def noDst (w : CEWord) : CEWord := { w with dst := .zero }

/-- A marker reaches every output named, and no register named by DST (R160, R165, R288). -/
structure MarksOut (c c' : Ce) (w : CEWord) (body : Opnd → Body) (t : Stamp) (m : Marker) : Prop where
  outs : ∀ o ∈ outsOf w.dst, c'.outList o =
    c.outList o ++ [.filled { body := body o, ctx := t.ctx, ver := verFor o t.ver, mark := m, since := t.now }]
  v : ∀ i, w.dst = .v i → .v i ∉ dropsOf w → c'.v.get {} i.val = c.v.get {} i.val
  s : ∀ i, w.dst = .s i → .s i ∉ dropsOf w → c'.s.get {} i.val = c.s.get {} i.val
  p : ∀ k : Fin 8, c'.p.getLsbD k.val = c.p.getLsbD k.val

/-- A marker passed (R165). -/
abbrev Passes (s t : State) (e : Env) (w : CEWord) (ver : BitVec 4) (m : Marker) : Prop :=
  MarksOut e.c.ce (e.ceIn t) w emptyBody (e.stamp w ver) m ∧ Completes s t e w

/-- A source forwarded whole (R288): data as a result, a marker with the source's payload. -/
structure Forwards (c c' : Ce) (w : CEWord) (t : Stamp) (a : Src) : Prop where
  data : a.mark = .data → Delivered c c' w t a.val
  outs : a.mark ≠ .data → ∀ o ∈ outsOf w.dst, c'.outList o =
    c.outList o ++ [.filled { body := bodyFor o t.fmt a.val, ctx := t.ctx, ver := verFor o t.ver, mark := a.mark, since := t.now }]
  v : a.mark ≠ .data → ∀ i, w.dst = .v i → .v i ∉ dropsOf w → c'.v.get {} i.val = c.v.get {} i.val
  s : a.mark ≠ .data → ∀ i, w.dst = .s i → .s i ∉ dropsOf w → c'.s.get {} i.val = c.s.get {} i.val

/-- An input taken: a channel has lost its head, a register its presence (R295). -/
def Took (c c' : Ce) : Opnd → Prop
  | .vi i => c'.vi.get [] i.val = (c.vi.get [] i.val).tail
  | .si i => c'.si.get [] i.val = (c.si.get [] i.val).tail
  | .ci i => c'.ci.get [] i.val = (c.ci.get [] i.val).tail
  | .v i => c'.v.get {} i.val = { c.v.get {} i.val with pres := false }
  | .s i => c'.s.get {} i.val = { c.s.get {} i.val with pres := false }
  | _ => True

/-- An input not taken. -/
def Untaken (c c' : Ce) : Opnd → Prop
  | .vi i => c'.vi.get [] i.val = c.vi.get [] i.val
  | .si i => c'.si.get [] i.val = c.si.get [] i.val
  | .ci i => c'.ci.get [] i.val = c.ci.get [] i.val
  | .v i => c'.v.get {} i.val = c.v.get {} i.val
  | .s i => c'.s.get {} i.val = c.s.get {} i.val
  | _ => True

/-- The predicate result r where PSET asks for it (R261). -/
def SetsPred (c' : Ce) (w : CEWord) (r : Bool) : Prop := w.pset = true → c'.p.getLsbD w.pdst.toNat = r

/-- A counter register holds x, stamped with the instance lot and present (R298, R299). -/
def Counts (e : Env) (t : State) (i : Fin 16) (x : Word) (ver : BitVec 4) : Prop :=
  (e.ceIn t).s.get {} i.val = { val := x, ver := ver, pres := true, lot := e.own, since := e.s.cycle }

/-! ### Memory elements -/

/-- The memory element of the firing's cell in a state. -/
def Env.meIn (e : Env) (t : State) : Me := (t.cells.get {} e.id).me

/-- A firing that completes on its own memory element, leaving it as m. -/
structure OnMe (s t : State) (e : Env) (w : CEWord) (m : Me) : Prop where
  fires : FiresIn s t e
  me : e.meIn t = m
  consumed : Consumed e.c.ce (e.ceIn t) w
  kept : CeKept e.c.ce (e.ceIn t) w

/-- The access is this cell's own (R353): no REMOTE, no bound bank, an offset that names a line of it, on which the
image says x. -/
structure OwnLine (e : Env) (w : CEWord) (off : Nat) (x : LineAcc) : Prop where
  here : w.remote = false
  unbound : (e.c.me.bank (off / 128 / 128)).bound = none
  inside : off < 0x20000
  acc : e.acc (off / 128) = some x

/-- Byte k of a line. -/
def Line.byteAt (l : Line) (k : Nat) : Byte := l.data.extractLsb' (8 * k) 8

/-- The scratchpad after a store to line n: other lines as before; the line is the instance's own, its bytes named by
`new` replaced, the others kept where the line was its own and zero where it was not (R203). -/
structure Stores (m m' : Me) (x : LineAcc) (n : Nat) (new : Nat → Option Byte) : Prop where
  rest : m' = { m with lines := m'.lines }
  others : ∀ k, k ≠ n → m'.line k = m.line k
  lot : (m'.line n).lot = x.own
  bytes : ∀ k, k < 128 → (m'.line n).byteAt k =
    (new k).getD (if (m.line n).isOwn x then (m.line n).byteAt k else 0)
  full : (m'.line n).full = ((m.line n).isOwn x && (m.line n).full)

/-- The value that a firing delivers to its destination, with its version. -/
abbrev Gives (e : Env) (t : State) (w : CEWord) (ver : BitVec 4) (x : Val) : Prop :=
  Delivered e.c.ce (e.ceIn t) w (e.stamp w ver) x

/-- What a read of n bytes at an offset finds in a line (R202): its bytes where the lot is the instance's own, zero in
a foreign line under mode Z. -/
def seenValue (l : Line) (x : LineAcc) (off n : Nat) : Nat := if l.isOwn x then l.bytes (off % 128) n else 0

/-- The read of a line goes through: own lot without an uncorrectable word, or a foreign line under mode Z. -/
def Readable (l : Line) (x : LineAcc) (off n : Nat) : Prop :=
  (l.isOwn x = true ∧ l.badAt (off % 128) n = false) ∨ (l.isOwn x = false ∧ x.mode = .z)

/-- A request issued by the firing (R353): one request more with this goal, return and state; the register destination
absent, an entry kept in each output named, the operands consumed; the packet stands at the cell's switch and nothing
else has changed. -/
structure Issues (s t : State) (e : Env) (w : CEWord) (q : Req) : Prop where
  reqs : t.reqs = s.reqs ++ [q]
  ident : q.id = s.nextId ∧ t.nextId = s.nextId + 1
  agent : q.agent = .ctx e.id e.ctx ∧ q.slot = e.slot ∧ q.region = some e.spot.h ∧ q.ctx = outCtx w ∧ q.fmt = w.fmt
  outs : ∀ o ∈ outsOf w.dst, (e.ceIn t).outList o = e.c.ce.outList o ++ [.reserved s.nextId]
  regV : ∀ i, w.dst = .v i → ((e.ceIn t).v.get {} i.val).pres = false
  regS : ∀ i, w.dst = .s i → ((e.ceIn t).s.get {} i.val).pres = false
  consumed : Consumed e.c.ce (e.ceIn t) w
  me : e.meIn t = e.c.me
  cells : ∀ c, c ≠ e.id → t.cells.get {} c = s.cells.get {} c
  nodes : ∀ c, c ≠ e.id → t.nodes.get {} c = s.nodes.get {} c
  regions : ∀ h, h ≠ e.spot.h → t.regions.get? h = s.regions.get? h
  rest : t = { s with reqs := t.reqs, nextId := t.nextId, cells := t.cells, nodes := t.nodes, regions := t.regions }

/-- A wait at SYSTEM scope for requests is made known (R228): they are marked, zero-length reads cover the posted writes
among them that have left by a PCIe port, and nothing else changes. -/
structure Announces (s t : State) (ids : List Nat) : Prop where
  reqs : t.reqs = s.reqs.map fun q => if ids.contains q.id then { q with sys := true } else q
  covered : ∀ x ∈ xDies, ∀ port, port < 2 → ∀ id ∈ ids, (id, port) ∉ (t.xdie x).posted
  rest : t = { s with reqs := t.reqs, xdies := t.xdies, outbox := t.outbox, nextId := t.nextId }

/-- The same where there is a wait, and it is one at SYSTEM scope. -/
def Announced (s t : State) (sc : Scope) (ids : List Nat) : Prop :=
  if sc = .system ∧ ids ≠ [] then Announces s t ids else t = s

/-- Integer and floating-point results of the atomics (R359): word, bits, old value, operand, new value. -/
def atomOps : List ((CEWord → Instr) × (CEWord → Nat → Nat → Nat → Nat → Nat)) :=
  let int (n x : Nat) : Int := (BitVec.ofNat n x).toInt
  let flt (w : CEWord) (x : Nat) : Exact := decodeBits w.fmt x 0 0
  [ (.atomAdd, fun w n o v _ => if w.fmt = .i32 then (o + v) % 2 ^ n
      else roundTo w.fmt w.rnd false ((flt w o).add w.rnd (flt w v)))
  , (.atomMin, fun w n o v _ => if w.fmt = .i32 then
        if w.uns then (if v < o then v else o) else if int n v < int n o then v else o
      else roundTo w.fmt .rne false ((flt w o).fmin (flt w v)))
  , (.atomMax, fun w n o v _ => if w.fmt = .i32 then
        if w.uns then (if o < v then v else o) else if int n o < int n v then v else o
      else roundTo w.fmt .rne false ((flt w o).fmax (flt w v)))
  , (.atomXchg, fun _ _ _ v _ => v)
  , (.atomCas, fun _ _ o v new => if o = v then new else o)
  , (.atomAnd, fun _ _ o v _ => o &&& v)
  , (.atomOr, fun _ _ o v _ => o ||| v) ]

/-! ### Results as the rules give them -/

/-- A result element by element on raw 32-bit values (R313, R314): one value when every source is of scalar class;
otherwise sixteen lanes under the AND of the masks, masked lanes zero, and a condition that holds in some computed
lane. -/
structure LaneResult (w : CEWord) (fmt : Fmt) (sb : DWord) (a b c : Val) (f : Word → Word → Word → Word)
    (p : Word → Word → Word → Bool) (r : Res) : Prop where
  scal : isVector w = false → r.val = .scal (f a.word b.word c.word) ∧ r.pred = p a.word b.word c.word
  vec : isVector w = true → ∃ v, r.val = .vec v ∧ v.mask = a.mask &&& b.mask &&& c.mask ∧ v.fmt = fmt ∧ v.sb = sb ∧
    (∀ i, i < 16 → v.lane i = if v.mask.getLsbD i then f (a.lane i) (b.lane i) (c.lane i) else 0) ∧
    (r.pred = true ↔ ∃ i, i < 16 ∧ v.mask.getLsbD i = true ∧ p (a.lane i) (b.lane i) (c.lane i) = true)

/-- An instruction with its element function and the condition of its predicate result. -/
abbrev LaneOp := (CEWord → Instr) × (Word → Word → Word → Word) × (Word → Word → Word → Bool)

/-- The clamped value of an exact sum or difference (R317). -/
def clampTo (lo hi x : Int) : Int := if x < lo then lo else if hi < x then hi else x

/-- R315, R317 and R318, less the bitwise instructions. -/
def arithOps : List LaneOp :=
  let no : Word → Word → Word → Bool := fun _ _ _ => false
  let ss : Int → Int := clampTo (-2 ^ 31) (2 ^ 31 - 1)
  let us : Int → Int := clampTo 0 (2 ^ 32 - 1)
  [ (.add, fun a b _ => a + b, no), (.sub, fun a b _ => a - b, no), (.mul, fun a b _ => a * b, no)
  , (.mulhs, fun a b _ => BitVec.ofInt 32 (a.toInt * b.toInt / 2 ^ 32), no)
  , (.mulhu, fun a b _ => BitVec.ofNat 32 (a.toNat * b.toNat / 2 ^ 32), no)
  , (.mad, fun a b c => a * b + c, no)
  , (.mins, fun a b _ => if a.toInt < b.toInt then a else b, no)
  , (.maxs, fun a b _ => if a.toInt < b.toInt then b else a, no)
  , (.minu, fun a b _ => if a.toNat < b.toNat then a else b, no)
  , (.maxu, fun a b _ => if a.toNat < b.toNat then b else a, no)
  , (.abs, fun a _ _ => BitVec.ofInt 32 |a.toInt|, fun a _ _ => a == 0x80000000), (.neg, fun a _ _ => 0 - a, no)
  , (.addSat, fun a b _ => BitVec.ofInt 32 (ss (a.toInt + b.toInt)),
      fun a b _ => decide (ss (a.toInt + b.toInt) ≠ a.toInt + b.toInt))
  , (.addSatu, fun a b _ => BitVec.ofInt 32 (us (a.toNat + b.toNat)),
      fun a b _ => decide (us (a.toNat + b.toNat) ≠ a.toNat + b.toNat))
  , (.subSat, fun a b _ => BitVec.ofInt 32 (ss (a.toInt - b.toInt)),
      fun a b _ => decide (ss (a.toInt - b.toInt) ≠ a.toInt - b.toInt))
  , (.subSatu, fun a b _ => BitVec.ofInt 32 (us (a.toNat - b.toNat)),
      fun a b _ => decide (us ((a.toNat : Int) - b.toNat) ≠ (a.toNat : Int) - b.toNat))
  , (.shl, fun a b _ => a <<< (b.toNat % 32), no), (.shr, fun a b _ => a >>> (b.toNat % 32), no)
  , (.sar, fun a b _ => a.sshiftRight (b.toNat % 32), no), (.rol, fun a b _ => a.rotateLeft (b.toNat % 32), no)
  , (.clz, fun a _ _ => BitVec.ofNat 32 (32 - (if a = 0 then 0 else Nat.log2 a.toNat + 1)), no)
  , (.popc, fun a _ _ => BitVec.ofNat 32 ((List.range 32).countP a.getLsbD), no) ]

/-- The bitwise instructions of R318. -/
def bitOps : List ((CEWord → Instr) × (Word → Word → Word)) :=
  [ (.and, fun a b => a &&& b), (.or, fun a b => a ||| b), (.xor, fun a b => a ^^^ b), (.andn, fun a b => a &&& ~~~b)
  , (.not, fun a _ => ~~~a) ]

/-- The compare instructions of R319. -/
def cmpOps : List ((CEWord → Instr) × (Word → Word → Bool)) :=
  [ (.cmpEq, fun a b => a == b), (.cmpNe, fun a b => a != b), (.cmpLt, fun a b => decide (a.toInt < b.toInt))
  , (.cmpLe, fun a b => decide (a.toInt ≤ b.toInt)), (.cmpLtu, fun a b => decide (a.toNat < b.toNat))
  , (.cmpLeu, fun a b => decide (a.toNat ≤ b.toNat)) ]

/-- The divisions of R316 without DZTRAP. -/
def divOps : List ((CEWord → Instr) × (Word → Word → Word)) :=
  [ (.divs, fun a b => if b = 0 then 0xFFFFFFFF else BitVec.ofInt 32 (a.toInt.tdiv b.toInt))
  , (.divu, fun a b => if b = 0 then 0xFFFFFFFF else BitVec.ofNat 32 (a.toNat / b.toNat))
  , (.rems, fun a b => if b = 0 then a else BitVec.ofInt 32 (a.toInt.tmod b.toInt))
  , (.remu, fun a b => if b = 0 then a else BitVec.ofNat 32 (a.toNat % b.toNat)) ]

/-- The divisor is 0 in a computed element (R316). -/
def ZeroDivisor (w : CEWord) (a b c : Val) : Prop :=
  if isVector w then ∃ i, i < 16 ∧ (a.mask &&& b.mask &&& c.mask).getLsbD i = true ∧ b.lane i = 0 else b.word = 0

/-- A precise fault of the firing under a policy other than SHUT (R139, R141): the region begins to freeze at this cell
and cycle with the fault f recorded unless it holds one already, the firing stays, and nothing else changes. -/
structure FreezesWith (s t : State) (e : Env) (f : FaultRec) : Prop where
  rest : t = { s with regions := t.regions }
  others : ∀ h, h ≠ e.spot.h → t.regions.get? h = s.regions.get? h
  region : ∃ r r', s.regions.get? e.spot.h = some r ∧ t.regions.get? e.spot.h = some r' ∧ r'.state = .freezing ∧
    r'.pendingFault = true ∧
    r'.fault = some (r.fault.getD f) ∧ r'.wave = r.wave ++ [(e.id, s.cycle)]

/-- The same with a record that names the slot and the code. -/
abbrev Freezes (s t : State) (e : Env) (code : Nat) : Prop := FreezesWith s t e (e.faultRec code)

/-- A 32-bit group of a result whose elements are all computed (R236). -/
def GroupComputed {α : Type} (f : Fmt) (g : Nat → Option α) (k : Nat) : Prop :=
  ∀ j, j < fmtCount f → fmtGroup f j = k → (g j).isSome = true

/-- A result from exact values, g giving that of each element that is computed (R236, R242, R313, R322): rounded as
FMT, RND and SAT say, or quantised block by block at a pleat depth (R241). -/
structure RoundedResult (vector : Bool) (f : Fmt) (rnd : Rnd) (sat : Bool) (depth : Nat) (g : Nat → Option Exact)
    (v : Val) : Prop where
  scal : vector = false → isPleated f = false → ∀ x, g 0 = some x → v = .scal (BitVec.ofNat 32 (roundTo f rnd sat x))
  vec : vector = true ∨ isPleated f = true → ∃ y, v = .vec y ∧ y.fmt = f ∧
    (∀ k, k < 16 → (y.mask.getLsbD k = true ↔ GroupComputed f g k)) ∧
    (isPleated f = false → y.sb = 0 ∧ ∀ i x, i < fmtCount f → g i = some x →
      y.elemBits i = if y.mask.getLsbD (fmtGroup f i) then roundTo f rnd sat x % 2 ^ fmtWidth f else 0) ∧
    (isPleated f = true → ∀ b, b < fmtCount f / 32 →
      let q := quantiseBlock f depth ((List.range 32).map fun j =>
        if y.mask.getLsbD (fmtGroup f (32 * b + j)) then g (32 * b + j) else none)
      (∀ j, j < 32 → y.elemBits (32 * b + j) = q.1.getD j 0 % 2 ^ fmtWidth f) ∧
      y.sbByte (2 * b) = q.2.1 % 256 ∧ y.sbByte (2 * b + 1) = q.2.2 % 256)

/-- The floating-point instructions with the exact value of each element computed (R323, R325, R327). A source of
scalar class is F32 (R322). -/
def floatOps : List ((CEWord → Instr) × (CEWord → Val → Val → Val → Nat → Option Exact)) :=
  let one (f : Exact → Exact) (_ : CEWord) (a _ _ : Val) (i : Nat) : Option Exact := (a.elem? .f32 i).map f
  let two (f : CEWord → Exact → Exact → Exact) (w : CEWord) (a b _ : Val) (i : Nat) : Option Exact :=
    (a.elem? .f32 i).bind fun x => (b.elem? .f32 i).map (f w x)
  [ (.fadd, two fun w x y => x.add w.rnd y), (.fsub, two fun w x y => x.sub w.rnd y), (.fmul, two fun _ x y => x.mul y)
  , (.fma, fun w a b c i => (a.elem? .f32 i).bind fun x => (b.elem? .f32 i).bind fun y => (c.elem? .f32 i).map fun z =>
      (x.mul y).add w.rnd z)
  , (.fmin, two fun _ x y => x.fmin y), (.fmax, two fun _ x y => x.fmax y), (.fabs, one Exact.abs), (.fneg, one Exact.neg)
  , (.fdiv, two fun _ x y => x.div y), (.fsqrt, one Exact.sqrt), (.frcp, one Exact.rcp), (.frsq, one Exact.rsq)
  , (.fexp2, one Exact.exp2), (.flog2, one Exact.log2), (.ftanh, one Exact.tanh)
  , (.fround, fun w a _ _ i => (a.elem? .f32 i).map (Exact.toIntegral w.rnd))
  , (.fscale, fun _ a b _ i => (a.elem? .f32 i).bind fun x => (scaleCount b i).map x.scale) ]

/-- The floating-point relations of R324. -/
def fcmpOps : List ((CEWord → Instr) × (Exact → Exact → Bool)) :=
  [ (.fcmpEq, fun x y => !x.isNan && !y.isNan && !x.lt y && !y.lt x), (.fcmpLt, fun x y => x.lt y)
  , (.fcmpLe, fun x y => !x.isNan && !y.isNan && !y.lt x), (.fcmpUn, fun x y => x.isNan || y.isNan) ]

/-- A result that is a code per element, g giving the code of each element that is computed (R324, R326). -/
structure CodedResult (vector : Bool) (f : Fmt) (g : Nat → Option Nat) (one : Nat → Nat) (v : Val) : Prop where
  scal : vector = false → ∀ x, g 0 = some x → v = .scal (BitVec.ofNat 32 (one x))
  vec : vector = true → ∃ y, v = .vec y ∧ y.fmt = f ∧ y.sb = 0 ∧
    (∀ k, k < 16 → (y.mask.getLsbD k = true ↔ GroupComputed f g k)) ∧
    ∀ i x, i < fmtCount f → g i = some x →
      y.elemBits i = if y.mask.getLsbD (fmtGroup f i) then x % 2 ^ fmtWidth f else 0

/-- A result of moved lanes: tag and sideband of the source, and for each lane its mask bit and its payload, zero where
the mask bit is 0 (R163, R328). -/
def MovedLanes (v : VecVal) (m : Nat → Bool) (f : Nat → Word) (x : Val) : Prop :=
  ∃ y, x = .vec y ∧ y.fmt = v.fmt ∧ y.sb = v.sb ∧
    ∀ i, i < 16 → y.mask.getLsbD i = m i ∧ y.lane i = if m i then f i else 0

/-- Lanes of a mask below lane i. -/
def onesBelow (m : BitVec 16) (i : Nat) : Nat := (List.range i).countP m.getLsbD

/-- The lane whose mask bit is the k-th 1, ascending (R332). -/
def kthOne (m : BitVec 16) (k : Nat) : Nat := ((List.range 16).filter m.getLsbD).getD k 0

/-- The lane movements of R329, R332 and R333: mask bit and source lane of each result lane. -/
def laneOps : List ((CEWord → Instr) × (CEWord → VecVal → Val → Val → Nat → Bool × Word)) :=
  [ (.bcast, fun _ v b _ _ => (v.mask.getLsbD (b.word.toNat % 16), v.lane (b.word.toNat % 16)))
  , (.lrot, fun _ v b _ i => let j := (i + (16 - b.word.toNat % 16)) % 16; (v.mask.getLsbD j, v.lane j))
  , (.shuf, fun _ v x _ i =>
      let k := (x.lane i).toNat % 16
      (x.mask.getLsbD i && v.mask.getLsbD k, v.lane k))
  , (.insl, fun _ v b c i =>
      if i = c.word.toNat % 16 then (true, b.word) else (v.mask.getLsbD i, v.lane i))
  , (.cmpr, fun _ v _ _ i => (decide (i < onesBelow v.mask 16), v.lane (kthOne v.mask i)))
  , (.expd, fun _ v b _ i =>
      let j := onesBelow (b.word.extractLsb' 0 16) i
      (b.word.getLsbD i && v.mask.getLsbD j, v.lane j)) ]

/-- A precise FORMAT_SPAN, LOT_STALE or DIV_ZERO that does not go to SHUT. -/
def NotShut (s : State) (e : Env) : Prop := s.policyOf e.spot.r 0 ≠ polShut

/-- Conversions: the exact value of each result element (R337, R339, R340). -/
def convOps : List ((CEWord → Instr) × (CEWord → Val → Val → Nat → Option Exact)) :=
  [ (.cvt, fun w a _ i => a.elem? (Fmt.ofCode (w.imm.extractLsb' 8 3)) i)
  , (.pack, fun w a b i => if i < fmtCount w.fmt / 2 then (asVec a).elem? i else (asVec b).elem? (i - fmtCount w.fmt / 2))
  , (.unpack, fun w a _ i => (asVec a).elem? (w.immBits 8 3 * fmtCount w.fmt + i)) ]

/-- A firing that writes no result leaves the weight slots `ws`, consumes its operands and keeps the rest. -/
structure LoadsWeights (s t : State) (e : Env) (w : CEWord) (ws : Store Nat WSlot) : Prop where
  weights : (e.ceIn t).w = ws
  consumed : Consumed e.c.ce (e.ceIn t) w
  only : OnlyFires s t e

/-- The value of column j of a matrix step (R348-R351): chunks of products, then C_in. -/
def columnOf (slots : Store Nat WSlot) (a : VecVal) (wslot wrow j : Nat) (cin : Option Exact) : Exact :=
  let n := mmaRows a.fmt
  let narrow := isNarrow a.fmt && isNarrow (slots.get {} wslot).fmt
  colSum (chunkVals narrow ((List.range n).map fun r =>
    match a.elem? r with
    | some x => x.mul (weightAt slots wslot wrow r j)
    | none => Exact.zero false)) cin

/-! ### Harts -/

/-- What no form changes of another hart: all but its interrupt causes and its reservation. -/
structure HartKept (h h' : Hart) : Prop where
  x : h'.x = h.x
  pc : h'.pc = h.pc
  priv : h'.priv = h.priv
  csr : h'.csr = h.csr
  wait : h'.wait = h.wait
  running : h'.running = h.running

/-- A hart completes an instruction: rd holds v unless it is x0, the other registers, the mode and the CSRs are as
before, the pc is past it, nothing is waited for. -/
structure Completed (s t : State) (d n : Nat) (rd : Reg) (v : DWord) : Prop where
  pc : (t.hart d n).pc = (s.hart d n).pc + 4
  dest : rd ≠ 0 → (t.hart d n).readX rd = v
  others : ∀ r, r ≠ rd ∨ r = 0 → (t.hart d n).readX r = (s.hart d n).readX r
  priv : (t.hart d n).priv = (s.hart d n).priv
  csr : (t.hart d n).csr = (s.hart d n).csr
  wait : (t.hart d n).wait = none

/-- The same, with every other hart as it was. -/
structure Retires (s t : State) (d n : Nat) (rd : Reg) (v : DWord) : Prop extends Completed s t d n rd v where
  rest : ∀ d' n', (d', n') ≠ (d, n) → HartKept (s.hart d' n') (t.hart d' n')

/-- Nothing but harts changes. -/
def OnlyHarts (s t : State) : Prop := t = { s with harts := t.harts }

/-- An instruction that only delivers a value. -/
def Answers (s t : State) (d n : Nat) (rd : Reg) (v : DWord) : Prop := Retires s t d n rd v ∧ OnlyHarts s t

/-- An instruction that holds its hart. -/
structure Holds (s t : State) (d n : Nat) (w : HartWait) : Prop where
  hart : t.hart d n = { s.hart d n with wait := some w }
  rest : ∀ d' n', (d', n') ≠ (d, n) → t.hart d' n' = s.hart d' n'

/-- A hart takes an exception (R277, R377; entry as the RISC-V privileged architecture has it, log 11): cause, value and
pc saved, interrupts off, the pc at the vector, in S-mode where M-mode has delegated the cause. -/
structure Traps (s t : State) (d n cause : Nat) (tval : DWord) : Prop where
  only : OnlyHarts s t
  rest : ∀ d' n', (d', n') ≠ (d, n) → t.hart d' n' = s.hart d' n'
  x : ∀ r, (t.hart d n).readX r = (s.hart d n).readX r
  high : ((s.hart d n).csr.medeleg.getLsbD cause && (s.hart d n).priv != .m) = false →
    (t.hart d n).priv = .m ∧ (t.hart d n).pc = (s.hart d n).csr.mtvec &&& ~~~3 ∧
    (t.hart d n).csr.mepc = (s.hart d n).pc ∧ (t.hart d n).csr.mcause = BitVec.ofNat 64 cause ∧
    (t.hart d n).csr.mtval = tval ∧ (t.hart d n).csr.mstatus.getLsbD 3 = false ∧
    (t.hart d n).csr.mstatus.getLsbD 7 = (s.hart d n).csr.mstatus.getLsbD 3 ∧
    ((t.hart d n).csr.mstatus.extractLsb' 11 2).toNat = (s.hart d n).priv.code
  low : ((s.hart d n).csr.medeleg.getLsbD cause && (s.hart d n).priv != .m) = true →
    (t.hart d n).priv = .s ∧ (t.hart d n).pc = (s.hart d n).csr.stvec &&& ~~~3 ∧
    (t.hart d n).csr.sepc = (s.hart d n).pc ∧ (t.hart d n).csr.scause = BitVec.ofNat 64 cause ∧
    (t.hart d n).csr.stval = tval ∧ (t.hart d n).csr.mstatus.getLsbD 1 = false ∧
    (t.hart d n).csr.mstatus.getLsbD 5 = (s.hart d n).csr.mstatus.getLsbD 1 ∧
    (t.hart d n).csr.mstatus.getLsbD 8 = decide ((s.hart d n).priv = .s)

/-- Where a form may run (R376). -/
def allowedFor : Instr → Option Allowed
  | .rgAlloc _ _ _ | .rgFree _ _ | .rgPlace _ _ _ | .rgLoad _ _ _ | .rgStart _ _ _ | .rgStop _ _ | .rgDrain _ _
  | .rgSave _ _ _ | .rgRestore _ _ _ | .rgKill _ _ | .rgShut _ _ | .lotSweep _ | .cpStart _ _ _ | .dbgRd _ _ _
  | .dbgWr _ _ _ => some { tailor := true, system := false, priv := true }
  | .rgStat _ _ _ | .cpQuery _ _ _ | .coreTlRead _ _ | .coreTlWait _ _ _ | .tlAdd _ _ _ | .ptInv _ _ _ | .fqPop _ _
  | .coreLaunch _ _ _ => some { tailor := true, system := true, priv := true }
  | .fwSet _ _ _ => some { tailor := false, system := true, priv := true }
  | .ldacqW _ _ _ | .ldacqD _ _ _ | .strelW _ _ _ | .strelD _ _ _ | .fenceP _ _ | .monWait _ _ _ _ _ =>
    some { tailor := true, system := true, priv := false }
  | _ => none

/-- Die d is a C-die, with tailor cores, or an X-die, with system cores; a U-mode hart is in the lowest mode (R376). -/
def Allowed.at (a : Allowed) (s : State) (d n : Nat) : Prop :=
  (if isC d then a.tailor = true else a.system = true) ∧ (a.priv = true → (s.hart d n).priv ≠ .u)

/-- A hart executes a form where it may, with no access of its own unperformed (R379). -/
structure Forms (s : State) (d n : Nat) (i : Instr) : Prop where
  focus : s.focus = .hart d n
  permits : ∃ a, allowedFor i = some a ∧ a.at s d n
  ok : (s.hart d n).Ok
  quiet : s.hartPending d n = false
  flight : s.hartInFlight d n = false

/-- A form's surroundings in a state. -/
def xenv (s : State) (d n : Nat) : XEnv := { s := s, d := d, n := n, h := s.hart d n, part := s.hartPart d n }

/-- A region operation on region w of the hart's die, whose handle rs1 holds, no other hart draining it (R382, R390). -/
structure OnTarget (s : State) (d n : Nat) (i : Instr) (rs1 : Reg) (w : Word) (r : Region) : Prop extends
    Forms s d n i where
  target : (xenv s d n).target ((s.hart d n).readX rs1) = .ok (w, r)
  free : (xenv s d n).busy w = false

/-- No launch waits to be chosen: what a region operation frees stays free. -/
def NoneWaits (s : State) : Prop := ∀ e ∈ s.launches, e.2.choosable = false

/-! ### Events -/

/-- The event happens: it answers a next state, of which f holds. -/
def Happens (s : State) (i : Instr) (f : State → Prop) : Prop := ∃ t, exec i s = .next t ∧ f t

/-- A link that the module has (R15, R22). -/
def linkExists : LinkId → Prop
  | .seam n => n < 46
  | .edge _ cx => cx < 6

/-- A link that is declared failed: its ports say so, and no crossing is left outstanding (R19-R21). -/
structure LinkDown (t : State) (l : LinkId) (crossing : Nat) : Prop where
  ports : ∀ p ∈ linkPorts l, t.portState p = stFailed
  failed : (t.links.get {} l).failed = some crossing
  table : (t.links.get {} l).table = []

/-- Both X-dies halt with an error code (R67, R70). -/
def BothHalt (t : State) (err : Nat) : Prop := ∀ x ∈ xDies, (t.bootOf x).stage = .halted ∧ (t.bootOf x).err = err

/-- The request of that number has been performed and answered with a value and a code. -/
def Answered (t : State) (id : Nat) (bytes : List Byte) (code : Nat) : Prop :=
  ∃ q, t.reqOf id = some q ∧ q.st = .performed (bytesVec bytes) code ∧ q.owed = false

/-- The response to a request stands at the switch of its home, for that of its issuer. -/
def Responds (t : State) (q : Req) : Prop := ∀ c, q.agent.port = some c →
  ∃ n, ∃ p ∈ (t.nodes.get {} n).bufs.get [] (.l, 2), p.load = .response q.id ∧ p.dst = c

/-- One more of a count that stops at its largest value. -/
def oneMore {w : Nat} (n : BitVec w) : BitVec w := if n = BitVec.allOnes w then n else n + 1

/-- A part of an inbound request has been taken in and released, and is the one that the X-die tracks: a request of
function f with an address, an operation and a tag (R42, R53). -/
def TakenIn (s t : State) (x f : Nat) (kind : InKind) (va : DWord) (op : MemOp) (tag : Nat) : Prop :=
  ∃ p r, (t.xdie x).inbound = [p] ∧ p.id = s.nextId ∧ p.kind = kind ∧ p.released = true ∧ t.reqs = s.reqs ++ [r] ∧
    r.id = s.nextId ∧ r.agent = .func x f ∧ r.goal = .mem va op ∧ r.asid = s.fnAsid x f ∧ r.part = s.fnPart x f ∧
    r.st = .net ∧ r.ret = (if p.posted then Ret.none else .tag tag) ∧ t.outbox = s.outbox ∧ t.mem = s.mem

/-- A launch is over or on its way there (R112, R121). -/
def Ends (t : State) (n : Nat) : Prop :=
  ∃ l, t.launches.get? n = some l ∧ (l.st = .completing ∨ l.st = .complete ∨ l.killAfter = true)

/-! ### Words -/

/-- A word whose guard wants nothing and whose fields are unused (R260). -/
def plainWord : CEWord :=
  { ctx := 0, vreq := 0, sreq := 0, creq := 0, mkt := .none, prt := .none, pmask := 0, pval := 0, dst := .zero, sa := .zero
    sb := .zero, sc := .zero, deqA := false, deqB := false, deqC := false, deqP := false, fmt := .i32, rnd := .rne
    sat := false, pset := false, pdst := 0, octx := false, imm := 0 }

end Sys2Proof.Machine
end

