-- ==== Sys2Proof/Certificates/Slice0/Obligations.lean ====
section
/-!
DEFINITION. The statements about the model, one definition each.
-/
open Sys2Proof Sys2Proof.Machine

/-! ### The machine as a whole -/

/-- The state at reset meets the invariant. -/
def Obligations.ResetInv : Prop := State.reset.Inv

/-- Every step keeps the invariant: memory canonical, reserved register bits 0 (R4), lot 0 not live (R200), x0 not
stored, pc even, reserved CSR bits 0 (R378). -/
def Obligations.StepKeepsInv : Prop := ∀ s t : State, s.Inv → step s = .next t → t.Inv

/-- No step moves the life cycle backward, and no step changes another fuse (R70, R71). -/
def Obligations.LifecycleOnward : Prop := ∀ s t : State, step s = .next t →
  lcsLe s.fuses.lcs t.fuses.lcs ∧ t.fuses = { s.fuses with lcs := t.fuses.lcs }

/-- Decoding undoes encoding, for every well-formed step that has an encoding. -/
def Obligations.DecodeEncode : Prop := ∀ i : Instr, i.wf = true → ∀ n w, encode i = some (n, w) →
  decodeWord n w = .ok i

/-- Encoding undoes decoding: a word that decodes is the word of what it decodes to. -/
def Obligations.EncodeDecode : Prop :=
  (∀ (w : BitVec 128) i, decodeCE w = .ok i → encode i = some (128, w.toNat)) ∧
  (∀ (w : BitVec 32) i, decodeHart w = .ok i → encode i = some (32, w.toNat))

/-! ### Compute-element instructions -/

/-- R315, R317, R318: the element results of the arithmetic, saturating, shift and count instructions. -/
def Obligations.ArithmeticResults : Prop := ∀ op ∈ arithOps, ∀ s w e a b c, FiresData s (op.1 w) w e a b c →
  ∃ t r, exec (op.1 w) s = .next t ∧ LaneResult w .i32 0 a.val b.val c.val op.2.1 op.2.2 r ∧ Yields t e w [a, b, c] r

/-- R318, R314: the bitwise instructions, with the tag and sideband that FMT names. -/
def Obligations.BitwiseResults : Prop := ∀ op ∈ bitOps, ∀ s w e a b c, FiresData s (op.1 w) w e a b c →
  ∃ t r, exec (op.1 w) s = .next t ∧ LaneResult w w.fmt (a.val.sideband w.fmt) a.val b.val c.val
    (fun x y _ => op.2 x y) (fun _ _ _ => false) r ∧ Yields t e w [a, b, c] r

/-- R319: comparisons write all ones or zero in a vector, 1 or 0 as a scalar, and the relation as predicate. -/
def Obligations.CompareResults : Prop := ∀ op ∈ cmpOps, ∀ s w e a b c, FiresData s (op.1 w) w e a b c →
  ∃ t r, exec (op.1 w) s = .next t ∧
    LaneResult w .i32 0 a.val b.val (.scal 0)
      (fun x y _ => if op.2 x y then (if isVector w then 0xFFFFFFFF else 1) else 0) (fun x y _ => op.2 x y) r ∧
    Yields t e w [a, b, c] r

/-- R320, R321: selection and the bit-field instructions. -/
def Obligations.SelectAndFieldResults : Prop := ∀ s w e a b c,
  (FiresData s (.sel w) w e a b c → ∃ t r, exec (.sel w) s = .next t ∧
    LaneResult w w.fmt (b.val.sideband w.fmt) a.val b.val c.val (fun x y z => if x = 0 then z else y)
      (fun _ _ _ => false) r ∧ Yields t e w [a, b, c] r) ∧
  (FiresData s (.bfx w) w e a b c → (Instr.bfx w).wf = true → ∃ t r, exec (.bfx w) s = .next t ∧
    LaneResult w .i32 0 a.val b.val c.val (fun x _ _ => BitVec.ofFnLE fun k : Fin 32 =>
      if k.val < w.immBits 8 6 then x.getLsbD (w.immBits 0 5 + k.val)
      else w.imm.getLsbD 16 && x.getLsbD (w.immBits 0 5 + w.immBits 8 6 - 1)) (fun _ _ _ => false) r ∧
    Yields t e w [a, b, c] r) ∧
  (FiresData s (.bfi w) w e a b c → (Instr.bfi w).wf = true → ∃ t r, exec (.bfi w) s = .next t ∧
    LaneResult w .i32 0 a.val b.val c.val (fun x y _ => BitVec.ofFnLE fun k : Fin 32 =>
      if w.immBits 0 5 ≤ k.val ∧ k.val < w.immBits 0 5 + w.immBits 8 6 then y.getLsbD (k.val - w.immBits 0 5)
      else x.getLsbD k.val) (fun _ _ _ => false) r ∧ Yields t e w [a, b, c] r)

/-- R316: the division results, and DIV_ZERO when DZTRAP is set and a computed divisor is 0. -/
def Obligations.DivisionResults : Prop := ∀ op ∈ divOps, ∀ s w e a b c, FiresData s (op.1 w) w e a b c →
  (e.spot.r.dztrap = false ∨ ¬ ZeroDivisor w a.val b.val c.val ∨ e.suppress = some fDivZero →
    ∃ t r, exec (op.1 w) s = .next t ∧
      LaneResult w .i32 0 a.val b.val c.val (fun x y _ => op.2 x y) (fun _ y _ => y == 0) r ∧
      Yields t e w [a, b, c] r ∧ Completes s t e w) ∧
  (e.spot.r.dztrap = true → ZeroDivisor w a.val b.val c.val → e.suppress ≠ some fDivZero →
    s.policyOf e.spot.r 0 ≠ polShut → ∃ t, exec (op.1 w) s = .next t ∧ Freezes s t e fDivZero)

/-- R322, R323, R325, R327: each element is the exact result rounded once as FMT, RND and SAT say, or quantised with
pleat depth 4. -/
def Obligations.FloatResults : Prop := ∀ op ∈ floatOps, ∀ s w e a b c, FiresData s (op.1 w) w e a b c →
  ∃ t r, exec (op.1 w) s = .next t ∧
    RoundedResult (isVector w) w.fmt w.rnd w.sat 4 (op.2 w a.val b.val c.val) r.val ∧ Yields t e w [a, b, c] r

/-- R324, R326: floating-point relations, as masks of FMT's element width or 1 and 0, with the relation as predicate;
and the class masks of fclass. -/
def Obligations.FloatCompareResults : Prop :=
  (∀ op ∈ fcmpOps, ∀ s w e a b c, FiresData s (op.1 w) w e a b c →
    let rel (i : Nat) : Option Bool := (a.val.elem? .f32 i).bind fun x => (b.val.elem? .f32 i).map (op.2 x)
    ∃ t r, exec (op.1 w) s = .next t ∧ Yields t e w [a, b, c] r ∧
      CodedResult (isVector w) w.fmt (fun i => (rel i).map fun x => if x then 2 ^ fmtWidth w.fmt - 1 else 0)
        (fun x => if x = 0 then 0 else 1) r.val ∧
      (isVector w = true → (r.pred = true ↔ ∃ i, i < fmtCount w.fmt ∧ rel i = some true)) ∧
      (isVector w = false → r.pred = (rel 0 == some true))) ∧
  (∀ s w e a b c, FiresData s (.fclass w) w e a b c → ∃ t r, exec (.fclass w) s = .next t ∧ Yields t e w [a, b, c] r ∧
    CodedResult (isVector w) w.fmt (fun i => (a.val.elem? .f32 i).map (classMask (a.val.tag .f32))) id r.val)

/-- R328, R329, R332: the lane movements. -/
def Obligations.LaneResults : Prop := ∀ op ∈ laneOps, ∀ s w e a b c v, FiresData s (op.1 w) w e a b c → a.val = .vec v →
  ∃ t r, exec (op.1 w) s = .next t ∧ Yields t e w [a, b, c] r ∧
    MovedLanes v (fun i => (op.2 w v b.val c.val i).1) (fun i => (op.2 w v b.val c.val i).2) r.val ∧
    r.pred = (op.1 w == .cmpr w && onesBelow v.mask 16 == 0)

/-- R333, R334: reading and replacing the lane mask, extracting a lane. -/
def Obligations.MaskAndExtractResults : Prop := ∀ s w e a b c v, a.val = .vec v →
  (FiresData s (.lmask w) w e a b c → ∃ t r, exec (.lmask w) s = .next t ∧ Yields t e w [a, b, c] r ∧
    (w.immBits 0 2 = 0 → MovedLanes v b.val.word.getLsbD v.lane r.val) ∧
    (w.immBits 0 2 = 1 → MovedLanes v (fun i => v.mask.getLsbD i && b.val.word.getLsbD i) v.lane r.val) ∧
    (w.immBits 0 2 = 2 → r.val = .scal (v.mask.zeroExtend 32)) ∧
    (w.immBits 0 2 = 3 → r.val = .scal (BitVec.ofNat 32 (onesBelow v.mask 16)))) ∧
  (FiresData s (.extl w) w e a b c → ∃ t r, exec (.extl w) s = .next t ∧ Yields t e w [a, b, c] r ∧
    r.pred = v.mask.getLsbD (b.val.word.toNat % 16) ∧
    r.val = .scal (if v.mask.getLsbD (b.val.word.toNat % 16) then v.lane (b.val.word.toNat % 16) else 0))

/-- R330, R331: reductions give the root of the tree of R252 as a scalar, or in element 0 with lane mask 1; scan gives
the inclusive prefix. -/
def Obligations.ReductionResults : Prop := ∀ s w e a b c v, a.val = .vec v →
  (∀ op ∈ [(Instr.redadd, ROp.add), (.redmin, .min), (.redmax, .max)], FiresData s (op.1 w) w e a b c →
    ∃ t r, exec (op.1 w) s = .next t ∧ Yields t e w [a, b, c] r ∧ r.pred = false ∧
      let root := treeSum (nodeOp w.fmt w.rnd w.sat op.2)
        ((List.range (fmtCount v.fmt)).map fun i => (v.elem? i).map (leafOf w.fmt w.rnd w.sat))
      let code := match root with
        | some x => roundTo w.fmt w.rnd w.sat x
        | none => 0
      if w.dst.isVecDst then r.val = .vec { data := BitVec.ofNat 512 code, mask := 1, fmt := w.fmt }
      else r.val = .scal (BitVec.ofNat 32 code)) ∧
  (FiresData s (.scan w) w e a b c → ∃ t r, exec (.scan w) s = .next t ∧ Yields t e w [a, b, c] r ∧
    RoundedResult true w.fmt w.rnd w.sat 4
      (fun i => (scanLoop w.fmt w.rnd w.sat
        (if w.immBits 0 2 = 0 then .add else if w.immBits 0 2 = 1 then .min else .max) none
        ((List.range (fmtCount w.fmt)).map v.elem?)).getD i none) r.val)

/-- R337, R339, R340: conversion element by element, with the overflow condition as predicate. -/
def Obligations.ConversionResults : Prop := ∀ op ∈ convOps, ∀ s w e a b c, FiresData s (op.1 w) w e a b c →
  (op.1 w ≠ .cvt w → w.sa.isVec = true) → ∃ t r, exec (op.1 w) s = .next t ∧ Yields t e w [a, b, c] r ∧
    RoundedResult w.sa.isVec w.fmt w.rnd w.sat 4 (op.2 w a.val b.val) r.val ∧
    (r.pred = true ↔ ∃ i x, i < (if w.sa.isVec || isPleated w.fmt then fmtCount w.fmt else 1) ∧
      op.2 w a.val b.val i = some x ∧ overflows w.fmt w.rnd x = true)

/-- R338, R341, R342, R343: retagging, re-forming pleated blocks and reading and writing their exponents, random
words. -/
def Obligations.FormatResults : Prop := ∀ s w e a b c v, a.val = .vec v →
  (FiresData s (.retag w) w e a b c → ∃ t r, exec (.retag w) s = .next t ∧ Yields t e w [a, b, c] r ∧
    r.val = .vec { v with fmt := w.fmt, sb := if isPleated w.fmt then v.sb else 0 }) ∧
  (FiresData s (.pbq w) w e a b c → isPleated w.fmt = true → ∃ t r, exec (.pbq w) s = .next t ∧
    Yields t e w [a, b, c] r ∧ RoundedResult true w.fmt .rne true (w.immBits 8 4) v.elem? r.val) ∧
  (FiresData s (.pbexpGet w) w e a b c → ∃ t r, exec (.pbexpGet w) s = .next t ∧ Yields t e w [a, b, c] r ∧
    r.pred = blockExists v (w.immBits 8 2) ∧
    r.val = .scal (if blockExists v (w.immBits 8 2) then (v.sb.extractLsb' (16 * w.immBits 8 2) 16).zeroExtend 32
      else 0)) ∧
  (FiresData s (.pbexpSet w) w e a b c → ∃ t r y, exec (.pbexpSet w) s = .next t ∧ Yields t e w [a, b, c] r ∧
    r.val = .vec y ∧ y.data = v.data ∧ y.mask = v.mask ∧ y.fmt = v.fmt ∧
    r.pred = blockExists v (if w.imm.getLsbD 12 then 0 else w.immBits 8 2) ∧
    ∀ k, k < 4 → y.sb.extractLsb' (16 * k) 16 =
      if blockExists v k && (w.imm.getLsbD 12 || k == w.immBits 8 2) then b.val.word.extractLsb' 0 16
      else v.sb.extractLsb' (16 * k) 16) ∧
  (FiresData s (.rng w) w e a b c → ∃ t r, exec (.rng w) s = .next t ∧ Yields t e w [a, b, c] r ∧
    r.val = .vec (rngVec v (if w.imm.getLsbD 8 then e.rngKey.1 else b.val.word)
      (if w.imm.getLsbD 8 then e.rngKey.2 else c.val.word)))

/-- R345-R347: loading and clearing weight slots, and FORMAT_SPAN. -/
def Obligations.WeightSlots : Prop := ∀ s w e a b c v, a.val = .vec v →
  (FiresData s (.wld w) w e a b c →
    let k := b.val.word.toNat / 16 % 4
    let place := b.val.word.toNat % 16
    let old := e.c.ce.w.get {} k
    (¬ (v.fmt = .pb4 ∧ 8 ≤ place) → ∃ t y, exec (.wld w) s = .next t ∧ LoadsWeights s t e w (e.c.ce.w.put k y) ∧
      y.fmt = v.fmt ∧
      (∀ i, i < 16 → y.data.extractLsb' (512 * place + 32 * i) 32 = if v.mask.getLsbD i then v.lane i else 0) ∧
      (∀ j, j < 8192 → j < 512 * place ∨ 512 * place + 512 ≤ j → y.data.getLsbD j = old.data.getLsbD j) ∧
      (isPleated v.fmt = false → y.scales = old.scales) ∧
      (v.fmt = .pb8 → y.scales.extractLsb' (32 * place) 32 = v.sb.extractLsb' 0 32) ∧
      (v.fmt = .pb4 → y.scales.extractLsb' (64 * place) 64 = v.sb)) ∧
    (v.fmt = .pb4 ∧ 8 ≤ place → NotShut s e → ∃ t, exec (.wld w) s = .next t ∧ Freezes s t e fFormatSpan)) ∧
  (FiresData s (.wldt w) w e a b c →
    let col := b.val.word.toNat % 16
    let row := b.val.word.toNat / 16 % 128
    let k := b.val.word.toNat / 2048 % 4
    let g (i : Nat) : Nat := (row + i) * 16 + col
    let beyond := isPleated v.fmt = true ∨
      ∃ i, i < fmtCount v.fmt ∧ v.computed i = true ∧ 4 ≤ k + g i / slotCap v.fmt
    (¬ beyond → ∃ t ws, exec (.wldt w) s = .next t ∧ LoadsWeights s t e w ws ∧
      ∀ i, i < fmtCount v.fmt → v.computed i = true →
        let y := ws.get {} (k + g i / slotCap v.fmt)
        y.fmt = v.fmt ∧
        y.data.toNat / 2 ^ (fmtWidth v.fmt * (g i % slotCap v.fmt)) % 2 ^ fmtWidth v.fmt = v.elemBits i) ∧
    (beyond → NotShut s e → ∃ t, exec (.wldt w) s = .next t ∧ Freezes s t e fFormatSpan)) ∧
  (Fires s (.wclr w) w e a b c → ∃ t ws, exec (.wclr w) s = .next t ∧ LoadsWeights s t e w ws ∧
    ∀ k, k < 4 → ws.get {} k = if w.imm.getLsbD (8 + k) then { data := 0, scales := 0, fmt := w.fmt } else
      e.c.ce.w.get {} k)

/-- R348, R349: a matrix step rounds its sixteen columns once into FMT, or faults FORMAT_SPAN. -/
def Obligations.MatrixResults : Prop := ∀ s w e a b c v, a.val = .vec v →
  let k := w.immBits 8 2
  let row := w.immBits 10 6
  let res (g : Nat → Option Exact) (i : Instr) : Prop :=
    (spanFault e.c.ce.w v.fmt k row = false → ∃ t x, exec i s = .next t ∧
      Delivered e.c.ce (e.ceIn t) w (e.stamp w (verOf [a, b])) x ∧ Consumed e.c.ce (e.ceIn t) w ∧
      OnlyFires s t e ∧ RoundedResult true w.fmt w.rnd w.sat 4 g x) ∧
    (spanFault e.c.ce.w v.fmt k row = true → NotShut s e → ∃ t, exec i s = .next t ∧ Freezes s t e fFormatSpan)
  w.pset = false →
  (FiresData s (.mma w) w e a b c → res (fun j => if j < 16 then
    (b.val.elem? .f32 j).map fun x => columnOf e.c.ce.w v k row j (some x) else none) (.mma w)) ∧
  (FiresData s (.mmz w) w e a b c → res (fun j => if j < 16 then
    some (columnOf e.c.ce.w v k row j none) else none) (.mmz w))

/-! ### Dataflow -/

/-- R290-R294, R300: `nop`, `mov`, `steer`, `filter`, `absorb`, `mark`. Each of them completes whenever it fires, with
whatever tokens on its sources. -/
def Obligations.MoveResults : Prop := ∀ s w e a b c,
  (∀ op ∈ [Instr.nop, .mov, .steer, .filter, .absorb, .mark], Fires s (op w) w e a b c →
    ∃ t, exec (op w) s = .next t ∧ OnlyFires s t e) ∧
  (Fires s (.nop w) w e a b c → ∃ t, exec (.nop w) s = .next t ∧ Completes s t e (noDst w)) ∧
  (Fires s (.mov w) w e a b c → ∃ t, exec (.mov w) s = .next t ∧
    Forwards e.c.ce (e.ceIn t) w (e.stamp w a.ver) a ∧ Completes s t e w) ∧
  (Fires s (.steer w) w e a b c →
    (a.mark ≠ .data → ∃ t, exec (.steer w) s = .next t ∧
      Forwards e.c.ce (e.ceIn t) w (e.stamp w (maxVer a.ver b.ver)) a ∧ Completes s t e w) ∧
    (a.mark = .data → b.mark ≠ .data → ∃ t, exec (.steer w) s = .next t ∧ Passes s t e w (maxVer a.ver b.ver) b.mark) ∧
    (a.mark = .data → b.mark = .data →
      let k := b.val.word != 0
      let w' := { w with dst := steerOut w.dst k }
      ∃ t, exec (.steer w) s = .next t ∧ Forwards e.c.ce (e.ceIn t) w' (e.stamp w (maxVer a.ver b.ver)) a ∧
        SetsPred (e.ceIn t) w k ∧ Completes s t e w')) ∧
  (Fires s (.filter w) w e a b c →
    (a.mark ≠ .data ∨ b.mark = .data ∧ b.val.word ≠ 0 → ∃ t, exec (.filter w) s = .next t ∧
      Forwards e.c.ce (e.ceIn t) w (e.stamp w (maxVer a.ver b.ver)) a ∧ SetsPred (e.ceIn t) w true ∧
      Completes s t e w) ∧
    (a.mark = .data → b.mark ≠ .data → ∃ t, exec (.filter w) s = .next t ∧ Passes s t e w (maxVer a.ver b.ver) b.mark) ∧
    (a.mark = .data → b.mark = .data → b.val.word = 0 → ∃ t, exec (.filter w) s = .next t ∧
      SetsPred (e.ceIn t) w false ∧ Completes s t e (noDst w))) ∧
  (Fires s (.absorb w) w e a b c → ∃ t, exec (.absorb w) s = .next t ∧ SetsPred (e.ceIn t) w (a.mark == .eos) ∧
    Completes s t e (noDst w)) ∧
  (Fires s (.mark w) w e a b c → ∃ t, exec (.mark w) s = .next t ∧ Completes s t e w ∧
    ∀ o ∈ outsOf w.dst, (e.ceIn t).outList o = e.c.ce.outList o ++
      [.filled { body := bodyFor o .i32 a.val, ctx := outCtx w, ver := verFor o a.ver
                 mark := Marker.ofCode (w.imm.extractLsb' 8 2), since := s.cycle }])

/-- R295-R297: `merge` takes the input that the condition selects, `amerge` the one ready first; the other input is
neither read nor consumed. Each of them completes whenever it fires. -/
def Obligations.MergeResults : Prop := ∀ s w e a b c x,
  (∀ op ∈ [Instr.merge, .amerge], Fires s (op w) w e a b c → ∃ t, exec (op w) s = .next t ∧ OnlyFires s t e) ∧
  let joins (i : Instr) (srcs : List Src) (k : Bool) : Prop :=
    let o := if k then w.in1 else w.in0
    let other := if k then w.in0 else w.in1
    let take := if k then w.take1 else w.take0
    w.in0 ≠ w.in1 → w.in0 ∉ dropsOf w → w.in1 ∉ dropsOf w → e.src w o = .ok x →
    ∃ t, exec i s = .next t ∧ Forwards e.c.ce (e.ceIn t) w (e.stamp w (verOf (x :: srcs))) x ∧
      SetsPred (e.ceIn t) w k ∧ Consumed e.c.ce (e.ceIn t) w ∧ OnlyFires s t e ∧
      (w.dst ≠ other → Untaken e.c.ce (e.ceIn t) other) ∧
      (w.dst ≠ o → (take = true → Took e.c.ce (e.ceIn t) o) ∧ (take = false → Untaken e.c.ce (e.ceIn t) o))
  (Fires s (.merge w) w e a b c →
    (a.mark ≠ .data → ∃ t, exec (.merge w) s = .next t ∧ Passes s t e w a.ver a.mark) ∧
    (a.mark = .data → joins (.merge w) [a] (a.val.word != 0))) ∧
  (Fires s (.amerge w) w e a b c →
    let r0 := e.inputReady w w.in0
    let r1 := e.inputReady w w.in1
    joins (.amerge w) [] (!(r0 && (!r1 || decide (e.inputSince w.in0 ≤ e.inputSince w.in1)))))

/-- R298, R299: `repeat` and `count` with their counter, s register i, which is written last. Each of them completes
whenever it fires. -/
def Obligations.CounterResults : Prop := ∀ s w e a b c (i : Fin 16), w.sb = .s i →
  (∀ op ∈ [Instr.repeatTok, .count], Fires s (op w) w e a b c → ∃ t, exec (op w) s = .next t ∧ OnlyFires s t e) ∧
  (Fires s (.repeatTok w) w e a b c →
    let ver := verOf [a, b, c]
    let next := b.val.word + 1
    (a.mark ≠ .data → ∃ t, exec (.repeatTok w) s = .next t ∧ OnlyFires s t e ∧ Counts e t i 0 ver ∧
      ∀ o ∈ outsOf w.dst, (e.ceIn t).outList o = e.c.ce.outList o ++
        [.filled { body := bodyFor o w.fmt a.val, ctx := outCtx w, ver := verFor o ver, mark := a.mark, since := s.cycle }]) ∧
    (a.mark = .data → c.mark = .data → c.val.word = 0 → ∃ t, exec (.repeatTok w) s = .next t ∧ OnlyFires s t e ∧
      Counts e t i 0 ver ∧ SetsPred (e.ceIn t) w true ∧ ∀ o, (e.ceIn t).outList o = e.c.ce.outList o) ∧
    (a.mark = .data → c.mark = .data → next.ult c.val.word = true → ∃ t, exec (.repeatTok w) s = .next t ∧
      OnlyFires s t e ∧ Counts e t i next ver ∧ SetsPred (e.ceIn t) w false ∧
      (w.dst ≠ .s i → Gives e t w ver a.val) ∧
      (w.sa ≠ .s i → w.sa ≠ w.dst → w.sa ∉ dropsPra w → Untaken e.c.ce (e.ceIn t) w.sa)) ∧
    (a.mark = .data → c.mark = .data → c.val.word ≠ 0 → next.ult c.val.word = false →
      ∃ t, exec (.repeatTok w) s = .next t ∧ OnlyFires s t e ∧ Counts e t i 0 ver ∧ SetsPred (e.ceIn t) w true ∧
        (w.dst ≠ .s i → Gives e t w ver a.val) ∧
        (w.deqA = true → w.sa ≠ .s i → w.sa ≠ w.dst → Took e.c.ce (e.ceIn t) w.sa)) ∧
    (a.mark = .data → c.mark ≠ .data → ∃ t, exec (.repeatTok w) s = .next t ∧ OnlyFires s t e ∧
      (.s i ∉ dropsPra w → (e.ceIn t).s.get {} i.val = e.c.ce.s.get {} i.val) ∧
      (∀ o ∈ outsOf w.dst, (e.ceIn t).outList o = e.c.ce.outList o ++
        [.filled { body := emptyBody o, ctx := outCtx w, ver := verFor o ver, mark := c.mark, since := s.cycle }]))) ∧
  (Fires s (.count w) w e a b c →
    let ver := maxVer a.ver b.ver
    (a.mark = .data → ∃ t, exec (.count w) s = .next t ∧ OnlyFires s t e ∧ SetsPred (e.ceIn t) w false ∧
      Counts e t i (b.val.word + if w.imm.getLsbD 8 then BitVec.ofNat 32 (onesBelow a.val.mask 16) else 1) ver ∧
      ∀ o, (e.ceIn t).outList o = e.c.ce.outList o) ∧
    (a.mark = .eos → ∃ t, exec (.count w) s = .next t ∧ OnlyFires s t e ∧ Counts e t i 0 ver ∧
      SetsPred (e.ceIn t) w true ∧ (w.dst ≠ .s i → Gives e t w ver (.scal b.val.word))) ∧
    (a.mark = .refire → ∃ t, exec (.count w) s = .next t ∧ OnlyFires s t e ∧ Counts e t i 0 ver ∧
      ∀ o ∈ outsOf w.dst, (e.ceIn t).outList o = e.c.ce.outList o ++
        [.filled { body := emptyBody o, ctx := outCtx w, ver := verFor o ver, mark := .refire, since := s.cycle }]) ∧
    (a.mark = .cfg → ∃ t, exec (.count w) s = .next t ∧ Passes s t e w ver .cfg))

/-- R301, R302: the predicate operations on bits, and `rfclr`. -/
def Obligations.PredicateResults : Prop :=
  (∀ op ∈ [(Instr.pand, fun x y => x && y), (.por, fun x y => x || y), (.pxor, fun x y => xor x y),
      (.pnot, fun x _ => !x), (.pmov, fun x _ => x)],
    ∀ s w e a b c, FiresData s (op.1 w) w e a b c → ∃ t, exec (op.1 w) s = .next t ∧ Completes s t e w ∧
      Gives e t w (verOf [a, b, c]) (.scal (if op.2 (a.val.word != 0) (b.val.word != 0) then 1 else 0))) ∧
  (∀ s w e a b c, Fires s (.rfclr w) w e a b c → outsOf w.dst ≠ [] ∨ w.dst = .zero →
    ∃ t, exec (.rfclr w) s = .next t ∧ OnlyFires s t e ∧
      (w.sa.isChan = true → Forwards e.c.ce (e.ceIn t) w (e.stamp w a.ver) a) ∧
      (∀ k : Fin 8, (e.ceIn t).p.getLsbD k.val = (e.c.ce.p.getLsbD k.val && !w.imm.getLsbD (8 + k.val))) ∧
      ∀ o ∈ e.spot.r.refireRegs e.spot.col e.spot.row,
        (∀ i, o = .v i → (e.ceIn t).v.get {} i.val = { val := {}, ver := 0, pres := false, lot := e.own, since := s.cycle }) ∧
        (∀ i, o = .s i → (e.ceIn t).s.get {} i.val = { val := 0, ver := 0, pres := false, lot := e.own, since := s.cycle }))

/-- R303-R306: the ends of a context and an instance, and the raised faults; under STEPOVER TRAP and BREAK consume
their sources and do nothing (R148). -/
def Obligations.EndsAndTraps : Prop := ∀ s w e a b c,
  (Fires s (.halt w) w e a b c → ∃ t, exec (.halt w) s = .next t ∧ OnlyFires s t e ∧ Consumed e.c.ce (e.ceIn t) w ∧
    (∀ k, k < 8 → (e.ceIn t).halted.getLsbD k = (e.c.ce.halted.getLsbD k || k == e.ctx)) ∧
    (e.ceIn t).waits.get [] e.ctx = [] ∧ ∀ k, k ≠ e.ctx → (e.ceIn t).waits.get [] k = e.c.ce.waits.get [] k) ∧
  (Fires s (.exit w) w e a b c → ∃ t r, exec (.exit w) s = .next t ∧ Consumed e.c.ce (e.ceIn t) w ∧
    t.regions.get? e.spot.h = some r ∧
    r.exitAt = some (((s.regions.get? e.spot.h).bind (·.exitAt)).getD (e.id, s.cycle)) ∧
    t = { s with cells := t.cells, regions := t.regions } ∧
    (∀ k, k ≠ e.id → t.cells.get {} k = s.cells.get {} k) ∧ ∀ h, h ≠ e.spot.h → t.regions.get? h = s.regions.get? h) ∧
  (∀ op ∈ [(Instr.trap, fTrap), (Instr.brk, fBreak)], Fires s (op.1 w) w e a b c →
    (e.suppress ≠ some op.2 → NotShut s e → ∃ t, exec (op.1 w) s = .next t ∧ Freezes s t e op.2) ∧
    (e.suppress = some op.2 → ∃ t, exec (op.1 w) s = .next t ∧ Completes s t e (noDst w)))

/-! ### What holds of every firing -/

/-- R165, R288: an instruction that reads sources and does not deal with markers itself passes the first marker of its sources in the
order REFIRE, EOS, CFG, and has no other effect. -/
def Obligations.MarkersPass : Prop := ∀ i op w s e a b c m, i.ceParts = some (op, w) → ownMarkers i = false →
  (∀ x, i ≠ .nop x ∧ i ≠ .halt x ∧ i ≠ .exit x ∧ i ≠ .wclr x) → Fires s i w e a b c → markOf [a, b, c] = some m →
  ∃ t, exec i s = .next t ∧ Passes s t e w (verOf [a, b, c]) m

/-- R161: an enabled slot with a foreign-lot source under register lot mode T faults LOT_STALE precisely. -/
def Obligations.StaleSourceFaults : Prop := ∀ i op w s e, i.ceParts = some (op, w) → s.env = some e →
  e.enabled i w = true → (∃ o ∈ [w.sa, w.sb, w.sc], e.src w o = .stale) → NotShut s e →
  ∃ t, exec i s = .next t ∧ Freezes s t e fLotStale

/-- The model's choice (log 1), not a rule: a slot that is not enabled does nothing. -/
def Obligations.NotEnabledKeeps : Prop := ∀ i op w s, i.ceParts = some (op, w) →
  (∀ e, s.env = some e → e.enabled i w = false) → exec i s = .next s

/-- The frame of the instructions that compute from their sources alone: the destination, operands consumed and PDST
excepted, nothing changes in the CE; nothing changes in any memory element, in any other cell, and in the rest of the
state but the region's last firing. -/
def Obligations.ComputingFrame : Prop :=
  ∀ op ∈ arithOps.map (·.1) ++ bitOps.map (·.1) ++ cmpOps.map (·.1) ++ [.sel, .bfx, .bfi] ++ floatOps.map (·.1) ++
      fcmpOps.map (·.1) ++ [.fclass] ++ laneOps.map (·.1) ++
      [.lmask, .extl, .redadd, .redmin, .redmax, .scan] ++ convOps.map (·.1) ++
      [.retag, .pbq, .pbexpGet, .pbexpSet, .rng, .pand, .por, .pxor, .pnot, .pmov, .teamid, .clkrd, .pressTest],
    ∀ s w e a b c, FiresData s (op w) w e a b c → ∃ t, exec (op w) s = .next t ∧ Completes s t e w

/-! ### Memory element and global memory -/

/-- R356, R360: `lds` of the cell's own scratchpad, and `fe.test`. -/
def Obligations.ScratchReads : Prop := ∀ s w e a b c x,
  (FiresData s (.lds w) w e a b c → OwnLine e w a.nat x →
    let n := if w.dst.isVecDst then 64 else 4
    let l := e.c.me.line (a.nat / 128)
    let v := BitVec.ofNat 512 (seenValue l x a.nat n)
    a.nat % n = 0 →
    (Readable l x a.nat n → ∃ t, exec (.lds w) s = .next t ∧ Completes s t e w ∧
      Gives e t w (if l.isOwn x && x.baste then l.ver else 0)
        (if w.dst.isVecDst then .vec { data := v, mask := 0xFFFF, fmt := w.fmt } else .scal (v.extractLsb' 0 32))) ∧
    (l.isOwn x = false → x.mode = .t → e.suppress ≠ some fLotStale → NotShut s e → ∃ t, exec (.lds w) s = .next t ∧
      FreezesWith s t e ((e.faultRec fLotStale).atLine a.nat))) ∧
  (FiresData s (.feTest w) w e a b c → OwnLine e w (a.nat / 128 * 128) x →
    let l := e.c.me.line (a.nat / 128)
    let r := l.isOwn x && l.full
    ∃ t, exec (.feTest w) s = .next t ∧ SetsPred (e.ceIn t) w r ∧ Completes s t e w ∧
      Gives e t w (verOf [a, b, c]) (.scal (if r then 1 else 0)))

/-- R203, R356, R360: `sts` writes the groups that the mask enables and no other byte; `fe.clr`, and `fe.set` with
nothing to wait for, write the F/E bit. -/
def Obligations.ScratchWrites : Prop := ∀ s w e a b c x,
  let l := e.c.me.line (a.nat / 128)
  (FiresData s (.sts w) w e a b c → OwnLine e w a.nat x →
    let n := if b.val.isVec then 64 else 4
    a.nat % n = 0 → dataMask b ≠ 0 → e.c.me.writeBad (some x) (a.nat / 128) false = false →
    ∃ t m, exec (.sts w) s = .next t ∧ OnMe s t e w m ∧ Stores e.c.me m x (a.nat / 128) fun k =>
      let j := k - a.nat % 128
      if a.nat % 128 ≤ k ∧ j < n ∧ (dataMask b).getLsbD (j / 4) = true then
        some ((dataVec b).extractLsb' (8 * j) 8) else none) ∧
  (∀ op ∈ [(Instr.feClr, false), (.feSet, true)], FiresData s (op.1 w) w e a b c →
    OwnLine e w (a.nat / 128 * 128) x → x.param = false → e.aPlus .region = [] →
    ∃ t m, exec (op.1 w) s = .next t ∧ OnMe s t e w m ∧ m = { e.c.me with lines := m.lines } ∧
      (∀ k, k ≠ a.nat / 128 → m.line k = e.c.me.line k) ∧
      m.line (a.nat / 128) = { (if l.isOwn x then l else { lot := x.own }) with full := op.2 })

/-- R358, R359: an atomic on the cell's own scratchpad writes the new value and delivers the old one. -/
def Obligations.AtomicResults : Prop := ∀ op ∈ atomOps, ∀ s w e a b c x, FiresData s (op.1 w) w e a b c →
  w.atomGlobal = false → OwnLine e w a.nat x →
  let n := if w.size64 then 8 else 4
  let l := e.c.me.line (a.nat / 128)
  let v (i : Nat) : Nat := vWord c i
  let opnd := if w.size64 then v 0 + 2 ^ 32 * v 1 else v 0
  let repl := if w.size64 then v 2 + 2 ^ 32 * v 3 else v 1
  let old := seenValue l x a.nat n
  a.nat % n = 0 → Readable l x a.nat n → e.c.me.writeBad (some x) (a.nat / 128) false = false →
  ∃ t m, exec (op.1 w) s = .next t ∧ OnMe s t e w m ∧
    (Stores e.c.me m x (a.nat / 128) fun k =>
      if a.nat % 128 ≤ k ∧ k < a.nat % 128 + n then
        some (BitVec.ofNat 8 (op.2 w (8 * n) old opnd repl % 2 ^ (8 * n) / 2 ^ (8 * (k - a.nat % 128)))) else none) ∧
    Gives e t w (verOf [a, b, c])
      (if w.dst.isVecDst then
        .vec { data := BitVec.ofNat 512 old, mask := if w.size64 then 3 else 1, fmt := .i32 }
      else .scal (BitVec.ofNat 32 old))

/-- R361-R363: the bobbin operations of the cell's own declarations, the tail being where its publications have left
it. -/
def Obligations.BobbinResults : Prop := ∀ s w e a b c r0,
  let i := w.immBits 8 3
  let r := r0.settle s.reqDone
  let puts (t : State) (x : Bobbin) : Prop := OnMe s t e w { e.c.me with decls := e.c.me.decls.put i (.bobbin x) }
  let keeps (t : State) : Prop := OnMe s t e w e.c.me
  let gives (t : State) (x : Word) : Prop := Gives e t w (verOf [a, b, c]) (.scal x)
  w.remote = false → e.c.me.decls.get? i = some (.bobbin r0) →
  (FiresData s (.ringRes w) w e a b c →
    (r.closed = false → ∃ t, exec (.ringRes w) s = .next t ∧ puts t { r with res := r.res + 1 } ∧ gives t r.res ∧
      SetsPred (e.ceIn t) w true) ∧
    (r.closed = true → ∃ t, exec (.ringRes w) s = .next t ∧ keeps t ∧ gives t 0xFFFFFFFF ∧
      SetsPred (e.ceIn t) w false)) ∧
  (FiresData s (.ringPub w) w e a b c → e.aPlus .region = [] →
    let j := a.val.word
    let fresh := (j - r.tail).toNat < (r.res - r.tail).toNat ∧ r.pub.getLsbD (j.toNat % r.slots) = false
    (fresh → ∃ t, exec (.ringPub w) s = .next t ∧ SetsPred (e.ceIn t) w true ∧
      puts t (Bobbin.advance { r with pub := r.pub ||| (1#256 <<< (j.toNat % r.slots)) } r.slots)) ∧
    (¬ fresh → r.wasReserved j = true → ∃ t, exec (.ringPub w) s = .next t ∧ keeps t ∧ SetsPred (e.ceIn t) w false) ∧
    (¬ fresh → r.wasReserved j = false → NotShut s e → ∃ t, exec (.ringPub w) s = .next t ∧ Freezes s t e fRing)) ∧
  (∀ op ∈ [(Instr.ringPop, { r with head := r.head + 1 }), (.ringPeek, r)], FiresData s (op.1 w) w e a b c →
    (r.head ≠ r.tail → ∃ t, exec (op.1 w) s = .next t ∧ puts t op.2 ∧ gives t r.head ∧ SetsPred (e.ceIn t) w true) ∧
    (r.head = r.tail → r.closed = true ∧ ∃ t, exec (op.1 w) s = .next t ∧ keeps t ∧ SetsPred (e.ceIn t) w false ∧
      ∀ o ∈ outsOf w.dst, (e.ceIn t).outList o = e.c.ce.outList o ++
        [.filled { body := emptyBody o, ctx := outCtx w, ver := verFor o (verOf [a, b, c]), mark := .eos, since := s.cycle }])) ∧
  (FiresData s (.ringClose w) w e a b c → ∃ t x, exec (.ringClose w) s = .next t ∧ puts t x ∧
    x.closed = true ∧ x.head = r.head ∧ x.tail = r.tail ∧ (r.closed = true → x = r) ∧
    (r.closed = false → x.res = r.tail ∧ x.pub = 0)) ∧
  (FiresData s (.ringStat w) w e a b c → ∃ t, exec (.ringStat w) s = .next t ∧ keeps t ∧
    SetsPred (e.ceIn t) w r.closed ∧ gives t (BitVec.ofNat 32 ((r.tail - r.head).toNat % 512 +
      (r.slots - (r.res - r.head).toNat) % 512 * 2 ^ 16 + if r.closed then 2 ^ 31 else 0)))

/-- R353, R357: a firing on another cell's memory element, on global memory or on a timeline issues one request; one
that releases accesses leaves once they are performed (R360-R362, R310), and `launch` waits for its at SYSTEM scope
(R228). -/
def Obligations.RequestsIssued : Prop := ∀ s w e a b c,
  let asks (i : Instr) (g : Goal) (after : List Nat) : Prop := FiresData s i w e a b c →
    ∃ t q, exec i s = .next t ∧ Issues s t e w q ∧ q.goal = g ∧ q.ret = retOf w.dst ∧
      q.st = if after.all s.reqDone then .net else .waiting after
  let me (op : MeOp) : Goal := .me e.spot.h w.cellCol w.cellRow op
  let i := w.immBits 8 3
  let ld := if w.dst.isVecDst then 64 else 4
  let n := if w.size64 then 8 else 4
  let va := BitVec.ofNat 64 (b.nat * 2 ^ 32 + a.nat)
  let bytes (c : Src) : List (Option Byte) := (List.range (if c.val.isVec then 64 else 4)).map fun k =>
    if (dataMask c).getLsbD (k / 4) then some ((dataVec c).extractLsb' (8 * k) 8) else none
  (w.remote = true →
    (a.nat % ld = 0 → asks (.lds w) (me (.read a.nat ld)) []) ∧
    (a.nat % dataSize b = 0 → dataMask b ≠ 0 →
      asks (.sts w) (me (.write a.nat (dataSize b) (dataVec b) (dataMask b) false)) []) ∧
    (∀ op ∈ [(Instr.atomAdd, AtomOp.add), (.atomMin, .min), (.atomMax, .max), (.atomXchg, .xchg), (.atomCas, .cas),
        (.atomAnd, .and), (.atomOr, .or)], w.atomGlobal = false → a.nat % n = 0 →
      asks (op.1 w) (me (.rmw a.nat (atomRmw op.2 w c) (!w.dst.isZero))) []) ∧
    asks (.feSet w) (me (.feSet (a.nat / 128 * 128))) (e.aPlus .region) ∧
    asks (.feClr w) (me (.feClr (a.nat / 128 * 128))) [] ∧ asks (.feTest w) (me (.feTest (a.nat / 128 * 128))) [] ∧
    asks (.ringRes w) (me (.ringRes i)) [] ∧ asks (.ringPub w) (me (.ringPub i a.val.word)) (e.aPlus .region) ∧
    asks (.ringPop w) (me (.ringPop i)) (e.popWaits w e.spot.h w.cellCol w.cellRow) ∧
    asks (.ringPeek w) (me (.ringPeek i)) [] ∧ asks (.ringClose w) (me (.ringClose i)) [] ∧
    asks (.ringStat w) (me (.ringStat i)) [] ∧ asks (.hem w) (me (.hem i)) []) ∧
  (s.canonical e.id.die e.part va = true →
    (a.nat % ld = 0 → asks (.ldg w) (.mem va (.load ld)) []) ∧
    (a.nat % dataSize c = 0 → dataMask c ≠ 0 → asks (.stg w) (.mem va (.store (bytes c))) []) ∧
    (∀ op ∈ [(Instr.atomAdd, AtomOp.add), (.atomMin, .min), (.atomMax, .max), (.atomXchg, .xchg), (.atomCas, .cas),
        (.atomAnd, .and), (.atomOr, .or)], w.atomGlobal = true → a.nat % n = 0 →
      asks (op.1 w) (.mem va (.rmw (atomRmw op.2 w c) (!w.dst.isZero))) [])) ∧
  asks (.tlWait w) (.tl (s.tlCopy e.id.die e.part (w.immBits 16 16)) (.arm va)) [] ∧
  asks (.tlRead w) (.tl (s.tlCopy e.id.die e.part (w.immBits 16 16)) .read) [] ∧
  (∀ record reply, record = BitVec.ofNat 64 (vWord a 0 + 2 ^ 32 * vWord a 1) →
    reply = BitVec.ofNat 64 (vWord a 2 + 2 ^ 32 * vWord a 3) → record.toNat % 1024 = 0 → reply.toNat % 128 = 0 →
    s.canonical e.id.die e.part record = true → reply = 0 ∨ s.canonical e.id.die e.part reply = true →
    FiresData s (.launch w) w e a b c → ∃ t u q, exec (.launch w) s = .next t ∧ Issues s u e w q ∧
      Announced u t .system (e.aPlus .system) ∧ q.ret = retOf w.dst ∧
      q.goal = .launch record reply
        ((List.range (min 11 (vWord a 4))).map fun k => BitVec.ofNat 32 (vWord a (5 + k))) ∧
      q.st = if (e.aPlus .system).all s.reqDone then .net else .waiting (e.aPlus .system))

/-- R356-R358, R310: a misaligned offset or address faults ALIGN, a non-canonical address CANON, precisely; a store
whose mask enables nothing issues nothing. -/
def Obligations.AddressFaults : Prop := ∀ s w e a b c, NotShut s e →
  let stops (i : Instr) (f : FaultRec) : Prop := FiresData s i w e a b c → ∃ t, exec i s = .next t ∧ FreezesWith s t e f
  let va := BitVec.ofNat 64 (b.nat * 2 ^ 32 + a.nat)
  let at_ (code : Nat) (x : DWord) : FaultRec := { e.faultRec code with kind := 1, addr := x }
  let ld := if w.dst.isVecDst then 64 else 4
  let n := if w.size64 then 8 else 4
  let atoms : List (CEWord → Instr) := [.atomAdd, .atomMin, .atomMax, .atomXchg, .atomCas, .atomAnd, .atomOr]
  (a.nat % ld ≠ 0 → stops (.lds w) ((e.faultRec fAlign).atLine a.nat) ∧ stops (.ldg w) (at_ fAlign va)) ∧
  (a.nat % ld = 0 → s.canonical e.id.die e.part va = false → stops (.ldg w) (at_ fCanon va)) ∧
  (a.nat % dataSize b ≠ 0 → stops (.sts w) ((e.faultRec fAlign).atLine a.nat)) ∧
  (a.nat % dataSize c ≠ 0 → stops (.stg w) (at_ fAlign va)) ∧
  (a.nat % dataSize c = 0 → s.canonical e.id.die e.part va = false → stops (.stg w) (at_ fCanon va)) ∧
  (∀ op ∈ atoms,
    (w.atomGlobal = false → a.nat % n ≠ 0 → stops (op w) ((e.faultRec fAlign).atLine a.nat)) ∧
    (w.atomGlobal = true → a.nat % n ≠ 0 → stops (op w) (at_ fAlign va)) ∧
    (w.atomGlobal = true → a.nat % n = 0 → s.canonical e.id.die e.part va = false → stops (op w) (at_ fCanon va))) ∧
  ((vPair a 0).toNat % 1024 ≠ 0 → stops (.launch w) (at_ fAlign (vPair a 0))) ∧
  (dataMask b = 0 → a.nat % dataSize b = 0 → FiresData s (.sts w) w e a b c →
    ∃ t, exec (.sts w) s = .next t ∧ Completes s t e w) ∧
  (dataMask c = 0 → a.nat % dataSize c = 0 → s.canonical e.id.die e.part va = true → FiresData s (.stg w) w e a b c →
    ∃ t, exec (.stg w) s = .next t ∧ Completes s t e w)

/-- R364, R365: `bot.give` ends the ownership of the bank and leaves a token that waits for the cell's accesses to it;
`bot.take` consumes the oldest token and owns or binds the bank. -/
def Obligations.BankTokens : Prop := ∀ s w e a b c,
  let i := w.immBits 8 3
  (FiresData s (.botGive w) w e a b c → ∃ t g, exec (.botGive w) s = .next t ∧ Consumed e.c.ce (e.ceIn t) w ∧
    CeKept e.c.ce (e.ceIn t) w ∧ e.meIn t = { e.c.me with banks := (e.meIn t).banks, later := (e.meIn t).later } ∧
    (e.meIn t).bank i = { e.c.me.bank i with owned := false } ∧
    (∀ k, k ≠ i → (e.meIn t).bank k = e.c.me.bank k) ∧ (e.meIn t).later = e.c.me.later ++ [g] ∧ g.id = s.nextId ∧
    g.op = .give i w.cellCol w.cellRow a.nat (w.imm.getLsbD 12) (e.bankRef i) ∧
    g.reqs = s.touching e.id (s.bankHandle (e.bankRef i)) (e.bankRef i).col (e.bankRef i).row
      (128 * (e.bankRef i).bank) 128 ∧
    (∀ k, k ≠ e.id → t.cells.get {} k = s.cells.get {} k) ∧
    t = { s with cells := t.cells, regions := t.regions, nextId := s.nextId + 1 }) ∧
  (FiresData s (.botTake w) w e a b c → ∃ t x rest, (e.c.me.bank i).tokens = x :: rest ∧
    exec (.botTake w) s = .next t ∧ Consumed e.c.ce (e.ceIn t) w ∧ CeKept e.c.ce (e.ceIn t) w ∧
    e.meIn t = { e.c.me with banks := (e.meIn t).banks } ∧
    (e.meIn t).bank i = { e.c.me.bank i with
      owned := true, tokens := rest, bound := if e.ownRef i x then none else some x } ∧
    (∀ k, k ≠ i → (e.meIn t).bank k = e.c.me.bank k) ∧
    (∀ k, k ≠ e.id → t.cells.get {} k = s.cells.get {} k) ∧
    t = { s with cells := t.cells, regions := t.regions })

/-- R366, R368: `baste` and `baste.final` publish the version that the counter, the op and HEMMED give, at once where
nothing is to be waited for; past the last version they fault; `hem` marks the buffer until it is final. -/
def Obligations.BastingResults : Prop := ∀ s w e a b c x,
  let i := w.immBits 8 3
  e.c.me.decls.get? i = some (.basting x) →
  (∀ op ∈ [(Instr.baste, false), (.basteFinal, true)], FiresData s (op.1 w) w e a b c →
    let held := x.shown = some 15 ∨ ∃ d ∈ x.due, d.ver = 15
    let last := op.2 = true ∨ x.hemmed = true
    let waits := s.touching e.id e.spot.h e.spot.col e.spot.row x.base x.lines ++ e.aPlus .region
    (held ∨ ¬ last ∧ x.v = 15 → NotShut s e → ∃ t, exec (op.1 w) s = .next t ∧ Freezes s t e fVersion) ∧
    (¬ held → last ∨ x.v ≠ 15 →
      ∃ t ver v, exec (op.1 w) s = .next t ∧ (last → ver = 15#4 ∧ v = x.v) ∧
        (¬ last → ver = BitVec.ofNat 4 x.v ∧ v = x.v + 1) ∧ SetsPred (e.ceIn t) w (ver != 15) ∧
        Gives e t w (verOf [a, b, c]) (.scal (ver.zeroExtend 32)) ∧ Consumed e.c.ce (e.ceIn t) w ∧
        (waits = [] → (e.meIn t).decls.get? i = some (.basting { x with v := v, shown := some ver }) ∧
          ((∀ k, (e.c.me.bank k).bound = none) → ∀ n, (e.meIn t).line n =
            if x.base ≤ n ∧ n < x.base + x.lines then { e.c.me.line n with ver := ver } else e.c.me.line n)) ∧
        (waits ≠ [] → (e.meIn t).decls.get? i =
            some (.basting { x with v := v, due := x.due ++ [{ id := s.nextId, slot := e.slot, ver := ver, reqs := waits }] }) ∧
          ∀ n, (e.meIn t).line n = e.c.me.line n))) ∧
  (FiresData s (.hem w) w e a b c → w.remote = false → ∃ t, exec (.hem w) s = .next t ∧
    OnMe s t e w { e.c.me with decls := (e.meIn t).decls } ∧
    ((e.meIn t).basting i = some (if x.shown = some 15 then x else { x with hemmed := true })) ∧
    ∀ k, k ≠ i → (e.meIn t).decls.get? k = e.c.me.decls.get? k)

/-- R308, R370: `fence`, `sbar` and `tbar` complete in their firing and leave a wait on the context, where there is
something to wait for; at SYSTEM scope the wait is made known to the requests waited for (R228). -/
def Obligations.FenceAndBarrierWaits : Prop := ∀ s w e a b c,
  let old := e.c.ce.waits.get [] e.ctx
  let leaves (t : State) (l : List Wait) : Prop := Consumed e.c.ce (e.ceIn t) w ∧
    (e.ceIn t).waits.get [] e.ctx = old ++ l ∧
    (∀ k, k ≠ e.ctx → (e.ceIn t).waits.get [] k = e.c.ce.waits.get [] k) ∧ (e.ceIn t).slots = e.c.ce.slots
  (FiresData s (.fence w) w e a b c →
    let l := s.pending (· == .ctx e.id e.ctx) e.id e.spot.h (e.scope w) (w.immBits 14 2 == 0)
    ∃ t u, exec (.fence w) s = .next t ∧ OnlyFires s u e ∧ leaves u (if l = [] then [] else [.fence l]) ∧
      Announced u t (e.scope w) l) ∧
  (FiresData s (.sbar w) w e a b c →
    let m : BitVec 4 := w.imm.extractLsb' 16 4
    let l := s.pending (fun x => x == .ctx e.id e.ctx ||
      (List.range 4).any fun k => m.getLsbD k && x == .stream e.id k) e.id e.spot.h (e.scope w) false
    ∃ t u, exec (.sbar w) s = .next t ∧ OnlyFires s u e ∧ leaves u (if l = [] then [] else [.sbar m l]) ∧
      Announced u t (e.scope w) l) ∧
  (FiresData s (.tbar w) w e a b c →
    let k := e.tbarLevel (w.immBits 8 3)
    let b0 := e.spot.r.tbars.get {} k
    let l := s.pending e.spot.r.hasAgent e.id e.spot.h (teamScope e.launch k) false
    ∃ t u, exec (.tbar w) s = .next t ∧ leaves u [.tbar k b0.epoch] ∧ Announced u t (teamScope e.launch k) l ∧
      (∀ x, x ≠ e.id → u.cells.get {} x = s.cells.get {} x) ∧ u = { s with cells := u.cells, regions := u.regions } ∧
      (s.regions.get? e.spot.h = some e.spot.r → ∃ r, u.regions.get? e.spot.h = some r ∧
        r.tbars.get {} k = (if b0.arrived || b0.due.isSome then b0 else { b0 with due := some l }) ∧
        ∀ j, j ≠ k → r.tbars.get {} j = e.spot.r.tbars.get {} j))

/-- R373, R374: `lot.new` grants the lowest lines that fit under a lot not live before, or refuses with all ones;
`lot.end` ends the lot that its handle names. -/
def Obligations.LotResults : Prop := ∀ s w e a b c,
  let k := a.nat
  let idxs := (List.range 63).map (· + 1)
  (FiresData s (.lotNew w) w e a b c →
    (k = 0 ∨ 1024 < k ∨ e.c.me.poolPlace k = none ∨ (∀ j ∈ idxs, j ∈ s.poolIdx e.spot.r) →
      ∃ t, exec (.lotNew w) s = .next t ∧ OnMe s t e w e.c.me ∧ Gives e t w (verOf [a, b, c]) (.scal 0xFFFFFFFF) ∧
        SetsPred (e.ceIn t) w false) ∧
    (∀ f j v, 0 < k → k ≤ 1024 → e.c.me.poolPlace k = some f → j ∈ idxs → j ∉ s.poolIdx e.spot.r →
      (∀ x ∈ idxs, x < j → x ∈ s.poolIdx e.spot.r) → lotFree (s.lots.get {} e.id.die) = some v →
      ∃ t p, exec (.lotNew w) s = .next t ∧ (e.meIn t).pool = p :: e.c.me.pool ∧ p.first = f ∧ p.count = k ∧
        p.idx = j ∧ p.lot = v ∧ p.fesync = w.imm.getLsbD 10 ∧ p.mode = modeOf (w.immBits 8 2) ∧
        Gives e t w (verOf [a, b, c]) (.scal (BitVec.ofNat 32 (f + j * 2 ^ 16))) ∧ SetsPred (e.ceIn t) w true ∧
        (t.lots.get {} e.id.die).counter = v ∧
        ∀ x, x ≠ e.id → t.cells.get {} x = s.cells.get {} x)) ∧
  (FiresData s (.lotEnd w) w e a b c →
    ((∀ p ∈ e.c.me.pool, a.nat ≠ p.first + p.idx * 2 ^ 16) → ∃ t, exec (.lotEnd w) s = .next t ∧
      OnMe s t e w e.c.me ∧ SetsPred (e.ceIn t) w false) ∧
    (∀ p, e.c.me.pool = [p] → a.nat = p.first + p.idx * 2 ^ 16 → ∃ t, exec (.lotEnd w) s = .next t ∧
      (e.meIn t).pool = [] ∧ SetsPred (e.ceIn t) w true ∧ p.lot ∉ (t.lots.get {} e.id.die).live ∧
      t.mem = s.mem ∧ t.reqs = s.reqs))

/-- R307, R311, R369: team coordinates, the partition's cycle counter, the press test. -/
def Obligations.TeamAndClockResults : Prop := ∀ s w e a b c,
  (FiresData s (.teamid w) w e a b c →
    let k := w.immBits 8 3
    let kind := w.immBits 16 2
    ∀ l, e.launch = some l → ∃ t, exec (.teamid w) s = .next t ∧ Gives e t w (verOf [a, b, c]) (.scal (BitVec.ofNat 32
      (if k < l.levels then
        [l.coord e.spot.r.inst k, l.teamNo e.spot.r.inst k, l.teams k, l.fanout k].getD kind 0
      else if kind < 2 then 0 else 1)))) ∧
  (FiresData s (.clkrd w) w e a b c → ∃ t, exec (.clkrd w) s = .next t ∧ Gives e t w (verOf [a, b, c])
    (if w.dst.isVecDst then .vec { data := BitVec.ofNat 512 (s.partCycle e.part % 2 ^ 64), mask := 3 }
    else .scal (BitVec.ofNat 32 (s.partCycle e.part)))) ∧
  (FiresData s (.pressTest w) w e a b c → ∃ t, exec (.pressTest w) s = .next t ∧
    SetsPred (e.ceIn t) w (s.pressed e.spot.r) ∧
    Gives e t w (verOf [a, b, c]) (.scal (if s.pressed e.spot.r then 1 else 0)))

/-! ### The Xphido extension -/

/-- R376, R277: a form executed on a core or in a mode where it may not run, and every encoding that names no form,
raise the illegal-instruction exception, with the word as its value. What entry into the exception saves and where it
goes follow the RISC-V privileged architecture: the model's choice, log 11. -/
def Obligations.IllegalForms : Prop := ∀ s d n, s.focus = .hart d n → (s.hart d n).Ok →
  (∀ i a, allowedFor i = some a → ¬ a.at s d n → ∃ t w, exec i s = .next t ∧ i.xphidoWord = some w ∧
    Traps s t d n 2 (w.zeroExtend 64)) ∧
  (∀ w, ∃ t, exec (.unassignedXphido w) s = .next t ∧ Traps s t d n 2 (w.zeroExtend 64))

/-- R127, R382-R387, R389: what the operations on regions do by the region's state. -/
def Obligations.RegionOperations : Prop := ∀ s d n rd rs1 rs2 w r,
  let on (i : Instr) : Prop := OnTarget s d n i rs1 w r
  let v := (s.hart d n).readX rs2
  let ends (i : Instr) (x : DWord) : Prop := ∃ t, exec i s = .next t ∧ Answers s t d n rd x
  let works (i : Instr) (f : State → Prop) : Prop := ∃ t, exec i s = .next t ∧ Retires s t d n rd 0 ∧ f t
  let becomes (f : Region → Prop) (t : State) : Prop := ∃ r', t.regions.get? w = some r' ∧ f r'
  (on (.rgStop rd rs1) →
    (r.state = .running → works (.rgStop rd rs1) fun t =>
      t = { s with harts := t.harts, regions := t.regions } ∧ (∀ h, h ≠ w → t.regions.get? h = s.regions.get? h) ∧
      t.regions.get? w = some { r with state := .stopping, stopAt := some s.cycle, byStop := true }) ∧
    (r.state ∈ [.stopping, .freezing, .frozen] → ends (.rgStop rd rs1) 0) ∧
    (r.state ∈ [.allocated, .loaded, .retired] → ends (.rgStop rd rs1) 1)) ∧
  (on (.rgFree rd rs1) →
    (r.state = .allocated ∨ r.state = .frozen ∨ r.state = .retired ∧ r.launch = none →
      works (.rgFree rd rs1) fun t => NoneWaits s → t.regions.get? w = none) ∧
    (¬ (r.state = .allocated ∨ r.state = .frozen ∨ r.state = .retired ∧ r.launch = none) → ends (.rgFree rd rs1) 1)) ∧
  (on (.rgShut rd rs1) →
    (r.state = .running ∨ r.state = .frozen → works (.rgShut rd rs1)
      (becomes fun q => q.forceShut = true ∧ q.shut = true ∧ q.state = .running)) ∧
    (r.state ≠ .running → r.state ≠ .frozen → ends (.rgShut rd rs1) 1)) ∧
  (on (.rgStart rd rs1 rs2) →
    (r.state = .loaded → v = 0 → s.lotsReady r.wantLots = true → works (.rgStart rd rs1 rs2) fun t =>
      becomes (fun q => q.state = .running ∧ q.fault = none ∧ q.stopAt = none) t ∧
      ∃ l, l = (t.cells.get {} r.origin).me.line 1023 ∧ l.data = 0 ∧ l.full = true) ∧
    (r.state = .frozen → v = 0 → (xenv s d n).switching r = false → works (.rgStart rd rs1 rs2)
      (becomes fun q => q.state = .running ∧ q.wave = [] ∧ q.fault = none ∧ q.stopAt = none)) ∧
    (r.state = .loaded ∨ r.state = .frozen → v &&& 0x7E ≠ 0 → ends (.rgStart rd rs1 rs2) 15) ∧
    (r.state ≠ .loaded → r.state ≠ .frozen → ends (.rgStart rd rs1 rs2) 1)) ∧
  (on (.rgPlace rd rs1 rs2) →
    (r.state ≠ .allocated → r.state ≠ .frozen → ends (.rgPlace rd rs1 rs2) 1) ∧
    (r.state = .allocated ∨ r.state = .frozen → v.toNat % 8 ≠ 0 → ends (.rgPlace rd rs1 rs2) 15) ∧
    (r.state = .allocated ∨ r.state = .frozen → v.toNat % 8 = 0 →
      s.loadHalves d (s.hartPart d n) (s.hart d n).asid v (r.width + r.height) = none → ends (.rgPlace rd rs1 rs2) 13) ∧
    (∀ b, r.state = .allocated → v.toNat % 8 = 0 →
      s.loadHalves d (s.hartPart d n) (s.hart d n).asid v (r.width + r.height) = some b →
      let cols := (halves b).take r.width
      let rows := ((halves b).drop r.width).take r.height
      (s.tableOk w r cols rows = false → ends (.rgPlace rd rs1 rs2) 4) ∧
      (s.tableOk w r cols rows = true →
        works (.rgPlace rd rs1 rs2) fun t => t.regions.get? w = some { r with cols := cols, rows := rows }))) ∧
  (on (.rgLoad rd rs1 rs2) →
    (r.state ≠ .allocated ∨ r.launch ≠ none → ends (.rgLoad rd rs1 rs2) 1) ∧
    (r.state = .allocated → r.launch = none → v &&& 0x3E ≠ 0 → ends (.rgLoad rd rs1 rs2) 15) ∧
    (∀ m va, r.state = .allocated → r.launch = none → v &&& 0x3E = 0 → va = v &&& ~~~0x3F →
      s.asleepIn r.rect = [] → s.readImage d (s.hartPart d n) (s.hart d n).asid va = .ok m →
      (m.check ((xenv s d n).wantOf r (v.getLsbD 0)) = none → s.blockedRoute (loadedWith m va r) = none →
        works (.rgLoad rd rs1 rs2) fun t => t.regions.get? w = some (loadedWith m va r)) ∧
      (∀ j, m.check ((xenv s d n).wantOf r (v.getLsbD 0)) = some j → ∃ t, exec (.rgLoad rd rs1 rs2) s = .next t ∧
        Retires s t d n rd (if j.code = 0x12 then 12 else 11) ∧ t.regions.get? w = some r)))

/-- R383, R389: a region comes with `rg.alloc` and goes with `rg.kill`. -/
def Obligations.RegionComesAndGoes : Prop := ∀ s d n rd rs1 rs2,
  let a := (s.hart d n).readX rs1
  let b := (s.hart d n).readX rs2
  (Forms s d n (.rgAlloc rd rs1 rs2) →
    (a = 0 → ∃ t, exec (.rgAlloc rd rs1 rs2) s = .next t ∧ Answers s t d n rd (15 <<< 32)) ∧
    (∀ vd wd ht l k q, vd < 1024 → 0 < wd → wd ≤ 96 → 0 < ht → ht ≤ 48 →
      a = BitVec.ofNat 64 (vd * 2 ^ 32 + wd * 2 ^ 16 + ht) → b = 0 → s.leadDie (s.hartPart d n) = some l →
      s.regField l (.vdcfg vd) 0 0 = 1 → s.regField l (.vdcfg vd) 20 16 = s.hartPart d n →
      s.firstFit [d] [] wd ht (fun _ => true) = some q → s.freeEntry (cellOf q.x q.y).die = some k →
      ∃ t r, exec (.rgAlloc rd rs1 rs2) s = .next t ∧ Retires s t d n rd ((s.archHandle k).zeroExtend 64) ∧
        t.regions.get? k = some r ∧ r.state = .allocated ∧ r.vd = vd ∧ r.width = q.w ∧ r.height = q.h ∧
        r.cols = q.cols ∧ r.rows = q.rows ∧ r.launch = none ∧
        ∀ h, h ≠ k → t.regions.get? h = s.regions.get? h) ∧
    (∀ vd wd ht l, vd < 1024 → 0 < wd → wd ≤ 96 → 0 < ht → ht ≤ 48 →
      a = BitVec.ofNat 64 (vd * 2 ^ 32 + wd * 2 ^ 16 + ht) → b = 0 → s.leadDie (s.hartPart d n) = some l →
      (s.regField l (.vdcfg vd) 0 0 ≠ 1 →
        ∃ t, exec (.rgAlloc rd rs1 rs2) s = .next t ∧ Answers s t d n rd (2 <<< 32)) ∧
      (s.regField l (.vdcfg vd) 0 0 = 1 → s.regField l (.vdcfg vd) 20 16 = s.hartPart d n →
        s.firstFit [d] [] wd ht (fun _ => true) = none →
        ∃ t, exec (.rgAlloc rd rs1 rs2) s = .next t ∧ Answers s t d n rd (7 <<< 32)))) ∧
  (∀ w r, Forms s d n (.rgKill rd rs1) → (s.hart d n).wait = none →
    (xenv s d n).target a = .ok (w, r) → (xenv s d n).switching r = false →
    ∃ t, exec (.rgKill rd rs1) s = .next t ∧ Completed s t d n rd 0 ∧ (NoneWaits s → t.regions.get? w = none) ∧
      ∀ d' n', (s.hart d' n').draining w = none → (d', n') ≠ (d, n) → HartKept (s.hart d' n') (t.hart d' n'))

/-- R130-R135, R387-R389, R391: what a hart learns of a region, the saving and restoring of its context, and the start
of a sweep. -/
def Obligations.RegionReports : Prop := ∀ s d n rd rs1 rs2,
  let v := (s.hart d n).readX rs2
  (∀ w r, OnTarget s d n (.rgDrain rd rs1) rs1 w r → (s.hart d n).wait = none →
    (r.state = .frozen → ∃ t, exec (.rgDrain rd rs1) s = .next t ∧
      Answers s t d n rd (BitVec.ofNat 64 ((s.snapshot w r).size * 2 ^ 16))) ∧
    (r.state = .stopping ∨ r.state = .freezing → ∃ t, exec (.rgDrain rd rs1) s = .next t ∧ OnlyHarts s t ∧
      Holds s t d n (.drain s.cycle rd w)) ∧
    (r.state ∈ [.allocated, .loaded, .running, .retired] → ∃ t, exec (.rgDrain rd rs1) s = .next t ∧
      Answers s t d n rd 1)) ∧
  (∀ w r c, OnTarget s d n (.rgDrain rd rs1) rs1 w r → (s.hart d n).wait = some (.drain c rd w) →
    (r.state = .frozen → ∃ t, exec (.rgDrain rd rs1) s = .next t ∧ Answers s t d n rd
      (BitVec.ofNat 64 ((s.snapshot w r).size * 2 ^ 16) ||| if r.fault = none then 0 else 9)) ∧
    (r.state = .retired → ∃ t, exec (.rgDrain rd rs1) s = .next t ∧ Answers s t d n rd 8) ∧
    (r.state = .stopping ∨ r.state = .freezing → exec (.rgDrain rd rs1) s = .next s)) ∧
  (Forms s d n (.rgStat rd rs1 rs2) →
    let a := (s.hart d n).readX rs1
    (2 < v.toNat ∨ s.findHandle d (s.hartPart d n) (a.extractLsb' 0 32) = none → ∃ t,
      exec (.rgStat rd rs1 rs2) s = .next t ∧ Answers s t d n rd 0xFFFFFFFFFFFFFFFF) ∧
    (∀ w r, a.extractLsb' 32 32 = 0 → s.findHandle d (s.hartPart d n) (a.extractLsb' 0 32) = some w →
      s.regions.get? w = some r → isC d = false ∨ handleDie w = d →
      (v = 0 → ∃ t, exec (.rgStat rd rs1 rs2) s = .next t ∧ Answers s t d n rd (BitVec.ofNat 64 (
        (match r.state with
          | .allocated => 1 | .loaded => 2 | .running => 3 | .stopping => 4 | .freezing => 5 | .frozen => 6
          | .retired => 7) + s.logicalOf r.origin.die * 2 ^ 8 +
        (match r.fault with
          | some f => f.code % 256 * 2 ^ 16
          | none => 0) + (if r.given.any (·.other) then 2 ^ 24 else 0) +
        (if r.launch.isNone then 2 ^ 25 else 0) + min 0xFFFF (s.replayCount w r) * 2 ^ 32))) ∧
      (v = 1 → ∃ t, exec (.rgStat rd rs1 rs2) s = .next t ∧ Answers s t d n rd (BitVec.ofNat 64 r.wcs)) ∧
      (v = 2 → ∃ t, exec (.rgStat rd rs1 rs2) s = .next t ∧ Answers s t d n rd (BitVec.ofNat 64 r.lastSize)))) ∧
  (∀ w r, OnTarget s d n (.rgSave rd rs1 rs2) rs1 w r →
    let snap := s.snapshot w r
    let bytes := s.rciBytes s.nextId (s.hartPart d n) s.arith snap
    (r.state ≠ .frozen → ∃ t, exec (.rgSave rd rs1 rs2) s = .next t ∧ Answers s t d n rd 1) ∧
    (r.state = .frozen → v.toNat % 4096 ≠ 0 → ∃ t, exec (.rgSave rd rs1 rs2) s = .next t ∧ Answers s t d n rd 15) ∧
    (r.state = .frozen → v.toNat % 4096 = 0 → (∃ g ∈ r.given, g.other = true ∧ g.launch ≠ none) →
      ∃ t, exec (.rgSave rd rs1 rs2) s = .next t ∧ Answers s t d n rd 6) ∧
    (r.state = .frozen → v.toNat % 4096 = 0 → (∀ g ∈ r.given, g.other = false ∨ g.launch = none) →
      s.writable d (s.hartPart d n) (s.hart d n).asid v (bytes.length / 128) = bytes.length / 128 →
      ∃ t, exec (.rgSave rd rs1 rs2) s = .next t ∧ Retires s t d n rd 0 ∧
        t.regions.get? w = some { r with lastSize := bytes.length } ∧
        t.vault = s.vault ++ [{ part := s.hartPart d n, epoch := s.epochs.get 0 (s.hartPart d n), bytes := bytes
                                snap := snap }])) ∧
  (∀ w r, OnTarget s d n (.rgRestore rd rs1 rs2) rs1 w r →
    (r.state ≠ .allocated → ∃ t, exec (.rgRestore rd rs1 rs2) s = .next t ∧ Answers s t d n rd 1) ∧
    (r.state = .allocated → v.toNat % 4096 ≠ 0 → ∃ t, exec (.rgRestore rd rs1 rs2) s = .next t ∧
      Answers s t d n rd 15) ∧
    (∀ e, r.state = .allocated → v.toNat % 4096 = 0 → s.findRci d (s.hartPart d n) (s.hart d n).asid v = .ok e →
      (e.snap.region.width ≠ r.width ∨ e.snap.region.height ≠ r.height →
        ∃ t, exec (.rgRestore rd rs1 rs2) s = .next t ∧ Answers s t d n rd 3) ∧
      (e.snap.region.width = r.width → e.snap.region.height = r.height →
        s.blockedRoute { e.snap.region with cols := r.cols, rows := r.rows } = none → s.asleepIn r.rect = [] →
        s.lotsReady (e.snap.wants { e.snap.region with cols := r.cols, rows := r.rows }) = true →
        ∃ t q, exec (.rgRestore rd rs1 rs2) s = .next t ∧ Retires s t d n rd 0 ∧ t.regions.get? w = some q ∧
          q.state = .frozen ∧ q.imageId = e.snap.region.imageId ∧ q.cols = r.cols ∧ q.rows = r.rows))) ∧
  (Forms s d n (.lotSweep rd) →
    ((s.lots.get {} d).sweeping = true → ∃ t, exec (.lotSweep rd) s = .next t ∧ Answers s t d n rd 1) ∧
    ((s.lots.get {} d).sweeping = false → ∃ t, exec (.lotSweep rd) s = .next t ∧ Retires s t d n rd 0 ∧
      (t.lots.get {} d).sweeping = true ∧ t = { s with harts := t.harts, lots := t.lots } ∧
      ∀ k, k ≠ d → t.lots.get {} k = s.lots.get {} k))

/-- R206, R209, R392-R394: submission of a copy, and timelines as a core reads, awaits and advances them. -/
def Obligations.CopyAndTimelineForms : Prop := ∀ s d n rd rs1 rs2,
  let a := (s.hart d n).readX rs1
  let b := (s.hart d n).readX rs2
  let ends (i : Instr) (x : DWord) : Prop := ∃ t, exec i s = .next t ∧ Answers s t d n rd x
  (Forms s d n (.coreTlRead rd rs1) →
    ((xenv s d n).timeline a = none → ends (.coreTlRead rd rs1) 0xFFFFFFFFFFFFFFFF) ∧
    (∀ c, (xenv s d n).timeline a = some c → ends (.coreTlRead rd rs1) (s.copies.get {} c).tlc)) ∧
  (Forms s d n (.coreTlWait rd rs1 rs2) → ∀ c, (xenv s d n).timeline a = some c →
    let t0 := s.copies.get {} c
    let bad := ∃ q, t0.poison = some q ∧ q.1.toNat ≤ b.toNat
    (bad → ends (.coreTlWait rd rs1 rs2) 0x14) ∧
    (¬ bad → b.toNat ≤ t0.tlc.toNat → ends (.coreTlWait rd rs1 rs2) 0) ∧
    (¬ bad → t0.tlc.toNat < b.toNat → ∃ t, exec (.coreTlWait rd rs1 rs2) s = .next t ∧ OnlyHarts s t ∧
      Holds s t d n (.timeline c b rd))) ∧
  (Forms s d n (.tlAdd rd rs1 rs2) →
    ((xenv s d n).timeline a = none → ends (.tlAdd rd rs1 rs2) 0xFFFFFFFFFFFFFFFF) ∧
    (∀ c, (xenv s d n).timeline a = some c → ∃ t, exec (.tlAdd rd rs1 rs2) s = .next t ∧
      Retires s t d n rd ((s.copies.get {} c).tlc + b) ∧
      t.copies.get {} c = { s.copies.get {} c with tlc := (s.copies.get {} c).tlc + b, poison := none } ∧
      ∀ k, k ≠ c → t.copies.get {} k = s.copies.get {} k)) ∧
  (Forms s d n (.cpQuery rd rs1 rs2) → ∀ c, (xenv s d n).timeline a = some c →
    let t0 := s.copies.get {} c
    (∀ cause, t0.failed = [(b, some cause)] →
      ends (.cpQuery rd rs1 rs2) (BitVec.ofNat 64 (5 + cause % 256 * 2 ^ 8))) ∧
    (t0.failed = [(b, none)] → ends (.cpQuery rd rs1 rs2) 6) ∧
    (t0.failed = [] → t0.last.toNat < b.toNat → ends (.cpQuery rd rs1 rs2) 0) ∧
    (∀ j l, t0.failed = [] → b.toNat ≤ t0.last.toNat → t0.jobs = j :: l →
      (j.n = b → ends (.cpQuery rd rs1 rs2) (if j.suspended = none then 2 else 3)) ∧
      (j.n ≠ b → (∃ k ∈ l, k.n = b) → ends (.cpQuery rd rs1 rs2) 1) ∧
      (j.n ≠ b → (∀ k ∈ l, k.n ≠ b) → ends (.cpQuery rd rs1 rs2) 4)) ∧
    (t0.failed = [] → b.toNat ≤ t0.last.toNat → t0.jobs = [] → ends (.cpQuery rd rs1 rs2) 4)) ∧
  (Forms s d n (.cpStart rd rs1 rs2) →
    ((xenv s d n).timeline b = none ∨ a.toNat % 64 ≠ 0 → ends (.cpStart rd rs1 rs2) (-1)) ∧
    (∀ c x, (xenv s d n).timeline b = some c → c.die = d → a.toNat % 64 = 0 →
      s.loadVa d (s.hartPart d n) (s.hart d n).asid a 64 = some x →
      (s.descOk d (s.hartPart d n) x = false → ends (.cpStart rd rs1 rs2) (-1)) ∧
      (∀ k, s.descOk d (s.hartPart d n) x = true → s.descCode (s.hartPart d n) c (copyDesc x) = some k →
        ends (.cpStart rd rs1 rs2) (BitVec.ofInt 64 (-k))) ∧
      (s.descOk d (s.hartPart d n) x = true → s.descCode (s.hartPart d n) c (copyDesc x) = none →
        let t0 := s.copies.get {} c
        let no := (if t0.last.toNat < t0.tlc.toNat then t0.tlc else t0.last) + 1
        ∃ t j, exec (.cpStart rd rs1 rs2) s = .next t ∧ Retires s t d n rd no ∧
          (t.copies.get {} c).jobs = t0.jobs ++ [j] ∧ j.n = no ∧ j.desc = copyDesc x ∧ j.asid = (s.hart d n).asid ∧
          (t.copies.get {} c).last = no ∧ t = { s with harts := t.harts, copies := t.copies })))

/-- R221, R377, R395, R396: acquiring loads and releasing stores of the hart's own memory, `fence.p` and `mon.wait`;
every byte of memory but those stored keeps its value. -/
def Obligations.HartMemoryForms : Prop := ∀ s d n rd rs1 rs2 sc pa,
  let a := (s.hart d n).readX rs1
  let b := (s.hart d n).readX rs2
  let own := (s.hart d n).place d a = .own pa ∧ s.memoryReady d = true
  let byte (k : Nat) : Nat := (s.mem.read (homeKey d pa + k)).toNat
  let word := (List.range 4).foldr (fun k x => byte k + 256 * x) 0
  let dword := (List.range 8).foldr (fun k x => byte k + 256 * x) 0
  (Forms s d n (.ldacqW rd rs1 sc) →
    (a.toNat % 4 = 0 → own → s.eccAt d pa 4 = false → ∃ t, exec (.ldacqW rd rs1 sc) s = .next t ∧
      Answers s t d n rd ((BitVec.ofNat 32 word).signExtend 64)) ∧
    (a.toNat % 4 ≠ 0 → ∃ t, exec (.ldacqW rd rs1 sc) s = .next t ∧ Traps s t d n 4 a) ∧
    (a.toNat % 4 = 0 → (s.hart d n).place d a = .bad → ∃ t, exec (.ldacqW rd rs1 sc) s = .next t ∧ Traps s t d n 5 a)) ∧
  (Forms s d n (.ldacqD rd rs1 sc) →
    (a.toNat % 8 = 0 → own → s.eccAt d pa 8 = false → ∃ t, exec (.ldacqD rd rs1 sc) s = .next t ∧
      Answers s t d n rd (BitVec.ofNat 64 dword)) ∧
    (a.toNat % 8 ≠ 0 → ∃ t, exec (.ldacqD rd rs1 sc) s = .next t ∧ Traps s t d n 4 a)) ∧
  (∀ op ∈ [(Instr.strelW rs2 rs1 sc, 4), (.strelD rs2 rs1 sc, 8)], Forms s d n op.1 → s.mem.wf = true →
    (a.toNat % op.2 = 0 → own → ∃ t, exec op.1 s = .next t ∧ Retires s t d n 0 0 ∧ ∀ k, t.mem.read k =
      if homeKey d pa ≤ k ∧ k < homeKey d pa + op.2 then BitVec.ofNat 8 (b.toNat / 256 ^ (k - homeKey d pa))
      else s.mem.read k) ∧
    (a.toNat % op.2 ≠ 0 → ∃ t, exec op.1 s = .next t ∧ Traps s t d n 6 a)) ∧
  (∀ o, Forms s d n (.fenceP sc o) → ∃ t, exec (.fenceP sc o) s = .next t ∧ Answers s t d n 0 0) ∧
  (∀ c, Forms s d n (.monWait rd rs1 rs2 sc c) → a.toNat % 8 = 0 → own → s.eccAt d pa 8 = false →
    let met := match c with
      | .ne => dword ≠ b.toNat
      | .geu => b.toNat ≤ dword
    (met → ∃ t, exec (.monWait rd rs1 rs2 sc c) s = .next t ∧ Answers s t d n rd (BitVec.ofNat 64 dword)) ∧
    (¬ met → ∃ t, exec (.monWait rd rs1 rs2 sc c) s = .next t ∧ OnlyHarts s t ∧ Holds s t d n .monitor)) ∧
  (∀ c, Forms s d n (.monWait rd rs1 rs2 sc c) → a.toNat % 8 ≠ 0 →
    ∃ t, exec (.monWait rd rs1 rs2 sc c) s = .next t ∧ Traps s t d n 5 a)

/-- R75, R199, R397-R401: invalidation, fault queues, launches by a core, firewalls and debug access. -/
def Obligations.SystemForms : Prop := ∀ s d n rd rs1 rs2,
  let a := (s.hart d n).readX rs1
  let b := (s.hart d n).readX rs2
  let p := s.hartPart d n
  let asid := (s.hart d n).asid
  let ends (i : Instr) (x : DWord) : Prop := ∃ t, exec i s = .next t ∧ Answers s t d n rd x
  (Forms s d n (.ptInv rd rs1 rs2) →
    ((xenv s d n).invalOk a b = false → ends (.ptInv rd rs1 rs2) 15) ∧
    ((xenv s d n).invalOk a b = true → s.reqs = [] → ∃ t, exec (.ptInv rd rs1 rs2) s = .next t ∧ Retires s t d n rd 0 ∧
      ∀ k ∈ (xenv s d n).invalAt (invalOf a b), ∀ e ∈ t.mtlbs.get [] k, (invalOf a b).drops e = false)) ∧
  (Forms s d n (.fqPop rd rs1) →
    (a.toNat % 64 ≠ 0 ∨ s.loadVa d p asid a 64 = none → ends (.fqPop rd rs1) (-2)) ∧
    (∀ x, a.toNat % 64 = 0 → s.loadVa d p asid a 64 = some x →
      (recNat x 0x10 8 = recNat x 0x18 8 → ends (.fqPop rd rs1) (-1)) ∧
      (recNat x 0x10 8 ≠ recNat x 0x18 8 → s.canStore d p asid (a + 0x10) 8 = true →
        ∃ t, exec (.fqPop rd rs1) s = .next t ∧ Retires s t d n rd (BitVec.ofNat 64 (recNat x 0x10 8))))) ∧
  (Forms s d n (.coreLaunch rd rs1 rs2) → (s.hart d n).wait = none →
    (b = 0 → ∃ t l, exec (.coreLaunch rd rs1 rs2) s = .next t ∧ Holds s t d n (.launched s.nextId) ∧
      t.launches = s.launches.put s.nextId l ∧ l.recAddr = a ∧ l.reply = 0 ∧ l.overrides = [] ∧
      l.issuer = .hart d n rd ∧ l.asid = asid ∧ l.part = p ∧ l.st = .issued ∧ t.mem = s.mem ∧ t.reqs = s.reqs) ∧
    (b ≠ 0 → b.toNat % 64 ≠ 0 → ends (.coreLaunch rd rs1 rs2) 0x11)) ∧
  (Forms s d n (.fwSet rd rs1 rs2) →
    let die := (a.extractLsb' 0 5).toNat
    let port := (a.extractLsb' 5 3).toNat
    let set (t : State) (k q : Nat) : Prop :=
      ((t.reg k (.sfw q)).extractLsb' 0 3) = b.extractLsb' 0 3
    (a.extractLsb' 8 56 ≠ 0 ∨ portExists die port = false → ends (.fwSet rd rs1 rs2) (-1)) ∧
    (a.extractLsb' 8 56 = 0 → portExists die port = true → ∃ t, exec (.fwSet rd rs1 rs2) s = .next t ∧
      Retires s t d n rd (s.readSfw die port) ∧ set t die port ∧
      (∀ e, facing die port = some e → set t e.1 e.2) ∧ t = { s with harts := t.harts, regs := t.regs })) ∧
  (∀ op ∈ [Instr.dbgRd rd rs1 rs2, .dbgWr rd rs1 rs2], ∀ w r, OnTarget s d n op rs1 w r →
    (b.toNat % 64 ≠ 0 → ends op 15) ∧
    (b.toNat % 64 = 0 → r.state ≠ .frozen → r.state ≠ .retired → ends op 1) ∧
    (b.toNat % 64 = 0 → r.state = .frozen ∨ r.state = .retired → s.debugOk r = false → ends op 14) ∧
    (∀ x, b.toNat % 64 = 0 → r.state = .frozen ∨ r.state = .retired → s.debugOk r = true →
      s.loadLong d p asid b 4 = some x →
      (debugAt r x = none → ends op 15) ∧
      (∀ k, debugAt r x = some k →
        (op = .dbgRd rd rs1 rs2 →
          (∀ i, i < 4 → s.canStore d p asid (b + BitVec.ofNat 64 (64 * i)) 64 = true) →
          ∃ t, exec op s = .next t ∧ Retires s t d n rd 0 ∧ t.cells = s.cells) ∧
        (op = .dbgWr rd rs1 rs2 → ¬ (k.kind = 1 ∧ 8 ≤ recNat x 0x5A 1) →
          ∃ t, exec op s = .next t ∧ Retires s t d n rd 0 ∧ t.mem = s.mem ∧
            (∀ c, c ≠ k.id → t.cells.get {} c = s.cells.get {} c) ∧
            (k.kind = 0 → (t.cells.get {} k.id).me.line k.index =
              { (s.cells.get {} k.id).me.line k.index with
                data := BitVec.ofNat 1024 (recNat x 0x10 128), lot := BitVec.ofNat 12 (recNat x 6 2), bad := 0 }) ∧
            (k.kind = 2 → (t.cells.get {} k.id).ce.s.get {} k.index =
              { (s.cells.get {} k.id).ce.s.get {} k.index with
                val := BitVec.ofNat 32 (recNat x 0x10 4), lot := BitVec.ofNat 12 (recNat x 6 2) })))))

/-! ### Events of the module -/

/-- R66-R72: cold reset, the wipe, the image, the digests, attestation, recovery and the life cycle. -/
def Obligations.BootAndSecurity : Prop := ∀ s : State,
  (Happens s .coldReset fun t =>
    (t.fuses = s.fuses ∧ t.firmware = s.firmware ∧ t.outbox = s.outbox) ∧
    (∀ d, d < 26 → t.fieldLog.get {} d = s.flushedLog.get {} d) ∧
    (∀ k, k < homeKey 26 0 → t.mem.read k = 0) ∧
    (s.mem.wf = true → ∀ k, homeKey 26 0 ≤ k → t.mem.read k = s.mem.read k) ∧
    (∀ d r, d < 26 → t.reg d r = regReset d r.off) ∧ (∀ d n, t.hart d n = {}) ∧
    (∀ c : CellId, c.die < 24 → t.cells.get {} c = {}) ∧ t.regions = [] ∧ t.launches = [] ∧ t.reqs = [] ∧
    (∀ x ∈ tiers, t.wipeOf x = .running) ∧
    ∀ x ∈ xDies, (t.bootOf x).stage = .wipe ∧ (t.bootOf x).err = if s.fuses.lcs = 3 then 6 else 0) ∧
  (∀ x, s.wipeOf x = .running →
    (Happens s (.wipeComplete x true) fun t => t.wipeOf x = .done ∧
      ∀ k, x = .sram k → (s.bootOf k).stage = .wipe →
        (t.bootOf k).stage = .verify ∧ (t.bootOf k).image = s.firmware.get [] k) ∧
    (Happens s (.wipeComplete x false) fun t => t.wipeOf x = .failed ∧ BothHalt t 5)) ∧
  (∀ x, isX x = true → (s.bootOf x).verified = false →
    (s.bootOf x).stage = .verify ∨ (s.bootOf x).stage = .recoveryVerify →
    Happens s (.imageVerifyDone x) fun t => t = { s with boots := t.boots } ∧
      (∀ y, y ≠ x → t.bootOf y = s.bootOf y) ∧
      (s.imageErr (s.bootOf x).image = 0 → (t.bootOf x).verified = true ∧ (t.bootOf x).stage = .verify) ∧
      (s.imageErr (s.bootOf x).image ≠ 0 →
        t.bootOf x = { s.bootOf x with stage := .recoveryWait, err := s.imageErr (s.bootOf x).image })) ∧
  (∀ x, isX x = true → (s.bootOf x).verified = true → (s.bootOf (49 - x)).verified = true → s.bootPath = true →
    (s.bootOf x).stage = .verify → (s.bootOf (49 - x)).stage ≠ .halted →
    let mine := imageWhole (s.bootOf x).image
    Happens s (.digestExchange x) fun t =>
      (sha256 (imageWhole (s.bootOf (49 - x)).image) ≠ sha256 mine → BothHalt t 3) ∧
      (sha256 (imageWhole (s.bootOf (49 - x)).image) = sha256 mine →
        (t.bootOf x).stage ∈ [.firmware, .abuaby, .ready] ∧
        t.firmware.get [] x = if (s.bootOf x).replace then mine else s.firmware.get [] x)) ∧
  (s.resetAt.get 0 24 + 20000 * usCycles ≤ s.cycle → s.bootPath = false → (∃ x ∈ xDies, (s.bootOf x).stage.code < 5) →
    Happens s .bootPathTimeout fun t => t = { s with boots := t.boots } ∧ BothHalt t 7) ∧
  (∀ l, linkExists l → s.edgeWanted l = true →
    let ports (st : Nat) (t : State) : Prop := ∀ p ∈ linkPorts l, t.portState p = st
    (∀ ok, ports stDown s → Happens s (.seamTraining l ok) (ports stTraining)) ∧
    (ports stTraining s → Happens s (.seamTraining l true) (ports stUp) ∧
      Happens s (.seamTraining l false) fun t => LinkDown t l 0)) ∧
  (∀ pf, s.spdmUp pf = true →
    let replies (i : SpdmReq) (b : List Byte) : Prop :=
      Happens s (.spdmRequest pf i) fun t => t = { s with outbox := s.outbox ++ [.doe pf b] }
    replies .getVersion [0x13] ∧
    (∀ no, Happens s (.spdmRequest pf (.getMeasurements no false)) fun t =>
      (t.spdm.get {} pf).nonce = some (freshNonce s.freeIx) ∧
      t.outbox = s.outbox ++ [.doe pf (s.measurements (24 + pf / 2) ++ freshNonce s.freeIx)]) ∧
    (s.fuses.lcs = 3 → replies (.getCertificate 0) [0x7F] ∧ replies .keyExchange [0x7F] ∧ ∀ no, replies (.challenge no) [0x7F]) ∧
    (s.fuses.lcs ≠ 3 → replies (.getCertificate 0) (Config.identityChain 0)) ∧
    (∀ g sr no sig,
      (s.tokenOk pf g sr no sig = true → Happens s (.lifecycleToken pf g sr no sig) fun t =>
        t.fuses = { s.fuses with lcs := g } ∧ lcsNext s.fuses.lcs g = true ∧ t.mediaKey = s.mediaKey + 1 ∧
        ∀ x ∈ xDies, (t.bootOf x).stage = .wipe) ∧
      ((s.spdm.get {} pf).inSession = false ∨ (s.spdm.get {} pf).nonce ≠ some no ∨
        sr ≠ leBytes 16 s.fuses.serial.toNat ∨ lcsNext s.fuses.lcs g = false →
        Happens s (.lifecycleToken pf g sr no sig) fun t => t = { s with outbox := s.outbox ++ [.doe pf [0x7F]] }))) ∧
  (∀ x len, isX x = true → (s.bootOf x).stage = .recoveryWait → Happens s (.recgoWrite x len) fun t =>
    t = { s with boots := t.boots } ∧ (t.bootOf x).stage = .recoveryVerify ∧
    (∀ i, i < len.toNat → i < 2 ^ 26 - 0x1000 → (t.bootOf x).image.getD i 0 = (s.bootOf x).bar4.get 0 (0x1000 + i)) ∧
    (t.bootOf x).image.length = min len.toNat (2 ^ 26 - 0x1000) ∧ ∀ y, y ≠ x → t.bootOf y = s.bootOf y)

/-- R9, R11, R27-R32: patches, the defect map, power states, monitors, the power limit and the field log. -/
def Obligations.PowerAndMonitors : Prop := ∀ s : State,
  (∀ d p,
    let old := s.power.patches.get {} (d, p)
    let patch (f : Patch) (t : State) : Prop := t.power.patches.get {} (d, p) = f ∧
      ∀ k, k ≠ (d, p) → t.power.patches.get {} k = s.power.patches.get {} k
    ((∀ c ∈ patchCells d p, (s.cells.get {} c).busy + 64 ≤ s.cycle) →
      Happens s (.patchClockGate d p) fun t => patch { old with clockGated := true } t ∧ t = { s with power := t.power }) ∧
    (s.patchUsed d p = false → old.powerGated = false → Happens s (.powerGatePatch d p) fun t =>
      patch { old with powerGated := true, waking := none } t ∧
      (∀ c ∈ patchCells d p, t.cells.get {} c = { me := (s.cells.get {} c).me, busy := (s.cells.get {} c).busy }) ∧
      t = { s with cells := t.cells, dispatchers := t.dispatchers, power := t.power }) ∧
    (∀ c, old.waking = some c → c + 1600 ≤ s.cycle → Happens s (.powerGateWake d p) fun t =>
      patch { old with powerGated := false, waking := none } t ∧ t = { s with power := t.power })) ∧
  (∀ d w v, isC d = true → w < 5 →
    let new := v &&& (RegName.defmap w).stored
    let clash := ∃ b, b < 64 ∧ (new ^^^ s.reg d (.defmap w)).getLsbD b = true ∧ s.patchUsed d (64 * w + b) = true
    (¬ clash → Happens s (.defmapWrite d w v) fun t => t.reg d (.defmap w) = new ∧
      (t.fieldLog.get {} d).defmap.get 0 w = new ∧ t = { s with regs := t.regs, fieldLog := t.fieldLog }) ∧
    (clash → Happens s (.defmapWrite d w v) fun t => t.reg d (.defmap w) = s.reg d (.defmap w) ∧
      t.regField d .defmapst 15 0 = min 0xFFFF (s.regField d .defmapst 15 0 + 1) ∧ t = { s with regs := t.regs })) ∧
  (s.power.state ≠ .off →
    (Happens s (.powerStateChange .off) fun t => t.power.state = .off ∧ (∀ k, k < homeKey 26 0 → t.mem.read k = 0) ∧
      ∀ d n, (t.hart d n).running = false) ∧
    (let gated (t : State) : Prop :=
        (∀ c, t.cells.get {} c = { me := (s.cells.get {} c).me, busy := (s.cells.get {} c).busy }) ∧
          ∀ d p, d < 24 → p < 288 → (t.power.patches.get {} (d, p)).powerGated = true;
      (s.regions = [] → s.power.state = .active → Happens s (.powerStateChange .idle) fun t =>
        t.power.state = .idle ∧ t.power.selfRefresh = s.idleHbm ∧ gated t ∧
        t = { s with power := t.power, cells := t.cells, dispatchers := t.dispatchers }) ∧
      (s.regions = [] → Happens s (.powerStateChange .standby) fun t => t.power.state = .standby ∧
        t.power.selfRefresh = tierHomes ∧ gated t ∧ (∀ d n, isC d = true → t.hart d n = {}) ∧
        t = { s with power := t.power, cells := t.cells, dispatchers := t.dispatchers, harts := t.harts })) ∧
    (s.power.state = .standby → s.power.exiting = none → Happens s (.powerStateChange .idle) fun t =>
      t.power.state = .idle ∧ t.power.selfRefresh = s.idleHbm ∧ t = { s with power := t.power, harts := t.harts }) ∧
    (s.power.state ≠ .active → s.power.exiting = none → Happens s (.powerStateChange .active) fun t =>
      t = { s with power := { s.power with exiting := some s.cycle } })) ∧
  (∀ c, s.power.exiting = some c → c + exitTime s.power.state ≤ s.cycle → Happens s .powerStateExitDone fun t =>
    t.power.state = .active ∧ t.power.exiting = none ∧ t.power.selfRefresh = [] ∧ t.power.patches = []) ∧
  (∀ d k (volt : BitVec 16) (proc : BitVec 12) (temp pow : BitVec 16),
    isC d = true ∧ k < 12 ∨ isX d = true ∧ k = 0 → Happens s (.monitorSample d k volt proc temp pow) fun t =>
      t.reg d (.monpr k) = BitVec.ofNat 64 (volt.toNat * 2 ^ 32 + proc.toNat * 2 ^ 20 + temp.toNat) ∧
      t.regField 24 .pwrlim 47 32 = pow.toNat ∧
      (1680 ≤ temp.toInt → t.power.state = .off) ∧
      (temp.toInt < 1680 → t.mem = s.mem ∧ t.power.state = s.power.state ∧ ∀ c, c < 24 →
        t.power.clocks.get 1600 c =
          let hot := if c = d ∧ 1520 < temp.toInt then max 800 (s.power.clocks.get 1600 c - 100)
            else s.power.clocks.get 1600 c
          if s.regField 24 .pwrlim 15 0 < pow.toNat then max 800 (hot - 100) else hot)) ∧
  (∀ d, s.power.clocks.get 1600 d < 1600 → s.power.lastOver.get 0 d + 1600000 ≤ s.cycle →
    Happens s (.throttleRaise d) fun t => t.power.clocks.get 1600 d = min 1600 (s.power.clocks.get 1600 d + 100) ∧
      (∀ c, c ≠ d → t.power.clocks.get 1600 c = s.power.clocks.get 1600 c) ∧
      t = { s with power := t.power, regs := t.regs }) ∧
  (∀ v : DWord, Happens s (.pwrlimWrite 24 v) fun t => t = { s with regs := t.regs } ∧
    t.regField 24 .pwrlim 15 0 = min 18000 (max 6000 (v.toNat % 2 ^ 16)) ∧
    t.regField 24 .pwrlim 47 32 = s.regField 24 .pwrlim 47 32) ∧
  (Happens s .fieldLogFlush fun t => t = { s with fieldLog := t.fieldLog, flushedLog := t.fieldLog, lastFlush := s.cycle } ∧
    ∀ d, d < 26 → t.fieldLog.get {} d =
      { s.fieldLog.get {} d with life := (s.fieldLog.get {} d).life + (s.cycle - s.lastFlush) })

/-- R18-R21, R26: flits, replay, retraining, failure, the crossing table and the link registers. -/
def Obligations.LinkEvents : Prop := ∀ s : State,
  (∀ (l : LaneId) (seq : Nat) f,
    let v := s.lanes.get {} l
    (v.buf.find? fun f => f.seq == seq) = some f → s.laneHolds l = false → s.linkFailed l.link = false → v.nak = none →
    (∀ ack inb, Happens s (.flitReceive l seq false ack inb) fun t => (t.lanes.get {} l).nak = some v.expect ∧
      (t.lanes.get {} l).buf = v.buf ∧ (t.lanes.get {} l).expect = v.expect ∧ t.cells = s.cells ∧ t.nodes = s.nodes) ∧
    (∀ inb, seq = v.expect → s.flitRoom l f.load = true → laneEnds l ≠ none →
      Happens s (.flitReceive l seq true true inb) fun t =>
      (t.lanes.get {} l).expect = (seq + 1) % laneModulus l.link ∧
      (∃ new, (t.lanes.get {} l).buf = (v.buf.dropWhile fun f => f.seq != seq).drop 1 ++ new ∧ (v.pend = [] → new = [])) ∧
      (∀ k, k ≠ l → t.lanes.get {} k = s.lanes.get {} k) ∧
      (∀ p a b, f.load = .packet p → laneEnds l = some (a, b) →
        (t.nodes.get {} (laneNode l p)).bufs.get [] (laneInput l, p.vc) =
          (s.nodes.get {} (laneNode l p)).bufs.get [] (laneInput l, p.vc) ++
            [{ p with head := v.header.getD s.cycle }]) ∧
      ∀ tok a b net, f.load = .token tok → laneEnds l = some (a, b) → laneNet l.cls = some net →
        let k := s.laneCell l b
        (t.cells.get {} k).sw.inb.get [] (net, laneInput l) = (s.cells.get {} k).sw.inb.get [] (net, laneInput l) ++
          [{ tok with since := s.cycle + cellDist b k + s.wakeDelay k }])) ∧
  (∀ (l : LaneId) i, linkExists l.link →
    let v := s.lanes.get {} l
    i = .flitReplay l ∧ v.nak.isSome = true ∨
      i = .replayTimeout l ∧ v.buf ≠ [] ∧ v.nak = none ∧ v.lastSend + replayWait l.link ≤ s.cycle →
    s.laneHolds l = false → s.linkFailed l.link = false → Happens s i fun t =>
      (v.retries < 8 → v.retries ≠ 4 →
        t.lanes.get {} l = { v with retries := v.retries + 1, nak := none, lastSend := s.cycle } ∧
        (∀ k, k ≠ l → t.lanes.get {} k = s.lanes.get {} k) ∧
        t.regField (lanePort l).1 (.seamst (lanePort l).2) 47 32 =
          min 0xFFFF (s.regField (lanePort l).1 (.seamst (lanePort l).2) 47 32 + 1) ∧
        t = { s with lanes := t.lanes, regs := t.regs, fieldLog := t.fieldLog }) ∧
      (v.retries = 4 → ((t.links.get {} l.link).crossings.get {} l.crossing).retraining = some s.cycle ∧
        t.lanes.get {} l = { v with stuck := true, nak := none } ∧ (∀ k, k ≠ l → t.lanes.get {} k = s.lanes.get {} k) ∧
        ∀ p ∈ linkPorts l.link, s.portState p = stUp → t.portState p = stRetraining) ∧
      (8 ≤ v.retries → LinkDown t l.link l.crossing)) ∧
  (∀ l n c, linkExists l → ((s.links.get {} l).crossings.get {} n).retraining = some c → s.linkFailed l = false →
    (s.cycle ≤ c + 1600 → Happens s (.retrainingLock l n) fun t =>
      ((t.links.get {} l).crossings.get {} n).retraining = none ∧
      ((∀ e ∈ (s.links.get {} l).crossings, e.1 ≠ n → e.2.retraining = none) →
        ∀ p ∈ linkPorts l, s.portState p = stRetraining → t.portState p = stUp)) ∧
    (c + 1600 ≤ s.cycle → Happens s (.retrainingTimeout l n) fun t => LinkDown t l n)) ∧
  (∀ l up e w o a k id, s.tableWaiter l up = some e →
    s.choose e.1 (laneDir { link := l, crossing := 0, cls := .dyn, up := up }) = some (w, o, a) →
    w.hop = .lane k → s.atLane k w.p = .cross → w.p.load = .request id →
    Happens s (.crossingTableResume l up) fun t =>
      (t.links.get {} l).table = (s.links.get {} l).table ++ [{ req := id, up := up }] ∧
      (t.lanes.get {} k).buf.map (·.load) ++ (t.lanes.get {} k).pend =
        (s.lanes.get {} k).buf.map (·.load) ++ List.replicate (w.p.beats - 1) .beat ++ [.packet w.p]) ∧
  (∀ d p, portExists d p = true →
    (Happens s (.seamstClr d p) fun t => t = { s with regs := t.regs } ∧ t.regField d (.seamst p) 55 16 = 0 ∧
      t.portState (d, p) = s.portState (d, p) ∧ t.regField d (.seamst p) 6 6 = s.regField d (.seamst p) 6 6) ∧
    (Happens s (.seamstFailirqClear d p) fun t => t = { s with regs := t.regs, harts := t.harts } ∧
      t.regField d (.seamst p) 6 6 = 0 ∧ t.portState (d, p) = s.portState (d, p) ∧
      ((∀ q, q < 5 → q ≠ p → s.regField d (.seamst q) 6 6 = 0) → ∀ n, n < 4 → (t.hart d n).xpirq.getLsbD 1 = false))) ∧
  (∀ d (v : DWord), d < 26 →
    let route := (v.extractLsb' 32 18).toNat
    let good := ∀ i, i < 6 → bitField route (3 * i + 2) (3 * i) < 6
    (good → route = s.regField d .modid 49 32 ∨ s.federated = false → Happens s (.modidWrite d v) fun t =>
      t.reg d .modid = v &&& RegName.modid.stored ∧ t = { s with regs := t.regs } ∧
      ∀ l, portEdge d 4 = some l → t.edgeWanted l = false → s.portState (d, 4) ≠ stFailed → t.portState (d, 4) = stDown) ∧
    (¬ good → Happens s (.modidWrite d v) fun t => t = s))

/-- R34-R36, R42, R45, R53-R55: requests of functions through their windows, acknowledgements, holds, resets of
functions, and the completions of requests to the host. -/
def Obligations.InboundRequests : Prop := ∀ (s : State) (x f : Nat),
  (isX x = true → s.fnOn x f = false → ∀ off tag n data rel,
    (∀ bar, bar ≠ .bar4 → Happens s (.inboundRead x f bar tag off n) fun t =>
      t = { s with outbox := s.outbox ++ [.unsupported x f] }) ∧
    (Happens s (.inboundPostedWrite x f .bar2 off data rel) fun t => t = { s with outbox := s.outbox ++ [.unsupported x f] })) ∧
  (s.fnOn x f = true → (s.xdie x).inbound = [] → ∀ off tag,
    let e := s.window x f off
    let va := windowVa e off
    let good (k : InKind) : Prop := e.getLsbD 63 = true ∧ e.getLsbD k.permBit = true ∧ s.canonical x (s.fnPart x f) va = true
    let open_ : Prop := s.fenced x (s.fnPart x f) = false
    let drops (i : Instr) : Prop := Happens s i fun t =>
      (t.fn x f).drops = oneMore (s.fn x f).drops ∧ (t.xdie x).inbound = [] ∧ t.reqs = s.reqs ∧ t.mem = s.mem
    let status (i : Instr) (st : Nat) : Prop := Happens s i fun t =>
      t.outbox = s.outbox ++ [.completion x f tag st []] ∧ (t.xdie x).inbound = [] ∧ t.reqs = s.reqs ∧ t.mem = s.mem
    (∀ data rel, data ≠ [] → off % 4096 + data.length ≤ 4096 →
      let i : Instr := .inboundPostedWrite x f .bar2 off data rel
      (good .write → open_ → Happens s i fun t =>
        TakenIn s t x f (if rel then .relaxed else .write) va (.store (data.map some)) 0) ∧
      (¬ good .write ∨ ¬ open_ → drops i)) ∧
    (∀ n, 0 < n → off % 4096 + n ≤ 4096 →
      let i : Instr := .inboundRead x f .bar2 tag off n
      (good .read → open_ → Happens s i fun t => TakenIn s t x f .read va (.load n) tag) ∧
      (¬ good .read → status i 1) ∧ (good .read → ¬ open_ → status i 4)) ∧
    (∀ op,
      let i : Instr := .inboundAtomicop x f tag off op
      let size := (atomicRmw op).size
      (good .atomic → open_ → va.toNat % size = 0 → Happens s i fun t =>
        TakenIn s t x f .atomic va (.rmw (atomicRmw op) true) tag) ∧
      (¬ good .atomic → status i 1) ∧ (good .atomic → ¬ open_ ∨ va.toNat % size ≠ 0 → status i 4)) ∧
    (∀ n, (∀ q ∈ splitPages off n, (s.window x f q.1).getLsbD 63 = false) →
      Happens s (.inboundRead x f .bar2 tag off n) fun t =>
      t = { s with outbox := s.outbox ++ (splitPages off n).map fun _ => .completion x f tag 1 [] })) ∧
  (∀ w off tag n, s.fnOn x f = true → (s.xdie x).inbound = [w] → w.requester = .func x f → w.posted = true →
    w.released = true → w.id < s.nextId → 0 < n → off % 4096 + n ≤ 4096 →
    Happens s (.inboundRead x f .bar2 tag off n) fun t => t.reqs = s.reqs ∧ t.mem = s.mem) ∧
  (∀ tag off n, s.fnOn x f = true → (s.xdie x).inbound = [] → Happens s (.inboundRead x f .bar0 tag off n) fun t =>
    t.outbox = s.outbox ++ [.completion x f tag 0 (s.pageBytes x f off n)] ∧ (t.xdie x).inbound = [] ∧ t.mem = s.mem) ∧
  (∀ id, (∃ p ∈ (s.xdie x).inbound, p.id = id ∧ p.posted = true ∧ p.released = true) →
    (∀ q, s.reqOf id = some q → q.acked = true ∧ q.back = true) →
    Happens s (.inboundWriteAck x id) fun t => (∀ p ∈ (t.xdie x).inbound, p.id ≠ id) ∧ t.mem = s.mem) ∧
  (∀ id q tag, (∃ p ∈ (s.xdie x).inbound, p.id = id ∧ ∃ c, p.heldAt = some c ∧ c + 1000 * usCycles ≤ s.cycle) →
    s.reqOf id = some q → q.agent = .func x f → q.ret = .tag tag → Happens s (.inboundHoldTimeout x id) fun t =>
      Answered t id [] transMiss ∧ Responds t q ∧ t.mem = s.mem) ∧
  (Happens s (.atsInvalidation x f) fun t => t = { s with outbox := s.outbox ++ [.unsupported x f] }) ∧
  (isX x = true → f < 514 → (s.xdie x).inbound = [] → Happens s (.functionLevelReset x f) fun t =>
    ∀ g, (f < 512 ∧ g = f) ∨ (512 ≤ f ∧ (f - 512) * 256 ≤ g ∧ g < (f - 512) * 256 + 256) →
      t.fn x g = { s.fn x g with slots := [], busy := 0, windows := [], tdisp := .unlocked } ∧
      ∀ n l, s.launches.get? n = some l → l.part = s.fnPart x g → l.vd = fnVd x g → l.st ≠ .complete → Ends t n) ∧
  (∀ req q va op data, s.reqOf req = some q → q.goal = .mem va op →
    (∃ y ∈ xDies, ∃ e ∈ (s.xdie y).outgoing, e.1 = req) → (∀ y ∈ xDies, (s.xdie y).flush req = none) → q.landed = false →
    (Happens s (.outboundHostCompletion req true data) fun t =>
      Answered t req (if op.returns then data.take op.size else []) 0 ∧ Responds t q) ∧
    (∀ d n, q.agent = .hart d n → q.region = none → Happens s (.outboundHostCompletion req false data) fun t =>
      Answered t req [] transPerm))

/-- R37-R40, R43, R44, R64, R65: mailbox pages, messages, the window table, function registers and feature
acceptance. -/
def Obligations.MailboxAndWindows : Prop := ∀ (s : State) (x f : Nat), isX x = true → f < 514 →
  let v := s.fn x f
  (s.fnOn x f = true → (s.xdie x).inbound = [] →
    (∀ off data, 0x800 ≤ off → off + data.length ≤ 0x1000 → Happens s (.mslotWrite x f off data) fun t =>
      (t.xdie x).inbound = [] ∧ (t.fn x f).busy = v.busy ∧
      (∀ k j, k < 32 → j < 64 →
        let a := 0x800 + 64 * k + j
        ((t.fn x f).slot k).getD j 0 = if v.busy.getLsbD k = false ∧ off ≤ a ∧ a < off + data.length then
          data.getD (a - off) 0 else (v.slot k).getD j 0) ∧
      ∀ k, k < 32 → data ≠ [] → 0x800 + 64 * k ≤ off → off + data.length ≤ 0x800 + 64 * k + 64 → v.busy.getLsbD k = true →
        (t.fn x f).overruns = oneMore v.overruns) ∧
    (∀ d : DWord, Happens s (.mbxdbWrite x f d) fun t => (t.xdie x).inbound = [] ∧
      t.fn x f = if 31 < d.toNat then v
        else if v.busy.getLsbD d.toNat then { v with overruns := oneMore v.overruns }
        else { v with busy := v.busy ||| (1#32 <<< d.toNat) })) ∧
  (∀ k, k < 32 → v.busy.getLsbD k = true →
    let b := v.slot k
    let p := s.fnPart x f
    let free (t : State) : Prop := (t.fn x f).busy = v.busy &&& ~~~(1#32 <<< k)
    let novr := recNat b 24 1
    (msgType b = 1 → ∀ ok,
      (ok = true → isVf f = true → novr ≤ 9 → aligned (msgReply b) 128 = true → recNat b 25 3 = 0 →
        msgZero b (28 + 4 * novr) = true → Happens s (.msgLaunch x f k ok) fun t => free t ∧ t.mem = s.mem ∧ ∃ l,
          t.launches = s.launches.put s.nextId l ∧ l.recAddr = BitVec.ofNat 64 (msgArg b) ∧ l.vd = fnVd x f ∧ l.part = p ∧
          l.asid = s.fnAsid x f ∧ l.reply = s.replyAddr p b 128 ∧ l.hostSeq = BitVec.ofNat 32 (msgSeq b) ∧
          l.overrides = wordsOf (b.drop 28) novr ∧ l.st = .issued) ∧
      (ok = false ∨ 9 < novr → Happens s (.msgLaunch x f k ok) fun t => free t ∧ t.launches = s.launches)) ∧
    (msgType b = 2 → isVf f = true → msgZero b 24 = true → aligned (msgReply b) 64 = true →
      Happens s (.msgCancel x f k true) fun t => free t ∧
        ∀ n l, s.launches.get? n = some l → l.part = p → l.vd = fnVd x f → l.recAddr = BitVec.ofNat 64 (msgArg b) →
          l.st ≠ .complete → Ends t n) ∧
    (msgType b = 3 → aligned (msgReply b) 64 = true →
      (msgArg b < v.wincnt → msgZero b 32 = true → Happens s (.msgMapwin x f k true) fun t => free t ∧
        (t.fn x f).windows.get 0 (msgArg b) = BitVec.ofNat 64 (recNat b 24 8) &&& windowBits ∧
        (∀ i, i ≠ msgArg b → (t.fn x f).windows.get 0 i = v.windows.get 0 i) ∧ (t.xdie x).sync.isSome = true ∧
        ∃ r ∈ (t.xdie x).replies, r.fn = f ∧ r.index = some (msgArg b) ∧ r.head = replyHead 3 0 b) ∧
      (Happens s (.msgMapwin x f k false) fun t => free t ∧ (t.fn x f).windows = v.windows)) ∧
    (msgType b = 4 → msgZero b 24 = true → msgArg b = 0 → (s.xdie x).replies = [] → s.replyAddr p b 64 ≠ 0 →
      Happens s (.msgQuery x f k) fun t => free t ∧ t.mem =
        ((Act.storeVa x p (s.fnAsid x f) (s.replyAddr p b 64) (padTo 64 (replyHead 4 0 b ++
          leBytes 8 (match s.leadDie p with
            | some d => (s.reg d (.vdcfg (fnVd x f))).toNat
            | none => 0) ++ leBytes 8 (s.vdst p (fnVd x f)).toNat ++ leBytes 16 s.feat.active.toNat ++
          leBytes 2 v.wincnt ++ leBytes 2 ((List.range 32).countP fun j => j == k || !v.busy.getLsbD j)))).run s).mem)) ∧
  (∀ d : DWord,
    let w := if v.en = true ∨ isVf f = false then v.winlog else min 14 (d.toNat % 16)
    (s.entriesWith x f w ≤ 524288 → Happens s (.fncfgWrite x f d) fun t =>
      t.fn x f = { v with en := d.getLsbD 16, winlog := w } ∧ ∀ g, g ≠ f → t.fn x g = s.fn x g) ∧
    (¬ s.entriesWith x f w ≤ 524288 → Happens s (.fncfgWrite x f d) fun t => t = s)) ∧
  (∀ d : DWord,
    let g := bitField (s.xdie x).winsel.toNat 25 16
    let i := bitField (s.xdie x).winsel.toNat 13 0
    (g < 514 → i < (s.fn x g).wincnt → Happens s (.winentWrite x d) fun t =>
      t.fn x g = { s.fn x g with windows := (s.fn x g).windows.put i (d &&& windowBits) }) ∧
    (¬ (g < 514 ∧ i < (s.fn x g).wincnt) → Happens s (.winentWrite x d) fun t => t = s)) ∧
  (Happens s (.winctlSync x) fun t => t = { s with xdies := t.xdies } ∧
    (t.xdie x).sync = some (((s.xdie x).inbound.filter fun p => p.mailbox.isNone).map (·.id))) ∧
  (∀ ids, (s.xdie x).sync = some ids → (∀ id ∈ ids, s.partSettled x id = true) → Happens s (.winctlSyncDone x) fun t =>
    (t.xdie x).sync = none ∧ ∀ r ∈ (t.xdie x).replies, r.index = none ∨ r.launches ≠ []) ∧
  (Happens s (.winstClr x f) fun t => t.fn x f = { v with drops := 0 } ∧ t = { s with xdies := t.xdies }) ∧
  (∀ a : BitVec 128, s.feat.offer ≠ 0 → s.feat.accepted = false →
    (Happens s (.featAcceptWrite 0 a) fun t => t = { s with feat := t.feat } ∧ t.feat.accepted = true ∧
      t.feat.offer = s.feat.offer ∧ (a &&& s.feat.offer &&& 0xF ≠ 0 → t.feat.active = a &&& s.feat.offer) ∧
      (a &&& s.feat.offer &&& 0xF = 0 → s.feat.offer.getLsbD 0 = true → t.feat.active = a &&& s.feat.offer ||| 1)) ∧
    ∀ pf, pf ≠ 0 → Happens s (.featAcceptWrite pf a) fun t => t = s)

/-- R46-R52: UALink peers, the export table, shared ranges and a port that goes down. -/
def Obligations.PeersAndSharedRanges : Prop := ∀ (s : State) (x : Nat), isX x = true →
  let v := s.xdie x
  (∀ port (ua : DWord) op, port < 4 → port ∉ v.ualinkDown → peerSize op ≤ 256 → peerSize op ≠ 0 →
    (∀ d, op ≠ .send d) → s.featOn featUaexport = true →
    let i : Instr := .ualinkPeerRequest x port ua op
    (s.exportAt x ua.toNat (peerSize op) = none →
      Happens s i fun t => t = { s with outbox := s.outbox ++ [.ualink x port 1 []] }) ∧
    (∀ e p vd, s.exportAt x ua.toNat (peerSize op) = some e →
      let w := v.export e 3
      let va : DWord := BitVec.ofNat 64 (v.export e 2 + (ua.toNat - v.export e 0))
      s.asidOwner (BitVec.ofNat 16 w) = some (p, vd) →
      (w.testBit (peerPerm op) = true → s.canonical x p va = true → s.fenced x p = false →
        ((∃ a, op = .atomic a) → va.toNat % peerSize op = 0) → Happens s i fun t => ∃ r, t.reqs = s.reqs ++ [r] ∧
          r.id = s.nextId ∧ r.agent = .peer x port ∧ r.goal = .mem va (peerMemOp op) ∧ r.asid = some (BitVec.ofNat 16 w) ∧
          r.part = p ∧ r.vd = vd ∧ r.st = .net ∧ t.mem = s.mem ∧ t.outbox = s.outbox) ∧
      (w.testBit (peerPerm op) = false ∨ s.canonical x p va = false →
        Happens s i fun t => t = { s with outbox := s.outbox ++ [.ualink x port 1 []] }) ∧
      (w.testBit (peerPerm op) = true → s.canonical x p va = true → s.fenced x p = true → Happens s i fun t =>
        t.outbox = s.outbox ++ [.ualink x port 4 []] ∧ t.reqs = s.reqs ∧ t.mem = s.mem))) ∧
  (∀ req q, v.shared.waiting req = some q →
    (s.reqReads req = false → s.writeBefore v.shared q = false → Happens s (.sharedRangeWrite x req) fun t =>
      t = { s with xdies := t.xdies, outbox := s.outbox ++ [.directory x (lineOfAddr q.addr) false] } ∧
      (t.xdie x).shared.heldWrites = v.shared.heldWrites ++ [q] ∧ (t.xdie x).shared.waiting req = none) ∧
    (∀ r va n data, s.reqOf req = some r → r.goal = .mem va (.load n) →
      let k := lineOfAddr q.addr
      (∀ held, q.addr % 64 + n ≤ 64 → v.shared.copies.get? k = some held →
        Happens s (.sharedRangeRead x req data) fun t => Answered t req (sharedBytes q.addr n held) 0 ∧
          (req, k) ∈ (t.xdie x).shared.serving ∧ (t.xdie x).shared.copies = v.shared.copies) ∧
      (v.shared.copies.get? k = none → Happens s (.sharedRangeRead x req data) fun t =>
        Answered t req (sharedBytes q.addr n data) 0 ∧
        (q.addr % 64 + n ≤ 64 → v.shared.copies.length < maxCopies → v.shared.isGranted k = false →
          (t.xdie x).shared.copies.get? k = some (padTo 64 data))))) ∧
  (∀ line q, (v.shared.heldWrites.find? fun q => lineOfAddr q.addr == line) = some q →
    let n := s.reqSize q.req
    v.shared.isGranted line = false → Happens s (.sharedRangeGrant x line) fun t => t.mem = s.mem ∧
      t.outbox = s.outbox ++ (hostPieces (payloadOf x (q.port + 2)) (n + 2) q.addr n).map (fun e =>
        .hostRequest x (q.port + 2) q.pasid e.1 e.2 q.req) ∧
      (t.xdie x).shared.isGranted line = true ∧ (t.xdie x).outgoing = v.outgoing ++ [(q.req, q.port + 2)] ∧ (t.xdie x).shared.copies.get? line = none ∧
      ∀ w ∈ (t.xdie x).shared.heldWrites, w.req ≠ q.req) ∧
  (∀ line,
    (Happens s (.sharedRangeInvalidate x line) fun t => t = { s with xdies := t.xdies } ∧
      (t.xdie x).shared.copies.get? line = none ∧ line ∈ (t.xdie x).shared.owed ∧
      ∀ k, k ≠ line → (t.xdie x).shared.copies.get? k = v.shared.copies.get? k) ∧
    (line ∈ v.shared.owed → (∀ e ∈ v.shared.serving, e.2 = line → s.returned e.1 = true) →
      Happens s (.sharedInvalidateAck x line) fun t => line ∉ (t.xdie x).shared.owed ∧
        t = { s with xdies := t.xdies, outbox := s.outbox ++ [.directory x line true] }) ∧
    (∀ e ∈ v.shared.serving, e.2 = line → s.returned e.1 = false →
      Happens s (.sharedInvalidateAck x line) fun t => t = s)) ∧
  (∀ d : DWord,
    let i := v.expsel
    let w (j : Nat) : DWord := v.expHeld.get (v.exports.get 0 (i, j)) j
    let base := (w 0 &&& bitsMask 63 16).toNat
    let n := (w 1).toNat % 2 ^ 32 * 65536
    let clash := ∃ k b m, k < 1024 ∧ k ≠ i ∧ v.exportRange k = some (b, m) ∧ b < base + n ∧ base < b + m
    (s.featOn featUaexport = true → d.getLsbD 63 = false ∨ (n ≠ 0 ∧ ¬ clash) → Happens s (.expentCommit x d) fun t =>
      t = { s with xdies := t.xdies } ∧ (t.xdie x).expHeld = [] ∧
      (t.xdie x).exports.get 0 (i, 0) = w 0 &&& bitsMask 63 16 ∧ (t.xdie x).exports.get 0 (i, 1) = w 1 &&& bitsMask 31 0 ∧
      (t.xdie x).exports.get 0 (i, 2) = w 2 &&& bitsMask 63 16 ∧
      (t.xdie x).exports.get 0 (i, 3) = d &&& (bitsMask 63 63 ||| bitsMask 18 0) ∧
      ∀ k j, k ≠ i → (t.xdie x).exports.get 0 (k, j) = v.exports.get 0 (k, j)) ∧
    (d.getLsbD 63 = true → n = 0 ∨ clash → Happens s (.expentCommit x d) fun t => t = s)) ∧
  (∀ d : DWord,
    let i := v.srsel
    let base := (v.srHeld &&& bitsMask 63 16).toNat
    let n := d.toNat % 2 ^ 32 * 65536
    let clash := ∃ k b m, k < 64 ∧ k ≠ i ∧ v.rangeOf k = some (b, m) ∧ b < base + n ∧ base < m
    let w1 := d &&& (bitsMask 63 63 ||| bitsMask 57 56 ||| bitsMask 31 0)
    s.featOn featUashared = true →
    (d.getLsbD 63 = true → ¬ clash → Happens s (.srentCommit x d) fun t => t = { s with xdies := t.xdies } ∧
      (t.xdie x).ranges.get 0 (i, 0) = v.srHeld &&& bitsMask 63 16 ∧ (t.xdie x).ranges.get 0 (i, 1) = w1) ∧
    (d.getLsbD 63 = true → clash → Happens s (.srentCommit x d) fun t => t = s) ∧
    (d.getLsbD 63 = false → (v.rangeOf i).isSome = true → Happens s (.srentCommit x d) fun t =>
      t = { s with xdies := t.xdies } ∧ (t.xdie x).ranges = v.ranges ∧
      (t.xdie x).clearing.get? i = some (v.srHeld &&& bitsMask 63 16, w1))) ∧
  (∀ i w0 w1, v.clearing.get? i = some (w0, w1) →
    (∀ q ∈ v.shared.heldWrites ++ v.shared.queue, v.inRange i q.addr = false) →
    (∀ e ∈ v.shared.granted, v.inRange i (e.2 * 64) = false) → Happens s (.srentClearDone x i) fun t =>
      t = { s with xdies := t.xdies } ∧ (t.xdie x).ranges.get 0 (i, 0) = w0 ∧ (t.xdie x).ranges.get 0 (i, 1) = w1 ∧
      (t.xdie x).clearing.get? i = none ∧ ∀ e ∈ (t.xdie x).shared.copies, v.inRange i (e.1 * 64) = false) ∧
  (∀ port, port < 4 → Happens s (.ualinkPortDown x port) fun t => port ∈ (t.xdie x).ualinkDown ∧
    (∀ q ∈ (t.xdie x).shared.queue ++ (t.xdie x).shared.heldWrites, q.port ≠ port) ∧
    (∀ e ∈ (t.xdie x).outgoing, e.2 ≠ port + 2) ∧
    ∀ id q d n, (∃ w ∈ v.shared.queue ++ v.shared.heldWrites, w.req = id ∧ w.port = port) ∨ (id, port + 2) ∈ v.outgoing →
      s.reqOf id = some q → q.agent = .hart d n → Answered t id [] fSeam)

/-- R56-R62: RoCEv2 requests, launch frames and their checks, the rate bucket and the tenant table. -/
def Obligations.EthernetEvents : Prop := ∀ (s : State) (x : Nat), isX x = true →
  let v := s.xdie x
  (∀ qp (va : DWord), qp < 4096 →
    (∀ d, v.postedOf (.qp x qp) = 0 → Happens s (.roceRequest x qp va (.send d)) fun t =>
      t = { s with outbox := s.outbox ++ [.roce x qp 0 d] }) ∧
    (∀ op a asid p vd, rocePieces va op = [(va, op)] → (∀ d, op ≠ .send d) → v.inbound = [] →
      s.peerCheck x (s.exportVa x va.toNat (peerSize op)) (fun _ => va) op = .ok a asid p vd →
      Happens s (.roceRequest x qp va op) fun t => ∃ q r, (t.xdie x).inbound = [q] ∧ q.released = true ∧
        t.reqs = s.reqs ++ [r] ∧ r.id = s.nextId ∧ r.agent = .qp x qp ∧ r.goal = .mem va (peerMemOp op) ∧
        r.asid = some asid ∧ r.part = p ∧ r.vd = vd ∧ r.st = .net ∧ t.mem = s.mem) ∧
    (∀ op st, rocePieces va op = [(va, op)] → (∀ d, op ≠ .send d) → v.inbound = [] →
      s.peerCheck x (s.exportVa x va.toNat (peerSize op)) (fun _ => va) op = .bad st →
      Happens s (.roceRequest x qp va op) fun t => t = { s with outbox := s.outbox ++ [.roce x qp st []] })) ∧
  (∀ b,
    let tenant := s.tenant x (frameTenant b)
    (∀ n, s.frameFails x b = some n → Happens s (.launchFrame x b) fun t => t = { s with xdies := t.xdies } ∧
      (t.xdie x).lfdrop.get 0 n = oneMore (v.lfdrop.get 0 n) ∧ (t.xdie x).frames = v.frames ∧
      (2 ≤ n → bitField ((t.tenant x (frameTenant b)).word 0) 31 16 = min 0xFFFF (bitField (tenant.word 0) 31 16 + 1))) ∧
    (s.frameFails x b = none → Happens s (.launchFrame x b) fun t => t = { s with xdies := t.xdies } ∧
      (t.xdie (s.hostX tenant.part)).frames = (s.xdie (s.hostX tenant.part)).frames ++ [b]) ∧
    (b.length < 48 ∨ s.featOn featEthlaunch = false → s.frameFails x b = some 0) ∧
    (b.length = 48 + 4 * frameNscal b → s.featOn featEthlaunch = true → recNat b 0 2 = 0x5A47 → recNat b 2 1 = 1 →
      recNat b 3 1 = 0 → frameNscal b ≤ 32 → frameTenant b < 4096 → tenant.en = true →
      let body := 32 + 4 * frameNscal b
      (leBytes 32 (hmacSha256 tenant.key (b.take body)).toNat).take 16 ≠ b.drop body →
      s.frameFails x b = some 2)) ∧
  (∀ b rest, v.frames = b :: rest →
    let k := frameTenant b
    let tenant := s.tenant x k
    let seq := recNat b 8 4
    Happens s (.launchFrameHomeCheck x) fun t => (t.xdie x).frames = rest ∧ t.mem = s.mem ∧
      (seq ≤ tenant.lastSeq → t.launches = s.launches ∧ (t.xdie x).lfdrop.get 0 5 = oneMore (v.lfdrop.get 0 5)) ∧
      (tenant.lastSeq < seq → tenant.bucket = 0 ∨ tenant.rate = 0 → t.launches = s.launches ∧
        (t.xdie x).lfdrop.get 0 6 = oneMore (v.lfdrop.get 0 6)) ∧
      (tenant.lastSeq < seq → tenant.bucket ≠ 0 → tenant.rate ≠ 0 → (t.tenant x k).lastSeq = seq ∧
        (t.tenant x k).bucket = tenant.bucket - 1 ∧ ∃ l, t.launches = s.launches.put s.nextId l ∧
          l.recAddr = BitVec.ofNat 64 (frameRecord b) ∧ l.vd = tenant.vd ∧ l.part = tenant.part ∧
          l.hostSeq = BitVec.ofNat 32 seq ∧ l.overrides = wordsOf (b.drop 32) (frameNscal b) ∧ l.st = .issued)) ∧
  (∀ k, k < 4096 → (s.tenant x k).refilled + 1000 * usCycles ≤ s.cycle → Happens s (.tenantBucketRefill x k) fun t =>
    t = { s with xdies := t.xdies } ∧ t.tenant x k =
      { s.tenant x k with
        bucket := min (s.tenant x k).burst ((s.tenant x k).bucket + (s.tenant x k).rate), refilled := s.cycle }) ∧
  (∀ n, n < 7 → Happens s (.lfdropClr x n) fun t => t = { s with xdies := t.xdies } ∧ (t.xdie x).lfdrop.get 0 n = 0 ∧
    ∀ k, k ≠ n → (t.xdie x).lfdrop.get 0 k = v.lfdrop.get 0 k) ∧
  (∀ d : DWord, s.featOn featEthlaunch = true →
    let part := (d.extractLsb' 10 5).toNat
    let old := s.tenant x v.tnsel
    let good := d.getLsbD 15 = false ∨ (part < 24 ∧ s.regField x (.xpart part) 63 63 = 1)
    (good → Happens s (.tnentCommit x d) fun t => t = { s with xdies := t.xdies } ∧ (t.xdie x).tnHeld = [] ∧
      (t.tenant x v.tnsel).word 0 % 2 ^ 16 = d.toNat % 2 ^ 16 ∧
      bitField ((t.tenant x v.tnsel).word 0) 31 16 = bitField (old.word 0) 31 16 ∧
      (∀ j, 0 < j → j < 8 → (t.tenant x v.tnsel).word j = (v.tnHeld.get (old.words.get 0 j) j &&& tenantBits j).toNat) ∧
      (t.tenant x v.tnsel).bucket = old.bucket ∧ ∀ k, k ≠ v.tnsel → t.tenant x k = s.tenant x k) ∧
    (¬ good → Happens s (.tnentCommit x d) fun t => t = s))

/-- R76, R77, R80, R82, R97, R188, R189: partitions, the last-resort completer, the reset of a tenant, the flash
translation layer's cap, virtual devices and the die map. -/
def Obligations.PartitionEvents : Prop := ∀ s : State,
  let regs (t : State) : Prop := t = { s with regs := t.regs }
  (∀ d (v : DWord), isC d = true →
    (s.dieUsed d = false → Happens s (.partcfgWrite d v) fun t =>
      t = { s with regs := t.regs, dispatchers := t.dispatchers } ∧
      (v.toNat % 32 = s.regField d .partcfg 4 0 → t.dispatchers = s.dispatchers) ∧
      (v.toNat % 32 ≠ s.regField d .partcfg 4 0 → ∀ k, t.dispatchers.get {} k =
        if k ∈ t.partDies (v.toNat % 32) then (s.dispatchers.get {} k).formed else s.dispatchers.get {} k) ∧
      t.regField d .partcfg 4 0 = v.toNat % 32 ∧ t.regField d .partcfg 9 8 = v.toNat / 256 % 4 ∧
      t.regField d .partcfg 47 32 = s.regField d .partcfg 47 32) ∧
    (s.dieUsed d = true → Happens s (.partcfgWrite d v) fun t => regs t ∧
      t.regField d .partcfg 4 0 = s.regField d .partcfg 4 0 ∧ t.regField d .partcfg 9 8 = s.regField d .partcfg 9 8 ∧
      t.regField d .partcfg 47 32 = min 0xFFFF (s.regField d .partcfg 47 32 + 1))) ∧
  (∀ x p (v : DWord), isX x = true → p < 24 →
    let clash := v.getLsbD 63 = true ∧ ∃ q, q < 24 ∧ q ≠ p ∧ s.regField x (.xpart q) 63 63 = 1 ∧
      (rangesClash (lpRange v.toNat) (lpRange (s.reg x (.xpart q)).toNat) = true ∨
        rangesClash (flRange v.toNat) (flRange (s.reg x (.xpart q)).toNat) = true)
    (¬ clash → Happens s (.xpartWrite x p v) fun t => regs t ∧ t.reg x (.xpart p) = v &&& (RegName.xpart p).stored) ∧
    (clash → Happens s (.xpartWrite x p v) fun t => regs t ∧ t.reg x (.xpart p) = s.reg x (.xpart p) ∧
      t.regField x .xpartst 15 0 = min 0xFFFF (s.regField x .xpartst 15 0 + 1))) ∧
  (∀ d port l, portExists d port = true → linkAt (d, port) = some l → s.regField d (.sfw port) 2 2 = 1 →
    s.regField d (.sfw port) 3 3 = 0 → Happens s (.lrcDone d port) fun t =>
      t.regField d (.sfw port) 3 3 = 1 ∧ (t.links.get {} l).table = [] ∧
      ∀ e ∈ (s.links.get {} l).table, ∀ q, s.reqOf e.req = some q → q.unanswered = true → q.agent.isHost = false →
        (∀ north cx k, q.agent ≠ .module north cx k) → s.issuedBy q fFirewall 1 = none →
        Answered t e.req [] fFirewall) ∧
  (∀ p, s.mayReset p = true → Happens s (.partitionReset p) fun t =>
    (∀ c : CellId, c.die ∈ s.partDies p → t.cells.get {} c = {}) ∧
    (∀ h r, t.regions.get? h = some r → r.origin.die ∉ s.partDies p) ∧
    (∀ n l, s.launches.get? n = some l → l.part = p → l.st.accepted = true →
      ∃ l', t.launches.get? n = some l' ∧ l'.st = .complete) ∧
    (∀ d ∈ s.partDies p, t.wipeOf (.hbm d) = .running ∧ t.wipeOf (.cells d) = .running ∧ t.lotsOf d = {} ∧
      ∀ n, n < Config.tailorHarts → t.hart d n = { running := true }) ∧
    (∀ e ∈ t.vault, e.part ≠ p) ∧ t.epochs.get 0 p = s.epochs.get 0 p + 1) ∧
  (∀ x (v : DWord), isX x = true →
    let unheld (t : State) : Prop := t = { s with regs := t.regs, harts := t.harts } ∧
      ∀ n, n < Config.systemHarts → (t.hart x n).xpirq = 0
    (Happens s (.ftlgcWrite x v) fun t => (if v.getLsbD 8 then unheld t else regs t) ∧
      t.regField x .ftlgc 6 0 = min 50 (v.toNat % 128) ∧
      t.regField x .ftlgc 8 8 = (if v.getLsbD 8 then 0 else s.regField x .ftlgc 8 8) ∧
      t.regField x .ftlgc 63 32 = s.regField x .ftlgc 63 32) ∧
    (Happens s (.ftlgcHeldClear x) fun t => unheld t ∧ t.regField x .ftlgc 8 8 = 0 ∧
      t.regField x .ftlgc 6 0 = s.regField x .ftlgc 6 0) ∧
    ∀ traffic wanted free,
      let cap := s.regField x .ftlgc 6 0
      let held := wanted = true ∧ cap ≤ traffic
      Happens s (.ftlGcWindow x traffic wanted free) fun t => t.regField x .ftlgc 23 16 = min cap traffic ∧
        t.regField x .ftlgc 6 0 = cap ∧ ((t.xdie x).flashStall = true ↔ held ∧ free = false) ∧
        (held → t.regField x .ftlgc 8 8 = 1 ∧ t.outbox = s.outbox ++ [.abuabyIrq x 0] ∧
          ∀ n, n < Config.systemHarts → (t.hart x n).xpirq = 1) ∧
        (¬ held → t.regField x .ftlgc 8 8 = s.regField x .ftlgc 8 8 ∧
          t = { s with regs := t.regs, xdies := t.xdies })) ∧
  (∀ d vd (v : DWord), isC d = true → vd < 1024 →
    let part := (v.extractLsb' 16 5).toNat
    let old := s.reg d (.vdcfg vd)
    let en := v.getLsbD 0
    let rejects (e : Nat) : Prop := Happens s (.vdcfgWrite d vd v) fun t => regs t ∧
      t.regField d (.vdst vd) 3 0 = e ∧ t.regField d (.vdcfg vd) 0 0 = (if e = 3 then s.regField d (.vdcfg vd) 0 0 else 0)
    (en = true → v.extractLsb' 32 16 = 0 → rejects 1) ∧
    (en = false ∨ v.extractLsb' 32 16 ≠ 0 → 24 ≤ part ∨ (en = true ∧ s.partDies part = []) → rejects 2) ∧
    (en = false ∨ v.extractLsb' 32 16 ≠ 0 → part < 24 → en = false ∨ s.partDies part ≠ [] →
      part ≠ (old.extractLsb' 16 5).toNat → s.pendingOf ((s.partOf d).getD 31) vd ≠ 0 → rejects 3) ∧
    (en = false ∨ v.extractLsb' 32 16 ≠ 0 → part < 24 → en = false ∨ s.partDies part ≠ [] →
      part = (old.extractLsb' 16 5).toNat ∨ s.pendingOf ((s.partOf d).getD 31) vd = 0 →
      Happens s (.vdcfgWrite d vd v) fun t => t.reg d (.vdcfg vd) = v &&& (RegName.vdcfg vd).stored ∧
        t.regField d (.vdst vd) 3 0 = 0)) ∧
  (∀ d vd (v : DWord), isC d = true → vd < 1024 →
    (s.asidBusy d vd = false → Happens s (.vdasidWrite d vd v) fun t => regs t ∧
      t.reg d (.vdasid vd) = v &&& (RegName.vdasid vd).stored) ∧
    (s.asidBusy d vd = true → Happens s (.vdasidWrite d vd v) fun t => t = s)) ∧
  (∀ d i (v : DWord), isC d = true → i < 26 →
    let old := s.reg d (.dmap i)
    let moves := i < 24 ∧ v.extractLsb' 0 5 ≠ old.extractLsb' 0 5
    (¬ moves ∨ s.physFree d = true → Happens s (.dmapWrite d i v) fun t => regs t ∧
      t.reg d (.dmap i) = v &&& (RegName.dmap i).stored) ∧
    (moves → s.physFree d = false → Happens s (.dmapWrite d i v) fun t => regs t ∧
      (t.reg d (.dmap i)).extractLsb' 0 5 = old.extractLsb' 0 5 ∧
      (t.reg d (.dmap i)).extractLsb' 17 7 = v.extractLsb' 17 7 ∧
      t.regField d .partcfg 47 32 = min 0xFFFF (s.regField d .partcfg 47 32 + 1)))

/-- R84, R92-R94, R101-R106, R124, R303: issue of a launch, its first placement, summaries, ageing, slices, the end of
its instances and its completion. -/
def Obligations.LaunchEvents : Prop := ∀ s : State,
  let becomes (t : State) (n : Nat) (f : Launch → Prop) : Prop := ∃ l, t.launches.get? n = some l ∧ f l
  (∀ n l, s.launches.get? n = some l → l.st = .issued →
    s.memoryReady (s.ownerDie (s.mapDie l.part) l.part l.recAddr) = true →
    let copy := s.loadLong (s.mapDie l.part) l.part l.asid l.recAddr 16
    let answers (t : State) (st : Nat) : Prop := ∀ d k rd, l.issuer = .hart d k rd → (s.hart d k).Ok →
      Completed s t d k rd (BitVec.ofNat 64 st)
    (s.feat.accepted = false → Happens s (.launchIssue n) fun t => becomes t n (·.st = .complete) ∧ answers t 0x83) ∧
    (s.feat.accepted = true → (l.recAddr.toNat % 1024 ≠ 0 ∨ copy = none) →
      Happens s (.launchIssue n) fun t => becomes t n (·.st = .complete) ∧ answers t 0x11) ∧
    ∀ b, s.feat.accepted = true → l.recAddr.toNat % 1024 = 0 → copy = some b →
      (∀ st, s.issueCheck (s.taken l b) = some st →
        Happens s (.launchIssue n) fun t => becomes t n (·.st = .complete) ∧ answers t st) ∧
      (s.issueCheck (s.taken l b) = none → Happens s (.launchIssue n) fun t => answers t 0 ∧ becomes t n fun l' =>
        l'.copy = (s.taken l b).copy ∧ l'.vd = (s.taken l b).vd ∧ l'.seq = s.nextId ∧ l'.st ≠ .issued)) ∧
  (∀ n l, s.launches.get? n = some l → l.st = .placing →
    let cold := (s.regionsOf n).filter fun e => e.2.state == .allocated && (s.saves.get? (n, e.2.inst)).isNone
    (∀ i ∈ l.insts, i.retired = false → i.handle = none → Happens s (.imageLoadComplete n) fun t =>
      becomes t n fun l' => l'.st = .completing ∧ l'.ending = some (l.ending.getD 0x80)) ∧
    ((∀ i ∈ l.insts, i.retired = true ∨ i.handle ≠ none) → cold ≠ [] →
      let img := s.launchImage l
      let want := s.launchWant l
      (∀ va, img = .error va → Happens s (.imageLoadComplete n) fun t =>
        becomes t n fun l' => l'.st = .completing ∧ l'.ending = some (l.ending.getD 0x11)) ∧
      (∀ m j, img = .ok m → m.check want = some j → Happens s (.imageLoadComplete n) fun t =>
        becomes t n fun l' => l'.st = .completing ∧ l'.ending = some (l.ending.getD j.code)) ∧
      (∀ m, img = .ok m → m.check want = none →
        (∀ e ∈ cold, s.blockedRoute (loadedWith m l.image e.2) = none) →
        let s1 := (Act.each cold fun e => .onRegion e.1 (loadedWith m l.image)).run s
        ((s1.regionsOf n).flatMap fun e => s1.asleepIn e.2.rect) = [] → s1.lotsReady (s1.placedWants n) = true →
        (∀ i, s.saves.get? (n, i) = none) → Happens s (.imageLoadComplete n) fun t =>
          (becomes t n fun l' => l'.st = .running ∧ l'.sliceStart = s.cycle) ∧
          ∀ h r, s.regions.get? h = some r → r.launch = some n → r.state = .allocated →
            ∃ r', t.regions.get? h = some r' ∧ r'.state = .running ∧ r'.imageId = m.id))) ∧
  (∀ d p, s.partOf d = some p → Happens s (.dispatcherSummary d) fun t =>
    ∀ k ∈ s.partDies p, (t.dispatchers.get {} k).summaries.get [] d = s.summary p d) ∧
  (∀ n l, s.launches.get? n = some l → l.st = .queued ∨ l.st = .saved → l.cls < 3 →
    l.waitSince + l.ageBound * usCycles < s.cycle → Happens s (.ageingPromotion n) fun t =>
      becomes t n fun l' => l'.cls = l.cls + 1 ∧ l'.waitSince = s.cycle) ∧
  (∀ n l, s.launches.get? n = some l → l.st = .running → l.sliceStart + l.quantum * usCycles ≤ s.cycle →
    (∀ m, s.switchable n = true → s.successor n l = some m → Happens s (.sliceEnd n) fun t =>
      becomes t n fun l' => l'.st = .switching ∧ l'.switch = some
        { tick := s.cycle, deadline := s.cycle + (s.gangTime n + 20) * usCycles, incoming := [m] }) ∧
    (s.switchable n = false ∨ s.successor n l = none → Happens s (.sliceEnd n) fun t =>
      becomes t n fun l' => l'.st = .running ∧ l'.sliceStart = s.cycle)) ∧
  (∀ n l, s.launches.get? n = some l → l.st = .completing → l.outside = [] →
    (s.launchOwes n ≠ [] → Happens s (.launchCompletion n) fun t => Announces s t (s.launchOwes n)) ∧
    (s.launchOwes n = [] → Happens s (.launchCompletion n) fun t => (becomes t n fun l' => l'.st = .complete ∧ l'.insts = l.insts) ∧
      (l.flag flagIrq = true → l.foreign = none → OutMsg.msix (24 + l.vd / 512) (l.vd % 512) 1 ∈ t.outbox) ∧
      ∀ c v, s.comptlAfter l = some (c, v) → (t.copies.get {} c).tlc = v)) ∧
  (∀ h r, s.regions.get? h = some r → r.active = true → r.wave = [] → s.over r = true → s.allLanded h = true →
    (∀ p ∈ r.cells, (s.cells.get {} (r.cellAt p.1 p.2)).nothingDue = true) →
    (s.regionOwes h ≠ [] → Happens s (.instanceRetire h) fun t => Announces s t (s.regionOwes h)) ∧
    (s.regionOwes h = [] → r.launch = none → Happens s (.instanceRetire h) fun t =>
      ∃ r', t.regions.get? h = some r' ∧ r'.state = .retired) ∧
    (∀ n l, s.regionOwes h = [] → r.launch = some n → s.launches.get? n = some l → l.choosable = false →
      Happens s (.instanceRetire h) fun t => becomes t n fun l' => ∀ i ∈ l'.insts, i.n = r.inst → i.retired = true))

/-- R114-R116, R118: the two phases of a gang switch, its deadline, and its end by commit or abort. R119, R129, R130,
R145, R147, R387: how a region stops, goes quiescent and freezes, and what ends a drain. R144: PDFQST.CLR. -/
def Obligations.SwitchesAndRegions : Prop := ∀ s : State,
  let becomes (t : State) (h : Word) (f : Region → Prop) : Prop := ∃ r, t.regions.get? h = some r ∧ f r
  let ends (t : State) (n : Nat) (f : Launch → Prop) : Prop := ∃ l, t.launches.get? n = some l ∧ l.switch = none ∧ f l
  (∀ n l w die, s.switchOf n = some (l, w) →
    let goesOn (t : State) (f : Launch → Switch → Prop) : Prop := ∃ l' w', t.switchOf n = some (l', w') ∧ f l' w'
    let part (h : Word) (r : Region) : Prop := s.regions.get? h = some r ∧ r.launch = some n ∧ r.origin.die = die
    (w.verdict = 0 → die ∉ w.ticked → die ∈ s.gangDies n → Happens s (.switchTick n die) fun t =>
      (goesOn t fun _ w' => die ∈ w'.ticked ∧ w'.verdict = 0) ∧ ∀ h r, part h r → r.state = .running →
        becomes t h fun r' => r'.state = .stopping ∧ r'.stopAt = some s.cycle) ∧
    (w.verdict = 0 → die ∈ w.ticked → die ∉ w.ready → s.cycle ≤ w.deadline →
      (∀ e ∈ s.gangOn n die, e.2.state = .frozen ∨ e.2.state = .retired) → Happens s (.switchReady n die) fun t =>
        (goesOn t fun _ w' => die ∈ w'.ready ∧ ((∀ k ∈ s.gangDies n, k = die ∨ k ∈ w.ready) → w'.verdict = 1)) ∧
        ∀ h r, part h r → r.state = .frozen → ∃ e ∈ s.gangOn n die, e.2.inst = r.inst ∧
          t.saves.get? (n, r.inst) = some (s.snapshot e.1 e.2)) ∧
    (w.verdict = 0 → w.deadline ≤ s.cycle → Happens s (.switchDeadline n) fun t =>
      (goesOn t fun l' w' => w'.verdict = 2 ∧ l'.misses = l.misses + 1 ∧
        l'.faults = l.faults + if (l.misses + 1) % 3 = 0 then 1 else 0) ∧
      let k := s.dieAt l.part l.home
      (s.weight l.part l.vd ≠ 0 → (t.dispatchers.get {} k).def_ l.chargeCls l.vd =
        (s.dispatchers.get {} k).def_ l.chargeCls l.vd - usOf (s.cycle - w.tick))) ∧
    (w.verdict = 1 → die ∈ w.ready → die ∉ w.committed →
      ((∃ k ∈ w.ready, k ≠ die ∧ k ∉ w.committed) → Happens s (.switchCommit n die) fun t =>
        (goesOn t fun _ w' => die ∈ w'.committed) ∧ ∀ h r, part h r → r.state = .frozen → t.regions.get? h = none) ∧
      ((∀ k ∈ w.ready, k = die ∨ k ∈ w.committed) → Happens s (.switchCommit n die) fun t =>
        ends t n fun l' => l'.misses = 0 ∧ l'.st ≠ .switching)) ∧
    (w.verdict = 2 → die ∈ s.gangDies n → die ∉ w.aborted →
      ((∃ k ∈ s.gangDies n, k ≠ die ∧ k ∉ w.aborted) → Happens s (.switchAbort n die) fun t =>
        (goesOn t fun _ w' => die ∈ w'.aborted) ∧ ∀ h r, part h r → t.saves.get? (n, r.inst) = none ∧
          (r.fault = none → r.byStop = false → r.state ∈ [.stopping, .freezing, .frozen] →
            becomes t h fun r' => r'.state = .running)) ∧
      ((∀ k ∈ s.gangDies n, k = die ∨ k ∈ w.aborted) → Happens s (.switchAbort n die) fun t =>
        ends t n fun l' => l'.st ≠ .switching ∧
          (l.seamAt = none → l.killAfter = false → l.suspendAfter = false → l'.st = .running ∧ l'.sliceStart = s.cycle)))) ∧
  (∀ die n l m, (portEdge die 4).any s.linkFailed = true → s.launches.get? n = some l → some l.part = s.partOf die →
    l.st.accepted = true → l.choosable = false → m ∈ l.outside →
    portEdge die 4 = some (.edge (s.edgeTo (s.mapDie l.part) m).1 (s.edgeTo (s.mapDie l.part) m).2) →
    Happens s (.seamFailureMessage die 63) fun t => ∃ l', t.launches.get? n = some l' ∧ m ∉ l'.outside ∧
      l'.seamAt.isSome = true ∧ l'.st ≠ .running) ∧
  (∀ seam die, seam ≠ 63 → s.linkFailed (.seam seam) = true → Happens s (.seamFailureMessage die seam) fun t =>
    (∀ h r c, s.regions.get? h = some r → r.origin.die = die → r.active = true → r.fault = none →
      r.routeAcross seam = some c → becomes t h fun r' => r'.state = .freezing ∧ ∃ f, r'.fault = some f ∧ f.code = 0x0D) ∧
    ∀ h, (∀ e ∈ s.regions, e.1 = h → e.2.origin.die ≠ die ∨ e.2.active = false ∨ e.2.routeAcross seam = none) →
      t.regions.get? h = s.regions.get? h) ∧
  (∀ h r n l c, s.regions.get? h = some r → r.state = .running → r.launch = some n → s.launches.get? n = some l →
    l.st = .freezing → l.seamAt = some c → c + 10000 * 1600 ≤ s.cycle → Happens s (.seamFailureStopTimeout h) fun t =>
      becomes t h fun r' => r'.state = .stopping ∧ r'.stopAt = some s.cycle) ∧
  (∀ h r, s.regions.get? h = some r → r.state = .stopping →
    (r.heldAll s.cycle = true → s.frontSettled h r (r.stopAt.getD s.cycle) = true → s.arrivalDue r = false →
      (∀ p ∈ r.cells, s.tokensOut (s.cells.get {} (r.cellAt p.1 p.2)) = false) → Happens s (.quiescence h) fun t =>
        becomes t h fun r' => r'.state = .freezing ∧ r'.wave = []) ∧
    (∀ q ∈ s.reqs, q.region = some h → q.landed = false → q.st = .net → exec (.quiescence h) s = .next s)) ∧
  (∀ h r, s.regions.get? h = some r → r.state = .freezing → r.waveDone s.cycle = true → s.allLanded h = true →
    let kills (f : FaultRec) : Prop := f.code ≠ 0x0D ∧ s.policyOf r f.cls = polKill
    ((∀ f ∈ r.due, ¬kills f) → r.imprecise = [] → (∀ f, r.fault = some f → f.cls ≠ 2) →
      (∀ n l, r.launch = some n → s.launches.get? n = some l → l.st ≠ .freezing ∧ l.choosable = false) →
        Happens s (.frontSettled h) fun t =>
        (becomes t h fun r' => r'.state = .frozen ∧ r'.wave = []) ∧
        ∀ n l f, r.launch = some n → s.launches.get? n = some l → l.st = .running → f ∈ r.due → f.code ≠ 0x0D →
          ∃ l', t.launches.get? n = some l' ∧ l'.st = .suspended) ∧
    (∀ n l f, r.launch = some n → s.launches.get? n = some l → f ∈ r.due → kills f →
      Happens s (.frontSettled h) fun t => Ends t n)) ∧
  (∀ h r, s.regions.get? h = some r → r.state = .running → r.shut = true → r.exitAt = none →
    r.lastActive + 10000 * 1600 ≤ s.cycle → s.allLanded h = true → Happens s (.shutIdleTimeout h) fun t =>
      becomes t h fun r' => r'.exitAt = some (r.origin, s.cycle)) ∧
  (∀ d n c rd h r, (s.hart d n).Ok → (s.hart d n).wait = some (.drain c rd h) → s.regions.get? h = some r →
    r.state = .stopping ∨ r.state = .freezing → c + 160000 ≤ s.cycle →
    Happens s (.rgDrainTimeout d n) fun t => Answers s t d n rd 10) ∧
  (∀ die, isC die = true → Happens s (.pdfqstClr die) fun t => t.reg die .pdfqst = 0)

/-- R179, R180: a token leaves on every output of its route at once, and stays while one has no room. R182, R183: what
an output port of the dynamic network sends, and the arbiter's weights. R173-R176: the elements of streams and their
configuration. R308, R360, R364, R366: barriers, full bits, bank tokens and publications once their accesses are
performed. R219: pending waits. -/
def Obligations.FabricEvents : Prop := ∀ s : State,
  (∀ id net src sp w, s.spot id = some sp →
    (s.cells.get {} id).sw.routes.find? (fun v => v.net == net && v.src == src) = some w →
    sp.r.active = true → sp.r.exited s.cycle id = false →
    let c := s.cells.get {} id
    (∀ f, s.feed sp id w = some f → w.outs.all (outRoom c net) = true → s.routeTurn sp id w = true → w.outs.Nodup →
      (∀ d, src = .dir d → s.feeder sp id w d ≠ some id) → Happens s (.tokenHop id net src) fun t =>
        let x := t.cells.get {} id
        let k : Tok := { f.t with since := s.cycle + 1 + s.wakeDelay id }
        (∀ d, .dir d ∈ w.outs → x.sw.bufs.get [] (net, d) = c.sw.bufs.get [] (net, d) ++ [k]) ∧
        (∀ i, .chan i ∈ w.outs → x.ce.chan net i = c.ce.chan net i ++ [k]) ∧
        (∀ i u, .sp i ∈ w.outs → c.me.streams.get? i = some u →
          ∃ u', x.me.streams.get? i = some u' ∧ u'.inq = u.inq ++ [k]) ∧
        (∀ i u, .cfg i ∈ w.outs → c.me.streams.get? i = some u →
          ∃ u', x.me.streams.get? i = some u' ∧ u'.cfgq = u.cfgq ++ [k]) ∧
        (∀ i, src = .out i → x.ce.outList (netOut net i) = (c.ce.outList (netOut net i)).tail)) ∧
    (∀ i, src = .out i → w.outs.all (outRoom c net) = false → exec (.tokenHop id net src) s = .next s)) ∧
  (∀ id out w o p, s.choose id out = some (w, o, p) → Happens s (.dynamicPacketHop id out) fun t =>
    ((∃ x ∈ s.waitersAt id out, x.vc = 3) → w.vc = 3) ∧
    (∀ k inp, w.hop = .node k inp → k ≠ id →
      (t.nodes.get {} k).bufs.get [] (inp, w.vc) =
        (s.nodes.get {} k).bufs.get [] (inp, w.vc) ++ [{ w.p with head := s.cycle + 1 }] ∧
      ((t.nodes.get {} id).bufs.get [] (w.inp, w.vc)).length + 1 = ((s.nodes.get {} id).bufs.get [] (w.inp, w.vc)).length) ∧
    (∀ n q, w.hop = .deliver → w.p.load = .response n → s.reqOf n = some q → q.agent.isHost = false →
      (∀ north cx k, q.agent ≠ .module north cx k) → ∃ q', t.reqOf n = some q' ∧ q'.back = true) ∧
    (∀ l, w.hop = .lane l → s.atLane l w.p = .cross →
      ((t.lanes.get {} l).buf.map (·.load)) ++ (t.lanes.get {} l).pend =
        ((s.lanes.get {} l).buf.map (·.load)) ++ w.p.flits) ∧
    (∀ n q, w.hop = .deliver → w.p.load = .request n → s.reqOf n = some q → q.st = .net →
      ∃ q', t.reqOf n = some q' ∧ q'.st = .held 0)) ∧
  (∀ die v, isC die = true →
    (Happens s (.dnwgtWrite die 0 v) fun t => t.reg die (.dnwgt 0) = v) ∧
    (Happens s (.dnwgtWrite die 1 v) fun t => t.regField die (.dnwgt 1) 15 0 = v.toNat % 2 ^ 16 ∧
      t.regField die (.dnwgt 1) 25 16 = max 64 (v.toNat / 2 ^ 16 % 2 ^ 10) ∧
      t.regField die (.dnwgt 1) 41 32 = s.regField die (.dnwgt 1) 41 32)) ∧
  (∀ id (k : Fin 4) e ecc, s.agEnv id k.val = some e → ecc ≠ .uncorrectable →
    let becomes (t : State) (f : Stream → Prop) : Prop := ∃ x, (t.cells.get {} id).me.streams.get? k.val = some x ∧ f x
    (e.readsHere = true → e.isRead = true → Happens s (.agElement id k .uncorrectable) fun t =>
      let off := meOffset e.t.addr
      ((t.cells.get {} id).me.line (lineOf off)).bad.getLsbD (off % 128 / 8) = true) ∧
    (e.isRead = true → e.exited = false → e.room = true →
      (e.runs = true → e.t.eosDue ≠ 0 → Happens s (.agElement id k ecc) fun t => becomes t fun x =>
        x.outq = e.t.outq ++ [e.t.marker .eos (e.t.reading.getD 0) s.cycle] ∧ x.eosDue = e.t.eosDue - 1) ∧
      (e.t.eosDue = 0 → e.configFirst = false → e.t.refires = [] → e.t.ended = false → e.mayTake = true →
        (∀ b, e.tile = some b → b.shown ≠ none) → e.misaligned = false →
        (∀ m g, e.path (meOffset e.t.addr) = .here → e.outstanding = false → e.t.desc.pack ≠ .vecsb →
          meOp e.me e.acc s.reqDone [] none (.read (meOffset e.t.addr) e.t.desc.size) = .ok m g →
          Happens s (.agElement id k ecc) fun t => (t.cells.get {} id).me.lines = e.me.lines ∧ becomes t fun x =>
            x.outq = e.t.outq ++ [.filled (e.t.token g.value g.sb g.ver s.cycle)] ∧ x.idx = e.t.next.idx ∧
              x.ended = e.t.next.ended ∧ x.eosDue = e.t.next.eosDue) ∧
        (e.path (meOffset e.t.addr) = .mem → e.t.desc.pack ≠ .vecsb →
          s.canonical e.id.die e.part (BitVec.ofInt 64 e.t.addr) = true → Happens s (.agElement id k ecc) fun t =>
            (∃ q, t.reqs = s.reqs ++ [q] ∧ q.id = s.nextId ∧ q.st = .net ∧ q.ret = .stream k.val ∧
              q.goal = .mem (BitVec.ofInt 64 e.t.addr) (.load e.t.desc.size)) ∧ becomes t fun x =>
              x.outq = e.t.outq ++ [.reserved s.nextId] ∧ x.idx = e.t.next.idx))) ∧
    (∀ tok rest, e.isRead = false → e.configFirst = false → e.t.inq = tok :: rest → e.runs = true →
      e.sp.r.stepover = false →
      (tok.mark = .eos → e.t.ended = false →
        (e.t.desc.eosrule = 0 → Happens s (.agElement id k ecc) fun t => becomes t (· = { e.t with inq := rest })) ∧
        (e.t.desc.eosrule = 1 → Happens s (.agElement id k ecc) fun t =>
          becomes t (· = { e.t with inq := rest, ended := true, boundary := true }))) ∧
      (∀ m g, tok.mark = .data → e.t.ended = false → e.mayTake = true → e.misaligned = false → tok.payload.mask ≠ 0 →
        e.path (meOffset e.t.addr) = .here → e.outstanding = false →
        meOp e.me e.acc s.reqDone [] none (e.writeOp tok.payload (meOffset e.t.addr)) = .ok m g →
        Happens s (.agElement id k ecc) fun t => (t.cells.get {} id).me.lines = m.lines ∧
          (m.streams = e.me.streams → becomes t fun x => x.inq = rest ∧ x.idx = e.t.next.idx ∧ x.ended = e.t.next.ended))) ∧
    (∀ tok rest, e.t.cfgq = tok :: rest → e.runs = true →
      (tok.mark ≠ .cfg → Happens s (.agConfigToken id k) fun t => becomes t (· = { e.t with cfgq := rest })) ∧
      (tok.mark = .cfg → e.t.boundary = false → e.t.ended = false → exec (.agConfigToken id k) s = .next s) ∧
      (tok.mark = .cfg → rest = [] → e.t.eosDue = 0 → e.t.boundary = true ∨ e.t.ended = true →
        e.t.applyAll.misplaced = false → Happens s (.agConfigToken id k) fun t => becomes t fun x =>
          let d := e.t.desc
          let n := (tok.word.extractLsb' 26 6).toNat
          let v : BitVec 26 := tok.word.extractLsb' 0 26
          x.cfgq = [] ∧
          (n = 0 → x.desc = { d with base := d.base.extractLsb' 26 38 ++ v }) ∧
          (n = 1 → x.desc = { d with base := d.base.extractLsb' 52 12 ++ v ++ d.base.extractLsb' 0 26 }) ∧
          (n = 2 → x.desc = { d with base := v.extractLsb' 0 12 ++ d.base.extractLsb' 0 52 }) ∧
          (8 ≤ n → n ≤ 13 → x.desc = if v.extractLsb' 0 20 = 0 then d else
            { d with counts := d.counts.set (n - 8) (v.extractLsb' 0 20) }) ∧
          (16 ≤ n → n ≤ 21 → x.desc = { d with strides := d.strides.set (n - 16) (v.signExtend 32) }) ∧
          (24 ≤ n → n ≤ 29 → x.desc = { d with
            strides := d.strides.set (n - 24) (v.extractLsb' 0 6 ++ (d.strides.getD (n - 24) 0).extractLsb' 0 26) }) ∧
          (n = 32 → x.desc = d ∧ x.idx = [0, 0, 0, 0, 0, 0] ∧ x.ended = false)))) ∧
  (∀ h r (k : Fin 8) reqs, s.regions.get? h = some r → (r.tbars.get {} k.val).due = some reqs →
    (r.tbars.get {} k.val).arrived = false → r.active = true → (∀ i ∈ reqs, s.reqDone i = true) → r.imprecise = [] →
    let epoch := (r.tbars.get {} k.val).epoch
    (r.launch = none → Happens s (.tbarArrival h k) fun t => ∃ r', t.regions.get? h = some r' ∧
      r'.tbars.get {} k.val = { epoch := epoch + 1 }) ∧
    (∀ n l, r.launch = some n → s.launches.get? n = some l → l.st ≠ .freezing →
      let team := l.teamNo r.inst k.val
      let arrived (i : Inst) : Prop := l.hasArrived k.val (l.released.get 0 (k.val, team)) i = true
      ((∃ i ∈ l.members k.val team, i.n ≠ r.inst ∧ ¬arrived i) → Happens s (.tbarArrival h k) fun t =>
        ∃ r' l', t.regions.get? h = some r' ∧ t.launches.get? n = some l' ∧
          r'.tbars.get {} k.val = { epoch := epoch, arrived := true } ∧ (k.val, r.inst, epoch) ∈ l'.arrivals) ∧
      ((∀ i ∈ l.members k.val team, i.n = r.inst ∨ arrived i) → l.outsideArrived k.val team epoch = true → epoch = l.released.get 0 (k.val, team) →
        Happens s (.tbarArrival h k) fun t => (∃ l', t.launches.get? n = some l' ∧
          l'.released.get 0 (k.val, team) = epoch + 1) ∧
          ∀ h' r', s.regions.get? h' = some r' → (∀ e ∈ s.regions, e.1 = h' → e.2 = r') → r'.launch = some n →
            (∃ i ∈ l.members k.val team, i.n = r'.inst) → ∃ r'', t.regions.get? h' = some r'' ∧
              r''.tbars.get {} k.val = { epoch := epoch + 1 }))) ∧
  (∀ n id l off sp, s.laterAt n = some (id, l) → l.op = .feSet off → s.spot id = some sp → sp.r.active = true →
    (∀ i ∈ l.reqs, s.reqDone i = true) →
    let m := (s.cells.get {} id).me
    ∀ m' g, meOp m (sp.acc id m) s.reqDone [] none (.feSet off) = .ok m' g → Happens s (.feSetPerform n) fun t =>
      let x := (t.cells.get {} id).me
      (x.line (off / 128)).full = true ∧ x.later = m'.later.filter (·.id != n) ∧
        ∀ i, i ≠ off / 128 → x.line i = m.line i) ∧
  (∀ id (i : Fin 8) sp b p rest, s.spot id = some sp → (s.cells.get {} id).me.basting i.val = some b → b.due = p :: rest →
    sp.r.active = true → (∀ q ∈ p.reqs, s.reqDone q = true) → Happens s (.bastePublish id i) fun t =>
      let m := (s.cells.get {} id).me
      let m' := (t.cells.get {} id).me
      m'.basting i.val = some { b with due := rest, shown := some p.ver } ∧
      ((∀ j, (m.bank j).bound = none) → ∀ n, m'.line n =
        if b.base ≤ n ∧ n < b.base + b.lines then { m.line n with ver := p.ver } else m.line n)) ∧
  (∀ id (b : Fin 8) sp l rest col row inst next ref, s.spot id = some sp → (s.cells.get {} id).me.later = l :: rest →
    l.op = .give b.val col row inst next ref → sp.r.active = true → (∀ q ∈ l.reqs, s.reqDone q = true) →
    ∀ n a, sp.r.launch = some n → s.launches.get? n = some a → next = false → inst < a.teams 0 →
      (∀ i ∈ a.insts, i.n = inst → i.retired = false) →
      let left (t : State) : Prop := (t.cells.get {} id).me.later = rest.filter (·.id != l.id)
      (∀ h r, s.regions.find? (fun x => x.2.isInst (n, inst)) = some (h, r) → r.cells.contains (col, row) = true →
        r.state ≠ .allocated → r.state ≠ .loaded → Happens s (.botTokenSend id b) fun t => left t ∧
          ((t.cells.get {} (r.cellAt col row)).me.bank b.val).tokens =
            ((s.cells.get {} (r.cellAt col row)).me.bank b.val).tokens ++ [ref]) ∧
      (s.regions.find? (fun x => x.2.isInst (n, inst)) = none → Happens s (.botTokenSend id b) fun t => left t ∧
        let d := sp.r.origin.die
        ∃ k, (t.dispatchers.get {} d).tokens = (s.dispatchers.get {} d).tokens ++ [k] ∧ k.ref = ref ∧ k.inst = inst ∧
          k.launch = some n ∧ k.col = col ∧ k.row = row ∧ k.bank = b.val)) ∧
  (∀ id (k : Fin 8) sp, s.spot id = some sp → sp.r.active = true → Happens s (.pendingWaitComplete id k) fun t =>
    ∀ x, x ∈ (t.cells.get {} id).ce.waits.get [] k.val ↔ x ∈ (s.cells.get {} id).ce.waits.get [] k.val ∧
      match x with
      | .fence l | .sbar _ l => ∃ q ∈ l, s.reqDone q = false
      | .timeline n => ∃ q, s.reqOf n = some q ∧ q.landed = false
      | .tbar j e => (sp.r.tbars.get {} j).epoch ≤ e)

/-- R191, R194-R198, R213, R222, R223, R227, R353: requests of cells at their homes, whole or in parts (which parts one
step performs is the model's choice, log 74), side logs, and the landing of responses.
R200, R201: the end of a sweep. R206, R207, R210, R211: the lines and the end of a copy. R4, R221, R377, R378: what a
hart's loads, stores, AMOs and register writes do (its exceptions as logged under 11, its floating-point loads under 9). -/
def Obligations.MemoryEvents : Prop := ∀ s : State,
  let stored (t : State) (key : Nat) (b : List (Option Byte)) : Prop := ∀ k, t.mem.read k =
    if key ≤ k ∧ k < key + b.length then (b.getD (k - key) none).getD (s.mem.read k) else s.mem.read k
  let ofCell (q : Req) : Prop := ∃ c k, q.agent = .ctx c k ∨ q.agent = .stream c k
  (∀ n q va op u ecc, s.reqOf n = some q → ofCell q → q.st = .held 0 → q.owed = false → q.goal = .mem va op →
    let owner := s.ownerOf q va
    s.memoryReady owner = true → s.fencedAt q owner = false → vaOwner va ≠ 27 → s.earlier q = [] →
    let home := dataHome owner va
    let log := s.logOf q.agent.die q.part va
    let free := (s.log log).entries.length < 256 ∧ s.flashFull owner va op = false
    let held (c : Nat) (t : State) : Prop := ∃ q', t.reqOf n = some q' ∧ q'.st = .held c
    let done (b : List Byte) (t : State) : Prop := Answered t n b 0 ∧ Responds t q
    let goes (e : EccSeen) (f : State → Prop) : Prop := Happens s (.globalRequestArrival n u e none) f
    let go (f : State → Prop) : Prop := ecc ≠ .uncorrectable → goes ecc f
    (∀ l pa, s.resolve q va op u = .ok (l, pa) → l.freshBit (vaOffset va) = false → s.eccAt home pa op.size = false →
      let old := s.mem.readN (homeKey home pa) op.size
      (∀ k, op = .load k → q.got = [] → s.loadHeld owner q.asid va k = false →
        (go fun t => done old t ∧ t.mem = s.mem) ∧
        (vaOwner va < 26 → goes .corrected fun t => (t.log log).corrected = (s.log log).corrected + 1) ∧
        (∀ i, vaOwner va < 26 → 0 < k → s.issuedBy q fEcc 0 = some i → s.policyOf i.r 0 ≠ polShut →
          goes .uncorrectable fun t => held fEcc t ∧ t.eccAt home pa k = true)) ∧
      (q.got = [] → s.mem.wf = true → s.logHolds log q.asid = false → free →
        (∀ b, op = .store b → go fun t => done [] t ∧ stored t (homeKey home pa) b) ∧
        (∀ r ret, op = .rmw r ret → go fun t => done (if ret then old else []) t ∧
          stored t (homeKey home pa) ((leBytes r.size (r.apply (leNat old))).map some)) ∧
        (∀ rop f p v m, op = .reduce rop f p v m → go fun t => done [] t ∧
          stored t (homeKey home pa) ((leBytes op.size (mergeElems rop f op.size m (leNat old) v.toNat)).map some))) ∧
      (∀ w, w < 8 → op.size = 64 →
        let now (k : Nat) : Prop := 8 * w ≤ k ∧ k < 8 * w + 8 ∧ q.got.getD k none = none
        let left (k : Nat) : Prop := q.got.getD k none = none ∧ ¬(8 * w ≤ k ∧ k < 8 * w + 8)
        let part (f : State → Prop) : Prop := ecc ≠ .uncorrectable → Happens s (.globalRequestArrival n u ecc (some w)) f
        let more (t : State) : Prop := ∃ q', t.reqOf n = some q' ∧ q'.st = .held 0 ∧ ∀ k, k < 64 →
          (now k → q'.got.getD k none = some (old.getD k 0)) ∧ (¬now k → q'.got.getD k none = q.got.getD k none)
        (∀ k, op = .load k → s.loadHeld owner q.asid va k = false →
          ((∃ i, i < 64 ∧ left i) → part fun t => more t ∧ t.mem = s.mem) ∧
          ((∀ i, i < 64 → ¬left i) → part fun t => t.mem = s.mem ∧ Responds t q ∧
            Answered t n ((List.range 64).map fun i => (q.got.getD i none).getD (old.getD i 0)) 0)) ∧
        (∀ b, op = .store b → s.mem.wf = true → s.logHolds log q.asid = false → free →
          let put (t : State) : Prop := ∀ k, (∀ i, i < 64 → now i → k = homeKey home pa + i →
              t.mem.read k = (b.getD i none).getD (s.mem.read k)) ∧
            ((¬∃ i, i < 64 ∧ now i ∧ k = homeKey home pa + i) → t.mem.read k = s.mem.read k)
          ((∃ i, i < 64 ∧ left i) → part fun t => more t ∧ put t) ∧
          ((∀ i, i < 64 → ¬left i) → part fun t => done [] t ∧ put t)))) ∧
    (∀ k, op = .load k → s.loadHeld owner q.asid va k = true → exec (.globalRequestArrival n u .clean none) s = .next s) ∧
    (op.isLoad = false → op.returns = false → free →
      s.logHolds log q.asid = true ∨ s.resolve q va op u = .error transMiss → go fun t =>
        (∃ q', t.reqOf n = some q' ∧ q'.st = .logged) ∧ (t.log log).entries = (s.log log).entries ++ [q.id]) ∧
    (∀ k c i, op = .load k → s.loadHeld owner q.asid va k = false → s.resolve q va op u = .error c →
      s.issuedBy q c 1 = some i → s.policyOf i.r 1 ≠ polShut → s.policyOf i.r 1 ≠ polMap → go fun t =>
        held c t ∧ ∃ r, t.regions.get? i.h = some r ∧ r.state = .freezing)) ∧
  (∀ n q c op u ecc, s.reqOf n = some q → ofCell q → q.st = .held 0 → q.owed = false → q.goal = .tl c op →
    s.earlier q = [] →
    let tl := s.copies.get {} c
    (op = .read → Happens s (.globalRequestArrival n u ecc none) fun t => Responds t q ∧
      Answered t n (leBytes 8 tl.tlc.toNat ++ leBytes 4 (if tl.poison.isSome then 1 else 0)) 0) ∧
    (∀ m, op = .arm m → tl.poisonedBy m = false →
      (m.toNat ≤ tl.tlc.toNat → Happens s (.globalRequestArrival n u ecc none) fun t => Responds t q ∧
        Answered t n (leBytes 8 tl.tlc.toNat) 0) ∧
      (tl.tlc.toNat < m.toNat → exec (.globalRequestArrival n u ecc none) s = .next s))) ∧
  (∀ n q h col row op ecc, s.reqOf n = some q → ofCell q → q.st = .held 0 → s.earlier q = [] →
    q.goal = .me h col row op → q.bound = false → s.lineWiping h col row = false → ecc ≠ .uncorrectable →
    (∀ r m g, s.regions.get? h = some r → r.cells.contains (col, row) = true → s.remoteOp q r col row op = .ok m g →
      Happens s (.remoteMeAccess n ecc) fun t => Responds t q ∧ (t.cells.get {} (r.cellAt col row)).me = m ∧
        Answered t n (leBytes op.answerSize g.value.toNat) 0 ∧
        ∀ k, k ≠ r.cellAt col row → t.cells.get {} k = s.cells.get {} k) ∧
    (s.regions.get? h = none → Happens s (.remoteMeAccess n ecc) fun t => Responds t q ∧
      Answered t n (List.replicate op.answerSize 0) 0 ∧ t.cells = s.cells)) ∧
  (∀ n q v code, s.reqOf n = some q → q.back = true → q.agent.isHost = false → s.landsIn q = true → s.regTurn q = true →
    q.st = .performed v code → q.landed = false → q.owed = false →
    let lands (f : State → Prop) : Prop := Happens s (.requestLands n) fun t => t.reqOf n = none ∧ f t
    (q.ret = .none → lands fun t => t.cells = s.cells) ∧
    (∀ d c sp, q.ret = .reg d → agentCell q.agent = some c → s.spot c = some sp → code ≠ eosCode → lands fun t =>
      (t.cells.get {} c).ce = (s.cells.get {} c).ce.write d
        { fmt := q.fmt, ctx := q.ctx, ver := q.ver, own := sp.r.lotOn c.die, now := s.cycle } (q.value d.isVecDst v)) ∧
    (∀ k c x, q.ret = .stream k → agentCell q.agent = some c → (s.cells.get {} c).me.streams.get? k = some x →
      lands fun t => ∃ x', (t.cells.get {} c).me.streams.get? k = some x' ∧
        x'.outq = fillEnt q.id (x.token v q.sb q.ver s.cycle) x.outq) ∧
    (∀ d m rd sz sg len, q.ret = .hartReg rd sz sg len → q.agent = .hart d m → code = 0 → (s.hart d m).Ok →
      lands fun t => (t.hart d m).pc = (s.hart d m).pc + BitVec.ofNat 64 len ∧
        (len = 4 → Completed s t d m rd (hartValue sz sg v))) ∧
    (∀ d m rd sz len, q.ret = .hartF rd sz len → q.agent = .hart d m → code = 0 → lands fun t =>
      (t.hart d m).pc = (s.hart d m).pc + BitVec.ofNat 64 len ∧ (t.hart d m).x = (s.hart d m).x ∧
      (t.hart d m).f.get 0 rd.toNat = if sz = 4 then v.extractLsb' 0 64 ||| bitsMask 63 32 else v.extractLsb' 0 64)) ∧
  (∀ die i v, hasLog die i = true →
    (∀ n q va b l pa, v.getLsbD 0 = true → v.getLsbD 1 = false → (s.log (die, i)).entries = [n] → s.reqOf n = some q →
      ofCell q → q.goal = .mem va (.store b) → s.resolve q va (.store b) false = .ok (l, pa) → vaOwner va ≠ 27 →
      Happens s (.slogctlKick die i v) fun t => Answered t n [] 0 ∧ (t.log (die, i)).entries = [] ∧
        (t.log (die, i)).replays = oneMore (s.log (die, i)).replays) ∧
    (v.getLsbD 1 = true → v.getLsbD 0 = false → Happens s (.slogctlDiscard die i v) fun t =>
      t.regField die (.slogctl i) 31 16 = v.toNat / 2 ^ 16 % 2 ^ 16 ∧
      ∀ n ∈ (t.log (die, i)).entries, n ∈ (s.log (die, i)).entries ∧
        ∀ q, s.reqOf n = some q → q.asid ≠ some (v.extractLsb' 16 16))) ∧
  (∀ die, isC die = true → (s.lotsOf die).sweeping = true → 0 ∉ (s.lotsOf die).live → Happens s (.sweepComplete die) fun t =>
    let live := (s.lotsOf die).live
    (t.lotsOf die).counter = 0 ∧ (t.lotsOf die).sweeping = false ∧ (t.lotsOf die).live = live ∧
    (t.lotsOf die).sweeps = oneMore (s.lotsOf die).sweeps ∧
    ∀ id n, id.die = die → let x := (s.cells.get {} id).me.line n
      let y := (t.cells.get {} id).me.line n
      (x.lot ∈ live → y = x) ∧ (y.lot ∈ live ∨ y = {})) ∧
  (∀ c line u j rest, (s.copies.get {} c).jobs = j :: rest → (s.copies.get {} c).poison = none → j.suspended = none →
    j.lost = none → line < j.lines → line ∉ j.written →
    let e : CopyEnv := { s := s, c := c, p := (s.partOf c.die).getD 31, j := j, cached := u }
    let goes (f : State → Prop) : Prop := Happens s (.copyLine c line u none) f
    let unit (w : Nat) (f : State → Prop) : Prop := Happens s (.copyLine c line u (some w)) f
    let begun (t : State) (w : Nat) : Prop := ∃ j', (t.copies.get {} c).jobs = j' :: rest ∧ j'.written = j.written ∧
      ∀ k, k ∈ j'.parts ↔ k = (line, w) ∨ k ∈ j.parts
    let onward (t : State) : Prop := ∃ j', (t.copies.get {} c).jobs = j' :: rest ∧ j'.written = line :: j.written
    (∀ v, e.operands line = [.val v] → (∀ k, (line, k) ∉ j.parts) →
      (∀ id k a, isRef j.desc.dst = true → e.refLine j.desc.dst j.desc.dstride j.dstUid line = .at_ id k (some a) →
        (s.cells.get {} id).me.writeBad (some a) k false = false → (s.cells.get {} id).me.bankOk k = true →
        (goes fun t => onward t ∧ ((t.cells.get {} id).me.line k).data = BitVec.ofNat 1024 v ∧
          ((t.cells.get {} id).me.line k).lot = (((s.cells.get {} id).me.line k).stamped a).lot) ∧
        (unit 0 fun t => begun t 0 ∧ ∀ i, i < 1024 → ((t.cells.get {} id).me.line k).data.getLsbD i =
          if i < 512 then v.testBit i else (((s.cells.get {} id).me.line k).stamped a).data.getLsbD i)) ∧
      (∀ l pa, let va := j.vaAt j.desc.dst j.desc.dstride line
        isRef j.desc.dst = false → e.reach va .store = .page l pa → vaOwner va ≠ 27 →
        l.freshBit (vaOffset va) = false → s.mem.wf = true → goes fun t => onward t ∧
          stored t (homeKey (dataHome (s.ownerDie c.die e.p va) va) pa) ((leBytes 128 v).map some)) ∧
      (∀ l pa w, let va := j.vaAt j.desc.dst j.desc.dstride line
        isRef j.desc.dst = false → isRef j.desc.src = false → w < 16 → e.reach va .store = .page l pa → vaOwner va ≠ 27 →
        l.freshBit (vaOffset va) = false → s.mem.wf = true → unit w fun t => begun t w ∧
          stored t (homeKey (dataHome (s.ownerDie c.die e.p va) va) pa)
            ((leBytes 128 v).mapIdx fun i b => if i / 8 = w then some b else none))) ∧
    (∀ va m, (e.operands line).find? SrcLine.stops = some (.miss va m) → line = j.front → goes fun t =>
      ∃ j', (t.copies.get {} c).jobs = j' :: rest ∧ j'.suspended = some (line, m) ∧ ∀ k ∈ j'.written, k < line) ∧
    (∀ code x, (e.operands line).find? SrcLine.stops = some (.fail code x) → line = j.front → goes fun t =>
      (t.copies.get {} c).poison = some (j.n, code) ∧ (t.copies.get {} c).jobs = [] ∧
        (t.copies.get {} c).tlc = (s.copies.get {} c).tlc)) ∧
  (∀ c j rest, (s.copies.get {} c).jobs = j :: rest → (s.copies.get {} c).poison = none → j.suspended = none →
    j.lines ≤ j.front → j.lost = none →
    (s.copyOwes c j ≠ [] → Happens s (.copyComplete c) fun t => Announces s t (s.copyOwes c j)) ∧
    (s.copyOwes c j = [] → Happens s (.copyComplete c) fun t => (t.copies.get {} c).jobs = rest ∧
      (t.copies.get {} c).tlc.toNat = max (s.copies.get {} c).tlc.toNat j.n.toNat)) ∧
  (∀ d n acc, d < 26 → hartExists d n = true → (s.hart d n).running = true → HartAcc_ok acc = true →
    (s.hart d n).wait = none → s.hartInFlight d n = false → (s.hart d n).Ok →
    let a := HartAcc_addr acc
    let does (f : State → Prop) : Prop := Happens s (.apertureAccess d n acc) f
    (aligned a.toNat (HartAcc_size acc) = false → does fun t => Traps s t d n (if HartAcc_loads acc then 4 else 6) a) ∧
    (aligned a.toNat (HartAcc_size acc) = true →
      ((s.hart d n).place d a = .bad → does fun t => Traps s t d n (HartAcc_fault acc) a) ∧
      (∀ pa, (s.hart d n).place d a = .own pa → s.memoryReady d = true → s.eccAt d pa (HartAcc_size acc) = false →
        s.mem.wf = true →
        let key := homeKey d pa
        let old (k : Nat) : Nat := leNat (s.mem.readN key k)
        let value (k : Nat) (sg : Bool) : DWord := hartValue k sg (BitVec.ofNat 512 (old k))
        (∀ k sg rd, acc = .load a k sg rd → does fun t => Answers s t d n rd (value k sg)) ∧
        (∀ k v, acc = .store a k v → does fun t => Completed s t d n 0 0 ∧ stored t key ((leBytes k v.toNat).map some)) ∧
        (∀ op k v rd, acc = .amo op a k v rd → does fun t => Completed s t d n rd (value k true) ∧
          stored t key ((leBytes k ((amoRmw op k v).apply (old k))).map some)) ∧
        (∀ k rd, acc = .lr a k rd → does fun t => Completed s t d n rd (value k true) ∧ t.mem = s.mem ∧
          (t.hart d n).resv = some (key, k)) ∧
        (∀ k v rd, acc = .sc a k v rd →
          ((s.hart d n).resv = some (key, k) → does fun t => Completed s t d n rd 0 ∧ (t.hart d n).resv = none ∧
            stored t key ((leBytes k v.toNat).map some)) ∧
          ((s.hart d n).resv ≠ some (key, k) → does fun t => Completed s t d n rd 1 ∧ (t.hart d n).resv = none ∧
            t.mem = s.mem))) ∧
      (∀ die off, (s.hart d n).place d a = .block die off →
        (∀ sg rd, acc = .load a 8 sg rd → does fun t => Answers s t d n rd (s.readReg die off)) ∧
        (HartAcc_size acc ≠ 8 → does fun t => Traps s t d n (HartAcc_fault acc) a)) ∧
      (∀ va op ret x, (s.hart d n).place d a = .aperture va → apertureOp 4 acc = some (op, ret) →
        (s.hart d n).asid = some x → s.canonical d (s.hartPart d n) va = true → does fun t =>
          (t.hart d n).wait = some .queued ∧ ∃ q, t.reqs = s.reqs ++ [q] ∧ q.id = s.nextId ∧ q.agent = .hart d n ∧
            q.asid = some x ∧ q.goal = .mem va op ∧ q.ret = ret ∧ q.st = .net))) ∧
  (∀ die off v, let write := Instr.registerWrite (.block die off) v
    (∀ r, regAt die off = some r → (∃ i, r = .mtrbase i ∨ r = .pasidtbl i) ∨ r = .pdfq →
      Happens s write fun t => t.reg die r = v &&& regMask die r.off) ∧
    (regAt die off = none ∨ (∃ r, regAt die off = some r ∧ (r ∈ [.defmapst, .lotst, .xpartst] ∨
      ∃ i, r = .monpr i ∨ r = .slogst i ∨ r = .vdst i ∨ r = .sfw i)) → exec write s = .next s)) ∧
  (∀ d n v, hartExists d n = true → 1 ≤ (s.hart d n).priv.code →
    (Happens s (.registerWrite (.csr d n 0x5C0) v) fun t => (t.hart d n).xpasid = v &&& 0x1FFFF) ∧
    (isC d = true → (∀ p < 5, s.regField d (.seamst p) 6 6 = 0) → Happens s (.xpirqClear d n v) fun t =>
      (t.hart d n).xpirq = (s.hart d n).xpirq &&& ~~~(v.extractLsb' 0 2)))

/-- A step at whose turn a word decodes executes exactly the decoded instruction: on a hart the word at its pc, on a
compute element the instruction of the slot that its round robin selects, otherwise the scheduled event. Time passes
first, and the turn leaves the schedule; a step with nothing scheduled only lets a cycle pass (log 2). -/
def Obligations.StepRunsDecoded : Prop := ∀ (s : State) (dt : Nat) rest,
  let now : State := { s with agenda := rest, cycle := s.cycle + dt, focus := .none }
  (∀ d n w i, s.agenda = (dt, .hart d n) :: rest → hartExists d n = true → (s.hart d n).running = true →
    (s.hart d n).interrupted = none → now.memoryReady d = true → now.fetchWord d n = some w → decodeHart w = .ok i →
    step s = exec i { now with focus := .hart d n }) ∧
  (∀ d n w e a, s.agenda = (dt, .hart d n) :: rest → hartExists d n = true → (s.hart d n).running = true →
    (s.hart d n).interrupted = none → now.memoryReady d = true → now.fetchWord d n = some w → decodeHart w = .error e →
    now.baseJob d n w = some a → step s = .next (a.run now)) ∧
  (∀ c slot i, s.agenda = (dt, .ce c) :: rest → c.ok = true → now.selected c = some (slot, i) →
    step s = exec i { now with focus := .ce c slot }) ∧
  (∀ i, s.agenda = (dt, .event i) :: rest → step s = exec i now) ∧
  (s.agenda = [] → step s = .next { s with cycle := s.cycle + 1 })

/-- The words that the spec works out field by field decode to the instructions they stand for (10 the F32 product of
`vi0`, R289 steer, R324 fma, R342 mma, R355 lds, 15, 18, 19); a word of the Xphido opcodes with a field that must be 0 is
the unassigned step, which takes the illegal-instruction exception (R276, R277). -/
def Obligations.SampleWordsDecode : Prop :=
  decodeCE 0x8100000000006159041AE10000000000 = .ok (.fmul { plainWord with
    vreq := 1, dst := .vo 0, sa := .vi 0, sb := .vi 0, deqA := true, deqB := true, fmt := .f32 }) ∧
  decodeCE 0xA101000000000165051AE00000000000 = .ok (.steer { plainWord with
    ctx := 2, vreq := 1, creq := 1, dst := .voBoth, sa := .vi 0, sb := .ci 0, deqA := true, deqB := true }) ∧
  decodeCE 0x83000000000061D90421620000000000 = .ok (.fma { plainWord with
    vreq := 3, dst := .vo 0, sa := .vi 0, sb := .vi 1, sc := .v 2, deqA := true, deqB := true, fmt := .bf16 }) ∧
  decodeCE 0x810000000000B459009AC20000008100 = .ok (.mma { plainWord with
    vreq := 1, dst := .vo 0, sa := .vi 0, sb := .v 4, deqA := true, fmt := .bf16, imm := 0x8100 }) ∧
  decodeCE 0x801000000000C05926BAC2000140A000 = .ok (.lds { plainWord with
    sreq := 1, dst := .vo 0, sa := .si 0, deqA := true, fmt := .bf16, imm := 0x0140A000 }) ∧
  decodeCE 0x810040820000430306BAC00000000000 = .ok (.scan { plainWord with
    vreq := 1, mkt := .vector .data, prt := .absent 1, dst := .v 1, sa := .vi 0, deqA := true }) ∧
  decodeCE 0x80000E811010D4EBAEBA880000402000 = .ok (.hem { plainWord with
    prt := .present 0x1D, pmask := 0x10, pval := 0x10, deqP := true, imm := 0x00402000 }) ∧
  decodeCE 0 = .error .empty ∧
  decodeHart 0x00C5950B = .ok (.cpStart 10 11 12) ∧ decodeHart 0x1805852B = .ok (.ldacqD 10 11 .part) ∧
  decodeHart 0x1AC5B52B = .ok (.monWait 10 11 12 .module .geu) ∧ decodeHart 0x0707928B = .ok (.coreTlWait 5 15 16) ∧
  decodeHart 0x00E6830B = .ok (.rgAlloc 6 13 14) ∧ decodeHart 0x10C5828B = .ok (.rgRestore 5 11 12) ∧
  decodeHart 0x18C5852B = .ok (.unassignedXphido 0x18C5852B)
end

