-- ==== Sys2Proof/Laws/State.lean ====
section
/-!
SUPPORT. For each effect: the field that it changes, and that every other field of the state stays. Each is true by
computation; no later proof unfolds a record update.
-/
namespace Sys2Proof.Machine

variable (s : State)

@[simp] theorem State.apply_agenda (l) : (s.apply (.agenda l)).agenda = l := rfl

@[simp] theorem State.apply_agenda_others (l) :
    (s.apply (.agenda l)).focus = s.focus ∧ (s.apply (.agenda l)).cycle = s.cycle ∧
    (s.apply (.agenda l)).freeIx = s.freeIx ∧ (s.apply (.agenda l)).nextId = s.nextId ∧
    (s.apply (.agenda l)).fuses = s.fuses ∧ (s.apply (.agenda l)).wipes = s.wipes ∧
    (s.apply (.agenda l)).boots = s.boots ∧ (s.apply (.agenda l)).spdm = s.spdm ∧
    (s.apply (.agenda l)).firmware = s.firmware ∧ (s.apply (.agenda l)).mediaKey = s.mediaKey ∧
    (s.apply (.agenda l)).power = s.power ∧ (s.apply (.agenda l)).fieldLog = s.fieldLog ∧
    (s.apply (.agenda l)).flushedLog = s.flushedLog ∧ (s.apply (.agenda l)).lastFlush = s.lastFlush ∧
    (s.apply (.agenda l)).feat = s.feat ∧ (s.apply (.agenda l)).regs = s.regs ∧ (s.apply (.agenda l)).mem = s.mem ∧
    (s.apply (.agenda l)).eccBad = s.eccBad ∧ (s.apply (.agenda l)).lanes = s.lanes ∧
    (s.apply (.agenda l)).links = s.links ∧ (s.apply (.agenda l)).cells = s.cells ∧
    (s.apply (.agenda l)).nodes = s.nodes ∧ (s.apply (.agenda l)).reqs = s.reqs ∧
    (s.apply (.agenda l)).regions = s.regions ∧ (s.apply (.agenda l)).launches = s.launches ∧
    (s.apply (.agenda l)).dispatchers = s.dispatchers ∧ (s.apply (.agenda l)).saves = s.saves ∧
    (s.apply (.agenda l)).vault = s.vault ∧ (s.apply (.agenda l)).epochs = s.epochs ∧
    (s.apply (.agenda l)).lots = s.lots ∧ (s.apply (.agenda l)).slogs = s.slogs ∧
    (s.apply (.agenda l)).mtlbs = s.mtlbs ∧ (s.apply (.agenda l)).copies = s.copies ∧
    (s.apply (.agenda l)).harts = s.harts ∧ (s.apply (.agenda l)).xdies = s.xdies ∧
    (s.apply (.agenda l)).resetAt = s.resetAt ∧ (s.apply (.agenda l)).outbox = s.outbox := by
  and_intros <;> rfl

@[simp] theorem State.apply_focus (f) : (s.apply (.focus f)).focus = f := rfl

@[simp] theorem State.apply_focus_others (f) :
    (s.apply (.focus f)).agenda = s.agenda ∧ (s.apply (.focus f)).cycle = s.cycle ∧
    (s.apply (.focus f)).freeIx = s.freeIx ∧ (s.apply (.focus f)).nextId = s.nextId ∧
    (s.apply (.focus f)).fuses = s.fuses ∧ (s.apply (.focus f)).wipes = s.wipes ∧
    (s.apply (.focus f)).boots = s.boots ∧ (s.apply (.focus f)).spdm = s.spdm ∧
    (s.apply (.focus f)).firmware = s.firmware ∧ (s.apply (.focus f)).mediaKey = s.mediaKey ∧
    (s.apply (.focus f)).power = s.power ∧ (s.apply (.focus f)).fieldLog = s.fieldLog ∧
    (s.apply (.focus f)).flushedLog = s.flushedLog ∧ (s.apply (.focus f)).lastFlush = s.lastFlush ∧
    (s.apply (.focus f)).feat = s.feat ∧ (s.apply (.focus f)).regs = s.regs ∧ (s.apply (.focus f)).mem = s.mem ∧
    (s.apply (.focus f)).eccBad = s.eccBad ∧ (s.apply (.focus f)).lanes = s.lanes ∧
    (s.apply (.focus f)).links = s.links ∧ (s.apply (.focus f)).cells = s.cells ∧
    (s.apply (.focus f)).nodes = s.nodes ∧ (s.apply (.focus f)).reqs = s.reqs ∧
    (s.apply (.focus f)).regions = s.regions ∧ (s.apply (.focus f)).launches = s.launches ∧
    (s.apply (.focus f)).dispatchers = s.dispatchers ∧ (s.apply (.focus f)).saves = s.saves ∧
    (s.apply (.focus f)).vault = s.vault ∧ (s.apply (.focus f)).epochs = s.epochs ∧
    (s.apply (.focus f)).lots = s.lots ∧ (s.apply (.focus f)).slogs = s.slogs ∧ (s.apply (.focus f)).mtlbs = s.mtlbs ∧
    (s.apply (.focus f)).copies = s.copies ∧ (s.apply (.focus f)).harts = s.harts ∧
    (s.apply (.focus f)).xdies = s.xdies ∧ (s.apply (.focus f)).resetAt = s.resetAt ∧
    (s.apply (.focus f)).outbox = s.outbox := by
  and_intros <;> rfl

@[simp] theorem State.apply_cycle (n) : (s.apply (.cycle n)).cycle = n := rfl

@[simp] theorem State.apply_cycle_others (n) :
    (s.apply (.cycle n)).agenda = s.agenda ∧ (s.apply (.cycle n)).focus = s.focus ∧
    (s.apply (.cycle n)).freeIx = s.freeIx ∧ (s.apply (.cycle n)).nextId = s.nextId ∧
    (s.apply (.cycle n)).fuses = s.fuses ∧ (s.apply (.cycle n)).wipes = s.wipes ∧
    (s.apply (.cycle n)).boots = s.boots ∧ (s.apply (.cycle n)).spdm = s.spdm ∧
    (s.apply (.cycle n)).firmware = s.firmware ∧ (s.apply (.cycle n)).mediaKey = s.mediaKey ∧
    (s.apply (.cycle n)).power = s.power ∧ (s.apply (.cycle n)).fieldLog = s.fieldLog ∧
    (s.apply (.cycle n)).flushedLog = s.flushedLog ∧ (s.apply (.cycle n)).lastFlush = s.lastFlush ∧
    (s.apply (.cycle n)).feat = s.feat ∧ (s.apply (.cycle n)).regs = s.regs ∧ (s.apply (.cycle n)).mem = s.mem ∧
    (s.apply (.cycle n)).eccBad = s.eccBad ∧ (s.apply (.cycle n)).lanes = s.lanes ∧
    (s.apply (.cycle n)).links = s.links ∧ (s.apply (.cycle n)).cells = s.cells ∧
    (s.apply (.cycle n)).nodes = s.nodes ∧ (s.apply (.cycle n)).reqs = s.reqs ∧
    (s.apply (.cycle n)).regions = s.regions ∧ (s.apply (.cycle n)).launches = s.launches ∧
    (s.apply (.cycle n)).dispatchers = s.dispatchers ∧ (s.apply (.cycle n)).saves = s.saves ∧
    (s.apply (.cycle n)).vault = s.vault ∧ (s.apply (.cycle n)).epochs = s.epochs ∧
    (s.apply (.cycle n)).lots = s.lots ∧ (s.apply (.cycle n)).slogs = s.slogs ∧ (s.apply (.cycle n)).mtlbs = s.mtlbs ∧
    (s.apply (.cycle n)).copies = s.copies ∧ (s.apply (.cycle n)).harts = s.harts ∧
    (s.apply (.cycle n)).xdies = s.xdies ∧ (s.apply (.cycle n)).resetAt = s.resetAt ∧
    (s.apply (.cycle n)).outbox = s.outbox := by
  and_intros <;> rfl

@[simp] theorem State.apply_free (n) : (s.apply (.free n)).freeIx = n := rfl

@[simp] theorem State.apply_free_others (n) :
    (s.apply (.free n)).agenda = s.agenda ∧ (s.apply (.free n)).focus = s.focus ∧
    (s.apply (.free n)).cycle = s.cycle ∧ (s.apply (.free n)).nextId = s.nextId ∧
    (s.apply (.free n)).fuses = s.fuses ∧ (s.apply (.free n)).wipes = s.wipes ∧ (s.apply (.free n)).boots = s.boots ∧
    (s.apply (.free n)).spdm = s.spdm ∧ (s.apply (.free n)).firmware = s.firmware ∧
    (s.apply (.free n)).mediaKey = s.mediaKey ∧ (s.apply (.free n)).power = s.power ∧
    (s.apply (.free n)).fieldLog = s.fieldLog ∧ (s.apply (.free n)).flushedLog = s.flushedLog ∧
    (s.apply (.free n)).lastFlush = s.lastFlush ∧ (s.apply (.free n)).feat = s.feat ∧
    (s.apply (.free n)).regs = s.regs ∧ (s.apply (.free n)).mem = s.mem ∧ (s.apply (.free n)).eccBad = s.eccBad ∧
    (s.apply (.free n)).lanes = s.lanes ∧ (s.apply (.free n)).links = s.links ∧ (s.apply (.free n)).cells = s.cells ∧
    (s.apply (.free n)).nodes = s.nodes ∧ (s.apply (.free n)).reqs = s.reqs ∧
    (s.apply (.free n)).regions = s.regions ∧ (s.apply (.free n)).launches = s.launches ∧
    (s.apply (.free n)).dispatchers = s.dispatchers ∧ (s.apply (.free n)).saves = s.saves ∧
    (s.apply (.free n)).vault = s.vault ∧ (s.apply (.free n)).epochs = s.epochs ∧ (s.apply (.free n)).lots = s.lots ∧
    (s.apply (.free n)).slogs = s.slogs ∧ (s.apply (.free n)).mtlbs = s.mtlbs ∧
    (s.apply (.free n)).copies = s.copies ∧ (s.apply (.free n)).harts = s.harts ∧
    (s.apply (.free n)).xdies = s.xdies ∧ (s.apply (.free n)).resetAt = s.resetAt ∧
    (s.apply (.free n)).outbox = s.outbox := by
  and_intros <;> rfl

@[simp] theorem State.apply_nextId (n) : (s.apply (.nextId n)).nextId = n := rfl

@[simp] theorem State.apply_nextId_others (n) :
    (s.apply (.nextId n)).agenda = s.agenda ∧ (s.apply (.nextId n)).focus = s.focus ∧
    (s.apply (.nextId n)).cycle = s.cycle ∧ (s.apply (.nextId n)).freeIx = s.freeIx ∧
    (s.apply (.nextId n)).fuses = s.fuses ∧ (s.apply (.nextId n)).wipes = s.wipes ∧
    (s.apply (.nextId n)).boots = s.boots ∧ (s.apply (.nextId n)).spdm = s.spdm ∧
    (s.apply (.nextId n)).firmware = s.firmware ∧ (s.apply (.nextId n)).mediaKey = s.mediaKey ∧
    (s.apply (.nextId n)).power = s.power ∧ (s.apply (.nextId n)).fieldLog = s.fieldLog ∧
    (s.apply (.nextId n)).flushedLog = s.flushedLog ∧ (s.apply (.nextId n)).lastFlush = s.lastFlush ∧
    (s.apply (.nextId n)).feat = s.feat ∧ (s.apply (.nextId n)).regs = s.regs ∧ (s.apply (.nextId n)).mem = s.mem ∧
    (s.apply (.nextId n)).eccBad = s.eccBad ∧ (s.apply (.nextId n)).lanes = s.lanes ∧
    (s.apply (.nextId n)).links = s.links ∧ (s.apply (.nextId n)).cells = s.cells ∧
    (s.apply (.nextId n)).nodes = s.nodes ∧ (s.apply (.nextId n)).reqs = s.reqs ∧
    (s.apply (.nextId n)).regions = s.regions ∧ (s.apply (.nextId n)).launches = s.launches ∧
    (s.apply (.nextId n)).dispatchers = s.dispatchers ∧ (s.apply (.nextId n)).saves = s.saves ∧
    (s.apply (.nextId n)).vault = s.vault ∧ (s.apply (.nextId n)).epochs = s.epochs ∧
    (s.apply (.nextId n)).lots = s.lots ∧ (s.apply (.nextId n)).slogs = s.slogs ∧
    (s.apply (.nextId n)).mtlbs = s.mtlbs ∧ (s.apply (.nextId n)).copies = s.copies ∧
    (s.apply (.nextId n)).harts = s.harts ∧ (s.apply (.nextId n)).xdies = s.xdies ∧
    (s.apply (.nextId n)).resetAt = s.resetAt ∧ (s.apply (.nextId n)).outbox = s.outbox := by
  and_intros <;> rfl

@[simp] theorem State.apply_wipe (t) (w) : (s.apply (.wipe t w)).wipes = s.wipes.put t w := rfl

@[simp] theorem State.apply_wipe_others (t) (w) :
    (s.apply (.wipe t w)).agenda = s.agenda ∧ (s.apply (.wipe t w)).focus = s.focus ∧
    (s.apply (.wipe t w)).cycle = s.cycle ∧ (s.apply (.wipe t w)).freeIx = s.freeIx ∧
    (s.apply (.wipe t w)).nextId = s.nextId ∧ (s.apply (.wipe t w)).fuses = s.fuses ∧
    (s.apply (.wipe t w)).boots = s.boots ∧ (s.apply (.wipe t w)).spdm = s.spdm ∧
    (s.apply (.wipe t w)).firmware = s.firmware ∧ (s.apply (.wipe t w)).mediaKey = s.mediaKey ∧
    (s.apply (.wipe t w)).power = s.power ∧ (s.apply (.wipe t w)).fieldLog = s.fieldLog ∧
    (s.apply (.wipe t w)).flushedLog = s.flushedLog ∧ (s.apply (.wipe t w)).lastFlush = s.lastFlush ∧
    (s.apply (.wipe t w)).feat = s.feat ∧ (s.apply (.wipe t w)).regs = s.regs ∧ (s.apply (.wipe t w)).mem = s.mem ∧
    (s.apply (.wipe t w)).eccBad = s.eccBad ∧ (s.apply (.wipe t w)).lanes = s.lanes ∧
    (s.apply (.wipe t w)).links = s.links ∧ (s.apply (.wipe t w)).cells = s.cells ∧
    (s.apply (.wipe t w)).nodes = s.nodes ∧ (s.apply (.wipe t w)).reqs = s.reqs ∧
    (s.apply (.wipe t w)).regions = s.regions ∧ (s.apply (.wipe t w)).launches = s.launches ∧
    (s.apply (.wipe t w)).dispatchers = s.dispatchers ∧ (s.apply (.wipe t w)).saves = s.saves ∧
    (s.apply (.wipe t w)).vault = s.vault ∧ (s.apply (.wipe t w)).epochs = s.epochs ∧
    (s.apply (.wipe t w)).lots = s.lots ∧ (s.apply (.wipe t w)).slogs = s.slogs ∧
    (s.apply (.wipe t w)).mtlbs = s.mtlbs ∧ (s.apply (.wipe t w)).copies = s.copies ∧
    (s.apply (.wipe t w)).harts = s.harts ∧ (s.apply (.wipe t w)).xdies = s.xdies ∧
    (s.apply (.wipe t w)).resetAt = s.resetAt ∧ (s.apply (.wipe t w)).outbox = s.outbox := by
  and_intros <;> rfl

@[simp] theorem State.apply_boot (x) (b) : (s.apply (.boot x b)).boots = s.boots.put x b := rfl

@[simp] theorem State.apply_boot_others (x) (b) :
    (s.apply (.boot x b)).agenda = s.agenda ∧ (s.apply (.boot x b)).focus = s.focus ∧
    (s.apply (.boot x b)).cycle = s.cycle ∧ (s.apply (.boot x b)).freeIx = s.freeIx ∧
    (s.apply (.boot x b)).nextId = s.nextId ∧ (s.apply (.boot x b)).fuses = s.fuses ∧
    (s.apply (.boot x b)).wipes = s.wipes ∧ (s.apply (.boot x b)).spdm = s.spdm ∧
    (s.apply (.boot x b)).firmware = s.firmware ∧ (s.apply (.boot x b)).mediaKey = s.mediaKey ∧
    (s.apply (.boot x b)).power = s.power ∧ (s.apply (.boot x b)).fieldLog = s.fieldLog ∧
    (s.apply (.boot x b)).flushedLog = s.flushedLog ∧ (s.apply (.boot x b)).lastFlush = s.lastFlush ∧
    (s.apply (.boot x b)).feat = s.feat ∧ (s.apply (.boot x b)).regs = s.regs ∧ (s.apply (.boot x b)).mem = s.mem ∧
    (s.apply (.boot x b)).eccBad = s.eccBad ∧ (s.apply (.boot x b)).lanes = s.lanes ∧
    (s.apply (.boot x b)).links = s.links ∧ (s.apply (.boot x b)).cells = s.cells ∧
    (s.apply (.boot x b)).nodes = s.nodes ∧ (s.apply (.boot x b)).reqs = s.reqs ∧
    (s.apply (.boot x b)).regions = s.regions ∧ (s.apply (.boot x b)).launches = s.launches ∧
    (s.apply (.boot x b)).dispatchers = s.dispatchers ∧ (s.apply (.boot x b)).saves = s.saves ∧
    (s.apply (.boot x b)).vault = s.vault ∧ (s.apply (.boot x b)).epochs = s.epochs ∧
    (s.apply (.boot x b)).lots = s.lots ∧ (s.apply (.boot x b)).slogs = s.slogs ∧
    (s.apply (.boot x b)).mtlbs = s.mtlbs ∧ (s.apply (.boot x b)).copies = s.copies ∧
    (s.apply (.boot x b)).harts = s.harts ∧ (s.apply (.boot x b)).xdies = s.xdies ∧
    (s.apply (.boot x b)).resetAt = s.resetAt ∧ (s.apply (.boot x b)).outbox = s.outbox := by
  and_intros <;> rfl

@[simp] theorem State.apply_spdm (pf) (v) : (s.apply (.spdm pf v)).spdm = s.spdm.put pf v := rfl

@[simp] theorem State.apply_spdm_others (pf) (v) :
    (s.apply (.spdm pf v)).agenda = s.agenda ∧ (s.apply (.spdm pf v)).focus = s.focus ∧
    (s.apply (.spdm pf v)).cycle = s.cycle ∧ (s.apply (.spdm pf v)).freeIx = s.freeIx ∧
    (s.apply (.spdm pf v)).nextId = s.nextId ∧ (s.apply (.spdm pf v)).fuses = s.fuses ∧
    (s.apply (.spdm pf v)).wipes = s.wipes ∧ (s.apply (.spdm pf v)).boots = s.boots ∧
    (s.apply (.spdm pf v)).firmware = s.firmware ∧ (s.apply (.spdm pf v)).mediaKey = s.mediaKey ∧
    (s.apply (.spdm pf v)).power = s.power ∧ (s.apply (.spdm pf v)).fieldLog = s.fieldLog ∧
    (s.apply (.spdm pf v)).flushedLog = s.flushedLog ∧ (s.apply (.spdm pf v)).lastFlush = s.lastFlush ∧
    (s.apply (.spdm pf v)).feat = s.feat ∧ (s.apply (.spdm pf v)).regs = s.regs ∧ (s.apply (.spdm pf v)).mem = s.mem ∧
    (s.apply (.spdm pf v)).eccBad = s.eccBad ∧ (s.apply (.spdm pf v)).lanes = s.lanes ∧
    (s.apply (.spdm pf v)).links = s.links ∧ (s.apply (.spdm pf v)).cells = s.cells ∧
    (s.apply (.spdm pf v)).nodes = s.nodes ∧ (s.apply (.spdm pf v)).reqs = s.reqs ∧
    (s.apply (.spdm pf v)).regions = s.regions ∧ (s.apply (.spdm pf v)).launches = s.launches ∧
    (s.apply (.spdm pf v)).dispatchers = s.dispatchers ∧ (s.apply (.spdm pf v)).saves = s.saves ∧
    (s.apply (.spdm pf v)).vault = s.vault ∧ (s.apply (.spdm pf v)).epochs = s.epochs ∧
    (s.apply (.spdm pf v)).lots = s.lots ∧ (s.apply (.spdm pf v)).slogs = s.slogs ∧
    (s.apply (.spdm pf v)).mtlbs = s.mtlbs ∧ (s.apply (.spdm pf v)).copies = s.copies ∧
    (s.apply (.spdm pf v)).harts = s.harts ∧ (s.apply (.spdm pf v)).xdies = s.xdies ∧
    (s.apply (.spdm pf v)).resetAt = s.resetAt ∧ (s.apply (.spdm pf v)).outbox = s.outbox := by
  and_intros <;> rfl

@[simp] theorem State.apply_firmware (x) (l) : (s.apply (.firmware x l)).firmware = s.firmware.put x l := rfl

@[simp] theorem State.apply_firmware_others (x) (l) :
    (s.apply (.firmware x l)).agenda = s.agenda ∧ (s.apply (.firmware x l)).focus = s.focus ∧
    (s.apply (.firmware x l)).cycle = s.cycle ∧ (s.apply (.firmware x l)).freeIx = s.freeIx ∧
    (s.apply (.firmware x l)).nextId = s.nextId ∧ (s.apply (.firmware x l)).fuses = s.fuses ∧
    (s.apply (.firmware x l)).wipes = s.wipes ∧ (s.apply (.firmware x l)).boots = s.boots ∧
    (s.apply (.firmware x l)).spdm = s.spdm ∧ (s.apply (.firmware x l)).mediaKey = s.mediaKey ∧
    (s.apply (.firmware x l)).power = s.power ∧ (s.apply (.firmware x l)).fieldLog = s.fieldLog ∧
    (s.apply (.firmware x l)).flushedLog = s.flushedLog ∧ (s.apply (.firmware x l)).lastFlush = s.lastFlush ∧
    (s.apply (.firmware x l)).feat = s.feat ∧ (s.apply (.firmware x l)).regs = s.regs ∧
    (s.apply (.firmware x l)).mem = s.mem ∧ (s.apply (.firmware x l)).eccBad = s.eccBad ∧
    (s.apply (.firmware x l)).lanes = s.lanes ∧ (s.apply (.firmware x l)).links = s.links ∧
    (s.apply (.firmware x l)).cells = s.cells ∧ (s.apply (.firmware x l)).nodes = s.nodes ∧
    (s.apply (.firmware x l)).reqs = s.reqs ∧ (s.apply (.firmware x l)).regions = s.regions ∧
    (s.apply (.firmware x l)).launches = s.launches ∧ (s.apply (.firmware x l)).dispatchers = s.dispatchers ∧
    (s.apply (.firmware x l)).saves = s.saves ∧ (s.apply (.firmware x l)).vault = s.vault ∧
    (s.apply (.firmware x l)).epochs = s.epochs ∧ (s.apply (.firmware x l)).lots = s.lots ∧
    (s.apply (.firmware x l)).slogs = s.slogs ∧ (s.apply (.firmware x l)).mtlbs = s.mtlbs ∧
    (s.apply (.firmware x l)).copies = s.copies ∧ (s.apply (.firmware x l)).harts = s.harts ∧
    (s.apply (.firmware x l)).xdies = s.xdies ∧ (s.apply (.firmware x l)).resetAt = s.resetAt ∧
    (s.apply (.firmware x l)).outbox = s.outbox := by
  and_intros <;> rfl

@[simp] theorem State.apply_mediaKey (n) : (s.apply (.mediaKey n)).mediaKey = n := rfl

@[simp] theorem State.apply_mediaKey_others (n) :
    (s.apply (.mediaKey n)).agenda = s.agenda ∧ (s.apply (.mediaKey n)).focus = s.focus ∧
    (s.apply (.mediaKey n)).cycle = s.cycle ∧ (s.apply (.mediaKey n)).freeIx = s.freeIx ∧
    (s.apply (.mediaKey n)).nextId = s.nextId ∧ (s.apply (.mediaKey n)).fuses = s.fuses ∧
    (s.apply (.mediaKey n)).wipes = s.wipes ∧ (s.apply (.mediaKey n)).boots = s.boots ∧
    (s.apply (.mediaKey n)).spdm = s.spdm ∧ (s.apply (.mediaKey n)).firmware = s.firmware ∧
    (s.apply (.mediaKey n)).power = s.power ∧ (s.apply (.mediaKey n)).fieldLog = s.fieldLog ∧
    (s.apply (.mediaKey n)).flushedLog = s.flushedLog ∧ (s.apply (.mediaKey n)).lastFlush = s.lastFlush ∧
    (s.apply (.mediaKey n)).feat = s.feat ∧ (s.apply (.mediaKey n)).regs = s.regs ∧
    (s.apply (.mediaKey n)).mem = s.mem ∧ (s.apply (.mediaKey n)).eccBad = s.eccBad ∧
    (s.apply (.mediaKey n)).lanes = s.lanes ∧ (s.apply (.mediaKey n)).links = s.links ∧
    (s.apply (.mediaKey n)).cells = s.cells ∧ (s.apply (.mediaKey n)).nodes = s.nodes ∧
    (s.apply (.mediaKey n)).reqs = s.reqs ∧ (s.apply (.mediaKey n)).regions = s.regions ∧
    (s.apply (.mediaKey n)).launches = s.launches ∧ (s.apply (.mediaKey n)).dispatchers = s.dispatchers ∧
    (s.apply (.mediaKey n)).saves = s.saves ∧ (s.apply (.mediaKey n)).vault = s.vault ∧
    (s.apply (.mediaKey n)).epochs = s.epochs ∧ (s.apply (.mediaKey n)).lots = s.lots ∧
    (s.apply (.mediaKey n)).slogs = s.slogs ∧ (s.apply (.mediaKey n)).mtlbs = s.mtlbs ∧
    (s.apply (.mediaKey n)).copies = s.copies ∧ (s.apply (.mediaKey n)).harts = s.harts ∧
    (s.apply (.mediaKey n)).xdies = s.xdies ∧ (s.apply (.mediaKey n)).resetAt = s.resetAt ∧
    (s.apply (.mediaKey n)).outbox = s.outbox := by
  and_intros <;> rfl

@[simp] theorem State.apply_power (p) : (s.apply (.power p)).power = p := rfl

@[simp] theorem State.apply_power_others (p) :
    (s.apply (.power p)).agenda = s.agenda ∧ (s.apply (.power p)).focus = s.focus ∧
    (s.apply (.power p)).cycle = s.cycle ∧ (s.apply (.power p)).freeIx = s.freeIx ∧
    (s.apply (.power p)).nextId = s.nextId ∧ (s.apply (.power p)).fuses = s.fuses ∧
    (s.apply (.power p)).wipes = s.wipes ∧ (s.apply (.power p)).boots = s.boots ∧ (s.apply (.power p)).spdm = s.spdm ∧
    (s.apply (.power p)).firmware = s.firmware ∧ (s.apply (.power p)).mediaKey = s.mediaKey ∧
    (s.apply (.power p)).fieldLog = s.fieldLog ∧ (s.apply (.power p)).flushedLog = s.flushedLog ∧
    (s.apply (.power p)).lastFlush = s.lastFlush ∧ (s.apply (.power p)).feat = s.feat ∧
    (s.apply (.power p)).regs = s.regs ∧ (s.apply (.power p)).mem = s.mem ∧ (s.apply (.power p)).eccBad = s.eccBad ∧
    (s.apply (.power p)).lanes = s.lanes ∧ (s.apply (.power p)).links = s.links ∧
    (s.apply (.power p)).cells = s.cells ∧ (s.apply (.power p)).nodes = s.nodes ∧ (s.apply (.power p)).reqs = s.reqs ∧
    (s.apply (.power p)).regions = s.regions ∧ (s.apply (.power p)).launches = s.launches ∧
    (s.apply (.power p)).dispatchers = s.dispatchers ∧ (s.apply (.power p)).saves = s.saves ∧
    (s.apply (.power p)).vault = s.vault ∧ (s.apply (.power p)).epochs = s.epochs ∧
    (s.apply (.power p)).lots = s.lots ∧ (s.apply (.power p)).slogs = s.slogs ∧ (s.apply (.power p)).mtlbs = s.mtlbs ∧
    (s.apply (.power p)).copies = s.copies ∧ (s.apply (.power p)).harts = s.harts ∧
    (s.apply (.power p)).xdies = s.xdies ∧ (s.apply (.power p)).resetAt = s.resetAt ∧
    (s.apply (.power p)).outbox = s.outbox := by
  and_intros <;> rfl

@[simp] theorem State.apply_fieldLog (d) (l) : (s.apply (.fieldLog d l)).fieldLog = s.fieldLog.put d l := rfl

@[simp] theorem State.apply_fieldLog_others (d) (l) :
    (s.apply (.fieldLog d l)).agenda = s.agenda ∧ (s.apply (.fieldLog d l)).focus = s.focus ∧
    (s.apply (.fieldLog d l)).cycle = s.cycle ∧ (s.apply (.fieldLog d l)).freeIx = s.freeIx ∧
    (s.apply (.fieldLog d l)).nextId = s.nextId ∧ (s.apply (.fieldLog d l)).fuses = s.fuses ∧
    (s.apply (.fieldLog d l)).wipes = s.wipes ∧ (s.apply (.fieldLog d l)).boots = s.boots ∧
    (s.apply (.fieldLog d l)).spdm = s.spdm ∧ (s.apply (.fieldLog d l)).firmware = s.firmware ∧
    (s.apply (.fieldLog d l)).mediaKey = s.mediaKey ∧ (s.apply (.fieldLog d l)).power = s.power ∧
    (s.apply (.fieldLog d l)).flushedLog = s.flushedLog ∧ (s.apply (.fieldLog d l)).lastFlush = s.lastFlush ∧
    (s.apply (.fieldLog d l)).feat = s.feat ∧ (s.apply (.fieldLog d l)).regs = s.regs ∧
    (s.apply (.fieldLog d l)).mem = s.mem ∧ (s.apply (.fieldLog d l)).eccBad = s.eccBad ∧
    (s.apply (.fieldLog d l)).lanes = s.lanes ∧ (s.apply (.fieldLog d l)).links = s.links ∧
    (s.apply (.fieldLog d l)).cells = s.cells ∧ (s.apply (.fieldLog d l)).nodes = s.nodes ∧
    (s.apply (.fieldLog d l)).reqs = s.reqs ∧ (s.apply (.fieldLog d l)).regions = s.regions ∧
    (s.apply (.fieldLog d l)).launches = s.launches ∧ (s.apply (.fieldLog d l)).dispatchers = s.dispatchers ∧
    (s.apply (.fieldLog d l)).saves = s.saves ∧ (s.apply (.fieldLog d l)).vault = s.vault ∧
    (s.apply (.fieldLog d l)).epochs = s.epochs ∧ (s.apply (.fieldLog d l)).lots = s.lots ∧
    (s.apply (.fieldLog d l)).slogs = s.slogs ∧ (s.apply (.fieldLog d l)).mtlbs = s.mtlbs ∧
    (s.apply (.fieldLog d l)).copies = s.copies ∧ (s.apply (.fieldLog d l)).harts = s.harts ∧
    (s.apply (.fieldLog d l)).xdies = s.xdies ∧ (s.apply (.fieldLog d l)).resetAt = s.resetAt ∧
    (s.apply (.fieldLog d l)).outbox = s.outbox := by
  and_intros <;> rfl

@[simp] theorem State.apply_feat (f) : (s.apply (.feat f)).feat = f := rfl

@[simp] theorem State.apply_feat_others (f) :
    (s.apply (.feat f)).agenda = s.agenda ∧ (s.apply (.feat f)).focus = s.focus ∧
    (s.apply (.feat f)).cycle = s.cycle ∧ (s.apply (.feat f)).freeIx = s.freeIx ∧
    (s.apply (.feat f)).nextId = s.nextId ∧ (s.apply (.feat f)).fuses = s.fuses ∧
    (s.apply (.feat f)).wipes = s.wipes ∧ (s.apply (.feat f)).boots = s.boots ∧ (s.apply (.feat f)).spdm = s.spdm ∧
    (s.apply (.feat f)).firmware = s.firmware ∧ (s.apply (.feat f)).mediaKey = s.mediaKey ∧
    (s.apply (.feat f)).power = s.power ∧ (s.apply (.feat f)).fieldLog = s.fieldLog ∧
    (s.apply (.feat f)).flushedLog = s.flushedLog ∧ (s.apply (.feat f)).lastFlush = s.lastFlush ∧
    (s.apply (.feat f)).regs = s.regs ∧ (s.apply (.feat f)).mem = s.mem ∧ (s.apply (.feat f)).eccBad = s.eccBad ∧
    (s.apply (.feat f)).lanes = s.lanes ∧ (s.apply (.feat f)).links = s.links ∧ (s.apply (.feat f)).cells = s.cells ∧
    (s.apply (.feat f)).nodes = s.nodes ∧ (s.apply (.feat f)).reqs = s.reqs ∧
    (s.apply (.feat f)).regions = s.regions ∧ (s.apply (.feat f)).launches = s.launches ∧
    (s.apply (.feat f)).dispatchers = s.dispatchers ∧ (s.apply (.feat f)).saves = s.saves ∧
    (s.apply (.feat f)).vault = s.vault ∧ (s.apply (.feat f)).epochs = s.epochs ∧ (s.apply (.feat f)).lots = s.lots ∧
    (s.apply (.feat f)).slogs = s.slogs ∧ (s.apply (.feat f)).mtlbs = s.mtlbs ∧
    (s.apply (.feat f)).copies = s.copies ∧ (s.apply (.feat f)).harts = s.harts ∧
    (s.apply (.feat f)).xdies = s.xdies ∧ (s.apply (.feat f)).resetAt = s.resetAt ∧
    (s.apply (.feat f)).outbox = s.outbox := by
  and_intros <;> rfl

@[simp] theorem State.apply_reg (d) (r) (v) : (s.apply (.reg d r v)).regs = s.regs.put (d, r.off) (v &&& regMask d r.off) := rfl

@[simp] theorem State.apply_reg_others (d) (r) (v) :
    (s.apply (.reg d r v)).agenda = s.agenda ∧ (s.apply (.reg d r v)).focus = s.focus ∧
    (s.apply (.reg d r v)).cycle = s.cycle ∧ (s.apply (.reg d r v)).freeIx = s.freeIx ∧
    (s.apply (.reg d r v)).nextId = s.nextId ∧ (s.apply (.reg d r v)).fuses = s.fuses ∧
    (s.apply (.reg d r v)).wipes = s.wipes ∧ (s.apply (.reg d r v)).boots = s.boots ∧
    (s.apply (.reg d r v)).spdm = s.spdm ∧ (s.apply (.reg d r v)).firmware = s.firmware ∧
    (s.apply (.reg d r v)).mediaKey = s.mediaKey ∧ (s.apply (.reg d r v)).power = s.power ∧
    (s.apply (.reg d r v)).fieldLog = s.fieldLog ∧ (s.apply (.reg d r v)).flushedLog = s.flushedLog ∧
    (s.apply (.reg d r v)).lastFlush = s.lastFlush ∧ (s.apply (.reg d r v)).feat = s.feat ∧
    (s.apply (.reg d r v)).mem = s.mem ∧ (s.apply (.reg d r v)).eccBad = s.eccBad ∧
    (s.apply (.reg d r v)).lanes = s.lanes ∧ (s.apply (.reg d r v)).links = s.links ∧
    (s.apply (.reg d r v)).cells = s.cells ∧ (s.apply (.reg d r v)).nodes = s.nodes ∧
    (s.apply (.reg d r v)).reqs = s.reqs ∧ (s.apply (.reg d r v)).regions = s.regions ∧
    (s.apply (.reg d r v)).launches = s.launches ∧ (s.apply (.reg d r v)).dispatchers = s.dispatchers ∧
    (s.apply (.reg d r v)).saves = s.saves ∧ (s.apply (.reg d r v)).vault = s.vault ∧
    (s.apply (.reg d r v)).epochs = s.epochs ∧ (s.apply (.reg d r v)).lots = s.lots ∧
    (s.apply (.reg d r v)).slogs = s.slogs ∧ (s.apply (.reg d r v)).mtlbs = s.mtlbs ∧
    (s.apply (.reg d r v)).copies = s.copies ∧ (s.apply (.reg d r v)).harts = s.harts ∧
    (s.apply (.reg d r v)).xdies = s.xdies ∧ (s.apply (.reg d r v)).resetAt = s.resetAt ∧
    (s.apply (.reg d r v)).outbox = s.outbox := by
  and_intros <;> rfl

@[simp] theorem State.apply_regsClear (d) (keep) : (s.apply (.regsClear d keep)).regs = s.regs.filter fun e => e.1.1 != d || keep.contains e.1.2 := rfl

@[simp] theorem State.apply_regsClear_others (d) (keep) :
    (s.apply (.regsClear d keep)).agenda = s.agenda ∧ (s.apply (.regsClear d keep)).focus = s.focus ∧
    (s.apply (.regsClear d keep)).cycle = s.cycle ∧ (s.apply (.regsClear d keep)).freeIx = s.freeIx ∧
    (s.apply (.regsClear d keep)).nextId = s.nextId ∧ (s.apply (.regsClear d keep)).fuses = s.fuses ∧
    (s.apply (.regsClear d keep)).wipes = s.wipes ∧ (s.apply (.regsClear d keep)).boots = s.boots ∧
    (s.apply (.regsClear d keep)).spdm = s.spdm ∧ (s.apply (.regsClear d keep)).firmware = s.firmware ∧
    (s.apply (.regsClear d keep)).mediaKey = s.mediaKey ∧ (s.apply (.regsClear d keep)).power = s.power ∧
    (s.apply (.regsClear d keep)).fieldLog = s.fieldLog ∧ (s.apply (.regsClear d keep)).flushedLog = s.flushedLog ∧
    (s.apply (.regsClear d keep)).lastFlush = s.lastFlush ∧ (s.apply (.regsClear d keep)).feat = s.feat ∧
    (s.apply (.regsClear d keep)).mem = s.mem ∧ (s.apply (.regsClear d keep)).eccBad = s.eccBad ∧
    (s.apply (.regsClear d keep)).lanes = s.lanes ∧ (s.apply (.regsClear d keep)).links = s.links ∧
    (s.apply (.regsClear d keep)).cells = s.cells ∧ (s.apply (.regsClear d keep)).nodes = s.nodes ∧
    (s.apply (.regsClear d keep)).reqs = s.reqs ∧ (s.apply (.regsClear d keep)).regions = s.regions ∧
    (s.apply (.regsClear d keep)).launches = s.launches ∧ (s.apply (.regsClear d keep)).dispatchers = s.dispatchers ∧
    (s.apply (.regsClear d keep)).saves = s.saves ∧ (s.apply (.regsClear d keep)).vault = s.vault ∧
    (s.apply (.regsClear d keep)).epochs = s.epochs ∧ (s.apply (.regsClear d keep)).lots = s.lots ∧
    (s.apply (.regsClear d keep)).slogs = s.slogs ∧ (s.apply (.regsClear d keep)).mtlbs = s.mtlbs ∧
    (s.apply (.regsClear d keep)).copies = s.copies ∧ (s.apply (.regsClear d keep)).harts = s.harts ∧
    (s.apply (.regsClear d keep)).xdies = s.xdies ∧ (s.apply (.regsClear d keep)).resetAt = s.resetAt ∧
    (s.apply (.regsClear d keep)).outbox = s.outbox := by
  and_intros <;> rfl

@[simp] theorem State.apply_mem (k) (b) : (s.apply (.mem k b)).mem = s.mem.write k b := rfl

@[simp] theorem State.apply_mem_others (k) (b) :
    (s.apply (.mem k b)).agenda = s.agenda ∧ (s.apply (.mem k b)).focus = s.focus ∧
    (s.apply (.mem k b)).cycle = s.cycle ∧ (s.apply (.mem k b)).freeIx = s.freeIx ∧
    (s.apply (.mem k b)).nextId = s.nextId ∧ (s.apply (.mem k b)).fuses = s.fuses ∧
    (s.apply (.mem k b)).wipes = s.wipes ∧ (s.apply (.mem k b)).boots = s.boots ∧ (s.apply (.mem k b)).spdm = s.spdm ∧
    (s.apply (.mem k b)).firmware = s.firmware ∧ (s.apply (.mem k b)).mediaKey = s.mediaKey ∧
    (s.apply (.mem k b)).power = s.power ∧ (s.apply (.mem k b)).fieldLog = s.fieldLog ∧
    (s.apply (.mem k b)).flushedLog = s.flushedLog ∧ (s.apply (.mem k b)).lastFlush = s.lastFlush ∧
    (s.apply (.mem k b)).feat = s.feat ∧ (s.apply (.mem k b)).regs = s.regs ∧ (s.apply (.mem k b)).eccBad = s.eccBad ∧
    (s.apply (.mem k b)).lanes = s.lanes ∧ (s.apply (.mem k b)).links = s.links ∧
    (s.apply (.mem k b)).cells = s.cells ∧ (s.apply (.mem k b)).nodes = s.nodes ∧ (s.apply (.mem k b)).reqs = s.reqs ∧
    (s.apply (.mem k b)).regions = s.regions ∧ (s.apply (.mem k b)).launches = s.launches ∧
    (s.apply (.mem k b)).dispatchers = s.dispatchers ∧ (s.apply (.mem k b)).saves = s.saves ∧
    (s.apply (.mem k b)).vault = s.vault ∧ (s.apply (.mem k b)).epochs = s.epochs ∧
    (s.apply (.mem k b)).lots = s.lots ∧ (s.apply (.mem k b)).slogs = s.slogs ∧ (s.apply (.mem k b)).mtlbs = s.mtlbs ∧
    (s.apply (.mem k b)).copies = s.copies ∧ (s.apply (.mem k b)).harts = s.harts ∧
    (s.apply (.mem k b)).xdies = s.xdies ∧ (s.apply (.mem k b)).resetAt = s.resetAt ∧
    (s.apply (.mem k b)).outbox = s.outbox := by
  and_intros <;> rfl

@[simp] theorem State.apply_memClear (lo) (hi) : (s.apply (.memClear lo hi)).mem = s.mem.clear lo hi := rfl

@[simp] theorem State.apply_memClear_others (lo) (hi) :
    (s.apply (.memClear lo hi)).agenda = s.agenda ∧ (s.apply (.memClear lo hi)).focus = s.focus ∧
    (s.apply (.memClear lo hi)).cycle = s.cycle ∧ (s.apply (.memClear lo hi)).freeIx = s.freeIx ∧
    (s.apply (.memClear lo hi)).nextId = s.nextId ∧ (s.apply (.memClear lo hi)).fuses = s.fuses ∧
    (s.apply (.memClear lo hi)).wipes = s.wipes ∧ (s.apply (.memClear lo hi)).boots = s.boots ∧
    (s.apply (.memClear lo hi)).spdm = s.spdm ∧ (s.apply (.memClear lo hi)).firmware = s.firmware ∧
    (s.apply (.memClear lo hi)).mediaKey = s.mediaKey ∧ (s.apply (.memClear lo hi)).power = s.power ∧
    (s.apply (.memClear lo hi)).fieldLog = s.fieldLog ∧ (s.apply (.memClear lo hi)).flushedLog = s.flushedLog ∧
    (s.apply (.memClear lo hi)).lastFlush = s.lastFlush ∧ (s.apply (.memClear lo hi)).feat = s.feat ∧
    (s.apply (.memClear lo hi)).regs = s.regs ∧ (s.apply (.memClear lo hi)).eccBad = s.eccBad ∧
    (s.apply (.memClear lo hi)).lanes = s.lanes ∧ (s.apply (.memClear lo hi)).links = s.links ∧
    (s.apply (.memClear lo hi)).cells = s.cells ∧ (s.apply (.memClear lo hi)).nodes = s.nodes ∧
    (s.apply (.memClear lo hi)).reqs = s.reqs ∧ (s.apply (.memClear lo hi)).regions = s.regions ∧
    (s.apply (.memClear lo hi)).launches = s.launches ∧ (s.apply (.memClear lo hi)).dispatchers = s.dispatchers ∧
    (s.apply (.memClear lo hi)).saves = s.saves ∧ (s.apply (.memClear lo hi)).vault = s.vault ∧
    (s.apply (.memClear lo hi)).epochs = s.epochs ∧ (s.apply (.memClear lo hi)).lots = s.lots ∧
    (s.apply (.memClear lo hi)).slogs = s.slogs ∧ (s.apply (.memClear lo hi)).mtlbs = s.mtlbs ∧
    (s.apply (.memClear lo hi)).copies = s.copies ∧ (s.apply (.memClear lo hi)).harts = s.harts ∧
    (s.apply (.memClear lo hi)).xdies = s.xdies ∧ (s.apply (.memClear lo hi)).resetAt = s.resetAt ∧
    (s.apply (.memClear lo hi)).outbox = s.outbox := by
  and_intros <;> rfl

@[simp] theorem State.apply_ecc (l) : (s.apply (.ecc l)).eccBad = l := rfl

@[simp] theorem State.apply_ecc_others (l) :
    (s.apply (.ecc l)).agenda = s.agenda ∧ (s.apply (.ecc l)).focus = s.focus ∧ (s.apply (.ecc l)).cycle = s.cycle ∧
    (s.apply (.ecc l)).freeIx = s.freeIx ∧ (s.apply (.ecc l)).nextId = s.nextId ∧ (s.apply (.ecc l)).fuses = s.fuses ∧
    (s.apply (.ecc l)).wipes = s.wipes ∧ (s.apply (.ecc l)).boots = s.boots ∧ (s.apply (.ecc l)).spdm = s.spdm ∧
    (s.apply (.ecc l)).firmware = s.firmware ∧ (s.apply (.ecc l)).mediaKey = s.mediaKey ∧
    (s.apply (.ecc l)).power = s.power ∧ (s.apply (.ecc l)).fieldLog = s.fieldLog ∧
    (s.apply (.ecc l)).flushedLog = s.flushedLog ∧ (s.apply (.ecc l)).lastFlush = s.lastFlush ∧
    (s.apply (.ecc l)).feat = s.feat ∧ (s.apply (.ecc l)).regs = s.regs ∧ (s.apply (.ecc l)).mem = s.mem ∧
    (s.apply (.ecc l)).lanes = s.lanes ∧ (s.apply (.ecc l)).links = s.links ∧ (s.apply (.ecc l)).cells = s.cells ∧
    (s.apply (.ecc l)).nodes = s.nodes ∧ (s.apply (.ecc l)).reqs = s.reqs ∧ (s.apply (.ecc l)).regions = s.regions ∧
    (s.apply (.ecc l)).launches = s.launches ∧ (s.apply (.ecc l)).dispatchers = s.dispatchers ∧
    (s.apply (.ecc l)).saves = s.saves ∧ (s.apply (.ecc l)).vault = s.vault ∧ (s.apply (.ecc l)).epochs = s.epochs ∧
    (s.apply (.ecc l)).lots = s.lots ∧ (s.apply (.ecc l)).slogs = s.slogs ∧ (s.apply (.ecc l)).mtlbs = s.mtlbs ∧
    (s.apply (.ecc l)).copies = s.copies ∧ (s.apply (.ecc l)).harts = s.harts ∧ (s.apply (.ecc l)).xdies = s.xdies ∧
    (s.apply (.ecc l)).resetAt = s.resetAt ∧ (s.apply (.ecc l)).outbox = s.outbox := by
  and_intros <;> rfl

@[simp] theorem State.apply_lane (l) (v) : (s.apply (.lane l v)).lanes = s.lanes.put l v := rfl

@[simp] theorem State.apply_lane_others (l) (v) :
    (s.apply (.lane l v)).agenda = s.agenda ∧ (s.apply (.lane l v)).focus = s.focus ∧
    (s.apply (.lane l v)).cycle = s.cycle ∧ (s.apply (.lane l v)).freeIx = s.freeIx ∧
    (s.apply (.lane l v)).nextId = s.nextId ∧ (s.apply (.lane l v)).fuses = s.fuses ∧
    (s.apply (.lane l v)).wipes = s.wipes ∧ (s.apply (.lane l v)).boots = s.boots ∧
    (s.apply (.lane l v)).spdm = s.spdm ∧ (s.apply (.lane l v)).firmware = s.firmware ∧
    (s.apply (.lane l v)).mediaKey = s.mediaKey ∧ (s.apply (.lane l v)).power = s.power ∧
    (s.apply (.lane l v)).fieldLog = s.fieldLog ∧ (s.apply (.lane l v)).flushedLog = s.flushedLog ∧
    (s.apply (.lane l v)).lastFlush = s.lastFlush ∧ (s.apply (.lane l v)).feat = s.feat ∧
    (s.apply (.lane l v)).regs = s.regs ∧ (s.apply (.lane l v)).mem = s.mem ∧
    (s.apply (.lane l v)).eccBad = s.eccBad ∧ (s.apply (.lane l v)).links = s.links ∧
    (s.apply (.lane l v)).cells = s.cells ∧ (s.apply (.lane l v)).nodes = s.nodes ∧
    (s.apply (.lane l v)).reqs = s.reqs ∧ (s.apply (.lane l v)).regions = s.regions ∧
    (s.apply (.lane l v)).launches = s.launches ∧ (s.apply (.lane l v)).dispatchers = s.dispatchers ∧
    (s.apply (.lane l v)).saves = s.saves ∧ (s.apply (.lane l v)).vault = s.vault ∧
    (s.apply (.lane l v)).epochs = s.epochs ∧ (s.apply (.lane l v)).lots = s.lots ∧
    (s.apply (.lane l v)).slogs = s.slogs ∧ (s.apply (.lane l v)).mtlbs = s.mtlbs ∧
    (s.apply (.lane l v)).copies = s.copies ∧ (s.apply (.lane l v)).harts = s.harts ∧
    (s.apply (.lane l v)).xdies = s.xdies ∧ (s.apply (.lane l v)).resetAt = s.resetAt ∧
    (s.apply (.lane l v)).outbox = s.outbox := by
  and_intros <;> rfl

@[simp] theorem State.apply_link (l) (v) : (s.apply (.link l v)).links = s.links.put l v := rfl

@[simp] theorem State.apply_link_others (l) (v) :
    (s.apply (.link l v)).agenda = s.agenda ∧ (s.apply (.link l v)).focus = s.focus ∧
    (s.apply (.link l v)).cycle = s.cycle ∧ (s.apply (.link l v)).freeIx = s.freeIx ∧
    (s.apply (.link l v)).nextId = s.nextId ∧ (s.apply (.link l v)).fuses = s.fuses ∧
    (s.apply (.link l v)).wipes = s.wipes ∧ (s.apply (.link l v)).boots = s.boots ∧
    (s.apply (.link l v)).spdm = s.spdm ∧ (s.apply (.link l v)).firmware = s.firmware ∧
    (s.apply (.link l v)).mediaKey = s.mediaKey ∧ (s.apply (.link l v)).power = s.power ∧
    (s.apply (.link l v)).fieldLog = s.fieldLog ∧ (s.apply (.link l v)).flushedLog = s.flushedLog ∧
    (s.apply (.link l v)).lastFlush = s.lastFlush ∧ (s.apply (.link l v)).feat = s.feat ∧
    (s.apply (.link l v)).regs = s.regs ∧ (s.apply (.link l v)).mem = s.mem ∧
    (s.apply (.link l v)).eccBad = s.eccBad ∧ (s.apply (.link l v)).lanes = s.lanes ∧
    (s.apply (.link l v)).cells = s.cells ∧ (s.apply (.link l v)).nodes = s.nodes ∧
    (s.apply (.link l v)).reqs = s.reqs ∧ (s.apply (.link l v)).regions = s.regions ∧
    (s.apply (.link l v)).launches = s.launches ∧ (s.apply (.link l v)).dispatchers = s.dispatchers ∧
    (s.apply (.link l v)).saves = s.saves ∧ (s.apply (.link l v)).vault = s.vault ∧
    (s.apply (.link l v)).epochs = s.epochs ∧ (s.apply (.link l v)).lots = s.lots ∧
    (s.apply (.link l v)).slogs = s.slogs ∧ (s.apply (.link l v)).mtlbs = s.mtlbs ∧
    (s.apply (.link l v)).copies = s.copies ∧ (s.apply (.link l v)).harts = s.harts ∧
    (s.apply (.link l v)).xdies = s.xdies ∧ (s.apply (.link l v)).resetAt = s.resetAt ∧
    (s.apply (.link l v)).outbox = s.outbox := by
  and_intros <;> rfl

@[simp] theorem State.apply_cell (c) (v) : (s.apply (.cell c v)).cells = s.cells.put c v := rfl

@[simp] theorem State.apply_cell_others (c) (v) :
    (s.apply (.cell c v)).agenda = s.agenda ∧ (s.apply (.cell c v)).focus = s.focus ∧
    (s.apply (.cell c v)).cycle = s.cycle ∧ (s.apply (.cell c v)).freeIx = s.freeIx ∧
    (s.apply (.cell c v)).nextId = s.nextId ∧ (s.apply (.cell c v)).fuses = s.fuses ∧
    (s.apply (.cell c v)).wipes = s.wipes ∧ (s.apply (.cell c v)).boots = s.boots ∧
    (s.apply (.cell c v)).spdm = s.spdm ∧ (s.apply (.cell c v)).firmware = s.firmware ∧
    (s.apply (.cell c v)).mediaKey = s.mediaKey ∧ (s.apply (.cell c v)).power = s.power ∧
    (s.apply (.cell c v)).fieldLog = s.fieldLog ∧ (s.apply (.cell c v)).flushedLog = s.flushedLog ∧
    (s.apply (.cell c v)).lastFlush = s.lastFlush ∧ (s.apply (.cell c v)).feat = s.feat ∧
    (s.apply (.cell c v)).regs = s.regs ∧ (s.apply (.cell c v)).mem = s.mem ∧
    (s.apply (.cell c v)).eccBad = s.eccBad ∧ (s.apply (.cell c v)).lanes = s.lanes ∧
    (s.apply (.cell c v)).links = s.links ∧ (s.apply (.cell c v)).nodes = s.nodes ∧
    (s.apply (.cell c v)).reqs = s.reqs ∧ (s.apply (.cell c v)).regions = s.regions ∧
    (s.apply (.cell c v)).launches = s.launches ∧ (s.apply (.cell c v)).dispatchers = s.dispatchers ∧
    (s.apply (.cell c v)).saves = s.saves ∧ (s.apply (.cell c v)).vault = s.vault ∧
    (s.apply (.cell c v)).epochs = s.epochs ∧ (s.apply (.cell c v)).lots = s.lots ∧
    (s.apply (.cell c v)).slogs = s.slogs ∧ (s.apply (.cell c v)).mtlbs = s.mtlbs ∧
    (s.apply (.cell c v)).copies = s.copies ∧ (s.apply (.cell c v)).harts = s.harts ∧
    (s.apply (.cell c v)).xdies = s.xdies ∧ (s.apply (.cell c v)).resetAt = s.resetAt ∧
    (s.apply (.cell c v)).outbox = s.outbox := by
  and_intros <;> rfl

@[simp] theorem State.apply_cellsClear (d) : (s.apply (.cellsClear d)).cells = s.cells.filter fun e => e.1.die != d := rfl

@[simp] theorem State.apply_cellsClear_others (d) :
    (s.apply (.cellsClear d)).agenda = s.agenda ∧ (s.apply (.cellsClear d)).focus = s.focus ∧
    (s.apply (.cellsClear d)).cycle = s.cycle ∧ (s.apply (.cellsClear d)).freeIx = s.freeIx ∧
    (s.apply (.cellsClear d)).nextId = s.nextId ∧ (s.apply (.cellsClear d)).fuses = s.fuses ∧
    (s.apply (.cellsClear d)).wipes = s.wipes ∧ (s.apply (.cellsClear d)).boots = s.boots ∧
    (s.apply (.cellsClear d)).spdm = s.spdm ∧ (s.apply (.cellsClear d)).firmware = s.firmware ∧
    (s.apply (.cellsClear d)).mediaKey = s.mediaKey ∧ (s.apply (.cellsClear d)).power = s.power ∧
    (s.apply (.cellsClear d)).fieldLog = s.fieldLog ∧ (s.apply (.cellsClear d)).flushedLog = s.flushedLog ∧
    (s.apply (.cellsClear d)).lastFlush = s.lastFlush ∧ (s.apply (.cellsClear d)).feat = s.feat ∧
    (s.apply (.cellsClear d)).regs = s.regs ∧ (s.apply (.cellsClear d)).mem = s.mem ∧
    (s.apply (.cellsClear d)).eccBad = s.eccBad ∧ (s.apply (.cellsClear d)).lanes = s.lanes ∧
    (s.apply (.cellsClear d)).links = s.links ∧ (s.apply (.cellsClear d)).nodes = s.nodes ∧
    (s.apply (.cellsClear d)).reqs = s.reqs ∧ (s.apply (.cellsClear d)).regions = s.regions ∧
    (s.apply (.cellsClear d)).launches = s.launches ∧ (s.apply (.cellsClear d)).dispatchers = s.dispatchers ∧
    (s.apply (.cellsClear d)).saves = s.saves ∧ (s.apply (.cellsClear d)).vault = s.vault ∧
    (s.apply (.cellsClear d)).epochs = s.epochs ∧ (s.apply (.cellsClear d)).lots = s.lots ∧
    (s.apply (.cellsClear d)).slogs = s.slogs ∧ (s.apply (.cellsClear d)).mtlbs = s.mtlbs ∧
    (s.apply (.cellsClear d)).copies = s.copies ∧ (s.apply (.cellsClear d)).harts = s.harts ∧
    (s.apply (.cellsClear d)).xdies = s.xdies ∧ (s.apply (.cellsClear d)).resetAt = s.resetAt ∧
    (s.apply (.cellsClear d)).outbox = s.outbox := by
  and_intros <;> rfl

@[simp] theorem State.apply_node (c) (v) : (s.apply (.node c v)).nodes = s.nodes.put c v := rfl

@[simp] theorem State.apply_node_others (c) (v) :
    (s.apply (.node c v)).agenda = s.agenda ∧ (s.apply (.node c v)).focus = s.focus ∧
    (s.apply (.node c v)).cycle = s.cycle ∧ (s.apply (.node c v)).freeIx = s.freeIx ∧
    (s.apply (.node c v)).nextId = s.nextId ∧ (s.apply (.node c v)).fuses = s.fuses ∧
    (s.apply (.node c v)).wipes = s.wipes ∧ (s.apply (.node c v)).boots = s.boots ∧
    (s.apply (.node c v)).spdm = s.spdm ∧ (s.apply (.node c v)).firmware = s.firmware ∧
    (s.apply (.node c v)).mediaKey = s.mediaKey ∧ (s.apply (.node c v)).power = s.power ∧
    (s.apply (.node c v)).fieldLog = s.fieldLog ∧ (s.apply (.node c v)).flushedLog = s.flushedLog ∧
    (s.apply (.node c v)).lastFlush = s.lastFlush ∧ (s.apply (.node c v)).feat = s.feat ∧
    (s.apply (.node c v)).regs = s.regs ∧ (s.apply (.node c v)).mem = s.mem ∧
    (s.apply (.node c v)).eccBad = s.eccBad ∧ (s.apply (.node c v)).lanes = s.lanes ∧
    (s.apply (.node c v)).links = s.links ∧ (s.apply (.node c v)).cells = s.cells ∧
    (s.apply (.node c v)).reqs = s.reqs ∧ (s.apply (.node c v)).regions = s.regions ∧
    (s.apply (.node c v)).launches = s.launches ∧ (s.apply (.node c v)).dispatchers = s.dispatchers ∧
    (s.apply (.node c v)).saves = s.saves ∧ (s.apply (.node c v)).vault = s.vault ∧
    (s.apply (.node c v)).epochs = s.epochs ∧ (s.apply (.node c v)).lots = s.lots ∧
    (s.apply (.node c v)).slogs = s.slogs ∧ (s.apply (.node c v)).mtlbs = s.mtlbs ∧
    (s.apply (.node c v)).copies = s.copies ∧ (s.apply (.node c v)).harts = s.harts ∧
    (s.apply (.node c v)).xdies = s.xdies ∧ (s.apply (.node c v)).resetAt = s.resetAt ∧
    (s.apply (.node c v)).outbox = s.outbox := by
  and_intros <;> rfl

@[simp] theorem State.apply_nodesClear (d) : (s.apply (.nodesClear d)).nodes = s.nodes.filter fun e => e.1.die != d := rfl

@[simp] theorem State.apply_nodesClear_others (d) :
    (s.apply (.nodesClear d)).agenda = s.agenda ∧ (s.apply (.nodesClear d)).focus = s.focus ∧
    (s.apply (.nodesClear d)).cycle = s.cycle ∧ (s.apply (.nodesClear d)).freeIx = s.freeIx ∧
    (s.apply (.nodesClear d)).nextId = s.nextId ∧ (s.apply (.nodesClear d)).fuses = s.fuses ∧
    (s.apply (.nodesClear d)).wipes = s.wipes ∧ (s.apply (.nodesClear d)).boots = s.boots ∧
    (s.apply (.nodesClear d)).spdm = s.spdm ∧ (s.apply (.nodesClear d)).firmware = s.firmware ∧
    (s.apply (.nodesClear d)).mediaKey = s.mediaKey ∧ (s.apply (.nodesClear d)).power = s.power ∧
    (s.apply (.nodesClear d)).fieldLog = s.fieldLog ∧ (s.apply (.nodesClear d)).flushedLog = s.flushedLog ∧
    (s.apply (.nodesClear d)).lastFlush = s.lastFlush ∧ (s.apply (.nodesClear d)).feat = s.feat ∧
    (s.apply (.nodesClear d)).regs = s.regs ∧ (s.apply (.nodesClear d)).mem = s.mem ∧
    (s.apply (.nodesClear d)).eccBad = s.eccBad ∧ (s.apply (.nodesClear d)).lanes = s.lanes ∧
    (s.apply (.nodesClear d)).links = s.links ∧ (s.apply (.nodesClear d)).cells = s.cells ∧
    (s.apply (.nodesClear d)).reqs = s.reqs ∧ (s.apply (.nodesClear d)).regions = s.regions ∧
    (s.apply (.nodesClear d)).launches = s.launches ∧ (s.apply (.nodesClear d)).dispatchers = s.dispatchers ∧
    (s.apply (.nodesClear d)).saves = s.saves ∧ (s.apply (.nodesClear d)).vault = s.vault ∧
    (s.apply (.nodesClear d)).epochs = s.epochs ∧ (s.apply (.nodesClear d)).lots = s.lots ∧
    (s.apply (.nodesClear d)).slogs = s.slogs ∧ (s.apply (.nodesClear d)).mtlbs = s.mtlbs ∧
    (s.apply (.nodesClear d)).copies = s.copies ∧ (s.apply (.nodesClear d)).harts = s.harts ∧
    (s.apply (.nodesClear d)).xdies = s.xdies ∧ (s.apply (.nodesClear d)).resetAt = s.resetAt ∧
    (s.apply (.nodesClear d)).outbox = s.outbox := by
  and_intros <;> rfl

@[simp] theorem State.apply_reqs (l) : (s.apply (.reqs l)).reqs = l := rfl

@[simp] theorem State.apply_reqs_others (l) :
    (s.apply (.reqs l)).agenda = s.agenda ∧ (s.apply (.reqs l)).focus = s.focus ∧
    (s.apply (.reqs l)).cycle = s.cycle ∧ (s.apply (.reqs l)).freeIx = s.freeIx ∧
    (s.apply (.reqs l)).nextId = s.nextId ∧ (s.apply (.reqs l)).fuses = s.fuses ∧
    (s.apply (.reqs l)).wipes = s.wipes ∧ (s.apply (.reqs l)).boots = s.boots ∧ (s.apply (.reqs l)).spdm = s.spdm ∧
    (s.apply (.reqs l)).firmware = s.firmware ∧ (s.apply (.reqs l)).mediaKey = s.mediaKey ∧
    (s.apply (.reqs l)).power = s.power ∧ (s.apply (.reqs l)).fieldLog = s.fieldLog ∧
    (s.apply (.reqs l)).flushedLog = s.flushedLog ∧ (s.apply (.reqs l)).lastFlush = s.lastFlush ∧
    (s.apply (.reqs l)).feat = s.feat ∧ (s.apply (.reqs l)).regs = s.regs ∧ (s.apply (.reqs l)).mem = s.mem ∧
    (s.apply (.reqs l)).eccBad = s.eccBad ∧ (s.apply (.reqs l)).lanes = s.lanes ∧
    (s.apply (.reqs l)).links = s.links ∧ (s.apply (.reqs l)).cells = s.cells ∧ (s.apply (.reqs l)).nodes = s.nodes ∧
    (s.apply (.reqs l)).regions = s.regions ∧ (s.apply (.reqs l)).launches = s.launches ∧
    (s.apply (.reqs l)).dispatchers = s.dispatchers ∧ (s.apply (.reqs l)).saves = s.saves ∧
    (s.apply (.reqs l)).vault = s.vault ∧ (s.apply (.reqs l)).epochs = s.epochs ∧ (s.apply (.reqs l)).lots = s.lots ∧
    (s.apply (.reqs l)).slogs = s.slogs ∧ (s.apply (.reqs l)).mtlbs = s.mtlbs ∧
    (s.apply (.reqs l)).copies = s.copies ∧ (s.apply (.reqs l)).harts = s.harts ∧
    (s.apply (.reqs l)).xdies = s.xdies ∧ (s.apply (.reqs l)).resetAt = s.resetAt ∧
    (s.apply (.reqs l)).outbox = s.outbox := by
  and_intros <;> rfl

@[simp] theorem State.apply_dispatcher (d) (v) : (s.apply (.dispatcher d v)).dispatchers = s.dispatchers.put d v := rfl

@[simp] theorem State.apply_dispatcher_others (d) (v) :
    (s.apply (.dispatcher d v)).agenda = s.agenda ∧ (s.apply (.dispatcher d v)).focus = s.focus ∧
    (s.apply (.dispatcher d v)).cycle = s.cycle ∧ (s.apply (.dispatcher d v)).freeIx = s.freeIx ∧
    (s.apply (.dispatcher d v)).nextId = s.nextId ∧ (s.apply (.dispatcher d v)).fuses = s.fuses ∧
    (s.apply (.dispatcher d v)).wipes = s.wipes ∧ (s.apply (.dispatcher d v)).boots = s.boots ∧
    (s.apply (.dispatcher d v)).spdm = s.spdm ∧ (s.apply (.dispatcher d v)).firmware = s.firmware ∧
    (s.apply (.dispatcher d v)).mediaKey = s.mediaKey ∧ (s.apply (.dispatcher d v)).power = s.power ∧
    (s.apply (.dispatcher d v)).fieldLog = s.fieldLog ∧ (s.apply (.dispatcher d v)).flushedLog = s.flushedLog ∧
    (s.apply (.dispatcher d v)).lastFlush = s.lastFlush ∧ (s.apply (.dispatcher d v)).feat = s.feat ∧
    (s.apply (.dispatcher d v)).regs = s.regs ∧ (s.apply (.dispatcher d v)).mem = s.mem ∧
    (s.apply (.dispatcher d v)).eccBad = s.eccBad ∧ (s.apply (.dispatcher d v)).lanes = s.lanes ∧
    (s.apply (.dispatcher d v)).links = s.links ∧ (s.apply (.dispatcher d v)).cells = s.cells ∧
    (s.apply (.dispatcher d v)).nodes = s.nodes ∧ (s.apply (.dispatcher d v)).reqs = s.reqs ∧
    (s.apply (.dispatcher d v)).regions = s.regions ∧ (s.apply (.dispatcher d v)).launches = s.launches ∧
    (s.apply (.dispatcher d v)).saves = s.saves ∧ (s.apply (.dispatcher d v)).vault = s.vault ∧
    (s.apply (.dispatcher d v)).epochs = s.epochs ∧ (s.apply (.dispatcher d v)).lots = s.lots ∧
    (s.apply (.dispatcher d v)).slogs = s.slogs ∧ (s.apply (.dispatcher d v)).mtlbs = s.mtlbs ∧
    (s.apply (.dispatcher d v)).copies = s.copies ∧ (s.apply (.dispatcher d v)).harts = s.harts ∧
    (s.apply (.dispatcher d v)).xdies = s.xdies ∧ (s.apply (.dispatcher d v)).resetAt = s.resetAt ∧
    (s.apply (.dispatcher d v)).outbox = s.outbox := by
  and_intros <;> rfl

@[simp] theorem State.apply_vault (l) : (s.apply (.vault l)).vault = l := rfl

@[simp] theorem State.apply_vault_others (l) :
    (s.apply (.vault l)).agenda = s.agenda ∧ (s.apply (.vault l)).focus = s.focus ∧
    (s.apply (.vault l)).cycle = s.cycle ∧ (s.apply (.vault l)).freeIx = s.freeIx ∧
    (s.apply (.vault l)).nextId = s.nextId ∧ (s.apply (.vault l)).fuses = s.fuses ∧
    (s.apply (.vault l)).wipes = s.wipes ∧ (s.apply (.vault l)).boots = s.boots ∧ (s.apply (.vault l)).spdm = s.spdm ∧
    (s.apply (.vault l)).firmware = s.firmware ∧ (s.apply (.vault l)).mediaKey = s.mediaKey ∧
    (s.apply (.vault l)).power = s.power ∧ (s.apply (.vault l)).fieldLog = s.fieldLog ∧
    (s.apply (.vault l)).flushedLog = s.flushedLog ∧ (s.apply (.vault l)).lastFlush = s.lastFlush ∧
    (s.apply (.vault l)).feat = s.feat ∧ (s.apply (.vault l)).regs = s.regs ∧ (s.apply (.vault l)).mem = s.mem ∧
    (s.apply (.vault l)).eccBad = s.eccBad ∧ (s.apply (.vault l)).lanes = s.lanes ∧
    (s.apply (.vault l)).links = s.links ∧ (s.apply (.vault l)).cells = s.cells ∧
    (s.apply (.vault l)).nodes = s.nodes ∧ (s.apply (.vault l)).reqs = s.reqs ∧
    (s.apply (.vault l)).regions = s.regions ∧ (s.apply (.vault l)).launches = s.launches ∧
    (s.apply (.vault l)).dispatchers = s.dispatchers ∧ (s.apply (.vault l)).saves = s.saves ∧
    (s.apply (.vault l)).epochs = s.epochs ∧ (s.apply (.vault l)).lots = s.lots ∧
    (s.apply (.vault l)).slogs = s.slogs ∧ (s.apply (.vault l)).mtlbs = s.mtlbs ∧
    (s.apply (.vault l)).copies = s.copies ∧ (s.apply (.vault l)).harts = s.harts ∧
    (s.apply (.vault l)).xdies = s.xdies ∧ (s.apply (.vault l)).resetAt = s.resetAt ∧
    (s.apply (.vault l)).outbox = s.outbox := by
  and_intros <;> rfl

@[simp] theorem State.apply_epoch (p) (n) : (s.apply (.epoch p n)).epochs = s.epochs.put p n := rfl

@[simp] theorem State.apply_epoch_others (p) (n) :
    (s.apply (.epoch p n)).agenda = s.agenda ∧ (s.apply (.epoch p n)).focus = s.focus ∧
    (s.apply (.epoch p n)).cycle = s.cycle ∧ (s.apply (.epoch p n)).freeIx = s.freeIx ∧
    (s.apply (.epoch p n)).nextId = s.nextId ∧ (s.apply (.epoch p n)).fuses = s.fuses ∧
    (s.apply (.epoch p n)).wipes = s.wipes ∧ (s.apply (.epoch p n)).boots = s.boots ∧
    (s.apply (.epoch p n)).spdm = s.spdm ∧ (s.apply (.epoch p n)).firmware = s.firmware ∧
    (s.apply (.epoch p n)).mediaKey = s.mediaKey ∧ (s.apply (.epoch p n)).power = s.power ∧
    (s.apply (.epoch p n)).fieldLog = s.fieldLog ∧ (s.apply (.epoch p n)).flushedLog = s.flushedLog ∧
    (s.apply (.epoch p n)).lastFlush = s.lastFlush ∧ (s.apply (.epoch p n)).feat = s.feat ∧
    (s.apply (.epoch p n)).regs = s.regs ∧ (s.apply (.epoch p n)).mem = s.mem ∧
    (s.apply (.epoch p n)).eccBad = s.eccBad ∧ (s.apply (.epoch p n)).lanes = s.lanes ∧
    (s.apply (.epoch p n)).links = s.links ∧ (s.apply (.epoch p n)).cells = s.cells ∧
    (s.apply (.epoch p n)).nodes = s.nodes ∧ (s.apply (.epoch p n)).reqs = s.reqs ∧
    (s.apply (.epoch p n)).regions = s.regions ∧ (s.apply (.epoch p n)).launches = s.launches ∧
    (s.apply (.epoch p n)).dispatchers = s.dispatchers ∧ (s.apply (.epoch p n)).saves = s.saves ∧
    (s.apply (.epoch p n)).vault = s.vault ∧ (s.apply (.epoch p n)).lots = s.lots ∧
    (s.apply (.epoch p n)).slogs = s.slogs ∧ (s.apply (.epoch p n)).mtlbs = s.mtlbs ∧
    (s.apply (.epoch p n)).copies = s.copies ∧ (s.apply (.epoch p n)).harts = s.harts ∧
    (s.apply (.epoch p n)).xdies = s.xdies ∧ (s.apply (.epoch p n)).resetAt = s.resetAt ∧
    (s.apply (.epoch p n)).outbox = s.outbox := by
  and_intros <;> rfl

@[simp] theorem State.apply_lots (d) (l) : (s.apply (.lots d l)).lots = s.lots.put d l.proper := rfl

@[simp] theorem State.apply_lots_others (d) (l) :
    (s.apply (.lots d l)).agenda = s.agenda ∧ (s.apply (.lots d l)).focus = s.focus ∧
    (s.apply (.lots d l)).cycle = s.cycle ∧ (s.apply (.lots d l)).freeIx = s.freeIx ∧
    (s.apply (.lots d l)).nextId = s.nextId ∧ (s.apply (.lots d l)).fuses = s.fuses ∧
    (s.apply (.lots d l)).wipes = s.wipes ∧ (s.apply (.lots d l)).boots = s.boots ∧
    (s.apply (.lots d l)).spdm = s.spdm ∧ (s.apply (.lots d l)).firmware = s.firmware ∧
    (s.apply (.lots d l)).mediaKey = s.mediaKey ∧ (s.apply (.lots d l)).power = s.power ∧
    (s.apply (.lots d l)).fieldLog = s.fieldLog ∧ (s.apply (.lots d l)).flushedLog = s.flushedLog ∧
    (s.apply (.lots d l)).lastFlush = s.lastFlush ∧ (s.apply (.lots d l)).feat = s.feat ∧
    (s.apply (.lots d l)).regs = s.regs ∧ (s.apply (.lots d l)).mem = s.mem ∧
    (s.apply (.lots d l)).eccBad = s.eccBad ∧ (s.apply (.lots d l)).lanes = s.lanes ∧
    (s.apply (.lots d l)).links = s.links ∧ (s.apply (.lots d l)).cells = s.cells ∧
    (s.apply (.lots d l)).nodes = s.nodes ∧ (s.apply (.lots d l)).reqs = s.reqs ∧
    (s.apply (.lots d l)).regions = s.regions ∧ (s.apply (.lots d l)).launches = s.launches ∧
    (s.apply (.lots d l)).dispatchers = s.dispatchers ∧ (s.apply (.lots d l)).saves = s.saves ∧
    (s.apply (.lots d l)).vault = s.vault ∧ (s.apply (.lots d l)).epochs = s.epochs ∧
    (s.apply (.lots d l)).slogs = s.slogs ∧ (s.apply (.lots d l)).mtlbs = s.mtlbs ∧
    (s.apply (.lots d l)).copies = s.copies ∧ (s.apply (.lots d l)).harts = s.harts ∧
    (s.apply (.lots d l)).xdies = s.xdies ∧ (s.apply (.lots d l)).resetAt = s.resetAt ∧
    (s.apply (.lots d l)).outbox = s.outbox := by
  and_intros <;> rfl

@[simp] theorem State.apply_slog (d) (i) (l) : (s.apply (.slog d i l)).slogs = s.slogs.put (d, i) l := rfl

@[simp] theorem State.apply_slog_others (d) (i) (l) :
    (s.apply (.slog d i l)).agenda = s.agenda ∧ (s.apply (.slog d i l)).focus = s.focus ∧
    (s.apply (.slog d i l)).cycle = s.cycle ∧ (s.apply (.slog d i l)).freeIx = s.freeIx ∧
    (s.apply (.slog d i l)).nextId = s.nextId ∧ (s.apply (.slog d i l)).fuses = s.fuses ∧
    (s.apply (.slog d i l)).wipes = s.wipes ∧ (s.apply (.slog d i l)).boots = s.boots ∧
    (s.apply (.slog d i l)).spdm = s.spdm ∧ (s.apply (.slog d i l)).firmware = s.firmware ∧
    (s.apply (.slog d i l)).mediaKey = s.mediaKey ∧ (s.apply (.slog d i l)).power = s.power ∧
    (s.apply (.slog d i l)).fieldLog = s.fieldLog ∧ (s.apply (.slog d i l)).flushedLog = s.flushedLog ∧
    (s.apply (.slog d i l)).lastFlush = s.lastFlush ∧ (s.apply (.slog d i l)).feat = s.feat ∧
    (s.apply (.slog d i l)).regs = s.regs ∧ (s.apply (.slog d i l)).mem = s.mem ∧
    (s.apply (.slog d i l)).eccBad = s.eccBad ∧ (s.apply (.slog d i l)).lanes = s.lanes ∧
    (s.apply (.slog d i l)).links = s.links ∧ (s.apply (.slog d i l)).cells = s.cells ∧
    (s.apply (.slog d i l)).nodes = s.nodes ∧ (s.apply (.slog d i l)).reqs = s.reqs ∧
    (s.apply (.slog d i l)).regions = s.regions ∧ (s.apply (.slog d i l)).launches = s.launches ∧
    (s.apply (.slog d i l)).dispatchers = s.dispatchers ∧ (s.apply (.slog d i l)).saves = s.saves ∧
    (s.apply (.slog d i l)).vault = s.vault ∧ (s.apply (.slog d i l)).epochs = s.epochs ∧
    (s.apply (.slog d i l)).lots = s.lots ∧ (s.apply (.slog d i l)).mtlbs = s.mtlbs ∧
    (s.apply (.slog d i l)).copies = s.copies ∧ (s.apply (.slog d i l)).harts = s.harts ∧
    (s.apply (.slog d i l)).xdies = s.xdies ∧ (s.apply (.slog d i l)).resetAt = s.resetAt ∧
    (s.apply (.slog d i l)).outbox = s.outbox := by
  and_intros <;> rfl

@[simp] theorem State.apply_mtlb (d) (o) (l) : (s.apply (.mtlb d o l)).mtlbs = s.mtlbs.put (d, o) l := rfl

@[simp] theorem State.apply_mtlb_others (d) (o) (l) :
    (s.apply (.mtlb d o l)).agenda = s.agenda ∧ (s.apply (.mtlb d o l)).focus = s.focus ∧
    (s.apply (.mtlb d o l)).cycle = s.cycle ∧ (s.apply (.mtlb d o l)).freeIx = s.freeIx ∧
    (s.apply (.mtlb d o l)).nextId = s.nextId ∧ (s.apply (.mtlb d o l)).fuses = s.fuses ∧
    (s.apply (.mtlb d o l)).wipes = s.wipes ∧ (s.apply (.mtlb d o l)).boots = s.boots ∧
    (s.apply (.mtlb d o l)).spdm = s.spdm ∧ (s.apply (.mtlb d o l)).firmware = s.firmware ∧
    (s.apply (.mtlb d o l)).mediaKey = s.mediaKey ∧ (s.apply (.mtlb d o l)).power = s.power ∧
    (s.apply (.mtlb d o l)).fieldLog = s.fieldLog ∧ (s.apply (.mtlb d o l)).flushedLog = s.flushedLog ∧
    (s.apply (.mtlb d o l)).lastFlush = s.lastFlush ∧ (s.apply (.mtlb d o l)).feat = s.feat ∧
    (s.apply (.mtlb d o l)).regs = s.regs ∧ (s.apply (.mtlb d o l)).mem = s.mem ∧
    (s.apply (.mtlb d o l)).eccBad = s.eccBad ∧ (s.apply (.mtlb d o l)).lanes = s.lanes ∧
    (s.apply (.mtlb d o l)).links = s.links ∧ (s.apply (.mtlb d o l)).cells = s.cells ∧
    (s.apply (.mtlb d o l)).nodes = s.nodes ∧ (s.apply (.mtlb d o l)).reqs = s.reqs ∧
    (s.apply (.mtlb d o l)).regions = s.regions ∧ (s.apply (.mtlb d o l)).launches = s.launches ∧
    (s.apply (.mtlb d o l)).dispatchers = s.dispatchers ∧ (s.apply (.mtlb d o l)).saves = s.saves ∧
    (s.apply (.mtlb d o l)).vault = s.vault ∧ (s.apply (.mtlb d o l)).epochs = s.epochs ∧
    (s.apply (.mtlb d o l)).lots = s.lots ∧ (s.apply (.mtlb d o l)).slogs = s.slogs ∧
    (s.apply (.mtlb d o l)).copies = s.copies ∧ (s.apply (.mtlb d o l)).harts = s.harts ∧
    (s.apply (.mtlb d o l)).xdies = s.xdies ∧ (s.apply (.mtlb d o l)).resetAt = s.resetAt ∧
    (s.apply (.mtlb d o l)).outbox = s.outbox := by
  and_intros <;> rfl

@[simp] theorem State.apply_copy (c) (v) : (s.apply (.copy c v)).copies = s.copies.put c v := rfl

@[simp] theorem State.apply_copy_others (c) (v) :
    (s.apply (.copy c v)).agenda = s.agenda ∧ (s.apply (.copy c v)).focus = s.focus ∧
    (s.apply (.copy c v)).cycle = s.cycle ∧ (s.apply (.copy c v)).freeIx = s.freeIx ∧
    (s.apply (.copy c v)).nextId = s.nextId ∧ (s.apply (.copy c v)).fuses = s.fuses ∧
    (s.apply (.copy c v)).wipes = s.wipes ∧ (s.apply (.copy c v)).boots = s.boots ∧
    (s.apply (.copy c v)).spdm = s.spdm ∧ (s.apply (.copy c v)).firmware = s.firmware ∧
    (s.apply (.copy c v)).mediaKey = s.mediaKey ∧ (s.apply (.copy c v)).power = s.power ∧
    (s.apply (.copy c v)).fieldLog = s.fieldLog ∧ (s.apply (.copy c v)).flushedLog = s.flushedLog ∧
    (s.apply (.copy c v)).lastFlush = s.lastFlush ∧ (s.apply (.copy c v)).feat = s.feat ∧
    (s.apply (.copy c v)).regs = s.regs ∧ (s.apply (.copy c v)).mem = s.mem ∧
    (s.apply (.copy c v)).eccBad = s.eccBad ∧ (s.apply (.copy c v)).lanes = s.lanes ∧
    (s.apply (.copy c v)).links = s.links ∧ (s.apply (.copy c v)).cells = s.cells ∧
    (s.apply (.copy c v)).nodes = s.nodes ∧ (s.apply (.copy c v)).reqs = s.reqs ∧
    (s.apply (.copy c v)).regions = s.regions ∧ (s.apply (.copy c v)).launches = s.launches ∧
    (s.apply (.copy c v)).dispatchers = s.dispatchers ∧ (s.apply (.copy c v)).saves = s.saves ∧
    (s.apply (.copy c v)).vault = s.vault ∧ (s.apply (.copy c v)).epochs = s.epochs ∧
    (s.apply (.copy c v)).lots = s.lots ∧ (s.apply (.copy c v)).slogs = s.slogs ∧
    (s.apply (.copy c v)).mtlbs = s.mtlbs ∧ (s.apply (.copy c v)).harts = s.harts ∧
    (s.apply (.copy c v)).xdies = s.xdies ∧ (s.apply (.copy c v)).resetAt = s.resetAt ∧
    (s.apply (.copy c v)).outbox = s.outbox := by
  and_intros <;> rfl

@[simp] theorem State.apply_hart (d) (n) (h) : (s.apply (.hart d n h)).harts = s.harts.put (d, n) h.proper := rfl

@[simp] theorem State.apply_hart_others (d) (n) (h) :
    (s.apply (.hart d n h)).agenda = s.agenda ∧ (s.apply (.hart d n h)).focus = s.focus ∧
    (s.apply (.hart d n h)).cycle = s.cycle ∧ (s.apply (.hart d n h)).freeIx = s.freeIx ∧
    (s.apply (.hart d n h)).nextId = s.nextId ∧ (s.apply (.hart d n h)).fuses = s.fuses ∧
    (s.apply (.hart d n h)).wipes = s.wipes ∧ (s.apply (.hart d n h)).boots = s.boots ∧
    (s.apply (.hart d n h)).spdm = s.spdm ∧ (s.apply (.hart d n h)).firmware = s.firmware ∧
    (s.apply (.hart d n h)).mediaKey = s.mediaKey ∧ (s.apply (.hart d n h)).power = s.power ∧
    (s.apply (.hart d n h)).fieldLog = s.fieldLog ∧ (s.apply (.hart d n h)).flushedLog = s.flushedLog ∧
    (s.apply (.hart d n h)).lastFlush = s.lastFlush ∧ (s.apply (.hart d n h)).feat = s.feat ∧
    (s.apply (.hart d n h)).regs = s.regs ∧ (s.apply (.hart d n h)).mem = s.mem ∧
    (s.apply (.hart d n h)).eccBad = s.eccBad ∧ (s.apply (.hart d n h)).lanes = s.lanes ∧
    (s.apply (.hart d n h)).links = s.links ∧ (s.apply (.hart d n h)).cells = s.cells ∧
    (s.apply (.hart d n h)).nodes = s.nodes ∧ (s.apply (.hart d n h)).reqs = s.reqs ∧
    (s.apply (.hart d n h)).regions = s.regions ∧ (s.apply (.hart d n h)).launches = s.launches ∧
    (s.apply (.hart d n h)).dispatchers = s.dispatchers ∧ (s.apply (.hart d n h)).saves = s.saves ∧
    (s.apply (.hart d n h)).vault = s.vault ∧ (s.apply (.hart d n h)).epochs = s.epochs ∧
    (s.apply (.hart d n h)).lots = s.lots ∧ (s.apply (.hart d n h)).slogs = s.slogs ∧
    (s.apply (.hart d n h)).mtlbs = s.mtlbs ∧ (s.apply (.hart d n h)).copies = s.copies ∧
    (s.apply (.hart d n h)).xdies = s.xdies ∧ (s.apply (.hart d n h)).resetAt = s.resetAt ∧
    (s.apply (.hart d n h)).outbox = s.outbox := by
  and_intros <;> rfl

@[simp] theorem State.apply_xdie (x) (v) : (s.apply (.xdie x v)).xdies = s.xdies.put x v := rfl

@[simp] theorem State.apply_xdie_others (x) (v) :
    (s.apply (.xdie x v)).agenda = s.agenda ∧ (s.apply (.xdie x v)).focus = s.focus ∧
    (s.apply (.xdie x v)).cycle = s.cycle ∧ (s.apply (.xdie x v)).freeIx = s.freeIx ∧
    (s.apply (.xdie x v)).nextId = s.nextId ∧ (s.apply (.xdie x v)).fuses = s.fuses ∧
    (s.apply (.xdie x v)).wipes = s.wipes ∧ (s.apply (.xdie x v)).boots = s.boots ∧
    (s.apply (.xdie x v)).spdm = s.spdm ∧ (s.apply (.xdie x v)).firmware = s.firmware ∧
    (s.apply (.xdie x v)).mediaKey = s.mediaKey ∧ (s.apply (.xdie x v)).power = s.power ∧
    (s.apply (.xdie x v)).fieldLog = s.fieldLog ∧ (s.apply (.xdie x v)).flushedLog = s.flushedLog ∧
    (s.apply (.xdie x v)).lastFlush = s.lastFlush ∧ (s.apply (.xdie x v)).feat = s.feat ∧
    (s.apply (.xdie x v)).regs = s.regs ∧ (s.apply (.xdie x v)).mem = s.mem ∧
    (s.apply (.xdie x v)).eccBad = s.eccBad ∧ (s.apply (.xdie x v)).lanes = s.lanes ∧
    (s.apply (.xdie x v)).links = s.links ∧ (s.apply (.xdie x v)).cells = s.cells ∧
    (s.apply (.xdie x v)).nodes = s.nodes ∧ (s.apply (.xdie x v)).reqs = s.reqs ∧
    (s.apply (.xdie x v)).regions = s.regions ∧ (s.apply (.xdie x v)).launches = s.launches ∧
    (s.apply (.xdie x v)).dispatchers = s.dispatchers ∧ (s.apply (.xdie x v)).saves = s.saves ∧
    (s.apply (.xdie x v)).vault = s.vault ∧ (s.apply (.xdie x v)).epochs = s.epochs ∧
    (s.apply (.xdie x v)).lots = s.lots ∧ (s.apply (.xdie x v)).slogs = s.slogs ∧
    (s.apply (.xdie x v)).mtlbs = s.mtlbs ∧ (s.apply (.xdie x v)).copies = s.copies ∧
    (s.apply (.xdie x v)).harts = s.harts ∧ (s.apply (.xdie x v)).resetAt = s.resetAt ∧
    (s.apply (.xdie x v)).outbox = s.outbox := by
  and_intros <;> rfl

@[simp] theorem State.apply_resetAt (d) (n) : (s.apply (.resetAt d n)).resetAt = s.resetAt.put d n := rfl

@[simp] theorem State.apply_resetAt_others (d) (n) :
    (s.apply (.resetAt d n)).agenda = s.agenda ∧ (s.apply (.resetAt d n)).focus = s.focus ∧
    (s.apply (.resetAt d n)).cycle = s.cycle ∧ (s.apply (.resetAt d n)).freeIx = s.freeIx ∧
    (s.apply (.resetAt d n)).nextId = s.nextId ∧ (s.apply (.resetAt d n)).fuses = s.fuses ∧
    (s.apply (.resetAt d n)).wipes = s.wipes ∧ (s.apply (.resetAt d n)).boots = s.boots ∧
    (s.apply (.resetAt d n)).spdm = s.spdm ∧ (s.apply (.resetAt d n)).firmware = s.firmware ∧
    (s.apply (.resetAt d n)).mediaKey = s.mediaKey ∧ (s.apply (.resetAt d n)).power = s.power ∧
    (s.apply (.resetAt d n)).fieldLog = s.fieldLog ∧ (s.apply (.resetAt d n)).flushedLog = s.flushedLog ∧
    (s.apply (.resetAt d n)).lastFlush = s.lastFlush ∧ (s.apply (.resetAt d n)).feat = s.feat ∧
    (s.apply (.resetAt d n)).regs = s.regs ∧ (s.apply (.resetAt d n)).mem = s.mem ∧
    (s.apply (.resetAt d n)).eccBad = s.eccBad ∧ (s.apply (.resetAt d n)).lanes = s.lanes ∧
    (s.apply (.resetAt d n)).links = s.links ∧ (s.apply (.resetAt d n)).cells = s.cells ∧
    (s.apply (.resetAt d n)).nodes = s.nodes ∧ (s.apply (.resetAt d n)).reqs = s.reqs ∧
    (s.apply (.resetAt d n)).regions = s.regions ∧ (s.apply (.resetAt d n)).launches = s.launches ∧
    (s.apply (.resetAt d n)).dispatchers = s.dispatchers ∧ (s.apply (.resetAt d n)).saves = s.saves ∧
    (s.apply (.resetAt d n)).vault = s.vault ∧ (s.apply (.resetAt d n)).epochs = s.epochs ∧
    (s.apply (.resetAt d n)).lots = s.lots ∧ (s.apply (.resetAt d n)).slogs = s.slogs ∧
    (s.apply (.resetAt d n)).mtlbs = s.mtlbs ∧ (s.apply (.resetAt d n)).copies = s.copies ∧
    (s.apply (.resetAt d n)).harts = s.harts ∧ (s.apply (.resetAt d n)).xdies = s.xdies ∧
    (s.apply (.resetAt d n)).outbox = s.outbox := by
  and_intros <;> rfl

@[simp] theorem State.apply_out (m) : (s.apply (.out m)).outbox = s.outbox ++ [m] := rfl

@[simp] theorem State.apply_out_others (m) :
    (s.apply (.out m)).agenda = s.agenda ∧ (s.apply (.out m)).focus = s.focus ∧ (s.apply (.out m)).cycle = s.cycle ∧
    (s.apply (.out m)).freeIx = s.freeIx ∧ (s.apply (.out m)).nextId = s.nextId ∧ (s.apply (.out m)).fuses = s.fuses ∧
    (s.apply (.out m)).wipes = s.wipes ∧ (s.apply (.out m)).boots = s.boots ∧ (s.apply (.out m)).spdm = s.spdm ∧
    (s.apply (.out m)).firmware = s.firmware ∧ (s.apply (.out m)).mediaKey = s.mediaKey ∧
    (s.apply (.out m)).power = s.power ∧ (s.apply (.out m)).fieldLog = s.fieldLog ∧
    (s.apply (.out m)).flushedLog = s.flushedLog ∧ (s.apply (.out m)).lastFlush = s.lastFlush ∧
    (s.apply (.out m)).feat = s.feat ∧ (s.apply (.out m)).regs = s.regs ∧ (s.apply (.out m)).mem = s.mem ∧
    (s.apply (.out m)).eccBad = s.eccBad ∧ (s.apply (.out m)).lanes = s.lanes ∧ (s.apply (.out m)).links = s.links ∧
    (s.apply (.out m)).cells = s.cells ∧ (s.apply (.out m)).nodes = s.nodes ∧ (s.apply (.out m)).reqs = s.reqs ∧
    (s.apply (.out m)).regions = s.regions ∧ (s.apply (.out m)).launches = s.launches ∧
    (s.apply (.out m)).dispatchers = s.dispatchers ∧ (s.apply (.out m)).saves = s.saves ∧
    (s.apply (.out m)).vault = s.vault ∧ (s.apply (.out m)).epochs = s.epochs ∧ (s.apply (.out m)).lots = s.lots ∧
    (s.apply (.out m)).slogs = s.slogs ∧ (s.apply (.out m)).mtlbs = s.mtlbs ∧ (s.apply (.out m)).copies = s.copies ∧
    (s.apply (.out m)).harts = s.harts ∧ (s.apply (.out m)).xdies = s.xdies ∧ (s.apply (.out m)).resetAt = s.resetAt := by
  and_intros <;> rfl

@[simp] theorem State.apply_burn (l) :
    (s.apply (.burn l)).fuses = if lcsNext s.fuses.lcs l then { s.fuses with lcs := l } else s.fuses := by
  simp only [State.apply]; split <;> rfl

@[simp] theorem State.apply_burn_others (l) :
    (s.apply (.burn l)).agenda = s.agenda ∧ (s.apply (.burn l)).focus = s.focus ∧
    (s.apply (.burn l)).cycle = s.cycle ∧ (s.apply (.burn l)).freeIx = s.freeIx ∧
    (s.apply (.burn l)).nextId = s.nextId ∧ (s.apply (.burn l)).wipes = s.wipes ∧
    (s.apply (.burn l)).boots = s.boots ∧ (s.apply (.burn l)).spdm = s.spdm ∧
    (s.apply (.burn l)).firmware = s.firmware ∧ (s.apply (.burn l)).mediaKey = s.mediaKey ∧
    (s.apply (.burn l)).power = s.power ∧ (s.apply (.burn l)).fieldLog = s.fieldLog ∧
    (s.apply (.burn l)).flushedLog = s.flushedLog ∧ (s.apply (.burn l)).lastFlush = s.lastFlush ∧
    (s.apply (.burn l)).feat = s.feat ∧ (s.apply (.burn l)).regs = s.regs ∧ (s.apply (.burn l)).mem = s.mem ∧
    (s.apply (.burn l)).eccBad = s.eccBad ∧ (s.apply (.burn l)).lanes = s.lanes ∧
    (s.apply (.burn l)).links = s.links ∧ (s.apply (.burn l)).cells = s.cells ∧ (s.apply (.burn l)).nodes = s.nodes ∧
    (s.apply (.burn l)).reqs = s.reqs ∧ (s.apply (.burn l)).regions = s.regions ∧
    (s.apply (.burn l)).launches = s.launches ∧ (s.apply (.burn l)).dispatchers = s.dispatchers ∧
    (s.apply (.burn l)).saves = s.saves ∧ (s.apply (.burn l)).vault = s.vault ∧
    (s.apply (.burn l)).epochs = s.epochs ∧ (s.apply (.burn l)).lots = s.lots ∧ (s.apply (.burn l)).slogs = s.slogs ∧
    (s.apply (.burn l)).mtlbs = s.mtlbs ∧ (s.apply (.burn l)).copies = s.copies ∧
    (s.apply (.burn l)).harts = s.harts ∧ (s.apply (.burn l)).xdies = s.xdies ∧
    (s.apply (.burn l)).resetAt = s.resetAt ∧ (s.apply (.burn l)).outbox = s.outbox := by
  simp only [State.apply]; split <;> and_intros <;> rfl

@[simp] theorem State.apply_flush_log (n) : (s.apply (.flush n)).flushedLog = s.fieldLog := rfl
@[simp] theorem State.apply_flush (n) : (s.apply (.flush n)).lastFlush = n := rfl

@[simp] theorem State.apply_flush_others (n) :
    (s.apply (.flush n)).agenda = s.agenda ∧ (s.apply (.flush n)).focus = s.focus ∧
    (s.apply (.flush n)).cycle = s.cycle ∧ (s.apply (.flush n)).freeIx = s.freeIx ∧
    (s.apply (.flush n)).nextId = s.nextId ∧ (s.apply (.flush n)).fuses = s.fuses ∧
    (s.apply (.flush n)).wipes = s.wipes ∧ (s.apply (.flush n)).boots = s.boots ∧ (s.apply (.flush n)).spdm = s.spdm ∧
    (s.apply (.flush n)).firmware = s.firmware ∧ (s.apply (.flush n)).mediaKey = s.mediaKey ∧
    (s.apply (.flush n)).power = s.power ∧ (s.apply (.flush n)).fieldLog = s.fieldLog ∧
    (s.apply (.flush n)).feat = s.feat ∧ (s.apply (.flush n)).regs = s.regs ∧ (s.apply (.flush n)).mem = s.mem ∧
    (s.apply (.flush n)).eccBad = s.eccBad ∧ (s.apply (.flush n)).lanes = s.lanes ∧
    (s.apply (.flush n)).links = s.links ∧ (s.apply (.flush n)).cells = s.cells ∧
    (s.apply (.flush n)).nodes = s.nodes ∧ (s.apply (.flush n)).reqs = s.reqs ∧
    (s.apply (.flush n)).regions = s.regions ∧ (s.apply (.flush n)).launches = s.launches ∧
    (s.apply (.flush n)).dispatchers = s.dispatchers ∧ (s.apply (.flush n)).saves = s.saves ∧
    (s.apply (.flush n)).vault = s.vault ∧ (s.apply (.flush n)).epochs = s.epochs ∧
    (s.apply (.flush n)).lots = s.lots ∧ (s.apply (.flush n)).slogs = s.slogs ∧ (s.apply (.flush n)).mtlbs = s.mtlbs ∧
    (s.apply (.flush n)).copies = s.copies ∧ (s.apply (.flush n)).harts = s.harts ∧
    (s.apply (.flush n)).xdies = s.xdies ∧ (s.apply (.flush n)).resetAt = s.resetAt ∧
    (s.apply (.flush n)).outbox = s.outbox := by
  and_intros <;> rfl

@[simp] theorem State.apply_region_some (h) (v) : (s.apply (.region h (some v))).regions = s.regions.put h v := rfl
@[simp] theorem State.apply_region_none (h) : (s.apply (.region h none)).regions = s.regions.erase h := rfl

@[simp] theorem State.apply_region_others (h) (v) :
    (s.apply (.region h v)).agenda = s.agenda ∧ (s.apply (.region h v)).focus = s.focus ∧
    (s.apply (.region h v)).cycle = s.cycle ∧ (s.apply (.region h v)).freeIx = s.freeIx ∧
    (s.apply (.region h v)).nextId = s.nextId ∧ (s.apply (.region h v)).fuses = s.fuses ∧
    (s.apply (.region h v)).wipes = s.wipes ∧ (s.apply (.region h v)).boots = s.boots ∧
    (s.apply (.region h v)).spdm = s.spdm ∧ (s.apply (.region h v)).firmware = s.firmware ∧
    (s.apply (.region h v)).mediaKey = s.mediaKey ∧ (s.apply (.region h v)).power = s.power ∧
    (s.apply (.region h v)).fieldLog = s.fieldLog ∧ (s.apply (.region h v)).flushedLog = s.flushedLog ∧
    (s.apply (.region h v)).lastFlush = s.lastFlush ∧ (s.apply (.region h v)).feat = s.feat ∧
    (s.apply (.region h v)).regs = s.regs ∧ (s.apply (.region h v)).mem = s.mem ∧
    (s.apply (.region h v)).eccBad = s.eccBad ∧ (s.apply (.region h v)).lanes = s.lanes ∧
    (s.apply (.region h v)).links = s.links ∧ (s.apply (.region h v)).cells = s.cells ∧
    (s.apply (.region h v)).nodes = s.nodes ∧ (s.apply (.region h v)).reqs = s.reqs ∧
    (s.apply (.region h v)).launches = s.launches ∧ (s.apply (.region h v)).dispatchers = s.dispatchers ∧
    (s.apply (.region h v)).saves = s.saves ∧ (s.apply (.region h v)).vault = s.vault ∧
    (s.apply (.region h v)).epochs = s.epochs ∧ (s.apply (.region h v)).lots = s.lots ∧
    (s.apply (.region h v)).slogs = s.slogs ∧ (s.apply (.region h v)).mtlbs = s.mtlbs ∧
    (s.apply (.region h v)).copies = s.copies ∧ (s.apply (.region h v)).harts = s.harts ∧
    (s.apply (.region h v)).xdies = s.xdies ∧ (s.apply (.region h v)).resetAt = s.resetAt ∧
    (s.apply (.region h v)).outbox = s.outbox := by
  and_intros <;> rfl

@[simp] theorem State.apply_launch_some (n) (v) : (s.apply (.launch n (some v))).launches = s.launches.put n v := rfl
@[simp] theorem State.apply_launch_none (n) : (s.apply (.launch n none)).launches = s.launches.erase n := rfl

@[simp] theorem State.apply_launch_others (n) (v) :
    (s.apply (.launch n v)).agenda = s.agenda ∧ (s.apply (.launch n v)).focus = s.focus ∧
    (s.apply (.launch n v)).cycle = s.cycle ∧ (s.apply (.launch n v)).freeIx = s.freeIx ∧
    (s.apply (.launch n v)).nextId = s.nextId ∧ (s.apply (.launch n v)).fuses = s.fuses ∧
    (s.apply (.launch n v)).wipes = s.wipes ∧ (s.apply (.launch n v)).boots = s.boots ∧
    (s.apply (.launch n v)).spdm = s.spdm ∧ (s.apply (.launch n v)).firmware = s.firmware ∧
    (s.apply (.launch n v)).mediaKey = s.mediaKey ∧ (s.apply (.launch n v)).power = s.power ∧
    (s.apply (.launch n v)).fieldLog = s.fieldLog ∧ (s.apply (.launch n v)).flushedLog = s.flushedLog ∧
    (s.apply (.launch n v)).lastFlush = s.lastFlush ∧ (s.apply (.launch n v)).feat = s.feat ∧
    (s.apply (.launch n v)).regs = s.regs ∧ (s.apply (.launch n v)).mem = s.mem ∧
    (s.apply (.launch n v)).eccBad = s.eccBad ∧ (s.apply (.launch n v)).lanes = s.lanes ∧
    (s.apply (.launch n v)).links = s.links ∧ (s.apply (.launch n v)).cells = s.cells ∧
    (s.apply (.launch n v)).nodes = s.nodes ∧ (s.apply (.launch n v)).reqs = s.reqs ∧
    (s.apply (.launch n v)).regions = s.regions ∧ (s.apply (.launch n v)).dispatchers = s.dispatchers ∧
    (s.apply (.launch n v)).saves = s.saves ∧ (s.apply (.launch n v)).vault = s.vault ∧
    (s.apply (.launch n v)).epochs = s.epochs ∧ (s.apply (.launch n v)).lots = s.lots ∧
    (s.apply (.launch n v)).slogs = s.slogs ∧ (s.apply (.launch n v)).mtlbs = s.mtlbs ∧
    (s.apply (.launch n v)).copies = s.copies ∧ (s.apply (.launch n v)).harts = s.harts ∧
    (s.apply (.launch n v)).xdies = s.xdies ∧ (s.apply (.launch n v)).resetAt = s.resetAt ∧
    (s.apply (.launch n v)).outbox = s.outbox := by
  and_intros <;> rfl

@[simp] theorem State.apply_save_some (l) (i) (v) : (s.apply (.save l i (some v))).saves = s.saves.put (l, i) v := rfl
@[simp] theorem State.apply_save_none (l) (i) : (s.apply (.save l i none)).saves = s.saves.erase (l, i) := rfl

@[simp] theorem State.apply_save_others (l) (i) (v) :
    (s.apply (.save l i v)).agenda = s.agenda ∧ (s.apply (.save l i v)).focus = s.focus ∧
    (s.apply (.save l i v)).cycle = s.cycle ∧ (s.apply (.save l i v)).freeIx = s.freeIx ∧
    (s.apply (.save l i v)).nextId = s.nextId ∧ (s.apply (.save l i v)).fuses = s.fuses ∧
    (s.apply (.save l i v)).wipes = s.wipes ∧ (s.apply (.save l i v)).boots = s.boots ∧
    (s.apply (.save l i v)).spdm = s.spdm ∧ (s.apply (.save l i v)).firmware = s.firmware ∧
    (s.apply (.save l i v)).mediaKey = s.mediaKey ∧ (s.apply (.save l i v)).power = s.power ∧
    (s.apply (.save l i v)).fieldLog = s.fieldLog ∧ (s.apply (.save l i v)).flushedLog = s.flushedLog ∧
    (s.apply (.save l i v)).lastFlush = s.lastFlush ∧ (s.apply (.save l i v)).feat = s.feat ∧
    (s.apply (.save l i v)).regs = s.regs ∧ (s.apply (.save l i v)).mem = s.mem ∧
    (s.apply (.save l i v)).eccBad = s.eccBad ∧ (s.apply (.save l i v)).lanes = s.lanes ∧
    (s.apply (.save l i v)).links = s.links ∧ (s.apply (.save l i v)).cells = s.cells ∧
    (s.apply (.save l i v)).nodes = s.nodes ∧ (s.apply (.save l i v)).reqs = s.reqs ∧
    (s.apply (.save l i v)).regions = s.regions ∧ (s.apply (.save l i v)).launches = s.launches ∧
    (s.apply (.save l i v)).dispatchers = s.dispatchers ∧ (s.apply (.save l i v)).vault = s.vault ∧
    (s.apply (.save l i v)).epochs = s.epochs ∧ (s.apply (.save l i v)).lots = s.lots ∧
    (s.apply (.save l i v)).slogs = s.slogs ∧ (s.apply (.save l i v)).mtlbs = s.mtlbs ∧
    (s.apply (.save l i v)).copies = s.copies ∧ (s.apply (.save l i v)).harts = s.harts ∧
    (s.apply (.save l i v)).xdies = s.xdies ∧ (s.apply (.save l i v)).resetAt = s.resetAt ∧
    (s.apply (.save l i v)).outbox = s.outbox := by
  and_intros <;> rfl

end Sys2Proof.Machine
end

