-- ==== Sys2Proof/Laws/Act.lean ====
section
/-!
SUPPORT. What each way of composing acts does to the state, and the meaning of `Act.next`.
-/
namespace Sys2Proof.Machine

variable (s : State)

@[simp] theorem Act.run_skip : Act.skip.run s = s := rfl
@[simp] theorem Act.run_emit (e : Effect) : (Act.emit e).run s = s.apply e := rfl
@[simp] theorem Act.run_seq (a b : Act) : (a.seq b).run s = b.run (a.run s) := rfl
@[simp] theorem Act.run_read (f : State → Act) : (Act.read f).run s = (f s).run s := rfl
@[simp] theorem Act.run_block_nil : (Act.block []).run s = s := rfl
@[simp] theorem Act.run_block_cons (a : Act) (r : List Act) : (Act.block (a :: r)).run s = (Act.block r).run (a.run s) :=
  rfl
@[simp] theorem Act.run_when_true (a : Act) : (Act.when true a).run s = a.run s := rfl
@[simp] theorem Act.run_when_false (a : Act) : (Act.when false a).run s = s := rfl
theorem Act.run_when (c : Bool) (a : Act) : (Act.when c a).run s = if c then a.run s else s := by
  cases c <;> rfl
@[simp] theorem Act.run_each_nil {α : Type} (f : α → Act) : (Act.each [] f).run s = s := rfl
@[simp] theorem Act.run_each_cons {α : Type} (x : α) (r : List α) (f : α → Act) :
    (Act.each (x :: r) f).run s = (Act.each r f).run ((f x).run s) := rfl

@[simp] theorem Act.run_onCell (c) (f) : (Act.onCell c f).run s = s.apply (.cell c (f (s.cells.get {} c))) := rfl
@[simp] theorem Act.run_onNode (c) (f) : (Act.onNode c f).run s = s.apply (.node c (f (s.nodes.get {} c))) := rfl
@[simp] theorem Act.run_onHart (d n) (f) : (Act.onHart d n f).run s = s.apply (.hart d n (f (s.harts.get {} (d, n)))) :=
  rfl
@[simp] theorem Act.run_onXDie (x) (f) : (Act.onXDie x f).run s = s.apply (.xdie x (f (s.xdies.get {} x))) := rfl
@[simp] theorem Act.run_onCopy (c) (f) : (Act.onCopy c f).run s = s.apply (.copy c (f (s.copies.get {} c))) := rfl
@[simp] theorem Act.run_onLane (l) (f) : (Act.onLane l f).run s = s.apply (.lane l (f (s.lanes.get {} l))) := rfl
@[simp] theorem Act.run_onLink (l) (f) : (Act.onLink l f).run s = s.apply (.link l (f (s.links.get {} l))) := rfl
@[simp] theorem Act.run_onDispatcher (d) (f) :
    (Act.onDispatcher d f).run s = s.apply (.dispatcher d (f (s.dispatchers.get {} d))) := rfl
@[simp] theorem Act.run_onReg (d) (r) (f) : (Act.onReg d r f).run s = s.apply (.reg d r (f (s.reg d r))) := rfl
@[simp] theorem Act.run_onReq (id) (f) :
    (Act.onReq id f).run s = s.apply (.reqs (s.reqs.map fun r => if r.id = id then f r else r)) := rfl

theorem Act.run_onRegion_some (h) (f) {r : Region} (hr : s.regions.get? h = some r) :
    (Act.onRegion h f).run s = s.apply (.region h (some (f r))) := by
  simp [Act.onRegion, hr]
theorem Act.run_onRegion_none (h) (f) (hr : s.regions.get? h = none) : (Act.onRegion h f).run s = s := by
  simp [Act.onRegion, hr]
theorem Act.run_onLaunch_some (n) (f) {l : Launch} (hl : s.launches.get? n = some l) :
    (Act.onLaunch n f).run s = s.apply (.launch n (some (f l))) := by
  simp [Act.onLaunch, hl]
theorem Act.run_onLaunch_none (n) (f) (hl : s.launches.get? n = none) : (Act.onLaunch n f).run s = s := by
  simp [Act.onLaunch, hl]

@[simp] theorem Act.run_fresh (f) : (Act.fresh f).run s = (f s.nextId).run (s.apply (.nextId (s.nextId + 1))) := rfl
@[simp] theorem Act.run_freeValue (f) :
    (Act.freeValue f).run s = (f (Config.freeDWord s.freeIx)).run (s.apply (.free (s.freeIx + 1))) := rfl
@[simp] theorem Act.run_storeBytes_nil (k : Nat) : (Act.storeBytes k []).run s = s := rfl
@[simp] theorem Act.run_storeBytes_none (k : Nat) (r) :
    (Act.storeBytes k (none :: r)).run s = (Act.storeBytes (k + 1) r).run s := rfl
@[simp] theorem Act.run_storeBytes_some (k : Nat) (b) (r) :
    (Act.storeBytes k (some b :: r)).run s = (Act.storeBytes (k + 1) r).run (s.apply (.mem k b)) := rfl

@[simp] theorem Act.next_eq (a : Act) : a.next s = .next (a.run s) := rfl

/-! ### A property that effects of a kind keep is kept by an act of such effects -/

/-- t comes from s by effects of the kind K. -/
inductive ReachesBy (K : Effect → Bool) (s : State) : State → Prop
  | refl : ReachesBy K s s
  | step {t : State} (e : Effect) (k : K e = true) : ReachesBy K s t → ReachesBy K s (t.apply e)

theorem ReachesBy.trans {K : Effect → Bool} {s t u : State} (a : ReachesBy K s t) (b : ReachesBy K t u) :
    ReachesBy K s u := by
  induction b with
  | refl => exact a
  | step e k _ ih => exact .step e k ih

theorem ReachesBy.keeps {K : Effect → Bool} {α : Type} {f : State → α} {s t : State} (h : ReachesBy K s t)
    (hk : ∀ (u : State) (e : Effect), K e = true → f (u.apply e) = f u) : f t = f s := by
  induction h with
  | refl => rfl
  | step e k _ ih => rw [hk _ e k, ih]

/-- The act performs effects of the kind K alone. -/
def Act.Only (K : Effect → Bool) (a : Act) : Prop := ∀ s, ReachesBy K s (a.run s)

variable {K : Effect → Bool}

theorem Act.Only.skip : Act.skip.Only K := fun _ => .refl
theorem Act.Only.emit {e : Effect} (h : K e = true) : (Act.emit e).Only K := fun _ => .step e h .refl
theorem Act.Only.seq {a b : Act} (ha : a.Only K) (hb : b.Only K) : (a.seq b).Only K :=
  fun s => (ha s).trans (hb _)
theorem Act.Only.read {f : State → Act} (h : ∀ s, (f s).Only K) : (Act.read f).Only K := fun s => h s s
theorem Act.Only.block_nil : (Act.block []).Only K := fun _ => .refl
theorem Act.Only.block_cons {a : Act} {r : List Act} (ha : a.Only K) (hr : (Act.block r).Only K) :
    (Act.block (a :: r)).Only K := fun s => (ha s).trans (hr _)
theorem Act.Only.when {c : Bool} {a : Act} (h : c = true → a.Only K) : (Act.when c a).Only K := by
  cases c
  · exact .skip
  · exact h rfl
theorem Act.Only.each {α : Type} {l : List α} {f : α → Act} (h : ∀ x ∈ l, (f x).Only K) : (Act.each l f).Only K := by
  induction l with
  | nil => exact .block_nil
  | cons x r ih =>
    exact .block_cons (h x List.mem_cons_self) (ih fun y hy => h y (List.mem_cons_of_mem _ hy))

theorem Act.Only.onRegion {h : Word} {f : Region → Region} (hk : ∀ r, K (.region h r) = true) :
    (Act.onRegion h f).Only K :=
  .read fun s => by
    cases s.regions.get? h with
    | none => exact .skip
    | some r => exact .emit (hk _)
theorem Act.Only.onLaunch {n : Nat} {f : Launch → Launch} (hk : ∀ l, K (.launch n l) = true) :
    (Act.onLaunch n f).Only K :=
  .read fun s => by
    cases s.launches.get? n with
    | none => exact .skip
    | some r => exact .emit (hk _)
theorem Act.Only.fresh {f : Nat → Act} (hk : ∀ n, K (.nextId n) = true) (h : ∀ n, (f n).Only K) :
    (Act.fresh f).Only K := .read fun _ => .seq (.emit (hk _)) (h _)
theorem Act.Only.freeValue {f : DWord → Act} (hk : ∀ n, K (.free n) = true) (h : ∀ n, (f n).Only K) :
    (Act.freeValue f).Only K := .read fun _ => .seq (.emit (hk _)) (h _)
theorem Act.Only.storeBytes (hk : ∀ k b, K (.mem k b) = true) (l : List (Option Byte)) :
    ∀ k, (Act.storeBytes k l).Only K := by
  induction l with
  | nil => exact fun _ => .skip
  | cons x r ih =>
    intro k
    cases x with
    | none => exact ih (k + 1)
    | some b => exact .seq (.emit (hk k b)) (ih (k + 1))

theorem Act.Only.keeps {a : Act} {α : Type} {f : State → α} (h : a.Only K)
    (hk : ∀ (u : State) (e : Effect), K e = true → f (u.apply e) = f u) (s : State) : f (a.run s) = f s :=
  (h s).keeps hk

end Sys2Proof.Machine
end

