-- ==== Sys2Proof/Laws/Store.lean ====
section
/-!
SUPPORT. Keyed storage: what a read gives after a write, and what an entry of a changed store is.
-/
namespace Sys2Proof.Machine

variable {K V : Type} [DecidableEq K]

@[simp] theorem Store.get?_nil (k : K) : Store.get? ([] : Store K V) k = none := rfl

@[simp] theorem Store.get_nil (d : V) (k : K) : Store.get ([] : Store K V) d k = d := rfl

theorem Store.get?_erase_same (s : Store K V) (k : K) : (s.erase k).get? k = none := by
  induction s with
  | nil => rfl
  | cons e r ih =>
    obtain ⟨k', v⟩ := e
    by_cases h : k' = k <;> simp [Store.erase, Store.get?, h, ih]

theorem Store.get?_erase_ne (s : Store K V) {k k' : K} (h : k' ≠ k) : (s.erase k).get? k' = s.get? k' := by
  induction s with
  | nil => rfl
  | cons e r ih =>
    obtain ⟨a, v⟩ := e
    by_cases ha : a = k
    · subst ha
      simp [Store.erase, Store.get?, ih, Ne.symm h]
    · by_cases hb : a = k' <;> simp [Store.erase, Store.get?, ha, hb, ih, h]

@[simp] theorem Store.get?_put_same (s : Store K V) (k : K) (v : V) : (s.put k v).get? k = some v := by
  simp [Store.put, Store.get?]

theorem Store.get?_put_ne (s : Store K V) {k k' : K} (v : V) (h : k' ≠ k) : (s.put k v).get? k' = s.get? k' := by
  simp [Store.put, Store.get?, Ne.symm h, Store.get?_erase_ne s h]

theorem Store.get?_put (s : Store K V) (k k' : K) (v : V) :
    (s.put k v).get? k' = if k' = k then some v else s.get? k' := by
  by_cases h : k' = k
  · subst h; simp
  · simp [h, Store.get?_put_ne s v h]

@[simp] theorem Store.get_put_same (s : Store K V) (d : V) (k : K) (v : V) : (s.put k v).get d k = v := by
  simp [Store.get]

theorem Store.get_put_ne (s : Store K V) (d : V) {k k' : K} (v : V) (h : k' ≠ k) :
    (s.put k v).get d k' = s.get d k' := by
  simp [Store.get, Store.get?_put_ne s v h]

theorem Store.get_put (s : Store K V) (d : V) (k k' : K) (v : V) :
    (s.put k v).get d k' = if k' = k then v else s.get d k' := by
  by_cases h : k' = k
  · subst h; simp
  · simp [h, Store.get_put_ne s d v h]

theorem Store.get_of_get? {s : Store K V} {k : K} {v : V} (d : V) (h : s.get? k = some v) : s.get d k = v := by
  simp [Store.get, h]

theorem Store.mem_erase {s : Store K V} {k : K} {e : K × V} (h : e ∈ s.erase k) : e ∈ s := by
  induction s with
  | nil => exact h
  | cons a r ih =>
    obtain ⟨a, v⟩ := a
    by_cases ha : a = k
    · simp only [Store.erase, ha, if_true] at h
      exact List.mem_cons_of_mem _ (ih h)
    · simp only [Store.erase, ha, if_false] at h
      rcases List.mem_cons.mp h with h | h
      · exact h ▸ List.mem_cons_self
      · exact List.mem_cons_of_mem _ (ih h)

theorem Store.mem_put {s : Store K V} {k : K} {v : V} {e : K × V} (h : e ∈ s.put k v) : e = (k, v) ∨ e ∈ s := by
  rcases List.mem_cons.mp h with h | h
  · exact .inl h
  · exact .inr (Store.mem_erase h)

theorem Store.get?_mem {s : Store K V} {k : K} {v : V} (h : s.get? k = some v) : (k, v) ∈ s := by
  induction s with
  | nil => cases h
  | cons e r ih =>
    obtain ⟨a, x⟩ := e
    by_cases ha : a = k
    · simp only [Store.get?, ha, if_true, Option.some.injEq] at h
      rw [ha, h]; exact List.mem_cons_self
    · simp only [Store.get?, ha, if_false] at h
      exact List.mem_cons_of_mem _ (ih h)

end Sys2Proof.Machine
end

