-- ==== Sys2Proof/Laws/Firing.lean ====
section
/-!
SUPPORT. What the shared pattern of a firing does: consumption, results, predicates, and what it leaves alone.
-/
namespace Sys2Proof.Machine

/-! ### Consumption -/

section
variable (c : Ce) (o : Opnd)

@[simp] theorem Ce.take_outs (x : Opnd) : (c.take o).outList x = c.outList x := by
  cases o <;> cases x <;> rfl
@[simp] theorem Ce.take_p : (c.take o).p = c.p := by cases o <;> rfl
@[simp] theorem Ce.take_slots : (c.take o).slots = c.slots := by cases o <;> rfl
@[simp] theorem Ce.take_w : (c.take o).w = c.w := by cases o <;> rfl
@[simp] theorem Ce.take_rlmode : (c.take o).rlmode = c.rlmode := by cases o <;> rfl
@[simp] theorem Ce.take_halted : (c.take o).halted = c.halted := by cases o <;> rfl
@[simp] theorem Ce.take_waits : (c.take o).waits = c.waits := by cases o <;> rfl
@[simp] theorem Ce.take_mmaBusy : (c.take o).mmaBusy = c.mmaBusy := by cases o <;> rfl
@[simp] theorem Ce.take_lastCtx : (c.take o).lastCtx = c.lastCtx := by cases o <;> rfl

theorem Ce.take_v (i : Fin 16) : (c.take o).v.get {} i.val =
    if o = .v i then { c.v.get {} i.val with pres := false } else c.v.get {} i.val := by
  cases o <;> simp [Ce.take, Ce.clearPres]
  rename_i j
  by_cases h : j = i
  · subst h; simp
  · have : i.val ≠ j.val := fun x => h (Fin.ext x.symm)
    simp [h, Store.get_put_ne _ _ _ this]

theorem Ce.take_s (i : Fin 16) : (c.take o).s.get {} i.val =
    if o = .s i then { c.s.get {} i.val with pres := false } else c.s.get {} i.val := by
  cases o <;> simp [Ce.take, Ce.clearPres]
  rename_i j
  by_cases h : j = i
  · subst h; simp
  · have : i.val ≠ j.val := fun x => h (Fin.ext x.symm)
    simp [h, Store.get_put_ne _ _ _ this]

theorem Ce.take_vi (i : Fin 4) : (c.take o).vi.get [] i.val =
    if o = .vi i then (c.vi.get [] i.val).tail else c.vi.get [] i.val := by
  cases o <;> simp [Ce.take, Ce.clearPres]
  rename_i j
  by_cases h : j = i
  · subst h; simp
  · have : i.val ≠ j.val := fun x => h (Fin.ext x.symm)
    simp [h, Store.get_put_ne _ _ _ this]

theorem Ce.take_si (i : Fin 4) : (c.take o).si.get [] i.val =
    if o = .si i then (c.si.get [] i.val).tail else c.si.get [] i.val := by
  cases o <;> simp [Ce.take, Ce.clearPres]
  rename_i j
  by_cases h : j = i
  · subst h; simp
  · have : i.val ≠ j.val := fun x => h (Fin.ext x.symm)
    simp [h, Store.get_put_ne _ _ _ this]

theorem Ce.take_ci (i : Fin 4) : (c.take o).ci.get [] i.val =
    if o = .ci i then (c.ci.get [] i.val).tail else c.ci.get [] i.val := by
  cases o <;> simp [Ce.take, Ce.clearPres]
  rename_i j
  by_cases h : j = i
  · subst h; simp
  · have : i.val ≠ j.val := fun x => h (Fin.ext x.symm)
    simp [h, Store.get_put_ne _ _ _ this]

end

/-- A property of the CE that taking an operand keeps, taking a list of them keeps. -/
theorem Ce.takeAll_keeps {α : Type} {f : Ce → α} (h : ∀ c o, f (Ce.take c o) = f c) (c : Ce) (l : List Opnd) :
    f (c.takeAll l) = f c := by
  induction l generalizing c with
  | nil => rfl
  | cons o r ih => exact (ih _).trans (h c o)

section
variable (c : Ce) (l : List Opnd)
@[simp] theorem Ce.takeAll_outs (x : Opnd) : (c.takeAll l).outList x = c.outList x :=
  Ce.takeAll_keeps (f := fun c => c.outList x) (fun c o => c.take_outs o x) c l
@[simp] theorem Ce.takeAll_p : (c.takeAll l).p = c.p := Ce.takeAll_keeps (f := Ce.p) Ce.take_p c l
@[simp] theorem Ce.takeAll_slots : (c.takeAll l).slots = c.slots := Ce.takeAll_keeps (f := Ce.slots) Ce.take_slots c l
@[simp] theorem Ce.takeAll_w : (c.takeAll l).w = c.w := Ce.takeAll_keeps (f := Ce.w) Ce.take_w c l
@[simp] theorem Ce.takeAll_rlmode : (c.takeAll l).rlmode = c.rlmode :=
  Ce.takeAll_keeps (f := Ce.rlmode) Ce.take_rlmode c l
@[simp] theorem Ce.takeAll_halted : (c.takeAll l).halted = c.halted :=
  Ce.takeAll_keeps (f := Ce.halted) Ce.take_halted c l
@[simp] theorem Ce.takeAll_waits : (c.takeAll l).waits = c.waits := Ce.takeAll_keeps (f := Ce.waits) Ce.take_waits c l
@[simp] theorem Ce.takeAll_mmaBusy : (c.takeAll l).mmaBusy = c.mmaBusy :=
  Ce.takeAll_keeps (f := Ce.mmaBusy) Ce.take_mmaBusy c l
@[simp] theorem Ce.takeAll_lastCtx : (c.takeAll l).lastCtx = c.lastCtx :=
  Ce.takeAll_keeps (f := Ce.lastCtx) Ce.take_lastCtx c l

theorem Ce.takeAll_v (i : Fin 16) : (c.takeAll l).v.get {} i.val =
    if .v i ∈ l then { c.v.get {} i.val with pres := false } else c.v.get {} i.val := by
  induction l generalizing c with
  | nil => simp [Ce.takeAll]
  | cons o r ih =>
    simp only [Ce.takeAll, ih, Ce.take_v]
    by_cases h : o = .v i
    · subst h; by_cases h' : Opnd.v i ∈ r <;> simp [h']
    · by_cases h' : Opnd.v i ∈ r <;> simp [h, h', Ne.symm h]

theorem Ce.takeAll_s (i : Fin 16) : (c.takeAll l).s.get {} i.val =
    if .s i ∈ l then { c.s.get {} i.val with pres := false } else c.s.get {} i.val := by
  induction l generalizing c with
  | nil => simp [Ce.takeAll]
  | cons o r ih =>
    simp only [Ce.takeAll, ih, Ce.take_s]
    by_cases h : o = .s i
    · subst h; by_cases h' : Opnd.s i ∈ r <;> simp [h']
    · by_cases h' : Opnd.s i ∈ r <;> simp [h, h', Ne.symm h]

theorem Ce.takeAll_vi (i : Fin 4) (hl : l.Nodup) : (c.takeAll l).vi.get [] i.val =
    if .vi i ∈ l then (c.vi.get [] i.val).tail else c.vi.get [] i.val := by
  induction l generalizing c with
  | nil => simp [Ce.takeAll]
  | cons o r ih =>
    have hl' := List.nodup_cons.mp hl
    simp only [Ce.takeAll, ih _ hl'.2, Ce.take_vi]
    by_cases h : o = .vi i
    · subst h; simp [hl'.1]
    · by_cases h' : Opnd.vi i ∈ r <;> simp [h, h', Ne.symm h]

theorem Ce.takeAll_si (i : Fin 4) (hl : l.Nodup) : (c.takeAll l).si.get [] i.val =
    if .si i ∈ l then (c.si.get [] i.val).tail else c.si.get [] i.val := by
  induction l generalizing c with
  | nil => simp [Ce.takeAll]
  | cons o r ih =>
    have hl' := List.nodup_cons.mp hl
    simp only [Ce.takeAll, ih _ hl'.2, Ce.take_si]
    by_cases h : o = .si i
    · subst h; simp [hl'.1]
    · by_cases h' : Opnd.si i ∈ r <;> simp [h, h', Ne.symm h]

theorem Ce.takeAll_ci (i : Fin 4) (hl : l.Nodup) : (c.takeAll l).ci.get [] i.val =
    if .ci i ∈ l then (c.ci.get [] i.val).tail else c.ci.get [] i.val := by
  induction l generalizing c with
  | nil => simp [Ce.takeAll]
  | cons o r ih =>
    have hl' := List.nodup_cons.mp hl
    simp only [Ce.takeAll, ih _ hl'.2, Ce.take_ci]
    by_cases h : o = .ci i
    · subst h; simp [hl'.1]
    · by_cases h' : Opnd.ci i ∈ r <;> simp [h, h', Ne.symm h]

end

theorem dedupOpnds_nodup (l : List Opnd) : (dedupOpnds l).Nodup := by
  induction l with
  | nil => exact List.nodup_nil
  | cons o r ih =>
    refine List.nodup_cons.mpr ⟨fun h => ?_, ih.filter _⟩
    have := List.of_mem_filter h
    simp at this

theorem consumesOf_nodup (w : CEWord) : (consumesOf w).Nodup := dedupOpnds_nodup _

/-- PRA names a register. -/
theorem dropsPra_reg (w : CEWord) {o : Opnd} (h : o ∈ dropsPra w) : (∃ i, o = .v i) ∨ ∃ i, o = .s i := by
  unfold dropsPra at h
  split at h
  · split at h
    · rcases List.mem_singleton.mp h with rfl
      unfold regOpnd
      split
      · exact .inr ⟨_, rfl⟩
      · exact .inl ⟨_, rfl⟩
    · cases h
  · cases h

theorem dropsPra_nodup (w : CEWord) : (dropsPra w).Nodup := by
  unfold dropsPra
  split
  · split
    · exact List.nodup_singleton _
    · exact List.nodup_nil
  · exact List.nodup_nil

section
variable (c : Ce) (w : CEWord)
@[simp] theorem Ce.consume_outs (x : Opnd) : (c.consume w).outList x = c.outList x := by simp [Ce.consume]
@[simp] theorem Ce.consume_p : (c.consume w).p = c.p := by simp [Ce.consume]
@[simp] theorem Ce.consume_slots : (c.consume w).slots = c.slots := by simp [Ce.consume]
@[simp] theorem Ce.consume_w : (c.consume w).w = c.w := by simp [Ce.consume]
@[simp] theorem Ce.consume_rlmode : (c.consume w).rlmode = c.rlmode := by simp [Ce.consume]
@[simp] theorem Ce.consume_halted : (c.consume w).halted = c.halted := by simp [Ce.consume]
@[simp] theorem Ce.consume_waits : (c.consume w).waits = c.waits := by simp [Ce.consume]
@[simp] theorem Ce.consume_mmaBusy : (c.consume w).mmaBusy = c.mmaBusy := by simp [Ce.consume]

theorem Ce.consume_v (i : Fin 16) : (c.consume w).v.get {} i.val =
    if .v i ∈ dropsOf w then { c.v.get {} i.val with pres := false } else c.v.get {} i.val := by
  simp only [Ce.consume, Ce.takeAll_v, dropsOf, List.mem_append]
  by_cases h : Opnd.v i ∈ consumesOf w <;> by_cases h' : Opnd.v i ∈ dropsPra w <;> simp [h, h']

theorem Ce.consume_s (i : Fin 16) : (c.consume w).s.get {} i.val =
    if .s i ∈ dropsOf w then { c.s.get {} i.val with pres := false } else c.s.get {} i.val := by
  simp only [Ce.consume, Ce.takeAll_s, dropsOf, List.mem_append]
  by_cases h : Opnd.s i ∈ consumesOf w <;> by_cases h' : Opnd.s i ∈ dropsPra w <;> simp [h, h']

theorem Ce.consume_vi (i : Fin 4) : (c.consume w).vi.get [] i.val =
    if .vi i ∈ consumesOf w then (c.vi.get [] i.val).tail else c.vi.get [] i.val := by
  have : Opnd.vi i ∉ dropsPra w := fun h => by rcases dropsPra_reg w h with ⟨_, h⟩ | ⟨_, h⟩ <;> cases h
  rw [Ce.consume, Ce.takeAll_vi _ _ _ (dropsPra_nodup w), if_neg this, Ce.takeAll_vi _ _ _ (consumesOf_nodup w)]

theorem Ce.consume_si (i : Fin 4) : (c.consume w).si.get [] i.val =
    if .si i ∈ consumesOf w then (c.si.get [] i.val).tail else c.si.get [] i.val := by
  have : Opnd.si i ∉ dropsPra w := fun h => by rcases dropsPra_reg w h with ⟨_, h⟩ | ⟨_, h⟩ <;> cases h
  rw [Ce.consume, Ce.takeAll_si _ _ _ (dropsPra_nodup w), if_neg this, Ce.takeAll_si _ _ _ (consumesOf_nodup w)]

theorem Ce.consume_ci (i : Fin 4) : (c.consume w).ci.get [] i.val =
    if .ci i ∈ consumesOf w then (c.ci.get [] i.val).tail else c.ci.get [] i.val := by
  have : Opnd.ci i ∉ dropsPra w := fun h => by rcases dropsPra_reg w h with ⟨_, h⟩ | ⟨_, h⟩ <;> cases h
  rw [Ce.consume, Ce.takeAll_ci _ _ _ (dropsPra_nodup w), if_neg this, Ce.takeAll_ci _ _ _ (consumesOf_nodup w)]

end

/-! ### Outputs -/

/-- The fields of a CE that pushing an output entry leaves alone. -/
structure Ce.SameBut (c c' : Ce) : Prop where
  v : c'.v = c.v
  s : c'.s = c.s
  p : c'.p = c.p
  vi : c'.vi = c.vi
  si : c'.si = c.si
  ci : c'.ci = c.ci
  slots : c'.slots = c.slots
  w : c'.w = c.w
  rlmode : c'.rlmode = c.rlmode
  halted : c'.halted = c.halted
  waits : c'.waits = c.waits

theorem Ce.SameBut.rfl {c : Ce} : Ce.SameBut c c := by constructor <;> exact Eq.refl _

theorem Ce.SameBut.trans {a b c : Ce} (h : Ce.SameBut a b) (k : Ce.SameBut b c) : Ce.SameBut a c where
  v := k.v.trans h.v
  s := k.s.trans h.s
  p := k.p.trans h.p
  vi := k.vi.trans h.vi
  si := k.si.trans h.si
  ci := k.ci.trans h.ci
  slots := k.slots.trans h.slots
  w := k.w.trans h.w
  rlmode := k.rlmode.trans h.rlmode
  halted := k.halted.trans h.halted
  waits := k.waits.trans h.waits

theorem Ce.pushOut_same (c : Ce) (o : Opnd) (x : OutEnt) : c.SameBut (c.pushOut o x) := by
  cases o <;> constructor <;> rfl

theorem Ce.pushOut_outs_ne (c : Ce) {o o' : Opnd} (x : OutEnt) (h : o' ≠ o) :
    (c.pushOut o x).outList o' = c.outList o' := by
  cases o <;> cases o' <;> try rfl
  all_goals
    rename_i i j
    have : j.val ≠ i.val := fun e => h (by rw [Fin.ext e])
    simp [Ce.pushOut, Ce.outList, Store.get_put_ne _ _ _ this]

/-- An output channel proper. -/
def isOutput : Opnd → Bool
  | .vo _ | .so _ | .co _ => true
  | _ => false

theorem Ce.pushOut_outs (c : Ce) {o : Opnd} (x : OutEnt) (h : isOutput o = true) :
    (c.pushOut o x).outList o = c.outList o ++ [x] := by
  cases o <;> simp [isOutput] at h <;> simp [Ce.pushOut, Ce.outList]

theorem outsOf_isOut {d o : Opnd} (h : o ∈ outsOf d) : isOutput o = true := by
  cases d <;> simp [outsOf] at h <;> (try subst h; rfl)
  all_goals (rcases h with rfl | rfl <;> rfl)

theorem outsOf_nodup (d : Opnd) : (outsOf d).Nodup := by
  cases d <;> simp [outsOf]

/-- One entry pushed to each output of a list. -/
theorem Ce.pushAll_spec (f : Opnd → OutEnt) (l : List Opnd) (hl : l.Nodup) (ho : ∀ o ∈ l, isOutput o = true) (c : Ce) :
    c.SameBut (l.foldl (fun c o => c.pushOut o (f o)) c) ∧
    (∀ o ∈ l, (l.foldl (fun c o => c.pushOut o (f o)) c).outList o = c.outList o ++ [f o]) ∧
    ∀ o, o ∉ l → (l.foldl (fun c o => c.pushOut o (f o)) c).outList o = c.outList o := by
  induction l generalizing c with
  | nil => exact ⟨.rfl, fun _ h => (nomatch h), fun _ _ => rfl⟩
  | cons a r ih =>
    have hl' := List.nodup_cons.mp hl
    obtain ⟨h1, h2, h3⟩ := ih hl'.2 (fun o h => ho o (List.mem_cons_of_mem _ h)) (c.pushOut a (f a))
    refine ⟨(Ce.pushOut_same c a _).trans h1, fun o h => ?_, fun o h => ?_⟩
    · rcases List.mem_cons.mp h with rfl | h
      · rw [List.foldl_cons, h3 _ hl'.1, Ce.pushOut_outs _ _ (ho _ List.mem_cons_self)]
      · have : o ≠ a := fun e => hl'.1 (e ▸ h)
        rw [List.foldl_cons, h2 _ h, Ce.pushOut_outs_ne _ _ this]
    · have hne : o ≠ a := fun e => h (e ▸ List.mem_cons_self)
      rw [List.foldl_cons, h3 _ (fun x => h (List.mem_cons_of_mem _ x)), Ce.pushOut_outs_ne _ _ hne]

end Sys2Proof.Machine
end

