-- ==== Sys2Proof/Laws/Result.lean ====
section
/-!
SUPPORT. What a firing that completes leaves: its result delivered, its operands consumed, everything else kept.
-/
namespace Sys2Proof.Machine

theorem setBits_bit {n : Nat} (x : BitVec n) (k j v : Nat) (hj : j < n) :
    (setBits x k 1 v).getLsbD j = if j = k then decide (v % 2 = 1) else x.getLsbD j := by
  have hp : ∀ k, (BitVec.ofNat n (2 ^ k)).getLsbD j = decide (j = k) := fun k => by
    rw [BitVec.getLsbD_ofNat, Nat.testBit_two_pow]
    simp [hj, eq_comm]
  have h1 : (BitVec.ofNat n ((2 ^ 1 - 1) * 2 ^ k)).getLsbD j = decide (j = k) := by
    rw [← hp k]; congr 2; omega
  have h2 : (BitVec.ofNat n (v % 2 ^ 1 * 2 ^ k)).getLsbD j = (decide (v % 2 = 1) && decide (j = k)) := by
    rcases Nat.mod_two_eq_zero_or_one v with h | h
    · simp [h]
    · rw [Nat.pow_one, h, Nat.one_mul, hp]; simp
  unfold setBits
  rw [BitVec.getLsbD_or, BitVec.getLsbD_and, BitVec.getLsbD_not, h1, h2]
  by_cases h : j = k <;> simp [h, hj]

section
variable (c : Ce) (w : CEWord) (r : Bool)
@[simp] theorem Ce.setPred_v : (c.setPred w r).v = c.v := by unfold Ce.setPred; split <;> rfl
@[simp] theorem Ce.setPred_s : (c.setPred w r).s = c.s := by unfold Ce.setPred; split <;> rfl
@[simp] theorem Ce.setPred_vi : (c.setPred w r).vi = c.vi := by unfold Ce.setPred; split <;> rfl
@[simp] theorem Ce.setPred_si : (c.setPred w r).si = c.si := by unfold Ce.setPred; split <;> rfl
@[simp] theorem Ce.setPred_ci : (c.setPred w r).ci = c.ci := by unfold Ce.setPred; split <;> rfl
@[simp] theorem Ce.setPred_vo : (c.setPred w r).vo = c.vo := by unfold Ce.setPred; split <;> rfl
@[simp] theorem Ce.setPred_so : (c.setPred w r).so = c.so := by unfold Ce.setPred; split <;> rfl
@[simp] theorem Ce.setPred_co : (c.setPred w r).co = c.co := by unfold Ce.setPred; split <;> rfl
@[simp] theorem Ce.setPred_slots : (c.setPred w r).slots = c.slots := by unfold Ce.setPred; split <;> rfl
@[simp] theorem Ce.setPred_w : (c.setPred w r).w = c.w := by unfold Ce.setPred; split <;> rfl
@[simp] theorem Ce.setPred_rlmode : (c.setPred w r).rlmode = c.rlmode := by unfold Ce.setPred; split <;> rfl
@[simp] theorem Ce.setPred_halted : (c.setPred w r).halted = c.halted := by unfold Ce.setPred; split <;> rfl
@[simp] theorem Ce.setPred_waits : (c.setPred w r).waits = c.waits := by unfold Ce.setPred; split <;> rfl
@[simp] theorem Ce.setPred_outs (o : Opnd) : (c.setPred w r).outList o = c.outList o := by
  unfold Ce.setPred; split <;> cases o <;> rfl

theorem Ce.setPred_bit (j : Nat) (hj : j < 8) : (c.setPred w r).p.getLsbD j =
    if w.pset = true ∧ j = w.pdst.toNat then r else c.p.getLsbD j := by
  unfold Ce.setPred
  by_cases h : w.pset = true
  · simp only [h, if_true, true_and]
    rw [setBits_bit _ _ _ _ hj]
    cases r <;> simp
  · simp [h]
end

/-- The fields that a write of a result leaves alone. -/
structure Ce.WriteKeeps (c c' : Ce) : Prop where
  vi : c'.vi = c.vi
  si : c'.si = c.si
  ci : c'.ci = c.ci
  slots : c'.slots = c.slots
  w : c'.w = c.w
  rlmode : c'.rlmode = c.rlmode
  halted : c'.halted = c.halted
  waits : c'.waits = c.waits

theorem Ce.SameBut.writeKeeps {c c' : Ce} (h : c.SameBut c') : c.WriteKeeps c' :=
  ⟨h.vi, h.si, h.ci, h.slots, h.w, h.rlmode, h.halted, h.waits⟩

section
variable (c : Ce) (dst : Opnd) (t : Stamp) (x : Val)

theorem Ce.write_keeps : c.WriteKeeps (c.write dst t x) := by
  have ho := (Ce.pushAll_spec (fun o => .filled { body := bodyFor o t.fmt x, ctx := t.ctx, ver := verFor o t.ver, since := t.now })
    (outsOf dst) (outsOf_nodup dst) (fun _ h => outsOf_isOut h) c).1.writeKeeps
  cases dst <;> first | exact ho | (constructor <;> rfl)

theorem Ce.write_v_same {i : Fin 16} (h : dst = .v i) : (c.write dst t x).v.get {} i.val =
    { val := x.spreadTo t.fmt, ver := t.ver, pres := true, lot := t.own, since := t.now } := by
  subst h; cases x <;> simp [Ce.write, Val.spreadTo]

theorem Ce.write_v_ne {i : Fin 16} (h : dst ≠ .v i) : (c.write dst t x).v.get {} i.val = c.v.get {} i.val := by
  have ho := (Ce.pushAll_spec (fun o => .filled { body := bodyFor o t.fmt x, ctx := t.ctx, ver := verFor o t.ver, since := t.now })
    (outsOf dst) (outsOf_nodup dst) (fun _ h => outsOf_isOut h) c).1.v
  cases dst <;> first | (show Store.get (Ce.v _) {} i.val = _; exact congrArg (fun z => Store.get z {} i.val) ho) | skip
  rename_i j
  have : i.val ≠ j.val := fun e => h (by rw [Fin.ext e])
  simp [Ce.write, Store.get_put_ne _ _ _ this]

theorem Ce.write_s_same {i : Fin 16} (h : dst = .s i) : (c.write dst t x).s.get {} i.val =
    { val := x.word, ver := t.ver, pres := true, lot := t.own, since := t.now } := by
  subst h; simp [Ce.write]

theorem Ce.write_s_ne {i : Fin 16} (h : dst ≠ .s i) : (c.write dst t x).s.get {} i.val = c.s.get {} i.val := by
  have ho := (Ce.pushAll_spec (fun o => .filled { body := bodyFor o t.fmt x, ctx := t.ctx, ver := verFor o t.ver, since := t.now })
    (outsOf dst) (outsOf_nodup dst) (fun _ h => outsOf_isOut h) c).1.s
  cases dst <;> first | (show Store.get (Ce.s _) {} i.val = _; exact congrArg (fun z => Store.get z {} i.val) ho) | skip
  rename_i j
  have : i.val ≠ j.val := fun e => h (by rw [Fin.ext e])
  simp [Ce.write, Store.get_put_ne _ _ _ this]

theorem Ce.write_p_same {i : Fin 8} (h : dst = .p i) : (c.write dst t x).p.getLsbD i.val = (x.word != 0) := by
  subst h
  simp only [Ce.write]
  rw [setBits_bit _ _ _ _ i.isLt]
  by_cases hx : x.word = 0
  · simp [hx]
  · rw [if_neg hx, if_pos rfl]
    exact (bne_iff_ne.mpr hx).symm

theorem Ce.write_p_ne {k : Fin 8} (h : dst ≠ .p k) : (c.write dst t x).p.getLsbD k.val = c.p.getLsbD k.val := by
  have ho := (Ce.pushAll_spec (fun o => .filled { body := bodyFor o t.fmt x, ctx := t.ctx, ver := verFor o t.ver, since := t.now })
    (outsOf dst) (outsOf_nodup dst) (fun _ h => outsOf_isOut h) c).1.p
  cases dst <;> first | (show (Ce.p _).getLsbD k.val = _; exact congrArg (fun z => BitVec.getLsbD z k.val) ho) | skip
  rename_i j
  have : k.val ≠ j.val := fun e => h (by rw [Fin.ext e])
  simp only [Ce.write]
  rw [setBits_bit _ _ _ _ k.isLt]
  simp [this]

theorem Ce.write_outs {o : Opnd} (h : o ∈ outsOf dst) : (c.write dst t x).outList o = c.outList o ++
    [.filled { body := bodyFor o t.fmt x, ctx := t.ctx, ver := verFor o t.ver, since := t.now }] := by
  have ho := (Ce.pushAll_spec (fun o => .filled { body := bodyFor o t.fmt x, ctx := t.ctx, ver := verFor o t.ver, since := t.now })
    (outsOf dst) (outsOf_nodup dst) (fun _ h => outsOf_isOut h) c).2.1 o h
  cases dst <;> exact ho

theorem Ce.write_outs_ne {o : Opnd} (h : o ∉ outsOf dst) : (c.write dst t x).outList o = c.outList o := by
  have ho := (Ce.pushAll_spec (fun o => .filled { body := bodyFor o t.fmt x, ctx := t.ctx, ver := verFor o t.ver, since := t.now })
    (outsOf dst) (outsOf_nodup dst) (fun _ h => outsOf_isOut h) c).2.2 o h
  cases dst <;> exact ho

end

/-- The CE that a completing firing writes: consumption, the result, the predicate result. -/
def Ce.result (c : Ce) (w : CEWord) (t : Stamp) (r : Res) : Ce := ((c.consume w).write w.dst t r.val).setPred w r.pred

section
variable (c : Ce) (w : CEWord) (t : Stamp) (r : Res)

theorem Ce.result_delivered : Delivered c (c.result w t r) w t r.val where
  v i h := by simp only [Ce.result, Ce.setPred_v]; exact Ce.write_v_same _ _ _ _ h
  s i h := by simp only [Ce.result, Ce.setPred_s]; exact Ce.write_s_same _ _ _ _ h
  p i h hp := by
    rw [Ce.result, Ce.setPred_bit _ _ _ _ i.isLt, if_neg fun x => hp x.1 x.2.symm]
    exact Ce.write_p_same _ _ _ _ h
  outs o h := by rw [Ce.result, Ce.setPred_outs, Ce.write_outs _ _ _ _ h, Ce.consume_outs]

theorem Ce.result_consumed : Consumed c (c.result w t r) w where
  vi i h := by
    simp only [Ce.result, Ce.setPred_vi, (Ce.write_keeps _ _ _ _).vi]
    rw [Ce.consume_vi, if_pos h]
  si i h := by
    simp only [Ce.result, Ce.setPred_si, (Ce.write_keeps _ _ _ _).si]
    rw [Ce.consume_si, if_pos h]
  ci i h := by
    simp only [Ce.result, Ce.setPred_ci, (Ce.write_keeps _ _ _ _).ci]
    rw [Ce.consume_ci, if_pos h]
  v i h hd := by
    simp only [Ce.result, Ce.setPred_v]
    rw [Ce.write_v_ne _ _ _ _ hd, Ce.consume_v, if_pos h]
  s i h hd := by
    simp only [Ce.result, Ce.setPred_s]
    rw [Ce.write_s_ne _ _ _ _ hd, Ce.consume_s, if_pos h]

theorem Ce.result_pset (h : w.pset = true) : (c.result w t r).p.getLsbD w.pdst.toNat = r.pred := by
  rw [Ce.result, Ce.setPred_bit _ _ _ _ w.pdst.isLt, if_pos ⟨h, rfl⟩]

theorem Ce.result_kept : CeKept c (c.result w t r) w where
  v i h hd := by
    simp only [Ce.result, Ce.setPred_v]
    rw [Ce.write_v_ne _ _ _ _ h, Ce.consume_v, if_neg hd]
  s i h hd := by
    simp only [Ce.result, Ce.setPred_s]
    rw [Ce.write_s_ne _ _ _ _ h, Ce.consume_s, if_neg hd]
  vi i h := by
    simp only [Ce.result, Ce.setPred_vi, (Ce.write_keeps _ _ _ _).vi]
    rw [Ce.consume_vi, if_neg h]
  si i h := by
    simp only [Ce.result, Ce.setPred_si, (Ce.write_keeps _ _ _ _).si]
    rw [Ce.consume_si, if_neg h]
  ci i h := by
    simp only [Ce.result, Ce.setPred_ci, (Ce.write_keeps _ _ _ _).ci]
    rw [Ce.consume_ci, if_neg h]
  outs o h := by rw [Ce.result, Ce.setPred_outs, Ce.write_outs_ne _ _ _ _ h, Ce.consume_outs]
  p k h hp := by
    rw [Ce.result, Ce.setPred_bit _ _ _ _ k.isLt, if_neg fun x => hp x.1 x.2.symm, Ce.write_p_ne _ _ _ _ h,
      Ce.consume_p]
  slots := by simp [Ce.result, (Ce.write_keeps _ _ _ _).slots]
  weights := by simp [Ce.result, (Ce.write_keeps _ _ _ _).w]
  rlmode := by simp [Ce.result, (Ce.write_keeps _ _ _ _).rlmode]
  halted := by simp [Ce.result, (Ce.write_keeps _ _ _ _).halted]
  waits := by simp [Ce.result, (Ce.write_keeps _ _ _ _).waits]

end

/-! ### The state after a firing -/

theorem findSpot_get? {c : CellId} {l : Store Word Region} {sp : Spot} (h : findSpot c l = some sp) :
    (l.get? sp.h).isSome = true := by
  induction l with
  | nil => cases h
  | cons e r ih =>
    obtain ⟨k, v⟩ := e
    unfold findSpot at h
    split at h
    · cases h; simp [Store.get?]
    · have := ih h
      by_cases hk : k = sp.h
      · simp [Store.get?, hk]
      · simp [Store.get?, hk, this]

/-- Where the focus stands. -/
theorem State.env_spec {s : State} {e : Env} (h : s.env = some e) :
    e.s = s ∧ e.c = s.cells.get {} e.id ∧ (s.regions.get? e.spot.h).isSome = true := by
  unfold State.env at h
  split at h
  · rename_i id slot
    unfold State.envAt at h
    split at h
    · cases h
    · rename_i sp hsp
      cases h
      exact ⟨rfl, rfl, findSpot_get? hsp⟩
  · cases h

/-- A firing of an enabled slot whose sources read is its body. -/
theorem fire_next {s : State} {i : Instr} {w : CEWord} {e : Env} {a b c : Src} (h : Fires s i w e a b c)
    (body : Env → Src → Src → Src → Act) : fire i w body s = .next ((body e a b c).run s) := by
  unfold fire
  simp only [h.env, h.enabled, if_true, h.sa, h.sb, h.sc]
  rfl

theorem firePass_next {s : State} {i : Instr} {w : CEWord} {e : Env} {a b c : Src} (h : FiresData s i w e a b c)
    (body : Env → Src → Src → Src → Act) : firePass i w body s = .next ((body e a b c).run s) := by
  unfold firePass
  rw [fire_next h.toFires]
  simp only [h.data]

theorem firePass_mark {s : State} {i : Instr} {w : CEWord} {e : Env} {a b c : Src} (h : Fires s i w e a b c)
    {m : Marker} (hm : markOf [a, b, c] = some m) (body : Env → Src → Src → Src → Act) :
    firePass i w body s = .next ((e.passes w [a, b, c] m).run s) := by
  unfold firePass
  rw [fire_next h]
  simp only [hm]

theorem fireRes_next {s : State} {i : Instr} {w : CEWord} {e : Env} {a b c : Src} (h : FiresData s i w e a b c)
    (f : Env → Val → Val → Val → Res) :
    fireRes i w f s = .next ((e.yields w [a, b, c] (f e a.val b.val c.val)).run s) := firePass_next h _

section
variable {s : State} {e : Env} (h : s.env = some e) (f : Ce → Ce)
include h

/-- A completing firing writes its CE and nothing else but the marks of a firing. -/
theorem Env.done_ceIn : ∃ k, e.ceIn ((e.done f).run s) = { f e.c.ce with lastCtx := k } := by
  obtain ⟨_, hc, hr⟩ := State.env_spec h
  refine ⟨e.ctx, ?_⟩
  obtain ⟨r, hr⟩ := Option.isSome_iff_exists.mp hr
  simp only [Env.done, Act.run_block_cons, Act.run_block_nil, Act.run_onCell, Act.fired, Env.ceIn]
  rw [Act.run_onRegion_some (r := r)]
  · simp [hc]
  · simp [hr]

theorem Env.done_only : OnlyFires s ((e.done f).run s) e := by
  obtain ⟨hs, hc, hr⟩ := State.env_spec h
  obtain ⟨r, hr⟩ := Option.isSome_iff_exists.mp hr
  have key : (e.done f).run s =
      (((s.apply (.cell e.id { s.cells.get {} e.id with ce := f (s.cells.get {} e.id).ce })).apply
        (.cell e.id { s.cells.get {} e.id with
          ce := { f (s.cells.get {} e.id).ce with lastCtx := e.ctx }, busy := e.s.cycle })).apply
        (.region e.spot.h (some (if e.suppress.isSome then
          { r with lastActive := e.s.cycle, stepover := false, fault := none, pendingFault := false }
        else { r with lastActive := e.s.cycle })))) := by
    simp only [Env.done, Act.run_block_cons, Act.run_block_nil, Act.run_onCell, Act.fired]
    rw [Act.run_onRegion_some (r := r)]
    · simp
    · simp [hr]
  rw [key]
  refine { rest := ?_, cells := ?_, me := ?_, sw := ?_, regions := ?_, region := ?_ }
  · simp [State.apply]
  · intro c hne
    simp [Store.get_put_ne _ _ _ hne]
  · simp
  · intro k hne
    simp [Store.get?_put_ne _ _ hne]
  · intro hn
    simp [hn, hr, hs]
  · simp

end

theorem Env.yields_ceIn {s : State} {e : Env} (h : s.env = some e) (w : CEWord) (srcs : List Src) (r : Res) :
    ∃ k, e.ceIn ((e.yields w srcs r).run s) = { e.c.ce.result w (e.stamp w (verOf srcs)) r with lastCtx := k } :=
  Env.done_ceIn h _

/-- Delivered, consumed and kept do not see which context fired last. -/
theorem Delivered.last {c c' : Ce} {w : CEWord} {t : Stamp} {x : Val} {k : Nat} (h : Delivered c c' w t x) :
    Delivered c { c' with lastCtx := k } w t x :=
  ⟨h.v, h.s, h.p, fun o ho => by
    have := h.outs o ho
    have e : Ce.outList { c' with lastCtx := k } o = c'.outList o := by cases o <;> rfl
    rw [e, this]⟩

theorem Consumed.last {c c' : Ce} {w : CEWord} {k : Nat} (h : Consumed c c' w) :
    Consumed c { c' with lastCtx := k } w := ⟨h.vi, h.si, h.ci, h.v, h.s⟩

theorem CeKept.last {c c' : Ce} {w : CEWord} {k : Nat} (h : CeKept c c' w) :
    CeKept c { c' with lastCtx := k } w :=
  ⟨h.v, h.s, h.vi, h.si, h.ci, fun o ho => by
    have := h.outs o ho
    have e : Ce.outList { c' with lastCtx := k } o = c'.outList o := by cases o <;> rfl
    rw [e, this], h.p, h.slots, h.weights, h.rlmode, h.halted, h.waits⟩

theorem Env.yields_spec {s : State} {e : Env} (h : s.env = some e) (w : CEWord) (srcs : List Src) (r : Res) :
    Yields ((e.yields w srcs r).run s) e w srcs r ∧ CeKept e.c.ce (e.ceIn ((e.yields w srcs r).run s)) w ∧
      OnlyFires s ((e.yields w srcs r).run s) e := by
  obtain ⟨k, hk⟩ := Env.yields_ceIn h w srcs r
  refine ⟨⟨?_, ?_, ?_⟩, ?_, Env.done_only h _⟩
  · rw [hk]; exact (Ce.result_delivered _ _ _ _).last
  · rw [hk]; exact (Ce.result_consumed _ _ _ _).last
  · intro hp; rw [hk]; exact Ce.result_pset _ _ _ _ hp
  · rw [hk]; exact (Ce.result_kept _ _ _ _).last

end Sys2Proof.Machine
end

