-- ==== Sys2Proof/Laws/Alu.lean ====
section
/-!
SUPPORT. Packed elements and lanes read back, the results of the shared computations element by element, and a
precise fault of a firing.
-/
namespace Sys2Proof.Machine

theorem packElems_get (w : Nat) (l : List Nat) (i : Nat) (h : i < l.length) :
    packElems w l / 2 ^ (w * i) % 2 ^ w = l[i] % 2 ^ w := by
  induction l generalizing i with
  | nil => simp at h
  | cons x r ih =>
    cases i with
    | zero => simp [packElems, Nat.add_mul_mod_self_left]
    | succ n =>
      have hn : n < r.length := Nat.lt_of_succ_lt_succ h
      have h1 : packElems w (x :: r) / 2 ^ w = packElems w r := by
        have : x % 2 ^ w < 2 ^ w := Nat.mod_lt _ (Nat.two_pow_pos _)
        show (x % 2 ^ w + 2 ^ w * packElems w r) / 2 ^ w = _
        rw [Nat.add_mul_div_left _ _ (Nat.two_pow_pos _), Nat.div_eq_of_lt this, Nat.zero_add]
      rw [Nat.mul_succ, Nat.pow_add, Nat.mul_comm (2 ^ (w * n)), ← Nat.div_div_eq_div_mul, h1]
      exact ih n hn

theorem packElems_lt (w : Nat) (l : List Nat) : packElems w l < 2 ^ (w * l.length) := by
  induction l with
  | nil => simp [packElems]
  | cons x r ih =>
    have : x % 2 ^ w < 2 ^ w := Nat.mod_lt _ (Nat.two_pow_pos _)
    simp only [packElems, List.length_cons, Nat.mul_succ]
    rw [Nat.add_comm (w * r.length), Nat.pow_add]
    calc x % 2 ^ w + 2 ^ w * packElems w r < 2 ^ w + 2 ^ w * packElems w r := by omega
      _ = 2 ^ w * (packElems w r + 1) := by ring
      _ ≤ _ := Nat.mul_le_mul_left _ ih

theorem lane_eq (v : VecVal) (i : Nat) : v.lane i = BitVec.ofNat 32 (v.data.toNat / 2 ^ (32 * i)) := by
  apply BitVec.eq_of_toNat_eq
  simp [VecVal.lane, Nat.shiftRight_eq_div_pow]

theorem lanesVec_lane (f : Nat → Word) (m : BitVec 16) (fmt : Fmt) (sb : DWord) (i : Nat) (hi : i < 16) :
    (lanesVec f m fmt sb).lane i = if m.getLsbD i then f i else 0 := by
  rw [lane_eq]
  apply BitVec.eq_of_toNat_eq
  have hl := packElems_lt 32 ((List.range 16).map fun i => if m.getLsbD i then (f i).toNat else 0)
  have hg := packElems_get 32 ((List.range 16).map fun i => if m.getLsbD i then (f i).toNat else 0) i (by simpa using hi)
  simp only [List.length_map, List.length_range] at hl
  simp only [lanesVec, BitVec.toNat_ofNat]
  rw [Nat.mod_eq_of_lt (a := packElems _ _) hl, hg]
  by_cases h : m.getLsbD i = true
  · simp [h]; exact (f i).isLt
  · simp [h]

theorem intRes_spec (w : CEWord) (fmt) (sb) (a b c : Val) (f) (p) :
    LaneResult w fmt sb a b c f p (intRes (isVector w) fmt sb a b c f p) where
  scal h := by simp [intRes, h]
  vec h := by
    refine ⟨lanesVec (fun i => f (a.lane i) (b.lane i) (c.lane i)) (a.mask &&& b.mask &&& c.mask) fmt sb, ?_,
      rfl, rfl, rfl, ?_, ?_⟩
    · simp [intRes, h]
    · intro i hi
      rw [lanesVec_lane _ _ _ _ _ hi]
      rfl
    · simp [intRes, h, lanesVec]

theorem Env.fault_freezesWith {s e} (h : s.env = some e) (w f) (hp : s.policyOf e.spot.r 0 ≠ polShut) :
    FreezesWith s ((e.fault w f).run s) e f := by
  obtain ⟨hs, hc, hr⟩ := State.env_spec h
  obtain ⟨r, hr⟩ := Option.isSome_iff_exists.mp hr
  unfold Env.fault
  rw [hs]
  simp only [hp, if_false, Act.freezeFrom, Act.run_read]
  rw [Act.run_onRegion_some _ _ _ hr]
  constructor
  · simp [State.apply]
  · intro k hk
    simp [Store.get?_put_ne _ _ hk]
  · refine ⟨r, _, hr, by simp; rfl, rfl, by simp, rfl, rfl⟩

theorem Env.fault_freezes {s e} (h : s.env = some e) (w code) (hp : s.policyOf e.spot.r 0 ≠ polShut) :
    Freezes s ((e.fault w (e.faultRec code)).run s) e code := Env.fault_freezesWith h w _ hp

end Sys2Proof.Machine
end

