-- ==== Sys2Proof/Laws/Encoding.lean ====
section
/-!
SUPPORT. Each field of an encoded word reads back as it was put in, one lemma per field (R259, R276).
-/
namespace Sys2Proof
open BitVec

theorem flag_eq {n : Nat} (w : BitVec n) (i : Nat) : flag w i = (w.extractLsb' i 1).getLsbD 0 := by simp [flag]

theorem bitOf_bit (b : Bool) : (bitOf b).getLsbD 0 = b := by cases b <;> rfl

section
variable (f : CEWord) (opc : BitVec 9)

theorem CEWord.bits_ctx : (f.bits opc).extractLsb' 124 3 = f.ctx := by
  unfold CEWord.bits
  repeat first
    | rw [extractLsb'_append_eq_of_le (by decide)]
    | rw [extractLsb'_append_eq_of_add_le (by decide)]
  exact extractLsb'_eq_self

theorem CEWord.bits_vreq : (f.bits opc).extractLsb' 120 4 = f.vreq := by
  unfold CEWord.bits
  repeat first
    | rw [extractLsb'_append_eq_of_le (by decide)]
    | rw [extractLsb'_append_eq_of_add_le (by decide)]
  exact extractLsb'_eq_self

theorem CEWord.bits_sreq : (f.bits opc).extractLsb' 116 4 = f.sreq := by
  unfold CEWord.bits
  repeat first
    | rw [extractLsb'_append_eq_of_le (by decide)]
    | rw [extractLsb'_append_eq_of_add_le (by decide)]
  exact extractLsb'_eq_self

theorem CEWord.bits_creq : (f.bits opc).extractLsb' 112 4 = f.creq := by
  unfold CEWord.bits
  repeat first
    | rw [extractLsb'_append_eq_of_le (by decide)]
    | rw [extractLsb'_append_eq_of_add_le (by decide)]
  exact extractLsb'_eq_self

theorem CEWord.bits_mksel : (f.bits opc).extractLsb' 110 2 = f.mkt.sel := by
  unfold CEWord.bits
  repeat first
    | rw [extractLsb'_append_eq_of_le (by decide)]
    | rw [extractLsb'_append_eq_of_add_le (by decide)]
  exact extractLsb'_eq_self

theorem CEWord.bits_mkval : (f.bits opc).extractLsb' 108 2 = f.mkt.val := by
  unfold CEWord.bits
  repeat first
    | rw [extractLsb'_append_eq_of_le (by decide)]
    | rw [extractLsb'_append_eq_of_add_le (by decide)]
  exact extractLsb'_eq_self

theorem CEWord.bits_pra : (f.bits opc).extractLsb' 103 5 = f.prt.pra := by
  unfold CEWord.bits
  repeat first
    | rw [extractLsb'_append_eq_of_le (by decide)]
    | rw [extractLsb'_append_eq_of_add_le (by decide)]
  exact extractLsb'_eq_self

theorem CEWord.bits_prb : (f.bits opc).extractLsb' 98 5 = f.prt.prb := by
  unfold CEWord.bits
  repeat first
    | rw [extractLsb'_append_eq_of_le (by decide)]
    | rw [extractLsb'_append_eq_of_add_le (by decide)]
  exact extractLsb'_eq_self

theorem CEWord.bits_prmode : (f.bits opc).extractLsb' 96 2 = f.prt.mode := by
  unfold CEWord.bits
  repeat first
    | rw [extractLsb'_append_eq_of_le (by decide)]
    | rw [extractLsb'_append_eq_of_add_le (by decide)]
  exact extractLsb'_eq_self

theorem CEWord.bits_pmask : (f.bits opc).extractLsb' 88 8 = f.pmask := by
  unfold CEWord.bits
  repeat first
    | rw [extractLsb'_append_eq_of_le (by decide)]
    | rw [extractLsb'_append_eq_of_add_le (by decide)]
  exact extractLsb'_eq_self

theorem CEWord.bits_pval : (f.bits opc).extractLsb' 80 8 = f.pval := by
  unfold CEWord.bits
  repeat first
    | rw [extractLsb'_append_eq_of_le (by decide)]
    | rw [extractLsb'_append_eq_of_add_le (by decide)]
  exact extractLsb'_eq_self

theorem CEWord.bits_opc : (f.bits opc).extractLsb' 71 9 = opc := by
  unfold CEWord.bits
  repeat first
    | rw [extractLsb'_append_eq_of_le (by decide)]
    | rw [extractLsb'_append_eq_of_add_le (by decide)]
  exact extractLsb'_eq_self

theorem CEWord.bits_dst : (f.bits opc).extractLsb' 65 6 = f.dst.code := by
  unfold CEWord.bits
  repeat first
    | rw [extractLsb'_append_eq_of_le (by decide)]
    | rw [extractLsb'_append_eq_of_add_le (by decide)]
  exact extractLsb'_eq_self

theorem CEWord.bits_sa : (f.bits opc).extractLsb' 59 6 = f.sa.code := by
  unfold CEWord.bits
  repeat first
    | rw [extractLsb'_append_eq_of_le (by decide)]
    | rw [extractLsb'_append_eq_of_add_le (by decide)]
  exact extractLsb'_eq_self

theorem CEWord.bits_sb : (f.bits opc).extractLsb' 53 6 = f.sb.code := by
  unfold CEWord.bits
  repeat first
    | rw [extractLsb'_append_eq_of_le (by decide)]
    | rw [extractLsb'_append_eq_of_add_le (by decide)]
  exact extractLsb'_eq_self

theorem CEWord.bits_sc : (f.bits opc).extractLsb' 47 6 = f.sc.code := by
  unfold CEWord.bits
  repeat first
    | rw [extractLsb'_append_eq_of_le (by decide)]
    | rw [extractLsb'_append_eq_of_add_le (by decide)]
  exact extractLsb'_eq_self

theorem CEWord.bits_deqA : (f.bits opc).extractLsb' 46 1 = bitOf f.deqA := by
  unfold CEWord.bits
  repeat first
    | rw [extractLsb'_append_eq_of_le (by decide)]
    | rw [extractLsb'_append_eq_of_add_le (by decide)]
  exact extractLsb'_eq_self

theorem CEWord.bits_deqB : (f.bits opc).extractLsb' 45 1 = bitOf f.deqB := by
  unfold CEWord.bits
  repeat first
    | rw [extractLsb'_append_eq_of_le (by decide)]
    | rw [extractLsb'_append_eq_of_add_le (by decide)]
  exact extractLsb'_eq_self

theorem CEWord.bits_deqC : (f.bits opc).extractLsb' 44 1 = bitOf f.deqC := by
  unfold CEWord.bits
  repeat first
    | rw [extractLsb'_append_eq_of_le (by decide)]
    | rw [extractLsb'_append_eq_of_add_le (by decide)]
  exact extractLsb'_eq_self

theorem CEWord.bits_deqP : (f.bits opc).extractLsb' 43 1 = bitOf f.deqP := by
  unfold CEWord.bits
  repeat first
    | rw [extractLsb'_append_eq_of_le (by decide)]
    | rw [extractLsb'_append_eq_of_add_le (by decide)]
  exact extractLsb'_eq_self

theorem CEWord.bits_fmt : (f.bits opc).extractLsb' 40 3 = f.fmt.code := by
  unfold CEWord.bits
  repeat first
    | rw [extractLsb'_append_eq_of_le (by decide)]
    | rw [extractLsb'_append_eq_of_add_le (by decide)]
  exact extractLsb'_eq_self

theorem CEWord.bits_rnd : (f.bits opc).extractLsb' 38 2 = f.rnd.code := by
  unfold CEWord.bits
  repeat first
    | rw [extractLsb'_append_eq_of_le (by decide)]
    | rw [extractLsb'_append_eq_of_add_le (by decide)]
  exact extractLsb'_eq_self

theorem CEWord.bits_sat : (f.bits opc).extractLsb' 37 1 = bitOf f.sat := by
  unfold CEWord.bits
  repeat first
    | rw [extractLsb'_append_eq_of_le (by decide)]
    | rw [extractLsb'_append_eq_of_add_le (by decide)]
  exact extractLsb'_eq_self

theorem CEWord.bits_pset : (f.bits opc).extractLsb' 36 1 = bitOf f.pset := by
  unfold CEWord.bits
  repeat first
    | rw [extractLsb'_append_eq_of_le (by decide)]
    | rw [extractLsb'_append_eq_of_add_le (by decide)]
  exact extractLsb'_eq_self

theorem CEWord.bits_pdst : (f.bits opc).extractLsb' 33 3 = f.pdst := by
  unfold CEWord.bits
  repeat first
    | rw [extractLsb'_append_eq_of_le (by decide)]
    | rw [extractLsb'_append_eq_of_add_le (by decide)]
  exact extractLsb'_eq_self

theorem CEWord.bits_octx : (f.bits opc).extractLsb' 32 1 = bitOf f.octx := by
  unfold CEWord.bits
  repeat first
    | rw [extractLsb'_append_eq_of_le (by decide)]
    | rw [extractLsb'_append_eq_of_add_le (by decide)]
  exact extractLsb'_eq_self

theorem CEWord.bits_imm : (f.bits opc).extractLsb' 0 32 = f.imm := by
  unfold CEWord.bits
  repeat first
    | rw [extractLsb'_append_eq_of_le (by decide)]
    | rw [extractLsb'_append_eq_of_add_le (by decide)]
  exact extractLsb'_eq_self

theorem CEWord.bits_en : (f.bits opc).extractLsb' 127 1 = 1#1 := by
  unfold CEWord.bits
  repeat first
    | rw [extractLsb'_append_eq_of_le (by decide)]
    | rw [extractLsb'_append_eq_of_add_le (by decide)]
  exact extractLsb'_eq_self

end

section
variable (f7 : BitVec 7) (rs2 rs1 : Reg) (f3 : BitVec 3) (rd : Reg) (opc : BitVec 7)

theorem rType_f7 : (rType f7 rs2 rs1 f3 rd opc).extractLsb' 25 7 = f7 := by
  unfold rType
  repeat first
    | rw [extractLsb'_append_eq_of_le (by decide)]
    | rw [extractLsb'_append_eq_of_add_le (by decide)]
  exact extractLsb'_eq_self

theorem rType_rs2 : (rType f7 rs2 rs1 f3 rd opc).extractLsb' 20 5 = rs2 := by
  unfold rType
  repeat first
    | rw [extractLsb'_append_eq_of_le (by decide)]
    | rw [extractLsb'_append_eq_of_add_le (by decide)]
  exact extractLsb'_eq_self

theorem rType_rs1 : (rType f7 rs2 rs1 f3 rd opc).extractLsb' 15 5 = rs1 := by
  unfold rType
  repeat first
    | rw [extractLsb'_append_eq_of_le (by decide)]
    | rw [extractLsb'_append_eq_of_add_le (by decide)]
  exact extractLsb'_eq_self

theorem rType_f3 : (rType f7 rs2 rs1 f3 rd opc).extractLsb' 12 3 = f3 := by
  unfold rType
  repeat first
    | rw [extractLsb'_append_eq_of_le (by decide)]
    | rw [extractLsb'_append_eq_of_add_le (by decide)]
  exact extractLsb'_eq_self

theorem rType_rd : (rType f7 rs2 rs1 f3 rd opc).extractLsb' 7 5 = rd := by
  unfold rType
  repeat first
    | rw [extractLsb'_append_eq_of_le (by decide)]
    | rw [extractLsb'_append_eq_of_add_le (by decide)]
  exact extractLsb'_eq_self

theorem rType_opc : (rType f7 rs2 rs1 f3 rd opc).extractLsb' 0 7 = opc := by
  unfold rType
  repeat first
    | rw [extractLsb'_append_eq_of_le (by decide)]
    | rw [extractLsb'_append_eq_of_add_le (by decide)]
  exact extractLsb'_eq_self

theorem rType_scope : (rType f7 rs2 rs1 f3 rd opc).extractLsb' 25 3 = f7.extractLsb' 0 3 := by
  unfold rType
  repeat first
    | rw [extractLsb'_append_eq_of_le (by decide)]
    | rw [extractLsb'_append_eq_of_add_le (by decide)]

theorem rType_wide : (rType f7 rs2 rs1 f3 rd opc).extractLsb' 28 1 = f7.extractLsb' 3 1 := by
  unfold rType
  repeat first
    | rw [extractLsb'_append_eq_of_le (by decide)]
    | rw [extractLsb'_append_eq_of_add_le (by decide)]

theorem rType_top3 : (rType f7 rs2 rs1 f3 rd opc).extractLsb' 29 3 = f7.extractLsb' 4 3 := by
  unfold rType
  repeat first
    | rw [extractLsb'_append_eq_of_le (by decide)]
    | rw [extractLsb'_append_eq_of_add_le (by decide)]

theorem rType_top2 : (rType f7 rs2 rs1 f3 rd opc).extractLsb' 30 2 = f7.extractLsb' 5 2 := by
  unfold rType
  repeat first
    | rw [extractLsb'_append_eq_of_le (by decide)]
    | rw [extractLsb'_append_eq_of_add_le (by decide)]

theorem rType_order : (rType f7 rs2 rs1 f3 rd opc).extractLsb' 28 2 = f7.extractLsb' 3 2 := by
  unfold rType
  repeat first
    | rw [extractLsb'_append_eq_of_le (by decide)]
    | rw [extractLsb'_append_eq_of_add_le (by decide)]

end

end Sys2Proof
end

