-- ==== Sys2Proof/Laws/Hart.lean ====
section
/-!
SUPPORT. A hart's registers written and read, what the completion of its instructions does, and the parts of a vector
access.
-/
namespace Sys2Proof.Machine

variable (s : State) (h : Hart)

@[simp] theorem Hart.readX_zero : h.readX 0 = 0 := rfl
@[simp] theorem Hart.writeX_zero (v : DWord) : h.writeX 0 v = h := rfl
@[simp] theorem Hart.writeX_pc (r : Reg) (v : DWord) : (h.writeX r v).pc = h.pc := by unfold Hart.writeX; split <;> rfl
@[simp] theorem Hart.writeX_f (r : Reg) (v : DWord) : (h.writeX r v).f = h.f := by unfold Hart.writeX; split <;> rfl
@[simp] theorem Hart.writeX_csr (r : Reg) (v : DWord) : (h.writeX r v).csr = h.csr := by unfold Hart.writeX; split <;> rfl
@[simp] theorem Hart.writeF_f (r : Reg) (v : DWord) : (h.writeF r v).f = h.f.put r.toNat v := rfl
@[simp] theorem Hart.writeF_x (r : Reg) (v : DWord) : (h.writeF r v).x = h.x := rfl
@[simp] theorem Hart.writeF_pc (r : Reg) (v : DWord) : (h.writeF r v).pc = h.pc := rfl

/-- An instruction completes: one hart changes, in rd, its wait and its pc. -/
@[simp] theorem Act.run_retireLen (len : DWord) (d n : Nat) (rd : Reg) (v : DWord) :
    (Act.retireLen len d n rd v).run s =
      s.apply (.hart d n { (s.harts.get {} (d, n)).writeX rd v with pc := (s.harts.get {} (d, n)).pc + len, wait := none }) :=
  rfl

/-- A floating-point load completes: one hart changes, in f[rd], mstatus.FS, its wait and its pc. -/
@[simp] theorem Act.run_retireF (len : DWord) (d n : Nat) (rd : Reg) (size : Nat) (v : DWord) :
    (Act.retireF len d n rd size v).run s =
      s.apply (.hart d n
        { (s.harts.get {} (d, n)).writeF rd (if size = 4 then v ||| bitsMask 63 32 else v) with
          pc := (s.harts.get {} (d, n)).pc + len, wait := none }) :=
  rfl

/-- Without a part named, all that is left of an access is performed. -/
@[simp] theorem Req.unit_none (q : Req) (op : MemOp) : q.unit op none = none := by
  unfold Req.unit; split <;> rfl

/-- Only a cell's 64-byte access has parts (R222). -/
theorem Req.unit_short (q : Req) (op : MemOp) (part : Option Nat) (h : op.size ≠ 64) : q.unit op part = none := by
  simp [Req.unit, h]

end Sys2Proof.Machine
end

