-- ==== Sys2Proof/Laws/Memory.lean ====
section
/-!
SUPPORT. Memory: a write is read back, leaves every other byte alone, and keeps the canonical form.
-/
namespace Sys2Proof.Machine

theorem Memory.wfFrom_weaken {lo : Option Nat} {l : Nat} {m : Memory} (h : Memory.wfFrom (some l) m = true)
    (hl : ∀ x, lo = some x → x ≤ l) : Memory.wfFrom lo m = true := by
  cases m with
  | nil => rfl
  | cons e r =>
    obtain ⟨k, b⟩ := e
    simp only [Memory.wfFrom, Bool.and_eq_true, decide_eq_true_eq] at h ⊢
    refine ⟨⟨?_, h.1.2⟩, h.2⟩
    cases lo with
    | none => rfl
    | some x => exact decide_eq_true (Nat.lt_of_le_of_lt (hl x rfl) h.1.1)

/-- Nothing is listed at or below the bound. -/
theorem Memory.read_below {l k : Nat} {m : Memory} (h : Memory.wfFrom (some l) m = true) (hk : k ≤ l) :
    m.read k = Memory.unlisted k := by
  cases m with
  | nil => rfl
  | cons e r =>
    obtain ⟨a, b⟩ := e
    simp only [Memory.wfFrom, Bool.and_eq_true, decide_eq_true_eq] at h
    have : k < a := Nat.lt_of_le_of_lt hk h.1.1
    simp [Memory.read, this, Nat.ne_of_gt this]

theorem Memory.wfFrom_write {lo : Option Nat} {m : Memory} (k : Nat) (b : Byte) (h : Memory.wfFrom lo m = true)
    (hk : ∀ x, lo = some x → x < k) : Memory.wfFrom lo (m.write k b) = true := by
  induction m generalizing lo with
  | nil =>
    by_cases hb : b = Memory.unlisted k
    · simp [Memory.write, hb, Memory.wfFrom]
    · cases lo with
      | none => simp [Memory.write, hb, Memory.wfFrom]
      | some x => simp [Memory.write, hb, Memory.wfFrom, hk x rfl]
  | cons e r ih =>
    obtain ⟨a, c⟩ := e
    have h' := h
    simp only [Memory.wfFrom, Bool.and_eq_true] at h'
    simp only [Memory.write]
    split
    · rename_i hak
      subst hak
      split
      · refine Memory.wfFrom_weaken h'.2 fun x hx => ?_
        exact Nat.le_of_lt (hk x hx)
      · rename_i hb
        simp only [Memory.wfFrom, Bool.and_eq_true]
        exact ⟨⟨h'.1.1, by simp [hb]⟩, h'.2⟩
    · split
      · rename_i hka
        split
        · exact h
        · rename_i hb
          simp only [Memory.wfFrom, Bool.and_eq_true, decide_eq_true_eq]
          refine ⟨⟨?_, by simp [hb]⟩, ⟨hka, h'.1.2⟩, h'.2⟩
          cases lo with
          | none => rfl
          | some x => exact decide_eq_true (hk x rfl)
      · rename_i hne hge
        have hlt : a < k := by omega
        simp only [Memory.wfFrom, Bool.and_eq_true]
        exact ⟨h'.1, ih h'.2 fun x hx => by cases hx; exact hlt⟩

theorem Memory.wf_write {m : Memory} (h : m.wf = true) (k : Nat) (b : Byte) : (m.write k b).wf = true :=
  Memory.wfFrom_write k b h fun _ hx => by cases hx

theorem Memory.wf_writeN {m : Memory} (h : m.wf = true) (l : List (Option Byte)) (k : Nat) :
    (m.writeN k l).wf = true := by
  induction l generalizing m k with
  | nil => exact h
  | cons x r ih =>
    cases x with
    | none => exact ih h (k + 1)
    | some b => exact ih (Memory.wf_write h k b) (k + 1)

theorem Memory.wfFrom_clear {lo : Option Nat} {m : Memory} (a b : Nat) (h : Memory.wfFrom lo m = true) :
    Memory.wfFrom lo (m.clear a b) = true := by
  induction m generalizing lo with
  | nil => rfl
  | cons e r ih =>
    obtain ⟨k, c⟩ := e
    have h' := h
    simp only [Memory.wfFrom, Bool.and_eq_true] at h'
    simp only [Memory.clear, List.filter]
    split
    · simp only [Memory.wfFrom, Bool.and_eq_true]
      exact ⟨h'.1, ih h'.2⟩
    · refine Memory.wfFrom_weaken (ih h'.2) fun x hx => ?_
      subst hx
      exact Nat.le_of_lt (of_decide_eq_true h'.1.1)

theorem Memory.wf_clear {m : Memory} (h : m.wf = true) (a b : Nat) : (m.clear a b).wf = true :=
  Memory.wfFrom_clear a b h

/-- In the canonical form a written byte reads as written, and every other one as before. -/
theorem Memory.read_write_from {lo : Option Nat} {m : Memory} (h : Memory.wfFrom lo m = true) (k : Nat) (b : Byte)
    (j : Nat) : (m.write k b).read j = if j = k then b else m.read j := by
  induction m generalizing lo with
  | nil =>
    by_cases hb : b = Memory.unlisted k
    · by_cases hj : j = k <;> simp [Memory.write, hb, Memory.read, hj, Memory.unlisted]
    · by_cases hj : j = k
      · simp [Memory.write, hb, Memory.read, hj]
      · simp [Memory.write, hb, Memory.read, hj, Ne.symm hj]
  | cons e r ih =>
    obtain ⟨a, c⟩ := e
    have h' := h
    simp only [Memory.wfFrom, Bool.and_eq_true] at h'
    simp only [Memory.write]
    split
    · rename_i hak
      subst hak
      split
      · rename_i hb
        by_cases hj : j = a
        · subst hj; simp [Memory.read_below h'.2 (Nat.le_refl _), hb]
        · simp only [hj, if_false, Memory.read, Ne.symm hj]
          split
          · rename_i hja; exact Memory.read_below h'.2 (Nat.le_of_lt hja)
          · rfl
      · by_cases hj : j = a
        · simp [Memory.read, hj]
        · simp [Memory.read, hj, Ne.symm hj]
    · rename_i hak
      split
      · rename_i hka
        split
        · rename_i hb
          by_cases hj : j = k
          · subst hj; simp [Memory.read, hak, hka, hb]
          · simp [hj]
        · by_cases hj : j = k
          · simp [Memory.read, hj]
          · simp only [Memory.read, Ne.symm hj, hj, if_false]
            by_cases hjk : j < k
            · have : j < a := by omega
              simp [hjk, this, Nat.ne_of_gt this]
            · simp [hjk]
      · by_cases hj : j = a
        · have : j ≠ k := by omega
          simp [Memory.read, hj, show a ≠ k from hak]
        · simp only [Memory.read, Ne.symm hj, if_false]
          split
          · rename_i hja
            have : j ≠ k := by omega
            simp [this]
          · exact ih h'.2

theorem Memory.read_write {m : Memory} (h : m.wf = true) (k : Nat) (b : Byte) (j : Nat) :
    (m.write k b).read j = if j = k then b else m.read j := Memory.read_write_from h k b j

/-- A byte outside the keys written is as before. -/
theorem Memory.read_writeN_outside {m : Memory} (h : m.wf = true) (l : List (Option Byte)) (k j : Nat)
    (hj : j < k ∨ k + l.length ≤ j) : (m.writeN k l).read j = m.read j := by
  induction l generalizing m k with
  | nil => rfl
  | cons x r ih =>
    have hj' : j < k + 1 ∨ k + 1 + r.length ≤ j := by
      simp only [List.length_cons] at hj; omega
    have hne : j ≠ k := by
      simp only [List.length_cons] at hj; omega
    cases x with
    | none => exact ih h (k + 1) hj'
    | some b =>
      show (Memory.writeN (m.write k b) (k + 1) r).read j = _
      rw [ih (Memory.wf_write h k b) (k + 1) hj', Memory.read_write h]
      simp [hne]

/-- A byte among the keys written reads as written, or as before where the write leaves it alone. -/
theorem Memory.read_writeN_inside {m : Memory} (h : m.wf = true) (l : List (Option Byte)) (k i : Nat)
    (hi : i < l.length) : (m.writeN k l).read (k + i) = (l[i].getD (m.read (k + i))) := by
  induction l generalizing m k i with
  | nil => exact absurd hi (by simp)
  | cons x r ih =>
    cases i with
    | zero =>
      cases x with
      | none => exact Memory.read_writeN_outside h r (k + 1) k (.inl (Nat.lt_succ_self k))
      | some b =>
        show (Memory.writeN (m.write k b) (k + 1) r).read k = b
        rw [Memory.read_writeN_outside (Memory.wf_write h k b) r (k + 1) k (.inl (Nat.lt_succ_self k)),
          Memory.read_write h]
        simp
    | succ n =>
      have hn : n < r.length := Nat.lt_of_succ_lt_succ hi
      have e : k + (n + 1) = k + 1 + n := by omega
      rw [e]
      cases x with
      | none => exact ih h (k + 1) n hn
      | some b =>
        show (Memory.writeN (m.write k b) (k + 1) r).read (k + 1 + n) = _
        rw [ih (Memory.wf_write h k b) (k + 1) n hn, Memory.read_write h]
        have : k + 1 + n ≠ k := by omega
        simp [this]

end Sys2Proof.Machine
end

