-- ==== Sys2Proof/Laws/Reach.lean ====
section
/-!
SUPPORT. Every instruction answers a next state, and it and every step come to it by effects alone.
-/
namespace Sys2Proof.Machine

/-- The meaning of an instruction is an act. -/
theorem exec_act (i : Instr) (s : State) : ∃ a : Act, exec i s = Act.next a s := by
  cases i <;> exact ⟨_, rfl⟩

theorem exec_reaches (i : Instr) (s : State) : ∃ t, exec i s = .next t ∧ Reaches s t := by
  obtain ⟨a, h⟩ := exec_act i s
  exact ⟨a.run s, h, a.ok s⟩

theorem exec_next_reaches {i : Instr} {s t : State} (h : exec i s = .next t) : Reaches s t := by
  obtain ⟨u, hu, r⟩ := exec_reaches i s
  rw [hu] at h
  cases h
  exact r

theorem step_next_reaches {s t : State} (h : step s = .next t) : Reaches s t := by
  unfold step at h
  split at h
  · cases h
    exact .step _ .refl
  · rename_i dt u rest _
    have hadv := (Act.advance dt rest .none).ok s
    dsimp only at h
    split at h
    · exact (Reaches.step _ hadv).trans (exec_next_reaches h)
    · cases h
      exact hadv.trans (Act.ok _ _)
    · split at h
      · cases h
        exact hadv.trans (Act.ok _ _)
      · cases h
    · cases h

end Sys2Proof.Machine
end

