-- ==== Sys2Proof/Laws/Invariant.lean ====
section
/-!
SUPPORT. What every effect keeps: the invariant, the fuses other than the life cycle, and the life-cycle order.
-/
namespace Sys2Proof.Machine

theorem Lots.proper_zero (l : Lots) : (0 : Lot) ∉ l.proper.live := by
  simp [Lots.proper]

theorem Hart.proper_ok (h : Hart) : h.proper.Ok where
  x0 := Store.get?_erase_same _ _
  even := by
    show (h.pc &&& ~~~1).getLsbD 0 = false
    simp
  asid := by
    show h.xpasid &&& bitsMask 16 0 &&& ~~~(bitsMask 16 0) = 0
    rw [BitVec.and_assoc, BitVec.and_not_self]
    simp
  seg := by
    intro e he
    obtain ⟨a, _, rfl⟩ := List.mem_map.mp he
    show a.2 &&& bitsMask 63 44 &&& ~~~(bitsMask 63 44) = 0
    rw [BitVec.and_assoc, BitVec.and_not_self]
    simp

theorem State.apply_regsOk {s : State} (h : s.regsOk) (e : Effect) : (s.apply e).regsOk := by
  cases e
  case reg d r v =>
    intro x hx
    rcases Store.mem_put hx with rfl | hx
    · show v &&& regMask d r.off &&& ~~~(regMask d r.off) = 0
      rw [BitVec.and_assoc, BitVec.and_not_self]
      simp
    · exact h x hx
  case regsClear d keep =>
    intro x hx
    exact h x (List.mem_of_mem_filter hx)
  all_goals (first | exact h | (simpa [State.regsOk] using h))

theorem State.apply_lotsOk {s : State} (h : s.lotsOk) (e : Effect) : (s.apply e).lotsOk := by
  cases e
  case lots d l =>
    intro x hx
    rcases Store.mem_put hx with rfl | hx
    · exact Lots.proper_zero l
    · exact h x hx
  all_goals (first | exact h | (simpa [State.lotsOk] using h))

theorem State.apply_hartsOk {s : State} (h : s.hartsOk) (e : Effect) : (s.apply e).hartsOk := by
  cases e
  case hart d n v =>
    intro x hx
    rcases Store.mem_put hx with rfl | hx
    · exact Hart.proper_ok v
    · exact h x hx
  all_goals (first | exact h | (simpa [State.hartsOk] using h))

theorem State.apply_memOk {s : State} (h : s.mem.wf = true) (e : Effect) : (s.apply e).mem.wf = true := by
  cases e
  case mem k b => exact Memory.wf_write h k b
  case memClear a b => exact Memory.wf_clear h a b
  all_goals (first | exact h | (simpa using h))

theorem State.apply_inv {s : State} (h : s.Inv) (e : Effect) : (s.apply e).Inv where
  mem := State.apply_memOk h.mem e
  regs := State.apply_regsOk h.regs e
  lots := State.apply_lotsOk h.lots e
  harts := State.apply_hartsOk h.harts e

theorem Reaches.inv {s t : State} (r : Reaches s t) (h : s.Inv) : t.Inv := by
  induction r with
  | refl => exact h
  | step e _ ih => exact State.apply_inv ih e

theorem Act.inv (a : Act) {s : State} (h : s.Inv) : (a.run s).Inv := (a.ok s).inv h

/-- What a kept property of effects says of every act. -/
theorem Reaches.rel {R : State → State → Prop} (hr : ∀ s, R s s) (ht : ∀ s t u, R s t → R t u → R s u)
    (he : ∀ s e, R s (State.apply s e)) {s t : State} (r : Reaches s t) : R s t := by
  induction r with
  | refl => exact hr s
  | step e _ ih => exact ht _ _ _ ih (he _ e)

theorem lcsNext_le {a b : BitVec 2} (h : lcsNext a b = true) : lcsLe a b := by
  revert a b
  unfold lcsLe
  decide

theorem State.apply_lcs (s : State) (e : Effect) : lcsLe s.fuses.lcs (s.apply e).fuses.lcs := by
  cases e
  case burn l =>
    by_cases h : lcsNext s.fuses.lcs l = true
    · simpa [h] using lcsNext_le h
    · simp [h, lcsLe]
  all_goals (simp [lcsLe])

theorem State.apply_fuses (s : State) (e : Effect) :
    (s.apply e).fuses = { s.fuses with lcs := (s.apply e).fuses.lcs } := by
  cases e
  case burn l => by_cases h : lcsNext s.fuses.lcs l = true <;> simp [h]
  all_goals rfl

theorem Reaches.lcs {s t : State} (r : Reaches s t) : lcsLe s.fuses.lcs t.fuses.lcs := by
  induction r with
  | refl => exact Nat.le_refl _
  | step e _ ih => exact Nat.le_trans ih (State.apply_lcs _ e)

theorem Reaches.fuses {s t : State} (r : Reaches s t) : t.fuses = { s.fuses with lcs := t.fuses.lcs } := by
  induction r with
  | refl => rfl
  | step e _ ih => rw [State.apply_fuses, ih]

end Sys2Proof.Machine
end

