-- ==== Sys2Proof/Laws/Moves.lean ====
section
/-!
SUPPORT. Consuming, forwarding, passing a marker and setting a predicate, as the structures of Safety describe them.
-/
namespace Sys2Proof.Machine

/-! ### One step of the CE -/

theorem dropsOf_noDst (w : CEWord) : dropsOf (noDst w) = dropsOf w := rfl

section
variable (c : Ce) (w : CEWord)

theorem Ce.consume_consumed : Consumed c (c.consume w) w where
  vi i h := by rw [Ce.consume_vi, if_pos h]
  si i h := by rw [Ce.consume_si, if_pos h]
  ci i h := by rw [Ce.consume_ci, if_pos h]
  v i h _ := by rw [Ce.consume_v, if_pos h]
  s i h _ := by rw [Ce.consume_s, if_pos h]

theorem Ce.consume_noDst : Consumed c (c.consume w) (noDst w) := Ce.consume_consumed c (noDst w)

theorem Ce.consume_kept : CeKept c (c.consume w) (noDst w) where
  v i _ hd := by rw [Ce.consume_v, if_neg (show _ ∉ dropsOf w from hd)]
  s i _ hd := by rw [Ce.consume_s, if_neg (show _ ∉ dropsOf w from hd)]
  vi i h := by rw [Ce.consume_vi, if_neg (show _ ∉ consumesOf w from h)]
  si i h := by rw [Ce.consume_si, if_neg (show _ ∉ consumesOf w from h)]
  ci i h := by rw [Ce.consume_ci, if_neg (show _ ∉ consumesOf w from h)]
  outs o _ := by simp
  p k _ _ := by simp
  slots := by simp
  weights := by simp
  rlmode := by simp
  halted := by simp
  waits := by simp

end

/-- What is kept by a word without a destination is kept by the word. -/
theorem CeKept.ofNoDst {c c' : Ce} {w : CEWord} (h : CeKept c c' (noDst w)) : CeKept c c' w where
  v i _ hd := h.v i (by simp [noDst]) hd
  s i _ hd := h.s i (by simp [noDst]) hd
  vi := h.vi
  si := h.si
  ci := h.ci
  outs o _ := h.outs o (by simp [noDst, outsOf])
  p k _ hp := h.p k (by simp [noDst]) hp
  slots := h.slots
  weights := h.weights
  rlmode := h.rlmode
  halted := h.halted
  waits := h.waits

section
variable (c : Ce) (w : CEWord) (f : Opnd → OutEnt)

/-- Consumption, then one entry on every output named. -/
def Ce.pushes : Ce := (outsOf w.dst).foldl (fun c o => c.pushOut o (f o)) (c.consume w)

theorem Ce.pushes_outs {o : Opnd} (h : o ∈ outsOf w.dst) : (c.pushes w f).outList o = c.outList o ++ [f o] := by
  have := (Ce.pushAll_spec f (outsOf w.dst) (outsOf_nodup _) (fun _ => outsOf_isOut) (c.consume w)).2.1 o h
  rw [Ce.pushes, this, Ce.consume_outs]

theorem Ce.pushes_same : (c.consume w).SameBut (c.pushes w f) :=
  (Ce.pushAll_spec f (outsOf w.dst) (outsOf_nodup _) (fun _ => outsOf_isOut) (c.consume w)).1

theorem Ce.pushes_consumed : Consumed c (c.pushes w f) w := by
  have k := Ce.pushes_same c w f
  have h := Ce.consume_consumed c w
  exact ⟨fun i x => by rw [k.vi]; exact h.vi i x, fun i x => by rw [k.si]; exact h.si i x,
    fun i x => by rw [k.ci]; exact h.ci i x, fun i x y => by rw [k.v]; exact h.v i x y,
    fun i x y => by rw [k.s]; exact h.s i x y⟩

theorem Ce.pushes_kept : CeKept c (c.pushes w f) w where
  v i _ hd := by rw [(Ce.pushes_same c w f).v, Ce.consume_v, if_neg hd]
  s i _ hd := by rw [(Ce.pushes_same c w f).s, Ce.consume_s, if_neg hd]
  vi i h := by rw [(Ce.pushes_same c w f).vi, Ce.consume_vi, if_neg h]
  si i h := by rw [(Ce.pushes_same c w f).si, Ce.consume_si, if_neg h]
  ci i h := by rw [(Ce.pushes_same c w f).ci, Ce.consume_ci, if_neg h]
  outs o h := by
    have := (Ce.pushAll_spec f (outsOf w.dst) (outsOf_nodup _) (fun _ => outsOf_isOut) (c.consume w)).2.2 o h
    rw [Ce.pushes, this, Ce.consume_outs]
  p k _ _ := by rw [(Ce.pushes_same c w f).p, Ce.consume_p]
  slots := by rw [(Ce.pushes_same c w f).slots, Ce.consume_slots]
  weights := by rw [(Ce.pushes_same c w f).w, Ce.consume_w]
  rlmode := by rw [(Ce.pushes_same c w f).rlmode, Ce.consume_rlmode]
  halted := by rw [(Ce.pushes_same c w f).halted, Ce.consume_halted]
  waits := by rw [(Ce.pushes_same c w f).waits, Ce.consume_waits]

end

theorem Ce.pass_eq (c : Ce) (w : CEWord) (ctx ver mk now) : (c.consume w).pass w.dst ctx ver mk now =
    c.pushes w fun o => .filled { body := emptyBody o, ctx := ctx, ver := verFor o ver, mark := mk, since := now } := rfl

theorem Ce.pass_marks (c : Ce) (w : CEWord) (t : Stamp) (m : Marker) :
    MarksOut c ((c.consume w).pass w.dst t.ctx t.ver m t.now) w emptyBody t m where
  outs o h := by rw [Ce.pass_eq, Ce.pushes_outs _ _ _ h]
  v i _ hd := by rw [Ce.pass_eq, (Ce.pushes_same c w _).v, Ce.consume_v, if_neg hd]
  s i _ hd := by rw [Ce.pass_eq, (Ce.pushes_same c w _).s, Ce.consume_s, if_neg hd]
  p k := by rw [Ce.pass_eq, (Ce.pushes_same c w _).p, Ce.consume_p]

/-- Consumption and the write of a result, PSET apart. -/
theorem Ce.write_result (c : Ce) (w : CEWord) (t : Stamp) (x : Val) :
    (c.consume w).write w.dst t x = c.result { w with pset := false } t { val := x } := by
  simp [Ce.result, Ce.setPred]
  rfl

theorem CeKept.ofPset {c c' : Ce} {w : CEWord} (h : CeKept c c' { w with pset := false }) : CeKept c c' w :=
  ⟨h.v, h.s, h.vi, h.si, h.ci, h.outs, fun k hd _ => h.p k hd (fun x => by cases x), h.slots, h.weights, h.rlmode, h.halted,
    h.waits⟩

theorem Ce.write_delivered (c : Ce) (w : CEWord) (t : Stamp) (x : Val) :
    Delivered c ((c.consume w).write w.dst t x) w t x := by
  have h := Ce.result_delivered c { w with pset := false } t { val := x }
  rw [Ce.write_result]
  exact ⟨h.v, h.s, fun i hi _ => h.p i hi (fun x => by cases x), h.outs⟩

theorem Ce.write_consumed (c : Ce) (w : CEWord) (t : Stamp) (x : Val) :
    Consumed c ((c.consume w).write w.dst t x) w := by
  have h := Ce.result_consumed c { w with pset := false } t { val := x }
  rw [Ce.write_result]
  exact ⟨h.vi, h.si, h.ci, h.v, h.s⟩

theorem Ce.write_kept (c : Ce) (w : CEWord) (t : Stamp) (x : Val) : CeKept c ((c.consume w).write w.dst t x) w := by
  rw [Ce.write_result]
  exact (Ce.result_kept c { w with pset := false } t { val := x }).ofPset

section
variable (c : Ce) (w : CEWord) (t : Stamp) (a : Src)

theorem Ce.forward_data (h : a.mark = .data) : (c.consume w).forward w.dst t a = (c.consume w).write w.dst t a.val := by
  simp [Ce.forward, h]

theorem Ce.forward_mark (h : a.mark ≠ .data) : (c.consume w).forward w.dst t a = c.pushes w fun o =>
    .filled { body := bodyFor o t.fmt a.val, ctx := t.ctx, ver := verFor o t.ver, mark := a.mark, since := t.now } := by
  simp only [Ce.forward, h, if_false]
  rfl

theorem Ce.forward_forwards : Forwards c ((c.consume w).forward w.dst t a) w t a where
  data h := by rw [Ce.forward_data _ _ _ _ h]; exact Ce.write_delivered c w t a.val
  outs h o ho := by rw [Ce.forward_mark _ _ _ _ h, Ce.pushes_outs _ _ _ ho]
  v h i _ hd := by rw [Ce.forward_mark _ _ _ _ h, (Ce.pushes_same c w _).v, Ce.consume_v, if_neg hd]
  s h i _ hd := by rw [Ce.forward_mark _ _ _ _ h, (Ce.pushes_same c w _).s, Ce.consume_s, if_neg hd]

theorem Ce.forward_consumed : Consumed c ((c.consume w).forward w.dst t a) w := by
  by_cases h : a.mark = .data
  · rw [Ce.forward_data _ _ _ _ h]; exact Ce.write_consumed c w t _
  · rw [Ce.forward_mark _ _ _ _ h]; exact Ce.pushes_consumed c w _

theorem Ce.forward_kept : CeKept c ((c.consume w).forward w.dst t a) w := by
  by_cases h : a.mark = .data
  · rw [Ce.forward_data _ _ _ _ h]; exact Ce.write_kept c w t _
  · rw [Ce.forward_mark _ _ _ _ h]; exact Ce.pushes_kept c w _

end

/-! ### PSET and the last context do not disturb -/

section
variable {c c' : Ce} {w : CEWord} (r : Bool)

theorem Consumed.setPred (h : Consumed c c' w) : Consumed c (c'.setPred w r) w :=
  ⟨fun i x => by rw [Ce.setPred_vi]; exact h.vi i x, fun i x => by rw [Ce.setPred_si]; exact h.si i x,
    fun i x => by rw [Ce.setPred_ci]; exact h.ci i x, fun i x y => by rw [Ce.setPred_v]; exact h.v i x y,
    fun i x y => by rw [Ce.setPred_s]; exact h.s i x y⟩

theorem CeKept.setPred (h : CeKept c c' w) : CeKept c (c'.setPred w r) w where
  v i a b := by rw [Ce.setPred_v]; exact h.v i a b
  s i a b := by rw [Ce.setPred_s]; exact h.s i a b
  vi i a := by rw [Ce.setPred_vi]; exact h.vi i a
  si i a := by rw [Ce.setPred_si]; exact h.si i a
  ci i a := by rw [Ce.setPred_ci]; exact h.ci i a
  outs o a := by rw [Ce.setPred_outs]; exact h.outs o a
  p k a b := by
    rw [Ce.setPred_bit _ _ _ _ k.isLt, if_neg fun x => b x.1 x.2.symm]
    exact h.p k a b
  slots := by rw [Ce.setPred_slots]; exact h.slots
  weights := by rw [Ce.setPred_w]; exact h.weights
  rlmode := by rw [Ce.setPred_rlmode]; exact h.rlmode
  halted := by rw [Ce.setPred_halted]; exact h.halted
  waits := by rw [Ce.setPred_waits]; exact h.waits

theorem Delivered.setPred {t : Stamp} {x : Val} (h : Delivered c c' w t x) :
    Delivered c (c'.setPred w r) w t x where
  v i a := by rw [Ce.setPred_v]; exact h.v i a
  s i a := by rw [Ce.setPred_s]; exact h.s i a
  p i a b := by
    rw [Ce.setPred_bit _ _ _ _ i.isLt, if_neg fun x => b x.1 x.2.symm]
    exact h.p i a b
  outs o a := by rw [Ce.setPred_outs]; exact h.outs o a

theorem Forwards.setPred {t : Stamp} {a : Src} (h : Forwards c c' w t a) : Forwards c (c'.setPred w r) w t a where
  data x := (h.data x).setPred r
  outs x o y := by rw [Ce.setPred_outs]; exact h.outs x o y
  v x i y z := by rw [Ce.setPred_v]; exact h.v x i y z
  s x i y z := by rw [Ce.setPred_s]; exact h.s x i y z

theorem Ce.setPred_sets (c : Ce) (w : CEWord) : SetsPred (c.setPred w r) w r := fun h => by
  rw [Ce.setPred_bit _ _ _ _ w.pdst.isLt, if_pos ⟨h, rfl⟩]

theorem MarksOut.last {b : Opnd → Body} {t : Stamp} {m : Marker} {k : Nat} (h : MarksOut c c' w b t m) :
    MarksOut c { c' with lastCtx := k } w b t m :=
  ⟨fun o ho => by
    have := h.outs o ho
    have e : Ce.outList { c' with lastCtx := k } o = c'.outList o := by cases o <;> rfl
    rw [e, this], h.v, h.s, h.p⟩

theorem Forwards.last {t : Stamp} {a : Src} {k : Nat} (h : Forwards c c' w t a) :
    Forwards c { c' with lastCtx := k } w t a :=
  ⟨fun x => (h.data x).last, fun x o ho => by
    have := h.outs x o ho
    have e : Ce.outList { c' with lastCtx := k } o = c'.outList o := by cases o <;> rfl
    rw [e, this], h.v, h.s⟩

end

/-- A firing that rewrites its CE completes as the rewriting says. -/
theorem Env.done_completes {s : State} {e : Env} (h : s.env = some e) (w : CEWord) (f : Ce → Ce)
    (hc : Consumed e.c.ce (f e.c.ce) w) (hk : CeKept e.c.ce (f e.c.ce) w) :
    Completes s ((e.done f).run s) e w := by
  obtain ⟨k, hk'⟩ := Env.done_ceIn h f
  exact ⟨by rw [hk']; exact hc.last, by rw [hk']; exact hk.last, Env.done_only h f⟩

/-- What the CE holds after a firing, field by field: a reader that does not see which context fired last. -/
theorem Env.done_reads {α : Type} {s : State} {e : Env} (h : s.env = some e) (f : Ce → Ce) (g : Ce → α)
    (hg : ∀ c k, g { c with lastCtx := k } = g c) : g (e.ceIn ((e.done f).run s)) = g (f e.c.ce) := by
  obtain ⟨k, hk⟩ := Env.done_ceIn h f
  rw [hk, hg]

theorem Ce.outList_last (c : Ce) (k : Nat) (o : Opnd) : Ce.outList { c with lastCtx := k } o = c.outList o := by
  cases o <;> rfl

theorem Env.done_outs {s : State} {e : Env} (h : s.env = some e) (f : Ce → Ce) (o : Opnd) :
    (e.ceIn ((e.done f).run s)).outList o = (f e.c.ce).outList o :=
  Env.done_reads h f (fun c => c.outList o) fun c k => Ce.outList_last c k o

/-! ### Registers of the refire set (R301) -/

section
variable (own : Lot) (now : Nat) (l : List Opnd) (c : Ce)

theorem Ce.clearAll_v (i : Fin 16) : ((l.foldl (fun c o => c.clearReg own now o) c).v.get {} i.val) =
    if .v i ∈ l then { val := {}, ver := 0, pres := false, lot := own, since := now } else c.v.get {} i.val := by
  induction l generalizing c with
  | nil => simp
  | cons o r ih =>
    rw [List.foldl_cons, ih]
    by_cases hr : Opnd.v i ∈ r
    · simp [hr]
    · simp only [hr, if_false, List.mem_cons, or_false]
      cases o <;> simp [Ce.clearReg]
      rename_i j
      by_cases hj : i = j
      · simp [hj]
      · have : i.val ≠ j.val := fun x => hj (Fin.ext x)
        simp [hj, Store.get_put_ne _ _ _ this]

theorem Ce.clearAll_s (i : Fin 16) : ((l.foldl (fun c o => c.clearReg own now o) c).s.get {} i.val) =
    if .s i ∈ l then { val := 0, ver := 0, pres := false, lot := own, since := now } else c.s.get {} i.val := by
  induction l generalizing c with
  | nil => simp
  | cons o r ih =>
    rw [List.foldl_cons, ih]
    by_cases hr : Opnd.s i ∈ r
    · simp [hr]
    · simp only [hr, if_false, List.mem_cons, or_false]
      cases o <;> simp [Ce.clearReg]
      rename_i j
      by_cases hj : i = j
      · simp [hj]
      · have : i.val ≠ j.val := fun x => hj (Fin.ext x)
        simp [hj, Store.get_put_ne _ _ _ this]

theorem Ce.clearAll_keeps {α : Type} (f : Ce → α) (hf : ∀ c o, f (Ce.clearReg c own now o) = f c) :
    f (l.foldl (fun c o => c.clearReg own now o) c) = f c := by
  induction l generalizing c with
  | nil => rfl
  | cons o r ih => rw [List.foldl_cons, ih, hf]

end

theorem Env.passes_spec {s : State} {e : Env} (h : s.env = some e) (w : CEWord) (srcs : List Src) (m : Marker) :
    Passes s ((e.passes w srcs m).run s) e w (verOf srcs) m := by
  obtain ⟨k, hk⟩ := Env.done_ceIn h fun c => (c.consume w).pass w.dst (outCtx w) (verOf srcs) m e.s.cycle
  refine ⟨?_, Env.done_completes h w _ (Ce.pushes_consumed _ w _) (Ce.pushes_kept _ w _)⟩
  unfold Env.passes
  rw [hk]
  exact (Ce.pass_marks e.c.ce w (e.stamp w (verOf srcs)) m).last

end Sys2Proof.Machine
end

