-- ==== Sys2Proof/Laws/OnMe.lean ====
section
/-!
SUPPORT. Firings on the cell's own memory element, and firings that issue a request.
-/
namespace Sys2Proof.Machine

section
variable {s : State} {e : Env} (h : s.env = some e) (w : CEWord) (m : Me) (f : Ce → Ce) (p : Bool)
include h

theorem Env.meDone_cell : ∃ k n, (((e.meDone w m f p).run s).cells.get {} e.id) =
    { e.c with me := m, ce := { (f (e.c.ce.consume w)).setPred w p with lastCtx := k }, busy := n } := by
  obtain ⟨_, hc, hr⟩ := State.env_spec h
  obtain ⟨r, hr⟩ := Option.isSome_iff_exists.mp hr
  refine ⟨e.ctx, e.s.cycle, ?_⟩
  simp only [Env.meDone, Act.run_block_cons, Act.run_block_nil, Act.run_onCell, Act.fired]
  rw [Act.run_onRegion_some (r := r)]
  · simp [hc]
  · simp [hr]

theorem Env.meDone_fires : FiresIn s ((e.meDone w m f p).run s) e := by
  obtain ⟨hs, hc, hr⟩ := State.env_spec h
  obtain ⟨r, hr⟩ := Option.isSome_iff_exists.mp hr
  have key : (e.meDone w m f p).run s =
      (((s.apply (.cell e.id { s.cells.get {} e.id with
          me := m, ce := (f ((s.cells.get {} e.id).ce.consume w)).setPred w p })).apply
        (.cell e.id { s.cells.get {} e.id with
          me := m, ce := { (f ((s.cells.get {} e.id).ce.consume w)).setPred w p with lastCtx := e.ctx }
          busy := e.s.cycle })).apply
        (.region e.spot.h (some (if e.suppress.isSome then
          { r with lastActive := e.s.cycle, stepover := false, fault := none, pendingFault := false }
        else { r with lastActive := e.s.cycle })))) := by
    simp only [Env.meDone, Act.run_block_cons, Act.run_block_nil, Act.run_onCell, Act.fired]
    rw [Act.run_onRegion_some (r := r)]
    · simp
    · simp [hr]
  rw [key]
  refine { rest := ?_, cells := ?_, sw := ?_, regions := ?_, region := ?_ }
  · simp [State.apply]
  · intro c hne
    simp [Store.get_put_ne _ _ _ hne]
  · simp
  · intro k hne
    simp [Store.get?_put_ne _ _ hne]
  · intro hn
    simp [hn, hr, hs]

/-- A local operation of the memory element that completes: the element it leaves, its operands, its predicate. -/
theorem Env.meDone_spec (hc : Consumed e.c.ce (f (e.c.ce.consume w)) w) (hk : CeKept e.c.ce (f (e.c.ce.consume w)) w) :
    OnMe s ((e.meDone w m f p).run s) e w m ∧ SetsPred (e.ceIn ((e.meDone w m f p).run s)) w p := by
  obtain ⟨k, n, hx⟩ := Env.meDone_cell h w m f p
  refine ⟨⟨Env.meDone_fires h w m f p, ?_, ?_, ?_⟩, ?_⟩
  · simp only [Env.meIn, hx]
  · simp only [Env.ceIn, hx]; exact (hc.setPred p).last
  · simp only [Env.ceIn, hx]; exact (hk.setPred p).last
  · simp only [Env.ceIn, hx]; exact Ce.setPred_sets p _ w

theorem Env.meDone_gives (ver : BitVec 4) (x : Val) :
    Gives e ((e.meDone w m (fun c => c.write w.dst (e.stamp w ver) x) p).run s) w ver x := by
  obtain ⟨k, n, hx⟩ := Env.meDone_cell h w m (fun c => c.write w.dst (e.stamp w ver) x) p
  simp only [Gives, Env.ceIn, hx]
  exact ((Ce.write_delivered _ _ _ _).setPred p).last

/-- The same for one that leaves its memory element alone. -/
theorem OnMe.completes {t : State} (k : OnMe s t e w e.c.me) : Completes s t e w :=
  ⟨k.consumed, k.kept, ⟨k.fires, by have := k.me; rw [Env.meIn] at this; rw [this, (State.env_spec h).2.1]⟩⟩

end

/-- What a local operation answers. -/
theorem Env.runLocal_ok {e : Env} {w : CEWord} {srcs : List Src} {op : MeOp} {reqs : List Nat}
    {ver : Got → BitVec 4} {val : Vec → Option Val} {m : Me} {g : Got} {x : Val} (hv : val g.value = some x)
    (h : e.meLocal op reqs = .ok m g) :
    e.runLocal w srcs op reqs ver val = e.meDone w m (fun c => c.write w.dst (e.stamp w (ver g)) x) g.flag := by
  unfold Env.runLocal
  simp only [h, hv]

theorem Env.runLocal_quiet {e : Env} {w : CEWord} {srcs : List Src} {op : MeOp} {reqs : List Nat}
    {ver : Got → BitVec 4} {val : Vec → Option Val} {m : Me} {g : Got} (hv : val g.value = none)
    (h : e.meLocal op reqs = .ok m g) :
    e.runLocal w srcs op reqs ver val = e.meDone w m (fun c => c) g.flag := by
  unfold Env.runLocal
  simp only [h, hv]

end Sys2Proof.Machine
end

