-- ==== Sys2Proof/Laws/Rounded.lean ====
section
/-!
SUPPORT. Results made of elements: masks by group, elements read back, rounded results and pleated blocks (R236, R241,
R242).
-/
namespace Sys2Proof.Machine

theorem maskFrom_bit (f : Nat → Bool) (k : Nat) (hk : k < 16) : (maskFrom f).getLsbD k = f k := by
  have hg := packElems_get 1 ((List.range 16).map fun i => if f i then 1 else 0) k (by simpa using hk)
  have hl := packElems_lt 1 ((List.range 16).map fun i => if f i then 1 else 0)
  unfold maskFrom
  rw [BitVec.getLsbD_ofNat, Nat.testBit_eq_decide_div_mod_eq]
  simp only [Nat.pow_one, Nat.one_mul] at hg
  rw [hg]
  cases h : f k <;> simp [h, hk]

theorem fmtCount_pos (f : Fmt) : fmtCount f = 16 * (32 / fmtWidth f) := by cases f <;> rfl
theorem fmtWidth_cases (f : Fmt) : fmtWidth f = 32 ∨ fmtWidth f = 16 ∨ fmtWidth f = 8 ∨ fmtWidth f = 4 := by cases f <;> simp [fmtWidth]

theorem groupMask {α : Type} (f : Fmt) (g : Nat → Option α) (k : Nat) (hk : k < 16) :
    (maskFrom fun k => ((((List.range (fmtCount f)).map g).drop (k * (32 / fmtWidth f))).take (32 / fmtWidth f)).all Option.isSome).getLsbD k = true ↔ GroupComputed f g k := by
  rw [maskFrom_bit _ _ hk]
  simp only [List.all_eq_true, GroupComputed]
  constructor
  · intro h j hj hg
    apply h (g j)
    rw [List.mem_take_iff_getElem]
    have : k * (32 / fmtWidth f) ≤ j ∧ j < k * (32 / fmtWidth f) + 32 / fmtWidth f := by
      unfold fmtGroup at hg
      rcases fmtWidth_cases f with h | h | h | h <;> rw [h] at hg ⊢ <;> omega
    refine ⟨j - k * (32 / fmtWidth f), ?_, ?_⟩
    · simp; omega
    · simp only [List.getElem_drop, List.getElem_map, List.getElem_range]
      congr 1; omega
  · intro h x hx
    rw [List.mem_take_iff_getElem] at hx
    obtain ⟨n, hn, rfl⟩ := hx
    simp at hn
    simp only [List.getElem_drop, List.getElem_map, List.getElem_range]
    apply h
    · omega
    · unfold fmtGroup
      rcases fmtWidth_cases f with h | h | h | h <;> rw [h] at hn ⊢ <;> omega

theorem quantise_len (f d xs) : (quantiseBlock f d xs).1.length = xs.length := by
  unfold quantiseBlock; split <;> simp

theorem flat_get (l : List (List Nat)) (h : ∀ x ∈ l, x.length = 32) (b j : Nat) (hb : b < l.length) (hj : j < 32) :
    ∃ hh, (l.flatMap id)[32 * b + j]'hh = (l[b]).getD j 0 := by
  induction l generalizing b with
  | nil => simp at hb
  | cons x r ih =>
    have hx := h x List.mem_cons_self
    cases b with
    | zero =>
      refine ⟨by simp; omega, ?_⟩
      simp only [List.flatMap_cons, id]
      rw [List.getElem_append_left (by omega)]
      simp [List.getD, hx, hj]
    | succ b =>
      obtain ⟨hh, he⟩ := ih (fun x hx => h x (List.mem_cons_of_mem _ hx)) b (by simpa using hb)
      refine ⟨by simp at hh ⊢; omega, ?_⟩
      simp only [List.flatMap_cons, id]
      rw [List.getElem_append_right (by omega)]
      simp only [List.getElem_cons_succ]
      rw [← he]
      congr 1; omega

theorem chunks_get (n : Nat) (xs : List (Option Exact)) (b : Nat) (hb : b < n) :
    (chunks32 n xs).length = n ∧ ∀ h, (chunks32 n xs)[b]'h = (xs.drop (32 * b)).take 32 := by
  induction n generalizing xs b with
  | zero => omega
  | succ n ih =>
    have hlen : ∀ m ys, (chunks32 m ys).length = m := by
      intro m; induction m with
      | zero => intro _; rfl
      | succ m ih => intro ys; simp [chunks32, ih]
    refine ⟨hlen _ _, fun h => ?_⟩
    cases b with
    | zero => simp [chunks32]
    | succ b =>
      simp only [chunks32, List.getElem_cons_succ]
      rw [(ih (xs.drop 32) b (by omega)).2]
      rw [List.drop_drop]; congr 2; omega

theorem sb_len (l : List (List Nat × Nat × Nat)) : (l.flatMap fun q => [q.2.1, q.2.2]).length = 2 * l.length := by
  induction l with
  | nil => rfl
  | cons x r ih => simp only [List.flatMap_cons, List.length_append, ih, List.length_cons, List.length_nil]; omega
theorem sb_get (l : List (List Nat × Nat × Nat)) (b : Nat) (h : b < l.length) : ∃ h1 h2, (l.flatMap fun q => [q.2.1, q.2.2])[2 * b]'h1 = l[b].2.1 ∧ (l.flatMap fun q => [q.2.1, q.2.2])[2 * b + 1]'h2 = l[b].2.2 := by
  induction l generalizing b with
  | nil => simp at h
  | cons x r ih =>
    cases b with
    | zero => exact ⟨by rw [sb_len]; simp, by rw [sb_len]; simp; omega, rfl, rfl⟩
    | succ b =>
      obtain ⟨h1, h2, e1, e2⟩ := ih b (by simpa using h)
      rw [sb_len] at h1 h2
      refine ⟨by rw [sb_len]; simp; omega, by rw [sb_len]; simp; omega, ?_, ?_⟩
      · simp only [List.flatMap_cons]
        rw [List.getElem_append_right (by simp)]
        simp only [List.getElem_cons_succ]; rw [← e1]; congr 1
      · simp only [List.flatMap_cons]
        rw [List.getElem_append_right (by simp; omega)]
        simp only [List.getElem_cons_succ]; rw [← e2]; congr 1

theorem elemBits_of (f : Fmt) (l : List Nat) (hl : l.length = fmtCount f) (i : Nat) (hi : i < fmtCount f) (v : VecVal)
    (hv : v.data = BitVec.ofNat 512 (packElems (fmtWidth f) l)) (hf : v.fmt = f) : v.elemBits i = l[i] % 2 ^ fmtWidth f := by
  unfold VecVal.elemBits
  have hlt := packElems_lt (fmtWidth f) l
  have : fmtWidth f * l.length = 512 := by rw [hl]; cases f <;> rfl
  rw [this] at hlt
  rw [hv, hf, BitVec.toNat_ofNat, Nat.mod_eq_of_lt hlt, packElems_get]

theorem sbByte_of (l : List Nat) (hl : l.length ≤ 8) (i : Nat) (hi : i < l.length) (v : VecVal)
    (hv : v.sb = BitVec.ofNat 64 (packElems 8 l)) : v.sbByte i = l[i] % 256 := by
  unfold VecVal.sbByte
  have hlt := packElems_lt 8 l
  have : packElems 8 l < 2 ^ 64 := Nat.lt_of_lt_of_le hlt (Nat.pow_le_pow_right (by decide) (by omega))
  rw [hv, BitVec.toNat_ofNat, Nat.mod_eq_of_lt this]
  exact packElems_get 8 l i hi

theorem floatVec_spec (f rnd sat depth g) : RoundedResult true f rnd sat depth g (.vec (floatVec f rnd sat depth g)) where
  scal h := by cases h
  vec _ := by
    refine ⟨_, rfl, ?_, ?_, ?_, ?_⟩
    · unfold floatVec; split <;> rfl
    · intro k hk
      rw [← groupMask f g k hk]
      unfold floatVec; split <;> rfl
    · intro hp
      refine ⟨by unfold floatVec; rw [if_neg (by simp [hp])], ?_⟩
      intro i x hi hx
      have hm : (floatVec f rnd sat depth g).mask = maskFrom fun k => ((((List.range (fmtCount f)).map g).drop (k * (32 / fmtWidth f))).take (32 / fmtWidth f)).all Option.isSome := by
        unfold floatVec; split <;> rfl
      have hd : ∃ L : List Nat, L.length = fmtCount f ∧ (floatVec f rnd sat depth g).data = BitVec.ofNat 512 (packElems (fmtWidth f) L) ∧
          ∀ h : i < L.length, L[i] = match (if (floatVec f rnd sat depth g).mask.getLsbD (fmtGroup f i) then (((List.range (fmtCount f)).map g).getD i none) else none) with
            | some x => roundTo f rnd sat x
            | none => 0 := by
        refine ⟨_, ?_, by unfold floatVec; rw [if_neg (by simp [hp])], ?_⟩
        · simp
        · intro h
          rw [List.getElem_map, List.getElem_map, List.getElem_range, hm]
          all_goals rfl
      obtain ⟨L, hL, hd, he⟩ := hd
      rw [elemBits_of f L hL i hi _ hd (by unfold floatVec; split <;> rfl), he]
      by_cases hb : (floatVec f rnd sat depth g).mask.getLsbD (fmtGroup f i) = true
      · simp [hb, hi, hx]
      · simp [hb]
    · intro hp b hb
      have hm : (floatVec f rnd sat depth g).mask = maskFrom fun k => ((((List.range (fmtCount f)).map g).drop (k * (32 / fmtWidth f))).take (32 / fmtWidth f)).all Option.isSome := by
        unfold floatVec; split <;> rfl
      rw [hm]
      generalize hM : (maskFrom fun k => ((((List.range (fmtCount f)).map g).drop (k * (32 / fmtWidth f))).take (32 / fmtWidth f)).all Option.isSome) = M
      let ys := (List.range (fmtCount f)).map fun i => if M.getLsbD (fmtGroup f i) then (((List.range (fmtCount f)).map g).getD i none) else none
      have hc32 : 32 * (fmtCount f / 32) = fmtCount f := by revert hp; cases f <;> simp [isPleated, fmtCount, fmtWidth]
      let qs := (chunks32 (fmtCount f / 32) ys).map (quantiseBlock f depth)
      have hd : (floatVec f rnd sat depth g).data = BitVec.ofNat 512 (packElems (fmtWidth f) (qs.flatMap fun q => q.1)) := by
        unfold floatVec; simp only [hp, if_true, hM]; rfl
      have hs : (floatVec f rnd sat depth g).sb = BitVec.ofNat 64 (packElems 8 (qs.flatMap fun q => [q.2.1, q.2.2])) := by
        unfold floatVec; simp only [hp, if_true, hM]; rfl
      have hqlen : qs.length = fmtCount f / 32 := by simp [qs, (chunks_get _ ys b hb).1]
      have hblk : ∀ b', b' < fmtCount f / 32 → (ys.drop (32 * b')).take 32 = (List.range 32).map fun j =>
        if M.getLsbD (fmtGroup f (32 * b' + j)) then g (32 * b' + j) else none := by
        intro b' hb'
        apply List.ext_getElem
        · simp [ys]; omega
        · intro n h1 h2
          simp at h2
          simp only [List.getElem_take, List.getElem_drop, List.getElem_map, List.getElem_range, ys]
          have : 32 * b' + n < fmtCount f := by omega
          simp [this]
      have hqb : ∀ b', (h : b' < fmtCount f / 32) → qs[b']'(by omega) = quantiseBlock f depth ((List.range 32).map fun j =>
        if M.getLsbD (fmtGroup f (32 * b' + j)) then g (32 * b' + j) else none) := by
        intro b' h
        simp only [qs, List.getElem_map]
        rw [(chunks_get _ ys b' h).2, hblk b' h]
      have h32 : ∀ x ∈ qs.map (fun q => q.1), x.length = 32 := by
        intro x hx
        obtain ⟨n, hn, rfl⟩ := List.getElem_of_mem hx
        simp only [List.getElem_map]
        rw [hqb n (by simpa [hqlen] using hn), quantise_len]; simp
      refine ⟨?_, ?_, ?_⟩
      · intro j hj
        obtain ⟨hh, he⟩ := flat_get (qs.map fun q => q.1) h32 b j (by simp [hqlen]; omega) hj
        have hfm : qs.flatMap (fun q => q.1) = (qs.map fun q => q.1).flatMap id := by simp [List.flatMap_map]
        have hlen : (qs.flatMap fun q => q.1).length = fmtCount f := by
          rw [List.length_flatMap]
          have : (qs.map fun q => q.1.length) = List.replicate qs.length 32 := by
            apply List.eq_replicate_iff.mpr
            refine ⟨by simp, ?_⟩
            intro x hx
            obtain ⟨q, hq, rfl⟩ := List.mem_map.mp hx
            exact h32 _ (List.mem_map_of_mem hq)
          rw [this]; simp [hqlen]; omega
        rw [elemBits_of f _ hlen _ (by omega) _ hd (by unfold floatVec; split <;> rfl)]
        simp only [hfm]
        rw [he, List.getElem_map, hqb b hb]
      · obtain ⟨h1, _, e1, _⟩ := sb_get qs b (by omega)
        have hl : (qs.flatMap fun q => [q.2.1, q.2.2]).length ≤ 8 := by rw [sb_len, hqlen]; revert hp; cases f <;> simp [isPleated, fmtCount, fmtWidth]
        rw [sbByte_of _ hl _ h1 _ hs, e1, hqb b hb]
      · obtain ⟨_, h2, _, e2⟩ := sb_get qs b (by omega)
        have hl : (qs.flatMap fun q => [q.2.1, q.2.2]).length ≤ 8 := by rw [sb_len, hqlen]; revert hp; cases f <;> simp [isPleated, fmtCount, fmtWidth]
        rw [sbByte_of _ hl _ h2 _ hs, e2, hqb b hb]
theorem floatRes_spec (vector f rnd sat g) : RoundedResult vector f rnd sat 4 g (floatRes vector f rnd sat g).val where
  scal hv hp x hx := by simp [floatRes, hv, hp, hx]
  vec h := by
    have : (floatRes vector f rnd sat g).val = .vec (floatVec f rnd sat 4 g) := by
      unfold floatRes; rw [if_pos]; simpa using h
    rw [this]
    exact (floatVec_spec f rnd sat 4 g).vec (.inl rfl)

/-! ### Bit fields and moved lanes -/

theorem setBits_spec {n : Nat} (x : BitVec n) (lo len v j : Nat) (hj : j < n) :
    (setBits x lo len v).getLsbD j = if lo ≤ j ∧ j < lo + len then v.testBit (j - lo) else x.getLsbD j := by
  have h1 : (BitVec.ofNat n ((2 ^ len - 1) * 2 ^ lo)).getLsbD j = decide (lo ≤ j ∧ j < lo + len) := by
    rw [BitVec.getLsbD_ofNat, Nat.testBit_mul_two_pow, Nat.testBit_two_pow_sub_one]
    by_cases h : lo ≤ j <;> by_cases h' : j < lo + len <;> simp [h, h', hj] <;> omega
  have h2 : (BitVec.ofNat n (v % 2 ^ len * 2 ^ lo)).getLsbD j = (decide (lo ≤ j ∧ j < lo + len) && v.testBit (j - lo)) := by
    rw [BitVec.getLsbD_ofNat, Nat.testBit_mul_two_pow, Nat.testBit_mod_two_pow]
    by_cases h : lo ≤ j <;> by_cases h' : j < lo + len <;> simp [h, h', hj] <;> omega
  unfold setBits
  rw [BitVec.getLsbD_or, BitVec.getLsbD_and, BitVec.getLsbD_not, h1, h2]
  by_cases h : lo ≤ j ∧ j < lo + len <;> simp [h, hj]

theorem setBits_extract {n : Nat} (x : BitVec n) (lo len v a k : Nat) (ha : a + k ≤ len) (hn : lo + len ≤ n) :
    (setBits x lo len v).extractLsb' (lo + a) k = BitVec.ofNat k (v / 2 ^ a) := by
  apply BitVec.eq_of_getLsbD_eq
  intro i hi
  rw [BitVec.getLsbD_extractLsb', BitVec.getLsbD_ofNat, Nat.testBit_div_two_pow, setBits_spec _ _ _ _ _ (by omega)]
  rw [if_pos ⟨by omega, by omega⟩]
  simp only [hi, decide_true, Bool.true_and]
  congr 1; omega
theorem setBits_extract_outside {n : Nat} (x : BitVec n) (lo len v a k : Nat) (ha : a + k ≤ lo ∨ lo + len ≤ a) (hn : a + k ≤ n) :
    (setBits x lo len v).extractLsb' a k = x.extractLsb' a k := by
  apply BitVec.eq_of_getLsbD_eq
  intro i hi
  rw [BitVec.getLsbD_extractLsb', BitVec.getLsbD_extractLsb', setBits_spec _ _ _ _ _ (by omega), if_neg (by omega)]
theorem lanesVec_mask (f m fmt sb) : (lanesVec f m fmt sb).mask = m := by unfold lanesVec; rfl
theorem lanesVec_fmt (f m fmt sb) : (lanesVec f m fmt sb).fmt = fmt := by unfold lanesVec; rfl
theorem lanesVec_sb (f m fmt sb) : (lanesVec f m fmt sb).sb = sb := by unfold lanesVec; rfl
theorem moved_spec (v : VecVal) (f : Nat → Word) (m : Nat → Bool) (m' : Nat → Bool) (f' : Nat → Word) (hm : ∀ i, i < 16 → m i = m' i) (hf : ∀ i, i < 16 → m' i = true → f i = f' i) :
    MovedLanes v m' f' (.vec (v.moved f m)) := by
  unfold VecVal.moved
  refine ⟨_, Eq.refl _, lanesVec_fmt _ _ _ _, lanesVec_sb _ _ _ _, fun i hi => ?_⟩
  rw [lanesVec_mask, maskFrom_bit _ _ hi, lanesVec_lane _ _ _ _ _ hi, maskFrom_bit _ _ hi, hm i hi]
  refine ⟨rfl, ?_⟩
  by_cases h : m' i = true
  · rw [if_pos h, if_pos h, hf i hi h]
  · rw [if_neg h, if_neg h]
theorem remask_spec (v : VecVal) (m : BitVec 16) (m' : Nat → Bool) (h : ∀ i, i < 16 → m.getLsbD i = m' i) : MovedLanes v m' v.lane (.vec (remask v m)) := by
  unfold remask
  refine ⟨_, Eq.refl _, lanesVec_fmt _ _ _ _, lanesVec_sb _ _ _ _, fun i hi => ?_⟩
  rw [lanesVec_mask, h i hi, lanesVec_lane _ _ _ _ _ hi, h i hi]
  exact ⟨rfl, rfl⟩
theorem count_eq (m : BitVec 16) (i) : ((List.range i).filter m.getLsbD).length = onesBelow m i := by
  simp [onesBelow, List.countP_eq_length_filter]
theorem countBits_eq (m : BitVec 16) : countBits m = onesBelow m 16 := count_eq m 16


end Sys2Proof.Machine
end

