-- ==== Sys2Proof/Tests/Slice0.lean ====
section
/-!
SUPPORT. Tests: what WellFormed refuses, words written out from the spec's encodings, single steps, and for each
statement about the model states and operands that meet its hypotheses.
-/
namespace Sys2Proof.Tests
open Sys2Proof Sys2Proof.Machine
set_option Elab.async false

/-! ### Helpers -/

/-- The instruction is enabled at the focus of `s` with sources that have the property P. -/
def Meets (s : State) (i : Instr) (w : CEWord) (P : Env → Src → Src → Src → Bool) : Prop :=
  ∃ e a b c, FiresData s i w e a b c ∧ P e a b c = true

/-- The same with no word on markers. -/
def MeetsAny (s : State) (i : Instr) (w : CEWord) (P : Env → Src → Src → Src → Bool) : Prop :=
  ∃ e a b c, Fires s i w e a b c ∧ P e a b c = true

def meetsAny (s : State) (i : Instr) (w : CEWord) (P : Env → Src → Src → Src → Bool) : Bool :=
  match s.env with
  | none => false
  | some e => e.enabled i w && (match e.src w w.sa, e.src w w.sb, e.src w w.sc with
    | .ok a, .ok b, .ok c => P e a b c
    | _, _, _ => false)

theorem meetsAny_spec {s i w P} (h : meetsAny s i w P = true) : MeetsAny s i w P := by
  unfold meetsAny at h
  split at h
  · cases h
  · next e he =>
    simp only [Bool.and_eq_true] at h
    obtain ⟨hn, h⟩ := h
    split at h
    · next a b c ha hb hc => exact ⟨e, a, b, c, ⟨he, hn, ha, hb, hc⟩, h⟩
    · cases h

theorem meets_spec {s i w P} (h : meetsAny s i w (fun e a b c => P e a b c && markOf [a, b, c] == none) = true) :
    Meets s i w P := by
  obtain ⟨e, a, b, c, hf, h⟩ := meetsAny_spec h
  simp only [Bool.and_eq_true, beq_iff_eq] at h
  exact ⟨e, a, b, c, ⟨hf, h.2⟩, h.1⟩

/-- The same for each member of a list. -/
theorem meets_all {α : Type} {l : List α} {s : α → State} {i : α → Instr} {w P}
    (h : (l.all fun x => meetsAny (s x) (i x) w (fun e a b c => P e a b c && markOf [a, b, c] == none)) = true) :
    ∀ x ∈ l, Meets (s x) (i x) w P := fun x hx => meets_spec (List.all_eq_true.mp h x hx)

/-- And with a property that depends on the member. -/
theorem each_spec {α : Type} {l : List α} {s : α → State} {i : α → Instr} {w : α → CEWord}
    {P : α → Env → Src → Src → Src → Bool} (h : (l.all fun x => meetsAny (s x) (i x) (w x) (P x)) = true) :
    ∀ x ∈ l, MeetsAny (s x) (i x) (w x) (P x) := fun x hx => meetsAny_spec (List.all_eq_true.mp h x hx)

def any : Env → Src → Src → Src → Bool := fun _ _ _ _ => true

/-- Register k of class v holds the vector x, and register k of class s the word y. -/
def Ce.hold (c : Ce) (k : Nat) (x : VecVal) (y : Word) : Ce :=
  { c with v := c.v.put k { val := x, pres := true, lot := 1 }, s := c.s.put k { val := y, pres := true, lot := 1 } }

/-- Lanes 0x80000000, 0xFFFFFFFF, 0x7FFFFFFF and 0, then 1 in the rest, all of them enabled. -/
def vecA : VecVal :=
  { data := 0x00000001000000010000000100000001000000010000000100000001000000010000000100000001000000010000000100000000_7FFFFFFF_FFFFFFFF_80000000
    mask := 0xFFFF }

/-- Lane 0 is 31, the rest 2. -/
def vecB : VecVal :=
  { data := 0x00000002000000020000000200000002000000020000000200000002000000020000000200000002000000020000000200000002_00000002_00000002_0000001F
    mask := 0xFFFF }

/-- The state with one CE at a slot that holds the instruction; v and s registers 1 to 3 hold operands. -/
def ceAt (i : Instr) (w : CEWord) (f : Cell → Cell := id) (g : Region → Region := id) : State :=
  let c := placedCell i w
  let c1 := { c with ce := Ce.hold (Ce.hold (Ce.hold c.ce 1 vecA 0x80000000) 2 vecB 31) 3 vecA 3 }
  { State.reset with
    agenda := [], cells := [(placedAt, f c1)], regions := [(0, g placedRegion)], lots := [(0, { counter := 1, live := [1] })]
    boots := bootedX, focus := .ce placedAt (16 * w.ctx.toNat) }

/-- Vector and scalar words over registers 1, 2 and 3. -/
def wV : CEWord := { plainWord with dst := .v 4, sa := .v 1, sb := .v 2 }
def wS : CEWord := { plainWord with dst := .s 4, sa := .s 1, sb := .s 2 }
def wF : CEWord := { wV with fmt := .f32 }
/-- The same with the vector A as it stands and a scalar B. -/
def wX : CEWord := { plainWord with dst := .v 4, sa := .v 1, sb := .s 2 }


/-! ### Words -/

/-- A word with its opcode field 0, field by field (R259): EN 1, CTX 5, VREQ 0001, SREQ 0010, CREQ 0100, MKSEL 01, MKVAL 01,
PRA 0x11, PRB 0x12, PRMODE 11, PMASK 0xA0, PVAL 0x80, OPC 0, DST 0x2C, SA 0x20, SB 0x11, SC 0x34, DEQ 1011, FMT 2, RND 01,
SAT 1, PSET 1, PDST 6, OCTX 1, IMM 0x12345678. -/
def fullBits : Nat := 0xD12458CBA0800059023A5A7D12345678
def fullWord : CEWord :=
  { ctx := 5, vreq := 1, sreq := 2, creq := 4, mkt := .vector .eos, prt := .presentAbsent 0x11 0x12, pmask := 0xA0, pval := 0x80
    dst := .vo 0, sa := .vi 0, sb := .s 1, sc := .imm, deqA := true, deqB := false, deqC := true, deqP := true, fmt := .bf16
    rnd := .rtz, sat := true, pset := true, pdst := 6, octx := true, imm := 0x12345678 }

/-- The opcodes from one on that stand for a row of instructions (R264), each with the fields of `fullWord`. -/
def rowDecodes (first : Nat) (row : List (CEWord → Instr)) : Bool :=
  row.zipIdx.all fun x => decodeCE (BitVec.ofNat 128 (fullBits + (first + x.2) * 2 ^ 71)) == .ok (x.1 fullWord)
theorem test_word_dataflow : rowDecodes 0x000 [.nop, .mov, .steer, .merge, .amerge, .filter, .absorb, .repeatTok, .count, .mark, .rfclr] = true := by decide +kernel
theorem test_word_predicates : rowDecodes 0x010 [.pand, .por, .pxor, .pnot, .pmov] = true := by decide +kernel
theorem test_word_ends : rowDecodes 0x020 [.halt, .exit, .trap, .brk] = true := by decide +kernel
theorem test_word_arithmetic : rowDecodes 0x040 [.add, .sub, .mul, .mulhs, .mulhu, .mad, .divs, .divu, .rems, .remu] = true := by decide +kernel
theorem test_word_saturating : rowDecodes 0x04C [.addSat, .addSatu, .subSat, .subSatu] = true := by decide +kernel
theorem test_word_bits : rowDecodes 0x050 [.and, .or, .xor, .andn, .not, .shl, .shr, .sar, .rol, .clz, .popc] = true := by decide +kernel
theorem test_word_extremes : rowDecodes 0x060 [.mins, .minu, .maxs, .maxu, .abs, .neg] = true := by decide +kernel
theorem test_word_comparisons : rowDecodes 0x068 [.cmpEq, .cmpNe, .cmpLt, .cmpLe, .cmpLtu, .cmpLeu] = true := by decide +kernel
theorem test_word_fields : rowDecodes 0x070 [.sel, .bfx, .bfi] = true := by decide +kernel
theorem test_word_lanes : rowDecodes 0x080 [.bcast, .shuf, .lrot, .redadd, .redmin, .redmax, .scan, .cmpr, .expd, .lmask, .insl, .extl] = true := by decide +kernel
theorem test_word_float : rowDecodes 0x0C0 [.fadd, .fsub, .fmul, .fma, .fmin, .fmax, .fabs, .fneg] = true := by decide +kernel
theorem test_word_float_comparisons : rowDecodes 0x0C8 [.fcmpEq, .fcmpLt, .fcmpLe, .fcmpUn] = true := by decide +kernel
theorem test_word_division_roots : rowDecodes 0x0D0 [.fdiv, .fsqrt, .frcp, .frsq, .fexp2, .flog2, .ftanh] = true := by decide +kernel
theorem test_word_float_parts : rowDecodes 0x0D8 [.fround, .fclass, .fscale] = true := by decide +kernel
theorem test_word_formats : rowDecodes 0x120 [.cvt, .retag, .pack, .unpack, .pbq, .pbexpGet, .pbexpSet] = true := by decide +kernel
theorem test_word_random : rowDecodes 0x130 [.rng] = true := by decide +kernel
theorem test_word_weights : rowDecodes 0x160 [.wld, .wldt, .wclr] = true := by decide +kernel
theorem test_word_matrix : rowDecodes 0x168 [.mma, .mmz] = true := by decide +kernel
theorem test_word_memory : rowDecodes 0x180 [.lds, .sts, .ldg, .stg] = true := by decide +kernel
theorem test_word_atomics : rowDecodes 0x188 [.atomAdd, .atomMin, .atomMax, .atomXchg, .atomCas, .atomAnd, .atomOr] = true := by decide +kernel
theorem test_word_full_empty : rowDecodes 0x190 [.feSet, .feClr, .feTest] = true := by decide +kernel
theorem test_word_bobbins : rowDecodes 0x198 [.ringRes, .ringPub, .ringPop, .ringPeek, .ringClose, .ringStat] = true := by decide +kernel
theorem test_word_bank_tokens : rowDecodes 0x1A0 [.botGive, .botTake] = true := by decide +kernel
theorem test_word_bastings : rowDecodes 0x1A8 [.baste, .hem, .pressTest, .basteFinal] = true := by decide +kernel
theorem test_word_fences : rowDecodes 0x1B0 [.sbar, .fence, .tlWait, .tlRead] = true := by decide +kernel
theorem test_word_lots : rowDecodes 0x1B8 [.lotNew, .lotEnd] = true := by decide +kernel
theorem test_word_teams : rowDecodes 0x1F0 [.teamid, .tbar, .launch, .clkrd] = true := by decide +kernel

/-- Words of the Xphido opcodes (R276): rd x10, rs1 x11, rs2 x12. -/
def hartWords (l : List (BitVec 32 × Instr)) : Bool := l.all fun x => decodeHart x.1 == .ok x.2
theorem test_word_custom0 : hartWords [
    (0x00C5850B, Instr.rgAlloc 10 11 12), (0x0205850B, .rgFree 10 11), (0x04C5850B, .rgPlace 10 11 12),
    (0x06C5850B, .rgLoad 10 11 12), (0x08C5850B, .rgStart 10 11 12), (0x0A05850B, .rgStop 10 11), (0x0C05850B, .rgDrain 10 11),
    (0x0EC5850B, .rgSave 10 11 12), (0x10C5850B, .rgRestore 10 11 12), (0x1205850B, .rgKill 10 11),
    (0x1405850B, .rgShut 10 11), (0x16C5850B, .rgStat 10 11 12), (0x2000050B, .lotSweep 10), (0x00C5950B, .cpStart 10 11 12),
    (0x02C5950B, .cpQuery 10 11 12), (0x0405950B, .coreTlRead 10 11), (0x06C5950B, .coreTlWait 10 11 12),
    (0x08C5950B, .tlAdd 10 11 12), (0x00C5A50B, .coreLaunch 10 11 12), (0x0205A50B, .fqPop 10 11),
    (0x04C5A50B, .fwSet 10 11 12), (0x06C5A50B, .ptInv 10 11 12), (0x08C5A50B, .dbgRd 10 11 12), (0x0AC5A50B, .dbgWr 10 11 12)] = true := by decide +kernel
theorem test_word_custom1 : hartWords [
    (0x0005852B, Instr.ldacqW 10 11 .cell), (0x0205852B, .ldacqW 10 11 .region), (0x1605852B, .ldacqD 10 11 .die),
    (0x1805852B, .ldacqD 10 11 .part), (0x0AC5902B, .strelW 12 11 .module), (0x0CC5902B, .strelW 12 11 .system),
    (0x1CC5902B, .strelD 12 11 .system), (0x0600202B, .fenceP .die .acq), (0x1600202B, .fenceP .die .rel),
    (0x2600202B, .fenceP .die .acqrel), (0x3600202B, .fenceP .die .sc), (0x08C5B52B, .monWait 10 11 12 .part .ne),
    (0x18C5B52B, .monWait 10 11 12 .part .geu)] = true := by decide +kernel
/-- No row; a fixed 0 that is not 0; an invalid scope or condition (R277). -/
theorem test_word_unassigned : ([0x18C5850B, 0x02C5850B, 0x2005850B, 0x00C5B50B, 0x0405852B, 0x0E05852B, 0x0610202B, 0x28C5B52B, 0x2605852B, 0x06C590AB] : List (BitVec 32)).all
    (fun w => decodeHart w == .ok (.unassignedXphido w)) = true := by decide +kernel

/-! ### Standards: the published digests of the empty message and of `abc` (FIPS 180-4), and of two images -/

theorem test_sha256 : shaDigest [0x61, 0x62, 0x63] =
      [0xba, 0x78, 0x16, 0xbf, 0x8f, 0x01, 0xcf, 0xea, 0x41, 0x41, 0x40, 0xde, 0x5d, 0xae, 0x22, 0x23,
       0xb0, 0x03, 0x61, 0xa3, 0x96, 0x17, 0x7a, 0x9c, 0xb4, 0x10, 0xff, 0x61, 0xf2, 0x00, 0x15, 0xad] ∧
    (shaDigest []).take 4 = [0xe3, 0xb0, 0xc4, 0x42] := by decide +kernel
theorem test_digests_differ : sha256 (imageWhole [0]) ≠ sha256 (imageWhole [1]) := by decide +kernel
theorem test_signature_length : slhDsaVerify 0 [] [] = false := by decide +kernel
/-! ### Witnesses: compute-element results -/

theorem test_arith_fires : ∀ op ∈ arithOps, Meets (ceAt (op.1 wV) wV) (op.1 wV) wV any := meets_all (by decide +kernel)
theorem test_arith_fires_scalar : ∀ op ∈ arithOps, Meets (ceAt (op.1 wS) wS) (op.1 wS) wS any :=
  meets_all (by decide +kernel)
theorem test_bitwise_fires : ∀ op ∈ bitOps, Meets (ceAt (op.1 wF) wF) (op.1 wF) wF any := meets_all (by decide +kernel)
theorem test_compare_fires : ∀ op ∈ cmpOps, Meets (ceAt (op.1 wV) wV) (op.1 wV) wV any := meets_all (by decide +kernel)

/-- `sel`; bit fields of one bit at position 31 and of all 32 bits. -/
def wSel : CEWord := { wV with sc := .v 3 }
def wTop : CEWord := { wS with imm := 0x11F }
def wAll : CEWord := { wS with imm := 0x2000 }
theorem test_select_fires : Meets (ceAt (.sel wSel) wSel) (.sel wSel) wSel any := meets_spec (by decide +kernel)
theorem test_fields_fire : ∀ w ∈ [wTop, wAll],
    Meets (ceAt (.bfi w) w) (.bfi w) w fun _ _ _ _ => (Instr.bfi w).wf := by
  intro w h
  rcases List.mem_pair.mp h with rfl | rfl
  · exact meets_spec (by decide +kernel)
  · exact meets_spec (by decide +kernel)
theorem test_extract_fires : Meets (ceAt (.bfx { wTop with sb := .zero }) { wTop with sb := .zero })
    (.bfx { wTop with sb := .zero }) { wTop with sb := .zero }
    fun _ _ _ _ => (Instr.bfx { wTop with sb := .zero }).wf := meets_spec (by decide +kernel)

def wZero : CEWord := { wS with sb := .zero }
theorem test_division_completes : ∀ op ∈ divOps, Meets (ceAt (op.1 wS) wS id fun r => { r with dztrap := true }) (op.1 wS) wS
    fun e _ b _ => e.spot.r.dztrap && b.val.word != 0 := meets_all (by decide +kernel)
theorem test_division_traps : ∀ op ∈ divOps, Meets (ceAt (op.1 wZero) wZero id fun r => { r with dztrap := true })
    (op.1 wZero) wZero fun e _ b _ => e.spot.r.dztrap && b.val.word == 0 && e.suppress == none &&
      e.s.policyOf e.spot.r 0 != polShut := meets_all (by decide +kernel)

theorem test_float_fires : ∀ op ∈ floatOps, Meets (ceAt (op.1 wF) wF) (op.1 wF) wF any := meets_all (by decide +kernel)
theorem test_float_compare_fires : ∀ op ∈ fcmpOps, Meets (ceAt (op.1 wF) wF) (op.1 wF) wF any :=
  meets_all (by decide +kernel)
theorem test_class_fires : Meets (ceAt (.fclass wF) wF) (.fclass wF) wF any := meets_spec (by decide +kernel)

def isVecSrc (a : Src) : Bool := a.val.isVec
theorem test_lanes_fire : ∀ op ∈ laneOps, Meets (ceAt (op.1 wX) wX) (op.1 wX) wX fun _ a _ _ => isVecSrc a :=
  meets_all (by decide +kernel)
def wMask (n : Nat) : CEWord := { wX with imm := BitVec.ofNat 32 n }
theorem test_masks_fire : ∀ n ∈ [0, 1, 2, 3], Meets (ceAt (.lmask (wMask n)) (wMask n)) (.lmask (wMask n)) (wMask n)
    fun _ a _ _ => isVecSrc a := fun n hn => meets_spec ((by decide +kernel : ∀ n ∈ [0, 1, 2, 3],
      meetsAny (ceAt (.lmask (wMask n)) (wMask n)) (.lmask (wMask n)) (wMask n) _ = true) n hn)
theorem test_extl_fires : Meets (ceAt (.extl wX) wX) (.extl wX) wX fun _ a _ _ => isVecSrc a :=
  meets_spec (by decide +kernel)
theorem test_reductions_fire : ∀ i ∈ [Instr.redadd wF, .redmin wF, .redmax wF, .scan wF], Meets (ceAt i wF) i wF
    fun _ a _ _ => isVecSrc a := meets_all (by decide +kernel)
theorem test_conversions_fire : ∀ op ∈ convOps, Meets (ceAt (op.1 wF) wF) (op.1 wF) wF any := meets_all (by decide +kernel)

def wP8 : CEWord := { wX with fmt := .pb8 }
theorem test_formats_fire : ∀ i ∈ [Instr.retag wP8, .pbq wP8, .pbexpGet wP8, .pbexpSet wP8, .rng wP8],
    Meets (ceAt i wP8) i wP8 fun _ a _ _ => isVecSrc a := meets_all (by decide +kernel)

/-- Vector registers hold a vector of this format. -/
def tagged (f : Fmt) (c : Cell) : Cell :=
  { c with ce := Ce.hold (Ce.hold c.ce 1 { vecA with fmt := f } 0) 2 { vecB with fmt := f } 15 }
def wW : CEWord := { plainWord with sa := .v 1, sb := .s 2 }
theorem test_wld_loads : Meets (ceAt (.wld wW) wW) (.wld wW) wW fun _ a b _ =>
    (asVec a.val).fmt == .i32 && b.val.word.toNat % 16 == 15 := meets_spec (by decide +kernel)
theorem test_wld_spans : Meets (ceAt (.wld wW) wW (tagged .pb4)) (.wld wW) wW fun e a b _ =>
    (asVec a.val).fmt == .pb4 && decide (8 ≤ b.val.word.toNat % 16) && e.s.policyOf e.spot.r 0 != polShut :=
  meets_spec (by decide +kernel)
/-- Sixteen F32 elements down column 15 from row 0 fit in slot 0. -/
theorem test_wldt_loads : Meets (ceAt (.wldt wW) wW (tagged .f32)) (.wldt wW) wW fun _ a b _ =>
    let n := b.val.word.toNat
    !isPleated (asVec a.val).fmt && n % 16 == 15 &&
      (List.range 16).all fun i => decide (n / 2048 % 4 + ((n / 16 % 128 + i) * 16 + n % 16) / slotCap (asVec a.val).fmt < 4) := meets_spec (by decide +kernel)
theorem test_wldt_spans : Meets (ceAt (.wldt wW) wW (tagged .pb8)) (.wldt wW) wW fun e a _ _ =>
    isPleated (asVec a.val).fmt && e.s.policyOf e.spot.r 0 != polShut := meets_spec (by decide +kernel)
theorem test_wclr_fires : Meets (ceAt (.wclr { wW with imm := 0x800 }) { wW with imm := 0x800 })
    (.wclr { wW with imm := 0x800 }) { wW with imm := 0x800 } any := meets_spec (by decide +kernel)

/-- BF16 activations over BF16 slots: rows 0 to 31 fit in slot 0, and from row 63 of slot 3 they do not. -/
def slotsB (c : Cell) : Cell :=
  let c := tagged .bf16 c
  { c with ce := { c.ce with w := (List.range 4).map fun k => (k, { fmt := .bf16 }) } }
def wM : CEWord := { plainWord with dst := .v 4, sa := .v 1, sb := .v 2, fmt := .f32 }
def wMs : CEWord := { wM with imm := 0xFF00 }
theorem test_matrix_rounds : ∀ i ∈ [Instr.mma wM, .mmz wM], Meets (ceAt i wM slotsB) i wM
    fun e a _ _ => isVecSrc a && !spanFault e.c.ce.w (asVec a.val).fmt 0 0 := meets_all (by decide +kernel)
theorem test_matrix_spans : ∀ i ∈ [Instr.mma wMs, .mmz wMs], Meets (ceAt i wMs slotsB) i wMs
    fun e a _ _ => isVecSrc a && spanFault e.c.ce.w (asVec a.val).fmt 3 63 && e.s.policyOf e.spot.r 0 != polShut :=
  meets_all (by decide +kernel)

/-! ### Witnesses: dataflow -/

/-- Tokens at the heads of vi0 and ci0. -/
def heads (ma mb : Marker) (x : Bool) (c : Cell) : Cell :=
  { c with ce := { c.ce with
      vi := [(0, [{ body := .vec vecA, ctx := 0, mark := ma }])], ci := [(0, [{ body := .ctl x, ctx := 0, mark := mb }])]
      si := [(0, [{ body := .scal 3, ctx := 0, mark := mb }])] } }

/-- A vector that vi0 brings, steered by ci0. -/
def wD : CEWord := { plainWord with vreq := 1, creq := 1, dst := .voBoth, sa := .vi 0, sb := .ci 0, deqA := true, deqB := true }
/-- vi0 alone. -/
def wOne : CEWord := { plainWord with vreq := 1, dst := .voBoth, sa := .vi 0, deqA := true, pset := true, pdst := 7 }

theorem test_moves_fire : ∀ x ∈ ([.data, .refire, .eos, .cfg] : List Marker).flatMap fun m =>
    [(m, Instr.nop plainWord, plainWord), (m, .mov wOne, wOne), (m, .absorb wOne, wOne), (m, .mark wS, wS)],
    MeetsAny (ceAt x.2.1 x.2.2 (heads x.1 .data true)) x.2.1 x.2.2 any := each_spec (by decide +kernel)

/-- `steer` and `filter`: a marker from A, a marker from B, data on both with either condition. -/
theorem test_steer_fires : ∀ i ∈ [Instr.steer wD, .filter wD],
    (MeetsAny (ceAt i wD (heads .eos .data true)) i wD fun _ a _ _ => a.mark != .data) ∧
    (MeetsAny (ceAt i wD (heads .data .eos true)) i wD fun _ a b _ => a.mark == .data && b.mark != .data) ∧
    (MeetsAny (ceAt i wD (heads .data .data true)) i wD fun _ a b _ => a.mark == .data && b.mark == .data && b.val.word != 0) ∧
    (MeetsAny (ceAt i wD (heads .data .data false)) i wD fun _ a b _ => a.mark == .data && b.mark == .data && b.val.word == 0) := by
  intro i hi
  refine ⟨meetsAny_spec ?_, meetsAny_spec ?_, meetsAny_spec ?_, meetsAny_spec ?_⟩ <;> revert i <;> decide +kernel

/-- Inputs v1 and v2, both taken, chosen by ci0. -/
def wJoin : CEWord := { plainWord with creq := 1, dst := .v 4, sa := .ci 0, imm := 0x4241 }
def joins (e : Env) (k : Bool) : Bool :=
  let o := if k then wJoin.in1 else wJoin.in0
  decide (wJoin.in0 ≠ wJoin.in1 ∧ wJoin.in0 ∉ dropsOf wJoin ∧ wJoin.in1 ∉ dropsOf wJoin ∧ wJoin.dst ≠ wJoin.in0 ∧
    wJoin.dst ≠ wJoin.in1) && (match e.src wJoin o with
    | .ok _ => true
    | _ => false)
theorem test_merge_fires : ∀ k ∈ [false, true], MeetsAny (ceAt (.merge wJoin) wJoin (heads .data .data k)) (.merge wJoin) wJoin
    fun e a _ _ => a.mark == .data && (a.val.word != 0) == k && joins e k := each_spec (by decide +kernel)
theorem test_merge_marker : MeetsAny (ceAt (.merge wJoin) wJoin (heads .data .cfg true)) (.merge wJoin) wJoin
    fun _ a _ _ => a.mark != .data := meetsAny_spec (by decide +kernel)
/-- Input 1 is ready and input 0 is not; and the other way round. -/
def lone (k : Fin 16) (c : Cell) : Cell := { c with ce := { c.ce with v := [(k.val, { val := vecA, pres := true, lot := 1 })] } }
def wAny : CEWord := { wJoin with creq := 0, sa := .zero }
theorem test_amerge_fires : ∀ k ∈ [(1 : Fin 16), 2], MeetsAny (ceAt (.amerge wAny) wAny (lone k)) (.amerge wAny) wAny
    fun e _ _ _ => e.inputReady wAny wAny.in0 == (k == 1) && joins e (k == 2) := each_spec (by decide +kernel)

/-- A counter in s2, the value from vi0, the limit from si0. -/
def wRep : CEWord := { plainWord with vreq := 1, sreq := 1, dst := .vo 0, sa := .vi 0, sb := .s 2, sc := .si 0, deqA := true }
def counts (n : Word) (ma mc : Marker) (c : Cell) : Cell :=
  let c := heads ma mc true c
  { c with ce := Ce.hold c.ce 2 vecB n }
/-- The limit that si0 brings, 3, or 0. -/
def limit0 (c : Cell) : Cell :=
  let c := counts 0 .data .data c
  { c with ce := { c.ce with si := [(0, [{ body := .scal 0, ctx := 0 }])] } }
theorem test_repeat_fires :
    (MeetsAny (ceAt (.repeatTok wRep) wRep (counts 1 .eos .data)) (.repeatTok wRep) wRep fun _ a _ _ => a.mark != .data) ∧
    (MeetsAny (ceAt (.repeatTok wRep) wRep limit0) (.repeatTok wRep) wRep fun _ a _ c =>
      a.mark == .data && c.mark == .data && c.val.word == 0) ∧
    (MeetsAny (ceAt (.repeatTok wRep) wRep (counts 1 .data .data)) (.repeatTok wRep) wRep fun _ a b c =>
      a.mark == .data && c.mark == .data && (b.val.word + 1).ult c.val.word) ∧
    (MeetsAny (ceAt (.repeatTok wRep) wRep (counts 2 .data .data)) (.repeatTok wRep) wRep fun _ a b c =>
      a.mark == .data && c.mark == .data && c.val.word != 0 && !(b.val.word + 1).ult c.val.word) ∧
    (MeetsAny (ceAt (.repeatTok wRep) wRep (counts 2 .data .cfg)) (.repeatTok wRep) wRep fun _ a _ c =>
      a.mark == .data && c.mark != .data) ∧ Opnd.s 2 ∉ dropsPra wRep :=
  ⟨meetsAny_spec (by decide +kernel), meetsAny_spec (by decide +kernel), meetsAny_spec (by decide +kernel),
    meetsAny_spec (by decide +kernel), meetsAny_spec (by decide +kernel), by decide⟩
def wCount : CEWord := { plainWord with vreq := 1, dst := .so 0, sa := .vi 0, sb := .s 2, deqA := true, imm := 0x100 }
theorem test_count_fires : ∀ m ∈ [Marker.data, .eos, .refire, .cfg],
    MeetsAny (ceAt (.count wCount) wCount (counts 0xFFFFFFFF m .data)) (.count wCount) wCount fun _ a _ _ => a.mark == m :=
  each_spec (by decide +kernel)

def wPred : CEWord := { plainWord with dst := .p 7, sa := .s 1, sb := .p 0 }
theorem test_predicates_fire : ∀ i ∈ [Instr.pand wPred, .por wPred, .pxor wPred, .pnot wPred, .pmov wPred],
    Meets (ceAt i wPred) i wPred any := meets_all (by decide +kernel)
def wRf : CEWord := { wOne with pset := false, pdst := 0, imm := 0x8100 }
theorem test_rfclr_fires : MeetsAny (ceAt (.rfclr wRf) wRf (heads .refire .data true) fun r => { r with refire := [(0, 0, 1)] })
    (.rfclr wRf) wRf fun e _ _ _ => (outsOf wRf.dst != []) && e.spot.r.refireRegs e.spot.col e.spot.row == [.v 1] :=
  meetsAny_spec (by decide +kernel)

/-- The instruction's own slot holds its fault, stepped over. -/
def steppedOver (code : Nat) (r : Region) : Region :=
  { r with stepover := true, fault := some { code := code, cls := 1, cell := some (0, 0), slot := 0 } }
theorem test_ends_fire : ∀ i ∈ [Instr.halt plainWord, .exit plainWord], MeetsAny (ceAt i plainWord) i plainWord any :=
  each_spec (by decide +kernel)
theorem test_raised_faults_fire : ∀ op ∈ [(Instr.trap, fTrap), (Instr.brk, fBreak)],
    (MeetsAny (ceAt (op.1 plainWord) plainWord) (op.1 plainWord) plainWord fun e _ _ _ =>
      e.suppress != some op.2 && e.s.policyOf e.spot.r 0 != polShut) ∧
    (MeetsAny (ceAt (op.1 plainWord) plainWord id (steppedOver op.2)) (op.1 plainWord) plainWord fun e _ _ _ =>
      e.suppress == some op.2) := by
  intro op h
  rcases List.mem_pair.mp h with rfl | rfl
  · exact ⟨meetsAny_spec (by decide +kernel), meetsAny_spec (by decide +kernel)⟩
  · exact ⟨meetsAny_spec (by decide +kernel), meetsAny_spec (by decide +kernel)⟩

/-! ### Witnesses: what holds of every firing -/

theorem test_marker_passes : MeetsAny (ceAt (.add wOne) wOne (heads .eos .data true)) (.add wOne) wOne fun _ a b c =>
    markOf [a, b, c] == some .eos && !ownMarkers (.add wOne) := meetsAny_spec (by decide +kernel)

/-- Registers whose lot is not the instance's, under register lot mode T. -/
def strict (c : Cell) : Cell :=
  { c with ce := { c.ce with rlmode := .t, v := [(1, { val := vecA, pres := true, lot := 2 })] } }
theorem test_stale_source : ∃ e, (ceAt (.add wV) wV strict).env = some e ∧ e.enabled (.add wV) wV = true ∧
    e.src wV wV.sa = .stale ∧ NotShut (ceAt (.add wV) wV strict) e := by
  refine ⟨_, rfl, ?_, ?_, ?_⟩
  · decide +kernel
  · decide +kernel
  · unfold NotShut; decide +kernel

theorem test_not_enabled : ∀ e, (ceAt (.add wD) wD fun c => { c with ce := { c.ce with vi := [] } }).env = some e →
    e.enabled (.add wD) wD = false := by
  intro e h
  have k : (ceAt (.add wD) wD fun c => { c with ce := { c.ce with vi := [] } }).env.map
    (fun e => e.enabled (.add wD) wD) = some false := by decide +kernel
  rw [h] at k
  simpa using k

/-! ### Witnesses: memory element and global memory -/

/-- Two banks of one allocation, under mode z or t: line 127 is the instance's own, line 128 another's. -/
def scratch (m : LotMode) : Me :=
  { lines := [(127, { lot := 1, full := true, data := 5 }), (128, { lot := 2 })]
    allocs := [{ first := 0, count := 512, selv := 0, mode := m, fesync := false, baste := false, pool := false, index := 0 }]
    banks := [(0, { owned := true }), (1, { owned := true })] }
def line (m : LotMode) : LineAcc := { mode := m, own := 1 }

/-- The cell with that memory element and an offset in s1. -/
def onMe (off : Word) (m : Me) (c : Cell) : Cell := { c with me := m, ce := Ce.hold c.ce 1 vecA off }

def ownLine (e : Env) (w : CEWord) (off : Nat) (x : LineAcc) : Bool :=
  !w.remote && (e.c.me.bank (off / 128 / 128)).bound.isNone && decide (off < 0x20000) && e.acc (off / 128) == some x
theorem ownLine_spec {e w off x} (h : ownLine e w off x = true) : OwnLine e w off x := by
  simp only [ownLine, Bool.and_eq_true, Bool.not_eq_true', Option.isNone_iff_eq_none, decide_eq_true_eq, beq_iff_eq] at h
  exact ⟨h.1.1.1, h.1.1.2, h.1.2, h.2⟩

def wLd : CEWord := { plainWord with dst := .v 4, sa := .s 1 }
def wLs : CEWord := { plainWord with dst := .s 4, sa := .s 1 }
/-- The last vector of the own line, and the first word of the next one, which is another lot's. -/
theorem test_lds_reads : Meets (ceAt (.lds wLd) wLd (onMe 0x3FC0 (scratch .z))) (.lds wLd) wLd fun e a _ _ =>
    ownLine e wLd a.nat (line .z) && a.nat % 64 == 0 && (e.c.me.line (a.nat / 128)).isOwn (line .z) &&
      !(e.c.me.line (a.nat / 128)).badAt (a.nat % 128) 64 := meets_spec (by decide +kernel)
theorem test_lds_foreign : ∀ m ∈ [LotMode.z, .t], MeetsAny (ceAt (.lds wLs) wLs (onMe 0x4000 (scratch m))) (.lds wLs) wLs
    fun e a b c => ownLine e wLs a.nat (line m) && a.nat % 4 == 0 && !(e.c.me.line (a.nat / 128)).isOwn (line m) &&
      e.suppress == none && e.s.policyOf e.spot.r 0 != polShut && markOf [a, b, c] == none := each_spec (by decide +kernel)
theorem test_feTest_reads : Meets (ceAt (.feTest wLs) wLs (onMe 0x3FFF (scratch .z))) (.feTest wLs) wLs fun e a _ _ =>
    ownLine e wLs (a.nat / 128 * 128) (line .z) := meets_spec (by decide +kernel)

def wSt : CEWord := { plainWord with sa := .s 1, sb := .v 2 }
theorem test_sts_writes : Meets (ceAt (.sts wSt) wSt (onMe 0x3FC0 (scratch .z))) (.sts wSt) wSt fun e a b _ =>
    ownLine e wSt a.nat (line .z) && a.nat % 64 == 0 && dataMask b != 0 &&
      !e.c.me.writeBad (some (line .z)) (a.nat / 128) false := meets_spec (by decide +kernel)
theorem test_fe_writes : ∀ i ∈ [Instr.feClr wLs, .feSet wLs], Meets (ceAt i wLs (onMe 0x3FFF (scratch .z))) i wLs
    fun e a _ _ => ownLine e wLs (a.nat / 128 * 128) (line .z) && e.aPlus .region == [] := meets_all (by decide +kernel)

def wAt : CEWord := { plainWord with dst := .s 4, sa := .s 1, sc := .s 3 }
def wAt64 : CEWord := { plainWord with dst := .v 4, sa := .s 1, sc := .v 3, imm := 0x800 }
theorem test_atomics_write : ∀ op ∈ atomOps, Meets (ceAt (op.1 wAt) wAt (onMe 0x3FFC (scratch .z))) (op.1 wAt) wAt fun e a _ _ =>
    !wAt.atomGlobal && ownLine e wAt a.nat (line .z) && a.nat % 4 == 0 && !(e.c.me.line (a.nat / 128)).badAt (a.nat % 128) 4 &&
      (e.c.me.line (a.nat / 128)).isOwn (line .z) && !e.c.me.writeBad (some (line .z)) (a.nat / 128) false :=
  meets_all (by decide +kernel)
theorem test_atomics_write64 : ∀ op ∈ atomOps, Meets (ceAt (op.1 wAt64) wAt64 (onMe 0x4000 (scratch .z))) (op.1 wAt64) wAt64
    fun e a _ _ => wAt64.size64 && ownLine e wAt64 a.nat (line .z) && a.nat % 8 == 0 &&
      !(e.c.me.line (a.nat / 128)).isOwn (line .z) && !e.c.me.writeBad (some (line .z)) (a.nat / 128) false :=
  meets_all (by decide +kernel)

/-- A bobbin of four slots with one reserved and not published, or with one published. -/
def ring (res tail : Word) (closed : Bool) : Me :=
  { scratch .z with decls := [(0, .bobbin { base := 0, slots := 4, slotLines := 1, res := res, tail := tail, closed := closed })] }
def settled (e : Env) : Option Bobbin := (e.c.me.bobbin 0).map (·.settle e.s.reqDone)
theorem test_ring_reserves : ∀ k ∈ [false, true], MeetsAny (ceAt (.ringRes wLs) wLs (onMe 0 (ring 0 0 k))) (.ringRes wLs) wLs
    fun e a b c => (settled e).any (·.closed == k) && markOf [a, b, c] == none := each_spec (by decide +kernel)
def wPub : CEWord := { plainWord with sa := .s 1 }
theorem test_ring_publishes :
    (Meets (ceAt (.ringPub wPub) wPub (onMe 0 (ring 1 0 false))) (.ringPub wPub) wPub fun e a _ _ =>
      e.aPlus .region == [] && (settled e).any fun r => decide ((a.val.word - r.tail).toNat < (r.res - r.tail).toNat) &&
        !r.pub.getLsbD (a.val.word.toNat % r.slots)) ∧
    (Meets (ceAt (.ringPub wPub) wPub (onMe 0 (ring 0 0 false))) (.ringPub wPub) wPub fun e a _ _ =>
      e.s.policyOf e.spot.r 0 != polShut && (settled e).any fun r =>
        !decide ((a.val.word - r.tail).toNat < (r.res - r.tail).toNat) && !r.wasReserved a.val.word) ∧
    (Meets (ceAt (.ringPub wPub) wPub (onMe 0 { ring 0 0 true with decls :=
        [(0, .bobbin { base := 0, slots := 4, slotLines := 1, closed := true, discarded := 1 })] })) (.ringPub wPub) wPub
      fun e a _ _ => (settled e).any fun r =>
        !decide ((a.val.word - r.tail).toNat < (r.res - r.tail).toNat) && r.wasReserved a.val.word) :=
  ⟨meets_spec (by decide +kernel), meets_spec (by decide +kernel), meets_spec (by decide +kernel)⟩
theorem test_ring_takes : ∀ i ∈ [Instr.ringPop wLs, .ringPeek wLs],
    (Meets (ceAt i wLs (onMe 0 (ring 1 1 false))) i wLs fun e _ _ _ => (settled e).any fun r => r.head != r.tail) ∧
    (Meets (ceAt i wLs (onMe 0 (ring 0 0 true))) i wLs fun e _ _ _ => (settled e).any fun r => r.head == r.tail) := by
  intro i hi
  exact ⟨meets_all (l := [Instr.ringPop wLs, .ringPeek wLs]) (s := fun i => ceAt i wLs (onMe 0 (ring 1 1 false))) (i := id)
      (by decide +kernel) i hi,
    meets_all (l := [Instr.ringPop wLs, .ringPeek wLs]) (s := fun i => ceAt i wLs (onMe 0 (ring 0 0 true))) (i := id)
      (by decide +kernel) i hi⟩
theorem test_ring_closes : ∀ k ∈ [false, true], MeetsAny (ceAt (.ringClose wPub) wPub (onMe 0 (ring 1 0 k))) (.ringClose wPub) wPub
    fun e a b c => (settled e).any (·.closed == k) && markOf [a, b, c] == none := each_spec (by decide +kernel)
theorem test_ring_status : Meets (ceAt (.ringStat wLs) wLs (onMe 0 (ring 1 0 false))) (.ringStat wLs) wLs fun e _ _ _ =>
    (settled e).isSome := meets_spec (by decide +kernel)

/-- REMOTE words toward cell (0, 0) of the region itself; a global address in the LPDDR 6 of X-die 24 with its high
half in s2. -/
def wR (w : CEWord) : CEWord := { w with imm := w.imm ||| 0x2000 }
def wR1 : CEWord := wR wLs
def wRs : CEWord := wR wSt
def wG : CEWord := { plainWord with dst := .s 4, sa := .s 1, sb := .s 2, sc := .s 3, imm := 0x1000 }
def far (a hi : Word) (c : Cell) : Cell := { c with ce := Ce.hold (Ce.hold c.ce 1 vecA a) 2 vecB hi }
theorem test_remote_issues : ∀ i ∈ [Instr.lds wR1, .feSet wR1, .feClr wR1, .feTest wR1, .ringRes wR1, .ringPub wR1, .ringPop wR1,
    .ringPeek wR1, .ringClose wR1, .ringStat wR1, .hem wR1], Meets (ceAt i wR1 (onMe 0x3FFC (scratch .z))) i wR1
    fun _ a _ _ => wR1.remote && a.nat % 4 == 0 := meets_all (by decide +kernel)
theorem test_remote_store : Meets (ceAt (.sts wRs) wRs (onMe 0x3FC0 (scratch .z))) (.sts wRs) wRs fun _ a b _ =>
    wRs.remote && a.nat % dataSize b == 0 && dataMask b != 0 := meets_spec (by decide +kernel)
theorem test_remote_atomics : ∀ op ∈ atomOps, Meets (ceAt (op.1 (wR wAt)) (wR wAt) (onMe 0x3FFC (scratch .z))) (op.1 (wR wAt))
    (wR wAt) fun _ a _ _ => (wR wAt).remote && !(wR wAt).atomGlobal && a.nat % 4 == 0 := meets_all (by decide +kernel)
theorem test_global_issues : ∀ i ∈ [Instr.ldg wG, .stg wG, .atomAdd wG, .atomMin wG, .atomMax wG, .atomXchg wG, .atomCas wG,
    .atomAnd wG, .atomOr wG], Meets (ceAt i wG (far 0xFFFFFFFC 0x01800000)) i wG fun e a b c =>
      e.s.canonical e.id.die e.part (BitVec.ofNat 64 (b.nat * 2 ^ 32 + a.nat)) && wG.atomGlobal && a.nat % 4 == 0 && dataMask c != 0 :=
  meets_all (by decide +kernel)
theorem test_timeline_issues : ∀ i ∈ [Instr.tlWait wV, .tlRead wS], Meets (ceAt i wS) i wS any := meets_all (by decide +kernel)
/-- A record in LPDDR 6, no reply, eleven overrides. -/
def launchVec (addr : Nat) : VecVal := { data := BitVec.ofNat 512 (addr + 11 * 2 ^ 128), mask := 0xFFFF }
def wL : CEWord := { plainWord with sa := .v 1 }
theorem test_launch_issues : Meets (ceAt (.launch wL) wL fun c => { c with ce := Ce.hold c.ce 1 (launchVec 0x0180000000000400) 0 })
    (.launch wL) wL fun e a _ _ => let record : DWord := BitVec.ofNat 64 (vWord a 0 + 2 ^ 32 * vWord a 1)
      record.toNat % 1024 == 0 && e.s.canonical e.id.die e.part record && vWord a 2 == 0 && vWord a 3 == 0 && vWord a 4 == 11 :=
  meets_spec (by decide +kernel)

/-- R356-R358, R310 turned away: an offset or address off by one, an owner that no map entry has (logical die 0 of a
partition without dies), a store that enables nothing. -/
theorem test_misaligned : ∀ i ∈ [Instr.lds wLs, .ldg wG, .atomAdd wAt, .atomAdd wG],
    Meets (ceAt i wG (far 0x3FFD 0x01800000)) i wG fun e a _ _ => a.nat % 4 != 0 && e.s.policyOf e.spot.r 0 != polShut :=
  meets_all (by decide +kernel)
theorem test_misaligned_stores : (Meets (ceAt (.sts wSt) wSt (onMe 0x3FE0 (scratch .z))) (.sts wSt) wSt fun _ a b _ =>
      a.nat % dataSize b != 0) ∧ (Meets (ceAt (.stg wG) wG (far 0xFFFFFFFE 0x01800000)) (.stg wG) wG fun _ a _ c =>
      a.nat % dataSize c != 0) := ⟨meets_spec (by decide +kernel), meets_spec (by decide +kernel)⟩
theorem test_not_canonical : ∀ i ∈ [Instr.ldg wG, .stg wG, .atomOr wG], Meets (ceAt i wG (far 0 0)) i wG fun e a b _ =>
    !e.s.canonical e.id.die e.part (BitVec.ofNat 64 (b.nat * 2 ^ 32 + a.nat)) && a.nat % 4 == 0 := meets_all (by decide +kernel)
theorem test_launch_misaligned : Meets (ceAt (.launch wL) wL fun c => { c with ce := Ce.hold c.ce 1 (launchVec 0x200) 0 })
    (.launch wL) wL fun _ a _ _ => (vPair a 0).toNat % 1024 != 0 := meets_spec (by decide +kernel)
def noMask (c : Cell) : Cell := { far 0x40 0x01800000 c with ce := Ce.hold (far 0x40 0x01800000 c).ce 3 {} 0 }
def wSt3 : CEWord := { wSt with sb := .v 3 }
def wG3 : CEWord := { plainWord with sa := .s 1, sb := .s 2, sc := .v 3 }
theorem test_masked_stores : (Meets (ceAt (.sts wSt3) wSt3 noMask) (.sts wSt3) wSt3 fun _ a b _ =>
      dataMask b == 0 && a.nat % dataSize b == 0) ∧ (Meets (ceAt (.stg wG3) wG3 noMask) (.stg wG3) wG3 fun e a b c =>
      dataMask c == 0 && a.nat % dataSize c == 0 && e.s.canonical e.id.die e.part (BitVec.ofNat 64 (b.nat * 2 ^ 32 + a.nat))) :=
  ⟨meets_spec (by decide +kernel), meets_spec (by decide +kernel)⟩

def wB : CEWord := { plainWord with sa := .s 1, imm := 0x700 }
theorem test_bank_tokens : (Meets (ceAt (.botGive wB) wB fun c => { c with me := { c.me with banks := [(7, { owned := true })] } })
      (.botGive wB) wB any) ∧ (Meets (ceAt (.botTake wB) wB fun c => { c with me := { c.me with banks :=
        [(7, { tokens := [{ handle := 0, col := 0, row := 0, bank := 7, lot := 1 }] })] } }) (.botTake wB) wB any) :=
  ⟨meets_spec (by decide +kernel), meets_spec (by decide +kernel)⟩

/-- A basting buffer whose next version is v. -/
def basted (v : Nat) (shown : Option (BitVec 4)) : Me :=
  { scratch .z with decls := [(0, .basting { base := 0, lines := 2, v := v, shown := shown })] }
def bastedNo (e : Env) : Option Basting := e.c.me.basting 0
theorem test_baste_publishes : ∀ i ∈ [Instr.baste wLs, .basteFinal wLs],
    (Meets (ceAt i wLs (onMe 0 (basted 14 (some 13)))) i wLs fun e _ _ _ => (bastedNo e).any fun x =>
      x.shown != some 15 && x.due == [] && x.v != 15 && e.aPlus .region == []) := meets_all (by decide +kernel)
theorem test_baste_faults : ∀ i ∈ [Instr.baste wLs, .basteFinal wLs],
    (Meets (ceAt i wLs (onMe 0 (basted 15 (some 15)))) i wLs fun e _ _ _ => (bastedNo e).any fun x =>
      x.shown == some 15 && e.s.policyOf e.spot.r 0 != polShut) := meets_all (by decide +kernel)
theorem test_baste_past_last : Meets (ceAt (.baste wLs) wLs (onMe 0 (basted 15 (some 14)))) (.baste wLs) wLs fun e _ _ _ =>
    (bastedNo e).any fun x => !x.hemmed && x.v == 15 && x.shown != some 15 := meets_spec (by decide +kernel)
theorem test_hem_marks : Meets (ceAt (.hem plainWord) plainWord (onMe 0 (basted 1 none))) (.hem plainWord) plainWord
    fun e _ _ _ => (bastedNo e).isSome && !plainWord.remote := meets_spec (by decide +kernel)

/-- A load of the context that is still on its way. -/
def pendingLoad : Req :=
  { id := 0, agent := .ctx placedAt 0, region := some 0, goal := .me 0 0 0 (.read 0 4), st := .net }
theorem test_barriers_fire : ∀ i ∈ [Instr.fence plainWord, .sbar plainWord, .tbar plainWord],
    (Meets (ceAt i plainWord) i plainWord fun e _ _ _ => e.s.regions.get? e.spot.h == some e.spot.r) ∧
    (Meets { ceAt i plainWord with reqs := [pendingLoad] } i plainWord fun e _ _ _ =>
      e.s.pending (· == .ctx e.id e.ctx) e.id e.spot.h (e.scope plainWord) true != []) := by
  intro i hi
  exact ⟨meets_all (l := [Instr.fence plainWord, .sbar plainWord, .tbar plainWord]) (s := fun i => ceAt i plainWord) (i := id)
      (by decide +kernel) i hi,
    meets_all (l := [Instr.fence plainWord, .sbar plainWord, .tbar plainWord])
      (s := fun i => { ceAt i plainWord with reqs := [pendingLoad] }) (i := id) (by decide +kernel) i hi⟩

/-- A pool of all 1,024 lines; one live allocation. -/
def pooled (live : List PoolAlloc) : Me :=
  { allocs := [{ first := 0, count := 1024, selv := 0, mode := .z, fesync := false, baste := false, pool := true, index := 0 }]
    pool := live }
def wLot : CEWord := { plainWord with dst := .s 4, sa := .s 1 }
theorem test_lot_new : (∀ k ∈ [(0 : Word), 1025, 1023], MeetsAny (ceAt (.lotNew wLot) wLot (onMe k (pooled []))) (.lotNew wLot)
      wLot fun e a b c => markOf [a, b, c] == none && (a.nat == 0 || decide (1024 < a.nat) || e.c.me.poolPlace a.nat == none)) ∧
    (Meets (ceAt (.lotNew wLot) wLot (onMe 1022 (pooled []))) (.lotNew wLot) wLot fun e a _ _ =>
      e.c.me.poolPlace a.nat == some 1 && !(e.s.poolIdx e.spot.r).contains 1 &&
        lotFree (e.s.lots.get {} e.id.die) == some 2) := ⟨each_spec (by decide +kernel), meets_spec (by decide +kernel)⟩
theorem test_lot_end : ∀ h ∈ [(0x10001 : Word), 0x20001], MeetsAny (ceAt (.lotEnd wLot) wLot (onMe h (pooled
      [{ first := 1, count := 1, idx := 1, lot := 2, mode := .z, fesync := false }]))) (.lotEnd wLot) wLot fun e a b c =>
    markOf [a, b, c] == none && e.c.me.pool.all fun p => (a.nat == p.first + p.idx * 2 ^ 16) == (h == 0x10001) :=
  each_spec (by decide +kernel)

/-- A launch of one level, whose one instance is the region. -/
def team : Launch := { recAddr := 0, reply := 0, issuer := .host 24, part := 0, vd := 0, st := .running, insts := [{ n := 0, handle := some 0 }] }
theorem test_team_fires : ∀ i ∈ [Instr.teamid wLs, .clkrd wLs, .pressTest wLs], Meets { ceAt i wLs id fun r => { r with launch := some 0 }
    with launches := [(0, team)] } i wLs fun e _ _ _ => e.launch == some team := meets_all (by decide +kernel)

/-! ### WellFormed refuses an ill-formed term for each check -/

/-- One well-formed instruction, and what each change of its word breaks. -/
def refuses (i : CEWord → Instr) (w : CEWord) (bad : List CEWord) : Bool := (i w).wf && bad.all fun x => !(i x).wf

/-- The guard: a marker test without a required channel of its class, PVAL outside PMASK, DEQ[43] without a register to
clear. -/
theorem test_wf_guard : refuses .nop plainWord [{ plainWord with mkt := .vector .data }, { plainWord with mkt := .scalar .eos },
    { plainWord with mkt := .control .cfg }, { plainWord with pval := 1 }, { plainWord with deqP := true },
    { plainWord with prt := .absent 1, deqP := true }] = true := by decide +kernel
/-- Operands: a class out of place, a channel that the guard does not require, a DEQ bit of a source that has none. -/
theorem test_wf_operands : refuses .add wV [{ wV with dst := .vi 0 }, { wV with sa := .vo 0 }, { wV with sb := .so 1 }, { wV with sc := .v 1 },
    { wV with sa := .vi 0 }, { wV with sb := .si 0 }, { wV with sb := .ci 0 }, { wV with sb := .imm, deqB := true },
    { wV with deqC := true }, { wV with dst := .s 4 }, { wV with dst := .p 0 }] = true := by decide +kernel
/-- Fields that the instruction does not use: FMT, RND, SAT, PSET, PDST, OCTX, IMM. -/
theorem test_wf_fields : refuses .add wV [{ wV with fmt := .f32 }, { wV with rnd := .rtz }, { wV with sat := true }, { wV with pset := true },
    { wV with pdst := 1 }, { wV with imm := 1 }, { wV with octx := true, imm := 8 }] = true ∧
    refuses .nop plainWord [{ plainWord with octx := true }] = true ∧ refuses .fdiv wF [{ wF with fmt := .i32 }] = true ∧
    refuses .fcmpEq { wF with fmt := .bf16 } [wF] = true ∧ refuses .fclass { wF with fmt := .bf16, sb := .zero } [{ wF with sb := .zero }] = true := by
  decide +kernel
/-- Dataflow: a vector into a scalar destination, `steer` and its pair, the inputs of `merge`, `repeat` and its counter,
`count` of lanes of a scalar, `rfclr` with a destination and no source. -/
theorem test_wf_dataflow : refuses .mov { wV with sb := .zero } [{ wS with sa := .v 1, sb := .zero }] = true ∧
    refuses .steer wD [{ wD with dst := .soBoth }, { wD with sb := .v 1, deqB := false }] = true ∧
    refuses .merge wJoin [{ wJoin with imm := 0x4141 }, { wJoin with imm := 0x1101 }, { wJoin with imm := 0x2801 },
      { wJoin with prt := .present 1 }, { wJoin with imm := 0x3501 }] = true ∧
    refuses .repeatTok wRep [{ wRep with deqB := true }, { wRep with sb := .imm, imm := 1 }] = true ∧
    refuses .count { wS with sa := .si 0, sreq := 1 } [{ wS with sa := .si 0, sreq := 1, imm := 0x100 }] = true ∧
    refuses .rfclr plainWord [{ plainWord with dst := .vo 0 }] = true ∧ refuses .pand wPred [{ wPred with octx := true }] = true := by
  decide +kernel
/-- Computing: a bit field of length 0, one that passes bit 31, a third kind of scan, a mask kind with a lane operand,
conversions to a group that does not exist, exponents by group, bit counts of 0. -/
theorem test_wf_computing : refuses .bfi wTop [{ wTop with imm := 0x01F }, { wTop with imm := 0x21F }, { wTop with sa := .imm }] = true ∧
    refuses .scan wF [{ wF with imm := 3 }] = false ∧ refuses .scan { wF with sb := .zero } [{ wF with sb := .zero, imm := 3 }] = true ∧
    refuses .lmask wX [{ wX with imm := 2 }, { wX with dst := .s 4 }] = true ∧
    refuses .cvt { wV with sb := .zero } [{ wV with sb := .zero, imm := 0x100 }, { wV with sa := .s 1, sb := .zero, imm := 0x600 }] = true ∧
    refuses .pbq { wV with sb := .zero, fmt := .pb8, imm := 0x100 } [{ wV with sb := .zero, fmt := .pb8 }, { wV with sb := .zero, imm := 0x100 }] = true ∧
    refuses .pbexpSet { wX with imm := 0x1000 } [{ wX with imm := 0x1100 }] = true ∧
    refuses .rng { wX with sc := .s 3 } [{ wX with sc := .s 3, imm := 0x100 }] = true ∧
    refuses .wclr { plainWord with imm := 0x100 } [plainWord] = true ∧
    refuses .wld { plainWord with sa := .v 1, sb := .imm, imm := 63 } [{ plainWord with sa := .v 1, sb := .imm, imm := 64 }] = true := by
  decide +kernel
/-- Memory: a cell without REMOTE, PSET of a word that issues a request, the tag of a load, the forms of an atomic, a
scope, a mask of streams, a timeline, a pool mode. -/
theorem test_wf_memory : refuses .lds wLd [{ wLd with imm := 0x4000 }, { wLs with fmt := .f32 }, { wLd with fmt := .pb8 }] = true ∧
    refuses .ringRes { plainWord with dst := .s 4, pset := true } [{ plainWord with dst := .s 4, pset := true, imm := 0x2000 }] = true ∧
    refuses .atomAdd wAt [{ wAt with imm := 0x3000 }, { wAt with sb := .s 2 }, { wAt with sc := .v 3 }, { wAt with rnd := .rtz },
      { wAt with imm := 0x400 }, { wAt with imm := 0x800, sc := .v 3 }, { wAt with fmt := .f32, imm := 0x800, sc := .v 3, dst := .v 4 }] = true ∧
    refuses .atomOr wAt [{ wAt with fmt := .f32 }] = true ∧ refuses .atomCas { wAt with sc := .v 3 } [wAt] = true ∧
    refuses .fence { plainWord with imm := 0x400 } [{ plainWord with imm := 0x700 }, { plainWord with imm := 0xC00 }] = true ∧
    refuses .sbar { plainWord with imm := 0x10400 } [{ plainWord with imm := 0x400 }] = true ∧
    refuses .tlRead { plainWord with dst := .s 4, imm := 0x80000000 } [{ plainWord with dst := .s 4 },
      { plainWord with dst := .s 4, imm := 0x80010000 }] = true ∧
    refuses .lotNew wLot [{ wLot with imm := 0x300 }] = true ∧ refuses .launch wL [{ wL with dst := .co 0 }] = true := by decide +kernel
/-- Xphido words and events: a scope with an invalid code, an unassigned word that names a row, arguments that name
nothing. -/
theorem test_wf_others : ([.ldacqW 10 11 .team, .ldacqD 10 11 .team, .strelW 10 11 .team, .strelD 10 11 .team, .fenceP .team .sc,
      .monWait 10 11 12 .team .ne, .unassignedXphido 0x00C5950B, .unassignedXphido 0x13,
      .registerWrite (.block 26 0) 0, .registerWrite (.csr 0 16 0x300) 0, .wipeComplete (.lpddr 0) true, .imageVerifyDone 0, .digestExchange 26,
      .seamTraining (.seam 46) true, .spdmRequest 4 .keyExchange, .lifecycleToken 4 0 [] [] [], .recgoWrite 0 0, .patchClockGate 24 0,
      .powerGatePatch 0 288, .powerGateWake 0 288, .defmapWrite 0 5 0, .flitReplay { link := .edge true 6, crossing := 0, cls := .vec, up := true },
      .retrainingLock (.seam 46) 0, .seamstClr 26 0, .modidWrite 26 0, .monitorSample 0 12 0 0 0 0, .throttleRaise 24, .pwrlimWrite 0 0] : List Instr).all
    (fun i => !i.wf) = true := by decide +kernel
theorem test_wf_events : ([.inboundPostedWrite 24 514 .bar2 0 [] true, .inboundWriteAck 0 0, .mslotWrite 24 0 0x7FF [], .mslotWrite 24 0 0xFFF [1, 2],
      .msgLaunch 24 0 32 true, .featAcceptWrite 4 0, .winctlSync 0, .ualinkPeerRequest 24 4 0 (.load 8), .srentClearDone 24 64, .roceRequest 24 4096 0 (.load 8),
      .tenantBucketRefill 24 4096, .lfdropClr 24 7, .partcfgWrite 24 0, .xpartWrite 24 24 0, .lrcDone 0 5, .partitionReset 24,
      .switchTick 0 24, .vdcfgWrite 0 1024 0, .seamFailureMessage 0 46, .tokenHop { die := 24, col := 0, row := 0 } .vec (.out 0),
      .agElement { die := 0, col := 96, row := 0 } 0 .clean, .bastePublish { die := 0, col := 0, row := 48 } 0, .dnwgtWrite 0 2 0, .slogctlKick 0 8 0,
      .dmapWrite 0 26 0, .copyComplete { die := 0, eng := 16, ctx := 0 }, .rgDrainTimeout 0 16, .xpirqClear 24 32 0, .apertureAccess 0 16 (.load 0 8 true 0)] : List Instr).all
    (fun i => !i.wf) = true := by decide +kernel

/-! ### Single steps, with results worked out by hand -/

def after (i : Instr) (s : State) (P : State → Bool) : Bool :=
  match exec i s with
  | .next t => P t
  | _ => false
/-- Lane k of v4, or s4, after the instruction. -/
def laneIs (i : CEWord → Instr) (w : CEWord) (l : List (Nat × Word)) : Bool :=
  after (i w) (ceAt (i w) w) fun t => l.all fun x =>
    (((t.cells.get {} placedAt).ce.v.get {} 4).val.data.extractLsb' (32 * x.1) 32) == x.2
def scalIs (i : CEWord → Instr) (a b r : Word) : Bool :=
  after (i wS) (ceAt (i wS) wS fun c => { c with ce := Ce.hold (Ce.hold c.ce 1 vecA a) 2 vecB b }) fun t =>
    ((t.cells.get {} placedAt).ce.s.get {} 4).val == r

/-- Integers (R315-R319): wraps, signs, saturation, shifts by 31 and 2. -/
theorem test_step_add : laneIs .add wV [(0, 0x8000001F), (1, 1), (2, 0x80000001), (3, 2)] = true := by decide +kernel
theorem test_step_sub : laneIs .sub wV [(0, 0x7FFFFFE1), (1, 0xFFFFFFFD), (2, 0x7FFFFFFD), (3, 0xFFFFFFFE)] = true := by decide +kernel
theorem test_step_mulhs : scalIs .mulhs 0x80000000 0x80000000 0x40000000 = true ∧ scalIs .mulhs 0xFFFFFFFF 2 0xFFFFFFFF = true := by
  decide +kernel
theorem test_step_mulhu : scalIs .mulhu 0xFFFFFFFF 2 1 = true := by decide +kernel
theorem test_step_addSat : laneIs .addSat wV [(0, 0x8000001F), (2, 0x7FFFFFFF)] = true := by decide +kernel
theorem test_step_addSatu : laneIs .addSatu wV [(1, 0xFFFFFFFF), (2, 0x80000001)] = true := by decide +kernel
theorem test_step_sar : laneIs .sar wV [(0, 0xFFFFFFFF), (1, 0xFFFFFFFF), (2, 0x1FFFFFFF)] = true := by decide +kernel
theorem test_step_shr : laneIs .shr wV [(0, 1), (1, 0x3FFFFFFF)] = true := by decide +kernel
theorem test_step_rol : laneIs .rol wV [(0, 0x40000000), (2, 0xFFFFFFFD)] = true := by decide +kernel
theorem test_step_divs : scalIs .divs 0xFFFFFFF9 2 0xFFFFFFFD = true ∧ scalIs .divs 0x80000000 0xFFFFFFFF 0x80000000 = true := by decide +kernel
theorem test_step_rems : scalIs .rems 0xFFFFFFF9 2 0xFFFFFFFF = true := by decide +kernel
theorem test_step_divu_zero : scalIs .divu 5 0 0xFFFFFFFF = true := by decide +kernel
theorem test_step_clz : laneIs .clz { wV with sb := .zero } [(0, 0), (2, 1), (3, 32)] = true := by decide +kernel
theorem test_step_mins : laneIs .mins wV [(0, 0x80000000), (1, 0xFFFFFFFF), (2, 2), (3, 0)] = true := by decide +kernel
theorem test_step_maxu : laneIs .maxu wV [(0, 0x80000000), (1, 0xFFFFFFFF), (2, 0x7FFFFFFF), (3, 2)] = true := by decide +kernel
theorem test_step_cmpLt : laneIs .cmpLt wV [(0, 0xFFFFFFFF), (1, 0xFFFFFFFF), (2, 0), (3, 0xFFFFFFFF)] = true := by decide +kernel
theorem test_step_cmpLtu : laneIs .cmpLtu wV [(0, 0), (1, 0), (2, 0), (3, 0xFFFFFFFF)] = true := by decide +kernel
/-- Floats as scalars (R322-R327): 1.5 + 2.25, ties to even, the sign of a zero, 1/3 rounded, the root of 2. -/
def floatIs (i : CEWord → Instr) (a b r : Word) : Bool :=
  let w : CEWord := { wS with fmt := .f32 }
  after (i w) (ceAt (i w) w fun c => { c with ce := Ce.hold (Ce.hold c.ce 1 vecA a) 2 vecB b }) fun t =>
    ((t.cells.get {} placedAt).ce.s.get {} 4).val == r
theorem test_step_fadd : floatIs .fadd 0x3FC00000 0x40100000 0x40700000 = true ∧ floatIs .fadd 0x4B800000 0x3F800000 0x4B800000 = true := by
  decide +kernel
theorem test_step_fmul : floatIs .fmul 0x3FC00000 0xC0000000 0xC0400000 = true ∧ floatIs .fmul 0x80000000 0x3F800000 0x80000000 = true := by
  decide +kernel
theorem test_step_fdiv : floatIs .fdiv 0x3F800000 0x40400000 0x3EAAAAAB = true := by decide +kernel
def rootIs (a r : Word) : Bool :=
  let w : CEWord := { wS with fmt := .f32, sb := .zero }
  after (.fsqrt w) (ceAt (.fsqrt w) w fun c => { c with ce := Ce.hold c.ce 1 vecA a }) fun t =>
    ((t.cells.get {} placedAt).ce.s.get {} 4).val == r
theorem test_step_fsqrt : rootIs 0x40000000 0x3FB504F3 = true ∧ rootIs 0x40800000 0x40000000 = true := by decide +kernel
/-- Lanes (R328-R334): rotation by one, the sum over all lanes, one lane in and out. -/
theorem test_step_lrot : laneIs .lrot { wX with sb := .imm, imm := 1 } [(0, 1), (1, 0x80000000), (2, 0xFFFFFFFF)] = true := by decide +kernel
theorem test_step_redadd : after (.redadd { wX with dst := .s 4, sb := .zero }) (ceAt (.redadd { wX with dst := .s 4, sb := .zero })
    { wX with dst := .s 4, sb := .zero }) (fun t => ((t.cells.get {} placedAt).ce.s.get {} 4).val == 0x0000000A) = true := by decide +kernel
/-- `sts` then the line: four bytes of s2 at the last word of line 126; the line's lot is the instance's (R202, R356). -/
theorem test_step_sts : let w : CEWord := { plainWord with sa := .s 1, sb := .s 2 }
    after (.sts w) (ceAt (.sts w) w (onMe 0x3F7C (scratch .z))) (fun t =>
      ((t.cells.get {} placedAt).me.line 126).data == BitVec.ofNat 1024 (31 * 2 ^ 992) && ((t.cells.get {} placedAt).me.line 126).lot == 1) = true := by
  decide +kernel
theorem test_step_lds : after (.lds wLs) (ceAt (.lds wLs) wLs (onMe 0x3F80 (scratch .z))) (fun t =>
    ((t.cells.get {} placedAt).ce.s.get {} 4).val == 5) = true := by decide +kernel
/-- `halt` halts its context alone (R303). -/
theorem test_step_halt : let w : CEWord := { plainWord with ctx := 3 }
    after (.halt w) (ceAt (.halt w) w) (fun t => (t.cells.get {} placedAt).ce.halted == 0x08) = true := by decide +kernel

/-! ### Steps -/

/-- A turn of hart 0 with `cp.start x10, x11, x12` at its pc, one of a cell with a word, one of an event, an idle step. -/
def hartTurn : State := State.reset.withFetchWord 32 0x00C5950B
theorem test_hart_turn : (∃ rest, hartTurn.agenda = (0, .hart 0 0) :: rest) ∧ hartExists 0 0 = true ∧ (hartTurn.hart 0 0).running = true ∧
    (hartTurn.hart 0 0).interrupted = none ∧ hartTurn.fetchWord 0 0 = some 0x00C5950B#32 ∧ decodeHart 0x00C5950B = .ok (.cpStart 10 11 12) :=
  ⟨⟨_, rfl⟩, by decide +kernel, by decide +kernel, by decide +kernel, by decide +kernel, by decide +kernel⟩
def ceTurn : State := State.reset.withFetchWord 128 (fullBits + 0x040 * 2 ^ 71)
theorem test_ce_turn : (∃ rest, ceTurn.agenda = (0, .ce placedAt) :: rest) ∧ placedAt.ok = true ∧
    ceTurn.selected placedAt = some (80, .add fullWord) := ⟨⟨_, rfl⟩, by decide +kernel, by decide +kernel⟩
theorem test_event_turn : State.reset.agenda = [(0, .event .coldReset)] ∧ ({ State.reset with agenda := [] } : State).agenda = [] := ⟨rfl, rfl⟩
/-- The placed `cp.start` finds no timeline in x12 = 0 and answers so; the pc goes to the next word. -/
theorem test_step_cpStart : (match step hartTurn with
    | .next t => (t.hart 0 0).pc == (hartTurn.hart 0 0).pc + 4 && (t.hart 0 0).readX 10 != 0 && t.cycle == hartTurn.cycle
    | _ => false) = true := by decide +kernel
/-- The premises of the statements over every step. -/
theorem test_step_premises : ∃ s t : State, s.Inv ∧ step s = .next t := by
  refine ⟨{ State.reset with agenda := [] }, _, ⟨rfl, ?_, ?_, ?_⟩, rfl⟩ <;> intro a h <;> cases h
/-- A word that stands for a well-formed step and back (10 R289). -/
def wSteer : CEWord := { plainWord with ctx := 2, vreq := 1, creq := 1, dst := .voBoth, sa := .vi 0, sb := .ci 0, deqA := true, deqB := true }
theorem test_round_trip : (Instr.steer wSteer).wf = true ∧ encode (.steer wSteer) = some (128, 0xA101000000000165051AE00000000000) ∧
    decodeCE 0xA101000000000165051AE00000000000 = .ok (.steer wSteer) ∧ encode (.cpStart 10 11 12) = some (32, 0x00C5950B) := by decide +kernel

/-! ### Witnesses: the Xphido extension -/

/-- Three entries that map the first 16 GiB of logical die 0 under ASID 1 onto its own HBM4, with every permission. -/
def tables : Memory :=
  Memory.writeN (Memory.writeN (Memory.writeN [] (homeKey 0 0x10008) ((leBytes 8 0x20001).map some)) (homeKey 0 0x20000)
    ((leBytes 8 0x30001).map some)) (homeKey 0 0x30000) ((leBytes 8 0x100F).map some)

/-- Partition 0 is die 0; VD 0 has ASID 1 and weight 1; both X-dies READY, revision 0 active. -/
def base : State :=
  { State.reset with
    agenda := [], boots := bootedX, feat := { offer := 1, active := 1, accepted := true }, mem := tables
    regs := [((0, RegName.partcfg.off), 0x300), ((0, (RegName.dmap 0).off), 0x800000), ((0, (RegName.mtrbase 0).off), 0x10000)
      , ((0, (RegName.vdasid 0).off), 0x10001), ((0, (RegName.vdcfg 0).off), 0x100000001)]
    wipes := [(.hbm 0, .done), (.lpddr 24, .done), (.cells 0, .done)], lots := [(0, { counter := 1, live := [1] })] }

/-- Hart 0 of a die with x11 and x12, under ASID 1, at address 0. -/
def hartOf (a b : DWord) : Hart := { x := [(11, a), (12, b)], xpasid := 0x10001, running := true }
def hartAt (d : Nat) (a b : DWord) (f : State → State := id) : State :=
  f { base with focus := .hart d 0, harts := [((d, 0), hartOf a b)] }

def hartOk (h : Hart) : Bool :=
  (h.x.get? 0).isNone && !h.pc.getLsbD 0 && h.xpasid &&& ~~~(bitsMask 16 0) == 0 &&
    h.xpseg.all fun e => e.2 &&& ~~~(bitsMask 63 44) == 0
theorem hartOk_spec {h : Hart} (k : hartOk h = true) : h.Ok := by
  simp only [hartOk, Bool.and_eq_true, Option.isNone_iff_eq_none, Bool.not_eq_true', beq_iff_eq, List.all_eq_true] at k
  exact ⟨k.1.1.1, k.1.1.2, k.1.2, k.2⟩

/-- The form may run on hart 0 of die d in s, and P holds. -/
def formsB (s : State) (d : Nat) (i : Instr) : Bool :=
  s.focus == .hart d 0 && (match allowedFor i with
    | some a => (if isC d then a.tailor else a.system) && (!a.priv || (s.hart d 0).priv != .u)
    | none => false) && hartOk (s.hart d 0) && !s.hartPending d 0 && !s.hartInFlight d 0
theorem formsB_spec {s d i} (k : formsB s d i = true) : Forms s d 0 i := by
  simp only [formsB, Bool.and_eq_true, beq_iff_eq, Bool.not_eq_true'] at k
  obtain ⟨⟨⟨⟨h1, h2⟩, h3⟩, h4⟩, h5⟩ := k
  refine ⟨h1, ?_, hartOk_spec h3, h4, h5⟩
  split at h2
  · next a ha =>
    simp only [Bool.and_eq_true, Bool.or_eq_true, Bool.not_eq_true', bne_iff_ne, ne_eq] at h2
    refine ⟨a, ha, ?_, fun hp => ?_⟩
    · split <;> simp_all
    · simpa [hp] using h2.2
  · cases h2

/-- A form that runs, in a state with the property P. -/
def Runs (s : State) (d : Nat) (i : Instr) (P : State → Bool) : Prop := Forms s d 0 i ∧ P s = true
theorem runs_spec {s d i P} (k : (formsB s d i && P s) = true) : Runs s d i P := by
  rw [Bool.and_eq_true] at k
  exact ⟨formsB_spec k.1, k.2⟩
theorem runs_all {α : Type} {l : List α} {s : α → State} {d : Nat} {i : α → Instr} {P : α → State → Bool}
    (k : (l.all fun x => formsB (s x) d (i x) && P x (s x)) = true) : ∀ x ∈ l, Runs (s x) d (i x) (P x) :=
  fun x hx => runs_spec (List.all_eq_true.mp k x hx)

/-- The region that x11 names, of the hart's die and free of other drains. -/
def onTarget (s : State) (P : Region → Bool) : Bool :=
  (match (xenv s 0 0).target ((s.hart 0 0).readX 11) with
    | .ok (w, r) => !(xenv s 0 0).busy w && P r
    | .error _ => false)
def yes : State → Bool := fun _ => true

/-- One region of one cell under handle 0, in a state. -/
def regionIn (st : RState) (f : Region → Region) (s : State) : State :=
  { s with regions := [(0, f { placedRegion with state := st })] }
def withRegion (st : RState) (b : DWord) (f : Region → Region := id) : State := hartAt 0 0 b (regionIn st f)
def inState (st : RState) (s : State) : Bool := onTarget s fun r => r.state == st

/-- Forms in U-mode, on a core of the other kind. -/
theorem test_illegal_forms :
    (¬ tailorOnly.at (hartAt 24 0 0) 24 0) ∧ (¬ systemOnly.at (hartAt 0 0 0) 0 0) ∧
    (¬ bothCores.at (hartAt 0 0 0 fun s => { s with harts := [((0, 0), { hartOf 0 0 with priv := .u })] }) 0 0) := by
  refine ⟨?_, ?_, ?_⟩
  · simp [Allowed.at, tailorOnly, isC]
  · simp [Allowed.at, systemOnly, isC]
  · unfold Allowed.at; decide +kernel

def allStates : List RState := [.allocated, .loaded, .running, .stopping, .freezing, .frozen, .retired]
/-- Every operation on a region in every state, x12 being 0. -/
theorem test_region_operations : ∀ x ∈ allStates.flatMap fun st => [Instr.rgStop 10 11, .rgFree 10 11, .rgShut 10 11,
    .rgDrain 10 11, .rgStart 10 11 12, .rgPlace 10 11 12, .rgLoad 10 11 12, .rgSave 10 11 12, .rgRestore 10 11 12,
    .rgKill 10 11].map fun i => (st, i), Runs (withRegion x.1 0) 0 x.2 fun s => inState x.1 s && (s.hart 0 0).wait.isNone &&
      ((s.hart 0 0).readX 12) == 0 && onTarget s fun r => r.launch.isNone && !(xenv s 0 0).switching r :=
  runs_all (by decide +kernel)
/-- A start that can take its lots; operands with bits that must be 0, a misaligned table, and one that is not mapped. -/
theorem test_start_lots : ∀ x ∈ [(RState.loaded, (0 : DWord)), (.frozen, 0), (.loaded, 2), (.frozen, 0x40)],
    Runs (withRegion x.1 x.2) 0 (.rgStart 10 11 12) fun s => inState x.1 s && ((s.hart 0 0).readX 12 == 0 ||
      (s.hart 0 0).readX 12 &&& 0x7E != 0) && onTarget s fun r => s.lotsReady r.wantLots := runs_all (by decide +kernel)
theorem test_place_table : ∀ x ∈ [(RState.allocated, (0x1001 : DWord)), (.frozen, 0x1001), (.allocated, 0x8000000000000000),
    (.allocated, 0x40000), (.allocated, 0x30000)], Runs (withRegion x.1 x.2) 0 (.rgPlace 10 11 12) fun s => inState x.1 s && onTarget s fun r =>
      let v := (s.hart 0 0).readX 12
      let b := s.loadHalves 0 (s.hartPart 0 0) (s.hart 0 0).asid v (r.width + r.height)
      v.toNat % 8 != 0 || b == none || b.any fun b =>
        (v == 0x40000) == (s.tableOk 0 r ((halves b).take r.width) (((halves b).drop r.width).take r.height) &&
          (cellOf ((halves b).headD 1) 0).die == 0) := runs_all (by decide +kernel)
/-- `rg.load`: a reserved bit; an image that is all zeros. -/
theorem test_load_operand : Runs (withRegion .allocated 0x3E) 0 (.rgLoad 10 11 12) fun s =>
    inState .allocated s && (s.hart 0 0).readX 12 &&& 0x3E != 0 := runs_spec (by decide +kernel)
theorem test_load_rejects : Runs (withRegion .allocated 0x40000) 0 (.rgLoad 10 11 12) fun s => inState .allocated s &&
    onTarget s fun r => r.launch.isNone && s.asleepIn r.rect == [] &&
      (match s.readImage 0 (s.hartPart 0 0) (s.hart 0 0).asid ((s.hart 0 0).readX 12) with
        | .ok m => (m.check ((xenv s 0 0).wantOf r false)).isSome
        | .error _ => false) := runs_spec (by decide +kernel)

/-- `rg.alloc`: no operand; a whole die; a VD that is not enabled; no room. -/
def alloc (a : DWord) (f : State → State := id) : State := hartAt 0 a 0 f
theorem test_alloc_places : ∀ a ∈ [(0x00010001 : DWord), 0x00600030], Runs (alloc a) 0 (.rgAlloc 10 11 12) fun s =>
    let q := s.firstFit [0] [] (a.toNat / 65536) (a.toNat % 65536) (fun _ => true)
    s.leadDie (s.hartPart 0 0) == some 0 && s.regField 0 (.vdcfg 0) 0 0 == 1 && s.regField 0 (.vdcfg 0) 20 16 == s.hartPart 0 0 &&
      q.any fun q => (s.freeEntry (cellOf q.x q.y).die).isSome := runs_all (by decide +kernel)
theorem test_alloc_refuses : Runs (alloc 0) 0 (.rgAlloc 10 11 12) (fun s => (s.hart 0 0).readX 11 == 0) ∧
    Runs (alloc 0x100010001) 0 (.rgAlloc 10 11 12) (fun s => s.leadDie (s.hartPart 0 0) == some 0 &&
      s.regField 0 (.vdcfg 1) 0 0 != 1) ∧
    Runs (alloc 0x00600030 (regionIn .loaded id)) 0 (.rgAlloc 10 11 12) (fun s =>
      s.firstFit [0] [] 96 48 (fun _ => true) == none) :=
  ⟨runs_spec (by decide +kernel), runs_spec (by decide +kernel), runs_spec (by decide +kernel)⟩

/-- A drain that goes on. -/
def drains (st : RState) (f : Region → Region := id) : State :=
  hartAt 0 0 0 fun s => { regionIn st f s with harts := [((0, 0), { hartOf 0 0 with wait := some (.drain 0 10 0) })] }
theorem test_drain_goes_on : ∀ st ∈ [RState.frozen, .retired, .stopping, .freezing], Runs (drains st) 0 (.rgDrain 10 11)
    fun s => inState st s && (s.hart 0 0).wait == some (.drain 0 10 0) := runs_all (by decide +kernel)
theorem test_stat_answers : ∀ b ∈ [(0 : DWord), 1, 2, 3], Runs (withRegion .frozen b) 0 (.rgStat 10 11 12) fun s =>
    s.findHandle 0 (s.hartPart 0 0) 0 == some 0 && (s.regions.get? 0).isSome && handleDie 0 == 0 := runs_all (by decide +kernel)
theorem test_stat_refuses : Runs (hartAt 0 1 0) 0 (.rgStat 10 11 12) fun s =>
    s.findHandle 0 (s.hartPart 0 0) (((s.hart 0 0).readX 11).extractLsb' 0 32) == none := runs_spec (by decide +kernel)
theorem test_save_refuses : Runs (withRegion .frozen 0x800) 0 (.rgSave 10 11 12) (fun s => inState .frozen s &&
      ((s.hart 0 0).readX 12).toNat % 4096 != 0) ∧
    Runs (withRegion .frozen 0x40000 fun r => { r with given := [{ col := 0, row := 0, bank := 0, launch := some 1, inst := 0, other := true }] })
      0 (.rgSave 10 11 12) (fun s => inState .frozen s && onTarget s fun r => r.given.any fun g => g.other && g.launch != none) :=
  ⟨runs_spec (by decide +kernel), runs_spec (by decide +kernel)⟩

theorem test_sweep_starts : ∀ k ∈ [false, true], Runs (hartAt 0 0 0 fun s => { s with lots := [(0, { sweeping := k })] }) 0
    (.lotSweep 10) fun s => (s.lots.get {} 0).sweeping == k := runs_all (by decide +kernel)

/-- A region context image of one page, without cells, that this boot wrote: a header and its tag. -/
def rciHead : List Byte := padTo 0xFF0 (leBytes 4 0x5A475243 ++ leBytes 2 1 ++ List.replicate 18 0 ++ leBytes 8 4096)
def rciPage : List Byte := rciHead ++ rciTag 0 0 rciHead []
def saved (w : Nat) : Rci :=
  { part := 0, epoch := 0, bytes := rciPage
    snap := { region := { placedRegion with state := .frozen, width := w }, handle := 0, cells := [], reqs := [] } }

theorem padTo_len (n : Nat) (b : List Byte) (h : b.length ≤ n) : (padTo n b).length = n := by
  simp [padTo]; omega

theorem leBytes_len (n v : Nat) : (leBytes n v).length = n := by
  induction n generalizing v with
  | zero => rfl
  | succ n ih => rw [leBytes, List.length_cons, ih]

theorem rciTag_len (p e : Nat) (a b : List Byte) : (rciTag p e a b).length = 16 := by
  rw [rciTag, List.length_take, leBytes_len]; rfl

/-- A save that has its room. -/
theorem test_save_room : Runs (withRegion .frozen 0x40000) 0 (.rgSave 10 11 12) (fun s => inState .frozen s &&
      onTarget s fun r => r == { placedRegion with state := .frozen }) ∧
    (let s := withRegion .frozen 0x40000
     let bytes := s.rciBytes s.nextId (s.hartPart 0 0) s.arith (s.snapshot 0 { placedRegion with state := .frozen })
     s.writable 0 (s.hartPart 0 0) (s.hart 0 0).asid 0x40000 (bytes.length / 128) = bytes.length / 128) := by
  refine ⟨runs_spec (by decide +kernel), ?_⟩
  have h : ((withRegion .frozen 0x40000).rciBytes (withRegion .frozen 0x40000).nextId
      (State.hartPart (withRegion .frozen 0x40000) 0 0) (withRegion .frozen 0x40000).arith
      ((withRegion .frozen 0x40000).snapshot 0 { placedRegion with state := .frozen })).length = 20480 := by
    simp only [State.rciBytes, List.length_append, List.length_map, List.length_range, rciTag_len]
    rw [State.rciHeader, padTo_len _ _ (by decide +kernel)]
    decide +kernel
  show State.writable _ _ _ _ _ (_ / 128) = _ / 128
  rw [h]
  decide +kernel

/-- Bytes listed one by one from a key upward. -/
def listed : Nat → List Byte → Memory
  | _, [] => []
  | k, b :: r => (k, b) :: listed (k + 1) r

theorem read_listed (b : List Byte) (k i : Nat) : (listed k b).read (k + i) = b.getD i 0 := by
  induction b generalizing k i with
  | nil => rfl
  | cons x r ih =>
    cases i with
    | zero => simp [listed, Memory.read]
    | succ i =>
      have := ih (k + 1) i
      rw [show k + (i + 1) = k + 1 + i by omega, listed, Memory.read, if_neg (by omega), if_neg (by omega), this]
      rfl

theorem read_behind {m l : Memory} {k : Nat} (h : ∀ c ∈ m, c.1 < k) : Memory.read (m ++ l) k = l.read k := by
  induction m with
  | nil => rfl
  | cons c r ih =>
    have hc := h c (List.mem_cons_self ..)
    rw [List.cons_append, Memory.read, if_neg (by omega), if_neg (by omega), ih fun c hm => h c (List.mem_cons_of_mem _ hm)]

theorem readN_listed {m : Memory} {b : List Byte} {k : Nat} (h : ∀ c ∈ m, c.1 < k) (n i : Nat) (hn : i + n ≤ b.length) :
    Memory.readN (m ++ listed k b) (k + i) n = (b.drop i).take n := by
  induction n generalizing i with
  | zero => rw [Memory.readN, List.take_zero]
  | succ n ih =>
    have hi : i < b.length := by omega
    rw [Memory.readN, read_behind fun c hc => by have := h c hc; omega, read_listed, show k + i + 1 = k + (i + 1) by omega,
      ih (i + 1) (by omega), List.drop_eq_getElem_cons hi, List.take_succ_cons, List.getD_eq_getElem _ _ hi]

/-- A long read of pages that lie one after the other. -/
theorem long_reads {s : State} {d p asid} (va : DWord) (b : List Byte) (n : Nat)
    (h : ∀ k < n, s.loadVa d p asid (va + BitVec.ofNat 64 (64 * k)) 64 = some ((b.drop (64 * k)).take 64)) :
    s.loadLong d p asid va n = some (b.take (64 * n)) := by
  induction n generalizing va b with
  | zero => rfl
  | succ n ih =>
    have h0 := h 0 (by omega)
    have h1 := ih (va + 64) (b.drop 64) fun k hk => by
      have := h (k + 1) (by omega)
      rw [List.drop_drop, show 64 + 64 * k = 64 * (k + 1) by omega, ← this]
      congr 1
      rw [BitVec.add_assoc]
      congr 1
      apply BitVec.eq_of_toNat_eq
      simp; omega
    have h0' : s.loadVa d p asid va 64 = some (b.take 64) := by simpa using h0
    rw [State.loadLong, h0', h1]
    show some (b.take 64 ++ (b.drop 64).take (64 * n)) = _
    rw [← List.take_add, show 64 + 64 * n = 64 * (n + 1) by omega]

theorem rciHead_len : rciHead.length = 0xFF0 := by decide +kernel
theorem rciPage_len : rciPage.length = 4096 := by rw [rciPage, List.length_append, rciHead_len, rciTag_len]

/-- The page passes the check of `rg.restore`. -/
theorem rciPage_ok : rciSize rciPage = some 4096 ∧ rciOk 0 0 rciPage = true := by
  refine ⟨by decide +kernel, ?_⟩
  have ht : (rciPage.drop 0xFF0).take 16 = rciTag 0 0 rciHead [] := by
    rw [rciPage, ← rciHead_len, List.drop_left, List.take_of_length_le (by rw [rciTag_len])]
  have hh : rciPage.take 0xFF0 = rciHead := by rw [rciPage, ← rciHead_len, List.take_left]
  have hd : rciPage.drop 0x1000 = [] := List.drop_of_length_le (by rw [rciPage_len])
  have h1 : (recNat rciPage 0 4 == 0x5A475243 && recNat rciPage 4 2 == 1 && recNat rciPage 0x18 8 == 4096) = true := by
    decide +kernel
  rw [rciOk, ht, hh, hd, rciPage_len, h1, beq_self_eq_true, Bool.true_and]

/-- The one image in the vault, found by its bytes. -/
theorem finds {s : State} {d p n asid va b e} (h1 : s.loadLong d p asid va 64 = some b) (h2 : rciSize b = some n)
    (h3 : s.loadLong d p asid va (n / 64) = some b) (h4 : rciOk p (s.epochs.get 0 p) b = true) (h5 : s.vault = [e])
    (h6 : (e.part == p && e.epoch == s.epochs.get 0 p && e.bytes == b) = true) : s.findRci d p asid va = .ok e := by
  simp only [State.findRci, h1, h2, h3, h4, h5, List.find?_cons, h6, Bool.not_true, Bool.false_eq_true, ↓reduceIte]

/-- `rg.restore`: that context image, of the same shape or another. -/
def restoring (w : Nat) : State := hartAt 0 0 0x40000 fun s =>
  { regionIn .allocated id s with vault := [saved w], mem := s.mem ++ listed (homeKey 0 0x40000) rciPage }
theorem test_restore_finds : ∀ w ∈ [1, 2], Runs (restoring w) 0 (.rgRestore 10 11 12) fun s => inState .allocated s &&
      onTarget s fun r => let q := { (saved w).snap.region with cols := r.cols, rows := r.rows }
        ((saved w).snap.region.width == r.width) == (w == 1) && (saved w).snap.region.height == r.height &&
          s.blockedRoute q == none && s.asleepIn r.rect == [] && s.lotsReady ((saved w).snap.wants q) :=
  runs_all (i := fun _ => .rgRestore 10 11 12) (by decide +kernel)
/-- What a reader meets at page line k of the destination. -/
def opens (s : State) (k : Nat) : Bool :=
  s.vaOpen 0 0 (0x40000 + BitVec.ofNat 64 (64 * k)) && vaOwner (0x40000 + BitVec.ofNat 64 (64 * k)) == 0 &&
    (match s.translate 0 0 (some 1) (0x40000 + BitVec.ofNat 64 (64 * k)) 64 .load false with
      | .ok (l, pa) => !l.freshBit (vaOffset (0x40000 + BitVec.ofNat 64 (64 * k))) && pa == 0x40000 + 64 * k &&
          !s.eccAt 0 pa 64 && dataHome (s.ownerDie 0 0 (0x40000 + BitVec.ofNat 64 (64 * k)))
            (0x40000 + BitVec.ofNat 64 (64 * k)) == 0
      | .error _ => false)

theorem restoring_opens : ([1, 2].all fun w => (List.range 64).all fun k => opens (restoring w) k) = true := by decide +kernel

theorem opens_line (s : State) (k : Nat) (h : opens s k = true) : State.loadVa s 0 0 (some 1)
    (0x40000 + BitVec.ofNat 64 (64 * k)) 64 = some (Memory.readN s.mem (homeKey 0 0x40000 + 64 * k) 64) := by
  simp only [opens, Bool.and_eq_true, beq_iff_eq] at h
  generalize (0x40000 + BitVec.ofNat 64 (64 * k) : DWord) = va at h ⊢
  obtain ⟨⟨h1, h2⟩, h4⟩ := h
  simp only [State.loadVa, h1, h2]
  generalize State.translate s 0 0 (some 1) va 64 .load false = x at h4 ⊢
  match x, h4 with
  | .ok (l, pa), h4 =>
    simp only [Bool.and_eq_true, Bool.not_eq_true', beq_iff_eq] at h4
    obtain ⟨⟨⟨hf, hp⟩, hb⟩, hd⟩ := h4
    subst hp
    simp only [hd, hb, State.fetchBytes, hf, homeKey, show ((0 : Nat) == 27) = false from rfl, Bool.not_true, Bool.not_false,
      Bool.and_true, Bool.false_or, Bool.false_eq_true, ↓reduceIte, Nat.zero_mul, Nat.zero_add]

theorem restoring_page (w : Nat) (hw : w ∈ [1, 2]) :
    State.loadLong (restoring w) 0 0 (some 1) 0x40000 64 = some rciPage := by
  have hm : (restoring w).mem = tables ++ listed (homeKey 0 0x40000) rciPage := rfl
  rw [long_reads (b := rciPage) 0x40000 64 fun k hk => by
    rw [opens_line _ k (List.all_eq_true.mp (List.all_eq_true.mp restoring_opens w hw) k (List.mem_range.mpr hk)), hm, readN_listed (by decide +kernel) 64 (64 * k) (by rw [rciPage_len]; omega)]]
  rw [List.take_of_length_le (by rw [rciPage_len])]

theorem restoring_saved (w : Nat) : ((saved w).part == 0 && (saved w).epoch == 0 && (saved w).bytes == rciPage) = true :=
  (Bool.and_eq_true _ _).mpr ⟨rfl, beq_self_eq_true rciPage⟩

theorem test_restore_reads (w : Nat) (hw : w ∈ [1, 2]) :
    State.findRci (restoring w) 0 0 (some 1) 0x40000 = .ok (saved w) := by
  have hv : (restoring w).vault = [saved w] := rfl
  have he : (restoring w).epochs.get 0 0 = 0 := rfl
  have hl := restoring_page w hw
  exact finds hl rciPage_ok.1 hl (by rw [he]; exact rciPage_ok.2) hv (by rw [he]; exact restoring_saved w)
/-! ### An image that passes its check: one cell with nothing in it -/

def imageHead : List Byte :=
  leBytes 4 0x5A474349 ++ leBytes 4 1 ++ leBytes 8 0 ++ leBytes 2 1 ++ leBytes 2 1 ++ leBytes 4 1 ++ leBytes 8 8768 ++
    leBytes 8 0x100 ++ leBytes 8 0x100 ++ List.replicate 208 0 ++ leBytes 8 0x140 ++ leBytes 8 8448 ++ List.replicate 48 0
def noWords : List Byte := List.replicate 8448 0
def image : Image := ⟨imageHead ++ noWords⟩
def want1 : Want := { width := 1, height := 1, arith := 1, dies := 1 }

theorem imageHead_len : imageHead.length = 320 := by decide +kernel
theorem image_len : image.bytes.length = 8768 := by
  simp only [image, noWords, List.length_append, imageHead_len, List.length_replicate]
theorem slice_head (r : List Byte) (off n : Nat) (h : off + n ≤ 320) :
    ((imageHead ++ r).drop off).take n = (imageHead.drop off).take n := by
  rw [List.drop_append_of_le_length (by rw [imageHead_len]; omega),
    List.take_append_of_le_length (by rw [List.length_drop, imageHead_len]; omega)]
theorem numAt_head {off n : Nat} (h : off + n ≤ 320) : numAt image.bytes off n = numAt imageHead off n := by
  rw [numAt, numAt, image, slice_head _ _ _ h]
theorem zeroAt_head {off n : Nat} (h : off + n ≤ 320) : zeroAt image.bytes off n = zeroAt imageHead off n := by
  rw [zeroAt, zeroAt, image, slice_head _ _ _ h]
theorem leNat_zeros (n : Nat) : leNat (List.replicate n 0) = 0 := by
  induction n with
  | zero => rfl
  | succ n ih => rw [List.replicate_succ, leNat, ih]; rfl
theorem numAt_none (off n : Nat) : numAt noWords off n = 0 := by
  rw [numAt, noWords, List.drop_replicate, List.take_replicate, leNat_zeros]
theorem zeroAt_none (off n : Nat) : zeroAt noWords off n = true := by
  rw [zeroAt, noWords, List.drop_replicate, List.take_replicate]; simp
theorem numAt_inner (off n a k : Nat) : numAt ((noWords.drop off).take n) a k = 0 := by
  rw [numAt, noWords, List.drop_replicate, List.take_replicate, List.drop_replicate, List.take_replicate, leNat_zeros]
theorem zeroAt_inner (off n a k : Nat) : zeroAt ((noWords.drop off).take n) a k = true := by
  rw [zeroAt, noWords, List.drop_replicate, List.take_replicate, List.drop_replicate, List.take_replicate]; simp
theorem firstBad_none {α : Type} {f : α → Bool} (k : Nat) {l : List α} (h : ∀ x ∈ l, f x = false) : firstBad f k l = none := by
  induction l generalizing k with
  | nil => rfl
  | cons x r ih => rw [firstBad, h x (List.mem_cons_self ..), ih (k + 1) fun y hy => h y (List.mem_cons_of_mem _ hy)]; rfl

theorem image_width : image.width = 1 := by rw [Image.width, numAt_head (by omega)]; decide +kernel
theorem image_height : image.height = 1 := by rw [Image.height, numAt_head (by omega)]; decide +kernel
theorem image_arith : image.arith = 1 := by rw [Image.arith, numAt_head (by omega)]; decide +kernel
theorem image_length : image.length = 8768 := by rw [Image.length, numAt_head (by omega)]; decide +kernel
theorem image_dirOff : image.dirOff = 256 := by rw [Image.dirOff, numAt_head (by omega)]; decide +kernel
theorem image_allocOff : image.allocOff = 256 := by rw [Image.allocOff, numAt_head (by omega)]; decide +kernel
theorem image_nalloc : image.nalloc = 0 := by rw [Image.nalloc, numAt_head (by omega)]; decide +kernel
theorem image_rfsOff : image.rfsOff = 0 := by rw [Image.rfsOff, numAt_head (by omega)]; decide +kernel
theorem image_entry : image.dirEntry 0 = (imageHead.drop 256).take 16 := by
  rw [Image.dirEntry, image_dirOff, image, slice_head _ _ _ (by omega)]
theorem image_places : image.places = [(0, 0)] := by rw [Image.places, image_width, image_height]; rfl
theorem image_sectionOff : image.sectionOff 0 0 = 320 := by
  rw [Image.sectionOff, image_width, show 0 * 1 + 0 = 0 from rfl, image_entry]; decide +kernel
theorem image_live : image.live 0 0 = true := by
  rw [Image.live, image_width, image_height, image_sectionOff]; rfl
theorem image_cells : image.cells = [(0, 0)] := by
  rw [Image.cells, image_places]
  simp [image_live]
theorem image_section : image.section (0, 0) = noWords := by
  rw [Image.section, image_sectionOff]
  show ((imageHead ++ noWords).drop 320).take 8448 = noWords
  rw [← imageHead_len, List.drop_left, List.take_of_length_le (by rw [noWords, List.length_replicate])]
theorem image_ctl : ctlBad noWords = none := by
  simp only [ctlBad, ctlByte, rportAt, numAt_none, Nat.zero_testBit, Nat.zero_mod, Bool.false_and, Bool.and_false, Bool.false_eq_true,
    ↓reduceIte, bne_self_eq_false, firstBad_none, implies_true]
  rfl
theorem image_headerOk : image.headerOk = true := by
  rw [Image.headerOk, image_length, image_width, image_height, image_dirOff, image_allocOff, image_nalloc, image_len,
    numAt_head (by omega), numAt_head (by omega), numAt_head (by omega), zeroAt_head (by omega), zeroAt_head (by omega),
    zeroAt_head (by omega)]
  decide +kernel
theorem image_step1 : image.step1 1 1 1 = none := by
  have hd : image.dirBad (0, 0) = false := by
    simp only [Image.dirBad, image_width, image_length, Nat.zero_mul, Nat.zero_add, image_entry]
    decide +kernel
  rw [Image.step1, image_headerOk, image_width, image_height, image_arith, image_places, image_cells, Image.refireBad, image_rfsOff]
  simp [hd, image_section, image_ctl, firstSome]
theorem image_firstIn (step kind n : Nat) {f : Nat × Nat → Nat → Bool} (h : ∀ i, f (0, 0) i = false) :
    image.firstIn step kind n f = none := by
  rw [Image.firstIn, image_cells]
  simp [firstBad_none 0 fun i _ => h i, firstSome]
theorem image_id : image.id = 0 := by rw [Image.id, numAt_head (by omega)]; decide +kernel
theorem image_check (w : Want) (h : w.width = 1 ∧ w.height = 1 ∧ w.arith = 1 ∧ w.det = false) (hi : w.id = none ∨ w.id = some 0) :
    image.check w = none := by
  have hw : ∀ i, image.wordBad (0, 0) w.dies w.devlaunch i = false := fun i => by
    simp [Image.wordBad, image_section, slotWord, numAt_none]
  have hr : ∀ i, image.routeBad (0, 0) i = false := fun i => by
    rw [Image.routeBad, image_section]
    simp only [routeAt, numAt_none, Nat.zero_testBit, Bool.not_false, ↓reduceIte, bne_self_eq_false]
  have he : ∀ k, (descAt noWords k).en = false := fun k => by
    simp [descAt, RawDesc.en, RawDesc.ctrl, numAt_inner, bitField]
  have hd : ∀ i, image.descBad (0, 0) i = false := fun i => by
    rw [Image.descBad, image_section]
    simp only [he, Bool.not_false, ↓reduceIte]
    rw [descAt, zeroAt_inner]
    rfl
  have hp : ∀ i, image.portBad (0, 0) i = false := fun i => by
    rw [Image.portBad, image_section]
    simp only [rportAt, ctlByte, numAt_none, Nat.zero_testBit, Bool.false_and]
  have hk : ∀ i, image.declBad (0, 0) i = false := fun i => by
    rw [Image.declBad, image_section]
    simp only [declAt, numAt_none, Nat.zero_testBit, Bool.not_false, ↓reduceIte, bne_self_eq_false]
  rw [Image.check, h.1, h.2.1, h.2.2.1, h.2.2.2, image_step1, image_nalloc, image_firstIn 3 1 128 hw, image_firstIn 4 2 32 hr,
    image_firstIn 5 3 4 hd, image_firstIn 5 9 8 hp, image_firstIn 7 5 8 hk, image_id]
  rcases hi with hi | hi <;> rw [hi] <;> rfl
theorem image_inits : image.inits = [(0, 0, image.initCell (0, 0))] := by rw [Image.inits, image_cells]; rfl
theorem image_routes : (image.initCell (0, 0)).sw.routes = [] := by
  simp [Image.initCell, image_section, routeAt, numAt_none]
/-- It has no routes that a seam could block. -/
theorem image_unblocked (s : State) (va : DWord) (r : Region) : s.blockedRoute (loadedWith image va r) = none := by
  rw [State.blockedRoute, loadedWith, image_inits]
  simp [image_routes, firstBad, firstSome]

/-- `rg.load` of that image, in memory from 0x40000. -/
def imaged : State := hartAt 0 0 0x40000 fun s =>
  { regionIn .allocated id s with mem := s.mem ++ listed (homeKey 0 0x40000) image.bytes }
theorem imaged_opens : ((List.range 137).all fun k => opens imaged k) = true := by decide +kernel
theorem imaged_reads (n : Nat) (hn : n ≤ 137) : State.loadLong imaged 0 0 (some 1) 0x40000 n = some (image.bytes.take (64 * n)) := by
  have hm : imaged.mem = tables ++ listed (homeKey 0 0x40000) image.bytes := rfl
  rw [long_reads (b := image.bytes) 0x40000 n fun k hk => by
    rw [opens_line _ k (List.all_eq_true.mp imaged_opens k (List.mem_range.mpr (by omega))), hm,
      readN_listed (by decide +kernel) 64 (64 * k) (by rw [image_len]; omega)]]
theorem test_load_image : State.readImage imaged 0 0 (some 1) 0x40000 = .ok image ∧
    image.check { width := 1, height := 1, arith := 1, dies := 1 } = none ∧
    ∀ r, State.blockedRoute imaged (loadedWith image 0x40000 r) = none := by
  refine ⟨?_, image_check _ ⟨rfl, rfl, rfl, rfl⟩ (.inl rfl), fun r => image_unblocked _ _ _⟩
  have h4 : numAt (image.bytes.take (64 * 4)) 0x18 8 = 8768 := by
    rw [numAt, ← image_length, Image.length, numAt, List.drop_take, List.take_take]; rfl
  rw [State.readImage, imaged_reads 4 (by omega)]
  simp only [h4]
  rw [show max 4 ((8768 + 63) / 64) = 137 from rfl, imaged_reads 137 (by omega)]
  show Except.ok (Image.mk (List.take 8768 (List.take (64 * 137) image.bytes))) = _
  rw [List.take_take, List.take_of_length_le (by rw [image_len]; decide)]
theorem test_load_image_target : Runs imaged 0 (.rgLoad 10 11 12) fun s => inState .allocated s && onTarget s fun r =>
    r.launch.isNone && s.asleepIn r.rect == [] &&
      (xenv s 0 0).wantOf r false == { width := 1, height := 1, arith := 1, dies := 1 } := runs_spec (by decide +kernel)

/-! Timelines and copies: context 0 of engine 0 of die 0. -/

def tl0 : CopyId := { die := 0, eng := 0, ctx := 0 }
def withCopy (a b : DWord) (x : Copy) : State := hartAt 0 a b fun s => { s with copies := [(tl0, x)] }
def noDesc : CopyDesc := copyDesc (List.replicate 64 0)
def job (n : DWord) : CopyJob := { n := n, desc := noDesc, asid := some 1 }
theorem test_timeline_reads : ∀ a ∈ [(0x8000 : DWord), 0], Runs (withCopy a 0 {}) 0 (.coreTlRead 10 11) fun s =>
    (xenv s 0 0).timeline a == if a == 0x8000 then some tl0 else none := runs_all (by decide +kernel)
theorem test_timeline_adds : ∀ a ∈ [(0x8000 : DWord), 0], Runs (withCopy a 0 {}) 0 (.tlAdd 10 11 12) fun s =>
    (xenv s 0 0).timeline a == if a == 0x8000 then some tl0 else none := runs_all (by decide +kernel)
/-- Poisoned at or below the number; reached; not reached. -/
theorem test_timeline_waits : ∀ x ∈ [({ poison := some (5, 1) }, (5 : DWord)), ({ tlc := 5 }, 5), ({ tlc := 4, poison := some (6, 1) }, 5)],
    Runs (withCopy 0x8000 x.2 x.1) 0 (.coreTlWait 10 11 12) fun s => (xenv s 0 0).timeline 0x8000 == some tl0 :=
  runs_all (by decide +kernel)
/-- Every answer of `cp.query`. -/
theorem test_query_answers : ∀ x ∈ [({ failed := [(3, some 2)] }, (3 : DWord)), ({ failed := [(3, none)] }, 3), ({ last := 2 }, 3),
    ({ last := 3, jobs := [job 3] }, 3), ({ last := 3, jobs := [{ job 3 with suspended := some (0, 0) }] }, 3),
    ({ last := 3, jobs := [job 2, job 3] }, 3), ({ last := 3, jobs := [job 3] }, 2), ({ last := 3 }, 3)],
    Runs (withCopy 0x8000 x.2 x.1) 0 (.cpQuery 10 11 12) fun s => (xenv s 0 0).timeline 0x8000 == some tl0 &&
      s.copies.get {} tl0 == x.1 := runs_all (by decide +kernel)
/-- Bytes at an address of die 0's memory. -/
def withBytes (pa : Nat) (b : List Byte) (s : State) : State := { s with mem := s.mem.writeN (homeKey 0 pa) (b.map some) }
/-- A copy from 0x40000 to 0x50000, with a scope and a length. -/
def descBytes (scope len : Nat) : List Byte :=
  leBytes 8 0x40000 ++ leBytes 8 0x50000 ++ leBytes 4 len ++ leBytes 4 1 ++ leBytes 8 0 ++ leBytes 8 0 ++
    leBytes 4 (scope * 2 ^ 16) ++ leBytes 20 0
def startsAt (a b : DWord) (x : List Byte) : State := hartAt 0 a b (withBytes 0x60000 x)
/-- No timeline; a misaligned descriptor; no scope; a length of 0; one line, accepted. -/
theorem test_copy_bad_operands : ∀ x ∈ [((0x60000 : DWord), (0 : DWord)), (0x60020, 0x8000)],
    Runs (startsAt x.1 x.2 []) 0 (.cpStart 10 11 12) fun s =>
      (xenv s 0 0).timeline x.2 == none || x.1.toNat % 64 != 0 := runs_all (by decide +kernel)
theorem test_copy_starts : ∀ x ∈ [(0, 128), (3, 0), (3, 128)], Runs (startsAt 0x60000 0x8000 (descBytes x.1 x.2)) 0
    (.cpStart 10 11 12) fun s => (xenv s 0 0).timeline 0x8000 == some tl0 &&
      (match s.loadVa 0 (s.hartPart 0 0) (s.hart 0 0).asid 0x60000 64 with
        | some b => s.descOk 0 (s.hartPart 0 0) b == (x.1 == 3) &&
          (x.1 == 0 || s.descCode (s.hartPart 0 0) tl0 (copyDesc b) == if x.2 = 0 then some 5 else none)
        | none => false) := runs_all (by decide +kernel)

/-! Memory of the hart's own: addresses on both sides of the alignment, and one outside the map. -/

def ownMem (s : State) (a : DWord) (n : Nat) : Bool :=
  a.toNat % n == 0 && (s.hart 0 0).place 0 a == .own a.toNat && s.memoryReady 0 && !s.eccAt 0 a.toNat n && s.mem.wf
theorem test_memory_forms : ∀ i ∈ [(Instr.ldacqW 10 11 .part, 4), (.strelW 12 11 .part, 4), (.ldacqD 10 11 .part, 8),
    (.strelD 12 11 .part, 8), (.monWait 10 11 12 .part .ne, 8), (.monWait 10 11 12 .part .geu, 8)],
    Runs (hartAt 0 0x17FFFFFFF8 5) 0 i.1 (fun s => ownMem s 0x17FFFFFFF8 i.2) ∧
    Runs (hartAt 0 0x17FFFFFFF9 5) 0 i.1 (fun s => ((s.hart 0 0).readX 11).toNat % i.2 != 0) := by
  intro i hi
  exact ⟨runs_all (i := Prod.fst) (s := fun _ => hartAt 0 0x17FFFFFFF8 5) (P := fun i s => ownMem s 0x17FFFFFFF8 i.2)
      (by decide +kernel) i hi,
    runs_all (i := Prod.fst) (s := fun _ => hartAt 0 0x17FFFFFFF9 5)
      (P := fun i s => ((s.hart 0 0).readX 11).toNat % i.2 != 0) (by decide +kernel) i hi⟩
theorem test_memory_outside : Runs (hartAt 0 0x1800000000 5) 0 (.ldacqW 10 11 .part) fun s =>
    (s.hart 0 0).place 0 0x1800000000 == .bad := runs_spec (by decide +kernel)
theorem test_fence_form : Runs (hartAt 0 0 0) 0 (.fenceP .system .sc) yes := runs_spec (by decide +kernel)
/-- A word that holds 5 meets both conditions on a value that differs, or is not above it. -/
theorem test_monitor_met : Runs (hartAt 0 0x60000 4 (withBytes 0x60000 [5])) 0 (.monWait 10 11 12 .part .geu) fun s =>
    s.readLe (homeKey 0 0x60000) 8 == 5 := runs_spec (by decide +kernel)

/-! The rest of the system forms. -/

/-- All pages of ASID 1 at owner 0; one page; a size below 16. -/
theorem test_invalidate : ∀ x ∈ [((0x400000000001 : DWord), true), (0x100000000001, true), (0xF0000000001, false)],
    Runs (hartAt 0 x.1 0) 0 (.ptInv 10 11 12) fun s => s.reqs == [] && (xenv s 0 0).invalOk x.1 0 == x.2 :=
  runs_all (by decide +kernel)
theorem test_queue_pops : ∀ x ∈ [((0x60001 : DWord), 0), (0x60000, 0), (0x60000, 1)],
    Runs (hartAt 0 x.1 0 (withBytes 0x60018 (leBytes 8 x.2))) 0 (.fqPop 10 11) fun s =>
      x.1.toNat % 64 != 0 || (s.canStore 0 (s.hartPart 0 0) (s.hart 0 0).asid (x.1 + 0x10) 8 &&
        (s.loadVa 0 (s.hartPart 0 0) (s.hart 0 0).asid x.1 64).any fun b => (recNat b 0x10 8 == recNat b 0x18 8) == (x.2 == 0)) :=
  runs_all (by decide +kernel)
theorem test_core_launch : ∀ b ∈ [(0 : DWord), 0x20], Runs (hartAt 0 0x400 b) 0 (.coreLaunch 10 11 12) fun s =>
    (s.hart 0 0).wait.isNone && (b == 0 || b.toNat % 64 != 0) := runs_all (by decide +kernel)
/-- Die 0 has ports 0 to 4; a bit above the port number is refused. -/
theorem test_firewall : ∀ a ∈ [(0x80 : DWord), 0xA0, 0x100], Runs (hartAt 24 a 7) 24 (.fwSet 10 11 12) fun s =>
    let a := (s.hart 24 0).readX 11
    (a.extractLsb' 8 56 != 0 || !portExists (a.extractLsb' 0 5).toNat (a.extractLsb' 5 3).toNat) == (a != 0x80) :=
  runs_all (by decide +kernel)

/-- Debug access to a region in a life-cycle state, with a block that names an entry of cell (0, 0). -/
def debugging (st : RState) (lcs : BitVec 2) (kind index : Nat) (b : DWord) : State :=
  let s := withBytes 0x60003 (leBytes 1 kind ++ leBytes 2 index) (withRegion st b)
  { s with fuses := { s.fuses with lcs := lcs } }
theorem test_debug_blocks : ∀ i ∈ [Instr.dbgRd 10 11 12, .dbgWr 10 11 12],
    (∀ x ∈ [(RState.frozen, (0x60020 : DWord)), (.running, 0x60000)], Runs (debugging x.1 1 0 0 x.2) 0 i fun s =>
      inState x.1 s && (x.2.toNat % 64 != 0 || (x.1 != .frozen && x.1 != .retired))) ∧
    (∀ x ∈ [(RState.frozen, (2 : BitVec 2)), (.retired, 1)], Runs (debugging x.1 x.2 2 15 0x60000) 0 i fun s =>
      onTarget s fun r => r.state == x.1 && s.debugOk r == (x.2 != 2)) ∧
    (∀ x ∈ [(0, 1023), (0, 1024), (1, 15), (2, 15), (2, 16), (3, 0)], Runs (debugging .frozen 1 x.1 x.2 0x60000) 0 i fun s =>
      onTarget s fun r => s.debugOk r && (s.loadLong 0 (s.hartPart 0 0) (s.hart 0 0).asid 0x60000 4).any fun b =>
        (debugAt r b).isSome == (x.1 != 3 && x.2 != 1024 && x.2 != 16) &&
          (List.range 4).all fun i => s.canStore 0 (s.hartPart 0 0) (s.hart 0 0).asid (0x60000 + BitVec.ofNat 64 (64 * i)) 64) := by
  intro i hi
  rcases List.mem_pair.mp hi with rfl | rfl <;>
    exact ⟨runs_all (by decide +kernel), runs_all (by decide +kernel), runs_all (by decide +kernel)⟩

/-! ### Witnesses: events of the module

A signed image that is accepted and a life-cycle token in order have no witness here: the fused key digest and the vendor
key are constants of Config without a value. -/

/-- A module with nothing scheduled, in PRODUCTION. -/
def quiet : State := { base with fuses := { State.reset.fuses with lcs := 2 } }

def bootIn (st : Stage) (v : Bool) : State := { quiet with boots := [(24, { stage := st, verified := v }), (25, { stage := st, verified := v })] }
/-- Seams 0 to 6 up: a path from X-die 24 to X-die 25. -/
def pathUp (s : State) : State :=
  { s with regs := ((List.range 7).flatMap fun j => linkPorts (.seam j)).map fun p => ((p.1, (RegName.seamst p.2).off), 2#64) }
theorem test_boot_stages :
    { quiet with wipes := [(.sram 24, .running)] : State }.wipeOf (.sram 24) = .running ∧
    (∀ st ∈ [Stage.verify, .recoveryVerify], ((bootIn st false).bootOf 24).verified = false ∧ ((bootIn st false).bootOf 24).stage = st ∧
      (bootIn st false).imageErr [] ≠ 0) ∧
    (pathUp (bootIn .verify true)).bootPath = true ∧ ((bootIn .verify true).bootOf (49 - 24)).stage ≠ .halted ∧
    ((bootIn .recoveryWait false).bootOf 25).stage = .recoveryWait := by decide +kernel
theorem test_boot_path_timeout : let s := { bootIn .wipe false with cycle := 20000 * usCycles }
    s.resetAt.get 0 24 + 20000 * usCycles ≤ s.cycle ∧ s.bootPath = false ∧ ∃ x ∈ xDies, (s.bootOf x).stage.code < 5 := by decide +kernel
/-- A seam and an edge link of a module that has a neighbour to the south, both down. -/
def federation : State := { quiet with regs := (((18, RegName.modid.off), 0x10100) : (Nat × Nat) × DWord) :: quiet.regs }
theorem test_links_train : linkExists (.seam 45) ∧ linkExists (.edge false 0) ∧ federation.edgeWanted (.edge false 0) = true ∧
    ∀ l ∈ [LinkId.seam 45, .edge false 0], ∀ p ∈ linkPorts l, federation.portState p = stDown := by
  refine ⟨by simp [linkExists], by simp [linkExists], ?_⟩; decide +kernel
/-- A responder that is up, in a session, with and without the nonce of a token. -/
theorem test_responder_up : ∀ pf < 4, quiet.spdmUp pf = true ∧ quiet.fuses.lcs ≠ 3 ∧ { quiet with fuses :=
      { quiet.fuses with lcs := 3 } : State }.spdmUp pf = true ∧ (quiet.spdm.get {} pf).inSession = false ∧
    lcsNext quiet.fuses.lcs 1 = false := by decide +kernel

/-- A patch that rests, one that wakes, one in use. -/
theorem test_patches : (∀ c ∈ patchCells 23 287, (({ quiet with cycle := 64 } : State).cells.get {} c).busy + 64 ≤ 64) ∧
    quiet.patchUsed 0 0 = false ∧ (regionIn .loaded id quiet).patchUsed 0 0 = true ∧
    (1#64 ^^^ quiet.reg 0 (.defmap 0)).getLsbD 0 = true := by decide +kernel
theorem test_wakes : let s := { quiet with cycle := 1600, power := { patches := [((0, 0), { waking := some 0 })], state := .standby, exiting := none } }
    (s.power.patches.get {} (0, 0)).waking = some 0 ∧ 0 + 1600 ≤ s.cycle ∧ s.regions = [] ∧ s.power.state ≠ .active ∧
    s.power.exiting = none ∧ s.power.state ≠ .off := by decide +kernel
theorem test_power_exits : let s := { quiet with cycle := 2000 * 1600, power := { state := .standby, exiting := some 0 } }
    s.power.exiting = some 0 ∧ 0 + exitTime s.power.state ≤ s.cycle := by decide +kernel
/-- Temperatures at the two thresholds, and just under them. -/
theorem test_thresholds : (1680 : Int) ≤ (1680 : BitVec 16).toInt ∧ (1679 : BitVec 16).toInt < 1680 ∧ 1520 < (1521 : BitVec 16).toInt := by
  decide +kernel
theorem test_clock_raises : let s := { quiet with cycle := 1600000, power := { clocks := [(0, 1500)] } }
    s.power.clocks.get 1600 0 < 1600 ∧ s.power.lastOver.get 0 0 + 1600000 ≤ s.cycle := by decide +kernel

/-- A lane of seam 0 whose oldest flit has the number that is expected, carries a token, and was retried n times. -/
def lane0 : LaneId := { link := .seam 0, crossing := 0, cls := .vec, up := true }
def aFlit : Flit := { seq := 63, load := .token { body := .vec vecA, ctx := 0 } }
def onLane (n : Nat) (nak : Option Nat) : State :=
  { quiet with cycle := 12, lanes := [(lane0, { buf := [aFlit], expect := 63, retries := n, nak := nak })] }
theorem test_flit_received : ((onLane 0 none).lanes.get {} lane0).buf.find? (fun f => f.seq == 63) = some aFlit ∧
    (onLane 0 none).laneHolds lane0 = false ∧ (onLane 0 none).linkFailed lane0.link = false ∧
    (onLane 0 none).flitRoom lane0 aFlit.load = true ∧ (laneEnds lane0).isSome = true ∧ laneNet lane0.cls = some .vec := by decide +kernel
theorem test_flit_retried : ∀ n ∈ [0, 4, 8], (onLane n (some 63)).laneHolds lane0 = false ∧
    ((onLane n (some 63)).lanes.get {} lane0).nak.isSome = true ∧ ((onLane n none).lanes.get {} lane0).buf ≠ [] ∧
    ((onLane n none).lanes.get {} lane0).lastSend + replayWait lane0.link ≤ (onLane n none).cycle := by decide +kernel
theorem test_retraining : let s := { quiet with cycle := 1600, links := [(.seam 0, { crossings := [(0, { retraining := some 0 })] })] }
    ((s.links.get {} (.seam 0)).crossings.get {} 0).retraining = some 0 ∧ s.linkFailed (.seam 0) = false ∧ 0 + 1600 ≤ s.cycle := by
  decide +kernel
/-- Routes of MODID: every field below 6, and one that is 6, in a module without launches. -/
theorem test_routes : (∀ i, i < 6 → bitField 0x2DB6D (3 * i + 2) (3 * i) < 6) ∧
    ¬ (∀ i, i < 6 → bitField 6 (3 * i + 2) (3 * i) < 6) ∧ quiet.federated = false ∧ portExists 0 4 = true := by decide +kernel

/-- A load from cell (95, 0) of die 0 toward die 1 waits for the lane of seam 1. -/
def crossing : State :=
  let edge : CellId := { die := 0, col := 95, row := 0 }
  let p : Packet := { load := .request 7, vc := 0, src := placedAt, dst := { die := 1, col := 0, row := 0 }, via := none, colFirst := false, beats := 1 }
  let s := pathUp quiet
  { s with nodes := [(edge, { bufs := [((.w, 0), [p])] })]
           regs := ((linkPorts (.seam 1)).map fun p => ((p.1, (RegName.sfw p.2).off), 0#64)) ++ s.regs }
theorem test_table_waiter : (crossing.tableWaiter (.seam 1) true).isSome = true ∧
    ((crossing.choose { die := 0, col := 95, row := 0 } (laneDir { link := .seam 1, crossing := 0, cls := .dyn, up := true })).any fun w =>
      w.1.p.load == .request 7 && (match w.1.hop with
        | .lane k => crossing.atLane k w.1.p == .cross
        | _ => false)) = true := by decide +kernel

/-! The host side: function 0 of X-die 24 is VD 0 of partition 0. -/

/-- VF 0 enabled with two windows: window 0 on page 0x40000 with every permission, window 1 with none. -/
def vf : Fn := { en := true, winlog := 1, windows := [(0, 0x8000000000040007), (1, 0x8000000000041000)] }
def onX (f : XDie → XDie) (s : State := quiet) : State := { s with xdies := [(24, f { fns := [(0, vf)] })] }
theorem test_function_off : isX 24 = true ∧ quiet.fnOn 24 0 = false ∧ quiet.fnOn 24 513 = true := by decide +kernel
def entryGood (s : State) (off : Nat) (k : InKind) : Bool :=
  (s.window 24 0 off).getLsbD 63 && (s.window 24 0 off).getLsbD k.permBit && s.canonical 24 (s.fnPart 24 0) (windowVa (s.window 24 0 off) off)
/-- Window 0 lets every kind pass, window 1 none; a fence of partition 0. -/
theorem test_inbound_passes : (onX id).fnOn 24 0 = true ∧ ((onX id).xdie 24).inbound = [] ∧
    (onX id).fenced 24 ((onX id).fnPart 24 0) = false ∧ (∀ k ∈ [InKind.write, .read, .atomic],
      entryGood (onX id) 0xFFF k = true ∧ entryGood (onX id) 0x1000 k = false) ∧
    (windowVa ((onX id).window 24 0 0) 0).toNat % 8 = 0 ∧ (windowVa ((onX id).window 24 0 1) 1).toNat % 8 ≠ 0 ∧
    ({ onX id with regs := ((24, (RegName.xpart 0).off), 0x4000000000000000#64) :: quiet.regs } : State).fenced 24 0 = true ∧
    (∀ q ∈ splitPages 0x2FFF 2, ((onX id).window 24 0 q.1).getLsbD 63 = false) := by decide +kernel
/-- A posted write in the ordering point that is released, acknowledged at its home, and a read held for 1 ms. -/
def part (k : InKind) (held : Option Nat) : InPart :=
  { id := 1, requester := .func 24 0, kind := k, route := .host, goal := .mem 0 (.load 4), asid := none, vd := 0, released := true, heldAt := held }
def reqFor (a : Agent) (g : Goal) (st : ReqState) (ret : Ret) : Req := { id := 1, agent := a, goal := g, st := st, ret := ret }
def tracking (k : InKind) (held : Option Nat) : State :=
  { onX fun x => { x with inbound := [part k held] } with
    nextId := 2, cycle := 1000 * usCycles, reqs := [{ reqFor (.func 24 0) (.mem 0 (.load 4)) (.performed 0 0) (.tag 3) with back := true }] }
theorem test_ordering_point : (∀ w ∈ ((tracking .write none).xdie 24).inbound, w.requester = .func 24 0 ∧ w.posted = true ∧
      w.released = true ∧ w.id < (tracking .write none).nextId) ∧ ((tracking .write none).reqOf 1).all (fun q => q.acked && q.back) = true ∧
    (∃ p ∈ ((tracking .read (some 0)).xdie 24).inbound, p.id = 1 ∧ ∃ c, p.heldAt = some c ∧ c + 1000 * usCycles ≤ (tracking .read (some 0)).cycle) ∧
    ∃ q, (tracking .read (some 0)).reqOf 1 = some q ∧ q.agent = .func 24 0 ∧ q.ret = .tag 3 := by
  refine ⟨by decide +kernel, by decide +kernel, ⟨_, List.mem_singleton_self _, rfl, 0, rfl, ?_⟩, _, rfl, rfl, rfl⟩
  decide +kernel
/-- A request of a hart on its way to host memory. -/
def outgoing : State := { onX fun x => { x with outgoing := [(1, 0)] } with
  reqs := [reqFor (.hart 0 0) (.mem 0x01B0000000000000 (.load 4)) (.held 0) (.hartReg 10 4 true 4)] }
theorem test_outgoing : ∃ q, outgoing.reqOf 1 = some q ∧ q.goal = .mem 0x01B0000000000000 (.load 4) ∧ q.agent = .hart 0 0 ∧
    q.agent.isHost = false ∧ q.region = none ∧ ∃ y ∈ xDies, ∃ e ∈ (outgoing.xdie y).outgoing, e.1 = 1 :=
  ⟨_, rfl, rfl, rfl, rfl, rfl, 24, by decide, (1, 0), List.mem_singleton_self _, rfl⟩

/-- Slot 31 holds a message of a type and an argument, its reply at 0x50000. -/
def message (type arg : Nat) (rest : List Byte) : List Byte :=
  leBytes 4 type ++ leBytes 4 7 ++ leBytes 8 arg ++ leBytes 8 0x50000 ++ rest ++ List.replicate (40 - rest.length) 0
def mailbox (type arg : Nat) (rest : List Byte := []) : State :=
  onX fun x => { x with fns := [(0, { vf with slots := [(31, message type arg rest)], busy := 0x80000000 })] }
def slot31 (s : State) : List Byte := (s.fn 24 0).slot 31
theorem test_messages : (∀ x ∈ [(1, 0x400), (2, 0x400), (3, 1), (4, 0)], let s := mailbox x.1 x.2
      (s.fn 24 0).busy.getLsbD 31 = true ∧ msgType (slot31 s) = x.1 ∧ aligned (msgReply (slot31 s)) 128 = true ∧
        msgZero (slot31 s) 24 = true ∧ s.replyAddr (s.fnPart 24 0) (slot31 s) 64 ≠ 0 ∧ (s.xdie 24).replies = []) ∧
    isVf 0 = true ∧ recNat (slot31 (mailbox 1 0 [9])) 24 1 = 9 ∧ recNat (slot31 (mailbox 1 0 [9])) 25 3 = 0 ∧
    msgZero (slot31 (mailbox 1 0 [9])) (28 + 4 * 9) = true ∧ 9 < recNat (slot31 (mailbox 1 0 [10])) 24 1 ∧
    msgArg (slot31 (mailbox 3 1)) < ((mailbox 3 1).fn 24 0).wincnt ∧ msgZero (slot31 (mailbox 3 1)) 32 = true := by decide +kernel
/-- FNCFG within and beyond the entries of the X-die; WINENT of a window that VF 0 has, and of one that it has not. -/
theorem test_windows : quiet.entriesWith 24 0 14 ≤ 524288 ∧
    ¬ (({ quiet with xdies := [(24, { fns := (List.range 40).map fun g => (g, { winlog := 14 }) })] } : State).entriesWith 24 40 14 ≤ 524288) ∧
    1 < ((onX id).fn 24 0).wincnt ∧ ¬ 2 < ((onX id).fn 24 0).wincnt := by decide +kernel
theorem test_sync_done : let s := onX (fun x => { x with sync := some [1] }) { quiet with nextId := 2 }
    (s.xdie 24).sync = some [1] ∧ ∀ id ∈ [1], s.partSettled 24 id = true := by decide +kernel
theorem test_feature_offer : quiet.feat.offer ≠ 0 ∧ ({ quiet with feat := { offer := 3 } } : State).feat.accepted = false ∧
    (2#128 &&& 3 &&& 0xF ≠ 0) ∧ (4#128 &&& 3 &&& 0xF = 0) ∧ (3#128).getLsbD 0 = true := by decide +kernel

/-! UALink and shared ranges, with the features that they need. -/

def feats (n : Nat) (s : State) : State := { s with feat := { s.feat with active := BitVec.ofNat 128 n } }
/-- Export entry 0: peers see 64 KiB at 0 as device addresses from 0x40000 under ASID 1, loads alone. -/
def exported : XDie → XDie := fun x => { x with exports := [((0, 0), 0), ((0, 1), 1), ((0, 2), 0x40000), ((0, 3), 0x8000000000010001)] }
def peers : State := feats 0x101 (onX exported)
theorem test_peer_requests : peers.featOn featUaexport = true ∧ peers.exportAt 24 0x10000 8 = none ∧ peers.exportAt 24 0xFFF8 8 = some 0 ∧
    peers.asidOwner (BitVec.ofNat 16 ((peers.xdie 24).export 0 3)) = some (0, 0) ∧
    ((peers.xdie 24).export 0 3).testBit (peerPerm (.load 8)) = true ∧
    ((peers.xdie 24).export 0 3).testBit (peerPerm (.store (List.replicate 8 0))) = false ∧
    peers.canonical 24 0 0x4FFF8 = true ∧ peers.fenced 24 0 = false ∧
    ({ peers with regs := ((24, (RegName.xpart 0).off), 0x4000000000000000#64) :: peers.regs } : State).fenced 24 0 = true := by
  decide +kernel
/-- A write and a load at the shared-range agent; a copy of line 0; an invalidation owed for it. -/
def sharing (op : MemOp) (f : SharedAgent → SharedAgent) : State :=
  { onX fun x => { x with shared := f { queue := [{ req := 1, port := 0, addr := 0, pasid := 0 }] } } with
    reqs := [reqFor (.hart 0 0) (.mem 0 op) (.held 0) .none] }
theorem test_shared_requests :
    ((sharing (.store [some 1]) id).xdie 24).shared.waiting 1 = some { req := 1, port := 0, addr := 0, pasid := 0 } ∧
    (sharing (.store [some 1]) id).reqReads 1 = false ∧
    ((sharing (.load 64) fun a => { a with copies := [(0, List.replicate 64 1)] }).xdie 24).shared.copies.get? 0 = some (List.replicate 64 1) ∧
    ((sharing (.load 64) id).xdie 24).shared.copies.get? 0 = none ∧ lineOfAddr 0 = 0 ∧ 0 % 64 + 64 ≤ 64 ∧
    ((sharing (.load 64) id).reqOf 1).any (fun r => r.goal == .mem 0 (.load 64) && !r.agent.isHost) = true ∧
    (((sharing (.store []) fun a => { a with heldWrites := a.queue }).xdie 24).shared.heldWrites.find? fun q =>
      lineOfAddr q.addr == 0).isSome = true := by decide +kernel
theorem test_shared_invalidation : let s := sharing (.load 64) fun a => { a with owed := [0], serving := [(1, 0), (2, 0)] }
    0 ∈ (s.xdie 24).shared.owed ∧ s.returned 1 = false ∧ s.returned 2 = true := by decide +kernel
/-- Commits: an entry that overlaps none, one that overlaps entry 0, one of size 0. -/
def committing (sel base size : DWord) : XDie :=
  ((feats 0x181 (onX fun x => { exported x with expsel := sel.toNat, expHeld := [(0, base), (1, size)] })).xdie 24)
theorem test_export_commits : (feats 0x181 quiet).featOn featUaexport = true ∧ (feats 0x181 quiet).featOn featUashared = true ∧
    (∀ k < 1024, k ≠ 1 → (committing 1 0x10000 1).exportRange k = if k = 0 then some (0, 65536) else none) ∧
    ¬ ((0 : Nat) < 0x10000 + 65536 ∧ 0x10000 < 0 + 65536) ∧ ((0 : Nat) < 0 + 65536 ∧ 0 < 0 + 65536) := by decide +kernel
theorem test_range_commits : let s := feats 0x181 (onX fun x => { x with
      ranges := [((0, 0), 0), ((0, 1), 0x8000000000000001)], clearing := [(0, (0, 0))] })
    (s.xdie 24).rangeOf 0 = some (0, 65536) ∧ (s.xdie 24).rangeOf 1 = none ∧ (s.xdie 24).clearing.get? 0 = some (0, 0) ∧
    (∀ q ∈ (s.xdie 24).shared.heldWrites ++ (s.xdie 24).shared.queue, (s.xdie 24).inRange 0 q.addr = false) := by decide +kernel
theorem test_port_down : let s := sharing (.store []) id
    (∃ w ∈ (s.xdie 24).shared.queue, w.req = 1 ∧ w.port = 0) ∧ (s.reqOf 1).any (fun q => q.agent == .hart 0 0) = true := by
  decide +kernel

/-! Ethernet. -/

theorem test_roce : rocePieces 0x40000 (.load 4096) = [(0x40000, .load 4096)] ∧ (peers.xdie 24).inbound = [] ∧
    (peers.xdie 24).postedOf (.qp 24 0) = 0 ∧
    peers.peerCheck 24 (peers.exportVa 24 0x40000 4096) (fun _ => 0x40000) (.load 4096) = .ok 0x40000 1 0 0 ∧
    (peers.peerCheck 24 (peers.exportVa 24 0x50000 4096) (fun _ => 0x50000) (.load 4096)) = .bad 1 := by decide +kernel
/-- A launch frame of a tenant with a full bucket. -/
def frame (seq : Nat) : List Byte :=
  leBytes 2 0x5A47 ++ leBytes 2 1 ++ leBytes 4 5 ++ leBytes 4 seq ++ leBytes 4 0 ++ leBytes 8 0x400 ++ leBytes 24 0
def tenants (bucket : Nat) (s : State := quiet) : State := feats 0x41 (onX (fun x => { x with
  tenants := [(5, { words := [(0, 0x8000), (1, 0x300010100), (3, 0x10000)], bucket := bucket })], frames := [frame 4] }) s)
theorem test_frames : (frame 4).length = 48 + 4 * frameNscal (frame 4) ∧ (tenants 1).featOn featEthlaunch = true ∧
    recNat (frame 4) 0 2 = 0x5A47 ∧ recNat (frame 4) 2 1 = 1 ∧ recNat (frame 4) 3 1 = 0 ∧ frameNscal (frame 4) ≤ 32 ∧
    frameTenant (frame 4) < 4096 ∧ ((tenants 1).tenant 24 5).en = true ∧ (tenants 1).frameFails 24 [] = some 0 ∧
    (tenants 1).frameFails 24 (putAt (frame 4) 4 [6]) = some 1 := by decide +kernel
/-- The frame with its tag passes; with its last byte changed it does not. -/
theorem test_frame_tag : let b := (frame 4).take 32 ++ (leBytes 32 (hmacSha256 ((tenants 1).tenant 24 5).key ((frame 4).take 32)).toNat).take 16
    (tenants 1).frameFails 24 b = none ∧ (tenants 1).frameFails 24 (frame 4) = some 2 := by decide +kernel
theorem test_frame_home : ((tenants 1).xdie 24).frames = [frame 4] ∧ frameTenant (frame 4) = 5 ∧
    recNat (frame 3) 8 4 ≤ ((tenants 1).tenant 24 5).lastSeq ∧ ((tenants 1).tenant 24 5).lastSeq < recNat (frame 4) 8 4 ∧
    ((tenants 1).tenant 24 5).bucket ≠ 0 ∧ ((tenants 0).tenant 24 5).bucket = 0 := by decide +kernel
theorem test_tenant_refill : let s := tenants 0 { quiet with cycle := 1000 * usCycles }
    (s.tenant 24 5).refilled + 1000 * usCycles ≤ s.cycle := by decide +kernel
/-- A tenant of partition 0, whose XPART is valid, and of partition 1, whose is not. -/
theorem test_tenant_commit : let s := { tenants 0 with regs := [((24, (RegName.xpart 0).off), 0x8000000000000000#64)] }
    s.featOn featEthlaunch = true ∧ s.regField 24 (.xpart 0) 63 63 = 1 ∧ s.regField 24 (.xpart 1) 63 63 ≠ 1 := by decide +kernel

/-! Partitions. -/

theorem test_partition_writes : quiet.dieUsed 0 = false ∧ (regionIn .loaded id quiet).dieUsed 0 = true ∧
    rangesClash (lpRange 0x8000004000000000) (lpRange 0x8000004000000000) = true ∧
    rangesClash (lpRange 0x8000004000000000) (lpRange 0x8001004000000000) = false := by decide +kernel
/-- A link closed for its last-resort completer with a crossing outstanding. -/
def closing : State :=
  { quiet with
    regs := [((0, (RegName.sfw 1).off), 4#64)], links := [(.seam 1, { table := [{ req := 1, up := true }] })]
    reqs := [reqFor (.hart 0 0) (.mem 0 (.load 4)) .net .none] }
theorem test_last_resort : linkAt (0, 1) = some (.seam 1) ∧ closing.regField 0 (.sfw 1) 2 2 = 1 ∧ closing.regField 0 (.sfw 1) 3 3 = 0 ∧
    (∀ e ∈ (closing.links.get {} (.seam 1)).table, (closing.reqOf e.req).any (fun q => !q.back && !q.agent.isHost &&
      (closing.issuedBy q fFirewall 1).isNone) = true) := by decide +kernel
/-- Partition 0 is die 0, all of whose seams are closed and answered for. -/
def isolated : State :=
  { quiet with
    feat := quiet.feat
    regs := quiet.regs ++ ((List.range 26).flatMap fun d => (List.range 5).map fun p => ((d, (RegName.sfw p).off), 0xD#64)) ++
      xDies.map fun x => ((x, (RegName.xpart 0).off), 0xC000000000000000#64) }
theorem test_partition_resets : isolated.mayReset 0 = true := by decide +kernel
/-- The record of a launch of VD 0: one level, one team, an instance of one cell. -/
def record : List Byte :=
  leBytes 2 1 ++ leBytes 1 1 ++ leBytes 7 0 ++ leBytes 1 1 ++ List.replicate 245 0 ++ leBytes 8 (1 + 2 ^ 24 + 2 ^ 46 + 2 ^ 54)
/-- That launch, issued by hart 0; its instance is the region under handle 0. -/
def launch0 (st : LState) : Launch :=
  { recAddr := 0x40000, reply := 0, issuer := .hart 0 0 10, part := 0, vd := 0, asid := some 1, st := st, quantum := 50
    copy := record, insts := [{ n := 0, handle := some 0 }] }
def withLaunch (l : Launch) (s : State := quiet) : State := { s with launches := [(0, l)] }
/-- VDCFG with each reason of rejection, and with none. -/
theorem test_vd_writes : (let v : DWord := 0x1; v.getLsbD 0 = true ∧ v.extractLsb' 32 16 = 0) ∧
    (let v : DWord := 0x100180001; v.extractLsb' 32 16 ≠ 0 ∧ 24 ≤ (v.extractLsb' 16 5).toNat) ∧
    (let v : DWord := 0x100010001; v.getLsbD 0 = true ∧ quiet.partDies (v.extractLsb' 16 5).toNat = []) ∧
    (let v : DWord := 0x100010000; v.getLsbD 0 = false ∧ (v.extractLsb' 16 5).toNat ≠ ((quiet.reg 0 (.vdcfg 0)).extractLsb' 16 5).toNat ∧
      (withLaunch (launch0 .running)).pendingOf 0 0 ≠ 0 ∧ quiet.pendingOf 0 0 = 0) ∧ quiet.partDies 0 ≠ [] := by decide +kernel
theorem test_map_writes : quiet.asidBusy 0 1 = false ∧ (withLaunch (launch0 .running)).asidBusy 0 0 = true ∧
    quiet.physFree 0 = true ∧ (regionIn .running id quiet).physFree 0 = false := by decide +kernel

/-! Launches. -/

theorem test_launch_issues_checks : let l := { launch0 .issued with recAddr := 0x60000 }
    let s := withLaunch l (withBytes 0x60000 record quiet)
    s.launches.get? 0 = some l ∧ s.feat.accepted = true ∧ ({ s with feat := {} } : State).feat.accepted = false ∧
      l.recAddr.toNat % 1024 = 0 ∧ s.memoryReady (s.ownerDie (s.mapDie l.part) l.part l.recAddr) = true ∧ (s.loadLong (s.mapDie l.part) l.part l.asid l.recAddr 16).any (fun b => s.issueCheck (s.taken l b) == none) = true ∧
      (s.loadLong (s.mapDie l.part) l.part l.asid 0x40000 16).any (fun b => (s.issueCheck (s.taken l b)).isSome) = true ∧
      s.loadLong (s.mapDie l.part) l.part l.asid 0x8000000000000000 16 = none := by decide +kernel
/-- The answer to the hart's own launch. -/
theorem test_launch_answers : (launch0 .issued).issuer = .hart 0 0 10 ∧ (({ base with harts := [((0, 0), hartOf 0 0)] } : State).hart 0 0).Ok :=
  ⟨rfl, hartOk_spec (by decide +kernel)⟩
/-- A store that is not performed. -/
def aStore : Req :=
  { id := 1, agent := .ctx placedAt 0, goal := .mem 0x40000 (.store [some 1]), st := .performed 0 0, ret := .none, owed := true }
/-- Placing: an instance without a region; a region whose image is all zeros, or cannot be read. -/
def placing (image : Nat) (h : Option Word) : State :=
  withLaunch { launch0 .placing with insts := [{ n := 0, handle := h }], copy := record.take 16 ++ leBytes 8 image ++ record.drop 24 }
    (regionIn .allocated (fun r => { r with launch := some 0 }) quiet)
def placed (image : Nat) : Option Bool :=
  let s := placing image (some 0)
  (s.launches.get? 0).bind fun l => match s.launchImage l with
    | .ok m => if (m.check (s.launchWant l)).isSome then some false else none
    | .error _ => some true
theorem test_placing : ((placing 0x40000 none).launches.get? 0).any (fun l => l.st == .placing &&
      l.insts.any fun i => !i.retired && i.handle.isNone) = true ∧
    ((placing 0x40000 (some 0)).regionsOf 0).any (fun e => e.2.state == .allocated &&
      ((placing 0x40000 (some 0)).saves.get? (0, e.2.inst)).isNone) = true ∧
    placed 0x40000 = some false ∧ placed 0x4000000000000000 = some true := by decide +kernel
theorem test_summary : quiet.partOf 0 = some 0 ∧ 0 ∈ quiet.partDies 0 := by decide +kernel
/-- A launch that has waited longer than its bound, 10,000 µs, and one whose slice has ended. -/
theorem test_ageing : ∀ st ∈ [LState.queued, .saved], (launch0 st).cls < 3 ∧
    (launch0 st).waitSince + (launch0 st).ageBound * usCycles < 10000 * usCycles + 1 := by decide +kernel
theorem test_slice_ends : (launch0 .running).sliceStart + (launch0 .running).quantum * usCycles ≤ 50 * usCycles ∧
    (withLaunch (launch0 .running)).successor 0 (launch0 .running) = none ∧
    (withLaunch (launch0 .running) (regionIn .running (fun r => { r with byStop := true, launch := some 0 }) quiet)).switchable 0 = false ∧
    (withLaunch (launch0 .running)).switchable 0 = true := by decide +kernel
/-- A second launch of the VD, of a higher class, that only the cells of the first would let start: the first one fills
the die. -/
def contended : State :=
  let wide := record.take 0x100 ++ leBytes 8 (1 + 2 ^ 24 + 48 * 2 ^ 46 + 96 * 2 ^ 54)
  { regionIn .running (fun r => { r with launch := some 0 }) quiet with
    cycle := 50 * usCycles
    launches := [(0, launch0 .running), (1, { launch0 .queued with recAddr := 0x50000, copy := wide, insts := [], cls := 1, seq := 1 })] }
theorem test_slice_switches : contended.switchable 0 = true ∧ contended.successor 0 (launch0 .running) = some 1 := by decide +kernel
theorem test_completes : (withLaunch (launch0 .completing)).launchOwes 0 = [] ∧ (launch0 .completing).outside = [] ∧
    (withLaunch (launch0 .completing) { quiet with reqs := [{ aStore with launch := some 0 }] }).launchOwes 0 ≠ [] ∧
    ({ launch0 .completing with copy := record.take 4 ++ [16] ++ record.drop 5 } : Launch).flag flagIrq = true ∧
    (quiet.comptlAfter { launch0 .completing with copy := record.take 0x38 ++ leBytes 8 0x18000 ++ record.drop 0x40 }).isSome = true := by
  decide +kernel
/-- An instance that is over: every context has halted and everything has landed. -/
def ended (launch : Option Nat) : State :=
  withLaunch (launch0 .running) { regionIn .running (fun r => { r with launch := launch }) quiet with
    cells := [(placedAt, { ce := { halted := 0xFF } })] }
theorem test_retires : ∀ n ∈ [none, some 0], ((ended n).regions.get? 0).any (fun r => r.active && r.wave == [] && State.over (ended n) r &&
    r.launch == n && (ended n).allLanded 0 && (ended n).regionOwes 0 == [] && r.cells.all fun p => ((ended n).cells.get {} (r.cellAt p.1 p.2)).nothingDue) = true := by
  decide +kernel

/-- The same with a write that has landed and is not performed at SYSTEM scope. -/
theorem test_retires_later : let s := { ended none with reqs := [{ aStore with region := some 0, landed := true, owed := true }] }
    (s.regions.get? 0).any (fun r => State.over s r && s.allLanded 0) = true ∧ s.regionOwes 0 ≠ [] := by decide +kernel

/-! Gang switches and the stops of regions. -/

/-- A switch of the launch on die 0, with a verdict and the phases that die 0 has finished. -/
def switching (verdict : Nat) (f : Switch → Switch) (st : RState) : State :=
  withLaunch { launch0 .switching with switch := some (f { tick := 0, deadline := 1000, verdict := verdict }) }
    (regionIn st (fun r => { r with launch := some 0 }) quiet)
def sw (s : State) (P : Launch → Switch → Bool) : Bool := (s.switchOf 0).any fun x => P x.1 x.2
theorem test_switch_ticks : sw (switching 0 id .running) (fun _ w => w.verdict == 0 && !w.ticked.contains 0) = true ∧
    0 ∈ (switching 0 id .running).gangDies 0 := by decide +kernel
theorem test_switch_ready : let s := switching 0 (fun w => { w with ticked := [0] }) .frozen
    sw s (fun _ w => w.verdict == 0 && w.ticked.contains 0 && !w.ready.contains 0 && decide (s.cycle ≤ w.deadline)) = true ∧
    (∀ e ∈ s.gangOn 0 0, e.2.state = .frozen ∨ e.2.state = .retired) ∧ s.gangOn 0 0 ≠ [] := by decide +kernel
theorem test_switch_deadline : let s := { switching 0 id .running with cycle := 1000 }
    sw s (fun _ w => w.verdict == 0 && decide (w.deadline ≤ s.cycle)) = true := by decide +kernel
/-- Commit: another die has not committed; the last one commits. Abort: likewise. -/
theorem test_switch_ends :
    sw (switching 1 (fun w => { w with ready := [0, 1] }) .frozen) (fun _ w => w.verdict == 1 && w.ready.contains 0 &&
      !w.committed.contains 0 && w.ready.any fun k => k != 0 && !w.committed.contains k) = true ∧
    sw (switching 1 (fun w => { w with ready := [0, 1], committed := [1] }) .frozen) (fun _ w => w.verdict == 1 &&
      w.ready.all fun k => k == 0 || w.committed.contains k) = true ∧
    sw (switching 2 id .stopping) (fun _ w => w.verdict == 2 && !w.aborted.contains 0 &&
      ((switching 2 id .stopping).gangDies 0).all fun k => k == 0 || w.aborted.contains k) = true := by decide +kernel
def twoDies : State := { switching 2 id .stopping with regions :=
  [(0, { placedRegion with state := .stopping, launch := some 0 }), (0x1000000, { placedRegion with state := .stopping, launch := some 0, cols := [96] })] }
theorem test_switch_abort_waits : ∃ k ∈ twoDies.gangDies 0, k ≠ 0 ∧ k ∉ ([] : List Nat) := by decide +kernel

/-- A seam that has failed under a region's route from die 0 to die 1. -/
def seamDown : State := { quiet with regs := ((linkPorts (.seam 1)).map fun p => ((p.1, (RegName.seamst p.2).off), 4#64)) ++ quiet.regs }
theorem test_seam_failed : seamDown.linkFailed (.seam 1) = true := by decide +kernel
/-- An edge link that has failed between a launch and its subtree on module 1. -/
theorem test_edge_failed :
    let e := State.edgeTo quiet (quiet.mapDie 0) 1
    let die := if e.1 then e.2 else 18 + e.2
    let s := withLaunch { launch0 .running with outside := [1] } { quiet with
      regs := ((linkPorts (.edge e.1 e.2)).map fun p => ((p.1, (RegName.seamst p.2).off), 4#64)) ++ quiet.regs }
    portEdge die 4 = some (.edge e.1 e.2) ∧ (portEdge die 4).any s.linkFailed = true ∧
      (s.launches.get? 0).any (fun l => l.st.accepted && !l.choosable && l.outside == [1]) = true := by decide +kernel
theorem test_seam_timeout : let s := { withLaunch { launch0 .freezing with seamAt := some 0 } (regionIn .running (fun r =>
      { r with launch := some 0 }) quiet) with cycle := 10000 * 1600 }
    (s.launches.get? 0).any (fun l => l.st == .freezing && l.seamAt == some 0) = true ∧ 0 + 10000 * 1600 ≤ s.cycle := by decide +kernel
/-- A region that has come to rest, and one with a request on its way. -/
def stopping (reqs : List Req) : State :=
  { regionIn .stopping (fun r => { r with stopAt := some 0 }) quiet with cycle := 100000, reqs := reqs }
/-- Wherever the stop stands, it has reached every cell by its bound. -/
theorem held_all {r : Region} {t now : Nat} (ht : r.stopAt = some t)
    (h : (r.cells.all fun p => decide (t + (16 + 6 * seamCount r.origin (r.cellAt p.1 p.2)) ≤ now)) = true) : r.heldAll now = true := by
  unfold Region.heldAll
  rw [List.all_eq_true] at h ⊢
  intro p hp
  have hb := of_decide_eq_true (h p hp)
  unfold Region.held
  rw [ht]
  exact decide_eq_true (Nat.le_trans (Nat.add_le_add_left (Nat.min_le_left _ _) _) hb)
theorem test_quiesces : (({ placedRegion with state := .stopping, stopAt := some 0 } : Region).heldAll 100000 = true) ∧
    ((stopping []).regions.get? 0).any (fun r => r.stopAt == some 0 && !(stopping []).arrivalDue r &&
      (stopping []).frontSettled 0 r (r.stopAt.getD 0) && r.cells.all fun p => !(stopping []).tokensOut ((stopping []).cells.get {} (r.cellAt p.1 p.2))) = true ∧
    ∀ q ∈ (stopping [pendingLoad]).reqs, q.region = some 0 ∧ q.landed = false ∧ q.st = .net :=
  ⟨held_all rfl (by decide +kernel), by decide +kernel, by decide +kernel⟩
/-- A front that has settled: with a fault of policy SUSPEND due, and with one of policy KILL. -/
def aFault : FaultRec := { code := 0x10, cls := 0, cell := some (0, 0) }
def settling (policy : Byte) : State :=
  let r : Region := { placedRegion with state := .freezing, launch := some 0, wave := [(placedAt, 0)], due := [aFault], fault := some aFault }
  withLaunch { launch0 .running with copy := record.take 0x28 ++ [policy] ++ record.drop 0x29 } { quiet with regions := [(0, r)], cycle := 100000 }
theorem test_front_settles : ∀ p ∈ [(0 : Byte), 1], ((settling p).regions.get? 0).any (fun r => r.waveDone (settling p).cycle &&
    (settling p).allLanded 0 && r.imprecise == [] && r.due.all fun f => f.code != 0x0D && f.cls != 2) = true := by decide +kernel
theorem test_front_kills : ((settling 0).regions.get? 0).any (fun r => (settling 0).policyOf r 0 == polKill) =
    !((settling 1).regions.get? 0).any (fun r => (settling 1).policyOf r 0 == polKill) := by decide +kernel
theorem test_shut_idle : let s := { regionIn .running (fun r => { r with shut := true }) quiet with cycle := 10000 * 1600 }
    (s.regions.get? 0).any (fun r => r.shut && r.exitAt.isNone && decide (r.lastActive + 10000 * 1600 ≤ s.cycle) && s.allLanded 0) = true := by
  decide +kernel
theorem test_drain_times_out : let s := { drains .stopping with cycle := 160000 }
    (s.hart 0 0).Ok ∧ (s.hart 0 0).wait = some (.drain 0 10 0) ∧ (s.regions.get? 0).any (·.state == .stopping) = true ∧ 0 + 160000 ≤ s.cycle :=
  ⟨hartOk_spec (by decide +kernel), by decide +kernel, by decide +kernel, by decide +kernel⟩

/-! Hops and streams. -/

/-- A running region of one cell, under lot 1. -/
def cellIn (c : Cell) (f : Region → Region := id) (s : State := quiet) : State :=
  { regionIn .running f s with cells := [(placedAt, c)] }
def aDesc (d : AgDir) (t : AgTarget) (rule : Nat) : Desc :=
  { base := 0, counts := [4, 1, 1, 1, 1, 1], strides := [64, 0, 0, 0, 0, 0], ndim := 1, fmt := .i32, dir := d, target := t, page := 0, pack := .vec
    eosrule := rule, lotmode := none, fill := false, sctx := 0, rop := .add, sbbase := 0 }
def aTok : Tok := { body := .vec vecA, ctx := 0 }
/-- A route from output 0 to every kind of destination, with a token at it. -/
def routed (full : Nat) : State := cellIn
  { ce := { vo := [(0, [.filled aTok])], vi := [(1, List.replicate full aTok)] }
    me := { streams := [(0, { desc := aDesc .write .here 1 }), (1, { desc := aDesc .write .here 1 })] }
    sw := { routes := [{ net := .vec, src := .out 0, outs := [.dir .e, .chan 1, .sp 0, .cfg 1], entry := false, exits := [] }] } }
def theRoute : Route := { net := .vec, src := .out 0, outs := [.dir .e, .chan 1, .sp 0, .cfg 1], entry := false, exits := [] }
theorem test_token_hops : ((routed 1).spot placedAt).any (fun sp => sp.r.active && !sp.r.exited (routed 1).cycle placedAt &&
      ((routed 1).feed sp placedAt theRoute).isSome && (routed 1).routeTurn sp placedAt theRoute) = true ∧
    ((routed 1).cells.get {} placedAt).sw.routes.find? (fun v => v.net == .vec && v.src == .out 0) = some theRoute ∧
    theRoute.outs.all (outRoom ((routed 1).cells.get {} placedAt) .vec) = true ∧ theRoute.outs.Nodup ∧
    theRoute.outs.all (outRoom ((routed 2).cells.get {} placedAt) .vec) = false := by decide +kernel
/-- Two packets at a cell: a request that goes on east, and one that has come to its cell. -/
def aPacket (load : Load) (vc : Nat) (dst : CellId) : Packet :=
  { load := load, vc := vc, src := placedAt, dst := dst, via := none, colFirst := false, beats := 1 }
def packets : State := { cellIn {} with
  nodes := [(placedAt, { bufs := [((.w, 1), [aPacket (.request 1) 1 { die := 0, col := 5, row := 0 }]), ((.w, 2), [aPacket (.response 1) 2 placedAt]),
      ((.n, 1), [aPacket (.request 1) 1 placedAt])] })]
  nextId := 2, reqs := [reqFor (.ctx placedAt 0) (.me 0 0 0 (.read 0 4)) .net (.reg (.s 4))] }
theorem test_packets_hop : (packets.choose placedAt .e).any (fun x => x.1.hop == .node { die := 0, col := 1, row := 0 } .w) = true ∧
    (packets.choose placedAt .l).any (fun x => x.1.hop == .deliver) = true ∧
    (packets.reqOf 1).any (·.st == .net) = true := by decide +kernel
/-- A stream in its cell: a reader or writer of four vectors from 0, or of global memory. -/
def streamIn (t : Stream) : State := cellIn { me := { scratch .z with streams := [(0, t)] } }
def ag (s : State) (P : AgEnv → Bool) : Bool := (s.agEnv placedAt 0).any P
theorem test_read_elements :
    ag (streamIn { desc := aDesc .read .here 1, eosDue := 1 }) (fun e => e.isRead && !e.exited && e.room && e.runs && e.t.eosDue != 0) = true ∧
    ag (streamIn { desc := aDesc .read .here 1 }) (fun e => e.isRead && !e.exited && e.room && e.t.eosDue == 0 && !e.configFirst &&
      e.t.refires == [] && !e.t.ended && e.mayTake && e.tile == none && !e.misaligned && !e.outstanding && e.readsHere && e.path (meOffset e.t.addr) == .here &&
      (match meOp e.me e.acc e.s.reqDone [] none (.read (meOffset e.t.addr) e.t.desc.size) with | .ok _ _ => true | _ => false)) = true ∧
    ag (streamIn { desc := aDesc .read .global 1 }) (fun e => e.isRead && e.t.eosDue == 0 && e.mayTake && !e.misaligned &&
      e.path (meOffset e.t.addr) == .mem && e.s.canonical e.id.die e.part (BitVec.ofInt 64 e.t.addr)) = true := by decide +kernel
/-- Tokens at a write stream's input: data, and the end of the stream under either rule. -/
def tokenOf (m : Marker) : Tok := { aTok with mark := m }
theorem test_write_elements : (∀ rule ∈ [0, 1], ag (streamIn { desc := aDesc .write .here rule, inq := [tokenOf .eos] }) (fun e =>
      !e.isRead && !e.configFirst && e.runs && !e.sp.r.stepover && !e.t.ended && e.t.desc.eosrule == rule) = true) ∧
    ag (streamIn { desc := aDesc .write .here 1, inq := [tokenOf .data] }) (fun e => !e.isRead && !e.configFirst && e.mayTake && !e.misaligned && !e.outstanding &&
      (tokenOf .data).payload.mask != 0 && e.path (meOffset e.t.addr) == .here &&
      (match meOp e.me e.acc e.s.reqDone [] none (e.writeOp (tokenOf .data).payload (meOffset e.t.addr)) with
        | .ok m _ => m.streams == e.me.streams | _ => false)) = true := by decide +kernel
/-- Configuration tokens: of another marker, away from a boundary, and at one, of every kind (R176). -/
def config (k : Nat) : Tok := { body := .scal (BitVec.ofNat 32 (k * 2 ^ 26 + 0x40)), ctx := 0, mark := .cfg }
theorem test_config_tokens :
    ag (streamIn { desc := aDesc .read .here 1, cfgq := [tokenOf .data] }) (fun e => e.runs) = true ∧
    ag (streamIn { desc := aDesc .read .here 1, cfgq := [config 0] }) (fun e => e.runs && !e.t.boundary && !e.t.ended) = true ∧
    ∀ k ∈ [0, 1, 2, 8, 13, 16, 21, 24, 29, 32], ag (streamIn { desc := aDesc .read .here 1, cfgq := [config k], boundary := true }) (fun e =>
      e.runs && e.t.eosDue == 0 && e.t.boundary && !e.t.applyAll.misplaced && ((config k).word.extractLsb' 26 6).toNat == k) = true := by
  decide +kernel
/-- A record of two levels: two instances in the one level-1 team. -/
def twoLevels : List Byte := record.take 10 ++ [2] ++ record.drop 11 ++ leBytes 8 (2 + 2 ^ 24)
/-- An arrival at a barrier, standalone and as an instance of a launch that has one or two left. -/
def arriving (launch : Option Nat) (n : Nat) : State :=
  withLaunch { launch0 .running with copy := twoLevels, insts := (List.range 2).map fun k =>
      { n := k, handle := some (BitVec.ofNat 32 k), retired := decide (n ≤ k) } }
    (cellIn {} fun r => { r with launch := launch, tbars := [(1, { due := some [] })] })
theorem test_barrier_arrivals : ((arriving none 1).regions.get? 0).any (fun r => (r.tbars.get {} 1).due == some [] &&
      !(r.tbars.get {} 1).arrived && r.active && r.imprecise == [] && r.launch.isNone) = true ∧
    (∀ n ∈ [1, 2], ((arriving (some 0) n).launches.get? 0).any (fun l => let t := l.teamNo 0 1
      l.st != .freezing && l.outsideArrived 1 t 0 && ((l.members 1 t).any fun i => i.n != 0 && !l.hasArrived 1 (l.released.get 0 (1, t)) i) == (n == 2) &&
      l.released.get 0 (1, t) == 0) = true) := by decide +kernel
/-- What a cell holds back until accesses are over: a full mark, a publication, a bank; and waits of context 0. -/
def holding (launch : Option Nat) (op : Deferred) : State :=
  withLaunch { launch0 .running with insts := [{ n := 0, handle := some 0 }], copy := twoLevels }
    { cellIn { me := { scratch .z with decls := [(0, .basting { base := 0, lines := 128, due := [{ ver := 1, reqs := [] }] })]
                                       later := [{ id := 1, op := op, reqs := [] }] }
               ce := { waits := [(0, [.fence [], .sbar 1 [], .timeline 9, .tbar 0 0])] } } (fun r => { r with launch := launch }) with nextId := 2 }
def give (inst : Nat) : State := holding (some 0) (.give 1 0 0 inst false { handle := 0, col := 0, row := 0, bank := 1, lot := 1 })
theorem test_later_operations :
    ((holding none (.feSet 0x3F80)).laterAt 1).any (fun x => x.1 == placedAt && x.2.reqs == []) = true ∧
    ((holding none (.feSet 0x3F80)).spot placedAt).any (fun sp => sp.r.active &&
      (match meOp ((holding none (.feSet 0x3F80)).cells.get {} placedAt).me (sp.acc placedAt ((holding none (.feSet 0x3F80)).cells.get {} placedAt).me)
          (holding none (.feSet 0x3F80)).reqDone [] none (.feSet 0x3F80) with | .ok _ _ => true | _ => false)) = true ∧
    (((holding none (.feSet 0)).cells.get {} placedAt).me.basting 0).any (fun b => b.due == [{ ver := 1, reqs := [] }]) = true ∧
    (∀ j < 16, (((holding none (.feSet 0)).cells.get {} placedAt).me.bank j).bound = none) ∧
    (∀ i ∈ [0, 1], ((give i).launches.get? 0).any (fun a => decide (i < a.teams 0) && (a.insts.all fun x => x.n != i || !x.retired) &&
      ((give i).regions.find? fun x => x.2.isInst (0, i)).any (fun x => x.2.cells.contains (0, 0) && x.2.state != .allocated && x.2.state != .loaded) == (i == 0) &&
      ((give i).regions.find? fun x => x.2.isInst (0, i)).isNone == (i == 1)) = true) := by decide +kernel

/-! Requests at their homes and back, side logs, sweeps, copies, the accesses of harts. -/

/-- A request of context 0 of the cell, held at its home. -/
def reqAt (g : Goal) (ret : Ret := .none) : Req :=
  { reqFor (.ctx placedAt 0) g (.held 0) ret with region := some 0, asid := some 1, part := 0 }
def atHome (g : Goal) (c : Cell := {}) (logs : Store (Nat × Nat) SideLog := []) (more : List Req := []) : State :=
  { cellIn c with nextId := 3, reqs := reqAt g :: more, slogs := logs }
def going (s : State) (P : Req → Bool) : Bool :=
  (s.reqOf 1).any fun q => q.st == .held 0 && !q.owed && s.earlier q == [] && P q
def ready (s : State) (q : Req) (va : DWord) (op : MemOp) : Bool :=
  s.memoryReady (s.ownerOf q va) && !s.fencedAt q (s.ownerOf q va) && vaOwner va != 27 && !s.flashFull (s.ownerOf q va) va op
def logAt (s : State) (q : Req) (va : DWord) : Nat × Nat := s.logOf q.agent.die q.part va
/-- Every operation on memory that is mapped; a load and a store at an address that is not. -/
def aRmw : Rmw := { op := .add, size := 4, v := 1 }
theorem test_memory_operations : (∀ op ∈ [MemOp.load 4, .store [some 1], .rmw aRmw true, .rmw aRmw false, .reduce .add .i32 .vec 1 1],
      let s := atHome (.mem 0x60000 op)
      going s (fun q => ready s q 0x60000 op && s.mem.wf && !s.loadHeld (s.ownerOf q 0x60000) q.asid 0x60000 4 &&
        !s.logHolds (logAt s q 0x60000) q.asid && (s.issuedBy q fEcc 0).any (fun i => s.policyOf i.r 0 != polShut) &&
        (match s.resolve q 0x60000 op false with
          | .ok (l, pa) => !l.freshBit (vaOffset 0x60000) && !s.eccAt (dataHome (s.ownerOf q 0x60000) 0x60000) pa op.size
          | .error _ => false)) = true) ∧
    (∀ op ∈ [MemOp.load 4, .store [some 1]], let s := atHome (.mem 0x400000000 op)
      going s (fun q => ready s q 0x400000000 op && (s.log (logAt s q 0x400000000)).entries.length < 256 &&
        !s.loadHeld (s.ownerOf q 0x400000000) q.asid 0x400000000 4 && (match s.resolve q 0x400000000 op false with
          | .ok _ => false
          | .error c => c == transMiss && (s.issuedBy q c 1).any fun i => s.policyOf i.r 1 != polShut && s.policyOf i.r 1 != polMap)) = true) := by
  decide +kernel
/-- A vector access of which nothing, and of which all but the first part is performed; a turn performs the second part
and leaves the rest. -/
def vector : MemOp := .store (List.replicate 64 (some 1))
def begun (op : MemOp) (n : Nat) : State :=
  { cellIn {} with nextId := 3, reqs := [{ reqAt (.mem 0x60000 op) with got := List.replicate n none ++ List.replicate (64 - n) (some 7) }] }
theorem test_vector_parts : (∀ op ∈ [MemOp.load 64, vector], ∀ n ∈ [8, 64], let s := begun op n
      going s (fun q => ready s q 0x60000 op && s.mem.wf && decide (op.size = 64) &&
        !s.loadHeld (s.ownerOf q 0x60000) q.asid 0x60000 64 && !s.logHolds (logAt s q 0x60000) q.asid &&
        (match s.resolve q 0x60000 op false with
          | .ok (l, pa) => !l.freshBit (vaOffset 0x60000) && !s.eccAt (dataHome (s.ownerOf q 0x60000) 0x60000) pa 64
          | .error _ => false)) = true) ∧
    (match exec (.globalRequestArrival 1 false .clean (some 1)) (begun vector 64) with
      | .next t => decide (t.mem.readN (homeKey 0 0x60000) 24 = List.replicate 8 0 ++ List.replicate 8 1 ++ List.replicate 8 0) &&
          going t fun q => decide ((q.got.filter (·.isSome)).length = 8)
      | _ => false) = true := by decide +kernel
/-- A load of a line of flash that a log holds. -/
def logged : Req := { reqAt (.mem 0x1A0000000000000 (.store [some 1])) with id := 0, agent := .ctx placedAt 1, st := .logged }
theorem test_load_waits : let s := atHome (.mem 0x1A0000000000004 (.load 4)) {} [((24, 8), { entries := [0] })] [logged]
    going s (fun q => ready s q 0x1A0000000000004 (.load 4) &&
      s.loadHeld (s.ownerOf q 0x1A0000000000004) q.asid 0x1A0000000000004 4) = true := by
  decide +kernel
/-- Timelines: reached, not reached. -/
theorem test_timeline_requests : ∀ op ∈ [TlOp.read, .arm 0, .arm 1], let s := atHome (.tl tl0 op)
    going s (fun _ => match op with
      | .arm m => !(s.copies.get {} tl0).poisonedBy m && decide (m.toNat ≤ (s.copies.get {} tl0).tlc.toNat) == (m == 0)
      | .read => true) = true := by decide +kernel
/-- Scratchpad: a cell of the region; a region that is gone. -/
theorem test_scratch_requests : (let s := atHome (.me 0 0 0 (.read 0x3F80 64)) { me := scratch .z }
      going s (fun q => !q.bound && !s.lineWiping 0 0 0 && (s.regions.get? 0).any (fun r => r.cells.contains (0, 0) &&
        (match s.remoteOp q r 0 0 (.read 0x3F80 64) with | .ok _ _ => true | _ => false))) = true) ∧
    (let s := atHome (.me 7 0 0 (.read 0x3F80 64)); going s (fun q => !q.bound && !s.lineWiping 7 0 0 && s.regions.get? 7 == none) = true) := by decide +kernel
/-- Responses that land: nowhere, in a register, in a stream's entry, in a hart's register. -/
def landing (a : Agent) (ret : Ret) : State := { streamIn { desc := aDesc .read .global 1, outq := [.reserved 1] } with
  nextId := 2, harts := [((0, 0), hartOf 0 0)]
  reqs := [{ reqFor a (.mem 0 (.load 4)) (.performed 5 0) ret with region := if a = .hart 0 0 then none else some 0, back := true }] }
theorem test_responses_land : (∀ x ∈ [(Agent.ctx placedAt 0, Ret.none), (.ctx placedAt 0, .reg (.s 4)), (.stream placedAt 0, .stream 0),
      (.hart 0 0, .hartReg 10 4 true 4), (.hart 0 0, .hartF 3 4 4)], let s := landing x.1 x.2
      ((s.reqOf 1).any (fun q => q.back && !q.agent.isHost && s.landsIn q && s.regTurn q && !q.landed && !q.owed && q.ret == x.2) &&
        (s.spot placedAt).isSome && (s.cells.get {} placedAt).me.streams.get? 0 != none) = true) ∧
    ((landing (.hart 0 0) (.hartReg 10 4 true 4)).hart 0 0).Ok := ⟨by decide +kernel, hartOk_spec (by decide +kernel)⟩
/-- A log with one store: KICK, and DISCARD of its ASID. -/
def inLog : Req := { reqAt (.mem 0x60000 (.store [some 1])) with st := .logged }
theorem test_log_commands : (let s := { cellIn {} with nextId := 2, reqs := [inLog], slogs := [((0, 3), { entries := [1] })] }
      hasLog 0 3 = true ∧ (s.log (0, 3)).entries = [1] ∧ s.reqOf 1 = some inLog ∧
      (match s.resolve inLog 0x60000 (.store [some 1]) false with | .ok _ => true | _ => false) = true ∧ vaOwner 0x60000 ≠ 27) ∧
    (let v : DWord := 0x10001; v.getLsbD 0 = true ∧ v.getLsbD 1 = false) ∧
    (let v : DWord := 0x10002; v.getLsbD 1 = true ∧ v.getLsbD 0 = false) := by decide +kernel
theorem test_sweep_ends : let s := { quiet with lots := [(0, { sweeping := true, live := [1] })] }
    (s.lotsOf 0).sweeping = true ∧ 0 ∉ (s.lotsOf 0).live := by decide +kernel
/-- A copy of one line from 0x40000 to memory or to line 127 of the cell, from an address without a translation, and
under no ASID. -/
def copying (src dst : DWord) (asid : Option (BitVec 16)) (written : List Nat) : State :=
  { cellIn { me := scratch .z } with copies := [(tl0, { jobs := [{ job 1 with
      desc := { noDesc with src := src, dst := dst, len := 128, rows := 1 }, asid := asid, written := written }] })] }
def atLine (s : State) (P : CopyEnv → List SrcLine → Bool) : Bool :=
  match (s.copies.get {} tl0).jobs with
  | j :: _ => (s.copies.get {} tl0).poison == none && j.suspended == none && j.lost == none && s.copyOwes tl0 j == [] &&
      (let e : CopyEnv := { s := s, c := tl0, p := (s.partOf tl0.die).getD 31, j := j, cached := false }
       P e (e.operands 0))
  | [] => false
theorem test_copy_lines : atLine (copying 0x40000 0x50000 (some 1) []) (fun e o => (o.length == 1) && (o.all fun x => match x with
        | .val _ => true | _ => false) && decide (0 < e.j.lines) && !isRef e.j.desc.dst && !isRef e.j.desc.src && (e.j.parts == []) && e.s.mem.wf &&
      (match e.reach (e.j.vaAt e.j.desc.dst e.j.desc.dstride 0) .store with
        | .page l _ => !l.freshBit (vaOffset (e.j.vaAt e.j.desc.dst e.j.desc.dstride 0))
        | _ => false)) = true ∧
    atLine (copying 0x40000 0x800000000000007F (some 1) []) (fun e _ => isRef e.j.desc.dst && (e.j.parts == []) &&
      (match e.refLine e.j.desc.dst e.j.desc.dstride e.j.dstUid 0 with
        | .at_ id k (some a) => !(e.s.cells.get {} id).me.writeBad (some a) k false && (e.s.cells.get {} id).me.bankOk k
        | _ => false)) = true ∧
    atLine (copying 0x400000000 0x50000 (some 1) []) (fun e o => e.j.front == 0 && (match o.find? SrcLine.stops with
        | some (.miss _ _) => true | _ => false)) = true ∧
    atLine (copying 0x40000 0x50000 none []) (fun e o => e.j.front == 0 && (match o.find? SrcLine.stops with
        | some (.fail _ _) => true | _ => false)) = true ∧
    atLine (copying 0x40000 0x50000 none [0]) (fun e _ => decide (e.j.lines ≤ e.j.front)) = true := by decide +kernel
/-- Accesses of a hart: aligned and not, outside the map, to its own memory, to a control block, through the
aperture. -/
def aperture : State := { hartAt 0 0 0 with harts := [((0, 0), { hartOf 0 0 with xpseg := [(0, 0x8000000000000000)] })] }
theorem test_hart_places : (let s := hartAt 0 0 0
      ((s.hart 0 0).running && (s.hart 0 0).wait == none && !s.hartInFlight 0 0 && hartExists 0 0 &&
      (s.hart 0 0).place 0 0x1800000000 == .bad && (s.hart 0 0).place 0 0x60000 == .own 0x60000 && s.memoryReady 0 &&
      !s.eccAt 0 0x60000 8 && s.mem.wf && (s.hart 0 0).place 0 0x40000000000020 == .block 0 0x20) = true) ∧
    ((aperture.hart 0 0).place 0 0x80000000060000 == .aperture 0x60000 && (aperture.hart 0 0).asid == some 1 &&
    aperture.canonical 0 (aperture.hartPart 0 0) 0x60000 && (apertureOp 4 (.load 0x80000000060000 4 false 10)).isSome) = true := by
  decide +kernel
theorem test_hart_accesses : ([(0x60000 : DWord), 0x1800000000, 0x40000000000020].all fun a => [HartAcc.load a 8 false 10,
      .store a 8 1, .amo .add a 8 1 10, .lr a 8 10, .sc a 8 1 10, .load a 4 true 10].all fun acc =>
      HartAcc_ok acc && aligned (HartAcc_addr acc).toNat (HartAcc_size acc)) = true := by decide +kernel
theorem test_hart_misaligned : HartAcc_ok (.load 0x60001 4 true 10) = true ∧ aligned 0x60001 4 = false := by decide +kernel
theorem test_hart_reservation : let s := { hartAt 0 0 0 with harts := [((0, 0), { hartOf 0 0 with resv := some (homeKey 0 0x60000, 8) })] }
    (s.hart 0 0).resv = some (homeKey 0 0x60000, 8) ∧ ((hartAt 0 0 0).hart 0 0).resv = none := by decide +kernel
/-- Registers that only hold what is written, ones that are read-only, and an offset without a register. -/
theorem test_register_writes : (∀ r ∈ [RegName.mtrbase 0, .pasidtbl 0, .pdfq], regAt 0 r.off = some r ∨ regAt 24 r.off = some r) ∧
    (∀ r ∈ [RegName.defmapst, .lotst], regAt 0 r.off = some r) ∧ regAt 0 1 = none ∧
    (∀ p < 5, quiet.regField 0 (.seamst p) 6 6 = 0) ∧ 1 ≤ ((hartAt 0 0 0).hart 0 0).priv.code := by decide +kernel

/-! Further clauses: links in training, patches and power, the order of a shared range, rates, words of the base set. -/

theorem test_links_in_training : let s := { federation with
      regs := ([LinkId.seam 45, .edge false 0].flatMap linkPorts).map (fun (p : Nat × Nat) => ((p.1, (RegName.seamst p.2).off), 1#64)) ++ federation.regs }
    (∀ l ∈ [LinkId.seam 45, .edge false 0], ∀ p ∈ linkPorts l, s.portState p = stTraining) ∧
      s.edgeWanted (.edge false 0) = true ∧ s.edgeWanted (.seam 45) = true := by decide +kernel
theorem test_power_states : (quiet.power.patches.get {} (0, 0)).powerGated = false ∧ quiet.regions = [] ∧
    quiet.power.state = .active ∧ quiet.power.exiting = none := by decide +kernel
theorem test_outgoing_waits : (∀ y ∈ xDies, (outgoing.xdie y).flush 1 = none) ∧ (outgoing.reqOf 1).all (fun q => !q.landed) = true := by
  decide +kernel
theorem test_shared_order : let q : SharedReq := { req := 1, port := 0, addr := 0, pasid := 0 }
    let s := sharing (.store [some 1]) id
    s.reqReads 1 = false ∧ s.writeBefore (s.xdie 24).shared q = false ∧ (s.xdie 24).shared.isGranted 0 = false ∧
      (s.xdie 24).shared.copies.length < maxCopies ∧
      (let s := sharing (.store [some 1]) fun a => { a with heldWrites := a.queue, queue := [] }
       (s.xdie 24).shared.isGranted 0 = false ∧ ((s.xdie 24).shared.heldWrites.find? fun q => lineOfAddr q.addr == 0).isSome = true) := by
  decide +kernel
theorem test_tenant_rates : ((tenants 1).tenant 24 5).rate ≠ 0 ∧
    ({ (tenants 1).tenant 24 5 with words := [(0, 0x8000), (1, 0x300000100), (3, 0x10000)] } : Tenant).rate = 0 := by decide +kernel
theorem test_unanswered : (closing.reqOf 1).any (fun q => q.unanswered && q.agent == .hart 0 0) = true := by decide +kernel
theorem test_deadline_charges : ({ switching 0 id .running with
    regs := ((0, (RegName.vdcfg 0).off), 0x101000001#64) :: quiet.regs } : State).weight 0 0 = 1 := by decide +kernel
theorem test_retire_running : (launch0 .running).choosable = false := by decide +kernel
/-- A region whose cells lie on both sides of seam 1, with a route from one to the other. -/
theorem test_route_across : let c : Cell := { sw := { routes := [{ net := .vec, src := .out 0, outs := [.dir .e], entry := false, exits := [] }] } }
    ({ placedRegion with cols := [95, 96], width := 2, inits := [(0, 0, c)] } : Region).routeAcross 1 = some (0, 0, 0) := by decide +kernel

/-! Words of the base set (R376): `addi x10, x11, 5`, `c.addi x11, 1`, a word that no set has. -/

def baseGives (w : Nat) (P : State → Bool) : Bool :=
  let s := { hartAt 0 7 (BitVec.ofNat 64 (2 ^ 64 - 2)) with agenda := [] }
  (s.baseJob 0 0 (BitVec.ofNat 32 w)).any fun a => P (a.run s)
theorem test_base_addi : baseGives 0x00558513 (fun t => (t.hart 0 0).readX 10 == 12 && (t.hart 0 0).pc == 4) = true := by decide +kernel
theorem test_base_compressed : baseGives 0x00000585 (fun t => (t.hart 0 0).readX 11 == 8 && (t.hart 0 0).pc == 2) = true := by decide +kernel
/-- `mulh x10, x11, x12` of 7 and -2; `sraw x10, x12, x11`; `bne x11, x12, +8`; `lui x10, 0x80000`. -/
theorem test_base_mulh : baseGives 0x02C59533 (fun t => (t.hart 0 0).readX 10 == 0xFFFFFFFFFFFFFFFF) = true := by decide +kernel
theorem test_base_sraw : baseGives 0x40B6553B (fun t => (t.hart 0 0).readX 10 == 0xFFFFFFFFFFFFFFFF) = true := by decide +kernel
theorem test_base_bne : baseGives 0x00C59463 (fun t => (t.hart 0 0).pc == 8) = true := by decide +kernel
theorem test_base_lui : baseGives 0x80000537 (fun t => (t.hart 0 0).readX 10 == 0xFFFFFFFF80000000) = true := by decide +kernel
theorem test_base_illegal : baseGives 0x00000000 (fun t => (t.hart 0 0).pc != 4 && (t.hart 0 0).pc != 2) = true := by decide +kernel
/-- Words of F and D on a system core: expected results worked out by hand from IEEE 754. `fs` is mstatus.FS. -/
def floatGives (w fs : Nat) (f : Store Nat DWord) (P : Hart → Bool) : Bool :=
  let s : State := { State.reset with harts := [((24, 0), { running := true, f := f, csr := { mstatus := BitVec.ofNat 64 (fs * 2 ^ 13) } })] }
  (s.baseJob 24 0 (BitVec.ofNat 32 w)).any fun a => P ((a.run s).hart 24 0)
/-- 1 + 2^-24 rounds to 1 and is inexact; the register is boxed and FS Dirty. -/
theorem test_float_add : floatGives 0x0020F1D3 1 [(1, 0xFFFFFFFF3F800000), (2, 0xFFFFFFFF33800000)] (fun h =>
    h.f.get 0 3 == 0xFFFFFFFF3F800000 && h.fcsr == 1 && h.pc == 4 && h.mstatus.getLsbD 63) = true := by decide +kernel
/-- 1 / 3 in double; 1 / 0 is infinite with DZ. -/
theorem test_float_div : floatGives 0x1A2081D3 1 [(1, 0x3FF0000000000000), (2, 0x4008000000000000)] (fun h =>
      h.f.get 0 3 == 0x3FD5555555555555 && h.fcsr == 1) = true ∧
    floatGives 0x1A2081D3 1 [(1, 0x3FF0000000000000)] (fun h => h.f.get 0 3 == 0x7FF0000000000000 && h.fcsr == 8) = true := by
  decide +kernel
/-- A NaN converts to the largest integer and is invalid; a single that is not boxed is a NaN. -/
theorem test_float_to_int : floatGives 0xC0009553 1 [(1, 0x3F800000)] (fun h => h.readX 10 == 0x7FFFFFFF && h.fcsr == 16) = true := by
  decide +kernel
/-- fmadd.d of 2, 3 and 1 is 7; with FS off, and on a tailor core, an F word is illegal. -/
theorem test_float_fma : floatGives 0x222081C3 1 [(1, 0x4000000000000000), (2, 0x4008000000000000), (4, 0x3FF0000000000000)]
      (fun h => h.f.get 0 3 == 0x401C000000000000 && h.fcsr == 0) = true ∧
    floatGives 0x0020F1D3 0 [] (fun h => h.csr.mcause == 2) = true ∧
    (let s : State := { State.reset with harts := [((0, 0), { running := true, csr := { mstatus := 0x2000 } })] }
     (s.baseJob 0 0 (BitVec.ofNat 32 0x0020F1D3)).any fun a => ((a.run s).hart 0 0).csr.mcause == 2) = true := by
  decide +kernel
/-- A turn of hart 0 with `addi` at its pc. -/
theorem test_base_turn : let s := State.reset.withFetchWord 32 0x00558513
    s.fetchWord 0 0 = some 0x00558513#32 ∧ (match decodeHart 0x00558513 with | .error _ => true | .ok _ => false) = true ∧
      (s.baseJob 0 0 0x00558513).isSome = true ∧ s.memoryReady 0 = true := by decide +kernel

/-! A launch whose region loads the image that passes. -/

def loading : State :=
  withLaunch { launch0 .placing with foreign := some image.bytes } (regionIn .allocated (fun r => { r with launch := some 0 }) quiet)
theorem test_placing_loads : (loading.launches.get? 0).any (fun l => l.st == .placing && (l.insts.all fun i => i.retired || i.handle.isSome) &&
      loading.launchWant l == { width := 1, height := 1, arith := 1, id := some 0, dies := 1 }) = true ∧
    (∀ l, l.foreign = some image.bytes → loading.launchImage l = .ok image) ∧
    image.check { width := 1, height := 1, arith := 1, id := some 0, dies := 1 } = none ∧
    (∀ va r, loading.blockedRoute (loadedWith image va r) = none) ∧
    (let cold := (loading.regionsOf 0).filter fun e => e.2.state == .allocated && (loading.saves.get? (0, e.2.inst)).isNone
     let s1 := (Act.each cold fun e => .onRegion e.1 (loadedWith image 0)).run loading
     cold ≠ [] ∧ ((s1.regionsOf 0).flatMap fun e => s1.asleepIn e.2.rect) = [] ∧ s1.lotsReady (s1.placedWants 0) = true) := by
  refine ⟨by decide +kernel, fun l h => by rw [State.launchImage, h], image_check _ ⟨rfl, rfl, rfl, rfl⟩ (.inr rfl),
    fun va r => image_unblocked _ _ _, ?_⟩
  decide +kernel

end Sys2Proof.Tests
end

section
/-!
The invariant of the module (R4, R200, R378): `State.reset` meets it, and every step keeps it. A step comes to its next
state by effects alone (`step_next_reaches`), and every effect keeps the invariant (`State.apply_inv`).
-/
namespace Sys2Proof.Machine

/-- The empty memory is canonical, and an empty store has no entry that could break a rule. -/
theorem State.inv_of_empty {s : State} (hmem : s.mem = []) (hregs : s.regs = []) (hlots : s.lots = [])
    (hharts : s.harts = []) : s.Inv where
  mem := by rw [hmem]; rfl
  regs := by simp [State.regsOk, hregs]
  lots := by simp [State.lotsOk, hlots]
  harts := by simp [State.hartsOk, hharts]

/-- Settles O1: at reset memory, registers, lots and harts are all empty stores. -/
theorem resetInv : Obligations.ResetInv := State.inv_of_empty rfl rfl rfl rfl

/-- Settles O2, by induction on the effects that the step consists of. -/
theorem stepKeepsInv : Obligations.StepKeepsInv := by
  intro s t hinv hstep
  have heffects : Reaches s t := step_next_reaches hstep
  exact heffects.inv hinv

end Sys2Proof.Machine
end

section
/-!
SUPPORT. Registers after a write, and their fields; the ports of links and their states (R4, R15, R21).
-/
namespace Sys2Proof.Machine

/-! ### Registers and fields -/

theorem State.reg_of_regs {s t : State} (h : t.regs = s.regs) (d : Nat) (r : RegName) : t.reg d r = s.reg d r := by
  rw [State.reg, State.reg, h]

theorem State.reg_apply_same (s : State) {d : Nat} {r : RegName} (v : DWord) (h : regAt d r.off = some r) :
    (s.apply (.reg d r v)).reg d r = v &&& r.stored := by
  simp [State.reg, regMask, h]

theorem State.reg_apply_ne (s : State) {d d' : Nat} {r r' : RegName} (v : DWord) (h : d' = d → r'.off ≠ r.off) :
    (s.apply (.reg d r v)).reg d' r' = s.reg d' r' := by
  have hne : (d', r'.off) ≠ (d, r.off) := fun e => h (Prod.mk.inj e).1 (Prod.mk.inj e).2
  rw [State.reg, State.reg, State.apply_reg, Store.get_put_ne _ _ _ hne]

theorem State.regField_congr {s t : State} {d : Nat} {r : RegName} (h : t.reg d r = s.reg d r) (hi lo : Nat) :
    t.regField d r hi lo = s.regField d r hi lo := by
  rw [State.regField, State.regField, h]

/-- Bits [hi:lo] of a register value. -/
def fieldOf (v : DWord) (hi lo : Nat) : Nat := (v.extractLsb' lo (hi + 1 - lo)).toNat

theorem State.regField_eq (s : State) (d : Nat) (r : RegName) (hi lo : Nat) :
    s.regField d r hi lo = fieldOf (s.reg d r) hi lo := by
  rw [State.regField, fieldOf, BitVec.extractLsb'_toNat, Nat.shiftRight_eq_div_pow]

/-- A mask that holds a whole field leaves it alone. -/
theorem fieldOf_and (v m : DWord) {hi lo : Nat} (hm : m.extractLsb' lo (hi + 1 - lo) = BitVec.allOnes _) :
    fieldOf (v &&& m) hi lo = fieldOf v hi lo := by
  rw [fieldOf, BitVec.extractLsb'_and, hm, BitVec.and_allOnes, fieldOf]

theorem fieldOf_withField_same (v : DWord) {hi lo : Nat} (x : Nat) (h : lo ≤ hi) (hh : hi < 64) :
    fieldOf (withField v hi lo x) hi lo = x % 2 ^ (hi + 1 - lo) := by
  have key := setBits_extract v lo (hi + 1 - lo) x 0 (hi + 1 - lo) (by omega) (by omega)
  simp only [Nat.add_zero, Nat.pow_zero, Nat.div_one] at key
  rw [fieldOf, withField, key, BitVec.toNat_ofNat]

theorem fieldOf_withField_other (v : DWord) {hi lo hi' lo' : Nat} (x : Nat) (h : hi' < lo ∨ hi < lo') (hl : lo ≤ hi)
    (hl' : lo' ≤ hi') (hh : hi' < 64) : fieldOf (withField v hi lo x) hi' lo' = fieldOf v hi' lo' := by
  rw [fieldOf, withField, setBits_extract_outside v lo _ x lo' _ (by omega) (by omega), fieldOf]

/-! ### Ports and their registers (R15, R21) -/

theorem seamst_stored (p : Nat) : (RegName.seamst p).stored = 0x00FF_FFFF_FFFF_0047 := by
  show bitsMask 55 16 ||| bitsMask 6 6 ||| bitsMask 2 0 = _
  decide

theorem regAt_seamst {d p : Nat} (h : portExists d p = true) : regAt d (RegName.seamst p).off = some (.seamst p) := by
  simp only [portExists, Bool.or_eq_true, Bool.and_eq_true, decide_eq_true_eq] at h
  rcases h with ⟨hd, hp⟩ | ⟨hd, hp⟩
  · rw [regAt, if_pos hd]
    interval_cases p <;> rfl
  · have hc : ¬ isC d = true := by
      simp only [isX, Bool.or_eq_true, beq_iff_eq] at hd
      simp only [isC, decide_eq_true_eq]; omega
    rw [regAt, if_neg hc, if_pos hd]
    interval_cases p <;> rfl

theorem seamSides_exist : ∀ n < 46, portExists (seamSides n).1.1 (seamSides n).1.2 = true ∧
    portExists (seamSides n).2.1 (seamSides n).2.2 = true := by decide

theorem linkPorts_exist {l : LinkId} (hl : linkExists l) {p : DiePort} (hp : p ∈ linkPorts l) :
    portExists p.1 p.2 = true := by
  cases l with
  | seam n =>
    obtain ⟨h1, h2⟩ := seamSides_exist n hl
    rcases List.mem_cons.mp hp with rfl | hp
    · exact h1
    · rcases List.mem_singleton.mp hp with rfl
      exact h2
  | edge north cx =>
    rcases List.mem_singleton.mp hp with rfl
    have hcx : cx < 6 := hl
    cases north <;> simp [portExists, isC] <;> omega

theorem seamSides_port_lt (n : Nat) : (seamSides n).1.2 < 5 ∧ (seamSides n).2.2 < 5 := by
  unfold seamSides
  split
  · dsimp only
    constructor <;> split <;> simp only [] <;> omega
  · exact ⟨show 2 < 5 by decide, show 0 < 5 by decide⟩

theorem linkPorts_lt {l : LinkId} {p : DiePort} (hp : p ∈ linkPorts l) : p.2 < 5 := by
  cases l with
  | seam n =>
    obtain ⟨h1, h2⟩ := seamSides_port_lt n
    rcases List.mem_cons.mp hp with rfl | hp
    · exact h1
    · rcases List.mem_singleton.mp hp with rfl
      exact h2
  | edge north cx =>
    rcases List.mem_singleton.mp hp with rfl
    show 4 < 5
    decide

theorem lanePort_mem (l : LaneId) : lanePort l ∈ linkPorts l.link := by
  unfold lanePort linkPorts
  cases l.link with
  | seam n => cases l.up <;> simp
  | edge north cx => simp

/-- A field of SEAMST after a write of the register: that of the value written. -/
theorem State.regField_seamst_same (s : State) {d p : Nat} (v : DWord) (h : portExists d p = true) {hi lo : Nat}
    (hm : (0x00FF_FFFF_FFFF_0047 : DWord).extractLsb' lo (hi + 1 - lo) = BitVec.allOnes _) :
    (s.apply (.reg d (.seamst p) v)).regField d (.seamst p) hi lo = fieldOf v hi lo := by
  rw [State.regField_eq, State.reg_apply_same _ _ (regAt_seamst h), seamst_stored, fieldOf_and _ _ hm]

theorem State.regField_seamst_ne (s : State) {p q : DiePort} (v : DWord) (h : q ≠ p) (hi lo : Nat) :
    (s.apply (.reg p.1 (.seamst p.2) v)).regField q.1 (.seamst q.2) hi lo = s.regField q.1 (.seamst q.2) hi lo := by
  refine State.regField_congr (State.reg_apply_ne _ _ fun hd ho => h (Prod.ext hd ?_)) hi lo
  have : 0x0400 + 8 * q.2 = 0x0400 + 8 * p.2 := ho
  omega

theorem State.portState_of_regs {s t : State} (h : t.regs = s.regs) (p : DiePort) : t.portState p = s.portState p :=
  State.regField_congr (State.reg_of_regs h _ _) 2 0

/-! ### A port's state written -/

/-- What `Act.setPort` writes. -/
def portWord (v : DWord) (st : Nat) : DWord :=
  if st = stFailed then withField (withField v 2 0 st) 6 6 1 else withField v 2 0 st

theorem Act.run_setPort (s : State) (p : DiePort) (st : Nat) :
    (Act.setPort p st).run s = s.apply (.reg p.1 (.seamst p.2) (portWord (s.reg p.1 (.seamst p.2)) st)) := rfl

theorem fieldOf_portWord (v : DWord) {st : Nat} (h : st < 8) : fieldOf (portWord v st) 2 0 = st := by
  have hs : fieldOf (withField v 2 0 st) 2 0 = st := by
    rw [fieldOf_withField_same _ _ (by omega) (by omega)]
    omega
  unfold portWord
  split
  · rw [fieldOf_withField_other _ _ (by omega) (by omega) (by omega) (by omega), hs]
  · exact hs

theorem State.portState_setPort (s : State) {p : DiePort} (hp : portExists p.1 p.2 = true) {st : Nat} (h : st < 8)
    (q : DiePort) : ((Act.setPort p st).run s).portState q = if q = p then st else s.portState q := by
  rw [Act.run_setPort]
  by_cases hq : q = p
  · subst hq
    rw [if_pos rfl, State.portState, State.regField_seamst_same _ _ hp (by decide), fieldOf_portWord _ h]
  · rw [if_neg hq, State.portState, State.regField_seamst_ne _ _ hq, State.portState]

/-- The ports of a list that meet a condition take a state; every other port keeps its own. -/
theorem State.portState_setPorts {st : Nat} (h : st < 8) (c : DiePort → Bool) (q : DiePort) (ps : List DiePort) :
    ∀ s : State, (∀ p ∈ ps, portExists p.1 p.2 = true) →
      ((Act.each ps fun p => .when (c p) (.setPort p st)).run s).portState q =
        if q ∈ ps ∧ c q = true then st else s.portState q := by
  induction ps with
  | nil => intro s _; simp
  | cons p r ih =>
    intro s hp
    rw [Act.run_each_cons, ih _ fun p hm => hp p (List.mem_cons_of_mem _ hm), Act.run_when]
    by_cases hr : q ∈ r ∧ c q = true
    · rw [if_pos hr, if_pos ⟨List.mem_cons_of_mem _ hr.1, hr.2⟩]
    · rw [if_neg hr]
      by_cases hq : q = p
      · subst hq
        by_cases hc : c q = true
        · rw [if_pos hc, State.portState_setPort _ (hp q List.mem_cons_self) h, if_pos rfl,
            if_pos ⟨List.mem_cons_self, hc⟩]
        · rw [if_neg hc, if_neg fun x => hc x.2]
      · rw [if_neg (c := q ∈ p :: r ∧ c q = true) fun x => hr ⟨(List.mem_cons.mp x.1).resolve_left hq, x.2⟩]
        split
        · rw [State.portState_setPort _ (hp p List.mem_cons_self) h, if_neg hq]
        · rfl

end Sys2Proof.Machine
end

section
/-!
SUPPORT. What the answer to a request and the freeze of its region leave alone: the tables of links and the status of
their ports (R20, R119). Each act of these is made of effects that lie off the links.
-/
namespace Sys2Proof.Machine

/-- The effect changes no link, and no register at or below the last SEAMST. -/
def Effect.offLinks : Effect → Bool
  | .reg _ r _ => decide (0x428 ≤ r.off)
  | .regsClear _ _ | .link _ _ => false
  | _ => true

theorem State.apply_offLinks_links (s : State) {e : Effect} (h : e.offLinks = true) : (s.apply e).links = s.links := by
  cases e
  case link => cases h
  all_goals simp

theorem State.apply_offLinks_portState (s : State) {e : Effect} (h : e.offLinks = true) {p : DiePort} (hp : p.2 < 5) :
    (s.apply e).portState p = s.portState p := by
  cases e
  case reg d r v =>
    have hr : 0x428 ≤ r.off := of_decide_eq_true h
    refine State.regField_congr (State.reg_apply_ne s v fun _ ho => ?_) 2 0
    have : 0x0400 + 8 * p.2 = r.off := ho
    omega
  case regsClear => cases h
  all_goals exact State.portState_of_regs (by simp) p

/-! ### Memory that the device writes for itself (R45, R194) -/

theorem Act.eccClear_offLinks (home pa n : Nat) : (Act.eccClear home pa n).Only Effect.offLinks :=
  .read fun _ => .when fun _ => .emit rfl

theorem Act.storeBytes_offLinks (k : Nat) (l : List (Option Byte)) : (Act.storeBytes k l).Only Effect.offLinks :=
  .storeBytes (fun _ _ => rfl) l k

theorem Act.unfresh_offLinks (die owner home : Nat) (l : Leaf) (off pa : Nat) :
    (Act.unfresh die owner home l off pa).Only Effect.offLinks := .read fun _ => by
  split
  · exact .skip
  · exact .block_cons (.emit rfl) <| .block_cons (eccClear_offLinks _ _ _) <| .block_cons (storeBytes_offLinks _ _) <|
      .block_cons (.emit rfl) .block_nil

theorem Act.storeAt_offLinks (die : Nat) (va : DWord) (l : Leaf) (pa : Nat) (bytes : List (Option Byte)) :
    (Act.storeAt die va l pa bytes).Only Effect.offLinks :=
  .block_cons (unfresh_offLinks _ _ _ _ _ _) <| .block_cons (eccClear_offLinks _ _ _) <|
    .block_cons (storeBytes_offLinks _ _) .block_nil

theorem Act.onXDie_offLinks (x : Nat) (f : XDie → XDie) : (Act.onXDie x f).Only Effect.offLinks :=
  .read fun _ => .emit rfl
theorem Act.onReq_offLinks (id : Nat) (f : Req → Req) : (Act.onReq id f).Only Effect.offLinks :=
  .read fun _ => .emit rfl
theorem Act.onNode_offLinks (c : CellId) (f : Node → Node) : (Act.onNode c f).Only Effect.offLinks :=
  .read fun _ => .emit rfl
theorem Act.onHart_offLinks (d n : Nat) (f : Hart → Hart) : (Act.onHart d n f).Only Effect.offLinks :=
  .read fun _ => .emit rfl
theorem Act.onLane_offLinks (l : LaneId) (f : Lane → Lane) : (Act.onLane l f).Only Effect.offLinks :=
  .read fun _ => .emit rfl
theorem Act.onDispatcher_offLinks (d : Nat) (f : Dispatcher → Dispatcher) : (Act.onDispatcher d f).Only Effect.offLinks :=
  .read fun _ => .emit rfl
theorem Act.onLaunch_offLinks (n : Nat) (f : Launch → Launch) : (Act.onLaunch n f).Only Effect.offLinks :=
  .onLaunch fun _ => rfl
theorem Act.onRegion_offLinks (h : Word) (f : Region → Region) : (Act.onRegion h f).Only Effect.offLinks :=
  .onRegion fun _ => rfl

theorem Act.zeroRead_offLinks (x port : Nat) : (Act.zeroRead x port).Only Effect.offLinks :=
  .read fun _ => .when fun _ => .fresh (fun _ => rfl) fun _ => .seq (onXDie_offLinks _ _) (.emit rfl)

theorem Act.hostSend_offLinks (id x port : Nat) (pasid : BitVec 20) (pa n : Nat) (posted sys : Bool) :
    (Act.hostSend id x port pasid pa n posted sys).Only Effect.offLinks := .read fun _ => by
  split
  · exact onXDie_offLinks _ _
  · exact .block_cons (onXDie_offLinks _ _) <| .block_cons (.each fun _ _ => .emit rfl) <|
      .block_cons (.when fun _ => zeroRead_offLinks _ _) .block_nil

theorem Act.hostWrite_offLinks (a : Agent) (p : Nat) (asid : Option (BitVec 16)) (va : DWord) (l : Leaf) (pa : Nat)
    (bytes : List Byte) {k : Nat → Act} (hk : ∀ id, (k id).Only Effect.offLinks) :
    (Act.hostWrite a p asid va l pa bytes k).Only Effect.offLinks :=
  .fresh (fun _ => rfl) fun id => .read fun _ => by
    split
    · exact .skip
    · exact .block_cons (.emit rfl) <| .block_cons (hostSend_offLinks _ _ _ _ _ _ _ _) <| .block_cons (hk id) .block_nil

theorem Act.storeVa_offLinks (d p : Nat) (asid : Option (BitVec 16)) (va : DWord) (bytes : List Byte) :
    (Act.storeVa d p asid va bytes).Only Effect.offLinks := .read fun _ => by
  split
  · exact .skip
  · split
    · exact .skip
    · split
      · exact .each fun _ _ => hostWrite_offLinks _ _ _ _ _ _ _ fun _ => .skip
      · exact storeAt_offLinks _ _ _ _ _

/-! ### Fault records (R143) -/

/-- What the queue does with a record that it was offered. -/
def Offer.act : Offer → Act
  | .bad => .skip
  | .full a => a
  | .taken a => a

theorem State.offer_offLinks (s : State) (p : Nat) (asid : Option (BitVec 16)) (desc : DWord) (bytes : List Byte) :
    (s.offer p asid desc bytes).act.Only Effect.offLinks := by
  unfold State.offer
  split
  · exact .skip
  · dsimp only
    split
    · exact .skip
    · split
      · exact Act.storeVa_offLinks _ _ _ _ _
      · split
        · exact .block_cons (Act.storeVa_offLinks _ _ _ _ _) <| .block_cons (Act.storeVa_offLinks _ _ _ _ _) .block_nil
        · exact .skip

theorem State.defaultOffer_offLinks (s : State) (p : Nat) (bytes : List Byte) :
    (s.defaultOffer p bytes).1.Only Effect.offLinks := by
  unfold State.defaultOffer
  split
  · exact .skip
  · rename_i lead _
    have hdrop : (Act.countReg lead .pdfqst 31 0).Only Effect.offLinks := .read fun _ => .emit rfl
    have hoff := s.offer_offLinks p defaultAsid (s.reg lead .pdfq &&& bitsMask 63 6) bytes
    dsimp only
    split
    · exact hdrop
    · split
      · exact hdrop
      · rename_i h; rw [h] at hoff; exact hoff
      · rename_i h; rw [h] at hoff; exact hoff

theorem State.launchOffer_offLinks (s : State) (p : Nat) (l : Option Launch) (bytes : List Byte) :
    (s.launchOffer p l bytes).1.Only Effect.offLinks := by
  unfold State.launchOffer
  split
  · exact s.defaultOffer_offLinks p bytes
  · rename_i x
    have hoff := s.offer_offLinks p (s.vdAsid p x.vd) (BitVec.ofNat 64 (recNat x.copy 0x020 8)) bytes
    dsimp only
    split
    · exact s.defaultOffer_offLinks p bytes
    · split
      · exact s.defaultOffer_offLinks p bytes
      · rename_i h; rw [h] at hoff; exact .seq hoff (.read fun u => u.defaultOffer_offLinks p bytes)
      · rename_i h; rw [h] at hoff; exact hoff

theorem Act.launchRecord_offLinks (p : Nat) (n : Option Nat) (code : Nat) (bytes : List Byte) :
    (Act.launchRecord p n code bytes).Only Effect.offLinks :=
  .read fun s => .seq (s.launchOffer_offLinks _ _ _) (by
    split
    · exact .skip
    · exact onLaunch_offLinks _ _)

theorem Act.deadlineRecords_offLinks (n : Nat) (l : Launch) : (Act.deadlineRecords n l).Only Effect.offLinks :=
  .read fun _ => .seq (launchRecord_offLinks _ _ _ _) (.read fun s => s.defaultOffer_offLinks _ _)

/-! ### The launch of a frozen region (R102, R117, R119) -/

theorem vdst_offLinks (d vd : Nat) (v : DWord) : (Effect.reg d (.vdst vd) v).offLinks = true := by
  have : 0x428 ≤ 0x4008 + 16 * vd := by omega
  exact decide_eq_true this

theorem Act.showMisses_offLinks (p vd : Nat) : (Act.showMisses p vd).Only Effect.offLinks := .read fun _ => by
  dsimp only
  split
  · exact .read fun _ => .emit (vdst_offLinks _ _ _)
  · exact .skip

theorem Act.missSwitch_offLinks (n : Nat) (l : Launch) (w : Switch) : (Act.missSwitch n l w).Only Effect.offLinks :=
  .read fun _ => .block_cons (.when fun _ => onDispatcher_offLinks _ _) <| .block_cons (onLaunch_offLinks _ _) <|
    .block_cons (showMisses_offLinks _ _) <| .block_cons (.when fun _ => deadlineRecords_offLinks _ _) .block_nil

theorem Act.seamAbort_offLinks (n : Option Nat) : (Act.seamAbort n).Only Effect.offLinks := by
  cases n with
  | none => exact .skip
  | some k =>
    refine .read fun _ => ?_
    split
    · split
      · exact .when fun _ => missSwitch_offLinks _ _ _
      · exact .skip
    · exact .skip

theorem Act.closeSlice_offLinks (n : Nat) : (Act.closeSlice n).Only Effect.offLinks :=
  .read fun _ => .when fun _ => .read fun _ => by
    split
    · exact .skip
    · exact .when fun _ => onDispatcher_offLinks _ _

theorem Act.seamAffects_offLinks (n : Option Nat) : (Act.seamAffects n).Only Effect.offLinks := by
  cases n with
  | none => exact .skip
  | some k =>
    exact .block_cons (seamAbort_offLinks _) <| .block_cons (closeSlice_offLinks _) <|
      .block_cons (.read fun _ => onLaunch_offLinks _ _) .block_nil

theorem Act.seamFreeze_offLinks (h : Word) (cell : CellId) (f : FaultRec) (held : Bool) :
    (Act.seamFreeze h cell f held).Only Effect.offLinks := .read fun _ => by
  split
  · exact .skip
  · exact .block_cons (.read fun _ => onRegion_offLinks _ _) <| .block_cons (.when fun _ => onRegion_offLinks _ _) <|
      .block_cons (seamAffects_offLinks _) .block_nil

/-! ### The answer at the issuer (R42, R53, R353) -/

theorem Act.send_offLinks (src : CellId) (p vc id : Nat) (g : Goal) : (Act.send src p vc id g).Only Effect.offLinks :=
  .read fun _ => onNode_offLinks _ _

theorem Agent.told_offLinks (a : Agent) (tag st : Nat) : (a.told tag st).Only Effect.offLinks := by
  unfold Agent.told
  split
  · exact .emit rfl
  · exact .emit rfl
  · exact .emit rfl
  · exact .skip

theorem Act.onFn_offLinks (x f : Nat) (g : Fn → Fn) : (Act.onFn x f g).Only Effect.offLinks := onXDie_offLinks _ _
theorem Act.removePart_offLinks (x id : Nat) : (Act.removePart x id).Only Effect.offLinks := onXDie_offLinks _ _
theorem Act.dropReq_offLinks (id : Nat) : (Act.dropReq id).Only Effect.offLinks := .read fun _ => .emit rfl

theorem Act.releaseOne_offLinks (x id : Nat) : (Act.releaseOne x id).Only Effect.offLinks := .read fun _ => by
  split
  · exact .skip
  · split
    · exact .skip
    · split
      · refine .seq ?_ (removePart_offLinks _ _)
        split
        · exact onFn_offLinks _ _ _
        · exact .emit rfl
      · exact .seq (Agent.told_offLinks _ _ _) (removePart_offLinks _ _)
      · exact .block_cons (onXDie_offLinks _ _) <| .block_cons (.emit rfl) <|
          .block_cons (send_offLinks _ _ _ _ _) .block_nil
      · exact .skip

theorem Act.dropPart_offLinks (x id : Nat) : (Act.dropPart x id).Only Effect.offLinks :=
  .seq (removePart_offLinks _ _) (.read fun _ => .each fun _ _ => releaseOne_offLinks _ _)

theorem Act.arriveBack_offLinks (q : Req) (bytes : List Byte) (code : Nat) :
    (Act.arriveBack q bytes code).Only Effect.offLinks := by
  unfold Act.arriveBack
  dsimp only
  split
  · split
    · exact .block_cons (.emit rfl) <| .block_cons (dropReq_offLinks _) <| .block_cons (dropPart_offLinks _ _) .block_nil
    · exact .seq (onReq_offLinks _ _) (.when fun _ => onFn_offLinks _ _ _)
  · exact .block_cons (.emit rfl) <| .block_cons (dropReq_offLinks _) <| .block_cons (removePart_offLinks _ _) .block_nil
  · refine .seq (.emit rfl) ?_
    split
    · exact .seq (dropReq_offLinks _) (dropPart_offLinks _ _)
    · exact onReq_offLinks _ _
  · exact .seq (.emit rfl) (dropReq_offLinks _)
  · exact onReq_offLinks _ _

end Sys2Proof.Machine
end

section
/-!
A link that is declared failed is down (R19, R20): its ports say so, no request is left in its table, and the answers to
the requests that it held change neither.
-/
namespace Sys2Proof.Machine

/-! ### Acts that keep a link down -/

/-- The act leads from states with a property to states with it. -/
def Act.Keeps (P : State → Prop) (a : Act) : Prop := ∀ s, P s → P (a.run s)

section
variable {P : State → Prop}

theorem Act.Keeps.skip : Act.skip.Keeps P := fun _ h => h
theorem Act.Keeps.seq {a b : Act} (ha : a.Keeps P) (hb : b.Keeps P) : (a.seq b).Keeps P := fun _ h => hb _ (ha _ h)
theorem Act.Keeps.read {f : State → Act} (h : ∀ s, (f s).Keeps P) : (Act.read f).Keeps P := fun s => h s s
theorem Act.Keeps.when {c : Bool} {a : Act} (h : a.Keeps P) : (Act.when c a).Keeps P := by
  cases c
  · exact .skip
  · exact h
theorem Act.Keeps.block_nil : (Act.block []).Keeps P := fun _ h => h
theorem Act.Keeps.block_cons {a : Act} {r : List Act} (ha : a.Keeps P) (hr : (Act.block r).Keeps P) :
    (Act.block (a :: r)).Keeps P := .seq ha hr
theorem Act.Keeps.after_head {a : Act} {r : List Act} {s : State} (h : P (a.run s)) (hr : (Act.block r).Keeps P) :
    P ((Act.block (a :: r)).run s) := hr _ h
theorem Act.Keeps.each {α : Type} {l : List α} {f : α → Act} (h : ∀ x, (f x).Keeps P) : (Act.each l f).Keeps P := by
  induction l with
  | nil => exact .skip
  | cons x r ih => exact .seq (h x) ih

end

theorem Act.Only.portState {a : Act} (h : a.Only Effect.offLinks) (s : State) {p : DiePort} (hp : p.2 < 5) :
    (a.run s).portState p = s.portState p :=
  h.keeps (f := fun u => u.portState p) (fun u _ he => u.apply_offLinks_portState he hp) s

theorem Act.Only.links {a : Act} (h : a.Only Effect.offLinks) (s : State) : (a.run s).links = s.links :=
  h.keeps (f := State.links) (fun u _ he => u.apply_offLinks_links he) s

section
variable {l : LinkId} {n : Nat}

theorem Act.Only.keepsDown {a : Act} (h : a.Only Effect.offLinks) : a.Keeps fun t => LinkDown t l n := fun s hd =>
  ⟨fun p hp => by rw [h.portState s (linkPorts_lt hp)]; exact hd.ports p hp, by rw [h.links]; exact hd.failed,
    by rw [h.links]; exact hd.table⟩

theorem Act.untrack_keepsDown (id : Nat) : (Act.untrack id).Keeps fun t => LinkDown t l n :=
  .read fun _ => .each fun e s hd => by
    rw [Act.run_onLink]
    refine ⟨fun p hp => ?_, ?_, ?_⟩
    · rw [State.portState_of_regs (s := s) (by simp)]
      exact hd.ports p hp
    · by_cases he : l = e.1
      · subst he; simp [hd.failed]
      · simp [Store.get_put_ne _ _ _ he, hd.failed]
    · by_cases he : l = e.1
      · subst he; simp [hd.table]
      · simp [Store.get_put_ne _ _ _ he, hd.table]

theorem Act.settle_keepsDown (q : Req) (bytes : List Byte) (code : Nat) :
    (Act.settle q bytes code).Keeps fun t => LinkDown t l n :=
  .block_cons (untrack_keepsDown _) <| .block_cons (onReq_offLinks _ _).keepsDown <|
    .block_cons (arriveBack_offLinks _ _ _).keepsDown .block_nil

theorem Act.turnedAway_keepsDown (q : Req) : (Act.turnedAway q fSeam).Keeps fun t => LinkDown t l n :=
  .read fun _ => by
    split
    · exact settle_keepsDown _ _ _
    · exact .seq (untrack_keepsDown _) (.seq (onReq_offLinks _ _).keepsDown (seamFreeze_offLinks _ _ _ _).keepsDown)

theorem Act.answerPacket_keepsDown (p : Packet) : (Act.answerPacket p fSeam).Keeps fun t => LinkDown t l n :=
  .read fun _ => by
    split
    · exact .skip
    · exact .when (turnedAway_keepsDown _)

/-! ### The failure -/

theorem Act.onFieldLog_offLinks (d : Nat) (f : FieldLog → FieldLog) : (Act.onFieldLog d f).Only Effect.offLinks :=
  .read fun _ => .emit rfl

theorem Act.seamIrq_offLinks (d : Nat) : (Act.seamIrq d).Only Effect.offLinks :=
  .when fun _ => .each fun _ _ => onHart_offLinks _ _ _

theorem Act.flushLog_offLinks : Act.flushLog.Only Effect.offLinks :=
  .seq (.each fun _ _ => .read fun _ => onFieldLog_offLinks _ _) (.read fun _ => .emit rfl)

/-- One port of a link that fails (R20, R32). -/
def Act.failPort (l : LinkId) (crossing now : Nat) (p : DiePort) : Act :=
  .block
    [ .setPort p stFailed, .seamIrq p.1
    , .onFieldLog p.1 fun f => { f with failures := f.failures ++ [(linkNo l, crossing, now)] } ]

theorem Act.portState_failPort (s : State) (now : Nat) {p q : DiePort} (hp : portExists p.1 p.2 = true) (hq : q.2 < 5) :
    ((Act.failPort l n now p).run s).portState q = if q = p then stFailed else s.portState q := by
  have hrest : ((Act.seamIrq p.1).seq
      (.onFieldLog p.1 fun f => { f with failures := f.failures ++ [(linkNo l, n, now)] })).Only Effect.offLinks :=
    .seq (seamIrq_offLinks _) (onFieldLog_offLinks _ _)
  exact (hrest.portState _ hq).trans (State.portState_setPort s hp (by decide) q)

theorem Act.portState_failPorts (now : Nat) {q : DiePort} (hq : q.2 < 5) (ps : List DiePort) :
    ∀ s : State, (∀ p ∈ ps, portExists p.1 p.2 = true) → q ∈ ps ∨ s.portState q = stFailed →
      ((Act.each ps (Act.failPort l n now)).run s).portState q = stFailed := by
  induction ps with
  | nil => exact fun s _ h => h.resolve_left List.not_mem_nil
  | cons p r ih =>
    intro s hp h
    rw [Act.run_each_cons]
    refine ih _ (fun x hx => hp x (List.mem_cons_of_mem _ hx)) ?_
    rw [Act.portState_failPort s now (hp p List.mem_cons_self) hq]
    by_cases hqp : q = p
    · exact .inr (if_pos hqp)
    · rw [if_neg hqp]
      exact h.imp_left fun hm => (List.mem_cons.mp hm).resolve_left hqp

theorem Act.linkFails_down {s : State} (hl : linkExists l) (hup : s.linkFailed l = false) :
    LinkDown ((Act.linkFails l n).run s) l n := by
  have hlink : ∀ u : State, (∀ p ∈ linkPorts l, u.portState p = stFailed) →
      LinkDown ((Act.onLink l fun v => { v with failed := some n, table := [] }).run u) l n := fun u hu =>
    ⟨fun p hp => (State.portState_of_regs (by simp) p).trans (hu p hp), by simp, by simp⟩
  rw [Act.linkFails, Act.run_read, hup, if_neg Bool.false_ne_true, Act.run_block_cons, Act.run_block_cons]
  refine Act.Keeps.after_head (P := fun t => LinkDown t l n) (hlink _ fun p hp => ?_) <|
    .block_cons (.each fun id => .read fun u => ?_) <| .block_cons (.each fun p => answerPacket_keepsDown p) <|
      .block_cons (.each fun e => (onLane_offLinks _ _).keepsDown) .block_nil
  · rw [flushLog_offLinks.portState _ (linkPorts_lt hp)]
    exact portState_failPorts s.cycle (linkPorts_lt hp) (linkPorts l) s (fun q hq => linkPorts_exist hl hq) (.inl hp)
  · split
    · exact .when (turnedAway_keepsDown _)
    · exact .skip

end

end Sys2Proof.Machine
end

section
/-!
SEAMST.CLR, SEAMST.FAILIRQ and MODID (R21, R24, R26).
-/
namespace Sys2Proof.Machine

theorem Happens.of_next {i : Instr} {s : State} {f : State → Prop} (a : Act) (h : exec i s = a.next s)
    (hf : f (a.run s)) : Happens s i f := ⟨a.run s, h, hf⟩

section
variable (s : State) {d p : Nat} (hp : portExists d p = true)
include hp

/-- A field of SEAMST outside the one that is written. -/
theorem State.regField_seamst_withField_other {hi lo hi' lo' : Nat} (x : Nat) (h : hi' < lo ∨ hi < lo') (hl : lo ≤ hi)
    (hl' : lo' ≤ hi') (hh : hi' < 64)
    (hm : (0x00FF_FFFF_FFFF_0047 : DWord).extractLsb' lo' (hi' + 1 - lo') = BitVec.allOnes _) :
    (s.apply (.reg d (.seamst p) (withField (s.reg d (.seamst p)) hi lo x))).regField d (.seamst p) hi' lo' =
      s.regField d (.seamst p) hi' lo' := by
  rw [State.regField_seamst_same _ _ hp hm, fieldOf_withField_other _ _ h hl hl' hh, ← State.regField_eq]

/-- The field of SEAMST that is written. -/
theorem State.regField_seamst_withField_same {hi lo : Nat} (x : Nat) (hl : lo ≤ hi) (hh : hi < 64)
    (hm : (0x00FF_FFFF_FFFF_0047 : DWord).extractLsb' lo (hi + 1 - lo) = BitVec.allOnes _) :
    (s.apply (.reg d (.seamst p) (withField (s.reg d (.seamst p)) hi lo x))).regField d (.seamst p) hi lo =
      x % 2 ^ (hi + 1 - lo) := by
  rw [State.regField_seamst_same _ _ hp hm, fieldOf_withField_same _ _ hl hh]

theorem seamstClr_happens : Happens s (.seamstClr d p) fun t => t = { s with regs := t.regs } ∧
    t.regField d (.seamst p) 55 16 = 0 ∧ t.portState (d, p) = s.portState (d, p) ∧
    t.regField d (.seamst p) 6 6 = s.regField d (.seamst p) 6 6 :=
  .of_next (.seamstClr d p) rfl
    ⟨rfl, s.regField_seamst_withField_same hp 0 (by omega) (by omega) (by decide),
      s.regField_seamst_withField_other hp 0 (by omega) (by omega) (by omega) (by omega) (by decide),
      s.regField_seamst_withField_other hp 0 (by omega) (by omega) (by omega) (by omega) (by decide)⟩

end

/-! ### FAILIRQ -/

/-- The bit of the interrupt falls at every hart of a list, and stays 0 where it is. -/
theorem Act.xpirq_maskHarts (d n : Nat) (ns : List Nat) :
    ∀ s : State, n ∈ ns ∨ (s.hart d n).xpirq.getLsbD 1 = false →
      (((Act.each ns fun k => .onHart d k fun h => { h with xpirq := h.xpirq &&& 1 }).run s).hart d n).xpirq.getLsbD 1 =
        false := by
  induction ns with
  | nil => exact fun s h => h.resolve_left List.not_mem_nil
  | cons k r ih =>
    intro s h
    rw [Act.run_each_cons]
    refine ih _ ?_
    rw [Act.run_onHart]
    by_cases hk : n = k
    · subst hk
      exact .inr (by simp [State.hart, Hart.proper])
    · refine h.imp (fun hm => (List.mem_cons.mp hm).resolve_left hk) fun hx => ?_
      rw [State.hart, State.apply_hart, Store.get_put_ne _ _ _ (by simp [hk])]
      exact hx

theorem Act.each_onHart_frame (d : Nat) (f : Hart → Hart) (ns : List Nat) :
    ∀ s : State, (Act.each ns fun n => .onHart d n f).run s =
      { s with harts := ((Act.each ns fun n => .onHart d n f).run s).harts } := by
  induction ns with
  | nil => exact fun _ => rfl
  | cons n r ih =>
    intro s
    rw [Act.run_each_cons]
    exact ih _

theorem Act.each_onHart_regs (d : Nat) (f : Hart → Hart) (ns : List Nat) (s : State) :
    ((Act.each ns fun n => .onHart d n f).run s).regs = s.regs := by
  rw [Act.each_onHart_frame]

/-- What follows the write of FAILIRQ: the harts of a die without such a bit lose the interrupt. -/
theorem Act.run_failirqClear (s : State) (d p : Nat) : (Act.failirqClear d p).run s =
    (fun u : State => if ((List.range 5).all fun q => u.regField d (.seamst q) 6 6 == 0) = true
      then (Act.each (List.range 4) fun n => .onHart d n fun h => { h with xpirq := h.xpirq &&& 1 }).run u else u)
      (s.apply (.reg d (.seamst p) (withField (s.reg d (.seamst p)) 6 6 0))) := by
  rw [Act.failirqClear, Act.run_seq, Act.run_onReg, Act.run_read, Act.run_when]

theorem seamstFailirqClear_happens (s : State) {d p : Nat} (hp : portExists d p = true) :
    Happens s (.seamstFailirqClear d p) fun t => t = { s with regs := t.regs, harts := t.harts } ∧
      t.regField d (.seamst p) 6 6 = 0 ∧ t.portState (d, p) = s.portState (d, p) ∧
      ((∀ q, q < 5 → q ≠ p → s.regField d (.seamst q) 6 6 = 0) →
        ∀ n, n < 4 → (t.hart d n).xpirq.getLsbD 1 = false) := by
  refine .of_next (.failirqClear d p) rfl ?_
  rw [Act.run_failirqClear]
  obtain ⟨u, hu⟩ : ∃ u, u = s.apply (.reg d (.seamst p) (withField (s.reg d (.seamst p)) 6 6 0)) := ⟨_, rfl⟩
  have hframe : u = { s with regs := u.regs, harts := u.harts } := by rw [hu]; rfl
  have hbit : u.regField d (.seamst p) 6 6 = 0 := by
    rw [hu, s.regField_seamst_withField_same hp 0 (by omega) (by omega) (by decide)]; rfl
  have hstate : u.portState (d, p) = s.portState (d, p) := by
    rw [hu]
    exact s.regField_seamst_withField_other hp 0 (by omega) (by omega) (by omega) (by omega) (by decide)
  have hothers : ∀ q, q ≠ p → u.regField d (.seamst q) 6 6 = s.regField d (.seamst q) 6 6 := fun q hq => by
    rw [hu]
    exact s.regField_seamst_ne (p := (d, p)) (q := (d, q)) _ (fun x => hq (Prod.mk.inj x).2) 6 6
  rw [← hu]
  dsimp only
  split
  · have hregs := Act.each_onHart_regs d (fun h => { h with xpirq := h.xpirq &&& 1 }) (List.range 4) u
    refine ⟨?_, (State.regField_congr (State.reg_of_regs hregs _ _) 6 6).trans hbit,
      (State.portState_of_regs hregs _).trans hstate,
      fun _ n hn => Act.xpirq_maskHarts d n _ u (.inl (List.mem_range.mpr hn))⟩
    rw [Act.each_onHart_frame, hframe]
  · rename_i hall
    refine ⟨hframe, hbit, hstate, fun hzero => absurd (List.all_eq_true.mpr fun q hq => beq_iff_eq.mpr ?_) hall⟩
    by_cases hqp : q = p
    · rw [hqp, hbit]
    · exact (hothers q hqp).trans (hzero q (List.mem_range.mp hq) hqp)

/-! ### MODID -/

theorem regAt_modid : ∀ d < 26, regAt d RegName.modid.off = some .modid := by decide

theorem seamst_off_ne_modid (p : Nat) : (RegName.seamst p).off ≠ RegName.modid.off := by
  show 0x0400 + 8 * p ≠ 0x0140
  omega

/-- ROUTE has no entry above the last column. -/
def routeGood (route : Nat) : Prop := ∀ i, i < 6 → bitField route (3 * i + 2) (3 * i) < 6

theorem routeBad_iff (route : Nat) :
    ((List.range 6).any fun i => decide (6 ≤ bitField route (3 * i + 2) (3 * i))) = true ↔ ¬ routeGood route := by
  simp [routeGood]

theorem modidWrite_bad (s : State) (d : Nat) {v : DWord} (h : ¬ routeGood (v.extractLsb' 32 18).toNat) :
    Happens s (.modidWrite d v) fun t => t = s := by
  refine .of_next (.modidWrite d v) rfl ?_
  rw [Act.modidWrite, Act.run_read]
  dsimp only
  rw [(routeBad_iff _).mpr h, Bool.true_or, if_pos rfl, Act.run_skip]

theorem portEdge_exists {d : Nat} {l : LinkId} (h : portEdge d 4 = some l) : portExists d 4 = true := by
  unfold portEdge at h
  split at h
  · rename_i hc
    simp only [Bool.and_eq_true] at hc
    simp [portExists, hc.1]
  · cases h

theorem modidWrite_good (s : State) {d : Nat} (hd : d < 26) {v : DWord} (h : routeGood (v.extractLsb' 32 18).toNat)
    (hr : (v.extractLsb' 32 18).toNat = s.regField d .modid 49 32 ∨ s.federated = false) :
    Happens s (.modidWrite d v) fun t => t.reg d .modid = v &&& RegName.modid.stored ∧ t = { s with regs := t.regs } ∧
      ∀ l, portEdge d 4 = some l → t.edgeWanted l = false → s.portState (d, 4) ≠ stFailed →
        t.portState (d, 4) = stDown := by
  let u := s.apply (.reg d .modid v)
  have hmodid : u.reg d .modid = v &&& RegName.modid.stored := s.reg_apply_same v (regAt_modid d hd)
  have hport : u.portState (d, 4) = s.portState (d, 4) :=
    State.regField_congr (s.reg_apply_ne v fun _ => seamst_off_ne_modid 4) 2 0
  have hgo : (((List.range 6).any fun i =>
      decide (6 ≤ bitField (v.extractLsb' 32 18).toNat (3 * i + 2) (3 * i))) ||
      ((v.extractLsb' 32 18).toNat != s.regField d .modid 49 32 && s.federated)) = false := by
    rw [Bool.or_eq_false_iff, ← Bool.not_eq_true, routeBad_iff, not_not]
    refine ⟨h, ?_⟩
    rcases hr with hr | hr <;> simp [hr]
  refine .of_next (.modidWrite d v) rfl ?_
  rw [Act.modidWrite, Act.run_read]
  dsimp only
  rw [hgo, if_neg Bool.false_ne_true, Act.run_seq, Act.run_emit, Act.run_read, Act.run_when]
  by_cases hc : (((portEdge d 4).any fun l => !u.edgeWanted l) && u.portState (d, 4) != stFailed) = true
  · have hkeeps : ∀ e, ((Act.setPort (d, 4) stDown).run u).reg e .modid = u.reg e .modid := fun e =>
      State.reg_apply_ne u _ fun _ => (seamst_off_ne_modid 4).symm
    rw [if_pos hc]
    refine ⟨(hkeeps d).trans hmodid, rfl, fun l hl _ _ => ?_⟩
    rw [State.portState_setPort u (portEdge_exists hl) (by decide), if_pos rfl]
  · rw [if_neg hc]
    refine ⟨hmodid, rfl, fun l hl hw hs => absurd ?_ hc⟩
    have hw' : u.edgeWanted l = false := hw
    simp [hl, hw', hport, hs]

end Sys2Proof.Machine
end

section
/-!
Flits received (R17, R18): one that fails its CRC, and one in order.
-/
namespace Sys2Proof.Machine

/-! ### Lanes -/

section
variable (v : Lane) (l : LinkId) (now : Nat)

@[simp] theorem Lane.fill_expect : (v.fill l now).expect = v.expect := rfl

/-- Filling a lane adds to the end of its replay buffer, and nothing when nothing waits. -/
theorem Lane.fill_buf : ∃ new, (v.fill l now).buf = v.buf ++ new ∧ (v.pend = [] → new = []) :=
  ⟨_, rfl, fun h => by simp [h]⟩

/-- Filling a lane moves what it carries along and changes nothing of it. -/
theorem Lane.fill_loads : (v.fill l now).buf.map (·.load) ++ (v.fill l now).pend = v.buf.map (·.load) ++ v.pend := by
  have hsplit : ∀ n, v.pend.take n ++ v.pend.drop (v.pend.take n).length = v.pend := fun n => by
    rw [List.length_take]
    rcases Nat.le_total n v.pend.length with h | h
    · rw [Nat.min_eq_left h, List.take_append_drop]
    · rw [Nat.min_eq_right h, List.take_of_length_le h, List.drop_length, List.append_nil]
  have hsent : ∀ out : List FlitLoad, (out.zipIdx.map fun e =>
      ({ seq := (v.nextSend + e.2) % laneModulus l, load := e.1 } : Flit)).map (·.load) = out := fun out => by
    rw [List.map_map]
    exact List.zipIdx_map_fst 0 out
  simp only [Lane.fill, List.map_append, hsent, List.append_assoc, hsplit]

end

/-- An acknowledgement of a flit in the replay buffer frees it and those before it. -/
theorem Lane.ack_spec {v : Lane} {seq : Nat} (h : (v.buf.any fun f => f.seq == seq) = true) (l : LinkId) (now : Nat) :
    (v.ack l seq now).expect = v.expect ∧
    ∃ new, (v.ack l seq now).buf = (v.buf.dropWhile fun f => f.seq != seq).drop 1 ++ new ∧
      (v.pend = [] → new = []) := by
  unfold Lane.ack
  dsimp only
  rw [if_pos h]
  exact ⟨rfl, Lane.fill_buf _ l now⟩

/-! ### A bad flit -/

/-- Effects by which the receiving side counts an error and starts a retraining. -/
def Effect.counts : Effect → Bool
  | .reg _ _ _ | .fieldLog _ _ | .link _ _ => true
  | _ => false

theorem Act.retrain_counts (l : LinkId) (crossing : Nat) : (Act.retrain l crossing).Only Effect.counts :=
  .read fun _ => .block_cons (.read fun _ => .emit rfl) <|
    .block_cons (.each fun _ _ => .when fun _ => .read fun _ => .emit rfl) .block_nil

theorem Act.crcError_counts (l : LaneId) : (Act.crcError l).Only Effect.counts :=
  .read fun _ => .block_cons (.read fun _ => .emit rfl) <| .block_cons (.read fun _ => .emit rfl) <|
    .block_cons (.read fun _ => .emit rfl) <| .block_cons (.when fun _ => retrain_counts _ _) .block_nil

theorem State.apply_counts (s : State) {e : Effect} (h : e.counts = true) :
    (s.apply e).lanes = s.lanes ∧ (s.apply e).cells = s.cells ∧ (s.apply e).nodes = s.nodes := by
  cases e
  case reg => simp
  case fieldLog => simp
  case link => simp
  all_goals cases h

theorem Act.crcError_keeps (s : State) (l : LaneId) : ((Act.crcError l).run s).lanes = s.lanes ∧
    ((Act.crcError l).run s).cells = s.cells ∧ ((Act.crcError l).run s).nodes = s.nodes :=
  ⟨(crcError_counts l).keeps (f := State.lanes) (fun u _ he => (u.apply_counts he).1) s,
    (crcError_counts l).keeps (f := State.cells) (fun u _ he => (u.apply_counts he).2.1) s,
    (crcError_counts l).keeps (f := State.nodes) (fun u _ he => (u.apply_counts he).2.2) s⟩

section
variable {s : State} {l : LaneId} {seq : Nat} {f : Flit}
  (hf : ((s.lanes.get {} l).buf.find? fun f => f.seq == seq) = some f) (hold : s.laneHolds l = false)
  (hup : s.linkFailed l.link = false) (hnak : (s.lanes.get {} l).nak = none)
include hf hold hup hnak

theorem exec_flitReceive_bad (ack : Bool) (inb : EdgeIn) : exec (.flitReceive l seq false ack inb) s =
    ((Act.crcError l).seq (.onLane l fun v => { v with nak := some v.expect })).next s := by
  show execFlitReceive l seq false ack inb s = _
  simp [execFlitReceive, hf, hold, hup, hnak]

theorem flitReceive_bad_happens (ack : Bool) (inb : EdgeIn) : Happens s (.flitReceive l seq false ack inb) fun t =>
    (t.lanes.get {} l).nak = some (s.lanes.get {} l).expect ∧ (t.lanes.get {} l).buf = (s.lanes.get {} l).buf ∧
      (t.lanes.get {} l).expect = (s.lanes.get {} l).expect ∧ t.cells = s.cells ∧ t.nodes = s.nodes := by
  obtain ⟨hlanes, hcells, hnodes⟩ := Act.crcError_keeps s l
  refine .of_next _ (exec_flitReceive_bad hf hold hup hnak ack inb) ?_
  simp [hlanes, hcells, hnodes]

/-! ### A flit in order -/

theorem exec_flitReceive_inOrder (hseq : seq = (s.lanes.get {} l).expect) (hroom : s.flitRoom l f.load = true)
    (inb : EdgeIn) : exec (.flitReceive l seq true true inb) s =
      ((Act.takeFlit l f.load).seq (.onLane l fun v =>
        ({ v with expect := (seq + 1) % laneModulus l.link } : Lane).ack l.link seq s.cycle)).next s := by
  have hd : (seq + laneModulus l.link - (s.lanes.get {} l).expect) % laneModulus l.link = 0 := by
    rw [← hseq, Nat.add_sub_cancel_left, Nat.mod_self]
  show execFlitReceive l seq true true inb s = _
  simp [execFlitReceive, hf, hold, hup, hnak, hd, hroom]

end

/-- What a flit that is taken in leaves behind: on its lane the cycle of a header beat may change, a packet goes into the
input buffer of the node where the lane ends, a token into the switch of its cell. -/
structure FlitTaken (s t : State) (l : LaneId) (f : FlitLoad) : Prop where
  lane : ∃ h, t.lanes.get {} l = { s.lanes.get {} l with header := h }
  lanes : ∀ k, k ≠ l → t.lanes.get {} k = s.lanes.get {} k
  packet : ∀ p, f = .packet p → (t.nodes.get {} (laneNode l p)).bufs.get [] (laneInput l, p.vc) =
    (s.nodes.get {} (laneNode l p)).bufs.get [] (laneInput l, p.vc) ++
      [{ p with head := (s.lanes.get {} l).header.getD s.cycle }]
  token : ∀ tok a b net, f = .token tok → laneEnds l = some (a, b) → laneNet l.cls = some net →
    (t.cells.get {} (s.laneCell l b)).sw.inb.get [] (net, laneInput l) =
      (s.cells.get {} (s.laneCell l b)).sw.inb.get [] (net, laneInput l) ++
        [{ tok with since := s.cycle + cellDist b (s.laneCell l b) + s.wakeDelay (s.laneCell l b) }]

theorem Act.patchWake_keeps (s : State) (c : CellId) :
    ((Act.patchWake c).run s).lanes = s.lanes ∧ ((Act.patchWake c).run s).cells = s.cells := by
  rw [Act.patchWake, Act.run_read, Act.run_when]
  split
  · exact ⟨rfl, rfl⟩
  · exact ⟨rfl, rfl⟩

theorem Act.crossed_keeps (s : State) (l : LaneId) (p : Packet) :
    ((Act.crossed l p).run s).lanes = s.lanes ∧ ((Act.crossed l p).run s).nodes = s.nodes := by
  unfold Act.crossed
  split
  · exact ⟨rfl, rfl⟩
  · exact ⟨rfl, rfl⟩
  · exact ⟨rfl, rfl⟩

theorem Act.run_takeFlit_beat (s : State) (l : LaneId) : (Act.takeFlit l .beat).run s =
    s.apply (.lane l { s.lanes.get {} l with header := some ((s.lanes.get {} l).header.getD s.cycle) }) := rfl

section
variable (s : State) {l : LaneId} {a b : CellId} (hends : laneEnds l = some (a, b))
include hends

theorem Act.run_takeFlit_packet (p : Packet) : (Act.takeFlit l (.packet p)).run s =
    (Act.crossed l p).run ((Act.onLane l fun v => { v with header := none }).run
      (s.apply (.node (laneNode l p) ((s.nodes.get {} (laneNode l p)).push (laneInput l, p.vc)
        { p with head := (s.lanes.get {} l).header.getD s.cycle })))) := by
  simp only [Act.takeFlit, Act.run_read, hends, Act.run_block_cons, Act.run_block_nil, Act.run_onNode]

theorem Act.run_takeFlit_token {net : Net} (hnet : laneNet l.cls = some net) (t : Tok) :
    (Act.takeFlit l (.token t)).run s = (Act.patchWake (s.laneCell l b)).run ((Act.onCell (s.laneCell l b) fun x =>
      { x with
        busy := s.cycle
        sw := x.sw.arrives net (laneInput l)
          { t with since := s.cycle + cellDist b (s.laneCell l b) + s.wakeDelay (s.laneCell l b) } }).run s) := by
  simp only [Act.takeFlit, Act.run_read, hends, hnet, Act.run_seq]

theorem Act.run_takeFlit_token_none (hnet : laneNet l.cls = none) (t : Tok) : (Act.takeFlit l (.token t)).run s = s := by
  simp only [Act.takeFlit, Act.run_read, hends, hnet, Act.run_skip]

theorem Act.takeFlit_taken (f : FlitLoad) : FlitTaken s ((Act.takeFlit l f).run s) l f := by
  cases f with
  | void => exact ⟨⟨_, rfl⟩, fun _ _ => rfl, (fun _ h => nomatch h), fun _ _ _ _ h _ _ => nomatch h⟩
  | beat =>
    rw [Act.run_takeFlit_beat]
    refine ⟨⟨some ((s.lanes.get {} l).header.getD s.cycle), ?_⟩, fun k hk => ?_, (fun _ h => nomatch h),
      fun _ _ _ _ h _ _ => nomatch h⟩
    · rw [State.apply_lane, Store.get_put_same]
    · rw [State.apply_lane, Store.get_put_ne _ _ _ hk]
  | packet p =>
    rw [Act.run_takeFlit_packet s hends]
    refine ⟨⟨none, ?_⟩, fun k hk => ?_, fun q hq => ?_, fun _ _ _ _ h _ _ => nomatch h⟩
    · rw [(Act.crossed_keeps _ l p).1, Act.run_onLane, State.apply_lane, Store.get_put_same]
      simp
    · rw [(Act.crossed_keeps _ l p).1, Act.run_onLane, State.apply_lane, Store.get_put_ne _ _ _ hk]
      simp
    · cases hq
      rw [(Act.crossed_keeps _ l p).2]
      simp [Node.push]
  | token t =>
    cases hnet : laneNet l.cls with
    | none =>
      rw [Act.run_takeFlit_token_none s hends hnet]
      exact ⟨⟨_, rfl⟩, fun _ _ => rfl, (fun _ h => nomatch h), fun _ _ _ net _ _ h => by rw [hnet] at h; cases h⟩
    | some net =>
      rw [Act.run_takeFlit_token s hends hnet]
      refine ⟨⟨_, by rw [(Act.patchWake_keeps _ _).1]; rfl⟩, fun k _ => by rw [(Act.patchWake_keeps _ _).1]; rfl,
        (fun _ h => nomatch h), ?_⟩
      intro t' a' b' net' ht hends' hnet'
      cases ht
      cases hends.symm.trans hends'
      cases hnet.symm.trans hnet'
      rw [(Act.patchWake_keeps _ _).2]
      simp [Sw.arrives]

end

section
variable {s : State} {l : LaneId} {seq : Nat} {f : Flit}
  (hf : ((s.lanes.get {} l).buf.find? fun f => f.seq == seq) = some f) (hold : s.laneHolds l = false)
  (hup : s.linkFailed l.link = false) (hnak : (s.lanes.get {} l).nak = none)
include hf hold hup hnak

theorem flitReceive_inOrder_happens (hseq : seq = (s.lanes.get {} l).expect) (hroom : s.flitRoom l f.load = true)
    (hends : laneEnds l ≠ none) (inb : EdgeIn) : Happens s (.flitReceive l seq true true inb) fun t =>
      (t.lanes.get {} l).expect = (seq + 1) % laneModulus l.link ∧
      (∃ new, (t.lanes.get {} l).buf = ((s.lanes.get {} l).buf.dropWhile fun f => f.seq != seq).drop 1 ++ new ∧
        ((s.lanes.get {} l).pend = [] → new = [])) ∧
      (∀ k, k ≠ l → t.lanes.get {} k = s.lanes.get {} k) ∧
      (∀ p a b, f.load = .packet p → laneEnds l = some (a, b) →
        (t.nodes.get {} (laneNode l p)).bufs.get [] (laneInput l, p.vc) =
          (s.nodes.get {} (laneNode l p)).bufs.get [] (laneInput l, p.vc) ++
            [{ p with head := (s.lanes.get {} l).header.getD s.cycle }]) ∧
      ∀ tok a b net, f.load = .token tok → laneEnds l = some (a, b) → laneNet l.cls = some net →
        (t.cells.get {} (s.laneCell l b)).sw.inb.get [] (net, laneInput l) =
          (s.cells.get {} (s.laneCell l b)).sw.inb.get [] (net, laneInput l) ++
          [{ tok with since := s.cycle + cellDist b (s.laneCell l b) + s.wakeDelay (s.laneCell l b) }] := by
  obtain ⟨⟨a, b⟩, hab⟩ := Option.ne_none_iff_exists'.mp hends
  have htaken := Act.takeFlit_taken s hab f.load
  obtain ⟨h, hlane⟩ := htaken.lane
  have hany : ((s.lanes.get {} l).buf.any fun f => f.seq == seq) = true :=
    List.any_eq_true.mpr ⟨f, List.mem_of_find?_eq_some hf, by simpa using List.find?_some hf⟩
  obtain ⟨hexpect, hbuf⟩ := Lane.ack_spec
    (v := { s.lanes.get {} l with header := h, expect := (seq + 1) % laneModulus l.link }) hany l.link s.cycle
  refine .of_next _ (exec_flitReceive_inOrder hf hold hup hnak hseq hroom inb) ?_
  rw [Act.run_seq, Act.run_onLane, hlane, State.apply_lane, Store.get_put_same]
  exact ⟨hexpect, hbuf, fun k hk => (Store.get_put_ne _ _ _ hk).trans (htaken.lanes k hk),
    fun p _ _ hp _ => htaken.packet p hp, htaken.token⟩

end

end Sys2Proof.Machine
end

section
/-!
Replay, retraining and failure of a link (R18, R19).
-/
namespace Sys2Proof.Machine

/-! ### Fields of SEAMST written -/

theorem Act.portState_onSeamst (s : State) {p : DiePort} (hp : portExists p.1 p.2 = true) {f : DWord → DWord}
    (hf : ∀ v, fieldOf (f v) 2 0 = fieldOf v 2 0) (q : DiePort) :
    ((Act.onReg p.1 (.seamst p.2) f).run s).portState q = s.portState q := by
  rw [Act.run_onReg]
  by_cases hq : q = p
  · subst hq
    rw [State.portState, State.regField_seamst_same _ _ hp (by decide), hf, State.portState, State.regField_eq]
  · rw [State.portState, State.regField_seamst_ne _ _ hq, State.portState]

/-- RETRIES, bits [47:32], counted up to its largest value. -/
theorem Act.regField_countRetries (s : State) {d p : Nat} (hp : portExists d p = true) :
    ((Act.countReg d (.seamst p) 47 32).run s).regField d (.seamst p) 47 32 =
      min 0xFFFF (s.regField d (.seamst p) 47 32 + 1) := by
  refine (s.regField_seamst_withField_same hp _ (by omega) (by omega) (by decide)).trans ?_
  exact Nat.mod_eq_of_lt (by omega)

theorem State.regField_onFieldLog (s : State) (e : Nat) (f : FieldLog → FieldLog) (d : Nat) (r : RegName)
    (hi lo : Nat) : ((Act.onFieldLog e f).run s).regField d r hi lo = s.regField d r hi lo :=
  State.regField_congr (State.reg_of_regs (by simp [Act.onFieldLog]) _ _) hi lo
theorem State.regField_onLane (s : State) (l : LaneId) (f : Lane → Lane) (d : Nat) (r : RegName) (hi lo : Nat) :
    ((Act.onLane l f).run s).regField d r hi lo = s.regField d r hi lo :=
  State.regField_congr (State.reg_of_regs (by simp) _ _) hi lo

/-! ### A retry -/

section
variable (s : State) (l : LaneId)

theorem Act.run_retry : (Act.retry l).run s =
    (Act.onFieldLog (lanePort l).1 fun f =>
      { f with retries := f.retries.put (lanePort l).2 (f.retries.get 0 (lanePort l).2 + 1) }).run
    ((Act.onReg (lanePort l).1 (.seamst (lanePort l).2) fun v =>
      withField v 55 48 (max ((s.lanes.get {} l).retries + 1) (v.extractLsb' 48 8).toNat)).run
    ((Act.countReg (lanePort l).1 (.seamst (lanePort l).2) 47 32).run
    ((Act.onLane l fun v => { v with retries := (s.lanes.get {} l).retries + 1, nak := none, lastSend := s.cycle }).run s))) :=
  rfl

theorem Act.onFieldLog_frame (d : Nat) (f : FieldLog → FieldLog) :
    ∃ x, (Act.onFieldLog d f).run s = { s with fieldLog := x } := ⟨_, rfl⟩
theorem Act.onReg_frame (d : Nat) (r : RegName) (f : DWord → DWord) :
    ∃ x, (Act.onReg d r f).run s = { s with regs := x } := ⟨_, rfl⟩

/-- A retry rewrites its lane; of the rest of the state only registers and the field log change. -/
theorem Act.retry_frame : ∃ regs fieldLog, (Act.retry l).run s = { s with
    lanes := s.lanes.put l
      { s.lanes.get {} l with retries := (s.lanes.get {} l).retries + 1, nak := none, lastSend := s.cycle }
    regs := regs, fieldLog := fieldLog } := by
  rw [Act.run_retry]
  generalize hv : (fun v : Lane =>
    { v with retries := (s.lanes.get {} l).retries + 1, nak := none, lastSend := s.cycle }) = f
  obtain ⟨r1, h1⟩ := Act.onReg_frame ((Act.onLane l f).run s) (lanePort l).1 (.seamst (lanePort l).2) _
  rw [Act.countReg, h1]
  obtain ⟨r2, h2⟩ := Act.onReg_frame { (Act.onLane l f).run s with regs := r1 } (lanePort l).1
    (.seamst (lanePort l).2) _
  rw [h2]
  obtain ⟨x, h3⟩ := Act.onFieldLog_frame { (Act.onLane l f).run s with regs := r2 } (lanePort l).1 _
  rw [h3, ← hv]
  exact ⟨r2, x, rfl⟩

variable {l} (hl : linkExists l.link)
include hl

theorem Act.retry_portState {q : DiePort} (hq : q.2 < 5) : ((Act.retry l).run s).portState q = s.portState q := by
  have hp := linkPorts_exist hl (lanePort_mem l)
  rw [Act.run_retry, (onFieldLog_offLinks _ _).portState _ hq, Act.portState_onSeamst _ hp,
    Act.countReg, Act.portState_onSeamst _ hp, (onLane_offLinks _ _).portState _ hq]
  · exact fun v => fieldOf_withField_other _ _ (by omega) (by omega) (by omega) (by omega)
  · exact fun v => fieldOf_withField_other _ _ (by omega) (by omega) (by omega) (by omega)

theorem Act.retry_count : ((Act.retry l).run s).regField (lanePort l).1 (.seamst (lanePort l).2) 47 32 =
    min 0xFFFF (s.regField (lanePort l).1 (.seamst (lanePort l).2) 47 32 + 1) := by
  have hp := linkPorts_exist hl (lanePort_mem l)
  rw [Act.run_retry, State.regField_onFieldLog, Act.run_onReg,
    State.regField_seamst_withField_other _ hp _ (by omega) (by omega) (by omega) (by omega) (by decide),
    Act.regField_countRetries _ hp, State.regField_onLane]

end

/-! ### A retraining -/

theorem Act.setPorts_frame (c : DiePort → Bool) (st : Nat) (ps : List DiePort) :
    ∀ s : State, (Act.each ps fun p => .when (c p) (.setPort p st)).run s =
      { s with regs := ((Act.each ps fun p => .when (c p) (.setPort p st)).run s).regs } := by
  induction ps with
  | nil => exact fun _ => rfl
  | cons p r ih =>
    intro s
    rw [Act.run_each_cons, Act.run_when]
    split
    · exact ih _
    · exact ih _

theorem Act.setPorts_keeps (s : State) (c : DiePort → Bool) (st : Nat) (ps : List DiePort) :
    ((Act.each ps fun p => .when (c p) (.setPort p st)).run s).links = s.links ∧
    ((Act.each ps fun p => .when (c p) (.setPort p st)).run s).lanes = s.lanes := by
  rw [Act.setPorts_frame]
  exact ⟨rfl, rfl⟩

theorem Act.run_retrain (s : State) (l : LinkId) (n : Nat) : (Act.retrain l n).run s =
    (Act.each (linkPorts l) fun p => .when (s.portState p == stUp) (.setPort p stRetraining)).run
      ((Act.onLink l fun v => v.setCrossing n { v.crossing n with retraining := some s.cycle, crc := [] }).run s) := rfl

theorem Act.retrain_starts (s : State) {l : LinkId} (hl : linkExists l) (n : Nat) :
    ((((Act.retrain l n).run s).links.get {} l).crossings.get {} n).retraining = some s.cycle ∧
    ((Act.retrain l n).run s).lanes = s.lanes ∧
    ∀ p ∈ linkPorts l, s.portState p = stUp → ((Act.retrain l n).run s).portState p = stRetraining := by
  rw [Act.run_retrain]
  refine ⟨?_, ?_, fun p hp hs => ?_⟩
  · rw [(Act.setPorts_keeps _ _ _ _).1]
    simp [Link.setCrossing]
  · rw [(Act.setPorts_keeps _ _ _ _).2]
    rfl
  · rw [State.portState_setPorts (by decide) _ _ _ _ fun q hq => linkPorts_exist hl hq, if_pos ⟨hp, by simp [hs]⟩]

/-! ### Replay after a negative acknowledgement or a timeout (R18, R22) -/

/-- The transmitter of a lane has cause to replay. -/
def Replays (s : State) (l : LaneId) (i : Instr) : Prop :=
  i = .flitReplay l ∧ (s.lanes.get {} l).nak.isSome = true ∨
  i = .replayTimeout l ∧ (s.lanes.get {} l).buf ≠ [] ∧ (s.lanes.get {} l).nak = none ∧
    (s.lanes.get {} l).lastSend + replayWait l.link ≤ s.cycle

theorem exec_replays {s : State} {l : LaneId} {i : Instr} (h : Replays s l i) (hold : s.laneHolds l = false)
    (hup : s.linkFailed l.link = false) : exec i s = (Act.replayFlit l).next s := by
  rcases h with ⟨rfl, hnak⟩ | ⟨rfl, hbuf, hnak, hwait⟩
  · show execFlitReplay l s = _
    simp [execFlitReplay, hnak, hold, hup]
  · have hb : ((s.lanes.get {} l).buf != []) = true := bne_iff_ne.mpr hbuf
    show execReplayTimeout l s = _
    simp [execReplayTimeout, hb, hnak, hwait, hold, hup]

theorem replays_happens {s : State} {l : LaneId} {i : Instr} (hl : linkExists l.link) (h : Replays s l i)
    (hold : s.laneHolds l = false) (hup : s.linkFailed l.link = false) : Happens s i fun t =>
      ((s.lanes.get {} l).retries < 8 → (s.lanes.get {} l).retries ≠ 4 →
        t.lanes.get {} l =
          { s.lanes.get {} l with retries := (s.lanes.get {} l).retries + 1, nak := none, lastSend := s.cycle } ∧
        (∀ k, k ≠ l → t.lanes.get {} k = s.lanes.get {} k) ∧
        t.regField (lanePort l).1 (.seamst (lanePort l).2) 47 32 =
          min 0xFFFF (s.regField (lanePort l).1 (.seamst (lanePort l).2) 47 32 + 1) ∧
        t = { s with lanes := t.lanes, regs := t.regs, fieldLog := t.fieldLog }) ∧
      ((s.lanes.get {} l).retries = 4 →
        ((t.links.get {} l.link).crossings.get {} l.crossing).retraining = some s.cycle ∧
        t.lanes.get {} l = { s.lanes.get {} l with stuck := true, nak := none } ∧
        (∀ k, k ≠ l → t.lanes.get {} k = s.lanes.get {} k) ∧
        ∀ p ∈ linkPorts l.link, s.portState p = stUp → t.portState p = stRetraining) ∧
      (8 ≤ (s.lanes.get {} l).retries → LinkDown t l.link l.crossing) := by
  refine .of_next _ (exec_replays h hold hup) ?_
  rw [Act.replayFlit, Act.run_read]
  dsimp only
  by_cases h8 : 8 ≤ (s.lanes.get {} l).retries
  · rw [if_pos h8]
    exact ⟨fun h => absurd h8 (by omega), fun h => absurd h8 (by omega), fun _ => Act.linkFails_down hl hup⟩
  rw [if_neg h8]
  by_cases h4 : (s.lanes.get {} l).retries = 4
  · rw [if_pos h4, Act.run_seq]
    obtain ⟨hcross, hlanes, hports⟩ := Act.retrain_starts
      ((Act.onLane l fun v => { v with stuck := true, nak := none }).run s) hl l.crossing
    refine ⟨fun _ h => absurd h4 h, fun _ => ⟨hcross, ?_, fun k hk => ?_, fun p hp hs => hports p hp ?_⟩,
      fun h => absurd h h8⟩
    · rw [hlanes, Act.run_onLane, State.apply_lane, Store.get_put_same]
    · rw [hlanes, Act.run_onLane, State.apply_lane, Store.get_put_ne _ _ _ hk]
    · rw [← hs]
      exact State.portState_of_regs rfl p
  · rw [if_neg h4]
    obtain ⟨regs, fieldLog, hframe⟩ := Act.retry_frame s l
    have hlanes := congrArg State.lanes hframe
    refine ⟨fun _ _ => ⟨?_, fun k hk => ?_, Act.retry_count s hl, ?_⟩, fun h => absurd h h4, fun h => absurd h h8⟩
    · rw [hlanes, Store.get_put_same]
    · rw [hlanes, Store.get_put_ne _ _ _ hk]
    · rw [hframe]

/-! ### The end of a retraining (R19) -/

theorem Store.mem_erase_ne {K V : Type} [DecidableEq K] {s : Store K V} {k : K} {e : K × V} (h : e ∈ s.erase k) :
    e.1 ≠ k := by
  induction s with
  | nil => cases h
  | cons a r ih =>
    obtain ⟨a, v⟩ := a
    by_cases ha : a = k
    · simp only [Store.erase, ha, if_true] at h
      exact ih h
    · simp only [Store.erase, ha, if_false] at h
      rcases List.mem_cons.mp h with rfl | h
      · exact ha
      · exact ih h

/-- When no other crossing of a link is retraining, none is once this one has locked. -/
theorem Link.all_locked {v : Link} {n : Nat} (h : ∀ e ∈ v.crossings, e.1 ≠ n → e.2.retraining = none) :
    ((v.setCrossing n { v.crossing n with retraining := none }).crossings.all fun e => e.2.retraining.isNone) = true := by
  refine List.all_eq_true.mpr fun e he => Option.isNone_iff_eq_none.mpr ?_
  rcases List.mem_cons.mp he with rfl | he
  · rfl
  · exact h e (Store.mem_erase he) (Store.mem_erase_ne he)

/-- The lanes of a crossing whose fourth retry failed go on with their fifth; the link and its ports stay as they are. -/
theorem Act.goesOn_keeps {k : LaneId} (hl : linkExists k.link) {L : Store LinkId Link} {q : DiePort}
    (hq : q.2 < 5) (st : Nat) :
    ((Act.onLane k fun v => { v with stuck := false }).seq (.retry k)).Keeps fun t =>
      t.links = L ∧ t.portState q = st := fun s hs => by
  obtain ⟨hlinks, hstate⟩ := hs
  rw [Act.run_seq]
  constructor
  · obtain ⟨_, _, hframe⟩ := Act.retry_frame ((Act.onLane k fun v => { v with stuck := false }).run s) k
    rw [hframe]
    exact hlinks
  · rw [Act.retry_portState _ hl hq, (onLane_offLinks _ _).portState _ hq, hstate]

/-- The lanes of a crossing that wait for their fifth retry in a state go on. -/
def Act.unstick (s : State) (l : LinkId) (n : Nat) : Act :=
  .each laneClasses fun c => .each [true, false] fun up =>
    .when (s.lanes.get {} { link := l, crossing := n, cls := c, up := up }).stuck
      ((Act.onLane { link := l, crossing := n, cls := c, up := up } fun v => { v with stuck := false }).seq
        (.retry { link := l, crossing := n, cls := c, up := up }))

theorem Act.unstick_keeps (s : State) {l : LinkId} (hl : linkExists l) (n : Nat) (u : State) {q : DiePort}
    (hq : q.2 < 5) :
    ((Act.unstick s l n).run u).links = u.links ∧ ((Act.unstick s l n).run u).portState q = u.portState q :=
  (Act.Keeps.each fun c => .each fun up => .when
    (Act.goesOn_keeps (k := { link := l, crossing := n, cls := c, up := up }) hl hq _)) u ⟨rfl, rfl⟩

/-- RETRAINING_LOCK in time: the crossing stops retraining, the ports come up with the last such crossing, the lanes go
on. -/
theorem exec_retrainingLock {s : State} {l : LinkId} {n c : Nat}
    (hc : ((s.links.get {} l).crossings.get {} n).retraining = some c) (hup : s.linkFailed l = false)
    (hin : s.cycle ≤ c + 1600) : exec (.retrainingLock l n) s = (Act.block
      [ .onLink l fun v => v.setCrossing n { v.crossing n with retraining := none }
      , .read fun s => .when ((s.links.get {} l).crossings.all fun e => e.2.retraining.isNone)
          (.each (linkPorts l) fun p => .when (s.portState p == stRetraining) (.setPort p stUp))
      , .unstick s l n ]).next s := by
  show execRetrainingLock l n s = _
  have hlate : ¬ c + 1600 < s.cycle := by omega
  simp only [execRetrainingLock, hc, hup, hlate, decide_false, Bool.or_self, Bool.false_eq_true, if_false,
    Act.unstick]

theorem retrainingLock_happens {s : State} {l : LinkId} {n c : Nat} (hl : linkExists l)
    (hc : ((s.links.get {} l).crossings.get {} n).retraining = some c) (hup : s.linkFailed l = false)
    (hin : s.cycle ≤ c + 1600) : Happens s (.retrainingLock l n) fun t =>
      ((t.links.get {} l).crossings.get {} n).retraining = none ∧
      ((∀ e ∈ (s.links.get {} l).crossings, e.1 ≠ n → e.2.retraining = none) →
        ∀ p ∈ linkPorts l, s.portState p = stRetraining → t.portState p = stUp) := by
  refine .of_next _ (exec_retrainingLock hc hup hin) ?_
  rw [Act.run_block_cons, Act.run_block_cons, Act.run_block_cons, Act.run_block_nil]
  obtain ⟨u, hu⟩ : ∃ u, u = (Act.onLink l fun v =>
    v.setCrossing n { v.crossing n with retraining := none }).run s := ⟨_, rfl⟩
  have hlink : u.links.get {} l =
      (s.links.get {} l).setCrossing n { (s.links.get {} l).crossing n with retraining := none } := by
    rw [hu, Act.run_onLink, State.apply_link, Store.get_put_same]
  have hstate : ∀ p, u.portState p = s.portState p := fun p => by rw [hu]; exact State.portState_of_regs rfl p
  rw [← hu, Act.run_read, Act.run_when]
  constructor
  · rw [(Act.unstick_keeps s hl n _ (q := (0, 0)) (by decide)).1]
    have hports : ((u.links.get {} l).crossings.get {} n).retraining = none := by
      rw [hlink, Link.setCrossing, Store.get_put_same]
    split
    · rw [(Act.setPorts_keeps _ _ _ _).1]; exact hports
    · exact hports
  · intro hothers p hp hs
    rw [(Act.unstick_keeps s hl n _ (linkPorts_lt hp)).2, hlink, if_pos (Link.all_locked hothers),
      State.portState_setPorts (by decide) _ _ _ _ fun q hq => linkPorts_exist hl hq,
      if_pos ⟨hp, by rw [hstate, hs]; rfl⟩]

theorem retrainingTimeout_happens {s : State} {l : LinkId} {n c : Nat} (hl : linkExists l)
    (hc : ((s.links.get {} l).crossings.get {} n).retraining = some c) (hup : s.linkFailed l = false)
    (hlate : c + 1600 ≤ s.cycle) : Happens s (.retrainingTimeout l n) fun t => LinkDown t l n := by
  have hexec : exec (.retrainingTimeout l n) s = (Act.linkFails l n).next s := by
    show execRetrainingTimeout l n s = _
    simp [execRetrainingTimeout, hc, hlate]
  exact .of_next _ hexec (Act.linkFails_down hl hup)

end Sys2Proof.Machine
end

section
/-!
CROSSING_TABLE_RESUME (R20): a request that waited for an entry of a link's table crosses.
-/
namespace Sys2Proof.Machine

/-! ### What becomes of a packet at a lane depends on links, lanes and a few registers alone -/

section
variable {s t : State} (hlanes : t.lanes = s.lanes) (hlinks : t.links = s.links)
  (hregs : ∀ d (r : RegName), r.off < 0x500 → t.reg d r = s.reg d r)

include hregs in
theorem State.portState_congr {p : DiePort} (hp : p.2 < 5) : t.portState p = s.portState p :=
  State.regField_congr (hregs _ _ (by show 0x0400 + 8 * p.2 < 0x500; omega)) 2 0

include hregs in
theorem State.sfw_congr {p : Nat} (hp : p < 5) (d hi lo : Nat) :
    t.regField d (.sfw p) hi lo = s.regField d (.sfw p) hi lo :=
  State.regField_congr (hregs _ _ (by show 0x0440 + 8 * p < 0x500; omega)) hi lo

include hregs in
theorem State.partOf_congr (d : Nat) : t.partOf d = s.partOf d := by
  have h : ∀ hi lo, t.regField d .partcfg hi lo = s.regField d .partcfg hi lo :=
    State.regField_congr (hregs d .partcfg (by decide))
  rw [State.partOf, State.partOf, h, h]

include hregs in
theorem State.seamClosed_congr (n : Nat) : t.seamClosed n = s.seamClosed n := by
  obtain ⟨h1, h2⟩ := seamSides_port_lt n
  simp only [State.seamClosed, State.sfw_congr hregs h1, State.sfw_congr hregs h2]

include hregs in
theorem State.sfwBit_congr (n bit : Nat) : t.sfwBit n bit = s.sfwBit n bit := by
  obtain ⟨h1, h2⟩ := seamSides_port_lt n
  simp only [State.sfwBit, State.sfw_congr hregs h1, State.sfw_congr hregs h2]

include hregs in
theorem State.linkUp_congr (l : LinkId) : t.linkUp l = s.linkUp l := by
  rw [Bool.eq_iff_iff, State.linkUp, State.linkUp, List.all_eq_true, List.all_eq_true]
  exact forall₂_congr fun p hp => by rw [State.portState_congr hregs (linkPorts_lt hp)]

include hregs in
theorem State.linkFailed_congr (l : LinkId) : t.linkFailed l = s.linkFailed l := by
  rw [Bool.eq_iff_iff, State.linkFailed, State.linkFailed, List.any_eq_true, List.any_eq_true]
  exact exists_congr fun p => and_congr_right fun hp => by rw [State.portState_congr hregs (linkPorts_lt hp)]

include hregs in
theorem State.transit_congr (n a b : Nat) : t.transit n a b = s.transit n a b := by
  simp only [State.transit, State.atSeam, State.partOf_congr hregs]

include hregs in
theorem State.seamLets_congr (n : Nat) (part : Option Nat) (a b : Nat) :
    t.seamLets n part a b = s.seamLets n part a b := by
  simp only [State.seamLets, State.partOf_congr hregs, State.transit_congr hregs, State.sfwBit_congr hregs]

include hlanes hlinks hregs in
theorem State.atLane_congr (l : LaneId) (p : Packet) : t.atLane l p = s.atLane l p := by
  simp only [State.atLane, State.laneRoom, State.laneHolds, State.tracks, Packet.transit, State.seamPasses, hlanes, hlinks,
    State.linkUp_congr hregs, State.linkFailed_congr hregs, State.seamClosed_congr hregs, State.sfwBit_congr hregs,
    State.transit_congr hregs, State.seamLets_congr hregs, State.sfw_congr hregs (p := 4) (by decide)] <;> rfl

end

/-- A packet crosses only on a lane on which nothing waits (R181). -/
theorem State.laneRoom_of_cross {s : State} {l : LaneId} {p : Packet} (h : s.atLane l p = .cross) :
    s.laneRoom l = true := by
  by_contra hroom
  rw [Bool.not_eq_true] at hroom
  simp only [State.atLane, hroom, Bool.not_false, Bool.true_or, if_true] at h
  split at h
  · split at h
    · cases h
    · split at h <;> cases h
  · iterate 5
      split at h
      · cases h
    cases h

theorem State.pend_of_laneRoom {s : State} {l : LaneId} (h : s.laneRoom l = true) : (s.lanes.get {} l).pend = [] :=
  eq_of_beq (Bool.and_eq_true_iff.mp h).2

/-! ### The grant -/

/-- The switch after its output port has been granted to a waiter (R182, R183). -/
def Act.grant (c : CellId) (out : Dir) (w : Waiter) (o : OutPort) (promoted : Bool) (now : Nat) : Act :=
  (Act.onNode c fun n =>
    { n.pop (w.inp, w.vc) now with ports := n.ports.put out { o with busyUntil := now + w.p.beats } }).seq
    (.when (promoted && isC c.die) (.onReg c.die (.dnwgt 1) fun v =>
      withField v 41 32 (((v.extractLsb' 32 10).toNat + 1) % 1024)))

theorem Act.run_hopAt {s : State} {c : CellId} {out : Dir} {w : Waiter} {o : OutPort} {promoted : Bool}
    (h : s.choose c out = some (w, o, promoted)) :
    (Act.hopAt c out).run s = (Act.sendPacket w).run ((Act.grant c out w o promoted s.cycle).run s) := by
  rw [Act.hopAt, Act.run_read, h]
  rfl

theorem Act.grant_keeps (s : State) (c : CellId) (out : Dir) (w : Waiter) (o : OutPort) (promoted : Bool) :
    ((Act.grant c out w o promoted s.cycle).run s).lanes = s.lanes ∧
    ((Act.grant c out w o promoted s.cycle).run s).links = s.links ∧
    ∀ d (r : RegName), r.off < 0x500 → ((Act.grant c out w o promoted s.cycle).run s).reg d r = s.reg d r := by
  rw [Act.grant, Act.run_seq, Act.run_when]
  split
  · refine ⟨by simp, by simp, fun d r hr => ?_⟩
    rw [Act.run_onReg, State.reg_apply_ne _ _ fun _ ho => ?_]
    · exact State.reg_of_regs (by simp) d r
    · have : r.off = 0x0808 := ho
      omega
  · exact ⟨by simp, by simp, fun d r _ => State.reg_of_regs (by simp) d r⟩

/-- A request that may cross takes its entry of the table, and its beats go on the lane. -/
theorem Act.sendPacket_crosses {s : State} {w : Waiter} {k : LaneId} {id : Nat} (hhop : w.hop = .lane k)
    (hcross : s.atLane k w.p = .cross) (hload : w.p.load = .request id) (htracked : w.p.tracked = true) :
    (((Act.sendPacket w).run s).links.get {} k.link).table =
      (s.links.get {} k.link).table ++ [{ req := id, up := k.up }] ∧
    (((Act.sendPacket w).run s).lanes.get {} k).buf.map (·.load) ++ (((Act.sendPacket w).run s).lanes.get {} k).pend =
      (s.lanes.get {} k).buf.map (·.load) ++ w.p.flits := by
  have hpend := State.pend_of_laneRoom (State.laneRoom_of_cross hcross)
  have hrun : (Act.sendPacket w).run s = (Act.putFlits k w.p.flits).run
      ((Act.onLink k.link fun v => { v with table := v.table ++ [{ req := id, up := k.up }] }).run s) := by
    simp only [Act.sendPacket, Act.run_read, hhop, hcross, Act.run_seq, Act.track, hload, htracked, Act.run_when_true]
  rw [hrun, Act.putFlits, Act.run_read, Act.run_onLane]
  constructor
  · simp
  · rw [State.apply_lane, Store.get_put_same, Lane.fill_loads]
    simp [hpend]

theorem State.tableWaiter_spec {s : State} {l : LinkId} {up : Bool} {e : CellId × Node} (h : s.tableWaiter l up = some e)
    {w : Waiter} {o : OutPort} {a : Bool} {k : LaneId}
    (hw : s.choose e.1 (laneDir { link := l, crossing := 0, cls := .dyn, up := up }) = some (w, o, a))
    (hhop : w.hop = .lane k) : w.p.tracked = true ∧ k.link = l ∧ k.up = up := by
  have hp := List.find?_some h
  simpa [hw, hhop, and_assoc] using (Bool.and_eq_true_iff.mp hp).2

theorem crossingTableResume_happens {s : State} {l : LinkId} {up : Bool} {e : CellId × Node} {w : Waiter} {o : OutPort}
    {a : Bool} {k : LaneId} {id : Nat} (he : s.tableWaiter l up = some e)
    (hw : s.choose e.1 (laneDir { link := l, crossing := 0, cls := .dyn, up := up }) = some (w, o, a))
    (hhop : w.hop = .lane k) (hcross : s.atLane k w.p = .cross) (hload : w.p.load = .request id) :
    Happens s (.crossingTableResume l up) fun t =>
      (t.links.get {} l).table = (s.links.get {} l).table ++ [{ req := id, up := up }] ∧
      (t.lanes.get {} k).buf.map (·.load) ++ (t.lanes.get {} k).pend =
        (s.lanes.get {} k).buf.map (·.load) ++ w.p.flits := by
  obtain ⟨htracked, hlink, hup⟩ := State.tableWaiter_spec he hw hhop
  have hexec : exec (.crossingTableResume l up) s =
      (Act.hopAt e.1 (laneDir { link := l, crossing := 0, cls := .dyn, up := up })).next s := by
    show execCrossingTableResume l up s = _
    rw [execCrossingTableResume, he]
  obtain ⟨hlanes, hlinks, hregs⟩ := Act.grant_keeps s e.1
    (laneDir { link := l, crossing := 0, cls := .dyn, up := up }) w o a
  have hsent := Act.sendPacket_crosses hhop ((State.atLane_congr hlanes hlinks hregs k w.p).trans hcross) hload htracked
  refine .of_next _ hexec ?_
  rw [Act.run_hopAt hw]
  rw [hlanes, hlinks, hlink, hup] at hsent
  exact hsent

end Sys2Proof.Machine
end

section
/-!
The statements of chapter 01 on links and on power (R9, R18-R21, R26, R27).
-/
namespace Sys2Proof.Machine

/-- Settles O49: each clause is the lemma about its event; a failure leaves the link down (`Act.linkFails_down`). -/
theorem linkEvents : Obligations.LinkEvents := by
  intro s
  refine ⟨fun l seq f hf hold hup hnak => ⟨fun ack inb => ?_, fun inb hseq hroom hends => ?_⟩,
    fun l i hl h hold hup => ?_, fun l n c hl hc hup => ⟨fun hin => ?_, fun hlate => ?_⟩,
    fun l up e w o a k id he hw hhop hcross hload => ?_, fun d p hp => ⟨?_, ?_⟩,
    fun d v hd => ⟨fun h hr => ?_, fun h => ?_⟩⟩
  · exact flitReceive_bad_happens hf hold hup hnak ack inb
  · exact flitReceive_inOrder_happens hf hold hup hnak hseq hroom hends inb
  · exact replays_happens hl h hold hup
  · exact retrainingLock_happens hl hc hup hin
  · exact retrainingTimeout_happens hl hc hup hlate
  · have h := crossingTableResume_happens he hw hhop hcross hload
    simpa only [Packet.flits, List.append_assoc] using h
  · exact seamstClr_happens s hp
  · exact seamstFailirqClear_happens s hp
  · exact modidWrite_good s hd h hr
  · exact modidWrite_bad s d h

/-- While the module is not ACTIVE, a patch whose wake has begun does not come on (R9, R27). -/
theorem exec_powerGateWake_not_active {s : State} (h : s.power.state ≠ .active) (d p : Nat) :
    exec (.powerGateWake d p) s = .next s := by
  show execPowerGateWake d p s = _
  unfold execPowerGateWake
  split
  · rfl
  · rw [beq_eq_false_iff_ne.mpr h, Bool.and_false]
    rfl

/-- A module in STANDBY with a patch whose wake began 1,600 cycles ago. -/
def wakingInStandby : State :=
  { State.reset with cycle := 1600, power := { state := .standby, patches := [((0, 0), { waking := some 0 })] } }

/-- Refutes O48: its clause on waking a patch admits every power state, and the model wakes one only in ACTIVE. In STANDBY
the event leaves `wakingInStandby` as it is, with the wake still under way. -/
theorem not_powerAndMonitors : ¬ Obligations.PowerAndMonitors := by
  intro h
  obtain ⟨hpatches, -⟩ := h wakingInStandby
  obtain ⟨-, -, hwake⟩ := hpatches 0 0
  have hstays := exec_powerGateWake_not_active (s := wakingInStandby) (by decide) 0 0
  obtain ⟨t, ht, ⟨hpatch, -⟩, -⟩ := hwake 0 (by decide) (by decide)
  rw [hstays] at ht
  cases ht
  exact absurd hpatch (by decide)

end Sys2Proof.Machine
end

section
/-!
SUPPORT. X-dies, their functions and tenants after a write, and counts that stop at their largest value.
-/
namespace Sys2Proof.Machine

section
variable (s : State) (x : Nat)

theorem State.xdie_of_xdies {s t : State} (h : t.xdies = s.xdies) (x : Nat) : t.xdie x = s.xdie x := by
  rw [State.xdie, State.xdie, h]

@[simp] theorem State.xdie_apply_same (v : XDie) : (s.apply (.xdie x v)).xdie x = v := by
  simp [State.xdie]

theorem State.xdie_apply_ne (v : XDie) {y : Nat} (h : y ≠ x) : (s.apply (.xdie x v)).xdie y = s.xdie y := by
  simp [State.xdie, Store.get_put_ne _ _ _ h]

theorem State.xdie_onXDie (f : XDie → XDie) : ((Act.onXDie x f).run s).xdie x = f (s.xdie x) :=
  s.xdie_apply_same x _

theorem State.xdie_onXDie_ne (f : XDie → XDie) {y : Nat} (h : y ≠ x) :
    ((Act.onXDie x f).run s).xdie y = s.xdie y :=
  s.xdie_apply_ne x _ h

theorem State.fn_onFn (f : Nat) (g : Fn → Fn) : ((Act.onFn x f g).run s).fn x f = g (s.fn x f) := by
  rw [State.fn, Act.onFn, State.xdie_onXDie]
  exact Store.get_put_same _ _ _ _

theorem State.fn_onFn_ne {f e : Nat} (g : Fn → Fn) (h : e ≠ f) : ((Act.onFn x f g).run s).fn x e = s.fn x e := by
  rw [State.fn, Act.onFn, State.xdie_onXDie]
  exact Store.get_put_ne _ _ _ h

theorem State.tenant_onTenant (k : Nat) (f : Tenant → Tenant) :
    ((Act.onTenant x k f).run s).tenant x k = f (s.tenant x k) := by
  rw [State.tenant, Act.onTenant, State.xdie_onXDie]
  exact Store.get_put_same _ _ _ _

end

theorem oneMore_of_max {w : Nat} {m : BitVec w} (h : m = BitVec.allOnes w) (n : BitVec w) :
    (if n = m then n else n + 1) = oneMore n := by
  rw [h, oneMore]

/-- A field of a double word is that of its number. -/
theorem bitField_toNat (v : DWord) (hi lo : Nat) : bitField v.toNat hi lo = fieldOf v hi lo := by
  rw [bitField, fieldOf, BitVec.extractLsb'_toNat, Nat.shiftRight_eq_div_pow]

theorem leNat_lt (b : List Byte) : leNat b < 256 ^ b.length := by
  induction b with
  | nil => decide
  | cons a r ih =>
    have ha : a.toNat < 256 := a.isLt
    rw [leNat, List.length_cons, Nat.pow_succ]
    omega

theorem recNat_lt (b : List Byte) (off n : Nat) : recNat b off n < 256 ^ n :=
  (leNat_lt _).trans_le (Nat.pow_le_pow_right (by decide) (List.length_take_le _ _))

end Sys2Proof.Machine
end

section
/-!
SUPPORT. The ordering point of an X-die when it holds one part alone: nothing is before it, so it is released (R53-R55).
-/
namespace Sys2Proof.Machine

/-- A part has been released as a request, and is the one that the X-die tracks. -/
structure Released (s t : State) (x : Nat) (p : InPart) : Prop where
  inbound : (t.xdie x).inbound = [{ p with released := true }]
  reqs : ∃ way, t.reqs = s.reqs ++ [{ p.request with way := way }]
  outbox : t.outbox = s.outbox
  mem : t.mem = s.mem

/-- The part of that number goes out as a request, and is tracked from now on. -/
def XDie.release (v : XDie) (id : Nat) : XDie :=
  { v with inbound := v.inbound.map fun q => if q.id = id then { q with released := true } else q }

section
variable {s : State} {x : Nat} {p : InPart}

theorem XDie.mayRelease_alone {v : XDie} (h : v.inbound = [p]) : v.mayRelease p = true := by
  have hbefore : v.before p = [] := by simp [XDie.before, h]
  unfold XDie.mayRelease
  rw [hbefore]
  cases p.kind <;> rfl

theorem Act.run_releaseParts_nil (h : (s.xdie x).inbound = []) : (Act.releaseParts x).run s = s := by
  rw [Act.releaseParts, Act.run_read, h]
  rfl

theorem Act.run_releaseParts_alone (h : (s.xdie x).inbound = [p]) :
    (Act.releaseParts x).run s = (Act.releaseOne x p.id).run s := by
  rw [Act.releaseParts, Act.run_read, h]
  rfl

theorem find?_id_alone {l : List InPart} (h : l = [p]) : (l.find? fun q => q.id == p.id) = some p := by
  simp [h]

theorem Act.run_releaseOne {c : CellId} (h : ((s.xdie x).inbound.find? fun q => q.id == p.id) = some p)
    (hrel : p.released = false) (hmay : (s.xdie x).mayRelease p = true) (hmail : p.mailbox = none)
    (hfate : p.fate = none) (hport : p.requester.port = some c) :
    (Act.releaseOne x p.id).run s = (Act.send c p.part 1 p.id p.goal).run
      (((Act.onXDie x fun v => v.release p.id).run s).apply
        (.reqs (s.reqs ++ [{ p.request with way := s.wayTo c p.part p.goal }]))) := by
  rw [Act.releaseOne, Act.run_read, h]
  simp only [hrel, hmay, hmail, hfate, hport]
  rfl

/-- A request sent: only the switch into which its packet goes changes. -/
theorem Act.send_frame (s : State) (c : CellId) (p vc id : Nat) (g : Goal) :
    (Act.send c p vc id g).run s = { s with nodes := ((Act.send c p vc id g).run s).nodes } := rfl

theorem Act.releaseParts_alone {c : CellId} (h : (s.xdie x).inbound = [p]) (hrel : p.released = false)
    (hmail : p.mailbox = none) (hfate : p.fate = none) (hport : p.requester.port = some c) :
    Released s ((Act.releaseParts x).run s) x p := by
  rw [Act.run_releaseParts_alone h,
    Act.run_releaseOne (find?_id_alone h) hrel (XDie.mayRelease_alone h) hmail hfate hport, Act.send_frame]
  refine ⟨?_, ⟨_, rfl⟩, rfl, rfl⟩
  show (((Act.onXDie x fun v => v.release p.id).run s).xdie x).inbound = _
  rw [State.xdie_onXDie, XDie.release, h]
  simp

theorem Act.takePart_alone {f : Nat → InPart} {c : CellId} (h : (s.xdie x).inbound = [])
    (hrel : (f s.nextId).released = false) (hmail : (f s.nextId).mailbox = none) (hfate : (f s.nextId).fate = none)
    (hport : (f s.nextId).requester.port = some c) :
    Released s ((Act.releaseParts x).run ((Act.takePart x f).run s)) x (f s.nextId) := by
  have htaken : (((Act.takePart x f).run s).xdie x).inbound = [f s.nextId] := by
    rw [Act.takePart, Act.run_fresh, State.xdie_onXDie, State.xdie_of_xdies (s := s) (by simp), h]
    rfl
  obtain ⟨hin, hreqs, hout, hmem⟩ := Act.releaseParts_alone htaken hrel hmail hfate hport
  exact ⟨hin, by simpa [Act.takePart] using hreqs, by simpa [Act.takePart] using hout, by simpa [Act.takePart] using hmem⟩

end

end Sys2Proof.Machine
end

section
/-!
RoCEv2 requests (R56, R57): a send, a request of one piece that its check lets pass, and one that it stops.
-/
namespace Sys2Proof.Machine

theorem XDie.roomFor_empty {v : XDie} (h : v.inbound = []) (r : Agent) : v.roomFor r 1 = true := by
  simp [XDie.roomFor, XDie.postedCount, XDie.postedOf, h]

section
variable {s : State} {x qp : Nat} {va : DWord} (hx : isX x = true) (hqp : qp < 4096)
include hx hqp

theorem exec_roceRequest_send {d : List Byte} (h : (s.xdie x).postedOf (.qp x qp) = 0) :
    exec (.roceRequest x qp va (.send d)) s = (Act.emit (.out (.roce x qp 0 d))).next s := by
  show execRoceRequest x qp va (.send d) s = _
  simp only [execRoceRequest, hx, hqp, h, decide_true, Bool.and_self, beq_self_eq_true]
  rfl

theorem exec_roceRequest_piece {op : PeerOp} (hone : rocePieces va op = [(va, op)]) (hsend : ∀ d, op ≠ .send d)
    (h : (s.xdie x).inbound = []) :
    exec (.roceRequest x qp va op) s = ((Act.rocePart x qp va op).seq (.releaseParts x)).next s := by
  show execRoceRequest x qp va op s = _
  simp only [execRoceRequest, hone, hx, hqp, decide_true, Bool.and_self]
  cases op with
  | send d => exact absurd rfl (hsend d)
  | store d => rw [List.length_singleton, XDie.roomFor_empty h]; rfl
  | load n => rfl
  | atomic a => rfl

end

section
variable {s : State} {x qp : Nat} {va : DWord} {op : PeerOp}

theorem State.peerCheck_va {e : Option Nat} {f : Nat → DWord} {a : DWord} {asid : BitVec 16} {p vd : Nat}
    (h : s.peerCheck x e f op = .ok a asid p vd) : ∃ i, a = f i := by
  unfold State.peerCheck at h
  split at h
  · cases h
  rename_i i
  dsimp only at h
  split at h
  · cases h
  split at h
  · cases h
  split at h
  · cases h
  refine ⟨i, ?_⟩
  split at h
  · split at h
    · cases h; rfl
    · cases h
  · cases h; rfl

/-- The part of a piece that passed its check. -/
def rocePartOf (s : State) (x qp : Nat) (va : DWord) (op : PeerOp) (asid : BitVec 16) (p vd id : Nat) : InPart :=
  { id := id, requester := .qp x qp, kind := peerKind op, route := s.routeOf p va, goal := .mem va (peerMemOp op)
    asid := some asid, vd := vd, part := p }

theorem Act.run_rocePart_ok {a : DWord} {asid : BitVec 16} {p vd : Nat}
    (h : s.peerCheck x (s.exportVa x va.toNat (peerSize op)) (fun _ => va) op = .ok a asid p vd) :
    (Act.rocePart x qp va op).run s = (Act.takePart x (rocePartOf s x qp va op asid p vd)).run s := by
  obtain ⟨_, rfl⟩ := State.peerCheck_va h
  rw [Act.rocePart, Act.run_read, h]
  rfl

theorem Act.run_rocePart_bad {st : Nat} (hin : (s.xdie x).inbound = [])
    (h : s.peerCheck x (s.exportVa x va.toNat (peerSize op)) (fun _ => va) op = .bad st) :
    (Act.rocePart x qp va op).run s = s.apply (.out (.roce x qp st [])) := by
  rw [Act.rocePart, Act.run_read, h, hin]
  simp only [List.any_nil, Bool.and_false]
  rfl

end

section
variable {s : State} {x qp : Nat} {va : DWord} {op : PeerOp} (hx : isX x = true) (hqp : qp < 4096)
  (hone : rocePieces va op = [(va, op)]) (hsend : ∀ d, op ≠ .send d) (hin : (s.xdie x).inbound = [])
include hx hqp hone hsend hin

theorem roceRequest_taken {a : DWord} {asid : BitVec 16} {p vd : Nat}
    (h : s.peerCheck x (s.exportVa x va.toNat (peerSize op)) (fun _ => va) op = .ok a asid p vd) :
    Happens s (.roceRequest x qp va op) fun t => ∃ q r, (t.xdie x).inbound = [q] ∧ q.released = true ∧
      t.reqs = s.reqs ++ [r] ∧ r.id = s.nextId ∧ r.agent = .qp x qp ∧ r.goal = .mem va (peerMemOp op) ∧
      r.asid = some asid ∧ r.part = p ∧ r.vd = vd ∧ r.st = .net ∧ t.mem = s.mem := by
  refine .of_next _ (exec_roceRequest_piece hx hqp hone hsend hin) ?_
  rw [Act.run_seq, Act.run_rocePart_ok h]
  obtain ⟨hinb, ⟨way, hreqs⟩, -, hmem⟩ := Act.takePart_alone (f := rocePartOf s x qp va op asid p vd) hin rfl rfl rfl rfl
  exact ⟨_, _, hinb, rfl, hreqs, rfl, rfl, rfl, rfl, rfl, rfl, rfl, hmem⟩

theorem roceRequest_stopped {st : Nat}
    (h : s.peerCheck x (s.exportVa x va.toNat (peerSize op)) (fun _ => va) op = .bad st) :
    Happens s (.roceRequest x qp va op) fun t => t = { s with outbox := s.outbox ++ [.roce x qp st []] } := by
  refine .of_next _ (exec_roceRequest_piece hx hqp hone hsend hin) ?_
  have hstop := Act.run_rocePart_bad (qp := qp) hin h
  rw [Act.run_seq, hstop, Act.run_releaseParts_nil (by rw [State.xdie_of_xdies (s := s) (by simp), hin])]
  rfl

end

end Sys2Proof.Machine
end

section
/-!
Launch frames at their X-die and at their home, the rate bucket, the drop counters, the tenant table (R58-R62).
-/
namespace Sys2Proof.Machine

/-! ### Dropped frames -/

theorem Act.run_dropFrame (s : State) (x n : Nat) (b : List Byte) : (Act.dropFrame x n b).run s =
    (Act.when (decide (2 ≤ n)) (.onTenant x (frameTenant b) Tenant.drop)).run
      ((Act.onXDie x fun v => { v with lfdrop := v.lfdrop.put n (oneMore (v.lfdrop.get 0 n)) }).run s) := rfl

theorem Tenant.drop_count (t : Tenant) :
    bitField (t.drop.word 0) 31 16 = min 0xFFFF (bitField (t.word 0) 31 16 + 1) := by
  have hword : t.drop.word 0 = (withField (t.words.get 0 0) 31 16 (min 0xFFFF (bitField (t.word 0) 31 16 + 1))).toNat := by
    simp [Tenant.word, Tenant.drop]
  rw [hword, bitField_toNat, fieldOf_withField_same _ _ (by omega) (by omega)]
  exact Nat.mod_eq_of_lt (by omega)

/-- Of a frame that is dropped, the counter of its check is left, and that of its tenant once it is known. -/
structure FrameDropped (s t : State) (x n : Nat) (b : List Byte) : Prop where
  frame : t = { s with xdies := t.xdies }
  count : (t.xdie x).lfdrop.get 0 n = oneMore ((s.xdie x).lfdrop.get 0 n)
  frames : (t.xdie x).frames = (s.xdie x).frames
  tenant : 2 ≤ n → bitField ((t.tenant x (frameTenant b)).word 0) 31 16 =
    min 0xFFFF (bitField ((s.tenant x (frameTenant b)).word 0) 31 16 + 1)

theorem Act.dropFrame_drops (s : State) (x n : Nat) (b : List Byte) :
    FrameDropped s ((Act.dropFrame x n b).run s) x n b := by
  rw [Act.run_dropFrame]
  by_cases hn : 2 ≤ n
  · rw [decide_eq_true hn, Act.run_when_true]
    refine ⟨rfl, ?_, ?_, fun _ => ?_⟩
    · rw [Act.onTenant, State.xdie_onXDie, State.xdie_onXDie]
      exact Store.get_put_same _ _ _ _
    · rw [Act.onTenant, State.xdie_onXDie, State.xdie_onXDie]
    · rw [State.tenant_onTenant, Tenant.drop_count, State.tenant, State.xdie_onXDie]
      rfl
  · rw [decide_eq_false hn, Act.run_when_false]
    refine ⟨rfl, ?_, ?_, fun h => absurd h hn⟩
    · rw [State.xdie_onXDie]
      exact Store.get_put_same _ _ _ _
    · rw [State.xdie_onXDie]

/-! ### The first five checks -/

section
variable {s : State} {x : Nat} {b : List Byte}

theorem exec_launchFrame_fails (hx : isX x = true) {n : Nat} (h : s.frameFails x b = some n) :
    exec (.launchFrame x b) s = (Act.dropFrame x n b).next s := by
  show execLaunchFrame x b s = _
  rw [execLaunchFrame, hx, h]
  rfl

theorem exec_launchFrame_passes (hx : isX x = true) (h : s.frameFails x b = none) :
    exec (.launchFrame x b) s = (Act.onXDie (s.hostX (s.tenant x (frameTenant b)).part) fun v =>
      { v with frames := v.frames ++ [b] }).next s := by
  show execLaunchFrame x b s = _
  rw [execLaunchFrame, hx, h]
  rfl

theorem launchFrame_dropped (hx : isX x = true) {n : Nat} (h : s.frameFails x b = some n) :
    Happens s (.launchFrame x b) fun t => FrameDropped s t x n b :=
  .of_next _ (exec_launchFrame_fails hx h) (Act.dropFrame_drops s x n b)

theorem launchFrame_passed (hx : isX x = true) (h : s.frameFails x b = none) :
    Happens s (.launchFrame x b) fun t => t = { s with xdies := t.xdies } ∧
      (t.xdie (s.hostX (s.tenant x (frameTenant b)).part)).frames =
        (s.xdie (s.hostX (s.tenant x (frameTenant b)).part)).frames ++ [b] :=
  .of_next _ (exec_launchFrame_passes hx h) ⟨rfl, by rw [State.xdie_onXDie]⟩

theorem frameFails_zero (h : b.length < 48 ∨ s.featOn featEthlaunch = false) : s.frameFails x b = some 0 := by
  rcases h with h | h <;> simp [State.frameFails, h]

theorem frameFails_tag (hlen : b.length = 48 + 4 * frameNscal b) (hfeat : s.featOn featEthlaunch = true)
    (hmagic : recNat b 0 2 = 0x5A47) (hversion : recNat b 2 1 = 1) (hflags : recNat b 3 1 = 0)
    (hscal : frameNscal b ≤ 32) (htenant : frameTenant b < 4096) (hen : (s.tenant x (frameTenant b)).en = true)
    (htag : (leBytes 32 (hmacSha256 (s.tenant x (frameTenant b)).key (b.take (32 + 4 * frameNscal b))).toNat).take 16 ≠
      b.drop (32 + 4 * frameNscal b)) : s.frameFails x b = some 2 := by
  have hshort : ¬ b.length < 48 := by omega
  have hlong : ¬ 32 < frameNscal b := by omega
  have hknown : ¬ 4096 ≤ frameTenant b := by omega
  have hne := bne_iff_ne.mpr htag
  unfold State.frameFails
  simp only [hfeat, hlen, hmagic, hversion, hflags, hen, hne, decide_eq_false hlong, hknown]
  rw [← hlen]
  simp [hshort]

end

/-! ### The last two checks, at the tenant's home -/

/-- What a frame that passes all checks takes from its tenant. -/
def Tenant.charge (t : Tenant) (seq : Nat) : Tenant :=
  { t with words := t.words.put 1 (withField (t.words.get 0 1) 63 32 seq), bucket := t.bucket - 1 }

theorem Tenant.charge_lastSeq (t : Tenant) {seq : Nat} (h : seq < 2 ^ 32) : (t.charge seq).lastSeq = seq := by
  have hword : (t.charge seq).word 1 = (withField (t.words.get 0 1) 63 32 seq).toNat := by
    simp [Tenant.word, Tenant.charge]
  rw [Tenant.lastSeq, hword, bitField_toNat, fieldOf_withField_same _ _ (by omega) (by omega)]
  exact Nat.mod_eq_of_lt h

/-- The launch that a frame asks for (R58, R60). -/
def frameLaunch (s : State) (x : Nat) (b : List Byte) : Launch :=
  let t := s.tenant x (frameTenant b)
  let reply : DWord := BitVec.ofNat 64 (recNat b 24 8)
  { recAddr := BitVec.ofNat 64 (frameRecord b)
    reply := if s.canonical x t.part reply && aligned reply.toNat 128 then reply else 0
    issuer := .host x, overrides := wordsOf (b.drop 32) (frameNscal b)
    asid := s.vdAsid t.part t.vd, part := t.part, vd := t.vd, hostSeq := BitVec.ofNat 32 (recNat b 8 4) }

/-- The check stage takes its oldest frame. -/
def Act.takeFrame (x : Nat) : Act := .onXDie x fun v => { v with frames := v.frames.drop 1 }

section
variable {s : State} {x : Nat} {b : List Byte} {rest : List (List Byte)} (h : (s.xdie x).frames = b :: rest)
include h

theorem exec_launchFrameHomeCheck : exec (.launchFrameHomeCheck x) s = ((Act.takeFrame x).seq
    (if recNat b 8 4 ≤ (s.tenant x (frameTenant b)).lastSeq then .dropFrame x 5 b
     else if (s.tenant x (frameTenant b)).bucket = 0 ∨ (s.tenant x (frameTenant b)).rate = 0 then .dropFrame x 6 b
     else (Act.onTenant x (frameTenant b) fun t => t.charge (recNat b 8 4)).seq
      (.fresh fun n => .emit (.launch n (some (frameLaunch s x b)))))).next s := by
  show execLaunchFrameHomeCheck x s = _
  rw [execLaunchFrameHomeCheck, h]
  rfl

theorem takeFrame_frames : (((Act.takeFrame x).run s).xdie x).frames = rest := by
  rw [Act.takeFrame, State.xdie_onXDie, h]
  rfl

theorem takeFrame_dropped (n : Nat) : let t := (Act.dropFrame x n b).run ((Act.takeFrame x).run s)
    (t.xdie x).frames = rest ∧ t.mem = s.mem ∧ t.launches = s.launches ∧
      (t.xdie x).lfdrop.get 0 n = oneMore ((s.xdie x).lfdrop.get 0 n) := by
  obtain ⟨hframe, hcount, hframes, -⟩ := Act.dropFrame_drops ((Act.takeFrame x).run s) x n b
  refine ⟨hframes.trans (takeFrame_frames h), by rw [hframe]; rfl, by rw [hframe]; rfl, hcount.trans ?_⟩
  rw [Act.takeFrame, State.xdie_onXDie]

theorem launchFrameHomeCheck_happens : Happens s (.launchFrameHomeCheck x) fun t =>
    (t.xdie x).frames = rest ∧ t.mem = s.mem ∧
      (recNat b 8 4 ≤ (s.tenant x (frameTenant b)).lastSeq →
        t.launches = s.launches ∧ (t.xdie x).lfdrop.get 0 5 = oneMore ((s.xdie x).lfdrop.get 0 5)) ∧
      ((s.tenant x (frameTenant b)).lastSeq < recNat b 8 4 →
        (s.tenant x (frameTenant b)).bucket = 0 ∨ (s.tenant x (frameTenant b)).rate = 0 →
        t.launches = s.launches ∧ (t.xdie x).lfdrop.get 0 6 = oneMore ((s.xdie x).lfdrop.get 0 6)) ∧
      ((s.tenant x (frameTenant b)).lastSeq < recNat b 8 4 → (s.tenant x (frameTenant b)).bucket ≠ 0 →
        (s.tenant x (frameTenant b)).rate ≠ 0 → (t.tenant x (frameTenant b)).lastSeq = recNat b 8 4 ∧
        (t.tenant x (frameTenant b)).bucket = (s.tenant x (frameTenant b)).bucket - 1 ∧
        t.launches = s.launches.put s.nextId (frameLaunch s x b)) := by
  refine .of_next _ (exec_launchFrameHomeCheck h) ?_
  rw [Act.run_seq]
  split
  · rename_i hseq
    obtain ⟨hframes, hmem, hlaunches, hcount⟩ := takeFrame_dropped h 5
    exact ⟨hframes, hmem, fun _ => ⟨hlaunches, hcount⟩, fun hlt => by omega, fun hlt => by omega⟩
  rename_i hseq
  split
  · rename_i hempty
    obtain ⟨hframes, hmem, hlaunches, hcount⟩ := takeFrame_dropped h 6
    exact ⟨hframes, hmem, fun hle => absurd hle hseq, fun _ _ => ⟨hlaunches, hcount⟩,
      fun _ hb hr => absurd hempty (by simp [hb, hr])⟩
  · rename_i hfull
    have htenant : ((Act.onTenant x (frameTenant b) fun t => t.charge (recNat b 8 4)).run
        ((Act.takeFrame x).run s)).tenant x (frameTenant b) =
        (s.tenant x (frameTenant b)).charge (recNat b 8 4) := by
      rw [State.tenant_onTenant, State.tenant, Act.takeFrame, State.xdie_onXDie, State.tenant]
    have hframes := takeFrame_frames h
    refine ⟨?_, rfl, fun hle => absurd hle hseq, fun _ he => absurd he hfull, fun _ _ _ => ⟨?_, ?_, rfl⟩⟩
    · show (((Act.onTenant x (frameTenant b) fun t => t.charge (recNat b 8 4)).run
        ((Act.takeFrame x).run s)).xdie x).frames = rest
      rw [Act.onTenant, State.xdie_onXDie, hframes]
    · exact (congrArg Tenant.lastSeq htenant).trans (Tenant.charge_lastSeq _ (recNat_lt b 8 4))
    · exact congrArg Tenant.bucket htenant

end

/-! ### The bucket, the counters, the table -/

section
variable {s : State} {x : Nat} (hx : isX x = true)
include hx

theorem tenantBucketRefill_happens {k : Nat} (hk : k < 4096)
    (hdue : (s.tenant x k).refilled + 1000 * usCycles ≤ s.cycle) :
    Happens s (.tenantBucketRefill x k) fun t => t = { s with xdies := t.xdies } ∧ t.tenant x k =
      { s.tenant x k with
        bucket := min (s.tenant x k).burst ((s.tenant x k).bucket + (s.tenant x k).rate), refilled := s.cycle } := by
  have hexec : exec (.tenantBucketRefill x k) s = (Act.onTenant x k fun t =>
      { t with bucket := min t.burst (t.bucket + t.rate), refilled := s.cycle }).next s := by
    show execTenantBucketRefill x k s = _
    rw [execTenantBucketRefill, hx, decide_eq_true hk, decide_eq_true hdue]
    rfl
  exact .of_next _ hexec ⟨rfl, State.tenant_onTenant _ _ _ _⟩

theorem lfdropClr_happens {n : Nat} (hn : n < 7) :
    Happens s (.lfdropClr x n) fun t => t = { s with xdies := t.xdies } ∧ (t.xdie x).lfdrop.get 0 n = 0 ∧
      ∀ k, k ≠ n → (t.xdie x).lfdrop.get 0 k = (s.xdie x).lfdrop.get 0 k := by
  have hexec : exec (.lfdropClr x n) s = (Act.lfdropClr x n).next s := by
    show execLfdropClr x n s = _
    rw [execLfdropClr, hx, decide_eq_true hn]
    rfl
  refine .of_next _ hexec ⟨rfl, ?_, fun k hk => ?_⟩
  · rw [Act.lfdropClr, State.xdie_onXDie]
    exact Store.get_put_same _ _ _ _
  · rw [Act.lfdropClr, State.xdie_onXDie]
    exact Store.get_put_ne _ _ _ hk

end

/-- The words of an entry that TNENT0 commits: DROPS stays, the other words are those held for it. -/
def XDie.tenantWord (d : XDie) (v : DWord) (j : Nat) : DWord :=
  let t := d.tenants.get {} d.tnsel
  (if j = 0 then withField v 31 16 (bitField (t.word 0) 31 16) else d.tnHeld.get (t.words.get 0 j) j) &&& tenantBits j

/-- The X-die after TNENT0 has been committed. -/
def XDie.tenantCommitted (d : XDie) (v : DWord) : XDie :=
  { d with
    tnHeld := []
    tenants := d.tenants.put d.tnsel
      { d.tenants.get {} d.tnsel with words := (List.range 8).map fun j => (j, d.tenantWord v j) } }

/-- An enabled entry names a partition that the X-die serves (R61). -/
def tenantServed (s : State) (x : Nat) (d : DWord) : Prop :=
  d.getLsbD 15 = false ∨
    ((d.extractLsb' 10 5).toNat < 24 ∧ s.regField x (.xpart (d.extractLsb' 10 5).toNat) 63 63 = 1)

theorem tenantRefused_iff (s : State) (x : Nat) (d : DWord) :
    (d.getLsbD 15 && !(decide ((d.extractLsb' 10 5).toNat < 24) &&
      s.regField x (.xpart (d.extractLsb' 10 5).toNat) 63 63 == 1)) = true ↔ ¬ tenantServed s x d := by
  unfold tenantServed
  cases d.getLsbD 15 <;> simp [imp_iff_not_or]

theorem XDie.tenantCommitted_word (d : XDie) (v : DWord) {j : Nat} (hj : j < 8) :
    ((d.tenantCommitted v).tenants.get {} d.tnsel).word j = (d.tenantWord v j).toNat := by
  rw [XDie.tenantCommitted, Store.get_put_same, Tenant.word]
  interval_cases j <;> rfl

/-- A field of word 0 within the bits that the entry holds. -/
theorem XDie.bitField_tenantWord (d : XDie) (v : DWord) {hi lo : Nat}
    (hm : (tenantBits 0).extractLsb' lo (hi + 1 - lo) = BitVec.allOnes _) :
    bitField (d.tenantWord v 0).toNat hi lo =
      fieldOf (withField v 31 16 (bitField ((d.tenants.get {} d.tnsel).word 0) 31 16)) hi lo := by
  rw [bitField_toNat, XDie.tenantWord, fieldOf_and _ _ hm]
  rfl

theorem XDie.tenantWord_low (d : XDie) (v : DWord) : (d.tenantWord v 0).toNat % 2 ^ 16 = v.toNat % 2 ^ 16 := by
  have hlow := d.bitField_tenantWord v (hi := 15) (lo := 0) (by decide)
  rw [fieldOf_withField_other _ _ (by omega) (by omega) (by omega) (by omega), ← bitField_toNat] at hlow
  simpa [bitField] using hlow

theorem XDie.tenantWord_drops (d : XDie) (v : DWord) :
    bitField (d.tenantWord v 0).toNat 31 16 = bitField ((d.tenants.get {} d.tnsel).word 0) 31 16 := by
  rw [d.bitField_tenantWord v (by decide), fieldOf_withField_same _ _ (by omega) (by omega)]
  exact Nat.mod_mod _ _

theorem XDie.tenantWord_held (d : XDie) (v : DWord) {j : Nat} (h : 0 < j) :
    d.tenantWord v j = d.tnHeld.get ((d.tenants.get {} d.tnsel).words.get 0 j) j &&& tenantBits j := by
  rw [XDie.tenantWord, if_neg (by omega)]

section
variable {s : State} {x : Nat} (hx : isX x = true)
include hx

theorem exec_tnentCommit (d : DWord) : exec (.tnentCommit x d) s = (Act.tnentCommit x d).next s := by
  show execTnentCommit x d s = _
  rw [execTnentCommit, hx]
  rfl

theorem tnentCommit_refused {d : DWord} (h : ¬ tenantServed s x d) : Happens s (.tnentCommit x d) fun t => t = s := by
  refine .of_next _ (exec_tnentCommit hx d) ?_
  rw [Act.tnentCommit, Act.run_read]
  dsimp only
  rw [(tenantRefused_iff s x d).mpr h, Bool.not_true, Bool.and_false, Act.run_when_false]

theorem tnentCommit_committed {d : DWord} (hfeat : s.featOn featEthlaunch = true) (h : tenantServed s x d) :
    Happens s (.tnentCommit x d) fun t => t = { s with xdies := t.xdies } ∧
      t.xdie x = (s.xdie x).tenantCommitted d := by
  refine .of_next _ (exec_tnentCommit hx d) ?_
  have hgood := Bool.eq_false_iff.mpr ((not_congr (tenantRefused_iff s x d)).mpr (not_not.mpr h))
  rw [Act.tnentCommit, Act.run_read]
  dsimp only
  rw [hgood, hfeat, Bool.not_false, Bool.and_true, Act.run_when_true, State.xdie_onXDie]
  exact ⟨rfl, rfl⟩

end

/-- Settles O53: each clause is the lemma about its event. -/
theorem ethernetEvents : Obligations.EthernetEvents := by
  intro s x hx
  refine ⟨fun qp va hqp => ⟨fun d hfree => ?_, fun op a asid p vd hone hsend hin hcheck => ?_,
      fun op st hone hsend hin hcheck => ?_⟩,
    fun b => ⟨fun n hfails => ?_, fun hpass => ?_, fun h => ?_, fun hlen hfeat hmagic hversion hflags hscal htenant hen htag => ?_⟩,
    fun b rest hframes => ?_, fun k hk hdue => ?_, fun n hn => ?_, fun d hfeat => ⟨fun hgood => ?_, fun hbad => ?_⟩⟩
  · exact .of_next _ (exec_roceRequest_send hx hqp hfree) rfl
  · exact roceRequest_taken hx hqp hone hsend hin hcheck
  · exact roceRequest_stopped hx hqp hone hsend hin hcheck
  · obtain ⟨t, ht, hframe, hcount, hrest, htenant⟩ := launchFrame_dropped hx hfails
    exact ⟨t, ht, hframe, hcount, hrest, htenant⟩
  · exact launchFrame_passed hx hpass
  · exact frameFails_zero h
  · exact frameFails_tag hlen hfeat hmagic hversion hflags hscal htenant hen htag
  · obtain ⟨t, ht, hrest, hmem, hseq, hrate, hlaunch⟩ := launchFrameHomeCheck_happens hframes
    refine ⟨t, ht, hrest, hmem, hseq, hrate, fun hlt hb hr => ?_⟩
    obtain ⟨hlast, hbucket, hput⟩ := hlaunch hlt hb hr
    exact ⟨hlast, hbucket, _, hput, rfl, rfl, rfl, rfl, rfl, rfl⟩
  · exact tenantBucketRefill_happens hx hk hdue
  · exact lfdropClr_happens hx hn
  · obtain ⟨t, ht, hframe, hxdie⟩ := tnentCommit_committed hx hfeat hgood
    have hword : ∀ j < 8, (t.tenant x (s.xdie x).tnsel).word j = ((s.xdie x).tenantWord d j).toNat := fun j hj => by
      rw [State.tenant, hxdie, XDie.tenantCommitted_word _ _ hj]
    refine ⟨t, ht, hframe, by rw [hxdie]; rfl, ?_, ?_, fun j hpos hj => ?_, ?_, fun k hk => ?_⟩
    · rw [hword 0 (by decide), XDie.tenantWord_low]
    · rw [hword 0 (by decide), XDie.tenantWord_drops]
      rfl
    · rw [hword j hj, XDie.tenantWord_held _ _ hpos]
      rfl
    · rw [State.tenant, hxdie, XDie.tenantCommitted, Store.get_put_same]
      rfl
    · rw [State.tenant, hxdie, XDie.tenantCommitted, Store.get_put_ne _ _ _ hk]
      rfl
  · exact tnentCommit_refused hx hbad

end Sys2Proof.Machine
end

section
/-!
A CANCEL over a launch store that lists a number twice (R39, R112).
-/
namespace Sys2Proof.Machine

/-- A launch of VD 0 of partition 0 that is completing: one level, one team, one cell. -/
def completingLaunch : Launch :=
  { recAddr := 0x40000, reply := 0, issuer := .host 24, part := 0, vd := 0, st := .completing
    copy := List.replicate 10 0 ++ [1] ++ List.replicate 245 0 ++ leBytes 8 (1 + 2 ^ 24 + 2 ^ 46 + 2 ^ 54) }

/-- Launch 0 is completing; a second entry under its number, with another record, is queued. Slot 0 of VF 0 of X-die 24
holds a CANCEL of launch 0; partition 0 is die 0, on which VD 0 is enabled. -/
def twiceListed : State :=
  { State.reset with
    regs := [((0, RegName.partcfg.off), 0x300), ((0, (RegName.dmap 0).off), 0x800000),
      ((0, (RegName.vdcfg 0).off), 0x100000001)]
    launches := [(0, completingLaunch), (0, { completingLaunch with st := .queued, recAddr := 0x50000 })]
    xdies := [(24, { fns :=
      [(0, { en := true, busy := 1, slots := [(0, leBytes 4 2 ++ leBytes 4 0 ++ leBytes 8 0x40000)] })] })] }

/-- The message is a CANCEL in order, and names the record of launch 0. -/
theorem twiceListed_message : (twiceListed.fn 24 0).busy.getLsbD 0 = true ∧ msgType ((twiceListed.fn 24 0).slot 0) = 2 ∧
    msgZero ((twiceListed.fn 24 0).slot 0) 24 = true ∧ aligned (msgReply ((twiceListed.fn 24 0).slot 0)) 64 = true ∧
    completingLaunch.part = twiceListed.fnPart 24 0 ∧
    completingLaunch.recAddr = BitVec.ofNat 64 (msgArg ((twiceListed.fn 24 0).slot 0)) := by decide +kernel

/-- CANCEL leaves a launch that is completing alone; the selection after it then finds the second entry eligible, and
begins the launch under its number. -/
theorem twiceListed_after : ∃ t, exec (.msgCancel 24 0 0 true) twiceListed = .next t ∧
    (t.launches.get? 0).map (fun l => (l.st, l.killAfter)) = some (.placing, false) :=
  ⟨_, rfl, by decide +kernel⟩

/-- Refutes O51: its clause on CANCEL admits a launch store that lists a number twice. In `twiceListed` a launch of the
record that was completing is being placed after the event. -/
theorem not_mailboxAndWindows : ¬ Obligations.MailboxAndWindows := by
  intro h
  obtain ⟨-, hmessages, -⟩ := h twiceListed 24 0 (by decide) (by decide)
  obtain ⟨hbusy, htype, hzero, halign, hpart, hrec⟩ := twiceListed_message
  obtain ⟨-, hcancel, -⟩ := hmessages 0 (by decide) hbusy
  obtain ⟨t, ht, -, hends⟩ := hcancel htype (by decide) hzero halign
  obtain ⟨u, hu, hstate⟩ := twiceListed_after
  cases ht.symm.trans hu
  obtain ⟨l, hl, hended⟩ := hends 0 completingLaunch rfl hpart rfl hrec (by decide)
  rw [hl, Option.map_some, Option.some.injEq, Prod.mk.injEq] at hstate
  obtain ⟨hst, hkill⟩ := hstate
  rw [hst, hkill] at hended
  exact absurd hended (by decide)

end Sys2Proof.Machine
end

section
/-!
SUPPORT. Requests looked up by number, the answer to one, messages sent outside one after the other.
-/
namespace Sys2Proof.Machine

theorem State.reqOf_of_reqs {s t : State} (h : t.reqs = s.reqs) (id : Nat) : t.reqOf id = s.reqOf id := by
  rw [State.reqOf, State.reqOf, h]

theorem State.reqOf_id {s : State} {id : Nat} {q : Req} (h : s.reqOf id = some q) : q.id = id :=
  eq_of_beq (List.find?_some (p := fun r : Req => r.id == id) h)

/-- Every request rewritten, each under its own number. -/
theorem State.reqOf_map {s t : State} {f : Req → Req} (h : t.reqs = s.reqs.map f) (hf : ∀ r, (f r).id = r.id)
    (id : Nat) : t.reqOf id = (s.reqOf id).map f := by
  have hp : ((fun r : Req => r.id == id) ∘ f) = fun r => r.id == id := funext fun r => by simp [hf]
  rw [State.reqOf, State.reqOf, h, List.find?_map, hp]

theorem State.reqOf_onReq (s : State) {k : Nat} {f : Req → Req} (hf : ∀ r, (f r).id = r.id) (id : Nat) :
    ((Act.onReq k f).run s).reqOf id = (s.reqOf id).map fun r => if r.id = k then f r else r :=
  State.reqOf_map rfl (fun r => by split <;> simp [hf]) id

theorem State.reqOf_onReq_same {s : State} {id : Nat} {f : Req → Req} (hf : ∀ r, (f r).id = r.id) {q : Req}
    (h : s.reqOf id = some q) : ((Act.onReq id f).run s).reqOf id = some (f q) := by
  rw [State.reqOf_onReq s hf, h, Option.map_some, if_pos (State.reqOf_id h)]

theorem State.reqOf_onReq_ne (s : State) {k id : Nat} {f : Req → Req} (hf : ∀ r, (f r).id = r.id) (h : id ≠ k) :
    ((Act.onReq k f).run s).reqOf id = s.reqOf id := by
  rw [State.reqOf_onReq s hf]
  cases hq : s.reqOf id with
  | none => rfl
  | some q => rw [Option.map_some, if_neg fun hk => h ((State.reqOf_id hq).symm.trans hk)]

/-- A response changes the switch at its home alone. -/
theorem Act.respond_frame (s : State) (q : Req) (l : Load) (beats : Nat) :
    (Act.respond q l beats).run s = { s with nodes := ((Act.respond q l beats).run s).nodes } := by
  unfold Act.respond
  split <;> rfl

theorem Act.run_answer (s : State) (q : Req) (bytes : List Byte) (code : Nat) : (Act.answer q bytes code).run s =
    (Act.respond q (.response q.id) (answerBeats bytes)).run
      ((Act.performed q bytes code q.agent.port.isNone).run s) := rfl

/-- Of an answer, the requests and the switches are left. -/
theorem Act.answer_frame (s : State) (q : Req) (bytes : List Byte) (code : Nat) : (Act.answer q bytes code).run s =
    { s with reqs := ((Act.answer q bytes code).run s).reqs, nodes := ((Act.answer q bytes code).run s).nodes } := by
  rw [Act.run_answer, Act.respond_frame]
  rfl

theorem Act.performed_answered {s : State} {q r : Req} (h : s.reqOf q.id = some r) (bytes : List Byte) (code : Nat)
    (back : Bool) : Answered ((Act.performed q bytes code back).run s) q.id bytes code :=
  ⟨_, State.reqOf_onReq_same (id := q.id) (f := fun r =>
    { r with st := .performed (bytesVec bytes) code, back := r.back || back, owed := false, resp := bytes })
    (fun _ => rfl) h, rfl, rfl⟩

theorem Answered.of_reqs {s t : State} {id code : Nat} {bytes : List Byte} (h : Answered s id bytes code)
    (hr : t.reqs = s.reqs) : Answered t id bytes code := by
  obtain ⟨q, hq, hst, howed⟩ := h
  exact ⟨q, by rw [State.reqOf_of_reqs hr, hq], hst, howed⟩

theorem Act.answer_answered {s : State} {q r : Req} (h : s.reqOf q.id = some r) (bytes : List Byte) (code : Nat) :
    Answered ((Act.answer q bytes code).run s) q.id bytes code := by
  rw [Act.run_answer]
  exact (Act.performed_answered h bytes code _).of_reqs (by rw [Act.respond_frame])

theorem Act.run_eachOut {α : Type} (f : α → OutMsg) (l : List α) : ∀ s : State,
    (Act.each l fun e => .emit (.out (f e))).run s = { s with outbox := s.outbox ++ l.map f } := by
  induction l with
  | nil => exact fun s => by rw [Act.run_each_nil, List.map_nil, List.append_nil]
  | cons e r ih =>
    intro s
    rw [Act.run_each_cons, ih]
    show { s with outbox := s.outbox ++ [f e] ++ r.map f } = _
    rw [List.append_assoc]
    rfl

/-- A request stopped by the fence: a register counts it. -/
theorem Act.countFenced_frame (s : State) (x p : Nat) (va : DWord) :
    (Act.countFenced x p va).run s = { s with regs := ((Act.countFenced x p va).run s).regs } := by
  rw [Act.countFenced, Act.run_read]
  split <;> rfl

end Sys2Proof.Machine
end

section
/-!
Requests of UALink peers (R46, R47): what their check by an entry of the table says, and what becomes of them.
-/
namespace Sys2Proof.Machine

/-- Word 3 of an entry: permissions and ASID. -/
def expentWord (v : XDie) (i : Nat) : Nat := (v.exports.get 0 (i, 3)).toNat

/-- The device address behind a peer-visible one under an entry. -/
def expentVa (v : XDie) (ua : DWord) (i : Nat) : DWord :=
  BitVec.ofNat 64 ((v.exports.get 0 (i, 2)).toNat + (ua.toNat - (v.exports.get 0 (i, 0)).toNat))

section
variable {s : State} {x i p vd : Nat} {va : Nat → DWord} {op : PeerOp}
  (hown : s.asidOwner (BitVec.ofNat 16 (expentWord (s.xdie x) i)) = some (p, vd))
include hown

theorem State.peerCheck_refused
    (h : (expentWord (s.xdie x) i).testBit (peerPerm op) = false ∨ s.canonical x p (va i) = false) :
    s.peerCheck x (some i) va op = .bad stUnsupported := by
  have hbad : (!(expentWord (s.xdie x) i).testBit (peerPerm op) || !s.canonical x p (va i)) = true := by
    rcases h with h | h <;> simp [h]
  unfold State.peerCheck
  dsimp only
  split
  · rename_i hnone
    cases hown.symm.trans hnone
  rename_i hsome
  cases hown.symm.trans hsome
  exact if_pos hbad

variable (hperm : (expentWord (s.xdie x) i).testBit (peerPerm op) = true) (hva : s.canonical x p (va i) = true)
include hperm hva

theorem State.peerCheck_fenced (h : s.fenced x p = true) : s.peerCheck x (some i) va op = .fenced p (va i) := by
  have hgood : ¬ (!(expentWord (s.xdie x) i).testBit (peerPerm op) || !s.canonical x p (va i)) = true := by
    simp [hperm, hva]
  unfold State.peerCheck
  dsimp only
  split
  · rename_i hnone
    cases hown.symm.trans hnone
  rename_i hsome
  cases hown.symm.trans hsome
  exact (if_neg hgood).trans (if_pos h)

theorem State.peerCheck_ok (h : s.fenced x p = false)
    (halign : (∃ a, op = .atomic a) → (va i).toNat % peerSize op = 0) :
    s.peerCheck x (some i) va op = .ok (va i) (BitVec.ofNat 16 (expentWord (s.xdie x) i)) p vd := by
  have hgood : ¬ (!(expentWord (s.xdie x) i).testBit (peerPerm op) || !s.canonical x p (va i)) = true := by
    simp [hperm, hva]
  have hopen : ¬ s.fenced x p = true := by simp [h]
  unfold State.peerCheck
  dsimp only
  split
  · rename_i hnone
    cases hown.symm.trans hnone
  rename_i hsome
  cases hown.symm.trans hsome
  refine (if_neg hgood).trans ((if_neg hopen).trans ?_)
  cases op with
  | atomic a => exact if_pos (halign ⟨a, rfl⟩)
  | _ => rfl

end

/-- The part of a peer's request that its check let pass. -/
def peerPart (s : State) (x port : Nat) (op : PeerOp) (a : DWord) (asid : BitVec 16) (p vd id : Nat) : InPart :=
  { id := id, requester := .peer x port, kind := peerKind op, route := s.routeOf p a, goal := .mem a (peerMemOp op)
    asid := some asid, vd := vd, part := p, released := true }

/-- What becomes of a peer's request, by its check. -/
def Act.peerRequest (x port : Nat) (op : PeerOp) : PeerCheck → Act
  | .bad st => .emit (.out (.ualink x port st []))
  | .fenced p a => (Act.countFenced x p a).seq (.emit (.out (.ualink x port stAbort [])))
  | .ok a asid p vd =>
    .fresh fun id => .read fun s =>
      .block
        [ .when (peerMemOp op).returns
            (.onXDie x fun v => { v with inbound := v.inbound ++ [peerPart s x port op a asid p vd id] })
        , .emit (.reqs (s.reqs ++ [{ (peerPart s x port op a asid p vd id).request with
            way := s.wayTo (hostNode x) p (.mem a (peerMemOp op)) }]))
        , .send (hostNode x) p 1 id (.mem a (peerMemOp op)) ]

section
variable {s : State} {x port : Nat} {ua : DWord} {op : PeerOp} (hx : isX x = true) (hport : port < 4)
  (hup : port ∉ (s.xdie x).ualinkDown) (hmax : peerSize op ≤ 256) (hmin : peerSize op ≠ 0)
  (hsend : ∀ d, op ≠ .send d) (hfeat : s.featOn featUaexport = true)
include hx hport hup hmax hmin hsend hfeat

theorem exec_ualinkPeerRequest : exec (.ualinkPeerRequest x port ua op) s = (Act.peerRequest x port op
    (s.peerCheck x (s.exportAt x ua.toNat (peerSize op)) (expentVa (s.xdie x) ua) op)).next s := by
  have hopen : (s.xdie x).ualinkDown.contains port = false := by simpa using hup
  have hsize : (peerSize op != 0) = true := bne_iff_ne.mpr hmin
  show execUalinkPeerRequest x port ua op s = _
  simp only [execUalinkPeerRequest, hx, hport, hopen, hmax, hsize, hfeat, decide_true, Bool.not_false,
    Bool.and_self]
  show (Act.when true (match s.peerCheck x (s.exportAt x ua.toNat (peerSize op)) (expentVa (s.xdie x) ua) op with
    | .bad st => _
    | .fenced p a => _
    | .ok a asid p vd => _)).next s = _
  generalize s.peerCheck x (s.exportAt x ua.toNat (peerSize op)) (expentVa (s.xdie x) ua) op = c
  cases c <;> rfl

theorem peerRequest_stopped {st : Nat}
    (h : s.peerCheck x (s.exportAt x ua.toNat (peerSize op)) (expentVa (s.xdie x) ua) op = .bad st) :
    Happens s (.ualinkPeerRequest x port ua op) fun t => t = { s with outbox := s.outbox ++ [.ualink x port st []] } := by
  refine .of_next _ (exec_ualinkPeerRequest hx hport hup hmax hmin hsend hfeat) ?_
  rw [h]
  rfl

theorem peerRequest_fenced {p : Nat} {a : DWord}
    (h : s.peerCheck x (s.exportAt x ua.toNat (peerSize op)) (expentVa (s.xdie x) ua) op = .fenced p a) :
    Happens s (.ualinkPeerRequest x port ua op) fun t =>
      t.outbox = s.outbox ++ [.ualink x port 4 []] ∧ t.reqs = s.reqs ∧ t.mem = s.mem := by
  refine .of_next _ (exec_ualinkPeerRequest hx hport hup hmax hmin hsend hfeat) ?_
  rw [h, Act.peerRequest, Act.run_seq, Act.countFenced_frame]
  exact ⟨rfl, rfl, rfl⟩

theorem peerRequest_admitted {p vd : Nat} {a : DWord} {asid : BitVec 16}
    (h : s.peerCheck x (s.exportAt x ua.toNat (peerSize op)) (expentVa (s.xdie x) ua) op = .ok a asid p vd) :
    Happens s (.ualinkPeerRequest x port ua op) fun t => ∃ r, t.reqs = s.reqs ++ [r] ∧
      r.id = s.nextId ∧ r.agent = .peer x port ∧ r.goal = .mem a (peerMemOp op) ∧ r.asid = some asid ∧
      r.part = p ∧ r.vd = vd ∧ r.st = .net ∧ t.mem = s.mem ∧ t.outbox = s.outbox := by
  refine .of_next _ (exec_ualinkPeerRequest hx hport hup hmax hmin hsend hfeat) ?_
  rw [h, Act.peerRequest, Act.run_fresh, Act.run_read, Act.run_block_cons, Act.run_when]
  split <;> exact ⟨_, rfl, rfl, rfl, rfl, rfl, rfl, rfl, rfl, rfl, rfl⟩

end

end Sys2Proof.Machine
end

section
/-!
Shared ranges at their agent: writes, reads, grants and invalidations (R48-R50).
-/
namespace Sys2Proof.Machine

/-! ### A request leaves the queue -/

theorem SharedAgent.waiting_take (v : SharedAgent) (req : Nat) : (v.take req).waiting req = none := by
  rw [SharedAgent.waiting, SharedAgent.take, List.find?_eq_none]
  intro q hq
  have hne := (List.mem_filter.mp hq).2
  simpa [bne_iff_ne] using hne

theorem State.shared_onShared (s : State) (x : Nat) (f : SharedAgent → SharedAgent) :
    (((Act.onShared x f).run s).xdie x).shared = f (s.xdie x).shared := by
  rw [Act.onShared, State.xdie_onXDie]

/-- A request is answered, and the answer leaves the agent as it is. -/
theorem Act.answer_shared {s : State} {x req : Nat} {r : Req} (hr : s.reqOf req = some r)
    (f : SharedAgent → SharedAgent) (bytes : List Byte) :
    let t := (Act.answer r bytes 0).run ((Act.onShared x f).run s)
    Answered t req bytes 0 ∧ (t.xdie x).shared = f (s.xdie x).shared := by
  have hid := State.reqOf_id hr
  have hfound : ((Act.onShared x f).run s).reqOf r.id = some r := by
    rw [hid]
    exact hr
  refine ⟨?_, ?_⟩
  · have hans := Act.answer_answered hfound bytes 0
    rwa [hid] at hans
  · rw [State.xdie_of_xdies (s := (Act.onShared x f).run s) (by rw [Act.answer_frame]), State.shared_onShared]

/-! ### Writes (R49) -/

section
variable {s : State} {x req : Nat} {q : SharedReq} (hq : (s.xdie x).shared.waiting req = some q)
include hq

theorem exec_sharedRangeWrite (hreads : s.reqReads req = false) (hfirst : s.writeBefore (s.xdie x).shared q = false) :
    exec (.sharedRangeWrite x req) s = ((Act.onShared x fun v =>
      { v.take req with heldWrites := (v.take req).heldWrites ++ [q] }).seq
        (.emit (.out (.directory x (lineOfAddr q.addr) false)))).next s := by
  show execSharedRangeWrite x req s = _
  rw [execSharedRangeWrite, hq]
  simp only [hreads, hfirst]
  rfl

theorem sharedRangeWrite_held (hreads : s.reqReads req = false)
    (hfirst : s.writeBefore (s.xdie x).shared q = false) : Happens s (.sharedRangeWrite x req) fun t =>
      t = { s with xdies := t.xdies, outbox := s.outbox ++ [.directory x (lineOfAddr q.addr) false] } ∧
      (t.xdie x).shared.heldWrites = (s.xdie x).shared.heldWrites ++ [q] ∧
      (t.xdie x).shared.waiting req = none := by
  refine .of_next _ (exec_sharedRangeWrite hq hreads hfirst) ?_
  have hshared := s.shared_onShared x fun v => { v.take req with heldWrites := (v.take req).heldWrites ++ [q] }
  refine ⟨rfl, congrArg SharedAgent.heldWrites hshared, ?_⟩
  exact (congrArg (SharedAgent.waiting · req) hshared).trans ((s.xdie x).shared.waiting_take req)

/-! ### Reads (R48) -/

/-- The agent after a read that it serves from its copy. -/
def SharedAgent.serve (v : SharedAgent) (req line : Nat) : SharedAgent :=
  { v.take req with serving := (v.take req).serving ++ [(req, line)] }

/-- The agent after a read with the line from its home: a copy is made of a whole line that no granted write is on its
way to, while there is room. -/
def SharedAgent.fetch (v : SharedAgent) (req line : Nat) (whole : Bool) (data : List Byte) : SharedAgent :=
  let v := v.take req
  if whole ∧ v.copies.length < maxCopies ∧ !v.isGranted line then { v with copies := v.copies.put line (padTo 64 data) } else v

variable {r : Req} {va : DWord} {n : Nat} (hr : s.reqOf req = some r) (hgoal : r.goal = .mem va (.load n))
include hr hgoal

theorem exec_sharedRangeRead_copy {held : List Byte} (hwhole : q.addr % 64 + n ≤ 64)
    (hheld : (s.xdie x).shared.copies.get? (lineOfAddr q.addr) = some held) (data : List Byte) :
    exec (.sharedRangeRead x req data) s = ((Act.onShared x fun v => v.serve req (lineOfAddr q.addr)).seq
      (.answer r (sharedBytes q.addr n held) 0)).next s := by
  show execSharedRangeRead x req data s = _
  simp only [execSharedRangeRead, hq, hr, hgoal, hwhole, hheld, decide_true]
  rfl

theorem exec_sharedRangeRead_fetch (hheld : (s.xdie x).shared.copies.get? (lineOfAddr q.addr) = none)
    (data : List Byte) :
    exec (.sharedRangeRead x req data) s = ((Act.onShared x fun v =>
      v.fetch req (lineOfAddr q.addr) (decide (q.addr % 64 + n ≤ 64)) data).seq
        (.answer r (sharedBytes q.addr n data) 0)).next s := by
  show execSharedRangeRead x req data s = _
  simp only [execSharedRangeRead, hq, hr, hgoal, hheld]
  cases decide (q.addr % 64 + n ≤ 64) <;> rfl

theorem sharedRangeRead_copy {held : List Byte} (hwhole : q.addr % 64 + n ≤ 64)
    (hheld : (s.xdie x).shared.copies.get? (lineOfAddr q.addr) = some held) (data : List Byte) :
    Happens s (.sharedRangeRead x req data) fun t => Answered t req (sharedBytes q.addr n held) 0 ∧
      (req, lineOfAddr q.addr) ∈ (t.xdie x).shared.serving ∧
      (t.xdie x).shared.copies = (s.xdie x).shared.copies := by
  refine .of_next _ (exec_sharedRangeRead_copy hq hr hgoal hwhole hheld data) ?_
  obtain ⟨hans, hshared⟩ := Act.answer_shared (x := x) hr (fun v => v.serve req (lineOfAddr q.addr))
    (sharedBytes q.addr n held)
  refine ⟨hans, ?_, ?_⟩
  · rw [Act.run_seq, hshared]
    exact List.mem_append_right _ (List.mem_singleton_self _)
  · rw [Act.run_seq, hshared]
    rfl

theorem sharedRangeRead_fetch (hheld : (s.xdie x).shared.copies.get? (lineOfAddr q.addr) = none)
    (data : List Byte) : Happens s (.sharedRangeRead x req data) fun t =>
      Answered t req (sharedBytes q.addr n data) 0 ∧
      (q.addr % 64 + n ≤ 64 → (s.xdie x).shared.copies.length < maxCopies →
        (s.xdie x).shared.isGranted (lineOfAddr q.addr) = false →
        (t.xdie x).shared.copies.get? (lineOfAddr q.addr) = some (padTo 64 data)) := by
  refine .of_next _ (exec_sharedRangeRead_fetch hq hr hgoal hheld data) ?_
  obtain ⟨hans, hshared⟩ := Act.answer_shared (x := x) hr
    (fun v => v.fetch req (lineOfAddr q.addr) (decide (q.addr % 64 + n ≤ 64)) data) (sharedBytes q.addr n data)
  refine ⟨hans, fun hwhole hroom hfree => ?_⟩
  have hgranted : ((s.xdie x).shared.take req).isGranted (lineOfAddr q.addr) = false := hfree
  rw [Act.run_seq, hshared, SharedAgent.fetch, hgranted, if_pos ⟨decide_eq_true hwhole, hroom, rfl⟩]
  exact Store.get?_put_same _ _ _

end

/-! ### Grants (R49) -/

/-- The write to a line goes to its home: it is held no more, and the copy of the line is dropped. -/
def SharedAgent.letGo (v : SharedAgent) (q : SharedReq) (line : Nat) : SharedAgent :=
  { v with heldWrites := v.heldWrites.filter fun w => w.req != q.req, copies := v.copies.erase line }

theorem Act.run_toHome (u : State) (x : Nat) (q : SharedReq) : (Act.toHome x q).run u =
    (Act.each (hostPieces (payloadOf x (q.port + 2)) (u.reqSize q.req + 2) q.addr (u.reqSize q.req)) fun e =>
      .emit (.out (.hostRequest x (q.port + 2) q.pasid e.1 e.2 q.req))).run
      ((Act.onXDie x fun v =>
        { v with
          outgoing := v.outgoing ++ [(q.req, q.port + 2)]
          shared := { v.shared with granted := v.shared.granted ++ [(q.req, lineOfAddr q.addr)] } }).run u) := rfl

section
variable {s : State} {x line : Nat} {q : SharedReq}
  (hq : ((s.xdie x).shared.heldWrites.find? fun q => lineOfAddr q.addr == line) = some q)
  (hfree : (s.xdie x).shared.isGranted line = false)
include hq hfree

theorem exec_sharedRangeGrant :
    exec (.sharedRangeGrant x line) s = ((Act.onShared x fun v => v.letGo q line).seq (.toHome x q)).next s := by
  show execSharedRangeGrant x line s = _
  rw [execSharedRangeGrant, hq, hfree]
  rfl

theorem sharedRangeGrant_happens : Happens s (.sharedRangeGrant x line) fun t => t.mem = s.mem ∧
    t.outbox = s.outbox ++ (hostPieces (payloadOf x (q.port + 2)) (s.reqSize q.req + 2) q.addr (s.reqSize q.req)).map
      (fun e => .hostRequest x (q.port + 2) q.pasid e.1 e.2 q.req) ∧
    (t.xdie x).shared.isGranted line = true ∧
    (t.xdie x).outgoing = (s.xdie x).outgoing ++ [(q.req, q.port + 2)] ∧
    (t.xdie x).shared.copies.get? line = none ∧ ∀ w ∈ (t.xdie x).shared.heldWrites, w.req ≠ q.req := by
  refine .of_next _ (exec_sharedRangeGrant hq hfree) ?_
  have hline : (lineOfAddr q.addr == line) = true := List.find?_some (p := fun q : SharedReq => lineOfAddr q.addr == line) hq
  rw [Act.run_seq, Act.run_toHome, Act.run_eachOut]
  generalize hu : (Act.onShared x fun v => v.letGo q line).run s = u
  have hshared : (u.xdie x).shared = (s.xdie x).shared.letGo q line := by rw [← hu, State.shared_onShared]
  have hout : (u.xdie x).outgoing = (s.xdie x).outgoing := by rw [← hu, Act.onShared, State.xdie_onXDie]
  have hframe : u = { s with xdies := u.xdies } := by rw [← hu]; rfl
  have hxdie := u.xdie_onXDie x fun v =>
    { v with
      outgoing := v.outgoing ++ [(q.req, q.port + 2)]
      shared := { v.shared with granted := v.shared.granted ++ [(q.req, lineOfAddr q.addr)] } }
  refine ⟨?_, ?_, ?_, ?_, ?_, fun w hw => ?_⟩
  · show u.mem = s.mem
    rw [hframe]
  · rw [hframe]
    rfl
  · refine (congrArg (fun v : XDie => v.shared.isGranted line) hxdie).trans ?_
    exact List.any_eq_true.mpr ⟨_, List.mem_append_right _ (List.mem_singleton_self _), hline⟩
  · exact (congrArg XDie.outgoing hxdie).trans (by rw [hout])
  · refine (congrArg (fun v : XDie => v.shared.copies.get? line) hxdie).trans ?_
    show (u.xdie x).shared.copies.get? line = none
    rw [hshared]
    exact Store.get?_erase_same _ _
  · have hheld : w ∈ (u.xdie x).shared.heldWrites := by
      have hw' := congrArg (fun v : XDie => v.shared.heldWrites) hxdie
      exact hw' ▸ hw
    rw [hshared] at hheld
    exact bne_iff_ne.mp (List.mem_filter.mp hheld).2

end

/-! ### Invalidations (R50) -/

section
variable {s : State} {x line : Nat}

/-- The agent without its copy of a line, of which it owes the acknowledgement. -/
def SharedAgent.invalidate (v : SharedAgent) (line : Nat) : SharedAgent :=
  { v with copies := v.copies.erase line, owed := if v.owed.contains line then v.owed else v.owed ++ [line] }

theorem exec_sharedRangeInvalidate (hx : isX x = true) :
    exec (.sharedRangeInvalidate x line) s = (Act.onShared x fun v => v.invalidate line).next s := by
  show execSharedRangeInvalidate x line s = _
  rw [execSharedRangeInvalidate, hx]
  rfl

theorem SharedAgent.owed_invalidate (v : SharedAgent) (line : Nat) : line ∈ (v.invalidate line).owed := by
  show line ∈ if v.owed.contains line then v.owed else v.owed ++ [line]
  split
  · rename_i h
    exact List.contains_iff_mem.mp h
  · exact List.mem_append_right _ (List.mem_singleton_self _)

theorem sharedRangeInvalidate_happens (hx : isX x = true) : Happens s (.sharedRangeInvalidate x line) fun t =>
    t = { s with xdies := t.xdies } ∧ (t.xdie x).shared.copies.get? line = none ∧ line ∈ (t.xdie x).shared.owed ∧
      ∀ k, k ≠ line → (t.xdie x).shared.copies.get? k = (s.xdie x).shared.copies.get? k := by
  refine .of_next _ (exec_sharedRangeInvalidate hx) ?_
  rw [State.shared_onShared]
  exact ⟨rfl, Store.get?_erase_same _ _, SharedAgent.owed_invalidate _ _, fun k hk => Store.get?_erase_ne _ hk⟩

/-- The agent after the acknowledgement. -/
def SharedAgent.acknowledge (v : SharedAgent) (line : Nat) : SharedAgent :=
  { v with owed := v.owed.filter (· != line), serving := v.serving.filter fun e => e.2 != line }

theorem sharedInvalidateAck_sent (howed : line ∈ (s.xdie x).shared.owed)
    (hback : ∀ e ∈ (s.xdie x).shared.serving, e.2 = line → s.returned e.1 = true) :
    Happens s (.sharedInvalidateAck x line) fun t => line ∉ (t.xdie x).shared.owed ∧
      t = { s with xdies := t.xdies, outbox := s.outbox ++ [.directory x line true] } := by
  have hall : ((s.xdie x).shared.serving.all fun e => e.2 != line || s.returned e.1) = true := by
    rw [List.all_eq_true]
    intro e he
    by_cases hline : e.2 = line
    · simp [hback e he hline]
    · simp [bne_iff_ne.mpr hline]
  have hexec : exec (.sharedInvalidateAck x line) s = ((Act.onShared x fun v => v.acknowledge line).seq
      (.emit (.out (.directory x line true)))).next s := by
    show execSharedInvalidateAck x line s = _
    simp only [execSharedInvalidateAck, List.contains_iff_mem.mpr howed, hall]
    rfl
  refine .of_next _ hexec ⟨fun hmem => ?_, rfl⟩
  have hshared := s.shared_onShared x fun v => v.acknowledge line
  have hin : line ∈ ((s.xdie x).shared.acknowledge line).owed := (congrArg SharedAgent.owed hshared) ▸ hmem
  exact bne_iff_ne.mp (List.mem_filter.mp hin).2 rfl

theorem sharedInvalidateAck_waits {e : Nat × Nat} (he : e ∈ (s.xdie x).shared.serving) (hline : e.2 = line)
    (hback : s.returned e.1 = false) : Happens s (.sharedInvalidateAck x line) fun t => t = s := by
  have hall : ((s.xdie x).shared.serving.all fun e => e.2 != line || s.returned e.1) = false := by
    rw [List.all_eq_false]
    exact ⟨e, he, by simp [hline, hback]⟩
  have hexec : exec (.sharedInvalidateAck x line) s = Act.skip.next s := by
    show execSharedInvalidateAck x line s = _
    simp only [execSharedInvalidateAck, hall, Bool.and_false]
    rfl
  exact .of_next _ hexec rfl

end

end Sys2Proof.Machine
end

section
/-!
The tables of peer-visible and of shared ranges: commits, and the end of a clearing (R51).
-/
namespace Sys2Proof.Machine

/-! ### Words -/

theorem toNat_lowWord (v : DWord) : (v &&& bitsMask 31 0).toNat = v.toNat % 2 ^ 32 := by
  rw [BitVec.toNat_and]
  exact Nat.and_two_pow_sub_one_eq_mod _ 32

theorem getLsbD_63_and {m : DWord} (hm : m.getLsbD 63 = true) (v : DWord) :
    (v &&& m).getLsbD 63 = v.getLsbD 63 := by
  rw [BitVec.getLsbD_and, hm, Bool.and_true]

/-! ### Peer-visible ranges -/

/-- A word of the selected entry as it will be committed. -/
def XDie.expentHeld (v : XDie) (j : Nat) : DWord := v.expHeld.get (v.exports.get 0 (v.expsel, j)) j

def expentMask : DWord := bitsMask 63 63 ||| bitsMask 18 0

/-- The X-die after the commit of the selected entry. -/
def XDie.expentCommitted (v : XDie) (d : DWord) : XDie :=
  { v with
    expHeld := []
    exports := (((v.exports.put (v.expsel, 0) (v.expentHeld 0 &&& bitsMask 63 16)).put (v.expsel, 1)
      (v.expentHeld 1 &&& bitsMask 31 0)).put (v.expsel, 2) (v.expentHeld 2 &&& bitsMask 63 16)).put (v.expsel, 3)
      (d &&& expentMask) }

/-- First address and bytes of the range that is to be committed. -/
def XDie.expentBase (v : XDie) : Nat := (v.expentHeld 0 &&& bitsMask 63 16).toNat
def XDie.expentBytes (v : XDie) : Nat := (v.expentHeld 1).toNat % 2 ^ 32 * 65536

/-- It meets the range of another valid entry. -/
def XDie.expentClash (v : XDie) : Prop := ∃ k b m, k < 1024 ∧ k ≠ v.expsel ∧ v.exportRange k = some (b, m) ∧
  b < v.expentBase + v.expentBytes ∧ v.expentBase < b + m

/-- The same as the model tests it. -/
theorem XDie.expentClash_iff (v : XDie) : v.expentClash ↔
    ((List.range exportEntries).any fun k => k != v.expsel && (v.exportRange k).any fun e =>
      decide (e.1 < v.expentBase + v.expentBytes) && decide (v.expentBase < e.1 + e.2)) = true := by
  simp only [XDie.expentClash, List.any_eq_true, List.mem_range, Bool.and_eq_true, bne_iff_ne, Option.any_eq_true,
    decide_eq_true_eq, Prod.exists]
  constructor
  · rintro ⟨k, b, m, hk, hne, hr, hb, hm⟩
    exact ⟨k, hk, hne, b, m, hr, hb, hm⟩
  · rintro ⟨k, hk, hne, b, m, hr, hb, hm⟩
    exact ⟨k, b, m, hk, hne, hr, hb, hm⟩

section
variable {s : State} {x : Nat} {d : DWord}

theorem Act.run_expentCommit : ∃ c : Bool, (c = true ↔ (s.xdie x).expentClash) ∧ (Act.expentCommit x d).run s =
    if (s.featOn featUaexport && !(d.getLsbD 63 && ((s.xdie x).expentBytes == 0 || c))) = true
    then s.apply (.xdie x ((s.xdie x).expentCommitted d)) else s := by
  have h63 := getLsbD_63_and (m := bitsMask 63 63 ||| bitsMask 18 0) (by decide) d
  rw [Act.expentCommit, Act.run_read]
  dsimp only
  rw [h63, toNat_lowWord, Act.run_when]
  generalize hc : (List.range exportEntries).any _ = c
  refine ⟨c, ?_, rfl⟩
  rw [← hc, XDie.expentClash_iff, List.any_eq_true, List.any_eq_true]
  refine exists_congr fun k => and_congr_right fun _ => ?_
  cases (s.xdie x).exportRange k <;> rfl

theorem exec_expentCommit (hx : isX x = true) : exec (.expentCommit x d) s = (Act.expentCommit x d).next s := by
  show execExpentCommit x d s = _
  rw [execExpentCommit, hx]
  rfl

theorem expentCommit_committed (hx : isX x = true) (hfeat : s.featOn featUaexport = true)
    (h : d.getLsbD 63 = false ∨ ((s.xdie x).expentBytes ≠ 0 ∧ ¬ (s.xdie x).expentClash)) :
    Happens s (.expentCommit x d) fun t =>
      t = { s with xdies := t.xdies } ∧ t.xdie x = (s.xdie x).expentCommitted d := by
  refine .of_next _ (exec_expentCommit hx) ?_
  obtain ⟨c, hc, hrun⟩ := Act.run_expentCommit (s := s) (x := x) (d := d)
  rw [hrun, if_pos, State.xdie_apply_same]
  · exact ⟨rfl, rfl⟩
  · rcases h with h | ⟨hbytes, hfree⟩
    · rw [h, Bool.false_and, hfeat]
      rfl
    · have hcf : c = false := Bool.eq_false_iff.mpr fun h => hfree (hc.mp h)
      simp [hfeat, hbytes, hcf]

theorem expentCommit_refused (hx : isX x = true) (hv : d.getLsbD 63 = true)
    (h : (s.xdie x).expentBytes = 0 ∨ (s.xdie x).expentClash) : Happens s (.expentCommit x d) fun t => t = s := by
  refine .of_next _ (exec_expentCommit hx) ?_
  obtain ⟨c, hc, hrun⟩ := Act.run_expentCommit (s := s) (x := x) (d := d)
  rw [hrun, if_neg]
  rcases h with h | h
  · simp [hv, h]
  · simp [hv, hc.mpr h]

end

/-- The words of the selected entry after the commit, and those of the others. -/
theorem XDie.expentCommitted_words (v : XDie) (d : DWord) :
    (v.expentCommitted d).exports.get 0 (v.expsel, 0) = v.expentHeld 0 &&& bitsMask 63 16 ∧
    (v.expentCommitted d).exports.get 0 (v.expsel, 1) = v.expentHeld 1 &&& bitsMask 31 0 ∧
    (v.expentCommitted d).exports.get 0 (v.expsel, 2) = v.expentHeld 2 &&& bitsMask 63 16 ∧
    (v.expentCommitted d).exports.get 0 (v.expsel, 3) = d &&& expentMask ∧
    ∀ k j, k ≠ v.expsel → (v.expentCommitted d).exports.get 0 (k, j) = v.exports.get 0 (k, j) := by
  refine ⟨?_, ?_, ?_, ?_, fun k j hk => ?_⟩ <;> simp [XDie.expentCommitted, Store.get_put, *]

/-! ### Shared ranges -/

def srentMask : DWord := bitsMask 63 63 ||| bitsMask 57 56 ||| bitsMask 31 0

/-- The X-die with both words of an entry. -/
def XDie.withRange (v : XDie) (i : Nat) (w0 w1 : DWord) : XDie :=
  { v with ranges := (v.ranges.put (i, 0) w0).put (i, 1) w1 }

theorem XDie.withRange_words (v : XDie) (i : Nat) (w0 w1 : DWord) :
    (v.withRange i w0 w1).ranges.get 0 (i, 0) = w0 ∧ (v.withRange i w0 w1).ranges.get 0 (i, 1) = w1 := by
  constructor <;> simp [XDie.withRange, Store.get_put]

/-- The range that is to be committed meets that of another valid entry. -/
def XDie.srentClash (v : XDie) (d : DWord) : Prop := ∃ k b m, k < 64 ∧ k ≠ v.srsel ∧ v.rangeOf k = some (b, m) ∧
  b < (v.srHeld &&& bitsMask 63 16).toNat + d.toNat % 2 ^ 32 * 65536 ∧ (v.srHeld &&& bitsMask 63 16).toNat < m

/-- The same as the model tests it. -/
theorem XDie.srentClash_iff (v : XDie) (d : DWord) : v.srentClash d ↔
    ((List.range 64).any fun k => k != v.srsel && (v.rangeOf k).any fun e =>
      decide (e.1 < (v.srHeld &&& bitsMask 63 16).toNat + d.toNat % 2 ^ 32 * 65536) &&
      decide ((v.srHeld &&& bitsMask 63 16).toNat < e.2)) = true := by
  simp only [XDie.srentClash, List.any_eq_true, List.mem_range, Bool.and_eq_true, bne_iff_ne, Option.any_eq_true,
    decide_eq_true_eq, Prod.exists]
  constructor
  · rintro ⟨k, b, m, hk, hne, hr, hb, hm⟩
    exact ⟨k, hk, hne, b, m, hr, hb, hm⟩
  · rintro ⟨k, hk, hne, b, m, hr, hb, hm⟩
    exact ⟨k, b, m, hk, hne, hr, hb, hm⟩

theorem srentSize (d : DWord) : ((d &&& srentMask).extractLsb' 0 32).toNat = d.toNat % 2 ^ 32 := by
  have hlow : (d &&& srentMask).extractLsb' 0 32 = d.extractLsb' 0 32 := by
    rw [BitVec.extractLsb'_and, show srentMask.extractLsb' 0 32 = BitVec.allOnes 32 by decide, BitVec.and_allOnes]
  rw [hlow, BitVec.extractLsb'_toNat, Nat.shiftRight_zero]

section
variable {s : State} {x : Nat} {d : DWord} (hx : isX x = true) (hfeat : s.featOn featUashared = true)

include hfeat in
theorem Act.run_srentCommit : ∃ c : Bool, (c = true ↔ (s.xdie x).srentClash d) ∧ (Act.srentCommit x d).run s =
    if d.getLsbD 63 = true then
      if c = true then s else s.apply (.xdie x
        { (s.xdie x).withRange (s.xdie x).srsel ((s.xdie x).srHeld &&& bitsMask 63 16) (d &&& srentMask) with
          clearing := (s.xdie x).clearing.erase (s.xdie x).srsel })
    else if ((s.xdie x).rangeOf (s.xdie x).srsel).isSome = true then s.apply (.xdie x
        { s.xdie x with
          clearing := (s.xdie x).clearing.put (s.xdie x).srsel ((s.xdie x).srHeld &&& bitsMask 63 16, d &&& srentMask) })
    else s.apply (.xdie x
      ((s.xdie x).withRange (s.xdie x).srsel ((s.xdie x).srHeld &&& bitsMask 63 16) (d &&& srentMask))) := by
  have h63 : (d &&& (bitsMask 63 63 ||| bitsMask 57 56 ||| bitsMask 31 0)).getLsbD 63 = d.getLsbD 63 :=
    getLsbD_63_and (by decide) d
  have hsize : ((d &&& (bitsMask 63 63 ||| bitsMask 57 56 ||| bitsMask 31 0)).extractLsb' 0 32).toNat =
    d.toNat % 2 ^ 32 := srentSize d
  rw [Act.srentCommit, Act.run_read]
  dsimp only
  rw [h63, hsize, hfeat, Act.run_when_true]
  generalize hc : (List.range 64).any _ = c
  refine ⟨c, ?_, ?_⟩
  · rw [← hc, XDie.srentClash_iff, List.any_eq_true, List.any_eq_true]
    refine exists_congr fun k => and_congr_right fun _ => ?_
    cases (s.xdie x).rangeOf k <;> rfl
  · split
    · cases c <;> rfl
    · split <;> rfl

include hx

theorem exec_srentCommit : exec (.srentCommit x d) s = (Act.srentCommit x d).next s := by
  show execSrentCommit x d s = _
  rw [execSrentCommit, hx]
  rfl

include hfeat

theorem srentCommit_committed (hv : d.getLsbD 63 = true) (hfree : ¬ (s.xdie x).srentClash d) :
    Happens s (.srentCommit x d) fun t => t = { s with xdies := t.xdies } ∧
      (t.xdie x).ranges.get 0 ((s.xdie x).srsel, 0) = (s.xdie x).srHeld &&& bitsMask 63 16 ∧
      (t.xdie x).ranges.get 0 ((s.xdie x).srsel, 1) = d &&& srentMask := by
  refine .of_next _ (exec_srentCommit hx) ?_
  obtain ⟨c, hc, hrun⟩ := Act.run_srentCommit (x := x) (d := d) hfeat
  rw [hrun, if_pos hv, if_neg fun h => hfree (hc.mp h), State.xdie_apply_same]
  exact ⟨rfl, (s.xdie x).withRange_words _ _ _⟩

theorem srentCommit_refused (hv : d.getLsbD 63 = true) (h : (s.xdie x).srentClash d) :
    Happens s (.srentCommit x d) fun t => t = s := by
  refine .of_next _ (exec_srentCommit hx) ?_
  obtain ⟨c, hc, hrun⟩ := Act.run_srentCommit (x := x) (d := d) hfeat
  rw [hrun, if_pos hv, if_pos (hc.mpr h)]

theorem srentCommit_clears (hv : d.getLsbD 63 = false) (h : ((s.xdie x).rangeOf (s.xdie x).srsel).isSome = true) :
    Happens s (.srentCommit x d) fun t => t = { s with xdies := t.xdies } ∧
      (t.xdie x).ranges = (s.xdie x).ranges ∧ (t.xdie x).clearing.get? (s.xdie x).srsel =
        some ((s.xdie x).srHeld &&& bitsMask 63 16, d &&& srentMask) := by
  refine .of_next _ (exec_srentCommit hx) ?_
  obtain ⟨c, -, hrun⟩ := Act.run_srentCommit (x := x) (d := d) hfeat
  rw [hrun, if_neg (Bool.eq_false_iff.mp hv), if_pos h, State.xdie_apply_same]
  exact ⟨rfl, rfl, Store.get?_put_same _ _ _⟩

end

/-- The X-die once the clearing of an entry is over. -/
def XDie.cleared (v : XDie) (i : Nat) (w0 w1 : DWord) : XDie :=
  { v.withRange i w0 w1 with
    shared := { v.shared with copies := v.shared.copies.filter fun e => !v.inRange i (e.1 * 64) }
    clearing := v.clearing.erase i }

theorem srentClearDone_happens {s : State} {x i : Nat} {w0 w1 : DWord}
    (hi : (s.xdie x).clearing.get? i = some (w0, w1))
    (hwrites : ∀ q ∈ (s.xdie x).shared.heldWrites ++ (s.xdie x).shared.queue, (s.xdie x).inRange i q.addr = false)
    (hgranted : ∀ e ∈ (s.xdie x).shared.granted, (s.xdie x).inRange i (e.2 * 64) = false) :
    Happens s (.srentClearDone x i) fun t =>
      t = { s with xdies := t.xdies } ∧ t.xdie x = (s.xdie x).cleared i w0 w1 := by
  have hw : ((s.xdie x).shared.heldWrites ++ (s.xdie x).shared.queue).any
      (fun q => (s.xdie x).inRange i q.addr) = false := by
    rw [List.any_eq_false]
    exact fun q hq => by simp [hwrites q hq]
  have hg : ((s.xdie x).shared.granted.any fun e => (s.xdie x).inRange i (e.2 * 64)) = false := by
    rw [List.any_eq_false]
    exact fun e he => by simp [hgranted e he]
  have hexec : exec (.srentClearDone x i) s = (Act.onXDie x fun v => v.cleared i w0 w1).next s := by
    show execSrentClearDone x i s = _
    rw [execSrentClearDone]
    dsimp only
    rw [hi]
    dsimp only
    rw [hw, hg]
    rfl
  refine .of_next _ hexec ?_
  rw [State.xdie_onXDie]
  exact ⟨rfl, rfl⟩

theorem XDie.cleared_copies {v : XDie} {i : Nat} {w0 w1 : DWord} :
    ∀ e ∈ (v.cleared i w0 w1).shared.copies, v.inRange i (e.1 * 64) = false := fun e he => by
  have hkept := (List.mem_filter.mp he).2
  simpa using hkept

end Sys2Proof.Machine
end

section
/-!
SUPPORT. What the writes that the device makes for itself keep: their effects on memory, and what of them goes to the
host (R45, R194).
-/
namespace Sys2Proof.Machine

theorem Act.Only.keepsOf {K : Effect → Bool} {P : State → Prop} {a : Act} (h : a.Only K)
    (hP : ∀ (s : State) (e : Effect), K e = true → P s → P (s.apply e)) : a.Keeps P := fun s hs => by
  have hreach := h s
  generalize a.run s = t at hreach
  induction hreach with
  | refl => exact hs
  | step e k _ ih => exact hP _ e k ih

theorem Act.Keeps.each_mem {P : State → Prop} {α : Type} {l : List α} {f : α → Act} (h : ∀ x ∈ l, (f x).Keeps P) :
    (Act.each l f).Keeps P := by
  induction l with
  | nil => exact .skip
  | cons x r ih => exact .seq (h x List.mem_cons_self) (ih fun y hy => h y (List.mem_cons_of_mem _ hy))

/-- The effects of a write to the module's own memory. -/
def Effect.ofWrite : Effect → Bool
  | .mem _ _ | .memClear _ _ | .ecc _ | .mtlb _ _ _ => true
  | _ => false

theorem Act.eccClear_ofWrite (home pa n : Nat) : (Act.eccClear home pa n).Only Effect.ofWrite :=
  .read fun _ => .when fun _ => .emit rfl

theorem Act.unfresh_ofWrite (die owner home : Nat) (l : Leaf) (off pa : Nat) :
    (Act.unfresh die owner home l off pa).Only Effect.ofWrite := .read fun _ => by
  split
  · exact .skip
  · exact .block_cons (.emit rfl) <| .block_cons (eccClear_ofWrite _ _ _) <|
      .block_cons (.storeBytes (fun _ _ => rfl) _ _) <| .block_cons (.emit rfl) .block_nil

theorem Act.storeAt_ofWrite (die : Nat) (va : DWord) (l : Leaf) (pa : Nat) (bytes : List (Option Byte)) :
    (Act.storeAt die va l pa bytes).Only Effect.ofWrite :=
  .block_cons (unfresh_ofWrite _ _ _ _ _ _) <| .block_cons (eccClear_ofWrite _ _ _) <|
    .block_cons (.storeBytes (fun _ _ => rfl) _ _) .block_nil

/-- Writes of the device, to its own memory and to the host, keep a property. -/
structure KeptByWrites (P : State → Prop) : Prop where
  own : ∀ (s : State) (e : Effect), e.ofWrite = true → P s → P (s.apply e)
  host : ∀ (a : Agent) (p : Nat) (asid : Option (BitVec 16)) (va : DWord) (l : Leaf) (pa : Nat) (bytes : List Byte),
    (Act.hostWrite a p asid va l pa bytes fun _ => .skip).Keeps P

theorem KeptByWrites.storeVa {P : State → Prop} (h : KeptByWrites P) (d p : Nat) (asid : Option (BitVec 16))
    (va : DWord) (bytes : List Byte) : (Act.storeVa d p asid va bytes).Keeps P := .read fun _ => by
  split
  · exact .skip
  · split
    · exact .skip
    · split
      · exact .each fun _ => h.host _ _ _ _ _ _ _
      · exact (Act.storeAt_ofWrite _ _ _ _ _).keepsOf h.own

/-! ### Properties of X-dies and requests alone -/

/-- The effect leaves the X-dies and the requests alone. -/
def Effect.offHost : Effect → Bool
  | .xdie _ _ | .reqs _ => false
  | _ => true

theorem Effect.offHost_ofWrite {e : Effect} (h : e.ofWrite = true) : e.offHost = true := by
  cases e
  case xdie => cases h
  case reqs => cases h
  all_goals rfl

section
variable {P : State → Prop} (hoff : ∀ (s : State) (e : Effect), e.offHost = true → P s → P (s.apply e))
include hoff

theorem Act.Keeps.ofOffHost {a : Act} (h : a.Only Effect.offHost) : a.Keeps P := h.keepsOf hoff

variable (hw : KeptByWrites P)
include hw

omit hoff in
theorem State.offer_keeps (s : State) (p : Nat) (asid : Option (BitVec 16)) (desc : DWord) (bytes : List Byte) :
    (s.offer p asid desc bytes).act.Keeps P := by
  unfold State.offer
  split
  · exact .skip
  · dsimp only
    split
    · exact .skip
    · split
      · exact hw.storeVa _ _ _ _ _
      · split
        · exact .block_cons (hw.storeVa _ _ _ _ _) <| .block_cons (hw.storeVa _ _ _ _ _) .block_nil
        · exact .skip

theorem State.defaultOffer_keeps (s : State) (p : Nat) (bytes : List Byte) : (s.defaultOffer p bytes).1.Keeps P := by
  unfold State.defaultOffer
  split
  · exact .skip
  · rename_i lead _
    have hdrop : (Act.countReg lead .pdfqst 31 0).Keeps P := .ofOffHost hoff (.read fun _ => .emit rfl)
    have hoffer := s.offer_keeps hw p defaultAsid (s.reg lead .pdfq &&& bitsMask 63 6) bytes
    dsimp only
    split
    · exact hdrop
    · split
      · exact hdrop
      · rename_i h; rw [h] at hoffer; exact hoffer
      · rename_i h; rw [h] at hoffer; exact hoffer

theorem State.launchOffer_keeps (s : State) (p : Nat) (l : Option Launch) (bytes : List Byte) :
    (s.launchOffer p l bytes).1.Keeps P := by
  unfold State.launchOffer
  split
  · exact s.defaultOffer_keeps hoff hw p bytes
  · rename_i x
    have hoffer := s.offer_keeps hw p (s.vdAsid p x.vd) (BitVec.ofNat 64 (recNat x.copy 0x020 8)) bytes
    dsimp only
    split
    · exact s.defaultOffer_keeps hoff hw p bytes
    · split
      · exact s.defaultOffer_keeps hoff hw p bytes
      · rename_i h; rw [h] at hoffer; exact .seq hoffer (.read fun u => u.defaultOffer_keeps hoff hw p bytes)
      · rename_i h; rw [h] at hoffer; exact hoffer

theorem Act.deadlineRecords_keeps (n : Nat) (l : Launch) : (Act.deadlineRecords n l).Keeps P :=
  .read fun _ => .seq
    (.read fun s => .seq (s.launchOffer_keeps hoff hw _ _ _) (.ofOffHost hoff (.onLaunch fun _ => rfl)))
    (.read fun s => s.defaultOffer_keeps hoff hw _ _)

theorem Act.missSwitch_keeps (n : Nat) (l : Launch) (w : Switch) : (Act.missSwitch n l w).Keeps P :=
  .read fun _ => .block_cons (.when (.ofOffHost hoff (.read fun _ => .emit rfl))) <|
    .block_cons (.ofOffHost hoff (.onLaunch fun _ => rfl)) <|
    .block_cons (.ofOffHost hoff (.read fun _ => by
      dsimp only
      split
      · exact .read fun _ => .emit rfl
      · exact .skip)) <|
    .block_cons (.when (deadlineRecords_keeps hoff hw n l)) .block_nil

theorem Act.seamAbort_keeps (n : Option Nat) : (Act.seamAbort n).Keeps P := by
  cases n with
  | none => exact .skip
  | some k =>
    refine .read fun _ => ?_
    split
    · split
      · exact .when (missSwitch_keeps hoff hw _ _ _)
      · exact .skip
    · exact .skip

omit hw in
theorem Act.closeSlice_keeps (n : Nat) : (Act.closeSlice n).Keeps P :=
  .ofOffHost hoff (.read fun _ => .when fun _ => .read fun _ => by
    split
    · exact .skip
    · exact .when fun _ => .read fun _ => .emit rfl)

theorem Act.seamAffects_keeps (n : Option Nat) : (Act.seamAffects n).Keeps P := by
  cases n with
  | none => exact .skip
  | some k =>
    exact .block_cons (seamAbort_keeps hoff hw _) <| .block_cons (closeSlice_keeps hoff _) <|
      .block_cons (.ofOffHost hoff (.read fun _ => .onLaunch fun _ => rfl)) .block_nil

theorem Act.seamFreeze_keeps (h : Word) (cell : CellId) (f : FaultRec) (held : Bool) :
    (Act.seamFreeze h cell f held).Keeps P := .read fun _ => by
  split
  · exact .skip
  · exact .block_cons (.ofOffHost hoff (.read fun _ => .onRegion fun _ => rfl)) <|
      .block_cons (.when (.ofOffHost hoff (.onRegion fun _ => rfl))) <|
      .block_cons (seamAffects_keeps hoff hw _) .block_nil

end

theorem Act.untrack_offHost (id : Nat) : (Act.untrack id).Only Effect.offHost :=
  .read fun _ => .each fun _ _ => .read fun _ => .emit rfl

end Sys2Proof.Machine
end

section
/-!
A UALink port that goes down (R52): nothing on its way over the port is left, and every request that was is answered.
-/
namespace Sys2Proof.Machine

theorem Act.Keeps.fresh {P : State → Prop} {f : Nat → Act} (hid : ∀ n, (Act.emit (.nextId n)).Keeps P)
    (h : ∀ n, (f n).Keeps P) : (Act.fresh f).Keeps P := .read fun _ => .seq (hid _) (h _)

/-- Of a list of acts one brings a property about, and all keep it. -/
theorem Act.Keeps.each_leads {P Q : State → Prop} {α : Type} {l : List α} {f : α → Act} {x : α} (hx : x ∈ l)
    (hP : ∀ y, (f y).Keeps P) (hQ : ∀ y, (f y).Keeps Q) (hlead : ∀ s, P s → Q ((f x).run s)) :
    ∀ s, P s → Q ((Act.each l f).run s) := by
  induction l with
  | nil => cases hx
  | cons y rest ih =>
    intro s hs
    rw [Act.run_each_cons]
    rcases List.mem_cons.mp hx with rfl | hx
    · exact Act.Keeps.each hQ _ (hlead s hs)
    · exact ih hx _ (hP y s hs)

/-! ### Nothing is on its way over the port -/

/-- The port is down, and nothing at the agent or sent outside is for it. -/
structure XDie.Lost (port : Nat) (v : XDie) : Prop where
  down : port ∈ v.ualinkDown
  queue : ∀ q ∈ v.shared.queue ++ v.shared.heldWrites, q.port ≠ port
  outgoing : ∀ e ∈ v.outgoing, e.2 ≠ port + 2

def PortLost (x port : Nat) (t : State) : Prop := (t.xdie x).Lost port

theorem XDie.Lost.congr {port : Nat} {v w : XDie} (h : v.Lost port) (hd : w.ualinkDown = v.ualinkDown)
    (hs : w.shared = v.shared) (ho : w.outgoing = v.outgoing) : w.Lost port :=
  ⟨hd ▸ h.down, hs ▸ h.queue, ho ▸ h.outgoing⟩

section
variable {x port : Nat}

theorem PortLost.of_xdies {s t : State} (h : PortLost x port s) (ht : t.xdies = s.xdies) : PortLost x port t := by
  rw [PortLost, State.xdie_of_xdies ht]
  exact h

theorem PortLost.apply (s : State) (e : Effect) (he : e.offHost = true) (h : PortLost x port s) :
    PortLost x port (s.apply e) := by
  refine h.of_xdies ?_
  cases e
  case xdie => cases he
  all_goals simp

theorem PortLost.emit {e : Effect} (he : e.offHost = true) : (Act.emit e).Keeps (PortLost x port) :=
  fun s h => PortLost.apply s e he h

theorem PortLost.reqs (l : List Req) : (Act.emit (.reqs l)).Keeps (PortLost x port) := fun _ h => h.of_xdies rfl

theorem PortLost.onReq (id : Nat) (f : Req → Req) : (Act.onReq id f).Keeps (PortLost x port) :=
  .read fun _ => PortLost.reqs _

theorem PortLost.onXDie {y : Nat} {f : XDie → XDie} (hf : y = x → ∀ v, v.Lost port → (f v).Lost port) :
    (Act.onXDie y f).Keeps (PortLost x port) := fun s h => by
  by_cases hy : x = y
  · subst hy
    rw [PortLost, State.xdie_onXDie]
    exact hf rfl _ h
  · rw [PortLost, State.xdie_onXDie_ne _ _ _ hy]
    exact h

theorem PortLost.zeroRead (y p : Nat) : (Act.zeroRead y p).Keeps (PortLost x port) :=
  .read fun _ => .when <| .fresh (fun _ => PortLost.emit rfl) fun _ =>
    .seq (PortLost.onXDie fun _ _ h => h.congr rfl rfl rfl) (PortLost.emit rfl)

/-- A port that a request to the host may use is up (R45). -/
theorem State.hostPort_up {s : State} {y p : Nat} {l : Leaf} {pasid : BitVec 20}
    (h : s.hostPort y l = some (p, pasid)) : p < 2 ∨ p - 2 ∉ (s.xdie y).ualinkDown := by
  unfold State.hostPort at h
  rw [Option.ite_none_right_eq_some] at h
  obtain ⟨hup, heq⟩ := h
  cases heq
  rw [Bool.and_eq_true] at hup
  by_cases hlow : bitField l.entry.toNat 11 8 < 2
  · exact .inl hlow
  · rw [if_neg hlow, Bool.and_eq_true] at hup
    exact .inr (by simpa [State.xdie] using hup.1.2)

/-- Bytes that leave by another port. -/
theorem PortLost.hostSend {y p : Nat} (hp : y = x → p < 2 ∨ p - 2 ≠ port) (id : Nat) (pasid : BitVec 20) (pa n : Nat)
    (posted sys : Bool) : (Act.hostSend id y p pasid pa n posted sys).Keeps (PortLost x port) := .read fun s => by
  split
  · rename_i hshared
    have hlow : 2 ≤ p := by
      simp only [State.sharedAt, Bool.and_eq_true, decide_eq_true_eq] at hshared
      exact hshared.1.2
    refine PortLost.onXDie fun hy v hv => ⟨hv.down, fun q hq => ?_, hv.outgoing⟩
    have hport : p - 2 ≠ port := (hp hy).resolve_left (by omega)
    rcases List.mem_append.mp hq with hq | hq
    · rcases List.mem_append.mp hq with hq | hq
      · exact hv.queue q (List.mem_append_left _ hq)
      · rw [List.mem_singleton.mp hq]
        exact hport
    · exact hv.queue q (List.mem_append_right _ hq)
  · refine .block_cons (PortLost.onXDie fun hy v hv => ?_) <| .block_cons (.each fun _ => PortLost.emit rfl) <|
      .block_cons (.when (PortLost.zeroRead _ _)) .block_nil
    split
    · exact hv.congr rfl rfl rfl
    · refine ⟨hv.down, hv.queue, fun e he => ?_⟩
      have hport : p ≠ port + 2 := by
        rcases hp hy with hp | hp <;> omega
      rcases List.mem_append.mp he with he | he
      · exact hv.outgoing e he
      · rw [List.mem_singleton.mp he]
        exact hport

theorem PortLost.hostWrite (a : Agent) (p : Nat) (asid : Option (BitVec 16)) (va : DWord) (l : Leaf) (pa : Nat)
    (bytes : List Byte) : (Act.hostWrite a p asid va l pa bytes fun _ => .skip).Keeps (PortLost x port) :=
  .fresh (fun _ => PortLost.emit rfl) fun id s h => by
    rw [Act.run_read]
    split
    · exact h
    · rename_i hport
      refine (Act.Keeps.block_cons (PortLost.reqs _) <|
        .block_cons (PortLost.hostSend (fun hy => ?_) _ _ _ _ _ _) <| .block_cons .skip .block_nil) s h
      rw [hy] at hport
      exact (State.hostPort_up hport).imp_right fun hup he => hup (he ▸ h.down)

theorem PortLost.keptByWrites : KeptByWrites (PortLost x port) where
  own s e he := PortLost.apply s e (Effect.offHost_ofWrite he)
  host := PortLost.hostWrite

/-! ### The answers do not bring anything back -/

theorem PortLost.ofOffHost {a : Act} (h : a.Only Effect.offHost) : a.Keeps (PortLost x port) :=
  .ofOffHost PortLost.apply h

theorem PortLost.dropReq (id : Nat) : (Act.dropReq id).Keeps (PortLost x port) := .read fun _ => PortLost.reqs _

theorem PortLost.onFn (y f : Nat) (g : Fn → Fn) : (Act.onFn y f g).Keeps (PortLost x port) :=
  PortLost.onXDie fun _ _ h => h.congr rfl rfl rfl

theorem PortLost.removePart (y id : Nat) : (Act.removePart y id).Keeps (PortLost x port) :=
  PortLost.onXDie fun _ _ h => h.congr rfl rfl rfl

theorem PortLost.told (a : Agent) (tag st : Nat) : (a.told tag st).Keeps (PortLost x port) := by
  unfold Agent.told
  split
  · exact PortLost.emit rfl
  · exact PortLost.emit rfl
  · exact PortLost.emit rfl
  · exact .skip

theorem PortLost.releaseOne (y id : Nat) : (Act.releaseOne y id).Keeps (PortLost x port) := .read fun _ => by
  split
  · exact .skip
  · split
    · exact .skip
    · split
      · refine .seq ?_ (PortLost.removePart _ _)
        split
        · exact PortLost.onFn _ _ _
        · exact PortLost.emit rfl
      · exact .seq (PortLost.told _ _ _) (PortLost.removePart _ _)
      · exact .block_cons (PortLost.onXDie fun _ _ h => h.congr rfl rfl rfl) <| .block_cons (PortLost.reqs _) <|
          .block_cons (.read fun _ => .read fun _ => PortLost.emit rfl) .block_nil
      · exact .skip

theorem PortLost.dropPart (y id : Nat) : (Act.dropPart y id).Keeps (PortLost x port) :=
  .seq (PortLost.removePart _ _) (.read fun _ => .each fun _ => PortLost.releaseOne _ _)

theorem PortLost.arriveBack (q : Req) (bytes : List Byte) (code : Nat) :
    (Act.arriveBack q bytes code).Keeps (PortLost x port) := by
  unfold Act.arriveBack
  dsimp only
  split
  · split
    · exact .block_cons (PortLost.emit rfl) <| .block_cons (PortLost.dropReq _) <|
        .block_cons (PortLost.dropPart _ _) .block_nil
    · exact .seq (PortLost.onReq _ _) (.when (PortLost.onFn _ _ _))
  · exact .block_cons (PortLost.emit rfl) <| .block_cons (PortLost.dropReq _) <|
      .block_cons (PortLost.removePart _ _) .block_nil
  · refine .seq (PortLost.emit rfl) ?_
    split
    · exact .seq (PortLost.dropReq _) (PortLost.dropPart _ _)
    · exact PortLost.onReq _ _
  · exact .seq (PortLost.emit rfl) (PortLost.dropReq _)
  · exact PortLost.onReq _ _

theorem PortLost.turnedAway (q : Req) : (Act.turnedAway q fSeam).Keeps (PortLost x port) := .read fun _ => by
  split
  · exact .block_cons (PortLost.ofOffHost (Act.untrack_offHost _)) <| .block_cons (PortLost.onReq _ _) <|
      .block_cons (PortLost.arriveBack _ _ _) .block_nil
  · exact .seq (PortLost.ofOffHost (Act.untrack_offHost _)) <|
      .seq (PortLost.onReq _ _) (Act.seamFreeze_keeps PortLost.apply PortLost.keptByWrites _ _ _ _)

theorem PortLost.deviceDone (q : Req) (code : Nat) : (Act.deviceDone q code).Keeps (PortLost x port) := by
  refine .seq (PortLost.dropReq _) ?_
  split
  · exact .read fun _ => PortLost.emit rfl
  · exact .skip

theorem PortLost.hostFails (id : Nat) : (Act.hostFails id fSeam).Keeps (PortLost x port) := .read fun _ => by
  split
  · exact .skip
  · split
    · exact PortLost.deviceDone _ _
    · exact .seq (PortLost.onReq _ _) (PortLost.turnedAway _)

end

/-! ### A hart's request that was on its way is answered -/

/-- The request of that number is a hart's, and has been answered once it is done. -/
def HartRequest (id d n : Nat) (done : Prop) (t : State) : Prop :=
  ∃ q, t.reqOf id = some q ∧ q.agent = .hart d n ∧
    (done → q.st = .performed (bytesVec []) fSeam ∧ q.owed = false)

section
variable {id d n : Nat} {done : Prop}

theorem HartRequest.of_reqOf {s t : State} (h : HartRequest id d n done s) (ht : t.reqOf id = s.reqOf id) :
    HartRequest id d n done t := by
  rw [HartRequest, ht]
  exact h

theorem State.reqs_apply_offHost (s : State) {e : Effect} (he : e.offHost = true) : (s.apply e).reqs = s.reqs := by
  cases e
  case reqs => cases he
  all_goals simp

theorem Act.Only.reqs_eq {a : Act} (h : a.Only Effect.offHost) (s : State) : (a.run s).reqs = s.reqs :=
  h.keepsOf (P := fun t => t.reqs = s.reqs) (fun t _ he ht => (t.reqs_apply_offHost he).trans ht) s rfl

theorem HartRequest.apply (s : State) (e : Effect) (he : e.offHost = true) (h : HartRequest id d n done s) :
    HartRequest id d n done (s.apply e) :=
  h.of_reqOf (State.reqOf_of_reqs (s.reqs_apply_offHost he) id)

theorem HartRequest.emit {e : Effect} (he : e.offHost = true) : (Act.emit e).Keeps (HartRequest id d n done) :=
  fun s h => HartRequest.apply s e he h

theorem HartRequest.onXDie (y : Nat) (f : XDie → XDie) : (Act.onXDie y f).Keeps (HartRequest id d n done) :=
  fun s h => h.of_reqOf (State.reqOf_of_reqs (s := s) rfl id)

theorem HartRequest.onFn (y f : Nat) (g : Fn → Fn) : (Act.onFn y f g).Keeps (HartRequest id d n done) :=
  HartRequest.onXDie _ _

theorem HartRequest.append {s : State} (h : HartRequest id d n done s) (r : Req) :
    HartRequest id d n done (s.apply (.reqs (s.reqs ++ [r]))) := by
  obtain ⟨q, hq, hrest⟩ := h
  refine ⟨q, ?_, hrest⟩
  rw [State.reqOf, State.apply_reqs, List.find?_append]
  exact Option.or_eq_some_iff.mpr (.inl hq)

theorem HartRequest.onReq {k : Nat} {f : Req → Req} (hf : ∀ r, (f r).id = r.id) (hk : id ≠ k) :
    (Act.onReq k f).Keeps (HartRequest id d n done) := fun s h => h.of_reqOf (s.reqOf_onReq_ne hf hk)

theorem HartRequest.dropReq {k : Nat} (hk : id ≠ k) : (Act.dropReq k).Keeps (HartRequest id d n done) := fun s h => by
  refine h.of_reqOf ?_
  rw [State.reqOf, State.reqOf]
  show (s.reqs.filter fun q => q.id != k).find? _ = _
  rw [List.find?_filter]
  refine List.find?_congr fun r _ => ?_
  by_cases hr : r.id = id
  · simp [hr, hk]
  · simp [hr]

theorem HartRequest.hostSend (k y p : Nat) (pasid : BitVec 20) (pa m : Nat) (posted sys : Bool) :
    (Act.hostSend k y p pasid pa m posted sys).Keeps (HartRequest id d n done) := .read fun _ => by
  split
  · exact HartRequest.onXDie _ _
  · exact .block_cons (HartRequest.onXDie _ _) <| .block_cons (.each fun _ => HartRequest.emit rfl) <|
      .block_cons (.when (.read fun _ => .when <| .fresh (fun _ => HartRequest.emit rfl) fun _ =>
        .seq (HartRequest.onXDie _ _) (HartRequest.emit rfl))) .block_nil

theorem HartRequest.hostWrite (a : Agent) (p : Nat) (asid : Option (BitVec 16)) (va : DWord) (l : Leaf) (pa : Nat)
    (bytes : List Byte) : (Act.hostWrite a p asid va l pa bytes fun _ => .skip).Keeps (HartRequest id d n done) :=
  .fresh (fun _ => HartRequest.emit rfl) fun k s h => by
    rw [Act.run_read]
    split
    · exact h
    · exact Act.Keeps.after_head (h.append _) <| .block_cons (HartRequest.hostSend _ _ _ _ _ _ _ _) <|
        .block_cons .skip .block_nil

theorem HartRequest.keptByWrites : KeptByWrites (HartRequest id d n done) where
  own s e he := HartRequest.apply s e (Effect.offHost_ofWrite he)
  host := HartRequest.hostWrite

theorem HartRequest.ofOffHost {a : Act} (h : a.Only Effect.offHost) : a.Keeps (HartRequest id d n done) :=
  .ofOffHost HartRequest.apply h

theorem HartRequest.told (a : Agent) (tag st : Nat) : (a.told tag st).Keeps (HartRequest id d n done) := by
  unfold Agent.told
  split
  · exact HartRequest.emit rfl
  · exact HartRequest.emit rfl
  · exact HartRequest.emit rfl
  · exact .skip

theorem HartRequest.releaseOne (y k : Nat) : (Act.releaseOne y k).Keeps (HartRequest id d n done) := fun s h => by
  rw [Act.releaseOne, Act.run_read]
  split
  · exact h
  · split
    · exact h
    · split
      · refine (Act.Keeps.seq ?_ (HartRequest.onXDie _ _)) s h
        split
        · exact HartRequest.onXDie _ _
        · exact HartRequest.emit rfl
      · exact (Act.Keeps.seq (HartRequest.told _ _ _) (HartRequest.onXDie _ _)) s h
      · exact (Act.Keeps.block_cons (P := HartRequest id d n done) (.read fun _ => .read fun _ => HartRequest.emit rfl)
          .block_nil) _ (HartRequest.append (HartRequest.onXDie _ _ s h) _)
      · exact h

theorem HartRequest.dropPart (y k : Nat) : (Act.dropPart y k).Keeps (HartRequest id d n done) :=
  .seq (HartRequest.onXDie _ _) (.read fun _ => .each fun _ => HartRequest.releaseOne _ _)

variable {q : Req} (hq : id ≠ q.id)
include hq

theorem HartRequest.arriveBack (bytes : List Byte) (code : Nat) :
    (Act.arriveBack q bytes code).Keeps (HartRequest id d n done) := by
  have hback : (Act.onReq q.id fun r => { r with back := true }).Keeps (HartRequest id d n done) :=
    HartRequest.onReq (fun _ => rfl) hq
  have hdrop := HartRequest.dropReq (d := d) (n := n) (done := done) hq
  unfold Act.arriveBack
  dsimp only
  split
  · split
    · exact .block_cons (HartRequest.emit rfl) <| .block_cons hdrop <| .block_cons (HartRequest.dropPart _ _) .block_nil
    · exact .seq hback (.when (HartRequest.onFn _ _ _))
  · exact .block_cons (HartRequest.emit rfl) <| .block_cons hdrop <| .block_cons (HartRequest.onXDie _ _) .block_nil
  · refine .seq (HartRequest.emit rfl) ?_
    split
    · exact .seq hdrop (HartRequest.dropPart _ _)
    · exact hback
  · exact .seq (HartRequest.emit rfl) hdrop
  · exact hback

theorem HartRequest.turnedAway : (Act.turnedAway q fSeam).Keeps (HartRequest id d n done) := .read fun _ => by
  have huntrack := HartRequest.ofOffHost (d := d) (n := n) (done := done) (id := id) (Act.untrack_offHost q.id)
  split
  · exact .block_cons huntrack <| .block_cons (HartRequest.onReq (fun _ => rfl) hq) <|
      .block_cons (HartRequest.arriveBack hq _ _) .block_nil
  · exact .seq huntrack <| .seq (HartRequest.onReq (fun _ => rfl) hq)
      (Act.seamFreeze_keeps HartRequest.apply HartRequest.keptByWrites _ _ _ _)

theorem HartRequest.deviceDone (code : Nat) : (Act.deviceDone q code).Keeps (HartRequest id d n done) := by
  refine .seq (HartRequest.dropReq hq) ?_
  split
  · exact .read fun _ => HartRequest.emit rfl
  · exact .skip

omit hq in
theorem HartRequest.hostFails_ne {k : Nat} (hk : id ≠ k) : (Act.hostFails k fSeam).Keeps (HartRequest id d n done) :=
  fun s h => by
    rw [Act.hostFails, Act.run_read]
    split
    · exact h
    · rename_i q hfound
      have hq : id ≠ q.id := State.reqOf_id hfound ▸ hk
      split
      · exact HartRequest.deviceDone hq _ s h
      · exact (Act.Keeps.seq (HartRequest.onReq (f := fun r => { r with owed := false }) (fun _ => rfl) hk)
          (HartRequest.turnedAway hq)) s h

end

section
variable {id d n : Nat}

/-- No region stands for a hart's request: it is settled where it was issued. -/
theorem Act.run_turnedAway_hart {s : State} {q : Req} (hq : q.agent = .hart d n) :
    (Act.turnedAway q fSeam).run s = (Act.settle q [] fSeam).run s := by
  have hnone : s.issuedBy q fSeam 0 = none := by
    unfold State.issuedBy
    rw [hq]
    cases q.region <;> rfl
  rw [Act.turnedAway, Act.run_read, if_pos rfl, hnone]

theorem Act.run_arriveBack_hart {s : State} {q : Req} (hq : q.agent = .hart d n) (bytes : List Byte) (code : Nat) :
    (Act.arriveBack q bytes code).run s = (Act.onReq q.id fun r => { r with back := true }).run s := by
  unfold Act.arriveBack
  rw [hq]

theorem HartRequest.settle {s : State} {q r : Req} (hq : q.agent = .hart d n) (hr : r.agent = .hart d n)
    (hfound : s.reqOf q.id = some r) : HartRequest q.id d n True ((Act.settle q [] fSeam).run s) := by
  have huntracked : ((Act.untrack q.id).run s).reqOf q.id = some r :=
    (State.reqOf_of_reqs ((Act.untrack_offHost q.id).reqs_eq s) _).trans hfound
  have hperformed := State.reqOf_onReq_same (f := fun r : Req =>
    { r with st := .performed (bytesVec []) fSeam, back := r.back || true, owed := false, resp := [] })
    (fun _ => rfl) huntracked
  have hback := State.reqOf_onReq_same (f := fun r : Req => { r with back := true }) (fun _ => rfl) hperformed
  refine ⟨{ r with st := .performed (bytesVec []) fSeam, back := true, owed := false, resp := [] }, ?_, hr,
    fun _ => ⟨rfl, rfl⟩⟩
  rw [Act.settle, Act.run_block_cons, Act.run_block_cons, Act.run_block_cons, Act.run_block_nil,
    Act.run_arriveBack_hart hq]
  exact hback

/-- A hart's request that the host does not take is answered with SEAM_FAILED. -/
theorem HartRequest.hostFails_same {done : Prop} {s : State} (h : HartRequest id d n done s) :
    HartRequest id d n True ((Act.hostFails id fSeam).run s) := by
  obtain ⟨q, hfound, hagent, -⟩ := h
  have hdevice : q.isDevice = false := by rw [Req.isDevice, hagent, Bool.and_false]
  have howed := State.reqOf_onReq_same (f := fun r : Req => { r with owed := false }) (fun _ => rfl) hfound
  rw [Act.hostFails, Act.run_read, hfound]
  dsimp only
  rw [hdevice, if_neg Bool.false_ne_true, Act.run_seq, Act.run_turnedAway_hart hagent]
  have hid := State.reqOf_id hfound
  subst hid
  exact HartRequest.settle (r := { q with owed := false }) hagent hagent howed

theorem HartRequest.hostFails {done : Prop} (k : Nat) : (Act.hostFails k fSeam).Keeps (HartRequest id d n done) :=
  fun s h => by
    by_cases hk : id = k
    · subst hk
      obtain ⟨q, hq, hagent, hdone⟩ := HartRequest.hostFails_same h
      exact ⟨q, hq, hagent, fun _ => hdone trivial⟩
    · exact HartRequest.hostFails_ne hk s h

/-- Of all that was lost, a hart's request is answered. -/
theorem HartRequest.eachFails {lost : List Nat} {s : State} (hid : id ∈ lost) (h : HartRequest id d n False s) :
    HartRequest id d n True ((Act.each lost fun k => .hostFails k fSeam).run s) :=
  Act.Keeps.each_leads hid (fun k => HartRequest.hostFails k) (fun k => HartRequest.hostFails k)
    (fun _ hs => hs.hostFails_same) s h

end

/-! ### The port goes down -/

/-- Requests that were on their way over a port. -/
def XDie.lostOver (v : XDie) (port : Nat) : List Nat :=
  ((v.shared.queue ++ v.shared.heldWrites).filter fun q => q.port == port).map (·.req)
    ++ (v.outgoing.filter fun e => e.2 == port + 2).map (·.1)

theorem XDie.mem_lostOver {v : XDie} {port id : Nat}
    (h : (∃ w ∈ v.shared.queue ++ v.shared.heldWrites, w.req = id ∧ w.port = port) ∨ (id, port + 2) ∈ v.outgoing) :
    id ∈ v.lostOver port := by
  rcases h with ⟨w, hw, hid, hport⟩ | h
  · exact List.mem_append_left _ (List.mem_map.mpr ⟨w, List.mem_filter.mpr ⟨hw, beq_iff_eq.mpr hport⟩, hid⟩)
  · exact List.mem_append_right _ (List.mem_map.mpr ⟨_, List.mem_filter.mpr ⟨h, beq_self_eq_true _⟩, rfl⟩)

/-- The X-die without what was on its way over a port. -/
def XDie.withoutPort (lost : List Nat) (port : Nat) (d : XDie) : XDie :=
  { d with
    ualinkDown := if d.ualinkDown.contains port then d.ualinkDown else port :: d.ualinkDown
    outgoing := d.outgoing.filter fun e => e.2 != port + 2
    shared :=
      { d.shared with
        queue := d.shared.queue.filter fun q => q.port != port
        heldWrites := d.shared.heldWrites.filter fun q => q.port != port
        granted := d.shared.granted.filter fun e => !lost.contains e.1
        copies := d.shared.copies.filter fun e => !(List.range 64).any fun i =>
          d.inRange i (e.1 * 64) && bitField (d.range i 1) 57 56 == port } }

theorem XDie.withoutPort_lost (lost : List Nat) (port : Nat) (d : XDie) : (d.withoutPort lost port).Lost port where
  down := by
    rw [XDie.withoutPort]
    dsimp only
    split
    · rename_i h
      exact List.contains_iff_mem.mp h
    · exact List.mem_cons_self
  queue q hq := by
    rcases List.mem_append.mp hq with hq | hq <;> exact bne_iff_ne.mp (List.mem_filter.mp hq).2
  outgoing _ he := bne_iff_ne.mp (List.mem_filter.mp he).2

theorem exec_ualinkPortDown {s : State} {x port : Nat} (hx : isX x = true) (hport : port < 4) :
    exec (.ualinkPortDown x port) s =
      ((Act.onXDie x (XDie.withoutPort ((s.xdie x).lostOver port) port)).seq
        (.each ((s.xdie x).lostOver port) fun id => .hostFails id fSeam)).next s := by
  show execUalinkPortDown x port s = _
  rw [execUalinkPortDown]
  simp only [hx, hport, decide_true, Bool.and_self]
  rfl

theorem ualinkPortDown_happens {s : State} {x port : Nat} (hx : isX x = true) (hport : port < 4) :
    Happens s (.ualinkPortDown x port) fun t => port ∈ (t.xdie x).ualinkDown ∧
      (∀ q ∈ (t.xdie x).shared.queue ++ (t.xdie x).shared.heldWrites, q.port ≠ port) ∧
      (∀ e ∈ (t.xdie x).outgoing, e.2 ≠ port + 2) ∧
      ∀ id q d n, (∃ w ∈ (s.xdie x).shared.queue ++ (s.xdie x).shared.heldWrites, w.req = id ∧ w.port = port) ∨
        (id, port + 2) ∈ (s.xdie x).outgoing →
        s.reqOf id = some q → q.agent = .hart d n → Answered t id [] fSeam := by
  refine .of_next _ (exec_ualinkPortDown hx hport) ?_
  rw [Act.run_seq]
  have hgone : PortLost x port ((Act.onXDie x (XDie.withoutPort ((s.xdie x).lostOver port) port)).run s) := by
    rw [PortLost, State.xdie_onXDie]
    exact XDie.withoutPort_lost _ _ _
  obtain ⟨hdown, hqueue, houtgoing⟩ : PortLost x port _ := Act.Keeps.each (fun k => PortLost.hostFails k) _ hgone
  refine ⟨hdown, hqueue, houtgoing, fun id q d n hlost hq hagent => ?_⟩
  obtain ⟨r, hr, -, hdone⟩ := HartRequest.eachFails (XDie.mem_lostOver hlost)
    (HartRequest.onXDie (d := d) (n := n) (done := False) x (XDie.withoutPort ((s.xdie x).lostOver port) port) s
      ⟨q, hq, hagent, False.elim⟩)
  exact ⟨r, hr, hdone trivial⟩

end Sys2Proof.Machine
end

section
/-!
The clauses on UALink peers and shared ranges together.
-/
namespace Sys2Proof.Machine

theorem Happens.mono {s : State} {i : Instr} {f g : State → Prop} (h : Happens s i f) (hfg : ∀ t, f t → g t) :
    Happens s i g := by
  obtain ⟨t, ht, hf⟩ := h
  exact ⟨t, ht, hfg t hf⟩

section
variable {s : State} {x : Nat} (hx : isX x = true)
include hx

/-- A committed entry holds the words with their reserved bits clear, and the others stay (R46). -/
theorem expentCommit_words {d : DWord} (hfeat : s.featOn featUaexport = true)
    (h : d.getLsbD 63 = false ∨ ((s.xdie x).expentBytes ≠ 0 ∧ ¬ (s.xdie x).expentClash)) :
    Happens s (.expentCommit x d) fun t => t = { s with xdies := t.xdies } ∧ (t.xdie x).expHeld = [] ∧
      (t.xdie x).exports.get 0 ((s.xdie x).expsel, 0) = (s.xdie x).expentHeld 0 &&& bitsMask 63 16 ∧
      (t.xdie x).exports.get 0 ((s.xdie x).expsel, 1) = (s.xdie x).expentHeld 1 &&& bitsMask 31 0 ∧
      (t.xdie x).exports.get 0 ((s.xdie x).expsel, 2) = (s.xdie x).expentHeld 2 &&& bitsMask 63 16 ∧
      (t.xdie x).exports.get 0 ((s.xdie x).expsel, 3) = d &&& expentMask ∧
      ∀ k j, k ≠ (s.xdie x).expsel → (t.xdie x).exports.get 0 (k, j) = (s.xdie x).exports.get 0 (k, j) :=
  (expentCommit_committed hx hfeat h).mono fun t ⟨hframe, hxdie⟩ => by
    rw [hxdie]
    exact ⟨hframe, rfl, (s.xdie x).expentCommitted_words d⟩

omit hx in
/-- The range's words are in place, and no copy of a line of it is left (R51). -/
theorem srentClearDone_words {i : Nat} {w0 w1 : DWord} (hi : (s.xdie x).clearing.get? i = some (w0, w1))
    (hwrites : ∀ q ∈ (s.xdie x).shared.heldWrites ++ (s.xdie x).shared.queue, (s.xdie x).inRange i q.addr = false)
    (hgranted : ∀ e ∈ (s.xdie x).shared.granted, (s.xdie x).inRange i (e.2 * 64) = false) :
    Happens s (.srentClearDone x i) fun t => t = { s with xdies := t.xdies } ∧
      (t.xdie x).ranges.get 0 (i, 0) = w0 ∧ (t.xdie x).ranges.get 0 (i, 1) = w1 ∧
      (t.xdie x).clearing.get? i = none ∧
      ∀ e ∈ (t.xdie x).shared.copies, (s.xdie x).inRange i (e.1 * 64) = false :=
  (srentClearDone_happens hi hwrites hgranted).mono fun t ⟨hframe, hxdie⟩ => by
    rw [hxdie]
    obtain ⟨hw0, hw1⟩ := (s.xdie x).withRange_words i w0 w1
    exact ⟨hframe, hw0, hw1, Store.get?_erase_same _ _, XDie.cleared_copies⟩

end

/-- Settles O52: each clause by the equation of its event; a port that goes down by what its loss keeps. -/
theorem peersAndSharedRanges : Obligations.PeersAndSharedRanges := by
  intro s x hx
  refine ⟨fun port ua op hport hup hmax hmin hsend hfeat => ⟨fun hnone => ?_, fun e p vd hsome hown =>
      ⟨fun hperm hva hopen halign => ?_, fun hbad => ?_, fun hperm hva hfence => ?_⟩⟩,
    fun req q hq => ⟨sharedRangeWrite_held hq, fun r va n data hr hgoal =>
      ⟨fun held hwhole hheld => sharedRangeRead_copy hq hr hgoal hwhole hheld data,
        fun hheld => sharedRangeRead_fetch hq hr hgoal hheld data⟩⟩,
    fun line q hq hfree => sharedRangeGrant_happens hq hfree,
    fun line => ⟨sharedRangeInvalidate_happens hx, sharedInvalidateAck_sent, fun e => sharedInvalidateAck_waits⟩,
    fun d => ⟨expentCommit_words hx, expentCommit_refused hx⟩,
    fun d hfeat => ⟨srentCommit_committed hx hfeat, srentCommit_refused hx hfeat, srentCommit_clears hx hfeat⟩,
    fun i w0 w1 => srentClearDone_words, fun port hport => ualinkPortDown_happens hx hport⟩
  · refine peerRequest_stopped hx hport hup hmax hmin hsend hfeat ?_
    rw [hnone]
    rfl
  · refine peerRequest_admitted hx hport hup hmax hmin hsend hfeat ?_
    rw [hsome]
    exact State.peerCheck_ok hown hperm hva hopen halign
  · refine peerRequest_stopped hx hport hup hmax hmin hsend hfeat ?_
    rw [hsome]
    exact State.peerCheck_refused hown hbad
  · refine peerRequest_fenced (p := p) (a := expentVa (s.xdie x) ua e) hx hport hup hmax hmin hsend hfeat ?_
    rw [hsome]
    exact State.peerCheck_fenced hown hperm hva hfence

end Sys2Proof.Machine
end

section
/-!
Requests of host functions at the ordering point (R35, R37, R42, R53-R55): looked up in the window, taken in or stopped.
-/
namespace Sys2Proof.Machine

/-! ### Pages -/

theorem splitPages_one {off n : Nat} (hn : 0 < n) (h : off % 4096 + n ≤ 4096) : splitPages off n = [(off, 0, n)] := by
  have hmin : min n (4096 - off % 4096) = n := by omega
  simp only [splitPages, pageParts, hmin, Nat.sub_self, if_neg (Nat.pos_iff_ne_zero.mp hn)]
  cases n / 4096 <;> rfl

theorem Act.run_each_one {α : Type} (s : State) (f : α → Act) (a : α) : (Act.each [a] f).run s = (f a).run s := by
  rw [Act.run_each_cons, Act.run_each_nil]

/-! ### One part looked up and checked -/

/-- The part that a request with this window entry becomes. -/
def windowPart (s : State) (x f tag off : Nat) (kind : InKind) (op : MemOp) (id : Nat) : InPart :=
  { id := id, requester := .func x f, kind := kind, route := s.routeOf (s.fnPart x f) (windowVa (s.window x f off) off)
    goal := .mem (windowVa (s.window x f off) off) op, asid := s.fnAsid x f, vd := if isVf f then fnVd x f else 0
    part := s.fnPart x f, tag := tag, fate := none }

/-- The window entry allows an access of that kind to an address of the partition. -/
structure WindowAllows (s : State) (x f off : Nat) (kind : InKind) : Prop where
  valid : (s.window x f off).getLsbD 63 = true
  perm : (s.window x f off).getLsbD kind.permBit = true
  canonical : s.canonical x (s.fnPart x f) (windowVa (s.window x f off) off) = true

/-- A request that its check stopped, with nothing before it: a posted one is counted, another answered. -/
def Act.stopped (x f tag : Nat) (kind : InKind) (st : Nat) : Act :=
  if (kind == .write || kind == .relaxed) = true then .countDrop x f else .emit (.out (.completion x f tag st []))

section
variable {s : State} {x f tag off : Nat} {kind : InKind} {op : MemOp}

theorem windowAllows_iff : WindowAllows s x f off kind ↔ (s.window x f off).getLsbD 63 = true ∧
    (s.window x f off).getLsbD kind.permBit = true ∧
    s.canonical x (s.fnPart x f) (windowVa (s.window x f off) off) = true :=
  ⟨fun ⟨h1, h2, h3⟩ => ⟨h1, h2, h3⟩, fun ⟨h1, h2, h3⟩ => ⟨h1, h2, h3⟩⟩

theorem windowAllows_iff_check : WindowAllows s x f off kind ↔
    ¬ (!(s.window x f off).getLsbD 63 || !(s.window x f off).getLsbD kind.permBit ||
      !s.canonical x (s.fnPart x f) (windowVa (s.window x f off) off)) = true := by
  rw [windowAllows_iff]
  simp [and_assoc]

/-- No read of that tag stands before. -/
def NoReadBefore (s : State) (x f tag : Nat) : Prop :=
  ((s.xdie x).inbound.any fun q => q.requester == .func x f && q.kind == .read && q.tag == tag) = false

theorem noReadBefore_nil (h : (s.xdie x).inbound = []) : NoReadBefore s x f tag := by
  rw [NoReadBefore, h]
  rfl

variable (hfirst : NoReadBefore s x f tag)

theorem Act.run_inbound_taken (hallow : WindowAllows s x f off kind) (hopen : s.fenced x (s.fnPart x f) = false)
    (halign : kind = .atomic → (windowVa (s.window x f off) off).toNat % op.size = 0) :
    (Act.inbound x f tag off kind op).run s = (Act.takePart x (windowPart s x f tag off kind op)).run s := by
  have hwhole : ¬ (kind == .atomic && (windowVa (s.window x f off) off).toNat % op.size != 0) = true := by
    simpa using halign
  rw [Act.inbound, Act.run_read]
  dsimp only
  rw [if_neg (windowAllows_iff_check.mp hallow), if_neg (Bool.eq_false_iff.mp hopen), if_neg hwhole]
  rfl

include hfirst

theorem Act.run_inbound_refused (h : ¬ WindowAllows s x f off kind) :
    (Act.inbound x f tag off kind op).run s = (Act.stopped x f tag kind stUnsupported).run s := by
  rw [NoReadBefore] at hfirst
  rw [Act.inbound, Act.run_read]
  dsimp only
  rw [if_pos (not_not.mp (mt windowAllows_iff_check.mpr h)), hfirst, Bool.and_false]
  rfl

theorem Act.run_inbound_fenced (hallow : WindowAllows s x f off kind) (h : s.fenced x (s.fnPart x f) = true) :
    (Act.inbound x f tag off kind op).run s = (Act.stopped x f tag kind stAbort).run
      ((Act.countFenced x (s.fnPart x f) (windowVa (s.window x f off) off)).run s) := by
  rw [NoReadBefore] at hfirst
  rw [Act.inbound, Act.run_read]
  dsimp only
  rw [if_neg (windowAllows_iff_check.mp hallow), if_pos h, hfirst, Bool.and_false]
  rfl

theorem Act.run_inbound_misaligned (hallow : WindowAllows s x f off .atomic)
    (hopen : s.fenced x (s.fnPart x f) = false)
    (halign : (windowVa (s.window x f off) off).toNat % op.size ≠ 0) :
    (Act.inbound x f tag off .atomic op).run s = (Act.stopped x f tag .atomic stAbort).run s := by
  rw [NoReadBefore] at hfirst
  have hbad : (InKind.atomic == .atomic && (windowVa (s.window x f off) off).toNat % op.size != 0) = true := by
    simpa using halign
  rw [Act.inbound, Act.run_read]
  dsimp only
  rw [if_neg (windowAllows_iff_check.mp hallow), if_neg (Bool.eq_false_iff.mp hopen), if_pos hbad,
    hfirst, Bool.and_false]
  rfl

end

/-! ### With nothing before it -/

section
variable {s : State} {x f tag off : Nat} {kind : InKind} {op : MemOp} (hin : (s.xdie x).inbound = [])

/-- What a part is when it has been released. -/
theorem Released.takenIn {t : State} (h : Released s t x (windowPart s x f tag off kind op s.nextId)) :
    TakenIn s t x f kind (windowVa (s.window x f off) off) op tag := by
  obtain ⟨hinbound, ⟨way, hreqs⟩, hout, hmem⟩ := h
  exact ⟨_, _, hinbound, rfl, rfl, rfl, hreqs, rfl, rfl, rfl, rfl, rfl, rfl, rfl, hout, hmem⟩

include hin

theorem Act.inbound_takenIn (hallow : WindowAllows s x f off kind) (hopen : s.fenced x (s.fnPart x f) = false)
    (halign : kind = .atomic → (windowVa (s.window x f off) off).toNat % op.size = 0) :
    TakenIn s (((Act.inbound x f tag off kind op).seq (.releaseParts x)).run s) x f kind
      (windowVa (s.window x f off) off) op tag := by
  rw [Act.run_seq, Act.run_inbound_taken hallow hopen halign]
  exact (Act.takePart_alone (c := hostNode x) hin rfl rfl rfl rfl).takenIn

omit hin in
/-- A state from which only registers have changed. -/
def RegsOnly (s u : State) : Prop := u = { s with regs := u.regs }

omit hin in
theorem RegsOnly.refl : RegsOnly s s := rfl

omit hin in
theorem State.xdie_of_regsOnly {u : State} (h : RegsOnly s u) (y : Nat) : u.xdie y = s.xdie y := by
  rw [h]
  rfl

/-- A write that its check stops is counted, and nothing else is left of it. -/
theorem Act.stopped_drops {u : State} (hu : RegsOnly s u) (st : Nat)
    (hposted : (kind == .write || kind == .relaxed) = true) :
    let t := (Act.releaseParts x).run ((Act.stopped x f tag kind st).run u)
    (t.fn x f).drops = oneMore (s.fn x f).drops ∧ (t.xdie x).inbound = [] ∧ t.reqs = s.reqs ∧ t.mem = s.mem := by
  have hxdie := State.xdie_of_regsOnly hu x
  have hnone : (((Act.countDrop x f).run u).xdie x).inbound = [] := by
    rw [Act.countDrop, Act.onFn, State.xdie_onXDie, hxdie]
    exact hin
  rw [Act.stopped, if_pos hposted, Act.run_releaseParts_nil hnone]
  refine ⟨?_, hnone, ?_, ?_⟩
  · rw [Act.countDrop, State.fn_onFn, State.fn, hxdie]
    exact oneMore_of_max rfl _
  · rw [hu]
    rfl
  · rw [hu]
    rfl

/-- Another request that its check stops is answered, and nothing else is left of it. -/
theorem Act.stopped_answers {u : State} (hu : RegsOnly s u) (st : Nat)
    (hposted : (kind == .write || kind == .relaxed) = false) :
    let t := (Act.releaseParts x).run ((Act.stopped x f tag kind st).run u)
    t.outbox = s.outbox ++ [.completion x f tag st []] ∧ (t.xdie x).inbound = [] ∧ t.reqs = s.reqs ∧ t.mem = s.mem := by
  have hnone : (((Act.emit (.out (.completion x f tag st []))).run u).xdie x).inbound = [] := by
    rw [← State.xdie_of_regsOnly hu] at hin
    exact hin
  rw [Act.stopped, if_neg (Bool.eq_false_iff.mp hposted), Act.run_releaseParts_nil hnone]
  refine ⟨?_, hnone, ?_, ?_⟩ <;> (rw [hu]; rfl)

end

/-! ### The events -/

section
variable {s : State} {x f : Nat}

theorem Act.run_forFn (hon : s.fnOn x f = true) (a : Act) : (Act.forFn x f a).run s = a.run s := by
  rw [Act.forFn, Act.run_read, if_pos hon]

theorem Act.run_forFn_off (hx : isX x = true) (hoff : s.fnOn x f = false) (a : Act) :
    (Act.forFn x f a).run s = { s with outbox := s.outbox ++ [.unsupported x f] } := by
  rw [Act.forFn, Act.run_read, if_neg (Bool.eq_false_iff.mp hoff), hx]
  rfl

/-- Nothing but posted writes is tracked, so that every tag is free. -/
theorem XDie.tagRoom_of_posted {v : XDie} (h : ∀ p ∈ v.inbound, p.posted = true) (r : Agent) : v.tagRoom r = true := by
  have hnone : (v.inbound.filter fun p => !p.posted && p.requester.samePort r) = [] := by
    rw [List.filter_eq_nil_iff]
    intro p hp
    simp [h p hp]
  rw [XDie.tagRoom, hnone]
  rfl

end

section
variable {s : State} {x f : Nat} (hx : isX x = true) (hoff : s.fnOn x f = false)
include hx hoff

theorem inboundRead_off (bar : Bar) (hbar : bar ≠ .bar4) (tag off n : Nat) :
    Happens s (.inboundRead x f bar tag off n) fun t => t = { s with outbox := s.outbox ++ [.unsupported x f] } := by
  cases bar with
  | bar0 => exact .of_next _ rfl (Act.run_forFn_off hx hoff _)
  | bar2 => exact .of_next _ rfl (Act.run_forFn_off hx hoff _)
  | bar4 => exact absurd rfl hbar

theorem inboundPostedWrite_off (off : Nat) (data : List Byte) (rel : Bool) :
    Happens s (.inboundPostedWrite x f .bar2 off data rel) fun t =>
      t = { s with outbox := s.outbox ++ [.unsupported x f] } := .of_next _ rfl (Act.run_forFn_off hx hoff _)

end

section
variable {s : State} {x f : Nat} (hon : s.fnOn x f = true)
include hon

theorem Act.next_forFn (a : Act) : (Act.forFn x f a).next s = a.next s :=
  congrArg Host.Outcome.next (Act.run_forFn hon a)

section
variable (hroom : ∀ p ∈ (s.xdie x).inbound, p.posted = true)
include hroom

theorem exec_inboundRead_pages (tag off n : Nat) : exec (.inboundRead x f .bar2 tag off n) s =
    ((Act.each (splitPages off n) fun q => .inbound x f tag q.1 .read (.load q.2.2)).seq (.releaseParts x)).next s := by
  show (Act.forFn x f _).next s = _
  rw [Act.next_forFn hon, XDie.tagRoom_of_posted hroom]
  rfl

theorem exec_inboundRead_page {off n : Nat} (hn : 0 < n) (hpage : off % 4096 + n ≤ 4096) (tag : Nat) :
    exec (.inboundRead x f .bar2 tag off n) s =
      ((Act.inbound x f tag off .read (.load n)).seq (.releaseParts x)).next s := by
  rw [exec_inboundRead_pages hon hroom, splitPages_one hn hpage]
  rfl

theorem exec_inboundAtomicop (tag off : Nat) (op : HostAtomic) : exec (.inboundAtomicop x f tag off op) s =
    ((Act.inbound x f tag off .atomic (.rmw (atomicRmw op) true)).seq (.releaseParts x)).next s := by
  show (Act.forFn x f _).next s = _
  rw [Act.next_forFn hon, XDie.tagRoom_of_posted hroom]
  rfl

end

/-- The kind of a posted write: relaxed, or in order. -/
def writeKind (rel : Bool) : InKind := if rel then .relaxed else .write

theorem exec_inboundPostedWrite_page (hin : (s.xdie x).inbound = []) {off : Nat} {data : List Byte} (hdata : data ≠ [])
    (hpage : off % 4096 + data.length ≤ 4096) (rel : Bool) : exec (.inboundPostedWrite x f .bar2 off data rel) s =
      ((Act.inbound x f 0 off (writeKind rel) (.store (data.map some))).seq (.releaseParts x)).next s := by
  show (Act.forFn x f _).next s = _
  rw [Act.next_forFn hon, splitPages_one (List.length_pos_iff.mpr hdata) hpage, List.length_singleton,
    XDie.roomFor_empty hin]
  show ((Act.inbound x f 0 off (writeKind rel) (.store (((data.drop 0).take data.length).map some))).seq
    (.releaseParts x)).next s = _
  rw [List.drop_zero, List.take_length]

omit hon in
theorem writeKind_posted (rel : Bool) : (writeKind rel == .write || writeKind rel == .relaxed) = true := by
  cases rel <;> rfl

omit hon in
theorem windowAllows_writeKind {off : Nat} (rel : Bool) :
    WindowAllows s x f off (writeKind rel) ↔ WindowAllows s x f off .write := by
  cases rel
  · rfl
  · rw [windowAllows_iff, windowAllows_iff]
    rfl

section
variable (hin : (s.xdie x).inbound = []) {off : Nat}
include hin

omit hon in
theorem posted_of_empty : ∀ p ∈ (s.xdie x).inbound, p.posted = true := by
  rw [hin]
  exact fun p hp => absurd hp List.not_mem_nil

section
variable {data : List Byte} (hdata : data ≠ []) (hpage : off % 4096 + data.length ≤ 4096) (rel : Bool)
include hdata hpage

theorem inboundPostedWrite_taken (hallow : WindowAllows s x f off .write) (hopen : s.fenced x (s.fnPart x f) = false) :
    Happens s (.inboundPostedWrite x f .bar2 off data rel) fun t => TakenIn s t x f (if rel then .relaxed else .write)
      (windowVa (s.window x f off) off) (.store (data.map some)) 0 := by
  refine .of_next _ (exec_inboundPostedWrite_page hon hin hdata hpage rel) ?_
  refine Act.inbound_takenIn hin ((windowAllows_writeKind rel).mpr hallow) hopen fun hkind => ?_
  cases rel <;> cases hkind

theorem inboundPostedWrite_drops (h : ¬ WindowAllows s x f off .write ∨ ¬ s.fenced x (s.fnPart x f) = false) :
    Happens s (.inboundPostedWrite x f .bar2 off data rel) fun t => (t.fn x f).drops = oneMore (s.fn x f).drops ∧
      (t.xdie x).inbound = [] ∧ t.reqs = s.reqs ∧ t.mem = s.mem := by
  refine .of_next _ (exec_inboundPostedWrite_page hon hin hdata hpage rel) ?_
  rw [Act.run_seq]
  by_cases hallow : WindowAllows s x f off .write
  · have hfence := eq_true_of_ne_false (h.resolve_left (not_not.mpr hallow))
    rw [Act.run_inbound_fenced (noReadBefore_nil hin) ((windowAllows_writeKind rel).mpr hallow) hfence]
    exact Act.stopped_drops hin (Act.countFenced_frame _ _ _ _) _ (writeKind_posted rel)
  · rw [Act.run_inbound_refused (noReadBefore_nil hin) (mt (windowAllows_writeKind rel).mp hallow)]
    exact Act.stopped_drops hin RegsOnly.refl _ (writeKind_posted rel)

end

/-- The request was answered with a status, and nothing else is left of it. -/
def AnsweredWith (s : State) (x f tag st : Nat) (t : State) : Prop :=
  t.outbox = s.outbox ++ [.completion x f tag st []] ∧ (t.xdie x).inbound = [] ∧ t.reqs = s.reqs ∧ t.mem = s.mem

section
variable {n : Nat} (hn : 0 < n) (hpage : off % 4096 + n ≤ 4096) (tag : Nat)
include hn hpage

theorem inboundRead_taken (hallow : WindowAllows s x f off .read) (hopen : s.fenced x (s.fnPart x f) = false) :
    Happens s (.inboundRead x f .bar2 tag off n) fun t =>
      TakenIn s t x f .read (windowVa (s.window x f off) off) (.load n) tag :=
  .of_next _ (exec_inboundRead_page hon (posted_of_empty hin) hn hpage tag)
    (Act.inbound_takenIn hin hallow hopen fun hkind => nomatch hkind)

theorem inboundRead_refused (h : ¬ WindowAllows s x f off .read) :
    Happens s (.inboundRead x f .bar2 tag off n) (AnsweredWith s x f tag 1) := by
  refine .of_next _ (exec_inboundRead_page hon (posted_of_empty hin) hn hpage tag) ?_
  rw [Act.run_seq, Act.run_inbound_refused (noReadBefore_nil hin) h]
  exact Act.stopped_answers hin RegsOnly.refl _ rfl

theorem inboundRead_fenced (hallow : WindowAllows s x f off .read) (hfence : s.fenced x (s.fnPart x f) = true) :
    Happens s (.inboundRead x f .bar2 tag off n) (AnsweredWith s x f tag 4) := by
  refine .of_next _ (exec_inboundRead_page hon (posted_of_empty hin) hn hpage tag) ?_
  rw [Act.run_seq, Act.run_inbound_fenced (noReadBefore_nil hin) hallow hfence]
  exact Act.stopped_answers hin (Act.countFenced_frame _ _ _ _) _ rfl

end

section
variable (tag : Nat) (op : HostAtomic)

theorem inboundAtomicop_taken (hallow : WindowAllows s x f off .atomic) (hopen : s.fenced x (s.fnPart x f) = false)
    (halign : (windowVa (s.window x f off) off).toNat % (atomicRmw op).size = 0) :
    Happens s (.inboundAtomicop x f tag off op) fun t =>
      TakenIn s t x f .atomic (windowVa (s.window x f off) off) (.rmw (atomicRmw op) true) tag :=
  .of_next _ (exec_inboundAtomicop hon (posted_of_empty hin) tag off op)
    (Act.inbound_takenIn hin hallow hopen fun _ => halign)

theorem inboundAtomicop_refused (h : ¬ WindowAllows s x f off .atomic) :
    Happens s (.inboundAtomicop x f tag off op) (AnsweredWith s x f tag 1) := by
  refine .of_next _ (exec_inboundAtomicop hon (posted_of_empty hin) tag off op) ?_
  rw [Act.run_seq, Act.run_inbound_refused (noReadBefore_nil hin) h]
  exact Act.stopped_answers hin RegsOnly.refl _ rfl

theorem inboundAtomicop_stopped (hallow : WindowAllows s x f off .atomic)
    (h : ¬ s.fenced x (s.fnPart x f) = false ∨ (windowVa (s.window x f off) off).toNat % (atomicRmw op).size ≠ 0) :
    Happens s (.inboundAtomicop x f tag off op) (AnsweredWith s x f tag 4) := by
  refine .of_next _ (exec_inboundAtomicop hon (posted_of_empty hin) tag off op) ?_
  rw [Act.run_seq]
  by_cases hopen : s.fenced x (s.fnPart x f) = false
  · rw [Act.run_inbound_misaligned (op := .rmw (atomicRmw op) true) (noReadBefore_nil hin) hallow hopen
      (h.resolve_left (not_not.mpr hopen))]
    exact Act.stopped_answers hin RegsOnly.refl _ rfl
  · rw [Act.run_inbound_fenced (noReadBefore_nil hin) hallow (eq_true_of_ne_false hopen)]
    exact Act.stopped_answers hin (Act.countFenced_frame _ _ _ _) _ rfl

end

/-! ### Reads over several pages, behind a write, of the mailbox page -/

omit hon hin in
/-- Pages without a valid window entry: each is answered. -/
theorem Act.run_inbound_invalid (tag : Nat) (pages : List (Nat × Nat × Nat)) : ∀ {s : State},
    (s.xdie x).inbound = [] → (∀ q ∈ pages, (s.window x f q.1).getLsbD 63 = false) →
    (Act.each pages fun q => .inbound x f tag q.1 .read (.load q.2.2)).run s =
      { s with outbox := s.outbox ++ pages.map fun _ => .completion x f tag 1 [] } := by
  induction pages with
  | nil => exact fun _ _ => by rw [Act.run_each_nil, List.map_nil, List.append_nil]
  | cons q rest ih =>
    intro s hin hpages
    have hbad : ¬ WindowAllows s x f q.1 .read := fun h =>
      Bool.false_ne_true ((hpages q List.mem_cons_self).symm.trans h.valid)
    rw [Act.run_each_cons, Act.run_inbound_refused (noReadBefore_nil hin) hbad]
    refine (ih (s := { s with outbox := s.outbox ++ [.completion x f tag 1 []] }) hin
      fun r hr => hpages r (List.mem_cons_of_mem _ hr)).trans ?_
    rw [List.append_assoc]
    rfl

theorem inboundRead_invalid (tag n : Nat) (hpages : ∀ q ∈ splitPages off n, (s.window x f q.1).getLsbD 63 = false) :
    Happens s (.inboundRead x f .bar2 tag off n) fun t =>
      t = { s with outbox := s.outbox ++ (splitPages off n).map fun _ => .completion x f tag 1 [] } := by
  refine .of_next _ (exec_inboundRead_pages hon (posted_of_empty hin) tag off n) ?_
  rw [Act.run_seq, Act.run_inbound_invalid tag _ hin hpages]
  exact Act.run_releaseParts_nil hin

end

section
variable {w : InPart} (hin : (s.xdie x).inbound = [w])

omit hon in
/-- A part that was released, or may not be, stays as it is. -/
theorem Act.run_releaseOne_stays {u : State} {p : InPart} {id : Nat}
    (hfind : ((u.xdie x).inbound.find? fun q => q.id == id) = some p)
    (h : p.released = true ∨ (u.xdie x).mayRelease p = false) : (Act.releaseOne x id).run u = u := by
  have hstays : (p.released || !(u.xdie x).mayRelease p) = true := by
    rcases h with h | h <;> simp [h]
  rw [Act.releaseOne, Act.run_read, hfind]
  dsimp only
  rw [if_pos hstays]
  rfl

omit hon in
theorem Act.run_releaseParts_released {u : State} (hin : (u.xdie x).inbound = [w]) (hrel : w.released = true) :
    (Act.releaseParts x).run u = u := by
  rw [Act.run_releaseParts_alone hin]
  exact Act.run_releaseOne_stays (find?_id_alone hin) (.inl hrel)

omit hon in
/-- A read behind a posted write of its requester stays (R54). -/
theorem Act.run_releaseParts_behind {u : State} {p : InPart} (hin : (u.xdie x).inbound = [w, p])
    (hposted : w.posted = true) (hrel : w.released = true) (hne : w.id ≠ p.id) (hsame : w.requester = p.requester)
    (hread : p.kind = .read) : (Act.releaseParts x).run u = u := by
  have hw : ((u.xdie x).inbound.find? fun q => q.id == w.id) = some w := by simp [hin]
  have hp : ((u.xdie x).inbound.find? fun q => q.id == p.id) = some p := by simp [hin, hne]
  have hbehind : (u.xdie x).mayRelease p = false := by
    have hbefore : (u.xdie x).before p = [w] := by simp [XDie.before, hin, hne, hsame]
    unfold XDie.mayRelease
    rw [hbefore, hread]
    simp [hposted]
  rw [Act.releaseParts, Act.run_read, hin, List.map_cons, List.map_cons, List.map_nil, Act.run_each_cons,
    Act.run_releaseOne_stays hw (.inl hrel), Act.run_each_one, Act.run_releaseOne_stays hp (.inr hbehind)]

include hin

theorem inboundRead_behind (hsame : w.requester = .func x f) (hposted : w.posted = true) (hrel : w.released = true)
    (hold : w.id < s.nextId) {off n : Nat} (hn : 0 < n) (hpage : off % 4096 + n ≤ 4096) (tag : Nat) :
    Happens s (.inboundRead x f .bar2 tag off n) fun t => t.reqs = s.reqs ∧ t.mem = s.mem := by
  have hroom : ∀ p ∈ (s.xdie x).inbound, p.posted = true := by
    rw [hin]
    exact fun p hp => List.mem_singleton.mp hp ▸ hposted
  have hfirst : NoReadBefore s x f tag := by
    have hkind : (w.kind == .read) = false := by
      rw [InPart.posted] at hposted
      cases hk : w.kind <;> simp [hk] at hposted ⊢
    rw [NoReadBefore, hin]
    simp [hkind]
  have hstopped : ∀ (u : State) (st : Nat), RegsOnly s u →
      (Act.releaseParts x).run ((Act.stopped x f tag .read st).run u) = (Act.stopped x f tag .read st).run u :=
    fun u st hu => Act.run_releaseParts_released (w := w)
      ((congrArg XDie.inbound (State.xdie_of_regsOnly hu x)).trans hin) hrel
  refine .of_next _ (exec_inboundRead_page hon hroom hn hpage tag) ?_
  rw [Act.run_seq]
  by_cases hallow : WindowAllows s x f off .read
  · by_cases hopen : s.fenced x (s.fnPart x f) = false
    · have htaken : (((Act.takePart x (windowPart s x f tag off .read (.load n))).run s).xdie x).inbound =
          [w, windowPart s x f tag off .read (.load n) s.nextId] := by
        rw [Act.takePart, Act.run_fresh, State.xdie_onXDie, State.xdie_of_xdies (s := s) (by simp), hin]
        rfl
      rw [Act.run_inbound_taken hallow hopen fun hkind => (nomatch hkind),
        Act.run_releaseParts_behind htaken hposted hrel (Nat.ne_of_lt hold) hsame rfl]
      exact ⟨rfl, rfl⟩
    · rw [Act.run_inbound_fenced hfirst hallow (eq_true_of_ne_false hopen), hstopped _ _ (Act.countFenced_frame _ _ _ _),
        Act.countFenced_frame]
      exact ⟨rfl, rfl⟩
  · rw [Act.run_inbound_refused hfirst hallow, hstopped _ _ RegsOnly.refl]
    exact ⟨rfl, rfl⟩

end

/-- The part of a read of the mailbox page. -/
def mailboxRead (x f tag off n id : Nat) : InPart :=
  { id := id, requester := .func x f, kind := .read, route := .mailbox f, goal := .mem 0 (.load n), asid := none
    vd := 0, tag := tag, mailbox := some (off, []) }

omit hon in
theorem exec_inboundRead_mailbox (hon : s.fnOn x f = true) (hin : (s.xdie x).inbound = []) (tag off n : Nat) :
    exec (.inboundRead x f .bar0 tag off n) s =
      ((Act.takePart x (mailboxRead x f tag off n)).seq (.releaseParts x)).next s := by
  show (Act.forFn x f _).next s = _
  rw [Act.next_forFn hon, XDie.tagRoom_of_posted (posted_of_empty hin)]
  rfl

omit hon in
theorem Act.run_releaseParts_mailbox {u : State} {tag off n id : Nat}
    (hin : (u.xdie x).inbound = [mailboxRead x f tag off n id]) : (Act.releaseParts x).run u =
      (Act.removePart x id).run
        { u with outbox := u.outbox ++ [.completion x f tag 0 (u.pageBytes x f off n)] } := by
  have hfind := find?_id_alone hin
  rw [Act.run_releaseParts_alone hin, Act.releaseOne, Act.run_read, hfind]
  dsimp only
  rw [XDie.mayRelease_alone hin]
  rfl

omit hon in
theorem State.pageBytes_congr {s u : State} (hfn : u.fn x f = s.fn x f) (hfeat : u.feat = s.feat) (off n : Nat) :
    u.pageBytes x f off n = s.pageBytes x f off n := by
  simp only [State.pageBytes, State.pageByte, hfn, hfeat]

/-- A read of the mailbox page with nothing before it is answered at once (R37). -/
theorem inboundRead_mailbox (hin : (s.xdie x).inbound = []) (tag off n : Nat) :
    Happens s (.inboundRead x f .bar0 tag off n) fun t =>
      t.outbox = s.outbox ++ [.completion x f tag 0 (s.pageBytes x f off n)] ∧ (t.xdie x).inbound = [] ∧
        t.mem = s.mem := by
  refine .of_next _ (exec_inboundRead_mailbox hon hin tag off n) ?_
  generalize hu : (Act.takePart x (mailboxRead x f tag off n)).run s = u
  have hxdie : u.xdie x = { s.xdie x with inbound := [mailboxRead x f tag off n s.nextId] } := by
    rw [← hu, Act.takePart, Act.run_fresh, State.xdie_onXDie, State.xdie_of_xdies (s := s) (by simp), hin]
    rfl
  have hpage : u.pageBytes x f off n = s.pageBytes x f off n :=
    State.pageBytes_congr (by rw [State.fn, hxdie]; rfl) (by rw [← hu]; rfl) off n
  rw [Act.run_seq, hu, Act.run_releaseParts_mailbox (congrArg XDie.inbound hxdie), hpage]
  refine ⟨?_, ?_, ?_⟩
  · rw [← hu]
    rfl
  · rw [Act.removePart, State.xdie_onXDie]
    show (u.xdie x).inbound.filter _ = []
    rw [hxdie]
    simp [mailboxRead]
  · rw [← hu]
    rfl

end

/-! ### A write acknowledged (R53), a held request whose time is over (R42) -/

section
variable {x id : Nat} {m : Memory}

/-- No part of that number is left at the ordering point, and memory is as it was. -/
def PartGone (x id : Nat) (m : Memory) (t : State) : Prop :=
  (∀ p ∈ (t.xdie x).inbound, p.id ≠ id) ∧ t.mem = m

theorem PartGone.of_xdies {s t : State} (h : PartGone x id m s) (ht : t.xdies = s.xdies) (hm : t.mem = s.mem) :
    PartGone x id m t := by
  rw [PartGone, State.xdie_of_xdies ht, hm]
  exact h

theorem PartGone.onXDie {y : Nat} {f : XDie → XDie}
    (hf : ∀ v : XDie, (∀ p ∈ v.inbound, p.id ≠ id) → ∀ p ∈ (f v).inbound, p.id ≠ id) :
    (Act.onXDie y f).Keeps (PartGone x id m) := fun s ⟨h, hm⟩ => by
  refine ⟨?_, hm⟩
  by_cases hy : x = y
  · subst hy
    rw [State.xdie_onXDie]
    exact hf _ h
  · rw [State.xdie_onXDie_ne _ _ _ hy]
    exact h

theorem PartGone.onFn (y f : Nat) (g : Fn → Fn) : (Act.onFn y f g).Keeps (PartGone x id m) :=
  PartGone.onXDie fun _ h => h

theorem PartGone.removePart (y k : Nat) : (Act.removePart y k).Keeps (PartGone x id m) :=
  PartGone.onXDie fun _ h p hp => h p (List.mem_filter.mp hp).1

theorem PartGone.out (o : OutMsg) : (Act.emit (.out o)).Keeps (PartGone x id m) := fun _ h => h.of_xdies rfl rfl

theorem PartGone.told (a : Agent) (tag st : Nat) : (a.told tag st).Keeps (PartGone x id m) := by
  unfold Agent.told
  split
  · exact PartGone.out _
  · exact PartGone.out _
  · exact PartGone.out _
  · exact .skip

theorem PartGone.releaseOne (y k : Nat) : (Act.releaseOne y k).Keeps (PartGone x id m) := .read fun _ => by
  split
  · exact .skip
  · split
    · exact .skip
    · split
      · refine .seq ?_ (PartGone.removePart _ _)
        split
        · exact PartGone.onFn _ _ _
        · exact PartGone.out _
      · exact .seq (PartGone.told _ _ _) (PartGone.removePart _ _)
      · refine .block_cons (PartGone.onXDie fun v h p hp => ?_) <|
          .block_cons (fun _ h => h.of_xdies rfl rfl) <| .block_cons (fun _ h => h.of_xdies rfl rfl) .block_nil
        obtain ⟨r, hr, rfl⟩ := List.mem_map.mp hp
        split
        · exact h r hr
        · exact h r hr
      · exact .skip

theorem PartGone.releaseParts (y : Nat) : (Act.releaseParts y).Keeps (PartGone x id m) :=
  .read fun _ => .each fun _ => PartGone.releaseOne _ _

theorem Act.removePart_gone (s : State) : PartGone x id s.mem ((Act.removePart x id).run s) := by
  refine ⟨?_, rfl⟩
  rw [Act.removePart, State.xdie_onXDie]
  exact fun p hp => bne_iff_ne.mp (List.mem_filter.mp hp).2

variable {s : State}

theorem exec_inboundWriteAck (hpart : ∃ p ∈ (s.xdie x).inbound, p.id = id ∧ p.posted = true ∧ p.released = true)
    (hback : ∀ q, s.reqOf id = some q → q.acked = true ∧ q.back = true) :
    exec (.inboundWriteAck x id) s = ((Act.dropReq id).seq (.dropPart x id)).next s := by
  obtain ⟨p, hp, hid, hposted, hrel⟩ := hpart
  have hall : ((s.reqOf id).all fun q => q.acked && q.back) = true := by
    rw [Option.all_eq_true]
    intro q hq
    simp [hback q hq]
  have hany : ((s.xdie x).inbound.any fun p => p.id == id && p.posted && p.released
      && (s.reqOf id).all fun q => q.acked && q.back) = true :=
    List.any_eq_true.mpr ⟨p, hp, by simp [hid, hposted, hrel, hall]⟩
  show (Act.when _ _).next s = _
  rw [hany]
  rfl

theorem inboundWriteAck_happens
    (hpart : ∃ p ∈ (s.xdie x).inbound, p.id = id ∧ p.posted = true ∧ p.released = true)
    (hback : ∀ q, s.reqOf id = some q → q.acked = true ∧ q.back = true) :
    Happens s (.inboundWriteAck x id) fun t => (∀ p ∈ (t.xdie x).inbound, p.id ≠ id) ∧ t.mem = s.mem :=
  .of_next _ (exec_inboundWriteAck hpart hback) (PartGone.releaseParts x _ (Act.removePart_gone _))

theorem Node.mem_push (n : Node) (k : Dir × Nat) (p : Packet) : p ∈ (n.push k p).bufs.get [] k := by
  simp [Node.push, Store.get_put_same]

theorem Node.mem_push_of_mem (n : Node) (k j : Dir × Nat) {p r : Packet} (h : r ∈ n.bufs.get [] j) :
    r ∈ (n.push k p).bufs.get [] j := by
  by_cases hj : j = k
  · subst hj
    simp [Node.push, Store.get_put_same, h]
  · simp [Node.push, Store.get_put_ne _ _ _ hj, h]

/-- A response stands at the switch of its home. -/
theorem Act.respond_responds (s : State) (q : Req) (beats : Nat) :
    Responds ((Act.respond q (.response q.id) beats).run s) q := by
  intro c hc
  refine ⟨s.goalCell q.agent.die q.part q.goal, ?_⟩
  unfold Act.respond
  rw [hc]
  dsimp only
  rw [Act.run_read, Act.onNode, Act.run_read, Act.run_emit, State.apply_node, Store.get_put_same]
  exact ⟨_, Node.mem_push _ _ _, rfl, rfl⟩

theorem inboundHoldTimeout_happens {q : Req}
    (hheld : ∃ p ∈ (s.xdie x).inbound, p.id = id ∧ ∃ c, p.heldAt = some c ∧ c + 1000 * usCycles ≤ s.cycle)
    (hq : s.reqOf id = some q) : Happens s (.inboundHoldTimeout x id) fun t =>
      Answered t id [] transMiss ∧ Responds t q ∧ t.mem = s.mem := by
  obtain ⟨p, hp, hid, c, hc, hdue⟩ := hheld
  have hexec : exec (.inboundHoldTimeout x id) s = (Act.answer q [] transMiss).next s := by
    have hany : ((s.xdie x).inbound.any fun p => p.id == id && (match p.heldAt with
        | some t => decide (t + 1000 * usCycles ≤ s.cycle)
        | none => false)) = true := List.any_eq_true.mpr ⟨p, hp, by simp [hid, hc, hdue]⟩
    show execInboundHoldTimeout x id s = _
    rw [execInboundHoldTimeout, hq]
    exact congrArg (fun b => (Act.when b (Act.answer q [] transMiss)).next s) hany
  refine .of_next _ hexec ?_
  have hid := State.reqOf_id hq
  subst hid
  refine ⟨Act.answer_answered hq _ _, ?_, ?_⟩
  · rw [Act.run_answer]
    exact Act.respond_responds _ _ _
  · rw [Act.answer_frame]

end

end Sys2Proof.Machine
end

section
/-!
Completions of requests to the host (R45): the request is answered, and what waited for it leaves.
-/
namespace Sys2Proof.Machine

/-! ### What waits to leave touches no answer -/

section
variable {id code : Nat} {bytes : List Byte} {q : Req}

theorem Act.sendAgain_answered (c : CellId) (p : Nat) {r : Req} {l : List Nat} (hr : r.st = .waiting l) :
    (Act.sendAgain c p r).Keeps fun t => Answered t id bytes code := fun s ⟨a, ha, hst, howed⟩ => by
  rw [Act.sendAgain, Act.run_read, Act.run_seq]
  generalize hf : (fun a : Req => if a.st = r.st then { a with st := .net, way := s.wayTo c p r.goal } else a) = f
  have hid : ∀ a : Req, (f a).id = a.id := fun a => by
    rw [← hf]
    dsimp only
    split <;> rfl
  have hsame : f a = a := by
    rw [← hf]
    dsimp only
    rw [if_neg fun h => ?_]
    rw [hst, hr] at h
    cases h
  refine ⟨a, ?_, hst, howed⟩
  rw [Act.send_frame]
  show ((Act.onReq r.id f).run s).reqOf id = some a
  rw [State.reqOf_onReq s hid, ha, Option.map_some, hsame, ite_self]

theorem Responds.of_nodes {s t : State} (h : Responds s q) (ht : t.nodes = s.nodes) : Responds t q := by
  rw [Responds, ht]
  exact h

/-- A packet that is put into a switch leaves the others there. -/
theorem Responds.push {s : State} (h : Responds s q) (c : CellId) (k : Dir × Nat) (p : Packet) :
    Responds ((Act.onNode c fun n => n.push k p).run s) q := fun d hd => by
  obtain ⟨n, r, hr, hload, hdst⟩ := h d hd
  refine ⟨n, r, ?_, hload, hdst⟩
  rw [Act.onNode, Act.run_read, Act.run_emit, State.apply_node]
  by_cases hn : n = c
  · subst hn
    rw [Store.get_put_same]
    exact Node.mem_push_of_mem _ _ _ hr
  · rw [Store.get_put_ne _ _ _ hn]
    exact hr

theorem Act.sendAgain_responds (c : CellId) (p : Nat) (r : Req) : (Act.sendAgain c p r).Keeps fun t => Responds t q :=
  fun s h => by
    rw [Act.sendAgain, Act.run_read, Act.run_seq, Act.send, Act.run_read]
    exact Responds.push (s := (Act.onReq r.id _).run s) (h.of_nodes rfl) _ _ _

theorem Act.releaseWaiting_answered : Act.releaseWaiting.Keeps fun t => Answered t id bytes code := .read fun s =>
  .each_mem fun r hr => by
    obtain ⟨l, hl⟩ : ∃ l, r.st = .waiting l := by
      have hwaits := (List.mem_filter.mp hr).2
      cases hst : r.st <;> simp [hst] at hwaits ⊢
    split
    · exact Act.sendAgain_answered _ _ hl
    · exact .skip

theorem Act.releaseWaiting_responds : Act.releaseWaiting.Keeps fun t => Responds t q := .read fun s => .each fun r => by
  split
  · exact Act.sendAgain_responds _ _ _
  · exact .skip

end

/-! ### The event -/

section
variable {s : State} {req : Nat} {q : Req} {va : DWord} {op : MemOp} (data : List Byte)
  (hq : s.reqOf req = some q) (hgoal : q.goal = .mem va op)
  (hout : ∃ y ∈ xDies, ∃ e ∈ (s.xdie y).outgoing, e.1 = req) (hflush : ∀ y ∈ xDies, (s.xdie y).flush req = none)
  (hland : q.landed = false)
include hq hgoal hout hflush hland

/-- The X-die without the request on its way, and the request no longer owed. -/
def Act.taken (x : Nat) (q : Req) : Act :=
  (Act.onXDie x fun v =>
    { v with
      outgoing := v.outgoing.filter fun e => e.1 != q.id
      shared := { v.shared with granted := v.shared.granted.filter fun e => e.1 != q.id } }).seq
  (Act.onReq q.id fun r => { r with owed := false })

theorem exec_outboundHostCompletion (ok : Bool) : ∃ x, exec (.outboundHostCompletion req ok data) s =
    ((Act.taken x q).seq ((if ok then Act.answer q (if op.returns then data.take op.size else []) 0
      else Act.refused q va op transPerm).seq .releaseWaiting)).next s := by
  have hnone : xDies.find? (fun x => ((s.xdie x).flush req).isSome) = none :=
    List.find?_eq_none.mpr fun y hy => by rw [hflush y hy]; exact Bool.false_ne_true
  obtain ⟨x, hx⟩ : ∃ x, xDies.find? (fun x => (s.xdie x).outgoing.any fun e => e.1 == req) = some x := by
    obtain ⟨y, hy, e, he, hid⟩ := hout
    exact Option.isSome_iff_exists.mp (List.find?_isSome.mpr
      ⟨y, hy, List.any_eq_true.mpr ⟨e, he, beq_iff_eq.mpr hid⟩⟩)
  have hdevice : q.isDevice = false := by rw [Req.isDevice, hland, Bool.false_and]
  refine ⟨x, ?_⟩
  show execOutboundHostCompletion req ok data s = _
  rw [execOutboundHostCompletion, hnone, hx]
  dsimp only
  rw [hq]
  dsimp only
  rw [Act.completed, hdevice, hgoal]
  rfl

omit hgoal hout hflush hland in
theorem Act.taken_reqOf (x : Nat) : ((Act.taken x q).run s).reqOf q.id = some { q with owed := false } := by
  rw [← State.reqOf_id hq] at hq
  exact State.reqOf_onReq_same (f := fun r : Req => { r with owed := false }) (fun _ => rfl) hq

theorem outboundHostCompletion_ok : Happens s (.outboundHostCompletion req true data) fun t =>
    Answered t req (if op.returns then data.take op.size else []) 0 ∧ Responds t q := by
  obtain ⟨x, hexec⟩ := exec_outboundHostCompletion data hq hgoal hout hflush hland true
  refine .of_next _ hexec ?_
  have hans := Act.answer_answered (Act.taken_reqOf hq x) (if op.returns then data.take op.size else []) 0
  rw [State.reqOf_id hq] at hans
  exact ⟨Act.releaseWaiting_answered _ hans, Act.releaseWaiting_responds _ (Act.respond_responds _ _ _)⟩

/-- A hart's request that the host refused is answered with TRANS_PERM: no region stands for it. -/
theorem outboundHostCompletion_refused {d n : Nat} (hhart : q.agent = .hart d n) (hregion : q.region = none) :
    Happens s (.outboundHostCompletion req false data) fun t => Answered t req [] transPerm := by
  obtain ⟨x, hexec⟩ := exec_outboundHostCompletion data hq hgoal hout hflush hland false
  refine .of_next _ hexec (Act.releaseWaiting_answered _ ?_)
  have hissued : ∀ (t : State) (cls : Nat), t.issuedBy q transPerm cls = none := fun t cls => by
    unfold State.issuedBy
    rw [hregion]
  have hrefused : ∀ t : State, (Act.refused q va op transPerm).run t = (Act.answer q [] transPerm).run t := fun t => by
    have hhost : q.agent.isHost = false := by rw [hhart]; rfl
    rw [Act.refused, hhost, if_neg Bool.false_ne_true]
    split
    · rw [Act.requestFault, Act.run_read, hissued]
    · rw [Act.imprecisely, Act.run_read, hissued, hhart]
      rfl
  rw [if_neg Bool.false_ne_true, hrefused]
  have hans := Act.answer_answered (Act.taken_reqOf hq x) [] transPerm
  rwa [State.reqOf_id hq] at hans

end

end Sys2Proof.Machine
end

section
/-!
SUPPORT. What selection, start and the end of a launch keep (R100-R113, R121): their effects but those on launches and
X-dies touch neither functions nor registers, and a launch is rewritten gently unless it is the chosen one.
-/
namespace Sys2Proof.Machine

theorem Act.Keeps.ite {P : State → Prop} {c : Prop} [Decidable c] {a b : Act} (ha : a.Keeps P) (hb : b.Keeps P) :
    (if c then a else b).Keeps P := by
  split
  · exact ha
  · exact hb

/-! ### Effects beside launches, X-dies and registers -/

/-- The effect leaves launches, X-dies and registers alone. -/
def Effect.offVf : Effect → Bool
  | .launch _ _ | .xdie _ _ | .reg _ _ _ | .regsClear _ _ => false
  | _ => true

section
variable (s : State) {e : Effect} (h : e.offVf = true)
include h

theorem State.launches_apply_offVf : (s.apply e).launches = s.launches := by
  cases e
  case launch => cases h
  all_goals simp

theorem State.xdies_apply_offVf : (s.apply e).xdies = s.xdies := by
  cases e
  case xdie => cases h
  all_goals simp

theorem State.regs_apply_offVf : (s.apply e).regs = s.regs := by
  cases e
  case reg => cases h
  case regsClear => cases h
  all_goals simp

end

theorem Effect.offVf_ofWrite {e : Effect} (h : e.ofWrite = true) : e.offVf = true := by
  cases e
  case launch => cases h
  case xdie => cases h
  case reg => cases h
  case regsClear => cases h
  all_goals rfl

/-! ### Acts of such effects -/

theorem Act.closeSlice_offVf (n : Nat) : (Act.closeSlice n).Only Effect.offVf :=
  .read fun _ => .when fun _ => .read fun _ => by
    split
    · exact .skip
    · exact .when fun _ => .read fun _ => .emit rfl

theorem Act.toModule_offVf (p dst : Nat) (m : EdgeIn) : (Act.toModule p dst m).Only Effect.offVf :=
  .read fun _ => .when fun _ => .emit rfl

theorem Act.freeRegion_offVf (h : Word) : (Act.freeRegion h).Only Effect.offVf := .read fun _ => by
  split
  · exact .skip
  · exact .block_cons (.each fun _ _ => .read fun _ => .emit rfl) <|
      .block_cons (.each fun _ _ => .read fun _ => .emit rfl) <|
      .block_cons (.each fun _ _ => .read fun _ => .emit rfl) <|
      .block_cons (.read fun _ => .emit rfl) <|
      .block_cons (.when fun _ => .read fun _ => .emit rfl) <|
      .block_cons (.emit rfl) .block_nil

theorem Act.freeRetired_offVf : Act.freeRetired.Only Effect.offVf :=
  .read fun _ => .each fun _ _ => freeRegion_offVf _

theorem Act.endRegion_offVf (h : Word) : (Act.endRegion h).Only Effect.offVf := .read fun _ => by
  split
  · exact .skip
  · refine .seq (freeRegion_offVf _) ?_
    split
    · exact .block_cons (.read fun _ => .each fun _ _ => .onRegion fun _ => rfl) <|
        .block_cons freeRetired_offVf .block_nil
    · exact freeRetired_offVf

theorem Act.dropWarm_offVf (q : Rect) : (Act.dropWarm q).Only Effect.offVf :=
  .read fun _ => .each fun _ _ => .when fun _ => .read fun _ => .emit rfl

theorem Act.sendSubtrees_offVf (n : Nat) (l : Launch) (masked : List Nat) :
    (Act.sendSubtrees n l masked).Only Effect.offVf := .read fun _ => .each fun _ _ => toModule_offVf _ _ _

theorem Act.beginWake_offVf (ks : List (Nat × Nat)) : (Act.beginWake ks).Only Effect.offVf :=
  .each fun _ _ => .read fun _ => .emit rfl

theorem Act.forceSweeps_offVf (want : List (Nat × Nat)) : (Act.forceSweeps want).Only Effect.offVf :=
  .each fun _ _ => .read fun _ => .when fun _ => .emit rfl

theorem Act.takeLots_offVf (die n : Nat) : (Act.takeLots die n).Only Effect.offVf := .read fun _ => by
  split
  · exact .emit rfl
  · exact .skip

theorem Act.deliverHeld_offVf (h : Word) : (Act.deliverHeld h).Only Effect.offVf := .read fun _ => by
  split
  · exact .skip
  · split
    · exact .each fun _ _ => .read fun _ => .when fun _ =>
        .block_cons (.read fun _ => .emit rfl) <|
        .block_cons (.each fun _ _ => .block_cons (.read fun _ => .emit rfl) <|
          .block_cons (.onRegion fun _ => rfl) .block_nil) .block_nil
    · exact .skip

theorem Act.startInstance_offVf (h : Word) (scal : List Byte) : (Act.startInstance h scal).Only Effect.offVf :=
  .read fun _ => by
    split
    · exact .skip
    · exact .block_cons (.each fun _ _ => takeLots_offVf _ _) <|
        .block_cons (.each fun _ _ => .read fun _ => .emit rfl) <|
        .block_cons (.read fun _ => .emit rfl) <|
        .block_cons (.emit rfl) <| .block_cons (deliverHeld_offVf _) .block_nil

theorem Act.sendAgain_offVf (c : CellId) (p : Nat) (q : Req) : (Act.sendAgain c p q).Only Effect.offVf :=
  .read fun _ => .seq (.read fun _ => .emit rfl) (.read fun _ => .read fun _ => .emit rfl)

theorem Act.releaseWaiting_offVf : Act.releaseWaiting.Only Effect.offVf := .read fun _ => .each fun _ _ => by
  split
  · exact sendAgain_offVf _ _ _
  · exact .skip

theorem Act.reissue_offVf (id : Nat) : (Act.reissue id).Only Effect.offVf := .read fun _ => by
  split
  · exact .skip
  · split
    · exact .skip
    · exact sendAgain_offVf _ _ _

theorem Act.answerIssuer_offVf (l : Launch) (status : Nat) : (Act.answerIssuer l status).Only Effect.offVf := by
  unfold Act.answerIssuer
  split
  · exact .read fun _ => .emit rfl
  · exact .read fun _ => .emit rfl
  · exact .skip
  · exact .skip

/-! ### Gentle changes of a launch -/

/-- The launch is over or on its way there (R112, R121). -/
def Launch.Ended (l : Launch) : Prop := l.st = .completing ∨ l.st = .complete ∨ l.killAfter = true

/-- It stays in its partition and VD. -/
def Launch.SameVd (l m : Launch) : Prop := m.part = l.part ∧ m.vd = l.vd

/-- It stays there, and on its way to its end. -/
def Launch.Gentle (l m : Launch) : Prop := l.SameVd m ∧ (l.Ended → m.Ended)

theorem Launch.Gentle.of_same {l m : Launch} (hv : l.SameVd m) (hst : m.st = l.st) (hk : m.killAfter = l.killAfter) :
    l.Gentle m := ⟨hv, fun h => by rwa [Launch.Ended, hst, hk]⟩

theorem Launch.gentle_finish (l : Launch) (status : Nat) : l.Gentle (l.finish status) := by
  unfold Launch.finish
  split
  · exact ⟨⟨rfl, rfl⟩, id⟩
  · exact ⟨⟨rfl, rfl⟩, fun _ => .inl rfl⟩

theorem Launch.not_ended_of_choosable {l : Launch} (h : l.choosable = true) : ¬ l.Ended := by
  rw [Launch.choosable] at h
  rintro (hst | hst | hk)
  · simp [hst] at h
  · simp [hst] at h
  · simp [hk] at h

/-- The end of one launch of a VD that is reset (R36). -/
def Act.killEntry (e : Nat × Launch) : Act :=
  if e.2.st = .issued then .refuse e.1 stKilled true false
  else .when e.2.st.accepted ((Act.killLaunch e.1 stKilled).seq (.onLaunch e.1 fun l => { l with ending := some stKilled }))

/-! ### Properties that a scheduler's acts carry on -/

/-- A property of functions, registers and launches: an allowed launch may be started, each may change gently, and a
chosen one is allowed. -/
structure Carries (allowed : Nat → Prop) (P : State → Prop) : Prop where
  plain : ∀ (s : State) (e : Effect), e.offVf = true → P s → P (s.apply e)
  host : ∀ (a : Agent) (p : Nat) (asid : Option (BitVec 16)) (va : DWord) (l : Leaf) (pa : Nat) (bytes : List Byte),
    (Act.hostWrite a p asid va l pa bytes fun _ => .skip).Keeps P
  gentle : ∀ (n : Nat) (f : Launch → Launch) (s : State), (∀ l, s.launches.get? n = some l → l.Gentle (f l)) → P s →
    P ((Act.onLaunch n f).run s)
  start : ∀ (n : Nat) (f : Launch → Launch), allowed n → (∀ l : Launch, l.SameVd (f l)) → (Act.onLaunch n f).Keeps P
  chosen : ∀ (s : State) (n : Nat) (l : Launch), P s → (n, l) ∈ s.launches → l.choosable = true → allowed n

namespace Carries

section
variable {allowed : Nat → Prop} {P : State → Prop} (hc : Carries allowed P)
include hc

theorem only {a : Act} (h : a.Only Effect.offVf) : a.Keeps P := h.keepsOf hc.plain

theorem emit {e : Effect} (h : e.offVf = true) : (Act.emit e).Keeps P := fun s hs => hc.plain s e h hs

theorem onLaunch (n : Nat) {f : Launch → Launch} (h : ∀ l : Launch, l.Gentle (f l)) : (Act.onLaunch n f).Keeps P :=
  fun s => hc.gentle n f s fun l _ => h l

theorem finish (n status : Nat) : (Act.onLaunch n fun l => l.finish status).Keeps P :=
  hc.onLaunch n fun l => l.gentle_finish status

theorem writes : KeptByWrites P := ⟨fun s e he => hc.plain s e (Effect.offVf_ofWrite he), hc.host⟩

theorem storeLong (d p : Nat) (asid : Option (BitVec 16)) (k : Nat) : ∀ (va : DWord) (bytes : List Byte),
    (Act.storeLong d p asid va bytes k).Keeps P := by
  induction k with
  | zero => exact fun _ _ => .skip
  | succ k ih => exact fun _ _ => .seq (hc.writes.storeVa _ _ _ _ _) (ih _ _)

/-! The end of a launch -/

theorem refuse (n status : Nat) (record formed : Bool) : (Act.refuse n status record formed).Keeps P := .read fun _ => by
  split
  · exact .skip
  · exact .block_cons (hc.onLaunch n fun _ => ⟨⟨rfl, rfl⟩, fun _ => .inr (.inl rfl)⟩) <|
      .block_cons (.when (.read fun _ => .when (hc.storeLong _ _ _ _ _ _))) <|
      .block_cons (hc.only (Act.answerIssuer_offVf _ _)) .block_nil

theorem endLaunch (n status : Nat) : (Act.endLaunch n status).Keeps P := .read fun _ => by
  split
  · exact .skip
  · exact .block_cons (hc.only (Act.closeSlice_offVf _)) <|
      .block_cons (.each fun _ => hc.only (Act.toModule_offVf _ _ _)) <|
      .block_cons (.each fun _ => hc.only (Act.endRegion_offVf _)) <|
      .block_cons (.each fun _ => hc.emit rfl) <| .block_cons (hc.finish _ _) .block_nil

theorem killLaunch (n status : Nat) : (Act.killLaunch n status).Keeps P := .read fun _ => by
  split
  · exact .skip
  · split
    · exact hc.onLaunch n fun _ => ⟨⟨rfl, rfl⟩, fun _ => .inr (.inr rfl)⟩
    · exact hc.endLaunch _ _

theorem killEntry (e : Nat × Launch) : (Act.killEntry e).Keeps P :=
  .ite (hc.refuse _ _ _ _) <| .when <| .seq (hc.killLaunch _ _) <| hc.onLaunch _ fun _ => .of_same ⟨rfl, rfl⟩ rfl rfl

theorem killVd (p vd : Nat) : (Act.killVd p vd).Keeps P := .read fun _ => .each fun e => hc.killEntry e

/-! Selection and start -/

theorem restoreInto (h : Word) (x : Snapshot) : (Act.restoreInto h x).Keeps P := .read fun s => by
  split
  · exact .skip
  · refine .block_cons (hc.emit rfl) <| .block_cons (.each fun _ => hc.only (Act.takeLots_offVf _ _)) <|
      .block_cons (.each fun _ => hc.only (.read fun _ => .emit rfl)) <| .block_cons (hc.emit rfl) <|
      .block_cons (hc.only (.read fun _ => .emit rfl)) <| .block_cons ?_ .block_nil
    split
    · exact hc.onLaunch _ fun _ => .of_same ⟨rfl, rfl⟩ rfl rfl
    · exact .skip

theorem newSlice (n : Nat) : (Act.newSlice n).Keeps P := .read fun _ => by
  split
  · exact .skip
  · exact .block_cons (.when (hc.only (.read fun _ => .emit rfl))) <|
      .block_cons (hc.onLaunch _ fun _ => .of_same ⟨rfl, rfl⟩ rfl rfl) .block_nil

/-- A suspended launch that runs on was not ended, or dies after its switch. -/
theorem runOn (n : Nat) : (Act.read fun s => .when ((s.launches.get? n).any fun l => l.st == .suspended)
    ((Act.onLaunch n fun l => { l with st := if l.seamAt.isSome then .freezing else .running }).seq
      (.newSlice n))).Keeps P := fun s hs => by
  rw [Act.run_read, Act.run_when]
  split
  · rename_i hst
    refine hc.newSlice n _ (hc.gentle n _ s (fun l hl => ⟨⟨rfl, rfl⟩, fun hended => ?_⟩) hs)
    rw [hl, Option.any_some] at hst
    have hsusp := eq_of_beq hst
    rcases hended with h | h | h
    · rw [hsusp] at h; cases h
    · rw [hsusp] at h; cases h
    · exact .inr (.inr h)
  · exact hs

theorem resume (h : Word) (step : Bool) : (Act.resume h step).Keeps P := .read fun _ => by
  split
  · exact .skip
  · refine .block_cons (hc.only (.onRegion fun _ => rfl)) <|
      .block_cons (.each fun _ => hc.only (.read fun _ => .emit rfl)) <|
      .block_cons (.each fun _ => .seq (.when (hc.only (.read fun _ => .emit rfl))) (hc.only (Act.reissue_offVf _))) <|
      .block_cons (hc.only (Act.deliverHeld_offVf _)) <|
      .block_cons (hc.only Act.releaseWaiting_offVf) <| .block_cons ?_ .block_nil
    split
    · exact .skip
    · exact fun s hs => by
        rw [Act.run_read, Act.run_when]
        split
        · exact hc.runOn _ s hs
        · exact hs

theorem startPlaced {n : Nat} (hn : allowed n) : (Act.startPlaced n).Keeps P := .read fun _ => by
  split
  · exact .skip
  · dsimp only
    split
    · exact hc.only (Act.beginWake_offVf _)
    · split
      · exact hc.only (Act.forceSweeps_offVf _)
      · refine .block_cons (.each fun _ => ?_) <|
          .block_cons (.read fun _ => hc.start n _ hn fun _ => ⟨rfl, rfl⟩) .block_nil
        split
        · exact .block_cons (hc.restoreInto _ _) <| .block_cons (hc.emit rfl) <|
            .block_cons (hc.resume _ _) .block_nil
        · exact hc.only (Act.startInstance_offVf _ _)

theorem beginLaunch {n : Nat} (hn : allowed n) : (Act.beginLaunch n).Keeps P := .read fun _ => by
  split
  · exact .skip
  · split
    · exact hc.finish _ _
    · split
      · exact hc.finish _ _
      · split
        · exact .skip
        · refine .block_cons (hc.start n _ hn fun _ => ⟨rfl, rfl⟩) <|
            .block_cons (.each fun _ => .fresh (fun _ => hc.emit rfl) fun _ =>
              .seq (hc.only (Act.dropWarm_offVf _)) (hc.emit rfl)) <|
            .block_cons (.when (hc.only (Act.sendSubtrees_offVf _ _ _))) <| .block_cons ?_ .block_nil
          exact .ite (hc.onLaunch n fun l => l.gentle_finish _) (.when (hc.startPlaced hn))

end

end Carries

end Sys2Proof.Machine
end

section
/-!
SUPPORT. Selection carries a property on: what it chooses is a launch of the list that may be chosen (R99-R102).
-/
namespace Sys2Proof.Machine

theorem headOf_mem {cands : List (Nat × Launch)} {c v : Nat} {e : Nat × Launch} (h : headOf cands c v = some e) :
    e ∈ cands := by
  rw [headOf, List.findSome?_eq_some_iff] at h
  obtain ⟨-, q, -, -, hfind, -⟩ := h
  exact List.mem_of_find?_eq_some hfind

theorem State.selectFrom_mem {s : State} {p : Nat} {cands : List (Nat × Launch)} {elsewhere : Bool} {d d' : Dispatcher}
    {n : Nat} : ∀ {k : Nat}, s.selectFrom p cands elsewhere d k = some (n, d') → ∃ l, (n, l) ∈ cands := by
  intro k
  induction k with
  | zero => exact nofun
  | succ k ih =>
    intro h
    have hhead : ∀ {v : Nat} {g : Dispatcher}, ((headOf cands k v).map fun e => (e.1, g)) = some (n, d') →
        ∃ l, (n, l) ∈ cands := by
      intro v g hmap
      obtain ⟨e, he, heq⟩ := Option.map_eq_some_iff.mp hmap
      cases heq
      exact ⟨e.2, headOf_mem he⟩
    rw [State.selectFrom] at h
    split at h
    · split at h
      · exact hhead h
      · exact ih h
    · split at h
      · exact hhead h
      · cases h

theorem State.eligibleAt_choosable {s : State} {p die : Nat} {e : Nat × Launch} (h : e ∈ s.eligibleAt p die) :
    e ∈ s.launches ∧ e.2.choosable = true := by
  obtain ⟨hhomed, heligible⟩ := List.mem_filter.mp h
  rw [State.eligible, State.ready] at heligible
  simp only [Bool.and_eq_true] at heligible
  exact ⟨(List.mem_filter.mp hhomed).1, heligible.1.1.1.1.1⟩

namespace Carries

section
variable {allowed : Nat → Prop} {P : State → Prop} (hc : Carries allowed P)
include hc

theorem poisonWaits (p : Nat) : (Act.poisonWaits p).Keeps P := .read fun _ => .each fun _ => hc.finish _ _

theorem selectOnce (p die : Nat) : (Act.selectOnce p die).Keeps P := fun s hs => by
  rw [Act.selectOnce, Act.run_read]
  dsimp only
  split
  · exact hc.emit rfl s hs
  · rename_i n d' hsel
    obtain ⟨l, hl⟩ := State.selectFrom_mem hsel
    obtain ⟨hmem, hchoose⟩ := State.eligibleAt_choosable hl
    have hbegin := hc.beginLaunch (hc.chosen s n l hs hmem hchoose)
    refine Act.Keeps.block_cons (P := P) ?_ (.block_cons ?_ (.block_cons hbegin .block_nil)) s hs
    · exact hc.emit rfl
    · exact hc.onLaunch n fun _ => .of_same ⟨rfl, rfl⟩ rfl rfl

theorem selectTimes (p die : Nat) : ∀ k, (Act.selectTimes p die k).Keeps P
  | 0 => .skip
  | k + 1 => .seq (hc.selectOnce p die) (selectTimes p die k)

theorem select (p : Nat) : (Act.select p).Keeps P :=
  .seq (hc.poisonWaits p) <| .read fun _ => .each fun _ => .read fun _ => hc.selectTimes _ _ _

end

end Carries

end Sys2Proof.Machine
end

section
/-!
Function-level reset (R36): what becomes of the launches of its virtual devices, and of its functions.
-/
namespace Sys2Proof.Machine

/-! ### A launch to its end -/

/-- The launch of that number stays in its partition and VD; once it is over, or `done` has come, it is alone under its
number and ended. -/
def Fate (n p vd : Nat) (done : Prop) (t : State) : Prop :=
  ∃ l, t.launches.get? n = some l ∧ l.part = p ∧ l.vd = vd ∧
    (done ∨ l.st = .complete → (∀ e ∈ t.launches, e.1 = n → e.2 = l) ∧ l.Ended)

theorem Fate.ends {n p vd : Nat} {t : State} (h : Fate n p vd True t) : Ends t n := by
  obtain ⟨l, hl, -, -, hended⟩ := h
  exact ⟨l, hl, (hended (.inl trivial)).2⟩

section
variable {n p vd : Nat} {done : Prop}

theorem Fate.of_launches {s t : State} (h : Fate n p vd done s) (ht : t.launches = s.launches) : Fate n p vd done t := by
  rw [Fate, ht]
  exact h

theorem Store.mem_put_same {K V : Type} [DecidableEq K] {s : Store K V} {k : K} {v : V} {e : K × V} (h : e ∈ s.put k v)
    (hk : e.1 = k) : e.2 = v := by
  rcases List.mem_cons.mp h with rfl | h
  · rfl
  · exact absurd hk (Store.mem_erase_ne h)

theorem State.launches_apply_launch (s : State) (m : Nat) (v : Launch) :
    (s.apply (.launch m (some v))).launches = s.launches.put m v := rfl

/-- The launch under another number is rewritten. -/
theorem Fate.put_ne {s : State} (h : Fate n p vd done s) {m : Nat} (hm : n ≠ m) (v : Launch) :
    Fate n p vd done (s.apply (.launch m (some v))) := by
  obtain ⟨l, hl, hp, hvd, hended⟩ := h
  rw [Fate, State.launches_apply_launch]
  refine ⟨l, (Store.get?_put_ne _ _ hm).trans hl, hp, hvd, fun hover => ?_⟩
  obtain ⟨halone, hend⟩ := hended hover
  refine ⟨fun e he hen => ?_, hend⟩
  rcases Store.mem_put he with rfl | he
  · exact absurd hen.symm hm
  · exact halone e he hen

/-- The launch itself is rewritten: from then on it is alone under its number. -/
theorem Fate.put_same {s : State} {v : Launch} (hp : v.part = p) (hvd : v.vd = vd)
    (hend : done → v.Ended) : Fate n p vd done (s.apply (.launch n (some v))) := by
  rw [Fate, State.launches_apply_launch]
  refine ⟨v, Store.get?_put_same _ _ _, hp, hvd, fun hover => ⟨fun e he hen => Store.mem_put_same he hen, ?_⟩⟩
  exact hover.elim hend fun hst => .inr (.inl hst)

theorem Fate.onLaunch {s : State} (h : Fate n p vd done s) {m : Nat} {f : Launch → Launch}
    (hf : ∀ l, s.launches.get? m = some l → l.SameVd (f l))
    (hend : ∀ l, s.launches.get? m = some l → m = n → done → l.Ended → (f l).Ended) :
    Fate n p vd done ((Act.onLaunch m f).run s) := by
  rw [Act.onLaunch, Act.run_read]
  split
  · rename_i l hl
    by_cases hm : n = m
    · subst hm
      obtain ⟨l', hl', hp, hvd, hended⟩ := h
      cases hl.symm.trans hl'
      obtain ⟨hp', hvd'⟩ := hf l hl
      exact Fate.put_same (hp'.trans hp) (hvd'.trans hvd) fun hd => hend l hl rfl hd (hended (.inl hd)).2
    · exact h.put_ne hm _
  · exact h

/-! The effects of writes to the host -/

def Effect.ofHost : Effect → Bool
  | .nextId _ | .reqs _ | .xdie _ _ | .out _ => true
  | _ => false

theorem Act.hostSend_ofHost (id x port : Nat) (pasid : BitVec 20) (pa m : Nat) (posted sys : Bool) :
    (Act.hostSend id x port pasid pa m posted sys).Only Effect.ofHost := .read fun _ => by
  split
  · exact .read fun _ => .emit rfl
  · exact .block_cons (.read fun _ => .emit rfl) <| .block_cons (.each fun _ _ => .emit rfl) <|
      .block_cons (.when fun _ => .read fun _ => .when fun _ => .fresh (fun _ => rfl) fun _ =>
        .seq (.read fun _ => .emit rfl) (.emit rfl)) .block_nil

theorem Act.hostWrite_ofHost (a : Agent) (p : Nat) (asid : Option (BitVec 16)) (va : DWord) (l : Leaf) (pa : Nat)
    (bytes : List Byte) : (Act.hostWrite a p asid va l pa bytes fun _ => .skip).Only Effect.ofHost :=
  .fresh (fun _ => rfl) fun _ => .read fun _ => by
    split
    · exact .skip
    · exact .block_cons (.emit rfl) <| .block_cons (hostSend_ofHost _ _ _ _ _ _ _ _) <| .block_cons .skip .block_nil

theorem State.launches_apply_ofHost (s : State) {e : Effect} (h : e.ofHost = true) :
    (s.apply e).launches = s.launches := by
  cases e
  case launch => cases h
  all_goals simp

/-- An ended launch is not chosen again, so that it stays ended. -/
theorem Fate.carries : Carries (fun m => m = n → ¬ done) (Fate n p vd done) where
  plain s e he h := h.of_launches (s.launches_apply_offVf he)
  host a _ asid va l pa bytes := (Act.hostWrite_ofHost a _ asid va l pa bytes).keepsOf fun s e he h =>
    h.of_launches (s.launches_apply_ofHost he)
  gentle m f s hf h := h.onLaunch (fun l hl => (hf l hl).1) fun l hl _ _ => (hf l hl).2
  start m f hm hf s h := h.onLaunch (fun l _ => hf l) fun _ _ heq hd _ => absurd hd (hm heq)
  chosen s m l h hmem hchoose hm hd := by
    subst hm
    obtain ⟨l', -, -, -, hended⟩ := h
    obtain ⟨halone, hend⟩ := hended (.inl hd)
    cases halone _ hmem rfl
    exact Launch.not_ended_of_choosable hchoose hend

/-- The launch itself comes to its end. -/
theorem Fate.onLaunch_ended {s : State} (h : Fate n p vd done s) {f : Launch → Launch}
    (hf : ∀ l : Launch, l.SameVd (f l)) (hend : ∀ l, (f l).Ended) :
    Fate n p vd True ((Act.onLaunch n f).run s) := by
  obtain ⟨l, hl, hp, hvd, -⟩ := h
  obtain ⟨hp', hvd'⟩ := hf l
  rw [Act.onLaunch, Act.run_read, hl]
  exact Fate.put_same (hp'.trans hp) (hvd'.trans hvd) fun _ => hend l

theorem Launch.finish_ended (l : Launch) (status : Nat) : (l.finish status).Ended := by
  unfold Launch.finish
  split
  · rename_i hst
    exact .inr (.inl hst)
  · exact .inl rfl

theorem Fate.refuse {s : State} (h : Fate n p vd done s) (status : Nat) (record formed : Bool) :
    Fate n p vd True ((Act.refuse n status record formed).run s) := by
  have ⟨l, hl, _⟩ := h
  rw [Act.refuse, Act.run_read, hl]
  have hover := h.onLaunch_ended (f := fun l => { l with st := .complete }) (fun _ => ⟨rfl, rfl⟩) fun _ => .inr (.inl rfl)
  refine Act.Keeps.after_head hover <| .block_cons ?_ <| .block_cons ?_ .block_nil
  · exact .when (.read fun _ => .when (Fate.carries.storeLong _ _ _ _ _ _))
  · exact Fate.carries.only (Act.answerIssuer_offVf _ _)

theorem Fate.endLaunch {s : State} (h : Fate n p vd done s) (status : Nat) :
    Fate n p vd True ((Act.endLaunch n status).run s) := by
  have ⟨l, hl, _⟩ := h
  rw [Act.endLaunch, Act.run_read, hl]
  have hclosed := Fate.carries.only (Act.closeSlice_offVf n) s h
  have hsent := Act.Keeps.each (fun m => Fate.carries.only (Act.toModule_offVf l.part m
    (.killed m (s.moduleNo (s.mapDie l.part)) n status))) (l := l.outside) _ hclosed
  have hfreed := Act.Keeps.each (fun e => Fate.carries.only (Act.endRegion_offVf e.1))
    (l := s.regions.filter fun e => e.2.launch == some n && e.2.state != .retired) _ hsent
  have hforgot := Act.Keeps.each (fun i => Fate.carries.emit (e := .save n i.n none) rfl) (l := l.insts) _ hfreed
  exact hforgot.onLaunch_ended (fun l => (l.gentle_finish status).1) fun l => l.finish_ended status

theorem Fate.killLaunch {s : State} (h : Fate n p vd done s) (status : Nat) :
    Fate n p vd True ((Act.killLaunch n status).run s) := by
  have ⟨l, hl, _⟩ := h
  rw [Act.killLaunch, Act.run_read, hl]
  dsimp only
  split
  · exact h.onLaunch_ended (fun _ => ⟨rfl, rfl⟩) fun _ => .inr (.inr rfl)
  · exact h.endLaunch status

/-- A launch of a VD is over once the VD's launches were killed. -/
theorem Fate.killVd {s : State} (h : Fate n p vd done s) : Fate n p vd True ((Act.killVd p vd).run s) := by
  obtain ⟨l, hl, hp, hvd, hended⟩ := h
  by_cases hst : l.st = .complete
  · exact Fate.carries.killVd p vd s ⟨l, hl, hp, hvd, fun _ => hended (.inr hst)⟩
  · have hmem : (n, l) ∈ s.launches.filter fun e => e.2.part == p && e.2.vd == vd :=
      List.mem_filter.mpr ⟨Store.get?_mem hl, by simp [hp, hvd]⟩
    rw [Act.killVd, Act.run_read]
    refine Act.Keeps.each_leads (P := Fate n p vd done) (Q := Fate n p vd True) hmem (fun e => ?_) (fun e => ?_) ?_ s
      ⟨l, hl, hp, hvd, hended⟩
    · exact Fate.carries.killEntry e
    · exact Fate.carries.killEntry e
    · intro u hu
      dsimp only
      split
      · exact hu.refuse _ _ _
      · rename_i hissued
        have haccepted : l.st.accepted = true := by
          cases hcase : l.st <;> simp_all [LState.accepted]
        rw [haccepted]
        exact Fate.carries.onLaunch n (f := fun l => { l with ending := some stKilled })
          (fun _ => .of_same ⟨rfl, rfl⟩ rfl rfl) _ (hu.killLaunch _)

end

/-! ### The functions of an X-die -/

/-- Nothing is at the X-die's ordering point, and its functions and the registers are as given. -/
def FnsKept (x : Nat) (fns : Store Nat Fn) (regs : Store (Nat × Nat) DWord) (t : State) : Prop :=
  (t.xdie x).inbound = [] ∧ (t.xdie x).fns = fns ∧ t.regs = regs

section
variable {x : Nat} {fns : Store Nat Fn} {regs : Store (Nat × Nat) DWord}

theorem FnsKept.of_xdies {s t : State} (h : FnsKept x fns regs s) (ht : t.xdies = s.xdies) (hr : t.regs = s.regs) :
    FnsKept x fns regs t := by
  rw [FnsKept, State.xdie_of_xdies ht, hr]
  exact h

theorem FnsKept.onXDie {y : Nat} {f : XDie → XDie} (hin : ∀ v, (f v).inbound = v.inbound)
    (hfns : ∀ v, (f v).fns = v.fns) : (Act.onXDie y f).Keeps (FnsKept x fns regs) := fun s ⟨h, hf, hr⟩ => by
  by_cases hy : x = y
  · subst hy
    rw [FnsKept, State.xdie_onXDie, hin, hfns]
    exact ⟨h, hf, hr⟩
  · rw [FnsKept, State.xdie_onXDie_ne _ _ _ hy]
    exact ⟨h, hf, hr⟩

theorem FnsKept.emit {e : Effect} (he : e.offVf = true) : (Act.emit e).Keeps (FnsKept x fns regs) := fun s h =>
  h.of_xdies (s.xdies_apply_offVf he) (s.regs_apply_offVf he)

theorem FnsKept.hostSend (id y port : Nat) (pasid : BitVec 20) (pa m : Nat) (posted sys : Bool) :
    (Act.hostSend id y port pasid pa m posted sys).Keeps (FnsKept x fns regs) := .read fun _ => by
  split
  · exact FnsKept.onXDie (fun _ => rfl) fun _ => rfl
  · refine .block_cons (FnsKept.onXDie (fun v => ?_) fun v => ?_) <|
      .block_cons (.each fun _ => FnsKept.emit rfl) <|
      .block_cons (.when <| .read fun _ => .when <| .fresh (fun _ => FnsKept.emit rfl) fun _ =>
        .seq (FnsKept.onXDie (fun _ => rfl) fun _ => rfl) (FnsKept.emit rfl)) .block_nil
    · split <;> rfl
    · split <;> rfl

theorem FnsKept.onLaunch (n : Nat) (f : Launch → Launch) : (Act.onLaunch n f).Keeps (FnsKept x fns regs) :=
  .read fun _ => by
    split
    · exact fun _ h => h.of_xdies rfl rfl
    · exact .skip

theorem FnsKept.carries : Carries (fun _ => True) (FnsKept x fns regs) where
  plain _ _ he := FnsKept.emit he _
  host _ _ _ _ _ _ _ := .fresh (fun _ => FnsKept.emit rfl) fun _ => .read fun _ => by
    split
    · exact .skip
    · exact .block_cons (FnsKept.emit rfl) <| .block_cons (FnsKept.hostSend _ _ _ _ _ _ _ _) <|
        .block_cons .skip .block_nil
  gentle n f s _ h := FnsKept.onLaunch n f s h
  start n f _ _ := FnsKept.onLaunch n f
  chosen _ _ _ _ _ _ := trivial

end

/-! ### The reset -/

/-- A function after its reset (R36). -/
def Fn.reset (v : Fn) : Fn := { v with slots := [], busy := 0, windows := [], tdisp := .unlocked }

section
variable {s t : State} (h : t.regs = s.regs)
include h

theorem State.regField_of_regs : t.regField = s.regField := by
  funext d r hi lo
  exact State.regField_congr (State.reg_of_regs h d r) hi lo

theorem State.leadDie_of_regs : t.leadDie = s.leadDie := by
  have hpart : t.partOf = s.partOf := by
    funext d
    rw [State.partOf, State.partOf, State.regField_of_regs h]
  have hdies : t.partDies = s.partDies := by
    funext p
    rw [State.partDies, State.partDies, hpart]
  funext p
  rw [State.leadDie, State.leadDie, hdies, State.regField_of_regs h]

theorem State.fnPart_of_regs (x f : Nat) : t.fnPart x f = s.fnPart x f := by
  have henabled : t.vdEnabled = s.vdEnabled := by
    funext p vd
    simp only [State.vdEnabled, State.vdField, State.leadDie_of_regs h, State.regField_of_regs h]
  rw [State.fnPart, State.fnPart, State.vdPart, State.vdPart, henabled]

end

/-- From s the functions for which D holds have been reset, the others not, and each launch of their VDs has ended. -/
structure ResetOf (s : State) (x : Nat) (D : Nat → Prop) (t : State) : Prop where
  inbound : (t.xdie x).inbound = []
  regs : t.regs = s.regs
  done : ∀ g, D g → t.fn x g = (s.fn x g).reset
  still : ∀ g, ¬ D g → t.fn x g = s.fn x g
  fate : ∀ g n l, s.launches.get? n = some l → l.part = s.fnPart x g → l.vd = fnVd x g → l.st ≠ .complete →
    Fate n (s.fnPart x g) (fnVd x g) (D g) t

theorem ResetOf.start {s : State} {x : Nat} (h : (s.xdie x).inbound = []) : ResetOf s x (fun _ => False) s where
  inbound := h
  regs := rfl
  done _ := False.elim
  still _ _ := rfl
  fate _ _ l hl hp hvd hst := ⟨l, hl, hp, hvd, fun hover => (hover.elim False.elim hst).elim⟩

theorem Fate.imp {n p vd : Nat} {a b : Prop} {t : State} (h : Fate n p vd a t) (hab : b → a) : Fate n p vd b t := by
  obtain ⟨l, hl, hp, hvd, hended⟩ := h
  exact ⟨l, hl, hp, hvd, fun hover => hended (hover.imp_left hab)⟩

section
variable {s t : State} {x : Nat} {D : Nat → Prop}

/-- Before its launches are killed, a function's requests that have not left are discarded. -/
def Act.discardInbound (x f : Nat) : Act :=
  .onXDie x fun v => { v with inbound := v.inbound.filter fun p => p.released || p.requester != .func x f }

theorem Act.run_resetVf (x f : Nat) (t : State) : ∃ q, (Act.resetVf x f).run t =
    (Act.releaseParts x).run ((Act.onFn x f Fn.reset).run ((Act.select q).run
      ((Act.killVd (((Act.discardInbound x f).run t).fnPart x f) (fnVd x f)).run
        ((Act.discardInbound x f).run t)))) := by
  rw [Act.resetVf, Act.run_block_cons, Act.run_block_cons, Act.run_block_cons, Act.run_block_cons, Act.run_block_cons,
    Act.run_block_nil, Act.run_read, Act.run_read]
  exact ⟨_, rfl⟩

theorem ResetOf.resetVf (h : ResetOf s x D t) (f : Nat) :
    ResetOf s x (fun g => g = f ∨ D g) ((Act.resetVf x f).run t) := by
  obtain ⟨q, hrun⟩ := Act.run_resetVf x f t
  generalize hp : ((Act.discardInbound x f).run t).fnPart x f = p at hrun
  have hpart : p = s.fnPart x f := hp.symm.trans (State.fnPart_of_regs h.regs x f)
  have hfirst : FnsKept x (t.xdie x).fns s.regs ((Act.discardInbound x f).run t) := by
    refine ⟨?_, ?_, h.regs⟩
    · rw [Act.discardInbound, State.xdie_onXDie, h.inbound]
      rfl
    · rw [Act.discardInbound, State.xdie_onXDie]
  generalize hu : (Act.select q).run ((Act.killVd p (fnVd x f)).run ((Act.discardInbound x f).run t)) = u at hrun
  obtain ⟨hin, hfns, hregs⟩ : FnsKept x (t.xdie x).fns s.regs u :=
    hu ▸ FnsKept.carries.select q _ (FnsKept.carries.killVd p (fnVd x f) _ hfirst)
  have hfn : ∀ g, u.fn x g = t.fn x g := fun g => by rw [State.fn, hfns]; rfl
  have hempty : (((Act.onFn x f Fn.reset).run u).xdie x).inbound = [] := by
    rw [Act.onFn, State.xdie_onXDie]
    exact hin
  rw [hrun, Act.run_releaseParts_nil hempty]
  refine ⟨hempty, hregs, fun g hg => ?_, fun g hg => ?_, fun g n l hl hlp hlv hst => ?_⟩
  · by_cases hgf : g = f
    · subst hgf
      rw [State.fn_onFn, hfn]
      by_cases hd : D g
      · rw [h.done g hd]
        rfl
      · rw [h.still g hd]
    · rw [State.fn_onFn_ne _ _ _ hgf, hfn, h.done g (hg.resolve_left hgf)]
  · obtain ⟨hgf, hd⟩ := not_or.mp hg
    rw [State.fn_onFn_ne _ _ _ hgf, hfn, h.still g hd]
  · have hbefore := (h.fate g n l hl hlp hlv hst).of_launches (t := (Act.discardInbound x f).run t) rfl
    refine Fate.of_launches (s := u) ?_ rfl
    rw [← hu, hpart]
    by_cases hgf : g = f
    · subst hgf
      exact (Fate.carries.select q _ hbefore.killVd).imp fun _ => trivial
    · exact (Fate.carries.select q _ (Fate.carries.killVd _ _ _ hbefore)).imp fun hd => hd.resolve_left hgf

theorem ResetOf.each (gs : List Nat) : ∀ {t : State} {D : Nat → Prop}, ResetOf s x D t →
    ∃ E : Nat → Prop, (∀ g, g ∈ gs ∨ D g → E g) ∧ ResetOf s x E ((Act.each gs fun g => .resetVf x g).run t) := by
  induction gs with
  | nil => exact fun h => ⟨_, fun g hg => hg.resolve_left List.not_mem_nil, h⟩
  | cons f rest ih =>
    intro t D h
    obtain ⟨E, hE, hreset⟩ := ih (h.resetVf f)
    refine ⟨E, fun g hg => hE g ?_, hreset⟩
    rcases hg with hg | hg
    · exact (List.mem_cons.mp hg).elim (fun h => .inr (.inl h)) .inl
    · exact .inr (.inr hg)

/-- The functions that a reset reaches: the VF, or the VFs of the PF. -/
def resetTargets (f : Nat) : List Nat := if f < 512 then [f] else (List.range 256).map ((f - 512) * 256 + ·)

theorem exec_functionLevelReset {f : Nat} (hx : isX x = true) (hf : f < 514) :
    exec (.functionLevelReset x f) s = (Act.each (resetTargets f) fun g => .resetVf x g).next s := by
  show execFunctionLevelReset x f s = _
  rw [execFunctionLevelReset, hx, decide_eq_true hf, resetTargets]
  by_cases hvf : f < 512
  · rw [isVf, decide_eq_true hvf, if_pos hvf]
    rfl
  · have heach : (Act.each ((List.range 256).map ((f - 512) * 256 + ·)) fun g => .resetVf x g) =
        Act.each (List.range 256) fun v => .resetVf x ((f - 512) * 256 + v) := by
      rw [Act.each, Act.each, List.map_map]
      rfl
    rw [isVf, decide_eq_false hvf, if_neg hvf, heach]
    rfl

theorem mem_resetTargets {f g : Nat}
    (h : (f < 512 ∧ g = f) ∨ (512 ≤ f ∧ (f - 512) * 256 ≤ g ∧ g < (f - 512) * 256 + 256)) : g ∈ resetTargets f := by
  rw [resetTargets]
  rcases h with ⟨hf, rfl⟩ | ⟨hf, hlo, hhi⟩
  · rw [if_pos hf]
    exact List.mem_singleton_self _
  · rw [if_neg (by omega), List.mem_map]
    exact ⟨g - (f - 512) * 256, List.mem_range.mpr (by omega), by omega⟩

theorem functionLevelReset_happens {f : Nat} (hx : isX x = true) (hf : f < 514) (hin : (s.xdie x).inbound = []) :
    Happens s (.functionLevelReset x f) fun t => ∀ g, (f < 512 ∧ g = f) ∨
      (512 ≤ f ∧ (f - 512) * 256 ≤ g ∧ g < (f - 512) * 256 + 256) → t.fn x g = (s.fn x g).reset ∧
      ∀ n l, s.launches.get? n = some l → l.part = s.fnPart x g → l.vd = fnVd x g → l.st ≠ .complete → Ends t n := by
  refine .of_next _ (exec_functionLevelReset hx hf) fun g hg => ?_
  obtain ⟨E, hE, hreset⟩ := ResetOf.each (resetTargets f) (ResetOf.start hin)
  have hg' : E g := hE g (.inl (mem_resetTargets hg))
  exact ⟨hreset.done g hg', fun n l hl hp hvd hst =>
    Fate.ends ((hreset.fate g n l hl hp hvd hst).imp fun _ => hg')⟩

end

end Sys2Proof.Machine
end

section
/-!
The clauses on requests of host functions together.
-/
namespace Sys2Proof.Machine

/-- Settles O50: with nothing before it a request is looked up, checked and released or stopped at once; a reset ends
the launches of its virtual devices because an ended launch is never chosen again. -/
theorem inboundRequests : Obligations.InboundRequests := by
  intro s x f
  refine ⟨fun hx hoff off tag n data rel => ⟨fun bar hbar => inboundRead_off hx hoff bar hbar tag off n,
      inboundPostedWrite_off hx hoff off data rel⟩, fun hon hin off tag => ?_,
    fun w off tag n hon hin hsame hposted hrel hold hn hpage =>
      inboundRead_behind hon hin hsame hposted hrel hold hn hpage tag,
    fun tag off n hon hin => inboundRead_mailbox hon hin tag off n,
    fun id => inboundWriteAck_happens, fun id q tag hheld hq _ _ => inboundHoldTimeout_happens hheld hq,
    .of_next _ rfl rfl, functionLevelReset_happens, fun req q va op data hq hgoal hout hflush hland =>
      ⟨outboundHostCompletion_ok data hq hgoal hout hflush hland, fun d n =>
        outboundHostCompletion_refused data hq hgoal hout hflush hland⟩⟩
  refine ⟨fun data rel hdata hpage => ⟨fun hgood => inboundPostedWrite_taken hon hin hdata hpage rel
      (windowAllows_iff.mpr hgood), fun hbad => inboundPostedWrite_drops hon hin hdata hpage rel
      (hbad.imp_left (mt windowAllows_iff.mp))⟩,
    fun n hn hpage => ⟨fun hgood => inboundRead_taken hon hin hn hpage tag (windowAllows_iff.mpr hgood),
      fun hbad => inboundRead_refused hon hin hn hpage tag (mt windowAllows_iff.mp hbad), fun hgood hfence =>
        inboundRead_fenced hon hin hn hpage tag (windowAllows_iff.mpr hgood) (eq_true_of_ne_false hfence)⟩,
    fun op => ⟨fun hgood => inboundAtomicop_taken hon hin tag op (windowAllows_iff.mpr hgood),
      fun hbad => inboundAtomicop_refused hon hin tag op (mt windowAllows_iff.mp hbad),
      fun hgood => inboundAtomicop_stopped hon hin tag op (windowAllows_iff.mpr hgood)⟩,
    fun n => inboundRead_invalid hon hin tag n⟩

end Sys2Proof.Machine
end

section
/-!
The life cycle and the other fuses (R70, R71).
-/
namespace Sys2Proof.Machine

/-- Settles O3: an effect burns the fuse along R71's transitions alone, and a step consists of effects. -/
theorem lifecycleOnward : Obligations.LifecycleOnward := by
  intro s t hstep
  have heffects : Reaches s t := step_next_reaches hstep
  exact ⟨heffects.lcs, heffects.fuses⟩

end Sys2Proof.Machine
end

section
/-!
SUPPORT. What a form of the Xphido extension comes to where it may run (R376, R379), how it completes or holds its hart,
and which parts of the state a write of the device can change.
-/
namespace Sys2Proof.Machine

/-! ### A hart as it is stored -/

theorem Store.erase_of_get?_none {K V : Type} [DecidableEq K] {s : Store K V} {k : K} (h : s.get? k = none) :
    s.erase k = s := by
  induction s with
  | nil => rfl
  | cons e r ih =>
    obtain ⟨a, v⟩ := e
    by_cases ha : a = k
    · simp [Store.get?, ha] at h
    · rw [Store.get?, if_neg ha] at h
      rw [Store.erase, if_neg ha, ih h]

theorem and_eq_self_of_and_not {w : Nat} {x m : BitVec w} (h : x &&& ~~~m = 0) : x &&& m = x := by
  refine BitVec.eq_of_getLsbD_eq fun i hi => ?_
  have hbit := congrArg (·.getLsbD i) h
  simp only [BitVec.getLsbD_and, BitVec.getLsbD_not, hi, decide_true, Bool.true_and, BitVec.getLsbD_zero,
    BitVec.ofNat_eq_ofNat] at hbit
  rw [BitVec.getLsbD_and]
  cases hx : x.getLsbD i <;> simp_all

theorem evenWord_iff (x : DWord) : x.getLsbD 0 = false ↔ x.toNat % 2 = 0 := by
  rw [BitVec.getLsbD, Nat.testBit_zero, decide_eq_false_iff_not]
  omega

/-- What a hart's effect clears is clear already. -/
theorem Hart.proper_eq {h : Hart} (ok : h.Ok) : h.proper = h := by
  have heven : h.pc &&& ~~~1 = h.pc := by
    refine and_eq_self_of_and_not ?_
    rw [BitVec.not_not]
    refine BitVec.eq_of_getLsbD_eq fun i hi => ?_
    by_cases h0 : i = 0
    · rw [h0, BitVec.getLsbD_and, ok.even, Bool.false_and]
      rfl
    · simp [BitVec.getLsbD_one, h0]
  have hseg : h.xpseg.map (fun e => (e.1, e.2 &&& bitsMask 63 44)) = h.xpseg :=
    (List.map_congr_left fun e he => by rw [and_eq_self_of_and_not (ok.seg e he), id]).trans (List.map_id _)
  rw [Hart.proper, Store.erase_of_get?_none ok.x0, heven, and_eq_self_of_and_not ok.asid, hseg]

theorem Hart.readX_writeX_same (h : Hart) {r : Reg} (hr : r ≠ 0) (v : DWord) : (h.writeX r v).readX r = v := by
  rw [Hart.writeX, if_neg hr, Hart.readX, if_neg hr, Store.get_put_same]

theorem Hart.readX_writeX_other (h : Hart) {r q : Reg} (hq : q ≠ r ∨ q = 0) (v : DWord) :
    (h.writeX r v).readX q = h.readX q := by
  by_cases h0 : q = 0
  · rw [h0, Hart.readX_zero, Hart.readX_zero]
  · have hne : q ≠ r := hq.resolve_right h0
    by_cases hr : r = 0
    · rw [hr, Hart.writeX_zero]
    · rw [Hart.writeX, if_neg hr, Hart.readX, Hart.readX, if_neg h0, if_neg h0,
        Store.get_put_ne _ _ _ fun e => hne (BitVec.eq_of_toNat_eq e)]

/-- A hart that has completed an instruction, with v in rd. -/
def Hart.retired (h : Hart) (rd : Reg) (v : DWord) : Hart := { h.writeX rd v with pc := h.pc + 4, wait := none }

theorem Hart.retired_ok {h : Hart} (ok : h.Ok) (rd : Reg) (v : DWord) : (h.retired rd v).Ok where
  x0 := by
    by_cases hr : rd = 0
    · rw [hr]; exact ok.x0
    · have hne : (0 : Nat) ≠ rd.toNat := fun e => hr (BitVec.eq_of_toNat_eq e.symm)
      rw [Hart.retired, Hart.writeX, if_neg hr]
      exact (Store.get?_put_ne _ _ hne).trans ok.x0
  even := by
    have heven := (evenWord_iff _).mp ok.even
    refine (evenWord_iff _).mpr ?_
    show (h.pc + 4).toNat % 2 = 0
    rw [BitVec.toNat_add]
    have : (4 : DWord).toNat = 4 := rfl
    omega
  asid := by
    rw [Hart.retired, Hart.writeX]
    split <;> exact ok.asid
  seg := by
    rw [Hart.retired, Hart.writeX]
    split <;> exact ok.seg

/-! ### Completion -/

section
variable {s u : State} {d n : Nat}

theorem State.hart_of_harts (h : u.harts = s.harts) (d n : Nat) : u.hart d n = s.hart d n := by
  rw [State.hart, State.hart, h]

theorem State.hart_apply_same (s : State) (d n : Nat) (h : Hart) : (s.apply (.hart d n h)).hart d n = h.proper := by
  rw [State.hart, State.apply_hart, Store.get_put_same]

theorem State.hart_apply_ne (s : State) {d n d' n' : Nat} (h : Hart) (hne : (d', n') ≠ (d, n)) :
    (s.apply (.hart d n h)).hart d' n' = s.hart d' n' := by
  rw [State.hart, State.apply_hart, Store.get_put_ne _ _ _ hne, State.hart]

/-- From a state with the harts as they were, the completion of an instruction is what `Retires` says. -/
theorem Act.retireX_retires (ok : (s.hart d n).Ok) (hu : u.harts = s.harts) (rd : Reg) (v : DWord) :
    Retires s ((Act.retireX d n rd v).run u) d n rd v := by
  have hrun : (Act.retireX d n rd v).run u = u.apply (.hart d n ((s.hart d n).retired rd v)) := by
    rw [← State.hart_of_harts hu]
    rfl
  have hhart : ((Act.retireX d n rd v).run u).hart d n = (s.hart d n).retired rd v := by
    rw [hrun, State.hart_apply_same, Hart.proper_eq (Hart.retired_ok ok rd v)]
  refine ⟨⟨by rw [hhart]; rfl, fun hr => ?_, fun r hr => ?_, ?_, ?_, by rw [hhart]; rfl⟩, fun d' n' hne => ?_⟩
  · rw [hhart]
    exact Hart.readX_writeX_same _ hr v
  · rw [hhart]
    exact Hart.readX_writeX_other _ hr v
  · rw [hhart, Hart.retired, Hart.writeX]
    split <;> rfl
  · rw [hhart]
    exact Hart.writeX_csr _ _ _
  · rw [hrun, State.hart_apply_ne _ _ hne, State.hart_of_harts hu]
    exact ⟨rfl, rfl, rfl, rfl, rfl, rfl⟩

theorem Act.holdX_holds (ok : (s.hart d n).Ok) (hu : u.harts = s.harts) (w : HartWait) :
    Holds s ((Act.holdX d n w).run u) d n w := by
  have hrun : (Act.holdX d n w).run u = u.apply (.hart d n { s.hart d n with wait := some w }) := by
    rw [← State.hart_of_harts hu]
    rfl
  have hok : Hart.Ok { s.hart d n with wait := some w } := ⟨ok.x0, ok.even, ok.asid, ok.seg⟩
  refine ⟨?_, fun d' n' hne => ?_⟩
  · rw [hrun, State.hart_apply_same, Hart.proper_eq hok]
  · rw [hrun, State.hart_apply_ne _ _ hne, State.hart_of_harts hu]

/-! ### Forms -/

theorem Allowed.permits_of_at {a : Allowed} (h : a.at s d n) : a.permits d (s.hart d n).priv = true := by
  obtain ⟨hcore, hmode⟩ := h
  rw [Allowed.permits, Bool.and_eq_true]
  refine ⟨?_, ?_⟩
  · by_cases hc : isC d = true
    · rwa [if_pos hc] at hcore ⊢
    · rwa [if_neg hc] at hcore ⊢
  · cases hp : a.priv
    · rfl
    · simpa using hmode hp

variable {i : Instr}

/-- A form that may run, with no access of its hart unperformed, performs its body. -/
theorem Forms.exec_xordered (h : Forms s d n i) {a : Allowed} (ha : allowedFor i = some a) (body : XEnv → Act) :
    xordered i a body s = (body (xenv s d n)).next s := by
  obtain ⟨b, hb, hat⟩ := h.permits
  obtain rfl : b = a := Option.some.inj (hb.symm.trans ha)
  rw [xordered, xform, h.focus]
  dsimp only
  rw [Allowed.permits_of_at hat, h.quiet]
  rfl

/-- A region operation whose handle names a region that no other hart drains performs its body on it. -/
theorem OnTarget.exec_xregion {rd rs1 : Reg} {w : Word} {r : Region} (h : OnTarget s d n i rs1 w r)
    (ha : allowedFor i = some tailorOnly) (body : XEnv → Word → Region → Act) :
    xregion i rd rs1 body s = (body (xenv s d n) w r).next s := by
  have htarget : (xenv s d n).target ((xenv s d n).h.readX rs1) = .ok (w, r) := h.target
  rw [xregion, h.toForms.exec_xordered ha, htarget]
  dsimp only
  rw [h.free]
  rfl

theorem Forms.retires (h : Forms s d n i) (hu : u.harts = s.harts) (rd : Reg) (v : DWord) :
    Retires s (((xenv s d n).ends rd v).run u) d n rd v := Act.retireX_retires h.ok hu rd v

/-- A form that performs an act, which leaves the harts alone, and completes. -/
theorem Forms.does_retires (h : Forms s d n i) {rd : Reg} {v : DWord} {a : Act} (ha : (a.run s).harts = s.harts)
    (hexec : exec i s = ((xenv s d n).does rd a v).next s) :
    ∃ t, exec i s = .next t ∧ Retires s t d n rd v ∧ OnlyHarts (a.run s) t :=
  ⟨((xenv s d n).ends rd v).run (a.run s), hexec, h.retires ha rd v, rfl⟩

/-- A form that only delivers a value. -/
theorem Forms.answers (h : Forms s d n i) {rd : Reg} {v : DWord} (hexec : exec i s = ((xenv s d n).ends rd v).next s) :
    ∃ t, exec i s = .next t ∧ Answers s t d n rd v := ⟨_, hexec, h.retires rfl rd v, rfl⟩

end

theorem OnlyHarts.regs_harts {s u t : State} (h : OnlyHarts u t) (hu : u = { s with regs := u.regs }) :
    t = { s with harts := t.harts, regs := t.regs } := by
  rw [OnlyHarts] at h
  rw [h, hu]

/-! ### Writes of the device -/

/-- The effects of a write of the device, to its own memory or to the host. -/
def Effect.ofStore (e : Effect) : Bool := e.ofWrite || e.ofHost

/-- The parts of the state that such a write can change, taken from another state. -/
def State.withStored (s u : State) : State :=
  { s with
    mem := u.mem, eccBad := u.eccBad, mtlbs := u.mtlbs, nextId := u.nextId, reqs := u.reqs, xdies := u.xdies
    outbox := u.outbox }

/-- Nothing but these parts has changed. -/
def OnlyStored (s t : State) : Prop := t = s.withStored t

theorem State.apply_ofStore (s : State) {e : Effect} (h : e.ofStore = true) : OnlyStored s (s.apply e) := by
  cases e
  case mem | memClear | ecc | mtlb | nextId | reqs | xdie | out => rfl
  all_goals cases h

theorem OnlyStored.trans {s t u : State} (h : OnlyStored s t) (h' : OnlyStored t u) : OnlyStored s u := by
  have hmiddle : t.withStored u = (s.withStored t).withStored u := by rw [← h]
  exact Eq.trans h' hmiddle

theorem Act.Only.stored {a : Act} (h : a.Only Effect.ofStore) (s : State) : OnlyStored s (a.run s) :=
  h.keepsOf (P := OnlyStored s) (fun t _ he ht => ht.trans (t.apply_ofStore he)) s rfl

section
variable {s t : State} (h : OnlyStored s t)
include h

theorem OnlyStored.harts : t.harts = s.harts := (congrArg State.harts h).trans rfl
theorem OnlyStored.cells : t.cells = s.cells := (congrArg State.cells h).trans rfl

end

theorem ReachesBy.mono {K L : Effect → Bool} (hKL : ∀ e, K e = true → L e = true) {s t : State}
    (h : ReachesBy K s t) : ReachesBy L s t := by
  induction h with
  | refl => exact .refl
  | step e k _ ih => exact .step e (hKL e k) ih

theorem Act.storeVa_ofStore (d p : Nat) (asid : Option (BitVec 16)) (va : DWord) (bytes : List Byte) :
    (Act.storeVa d p asid va bytes).Only Effect.ofStore := .read fun _ => by
  split
  · exact .skip
  · split
    · exact .skip
    · split
      · exact .each fun _ _ u => (hostWrite_ofHost _ _ _ _ _ _ _ u).mono fun _ he => Bool.or_eq_true_iff.mpr (.inr he)
      · exact fun u => (storeAt_ofWrite _ _ _ _ _ u).mono fun _ he => Bool.or_eq_true_iff.mpr (.inl he)

theorem Act.storeLong_ofStore (d p : Nat) (asid : Option (BitVec 16)) (k : Nat) :
    ∀ (va : DWord) (bytes : List Byte), (Act.storeLong d p asid va bytes k).Only Effect.ofStore := by
  induction k with
  | zero => exact fun _ _ => .skip
  | succ k ih => exact fun _ _ => .seq (storeVa_ofStore _ _ _ _ _) (ih _ _)

end Sys2Proof.Machine
end

section
/-!
Invalidation, fault queues, launches by a core, firewalls and debug access (R75, R199, R397-R401).
-/
namespace Sys2Proof.Machine

section
variable {s : State} {d n : Nat} {rd rs1 rs2 : Reg}

/-! ### `pt.inv` -/

/-- The effect changes neither a hart nor an MTLB. -/
def Effect.offTlbs : Effect → Bool
  | .hart _ _ _ | .mtlb _ _ _ => false
  | _ => true

theorem State.apply_offTlbs (s : State) {e : Effect} (h : e.offTlbs = true) :
    (s.apply e).mtlbs = s.mtlbs ∧ (s.apply e).harts = s.harts := by
  cases e
  case hart => cases h
  case mtlb => cases h
  all_goals simp

/-- No cached leaf at k is one that the invalidation drops, no hart has changed, and no request is on its way. -/
structure Invalidated (s : State) (v : Inval) (ks : List (Nat × Nat)) (t : State) : Prop where
  dropped : ∀ k ∈ ks, ∀ e ∈ t.mtlbs.get [] k, v.drops e = false
  harts : t.harts = s.harts
  reqs : t.reqs = []

section
variable {t : State} {v : Inval} {ks : List (Nat × Nat)}

/-- What holds of the leaves at the MTLBs named still holds, and of those at k as well. -/
theorem Invalidated.invalidate (h : Invalidated s v ks t) (k : Nat × Nat) :
    Invalidated s v (k :: ks) ((Act.invalidate v k).run t) := by
  refine ⟨fun k' hk' e he => ?_, h.harts, h.reqs⟩
  rw [Act.invalidate, Act.run_read, Act.run_emit, State.apply_mtlb, Store.get_put] at he
  split at he
  · exact Bool.not_eq_true _ ▸ (by simpa using (List.mem_filter.mp he).2)
  · rename_i hne
    exact h.dropped k' ((List.mem_cons.mp hk').resolve_left hne) e he

theorem Invalidated.each (l : List (Nat × Nat)) : ∀ {t : State} {ks : List (Nat × Nat)}, Invalidated s v ks t →
    Invalidated s v (l ++ ks) ((Act.each l fun k => .invalidate v k).run t) := by
  induction l with
  | nil => exact fun h => h
  | cons k r ih =>
    intro t ks h
    have hr := ih (h.invalidate k)
    refine ⟨fun k' hk' => hr.dropped k' ?_, hr.harts, hr.reqs⟩
    rcases List.mem_append.mp hk' with hk' | hk'
    · rcases List.mem_cons.mp hk' with rfl | hk' <;> simp [*]
    · simp [hk']

theorem Invalidated.apply (e : Effect) (he : e.offTlbs = true) (hr : (t.apply e).reqs = [])
    (h : Invalidated s v ks t) : Invalidated s v ks (t.apply e) := by
  obtain ⟨hmtlbs, hharts⟩ := t.apply_offTlbs he
  exact ⟨by rw [hmtlbs]; exact h.dropped, hharts.trans h.harts, hr⟩

/-- Without a request a replay only empties the log. -/
theorem Invalidated.replayEntries (k : Nat × Nat) (stopped : List (Option (BitVec 16))) (l : List Nat) :
    (Act.replayEntries k l stopped).Keeps (Invalidated s v ks) := by
  induction l with
  | nil => exact .skip
  | cons e rest ih =>
    intro t h
    have hnone : t.reqOf e = none := by rw [State.reqOf, h.reqs]; rfl
    rw [Act.replayEntries, Act.run_read, hnone]
    exact ih _ (h.apply (.slog k.1 k.2 _) rfl (by simpa using h.reqs))

theorem Invalidated.replayAt (die ix : Nat) (logs : List Nat) :
    (Act.replayAt die ix logs).Keeps (Invalidated s v ks) := by
  refine .block_cons (.each fun i => .read fun u => Invalidated.replayEntries _ _ _) <| .block_cons ?_ <|
    .block_cons ?_ .block_nil
  · exact fun t h => h.apply (.reqs _) rfl (by rw [State.apply_reqs, h.reqs]; rfl)
  · exact .read fun u => .each fun e => .when <| .read fun _ t h => h.apply (.copy _ _) rfl (by simpa using h.reqs)

end

/-- The form past the checks that every form makes. -/
theorem Forms.exec_ptInv (h : Forms s d n (.ptInv rd rs1 rs2)) :
    let x := xenv s d n
    let v := invalOf ((s.hart d n).readX rs1) ((s.hart d n).readX rs2)
    let drop : Act := .each (x.invalAt v) fun k => .invalidate v k
    exec (.ptInv rd rs1 rs2) s = Act.next (
      if !x.invalOk ((s.hart d n).readX rs1) ((s.hart d n).readX rs2) then x.ends rd rsBadArg
      else if x.invalBusy v then drop.seq x.waits
      else x.does rd (drop.seq (.each (x.invalAt v) fun k => .replayAt k.1 k.2 (logsOf v.owner))) 0) s := by
  show execPtInv rd rs1 rs2 s = _
  rw [execPtInv, h.exec_xordered (a := bothCores) rfl]
  rfl

theorem Forms.ptInv_bad (h : Forms s d n (.ptInv rd rs1 rs2))
    (hbad : (xenv s d n).invalOk ((s.hart d n).readX rs1) ((s.hart d n).readX rs2) = false) :
    ∃ t, exec (.ptInv rd rs1 rs2) s = .next t ∧ Answers s t d n rd 15 := by
  refine h.answers (h.exec_ptInv.trans ?_)
  rw [hbad]
  rfl

theorem Forms.ptInv_drops (h : Forms s d n (.ptInv rd rs1 rs2))
    (hok : (xenv s d n).invalOk ((s.hart d n).readX rs1) ((s.hart d n).readX rs2) = true) (hreqs : s.reqs = []) :
    let v := invalOf ((s.hart d n).readX rs1) ((s.hart d n).readX rs2)
    ∃ t, exec (.ptInv rd rs1 rs2) s = .next t ∧ Retires s t d n rd 0 ∧
      ∀ k ∈ (xenv s d n).invalAt v, ∀ e ∈ t.mtlbs.get [] k, v.drops e = false := by
  intro v
  have hquiet : (xenv s d n).invalBusy v = false := by
    rw [XEnv.invalBusy, xenv, hreqs, List.any_nil, Bool.and_false]
  have hexec := h.exec_ptInv
  dsimp only at hexec
  rw [hok, hquiet, Bool.not_true, if_neg Bool.false_ne_true, if_neg Bool.false_ne_true] at hexec
  have hstart : Invalidated s v [] s := ⟨fun k hk => absurd hk List.not_mem_nil, rfl, hreqs⟩
  have hdrop := Invalidated.each ((xenv s d n).invalAt v) hstart
  rw [List.append_nil] at hdrop
  have hdone := Act.Keeps.each (l := (xenv s d n).invalAt v)
    (fun k => Invalidated.replayAt k.1 k.2 (logsOf v.owner)) _ hdrop
  exact ⟨_, hexec, h.retires hdone.harts rd 0, hdone.dropped⟩

/-! ### `fq.pop` -/

theorem Forms.exec_fqPop (h : Forms s d n (.fqPop rd rs1)) :
    let x := xenv s d n
    let va := (s.hart d n).readX rs1
    exec (.fqPop rd rs1) s = Act.next (
      match if aligned va.toNat 64 then s.loadVa d x.part x.asid va 64 else none with
      | none => x.ends rd (allOnes - 1)
      | some b =>
        let head : DWord := BitVec.ofNat 64 (recNat b 0x10 8)
        if head = BitVec.ofNat 64 (recNat b 0x18 8) then x.ends rd allOnes
        else if !s.canStore d x.part x.asid (va + 0x10) 8 then x.ends rd (allOnes - 1)
        else x.does rd (.storeVa d x.part x.asid (va + 0x10) (leBytes 8 (head + 1).toNat)) head) s := by
  show execFqPop rd rs1 s = _
  rw [execFqPop, h.exec_xordered (a := bothCores) rfl]
  rfl

theorem ofNat_recNat_inj {b : List Byte} {i j : Nat} :
    BitVec.ofNat 64 (recNat b i 8) = BitVec.ofNat 64 (recNat b j 8) ↔ recNat b i 8 = recNat b j 8 := by
  have hi := recNat_lt b i 8
  have hj := recNat_lt b j 8
  rw [show 256 ^ 8 = 2 ^ 64 by norm_num] at hi hj
  rw [← BitVec.toNat_inj, BitVec.toNat_ofNat, BitVec.toNat_ofNat, Nat.mod_eq_of_lt hi, Nat.mod_eq_of_lt hj]

theorem Forms.fqPop_unread (h : Forms s d n (.fqPop rd rs1))
    (hbad : ((s.hart d n).readX rs1).toNat % 64 ≠ 0 ∨
      s.loadVa d (s.hartPart d n) (s.hart d n).asid ((s.hart d n).readX rs1) 64 = none) :
    ∃ t, exec (.fqPop rd rs1) s = .next t ∧ Answers s t d n rd (-2) := by
  have hnone : (if aligned ((s.hart d n).readX rs1).toNat 64 then
      s.loadVa d (xenv s d n).part (xenv s d n).asid ((s.hart d n).readX rs1) 64 else none) = none := by
    split
    · rename_i hal
      exact hbad.resolve_left fun hne => hne (beq_iff_eq.mp hal)
    · rfl
  refine h.answers (h.exec_fqPop.trans ?_)
  dsimp only
  rw [hnone]
  rfl

section
variable (h : Forms s d n (.fqPop rd rs1)) (hal : ((s.hart d n).readX rs1).toNat % 64 = 0) {b : List Byte}
  (hb : s.loadVa d (s.hartPart d n) (s.hart d n).asid ((s.hart d n).readX rs1) 64 = some b)
include h hal hb

theorem Forms.exec_fqPop_read : exec (.fqPop rd rs1) s = Act.next (
    if recNat b 0x10 8 = recNat b 0x18 8 then (xenv s d n).ends rd allOnes
    else if !s.canStore d (s.hartPart d n) (s.hart d n).asid ((s.hart d n).readX rs1 + 0x10) 8 then
      (xenv s d n).ends rd (allOnes - 1)
    else (xenv s d n).does rd (.storeVa d (s.hartPart d n) (s.hart d n).asid ((s.hart d n).readX rs1 + 0x10)
      (leBytes 8 (BitVec.ofNat 64 (recNat b 0x10 8) + 1 : DWord).toNat)) (BitVec.ofNat 64 (recNat b 0x10 8))) s := by
  have hsome : (if aligned ((s.hart d n).readX rs1).toNat 64 then
      s.loadVa d (xenv s d n).part (xenv s d n).asid ((s.hart d n).readX rs1) 64 else none) = some b :=
    (if_pos (beq_iff_eq.mpr hal)).trans hb
  rw [h.exec_fqPop]
  dsimp only
  rw [hsome]
  simp only [ofNat_recNat_inj]
  rfl

theorem Forms.fqPop_empty (heq : recNat b 0x10 8 = recNat b 0x18 8) :
    ∃ t, exec (.fqPop rd rs1) s = .next t ∧ Answers s t d n rd (-1) :=
  h.answers <| by rw [h.exec_fqPop_read hal hb, if_pos heq]; rfl

theorem Forms.fqPop_pops (hne : recNat b 0x10 8 ≠ recNat b 0x18 8)
    (hstore : s.canStore d (s.hartPart d n) (s.hart d n).asid ((s.hart d n).readX rs1 + 0x10) 8 = true) :
    ∃ t, exec (.fqPop rd rs1) s = .next t ∧ Retires s t d n rd (BitVec.ofNat 64 (recNat b 0x10 8)) := by
  have hexec := h.exec_fqPop_read hal hb
  rw [if_neg hne, hstore, Bool.not_true, if_neg Bool.false_ne_true] at hexec
  obtain ⟨t, ht, hretires, _⟩ := h.does_retires ((Act.storeVa_ofStore _ _ _ _ _).stored s).harts hexec
  exact ⟨t, ht, hretires⟩

end

/-! ### `launch` -/

theorem Forms.exec_coreLaunch (h : Forms s d n (.coreLaunch rd rs1 rs2)) (hwait : (s.hart d n).wait = none) :
    let x := xenv s d n
    exec (.coreLaunch rd rs1 rs2) s = Act.next (
      match x.request ((s.hart d n).readX rs2) with
      | none => x.ends rd (BitVec.ofNat 64 stLoadReject)
      | some (reply, ov) => .fresh fun k =>
          (Act.emit (.launch k (some
            { recAddr := (s.hart d n).readX rs1, reply := reply, issuer := .hart d n rd, overrides := ov
              asid := x.asid, part := x.part, vd := 0 }))).seq (.holdX d n (.launched k))) s := by
  have hw : (xenv s d n).h.wait = none := hwait
  show execCoreLaunch rd rs1 rs2 s = _
  rw [execCoreLaunch, h.exec_xordered (a := bothCores) rfl, hw]
  rfl

theorem Forms.coreLaunch_issues (h : Forms s d n (.coreLaunch rd rs1 rs2)) (hwait : (s.hart d n).wait = none)
    (hb : (s.hart d n).readX rs2 = 0) : ∃ t l, exec (.coreLaunch rd rs1 rs2) s = .next t ∧
      Holds s t d n (.launched s.nextId) ∧ t.launches = s.launches.put s.nextId l ∧
      l.recAddr = (s.hart d n).readX rs1 ∧ l.reply = 0 ∧ l.overrides = [] ∧ l.issuer = .hart d n rd ∧
      l.asid = (s.hart d n).asid ∧ l.part = s.hartPart d n ∧ l.st = .issued ∧ t.mem = s.mem ∧
      t.reqs = s.reqs := by
  have hrequest : (xenv s d n).request ((s.hart d n).readX rs2) = some (0, []) := by
    rw [hb, XEnv.request, if_pos rfl]
  have hexec := h.exec_coreLaunch hwait
  dsimp only at hexec
  rw [hrequest] at hexec
  refine ⟨_, _, hexec, Act.holdX_holds h.ok ?_ _, rfl, rfl, rfl, rfl, rfl, rfl, rfl, rfl, rfl, rfl⟩
  rfl

theorem Forms.coreLaunch_rejected (h : Forms s d n (.coreLaunch rd rs1 rs2)) (hwait : (s.hart d n).wait = none)
    (hb : (s.hart d n).readX rs2 ≠ 0) (hal : ((s.hart d n).readX rs2).toNat % 64 ≠ 0) :
    ∃ t, exec (.coreLaunch rd rs1 rs2) s = .next t ∧ Answers s t d n rd 0x11 := by
  have hrequest : (xenv s d n).request ((s.hart d n).readX rs2) = none := by
    have hmis : ¬ aligned ((s.hart d n).readX rs2).toNat 64 = true := fun hal' => hal (beq_iff_eq.mp hal')
    rw [XEnv.request, if_neg hb, if_neg hmis]
  have hexec := h.exec_coreLaunch hwait
  dsimp only at hexec
  rw [hrequest] at hexec
  exact h.answers hexec

/-! ### `fw.set` -/

theorem sfw_stored (p : Nat) : (RegName.sfw p).stored = 0x0000_FFFF_0000_000F := by
  show bitsMask 47 32 ||| bitsMask 3 0 = _
  decide

theorem regAt_sfw : ∀ k < 26, ∀ q < 5, portExists k q = true → regAt k (RegName.sfw q).off = some (.sfw q) := by
  decide +kernel

theorem facing_exists : ∀ k < 26, ∀ q < 5, portExists k q = true →
    (facing k q).all (fun e => portExists e.1 e.2) = true := by
  decide

theorem portExists_lt {k q : Nat} (h : portExists k q = true) : k < 26 ∧ q < 5 := by
  simp only [portExists, isC, isX, Bool.or_eq_true, Bool.and_eq_true, decide_eq_true_eq, beq_iff_eq] at h
  omega

/-- CLOSE, XTRANSIT and LRC of a port are as v has them. -/
def SfwIs (v : DWord) (t : State) (k q : Nat) : Prop := (t.reg k (.sfw q)).extractLsb' 0 3 = v.extractLsb' 0 3

theorem SfwIs.set (t : State) {k q : Nat} (hp : portExists k q = true) (v : DWord) :
    SfwIs v ((Act.sfwSet k q v).run t) k q := by
  obtain ⟨hk, hq⟩ := portExists_lt hp
  refine BitVec.eq_of_toNat_eq ?_
  show fieldOf (((Act.sfwSet k q v).run t).reg k (.sfw q)) 2 0 = _
  rw [Act.sfwSet, Act.run_onReg, State.reg_apply_same _ _ (regAt_sfw k hk q hq hp), sfw_stored,
    fieldOf_and _ _ (by decide), fieldOf_withField_other _ _ (by omega) (by omega) (by omega) (by omega),
    fieldOf_withField_same _ _ (by omega) (by omega)]
  exact Nat.mod_eq_of_lt (v.extractLsb' 0 3).isLt

/-- The same bits written at another port, or at this one again, change nothing of it. -/
theorem SfwIs.set_again {t : State} {k q k' q' : Nat} {v : DWord} (h : SfwIs v t k q) (hp : portExists k' q' = true) :
    SfwIs v ((Act.sfwSet k' q' v).run t) k q := by
  by_cases heq : (k, q) = (k', q')
  · obtain ⟨rfl, rfl⟩ := Prod.mk.inj heq
    exact SfwIs.set t hp v
  · rw [SfwIs, Act.sfwSet, Act.run_onReg, State.reg_apply_ne]
    · exact h
    · intro hk hoff
      have : 0x0440 + 8 * q = 0x0440 + 8 * q' := hoff
      exact heq (by rw [hk]; congr 1; omega)

/-- A port's bits written, and those of the port that it faces. -/
def Act.sfwBoth (die port : Nat) (v : DWord) : Act :=
  (Act.sfwSet die port v).seq (match facing die port with
    | some e => Act.sfwSet e.1 e.2 v
    | none => Act.skip)

theorem Act.run_sfwBoth_none {die port : Nat} (h : facing die port = none) (v : DWord) (s : State) :
    (Act.sfwBoth die port v).run s = (Act.sfwSet die port v).run s := by
  rw [Act.sfwBoth, h, Act.run_seq, Act.run_skip]

theorem Act.run_sfwBoth_some {die port : Nat} {e : DiePort} (h : facing die port = some e) (v : DWord) (s : State) :
    (Act.sfwBoth die port v).run s = (Act.sfwSet e.1 e.2 v).run ((Act.sfwSet die port v).run s) := by
  rw [Act.sfwBoth, h, Act.run_seq]

theorem Act.sfwSet_frame (die port : Nat) (v : DWord) (s : State) :
    (Act.sfwSet die port v).run s = { s with regs := ((Act.sfwSet die port v).run s).regs } := rfl

theorem Act.sfwBoth_sets {die port : Nat} (hp : portExists die port = true) (v : DWord) (s : State) :
    SfwIs v ((Act.sfwBoth die port v).run s) die port ∧
    (∀ e, facing die port = some e → SfwIs v ((Act.sfwBoth die port v).run s) e.1 e.2) ∧
    (Act.sfwBoth die port v).run s = { s with regs := ((Act.sfwBoth die port v).run s).regs } := by
  obtain ⟨hdie, hport⟩ := portExists_lt hp
  have hfacing := facing_exists die hdie port hport hp
  have hfirst := SfwIs.set s hp v
  cases hf : facing die port with
  | none =>
    rw [Act.run_sfwBoth_none hf]
    exact ⟨hfirst, fun e he => absurd he (by simp), Act.sfwSet_frame die port v s⟩
  | some e =>
    rw [hf] at hfacing
    rw [Act.run_sfwBoth_some hf]
    refine ⟨hfirst.set_again hfacing, fun e' he' => ?_, ?_⟩
    · obtain rfl := Option.some.inj he'
      exact SfwIs.set _ hfacing v
    · rw [Act.sfwSet_frame e.1, Act.sfwSet_frame die]

theorem Forms.exec_fwSet (h : Forms s d n (.fwSet rd rs1 rs2)) :
    let a := (s.hart d n).readX rs1
    let die := (a.extractLsb' 0 5).toNat
    let port := (a.extractLsb' 5 3).toNat
    exec (.fwSet rd rs1 rs2) s = Act.next (
      if a.extractLsb' 8 56 != 0 || !portExists die port then (xenv s d n).ends rd allOnes
      else (xenv s d n).does rd (Act.sfwBoth die port ((s.hart d n).readX rs2)) (s.readSfw die port)) s := by
  show execFwSet rd rs1 rs2 s = _
  rw [execFwSet, h.exec_xordered (a := systemOnly) rfl]
  rfl

theorem Forms.fwSet_bad (h : Forms s d n (.fwSet rd rs1 rs2))
    (hbad : ((s.hart d n).readX rs1).extractLsb' 8 56 ≠ 0 ∨
      portExists (((s.hart d n).readX rs1).extractLsb' 0 5).toNat (((s.hart d n).readX rs1).extractLsb' 5 3).toNat =
        false) :
    ∃ t, exec (.fwSet rd rs1 rs2) s = .next t ∧ Answers s t d n rd (-1) := by
  have hexec := h.exec_fwSet
  dsimp only at hexec
  rw [if_pos (by rw [Bool.or_eq_true, bne_iff_ne, Bool.not_eq_true']; exact hbad)] at hexec
  exact h.answers hexec

theorem Forms.fwSet_sets (h : Forms s d n (.fwSet rd rs1 rs2)) {die port : Nat}
    (ha : ((s.hart d n).readX rs1).extractLsb' 8 56 = 0)
    (hdie : (((s.hart d n).readX rs1).extractLsb' 0 5).toNat = die)
    (hport : (((s.hart d n).readX rs1).extractLsb' 5 3).toNat = port) (hp : portExists die port = true) :
    ∃ t, exec (.fwSet rd rs1 rs2) s = .next t ∧ Retires s t d n rd (s.readSfw die port) ∧
      SfwIs ((s.hart d n).readX rs2) t die port ∧
      (∀ e, facing die port = some e → SfwIs ((s.hart d n).readX rs2) t e.1 e.2) ∧
      t = { s with harts := t.harts, regs := t.regs } := by
  obtain ⟨hown, hother, hframe⟩ := Act.sfwBoth_sets hp ((s.hart d n).readX rs2) s
  have hexec := h.exec_fwSet
  dsimp only at hexec
  rw [hdie, hport, if_neg (by rw [Bool.or_eq_true, bne_iff_ne, Bool.not_eq_true', hp, ha]; decide)] at hexec
  obtain ⟨t, ht, hretires, hrest⟩ := h.does_retires (by rw [hframe]) hexec
  have hregs := congrArg State.regs hrest
  refine ⟨t, ht, hretires, ?_, fun e he => ?_, ?_⟩
  · rw [SfwIs, State.reg_of_regs hregs]
    exact hown
  · rw [SfwIs, State.reg_of_regs hregs]
    exact hother e he
  · exact hrest.regs_harts hframe

/-! ### `dbg.rd` and `dbg.wr` -/

section
variable {i : Instr} {w : Word} {r : Region}

theorem OnTarget.exec_dbgRd (h : OnTarget s d n (.dbgRd rd rs1 rs2) rs1 w r) :
    let x := xenv s d n
    let va := (s.hart d n).readX rs2
    exec (.dbgRd rd rs1 rs2) s = (x.debug rd va r fun k b =>
      if (List.range 4).all fun i =>
          s.canStore d (s.hartPart d n) (s.hart d n).asid (va + BitVec.ofNat 64 (64 * i)) 64 then
        x.does rd (.storeLong d (s.hartPart d n) (s.hart d n).asid va (s.debugFill k b) 4) 0
      else x.ends rd rsMemFault).next s := by
  show execDbgRd rd rs1 rs2 s = _
  rw [execDbgRd, h.exec_xregion rfl]
  rfl

theorem OnTarget.exec_dbgWr (h : OnTarget s d n (.dbgWr rd rs1 rs2) rs1 w r) :
    let x := xenv s d n
    exec (.dbgWr rd rs1 rs2) s = (x.debug rd ((s.hart d n).readX rs2) r fun k b =>
      if k.kind = 1 ∧ 8 ≤ recNat b 0x5A 1 then x.ends rd rsBadArg
      else x.does rd (.onCell k.id (debugPut k b)) 0).next s := by
  show execDbgWr rd rs1 rs2 s = _
  rw [execDbgWr, h.exec_xregion rfl]
  rfl

/-- Both debug forms are their checks and then an act on what the block names. -/
theorem OnTarget.exec_debug (hi : i ∈ [Instr.dbgRd rd rs1 rs2, .dbgWr rd rs1 rs2]) (h : OnTarget s d n i rs1 w r) :
    ∃ act, exec i s = ((xenv s d n).debug rd ((s.hart d n).readX rs2) r act).next s := by
  rcases List.mem_cons.mp hi with rfl | hi
  · exact ⟨_, h.exec_dbgRd⟩
  · obtain rfl := List.mem_singleton.mp hi
    exact ⟨_, h.exec_dbgWr⟩

end

section
variable {va : DWord} {r : Region} {act : DebugAt → List Byte → Act}

theorem XEnv.debug_misaligned (h : va.toNat % 64 ≠ 0) :
    (xenv s d n).debug rd va r act = (xenv s d n).ends rd rsBadArg :=
  if_pos (by rw [Bool.not_eq_true', aligned, beq_eq_false_iff_ne]; exact h)

variable (hal : va.toNat % 64 = 0)
include hal

theorem XEnv.debug_aligned : (xenv s d n).debug rd va r act =
    if r.state != .frozen && r.state != .retired then (xenv s d n).ends rd rsBadState
    else if !s.debugOk r then (xenv s d n).ends rd rsDenied
    else match s.loadLong d (s.hartPart d n) (s.hart d n).asid va 4 with
      | none => (xenv s d n).ends rd rsMemFault
      | some b =>
        match debugAt r b with
        | none => (xenv s d n).ends rd rsBadArg
        | some t => act t b := by
  have hnot : ¬ (!aligned va.toNat 64) = true := by
    rw [aligned, hal]
    decide
  rw [XEnv.debug, if_neg hnot]
  rfl

theorem XEnv.debug_state (h1 : r.state ≠ .frozen) (h2 : r.state ≠ .retired) :
    (xenv s d n).debug rd va r act = (xenv s d n).ends rd rsBadState := by
  rw [XEnv.debug_aligned hal, if_pos]
  rw [Bool.and_eq_true, bne_iff_ne, bne_iff_ne]
  exact ⟨h1, h2⟩

variable (hstate : r.state = .frozen ∨ r.state = .retired)
include hstate

theorem XEnv.debug_stopped : (xenv s d n).debug rd va r act =
    if !s.debugOk r then (xenv s d n).ends rd rsDenied
    else match s.loadLong d (s.hartPart d n) (s.hart d n).asid va 4 with
      | none => (xenv s d n).ends rd rsMemFault
      | some b =>
        match debugAt r b with
        | none => (xenv s d n).ends rd rsBadArg
        | some t => act t b := by
  rw [XEnv.debug_aligned hal, if_neg]
  rw [Bool.and_eq_true, bne_iff_ne, bne_iff_ne]
  exact fun h => hstate.elim h.1 h.2

theorem XEnv.debug_denied (h : s.debugOk r = false) :
    (xenv s d n).debug rd va r act = (xenv s d n).ends rd rsDenied := by
  rw [XEnv.debug_stopped hal hstate, h]
  rfl

variable (hok : s.debugOk r = true) {b : List Byte} (hb : s.loadLong d (s.hartPart d n) (s.hart d n).asid va 4 = some b)
include hok hb

theorem XEnv.debug_nowhere (h : debugAt r b = none) :
    (xenv s d n).debug rd va r act = (xenv s d n).ends rd rsBadArg := by
  rw [XEnv.debug_stopped hal hstate, hok, hb]
  dsimp only
  rw [h]
  rfl

theorem XEnv.debug_acts {k : DebugAt} (h : debugAt r b = some k) : (xenv s d n).debug rd va r act = act k b := by
  rw [XEnv.debug_stopped hal hstate, hok, hb]
  dsimp only
  rw [h]
  rfl

end

section
variable {r : Region} {w : Word} {b : List Byte} {k : DebugAt}

theorem OnTarget.dbgRd_reads (h : OnTarget s d n (.dbgRd rd rs1 rs2) rs1 w r)
    (hal : ((s.hart d n).readX rs2).toNat % 64 = 0) (hstate : r.state = .frozen ∨ r.state = .retired)
    (hok : s.debugOk r = true)
    (hb : s.loadLong d (s.hartPart d n) (s.hart d n).asid ((s.hart d n).readX rs2) 4 = some b)
    (hk : debugAt r b = some k)
    (hstore : ∀ i, i < 4 → s.canStore d (s.hartPart d n) (s.hart d n).asid
      ((s.hart d n).readX rs2 + BitVec.ofNat 64 (64 * i)) 64 = true) :
    ∃ t, exec (.dbgRd rd rs1 rs2) s = .next t ∧ Retires s t d n rd 0 ∧ t.cells = s.cells := by
  have hexec := h.exec_dbgRd
  dsimp only at hexec
  rw [XEnv.debug_acts hal hstate hok hb hk,
    if_pos (List.all_eq_true.mpr fun i hi => hstore i (List.mem_range.mp hi))] at hexec
  have hstored := (Act.storeLong_ofStore d (s.hartPart d n) (s.hart d n).asid 4 ((s.hart d n).readX rs2)
    (s.debugFill k b)).stored s
  obtain ⟨t, ht, hretires, hrest⟩ := h.toForms.does_retires hstored.harts hexec
  exact ⟨t, ht, hretires, (congrArg State.cells hrest).trans hstored.cells⟩

/-- What `dbg.wr` leaves of the cell that it writes. -/
theorem debugPut_line (hk : k.kind = 0) (c : Cell) : (debugPut k b c).me.line k.index =
    { c.me.line k.index with
      data := BitVec.ofNat 1024 (recNat b 0x10 128), lot := BitVec.ofNat 12 (recNat b 6 2), bad := 0 } := by
  rw [debugPut, if_pos hk]
  exact Store.get_put_same _ _ _ _

theorem debugPut_scalar (hk : k.kind = 2) (c : Cell) : (debugPut k b c).ce.s.get {} k.index =
    { c.ce.s.get {} k.index with val := BitVec.ofNat 32 (recNat b 0x10 4), lot := BitVec.ofNat 12 (recNat b 6 2) } := by
  rw [debugPut, if_neg (by omega), if_neg (by omega)]
  exact Store.get_put_same _ _ _ _

theorem OnTarget.dbgWr_writes (h : OnTarget s d n (.dbgWr rd rs1 rs2) rs1 w r)
    (hal : ((s.hart d n).readX rs2).toNat % 64 = 0) (hstate : r.state = .frozen ∨ r.state = .retired)
    (hok : s.debugOk r = true)
    (hb : s.loadLong d (s.hartPart d n) (s.hart d n).asid ((s.hart d n).readX rs2) 4 = some b)
    (hk : debugAt r b = some k)
    (htag : ¬ (k.kind = 1 ∧ 8 ≤ recNat b 0x5A 1)) :
    ∃ t, exec (.dbgWr rd rs1 rs2) s = .next t ∧ Retires s t d n rd 0 ∧ t.mem = s.mem ∧
      (∀ c, c ≠ k.id → t.cells.get {} c = s.cells.get {} c) ∧
      t.cells.get {} k.id = debugPut k b (s.cells.get {} k.id) := by
  have hexec := h.exec_dbgWr
  dsimp only at hexec
  rw [XEnv.debug_acts hal hstate hok hb hk, if_neg htag] at hexec
  obtain ⟨t, ht, hretires, hrest⟩ := h.toForms.does_retires rfl hexec
  have hcells : t.cells = s.cells.put k.id (debugPut k b (s.cells.get {} k.id)) :=
    congrArg State.cells hrest
  refine ⟨t, ht, hretires, (congrArg State.mem hrest).trans rfl, fun c hc => ?_, ?_⟩
  · rw [hcells, Store.get_put_ne _ _ _ hc]
  · rw [hcells, Store.get_put_same]

end

end

/-- Settles O46: each form is its checks in the order of the rules, and then one act and the end of the instruction. -/
theorem systemForms : Obligations.SystemForms := by
  intro s d n rd rs1 rs2
  refine ⟨fun h => ⟨h.ptInv_bad, h.ptInv_drops⟩,
    fun h => ⟨h.fqPop_unread, fun x hal hx => ⟨h.fqPop_empty hal hx, h.fqPop_pops hal hx⟩⟩,
    fun h hwait => ⟨h.coreLaunch_issues hwait, h.coreLaunch_rejected hwait⟩,
    fun h => ⟨h.fwSet_bad, fun ha => h.fwSet_sets ha rfl rfl⟩, fun op hop w r h => ?_⟩
  obtain ⟨act, hexec⟩ := h.exec_debug hop
  refine ⟨fun hal => h.answers (by rw [hexec, XEnv.debug_misaligned hal]; rfl),
    fun hal h1 h2 => h.answers (by rw [hexec, XEnv.debug_state hal h1 h2]; rfl),
    fun hal hstate hdenied => h.answers (by rw [hexec, XEnv.debug_denied hal hstate hdenied]; rfl),
    fun x hal hstate hok hx => ⟨fun hnone =>
        h.answers (by rw [hexec, XEnv.debug_nowhere hal hstate hok hx hnone]; rfl),
      fun k hk => ⟨?_, ?_⟩⟩⟩
  · rintro rfl hstore
    exact h.dbgRd_reads hal hstate hok hx hk hstore
  · rintro rfl htag
    obtain ⟨t, ht, hret, hmem, hothers, hcell⟩ := h.dbgWr_writes hal hstate hok hx hk htag
    exact ⟨t, ht, hret, hmem, hothers, fun h0 => by rw [hcell, debugPut_line h0],
      fun h2 => by rw [hcell, debugPut_scalar h2]⟩

end Sys2Proof.Machine
end

section
/-!
Training of the last seam over a field log with a word that no die has (R11, R15, R21, R67).
-/
namespace Sys2Proof.Machine

/-- Boot waits for one seam, the first, which is TRAINING; the others are UP. The field log of die 0 names word 99 of
its defect map, which has five: such a word would lie where SEAMST of port 3 does. -/
def strayLog : State :=
  { State.reset with
    wipes := tiers.map fun x => (x, .done)
    boots := xDies.map fun x => (x, { stage := .abuaby })
    regs := (List.range 46).flatMap fun n => (linkPorts (.seam n)).map fun p =>
      ((p.1, (RegName.seamst p.2).off), BitVec.ofNat 64 (if n = 0 then stTraining else stUp))
    fieldLog := [(0, { defmap := [(99, 0)] })] }

theorem strayLog_training : ∀ p ∈ linkPorts (.seam 0), strayLog.portState p = stTraining := by decide +kernel

/-- The seam's side at port 3 of die 0. -/
theorem seam_zero_side : ((0, 3) : DiePort) ∈ linkPorts (.seam 0) := by decide

/-- The port's state once the seam has trained. -/
def trainedState : Out → Option Nat
  | .next t => some (t.portState (0, 3))
  | _ => none

/-- With the last seam boot goes on: it takes DEFMAP from the field log, and port 3 reads DOWN. -/
theorem strayLog_trained : trainedState (exec (.seamTraining (.seam 0) true) strayLog) = some stDown := by
  decide +kernel

/-- Refutes O47: nothing holds the words of a field log to those of a defect map, so the DEFMAP that boot takes from it
after the last seam has trained can overwrite SEAMST of that seam, which is then not UP. -/
theorem not_bootAndSecurity : ¬ Obligations.BootAndSecurity := by
  intro h
  obtain ⟨-, -, -, -, -, hseams, -, -⟩ := h strayLog
  obtain ⟨-, htraining⟩ := hseams (.seam 0) (show 0 < 46 by decide) rfl
  obtain ⟨⟨t, hexec, hup⟩, -⟩ := htraining strayLog_training
  have hdown := strayLog_trained
  rw [hexec, trainedState, hup _ seam_zero_side] at hdown
  exact absurd hdown (by decide)

end Sys2Proof.Machine
end

section
/-!
SUPPORT. The registers of partitions, virtual devices and maps, their fields after a write, and counts in a field (R4,
R76, R77, R82, R97, R188, R189).
-/
namespace Sys2Proof.Machine

/-! ### Where the registers lie -/

section
variable {base stride n off i : Nat}

theorem indexed_above (hs : 0 < stride) (h : base + stride * n ≤ off) : indexed base stride n off = none := by
  refine if_neg fun hc => ?_
  have hdiv := (Nat.div_lt_iff_lt_mul hs).mp hc.2.2
  rw [Nat.mul_comm] at hdiv
  omega

theorem indexed_between (h : (off - base) % stride ≠ 0) : indexed base stride n off = none :=
  if_neg fun hc => h hc.2.1

theorem indexed_at (hs : 0 < stride) (hi : i < n) : indexed base stride n (base + stride * i) = some i := by
  have hsub : base + stride * i - base = stride * i := by omega
  rw [indexed, hsub, Nat.mul_mod_right, Nat.mul_div_cancel_left i hs, if_pos ⟨by omega, rfl, hi⟩]

end

section
variable {d v i : Nat}

theorem regAt_of_isC (hd : isC d = true) (off : Nat) : regAt d off = regAtC off := if_pos hd

theorem regAt_of_isX (hd : isX d = true) (off : Nat) : regAt d off = regAtX off := by
  have hc : ¬ isC d = true := by
    simp only [isX, Bool.or_eq_true, beq_iff_eq] at hd
    simp only [isC, decide_eq_true_eq]
    omega
  rw [regAt, if_neg hc, if_pos hd]

theorem regAt_partcfg (hd : isC d = true) : regAt d RegName.partcfg.off = some .partcfg := by
  rw [regAt_of_isC hd]
  rfl

theorem regAt_vdcfg (hd : isC d = true) (hv : v < 1024) : regAt d (RegName.vdcfg v).off = some (.vdcfg v) := by
  rw [regAt_of_isC hd, regAtC, RegName.off]
  simp (disch := omega) only [indexed_above, indexed_at, if_neg, Option.map_none, Option.map_some, firstSome]

theorem regAt_vdst (hd : isC d = true) (hv : v < 1024) : regAt d (RegName.vdst v).off = some (.vdst v) := by
  rw [regAt_of_isC hd, regAtC, RegName.off]
  simp (disch := omega) only [indexed_above, indexed_between, indexed_at, if_neg, Option.map_none, Option.map_some,
    firstSome]

theorem regAt_vdasid (hd : isC d = true) (hv : v < 1024) : regAt d (RegName.vdasid v).off = some (.vdasid v) := by
  have hvdst : indexed 0x4008 16 1024 (0x8000 + 8 * v) = none := by
    rcases Nat.eq_zero_or_pos v with rfl | hpos
    · exact indexed_between (by decide)
    · exact indexed_above (by decide) (by omega)
  rw [regAt_of_isC hd, regAtC, RegName.off]
  simp (disch := omega) only [hvdst, indexed_above, indexed_at, if_neg, Option.map_none, Option.map_some, firstSome]

theorem regAt_dmap (hd : isC d = true) (hi : i < 26) : regAt d (RegName.dmap i).off = some (.dmap i) := by
  rw [regAt_of_isC hd, regAtC, RegName.off]
  simp (disch := omega) only [indexed_above, indexed_at, if_neg, Option.map_none, Option.map_some, firstSome]

theorem regAt_xpartst (hd : isX d = true) : regAt d RegName.xpartst.off = some .xpartst := by
  rw [regAt_of_isX hd]
  rfl

theorem regAt_ftlgc (hd : isX d = true) : regAt d RegName.ftlgc.off = some .ftlgc := by
  rw [regAt_of_isX hd]
  rfl

theorem regAt_xpart (hd : isX d = true) (hi : i < 24) : regAt d (RegName.xpart i).off = some (.xpart i) := by
  rw [regAt_of_isX hd, regAtX, RegName.off]
  simp (disch := omega) only [indexed_above, indexed_at, if_neg, Option.map_none, Option.map_some, firstSome]

end

/-! ### Fields -/

section
variable {hi lo : Nat}

theorem fieldOf_and_none (v m : DWord) (hm : m.extractLsb' lo (hi + 1 - lo) = 0) : fieldOf (v &&& m) hi lo = 0 := by
  rw [fieldOf, BitVec.extractLsb'_and, hm, BitVec.ofNat_eq_ofNat, BitVec.and_zero, BitVec.toNat_ofNat, Nat.zero_mod]

theorem fieldOf_or_none (v w : DWord) (hw : fieldOf w hi lo = 0) : fieldOf (v ||| w) hi lo = fieldOf v hi lo := by
  have hzero : w.extractLsb' lo (hi + 1 - lo) = 0 := BitVec.eq_of_toNat_eq (hw.trans BitVec.toNat_zero.symm)
  rw [fieldOf, BitVec.extractLsb'_or, hzero, BitVec.ofNat_eq_ofNat, BitVec.or_zero, fieldOf]

theorem fieldOf_none_or (v w : DWord) (hv : fieldOf v hi lo = 0) : fieldOf (v ||| w) hi lo = fieldOf w hi lo := by
  rw [BitVec.or_comm, fieldOf_or_none w v hv]

theorem fieldOf_eq (v : DWord) (hi lo : Nat) : fieldOf v hi lo = v.toNat / 2 ^ lo % 2 ^ (hi + 1 - lo) := by
  rw [fieldOf, BitVec.extractLsb'_toNat, Nat.shiftRight_eq_div_pow]

theorem State.regField_lt (s : State) (d : Nat) (r : RegName) (hi lo : Nat) :
    s.regField d r hi lo < 2 ^ (hi + 1 - lo) :=
  Nat.mod_lt _ (Nat.two_pow_pos _)

theorem regField_bit (s : State) (d : Nat) (r : RegName) (k : Nat) :
    s.regField d r k k = if (s.reg d r).getLsbD k then 1 else 0 := by
  rw [State.regField, Nat.add_sub_cancel_left, pow_one, BitVec.getLsbD, Nat.testBit_eq_decide_div_mod_eq]
  by_cases h : (s.reg d r).toNat / 2 ^ k % 2 = 1
  · simp [h]
  · have h0 : (s.reg d r).toNat / 2 ^ k % 2 = 0 := by omega
    simp [h0]

variable (s : State) {d : Nat} {r : RegName} (hr : regAt d r.off = some r)
include hr

/-- A field that a register stores, after a write of the register. -/
theorem State.regField_apply (v : DWord) (hm : r.stored.extractLsb' lo (hi + 1 - lo) = BitVec.allOnes _) :
    (s.apply (.reg d r v)).regField d r hi lo = fieldOf v hi lo := by
  rw [State.regField_eq, State.reg_apply_same _ _ hr, fieldOf_and _ _ hm]

/-- The same after one of its fields is replaced: that field. -/
theorem State.regField_withField_same (x : Nat) (hl : lo ≤ hi) (hh : hi < 64)
    (hm : r.stored.extractLsb' lo (hi + 1 - lo) = BitVec.allOnes _) :
    ((Act.onReg d r fun o => withField o hi lo x).run s).regField d r hi lo = x % 2 ^ (hi + 1 - lo) := by
  rw [Act.run_onReg, s.regField_apply hr _ hm, fieldOf_withField_same _ _ hl hh]

/-- Another field. -/
theorem State.regField_withField_other {hi' lo' : Nat} (x : Nat) (h : hi' < lo ∨ hi < lo') (hl : lo ≤ hi)
    (hl' : lo' ≤ hi') (hh : hi' < 64) (hm : r.stored.extractLsb' lo' (hi' + 1 - lo') = BitVec.allOnes _) :
    ((Act.onReg d r fun o => withField o hi lo x).run s).regField d r hi' lo' = s.regField d r hi' lo' := by
  rw [Act.run_onReg, s.regField_apply hr _ hm, fieldOf_withField_other _ _ h hl hl' hh, ← State.regField_eq]

/-- A count in a field stops at its largest value. -/
theorem State.regField_countReg_same (hl : lo ≤ hi) (hh : hi < 64)
    (hm : r.stored.extractLsb' lo (hi + 1 - lo) = BitVec.allOnes _) :
    ((Act.countReg d r hi lo).run s).regField d r hi lo = min (2 ^ (hi + 1 - lo) - 1) (s.regField d r hi lo + 1) := by
  have hlt : min (2 ^ (hi + 1 - lo) - 1) (s.regField d r hi lo + 1) < 2 ^ (hi + 1 - lo) :=
    lt_of_le_of_lt (Nat.min_le_left _ _) (Nat.sub_lt (Nat.two_pow_pos _) Nat.one_pos)
  rw [Act.countReg, Act.run_onReg, s.regField_apply hr _ hm, fieldOf_withField_same _ _ hl hh]
  exact Nat.mod_eq_of_lt hlt

theorem State.regField_countReg_other {hi' lo' : Nat} (h : hi' < lo ∨ hi < lo') (hl : lo ≤ hi)
    (hl' : lo' ≤ hi') (hh : hi' < 64) (hm : r.stored.extractLsb' lo' (hi' + 1 - lo') = BitVec.allOnes _) :
    ((Act.countReg d r hi lo).run s).regField d r hi' lo' = s.regField d r hi' lo' := by
  rw [Act.countReg, Act.run_onReg, s.regField_apply hr _ hm, fieldOf_withField_other _ _ h hl hl' hh,
    ← State.regField_eq]

end

end Sys2Proof.Machine
end

section
/-!
PARTCFG, XPART, VDCFG, VDASID and DMAP written or refused (R76, R77, R97, R188, R189).
-/
namespace Sys2Proof.Machine

/-- Only registers have changed. -/
abbrev OnlyRegs (s t : State) : Prop := t = { s with regs := t.regs }

/-! ### PARTCFG -/

section
variable {s : State} {d : Nat} (v : DWord)

/-- PARTCFG as a write leaves it: PARTID, LEAD and ASSIGNED of v, the count as it was. -/
def partcfgWord (v o : DWord) : DWord := (v &&& (bitsMask 9 8 ||| bitsMask 4 0)) ||| (o &&& bitsMask 47 32)

theorem partcfg_stored : RegName.partcfg.stored = 0x0000_FFFF_0000_031F := by decide

theorem partcfgWord_written (o : DWord) {hi lo : Nat}
    (hm : (bitsMask 9 8 ||| bitsMask 4 0 : DWord).extractLsb' lo (hi + 1 - lo) = BitVec.allOnes _)
    (hz : (bitsMask 47 32 : DWord).extractLsb' lo (hi + 1 - lo) = 0) :
    fieldOf (partcfgWord v o) hi lo = fieldOf v hi lo := by
  rw [partcfgWord, fieldOf_or_none _ _ (fieldOf_and_none _ _ hz), fieldOf_and _ _ hm]

theorem partcfgWord_count (o : DWord) : fieldOf (partcfgWord v o) 47 32 = fieldOf o 47 32 := by
  rw [partcfgWord, fieldOf_none_or _ _ (fieldOf_and_none _ _ (by decide)), fieldOf_and _ _ (by decide)]

/-- The partition of these dies is formed: their dispatchers start with selection anew (R101). -/
def Act.formAll (dies : List Nat) : Act := .each dies fun d => .onDispatcher d Dispatcher.formed

theorem Act.formAll_dispatchers (k : Nat) (dies : List Nat) :
    ∀ u : State, dies.Nodup → ((Act.formAll dies).run u).dispatchers.get {} k =
      if k ∈ dies then (u.dispatchers.get {} k).formed else u.dispatchers.get {} k := by
  induction dies with
  | nil => exact fun u _ => (if_neg List.not_mem_nil).symm
  | cons d rest ih =>
    intro u hnodup
    obtain ⟨hd, hrest⟩ := List.nodup_cons.mp hnodup
    rw [Act.formAll, Act.run_each_cons, ← Act.formAll, ih _ hrest, Act.run_onDispatcher,
      State.apply_dispatcher, Store.get_put]
    by_cases hk : k = d
    · subst hk
      rw [if_neg hd, if_pos rfl, if_pos List.mem_cons_self]
    · simp [hk]

theorem Act.formAll_frame (dies : List Nat) : ∀ u : State,
    (Act.formAll dies).run u = { u with dispatchers := ((Act.formAll dies).run u).dispatchers } := by
  induction dies with
  | nil => exact fun _ => rfl
  | cons d rest ih =>
    intro u
    rw [Act.formAll, Act.run_each_cons, ← Act.formAll]
    exact ih _

theorem State.partDies_nodup (s : State) (p : Nat) : (s.partDies p).Nodup := List.nodup_range.filter _

variable (hd : isC d = true)
include hd

theorem exec_partcfgWrite : exec (.partcfgWrite d v) s = (Act.partcfgWrite d v).next s := by
  show execPartcfgWrite d v s = _
  rw [execPartcfgWrite, hd]
  rfl

theorem partcfgWrite_written (hused : s.dieUsed d = false) : Happens s (.partcfgWrite d v) fun t =>
    t = { s with regs := t.regs, dispatchers := t.dispatchers } ∧
    (v.toNat % 32 = s.regField d .partcfg 4 0 → t.dispatchers = s.dispatchers) ∧
    (v.toNat % 32 ≠ s.regField d .partcfg 4 0 → ∀ k, t.dispatchers.get {} k =
      if k ∈ t.partDies (v.toNat % 32) then (s.dispatchers.get {} k).formed else s.dispatchers.get {} k) ∧
    t.regField d .partcfg 4 0 = v.toNat % 32 ∧ t.regField d .partcfg 9 8 = v.toNat / 256 % 4 ∧
    t.regField d .partcfg 47 32 = s.regField d .partcfg 47 32 := by
  refine .of_next _ (exec_partcfgWrite v hd) ?_
  let u := s.apply (.reg d .partcfg (partcfgWord v (s.reg d .partcfg)))
  have hfield : ∀ {hi lo : Nat}, (0x0000_FFFF_0000_031F : DWord).extractLsb' lo (hi + 1 - lo) = BitVec.allOnes _ →
      u.regField d .partcfg hi lo = fieldOf (partcfgWord v (s.reg d .partcfg)) hi lo := fun hm =>
    s.regField_apply (regAt_partcfg hd) _ (partcfg_stored ▸ hm)
  have hpart : u.regField d .partcfg 4 0 = v.toNat % 32 := by
    rw [hfield (by decide), partcfgWord_written v _ (by decide) (by decide), fieldOf_eq, pow_zero, Nat.div_one]
    rfl
  have hlead : u.regField d .partcfg 9 8 = v.toNat / 256 % 4 := by
    rw [hfield (by decide), partcfgWord_written v _ (by decide) (by decide), fieldOf_eq]
    rfl
  have hcount : u.regField d .partcfg 47 32 = s.regField d .partcfg 47 32 := by
    rw [hfield (by decide), partcfgWord_count, State.regField_eq]
  have hrun : (Act.partcfgWrite d v).run s = (Act.when (v.toNat % 32 != s.regField d .partcfg 4 0)
      (.read fun s => .formAll (s.partDies (v.toNat % 32)))).run u := by
    rw [Act.partcfgWrite, Act.run_read, hused]
    rfl
  rw [hrun, Act.run_when]
  by_cases hsame : v.toNat % 32 = s.regField d .partcfg 4 0
  · rw [if_neg (by rw [bne_iff_ne]; exact not_not.mpr hsame)]
    exact ⟨rfl, fun _ => rfl, fun hne => absurd hsame hne, hpart, hlead, hcount⟩
  · rw [if_pos (bne_iff_ne.mpr hsame), Act.run_read]
    have hframe := Act.formAll_frame (u.partDies (v.toNat % 32)) u
    have hforms := fun k => Act.formAll_dispatchers k _ u (u.partDies_nodup (v.toNat % 32))
    generalize (Act.formAll (u.partDies (v.toNat % 32))).run u = t at hframe hforms
    have hregs : t.regs = u.regs := by rw [hframe]
    have hdies : t.partDies = u.partDies := by
      funext p
      simp only [State.partDies, State.partOf, State.regField_of_regs hregs]
    simp only [State.regField_of_regs hregs, hdies]
    exact ⟨by rw [hframe]; rfl, fun heq => absurd heq hsame, fun _ => hforms, hpart, hlead, hcount⟩

theorem partcfgWrite_refused (hused : s.dieUsed d = true) : Happens s (.partcfgWrite d v) fun t => OnlyRegs s t ∧
    t.regField d .partcfg 4 0 = s.regField d .partcfg 4 0 ∧ t.regField d .partcfg 9 8 = s.regField d .partcfg 9 8 ∧
    t.regField d .partcfg 47 32 = min 0xFFFF (s.regField d .partcfg 47 32 + 1) := by
  refine .of_next _ (exec_partcfgWrite v hd) ?_
  have hrun : (Act.partcfgWrite d v).run s = (Act.countReg d .partcfg 47 32).run s := by
    rw [Act.partcfgWrite, Act.run_read, hused]
    rfl
  have hr := regAt_partcfg hd
  rw [hrun]
  exact ⟨rfl, s.regField_countReg_other hr (by omega) (by omega) (by omega) (by omega) (by decide),
    s.regField_countReg_other hr (by omega) (by omega) (by omega) (by omega) (by decide),
    s.regField_countReg_same hr (by omega) (by omega) (by decide)⟩

end

/-! ### XPART -/

/-- An enabled range that v would meet. -/
def State.xpartClash (s : State) (x p : Nat) (v : DWord) : Prop :=
  v.getLsbD 63 = true ∧ ∃ q, q < 24 ∧ q ≠ p ∧ s.regField x (.xpart q) 63 63 = 1 ∧
    (rangesClash (lpRange v.toNat) (lpRange (s.reg x (.xpart q)).toNat) = true ∨
      rangesClash (flRange v.toNat) (flRange (s.reg x (.xpart q)).toNat) = true)

section
variable {s : State} {x p : Nat} {v : DWord} (hx : isX x = true) (hp : p < 24)
include hx hp

theorem exec_xpartWrite : exec (.xpartWrite x p v) s = (Act.xpartWrite x p v).next s := by
  show execXpartWrite x p v s = _
  rw [execXpartWrite, hx, decide_eq_true hp]
  rfl

omit hx hp in
theorem Act.run_xpartWrite : ∃ c : Bool, (c = true ↔ s.xpartClash x p v) ∧ (Act.xpartWrite x p v).run s =
    if c then (Act.countReg x .xpartst 15 0).run s else s.apply (.reg x (.xpart p) v) := by
  have henabled : ∀ q, s.regField x (.xpart q) 63 63 = 1 ↔
      (s.reg x (.xpart q)).toNat.testBit 63 = true := fun q => by
    rw [regField_bit, BitVec.getLsbD]
    split <;> simp [*]
  rw [Act.xpartWrite, Act.run_read]
  dsimp only
  generalize hc : (v.getLsbD 63 && (List.range 24).any _) = c
  refine ⟨c, ?_, by cases c <;> rfl⟩
  rw [← hc, State.xpartClash, Bool.and_eq_true, List.any_eq_true]
  refine and_congr_right fun _ => exists_congr fun q => ?_
  rw [henabled, List.mem_range, Bool.and_eq_true, Bool.and_eq_true, bne_iff_ne, Bool.or_eq_true, and_assoc]

theorem xpartWrite_written (hfree : ¬ s.xpartClash x p v) : Happens s (.xpartWrite x p v) fun t => OnlyRegs s t ∧
    t.reg x (.xpart p) = v &&& (RegName.xpart p).stored := by
  obtain ⟨c, hc, hrun⟩ := Act.run_xpartWrite (s := s) (x := x) (p := p) (v := v)
  refine .of_next _ (exec_xpartWrite hx hp) ?_
  rw [hrun, if_neg (mt hc.mp hfree)]
  exact ⟨rfl, s.reg_apply_same v (regAt_xpart hx hp)⟩

theorem xpartWrite_refused (hclash : s.xpartClash x p v) : Happens s (.xpartWrite x p v) fun t => OnlyRegs s t ∧
    t.reg x (.xpart p) = s.reg x (.xpart p) ∧
    t.regField x .xpartst 15 0 = min 0xFFFF (s.regField x .xpartst 15 0 + 1) := by
  obtain ⟨c, hc, hrun⟩ := Act.run_xpartWrite (s := s) (x := x) (p := p) (v := v)
  have hoff : (RegName.xpart p).off ≠ RegName.xpartst.off := by
    show 0x2180 + 8 * p ≠ 0x2100
    omega
  refine .of_next _ (exec_xpartWrite hx hp) ?_
  rw [hrun, if_pos (hc.mpr hclash)]
  exact ⟨rfl, s.reg_apply_ne _ fun _ => hoff,
    s.regField_countReg_same (regAt_xpartst hx) (by omega) (by omega) (by decide)⟩

end

/-! ### VDASID and DMAP -/

section
variable {s : State} {d : Nat} (v : DWord) (hd : isC d = true)
include hd

section
variable {vd : Nat} (hvd : vd < 1024)
include hvd

theorem exec_vdasidWrite : exec (.vdasidWrite d vd v) s = (Act.vdasidWrite d vd v).next s := by
  show execVdasidWrite d vd v s = _
  rw [execVdasidWrite, hd, decide_eq_true hvd]
  rfl

theorem vdasidWrite_written (hfree : s.asidBusy d vd = false) : Happens s (.vdasidWrite d vd v) fun t =>
    OnlyRegs s t ∧ t.reg d (.vdasid vd) = v &&& (RegName.vdasid vd).stored := by
  refine .of_next _ (exec_vdasidWrite v hd hvd) ?_
  rw [Act.vdasidWrite, Act.run_read, hfree]
  exact ⟨rfl, s.reg_apply_same v (regAt_vdasid hd hvd)⟩

theorem vdasidWrite_refused (hbusy : s.asidBusy d vd = true) : Happens s (.vdasidWrite d vd v) fun t => t = s := by
  refine .of_next _ (exec_vdasidWrite v hd hvd) ?_
  rw [Act.vdasidWrite, Act.run_read, hbusy]
  rfl

end

section
variable {i : Nat} (hi : i < 26)
include hi

theorem exec_dmapWrite : exec (.dmapWrite d i v) s = (Act.dmapWrite d i v).next s := by
  show execDmapWrite d i v s = _
  rw [execDmapWrite, hd, decide_eq_true hi]
  rfl

theorem dmapWrite_written (hfree : ¬ (i < 24 ∧ v.extractLsb' 0 5 ≠ (s.reg d (.dmap i)).extractLsb' 0 5) ∨
      s.physFree d = true) : Happens s (.dmapWrite d i v) fun t =>
    OnlyRegs s t ∧ t.reg d (.dmap i) = v &&& (RegName.dmap i).stored := by
  have hkeep : (decide (i < 24) && v.extractLsb' 0 5 != (s.reg d (.dmap i)).extractLsb' 0 5 &&
      !s.physFree d) = false := by
    rw [Bool.and_eq_false_iff, ← Bool.not_eq_true, Bool.and_eq_true, decide_eq_true_eq, bne_iff_ne,
      Bool.not_eq_false']
    exact hfree
  refine .of_next _ (exec_dmapWrite v hd hi) ?_
  rw [Act.dmapWrite, Act.run_read]
  dsimp only
  rw [hkeep]
  exact ⟨rfl, s.reg_apply_same v (regAt_dmap hd hi)⟩

theorem dmapWrite_kept (hmoves : i < 24 ∧ v.extractLsb' 0 5 ≠ (s.reg d (.dmap i)).extractLsb' 0 5)
    (hheld : s.physFree d = false) : Happens s (.dmapWrite d i v) fun t => OnlyRegs s t ∧
    (t.reg d (.dmap i)).extractLsb' 0 5 = (s.reg d (.dmap i)).extractLsb' 0 5 ∧
    (t.reg d (.dmap i)).extractLsb' 17 7 = v.extractLsb' 17 7 ∧
    t.regField d .partcfg 47 32 = min 0xFFFF (s.regField d .partcfg 47 32 + 1) := by
  obtain ⟨hlt, hne⟩ := hmoves
  have hstored : (RegName.dmap i).stored = 0x0000_0000_00FE_001F := by
    rw [RegName.stored, if_pos hlt]
    decide
  have hoff : RegName.partcfg.off ≠ (RegName.dmap i).off := by
    show 0x0480 ≠ 0x0900 + 8 * i
    omega
  have hkeep : (decide (i < 24) && v.extractLsb' 0 5 != (s.reg d (.dmap i)).extractLsb' 0 5 &&
      !s.physFree d) = true := by
    rw [decide_eq_true hlt, bne_iff_ne.mpr hne, hheld]
    rfl
  let old := ((s.reg d (.dmap i)).extractLsb' 0 5).toNat
  let u := s.apply (.reg d (.dmap i) (withField v 4 0 old))
  have hreg : ((Act.countReg d .partcfg 47 32).run u).reg d (.dmap i) =
      withField v 4 0 old &&& 0x0000_0000_00FE_001F := by
    rw [Act.countReg, Act.run_onReg, u.reg_apply_ne _ fun _ => hoff.symm, s.reg_apply_same _ (regAt_dmap hd hi),
      hstored]
  have hcount : u.regField d .partcfg 47 32 = s.regField d .partcfg 47 32 :=
    State.regField_congr (s.reg_apply_ne _ fun _ => hoff) 47 32
  refine .of_next _ (exec_dmapWrite v hd hi) ?_
  rw [Act.dmapWrite, Act.run_read]
  dsimp only
  rw [hkeep, Act.run_seq]
  refine ⟨rfl, BitVec.eq_of_toNat_eq ?_, BitVec.eq_of_toNat_eq ?_, ?_⟩
  · show fieldOf (((Act.countReg d .partcfg 47 32).run u).reg d (.dmap i)) 4 0 = old
    rw [hreg, fieldOf_and _ _ (by decide), fieldOf_withField_same _ _ (by omega) (by omega)]
    exact Nat.mod_eq_of_lt ((s.reg d (.dmap i)).extractLsb' 0 5).isLt
  · show fieldOf (((Act.countReg d .partcfg 47 32).run u).reg d (.dmap i)) 23 17 = fieldOf v 23 17
    rw [hreg, fieldOf_and _ _ (by decide), fieldOf_withField_other _ _ (by omega) (by omega) (by omega) (by omega)]
  · show ((Act.countReg d .partcfg 47 32).run u).regField d .partcfg 47 32 = _
    rw [u.regField_countReg_same (regAt_partcfg hd) (by omega) (by omega) (by decide), hcount]
    rfl

end

end

end Sys2Proof.Machine
end

section
/-!
FTLGC and its windows (R82), and VDCFG (R97).
-/
namespace Sys2Proof.Machine

/-! ### FTLGC -/

section
variable {s : State} {x : Nat}

/-- The interrupt of HELD at the harts of an X-die. -/
def Act.heldIrq (x : Nat) (on : Bool) : Act :=
  .each (List.range Config.systemHarts) fun n => .onHart x n fun h => { h with xpirq := if on then 1 else 0 }

theorem Act.run_setHeld (x : Nat) (on : Bool) (s : State) : (Act.setHeld x on).run s = (Act.heldIrq x on).run
    ((Act.onReg x .ftlgc fun o => withField o 8 8 (if on then 1 else 0)).run s) := rfl

/-- Every hart of a list has the interrupt as given, and one that had it so keeps it. -/
theorem Act.xpirq_each (x n : Nat) (irq : BitVec 2) (ns : List Nat) : ∀ s : State,
    n ∈ ns ∨ (s.hart x n).xpirq = irq →
      (((Act.each ns fun k => .onHart x k fun h => { h with xpirq := irq }).run s).hart x n).xpirq = irq := by
  induction ns with
  | nil => exact fun s h => h.resolve_left List.not_mem_nil
  | cons k r ih =>
    intro s h
    rw [Act.run_each_cons]
    refine ih _ ?_
    rw [Act.run_onHart]
    by_cases hk : n = k
    · subst hk
      exact .inr (by rw [State.hart_apply_same]; rfl)
    · refine h.imp (fun hm => (List.mem_cons.mp hm).resolve_left hk) fun hx => ?_
      rw [State.hart_apply_ne _ _ fun e => hk (Prod.mk.inj e).2]
      exact hx

theorem Act.heldIrq_xpirq (on : Bool) (s : State) {n : Nat} (hn : n < Config.systemHarts) :
    (((Act.heldIrq x on).run s).hart x n).xpirq = if on then 1 else 0 :=
  Act.xpirq_each x n _ _ s (.inl (List.mem_range.mpr hn))

theorem Act.heldIrq_frame (on : Bool) (s : State) :
    (Act.heldIrq x on).run s = { s with harts := ((Act.heldIrq x on).run s).harts } := Act.each_onHart_frame _ _ _ s

theorem Act.heldIrq_regs (on : Bool) (s : State) : ((Act.heldIrq x on).run s).regs = s.regs :=
  Act.each_onHart_regs _ _ _ s

/-- HELD set or cleared: the bit, the interrupt of every hart, and nothing else. -/
structure HeldIs (s : State) (x : Nat) (on : Bool) (t : State) : Prop where
  frame : t = { s with regs := t.regs, harts := t.harts }
  irq : ∀ n, n < Config.systemHarts → (t.hart x n).xpirq = if on then 1 else 0

theorem HeldIs.of_onlyRegs {s u t : State} {x : Nat} {on : Bool} (hu : OnlyRegs s u) (h : HeldIs u x on t) :
    HeldIs s x on t where
  frame := h.frame.trans (congrArg (fun v : State => { v with regs := t.regs, harts := t.harts }) hu)
  irq := h.irq

theorem Act.setHeld_heldIs (on : Bool) (s : State) : HeldIs s x on ((Act.setHeld x on).run s) where
  frame := by rw [Act.run_setHeld, Act.heldIrq_frame]; rfl
  irq _ hn := by rw [Act.run_setHeld]; exact Act.heldIrq_xpirq on _ hn

variable (hx : isX x = true)
include hx

theorem Act.setHeld_bit (on : Bool) (s : State) :
    ((Act.setHeld x on).run s).regField x .ftlgc 8 8 = if on then 1 else 0 := by
  rw [Act.run_setHeld, State.regField_congr (State.reg_of_regs (Act.heldIrq_regs on _) _ _),
    s.regField_withField_same (regAt_ftlgc hx) _ (by omega) (by omega) (by decide)]
  cases on <;> rfl

theorem Act.setHeld_other (on : Bool) (s : State) {hi lo : Nat} (h : hi < 8 ∨ 8 < lo) (hl : lo ≤ hi) (hh : hi < 64)
    (hm : RegName.ftlgc.stored.extractLsb' lo (hi + 1 - lo) = BitVec.allOnes _) :
    ((Act.setHeld x on).run s).regField x .ftlgc hi lo = s.regField x .ftlgc hi lo := by
  rw [Act.run_setHeld, State.regField_congr (State.reg_of_regs (Act.heldIrq_regs on _) _ _),
    s.regField_withField_other (regAt_ftlgc hx) _ h (by omega) hl hh hm]

theorem ftlgcHeldClear_happens : Happens s (.ftlgcHeldClear x) fun t => HeldIs s x false t ∧
    t.regField x .ftlgc 8 8 = 0 ∧ t.regField x .ftlgc 6 0 = s.regField x .ftlgc 6 0 := by
  have hexec : exec (.ftlgcHeldClear x) s = (Act.setHeld x false).next s := by
    show execFtlgcHeldClear x s = _
    rw [execFtlgcHeldClear, hx]
    rfl
  exact .of_next _ hexec ⟨Act.setHeld_heldIs false s, Act.setHeld_bit hx false s,
    Act.setHeld_other hx false s (by omega) (by omega) (by omega) (by decide)⟩

theorem ftlgcWrite_happens (v : DWord) : Happens s (.ftlgcWrite x v) fun t =>
    (if v.getLsbD 8 then HeldIs s x false t else OnlyRegs s t) ∧ t.regField x .ftlgc 6 0 = min 50 (v.toNat % 128) ∧
    t.regField x .ftlgc 8 8 = (if v.getLsbD 8 then 0 else s.regField x .ftlgc 8 8) ∧
    t.regField x .ftlgc 63 32 = s.regField x .ftlgc 63 32 := by
  have hexec : exec (.ftlgcWrite x v) s = (Act.ftlgcWrite x v).next s := by
    show execFtlgcWrite x v s = _
    rw [execFtlgcWrite, hx]
    rfl
  have hr := regAt_ftlgc hx
  have hlow : (v.extractLsb' 0 7).toNat = v.toNat % 128 :=
    (fieldOf_eq v 6 0).trans (by rw [pow_zero, Nat.div_one]; rfl)
  obtain ⟨u, hu⟩ : ∃ u, (Act.onReg x .ftlgc fun o => withField o 6 0 (min 50 (v.toNat % 128))).run s = u :=
    ⟨_, rfl⟩
  have hframe : OnlyRegs s u := by rw [← hu]; rfl
  have hcap : u.regField x .ftlgc 6 0 = min 50 (v.toNat % 128) := by
    rw [← hu, s.regField_withField_same hr _ (by omega) (by omega) (by decide)]
    exact Nat.mod_eq_of_lt (show min 50 _ < 128 by omega)
  have hheld : u.regField x .ftlgc 8 8 = s.regField x .ftlgc 8 8 := by
    rw [← hu, s.regField_withField_other hr _ (by omega) (by omega) (by omega) (by omega) (by decide)]
  have hcount : u.regField x .ftlgc 63 32 = s.regField x .ftlgc 63 32 := by
    rw [← hu, s.regField_withField_other hr _ (by omega) (by omega) (by omega) (by omega) (by decide)]
  refine .of_next _ hexec ?_
  rw [Act.ftlgcWrite, Act.run_seq, hlow, hu]
  cases v.getLsbD 8
  · exact ⟨hframe, hcap, hheld, hcount⟩
  · exact ⟨.of_onlyRegs hframe (Act.setHeld_heldIs false u),
      (Act.setHeld_other hx false u (by omega) (by omega) (by omega) (by decide)).trans hcap,
      Act.setHeld_bit hx false u,
      (Act.setHeld_other hx false u (by omega) (by omega) (by omega) (by decide)).trans hcount⟩

end

/-! #### A collection window -/

section
variable {s : State} {x traffic : Nat} {wanted free : Bool} (hx : isX x = true)
include hx

omit hx in
/-- What every window records: USED, and whether stores wait. -/
def Act.gcWindow (x used : Nat) (stall : Bool) : Act :=
  (Act.onReg x .ftlgc fun o => withField o 23 16 used).seq (.onXDie x fun v => { v with flashStall := stall })

omit hx in
/-- What one that is held back does beyond that. -/
def Act.gcHeld (x : Nat) : Act :=
  .block [.setHeld x true, .countReg x .ftlgc 63 32, .emit (.out (.abuabyIrq x 0))]

theorem exec_ftlGcWindow : exec (.ftlGcWindow x traffic wanted free) s =
    Act.next ((Act.gcWindow x (min (s.regField x .ftlgc 6 0) traffic)
        (wanted && decide (s.regField x .ftlgc 6 0 ≤ traffic) && !free)).seq
      (.when (wanted && decide (s.regField x .ftlgc 6 0 ≤ traffic)) (.gcHeld x))) s := by
  show execFtlGcWindow x traffic wanted free s = _
  rw [execFtlGcWindow, hx]
  rfl

/-- The window recorded in u. -/
structure WindowIn (s : State) (x used : Nat) (stall : Bool) (u : State) : Prop where
  frame : u = { s with regs := u.regs, xdies := u.xdies }
  used : u.regField x .ftlgc 23 16 = used
  cap : u.regField x .ftlgc 6 0 = s.regField x .ftlgc 6 0
  held : u.regField x .ftlgc 8 8 = s.regField x .ftlgc 8 8
  stall : (u.xdie x).flashStall = stall

theorem Act.gcWindow_records {used : Nat} (hused : used < 256) (stall : Bool) :
    WindowIn s x used stall ((Act.gcWindow x used stall).run s) := by
  have hr := regAt_ftlgc hx
  have hfield : ∀ hi lo, ((Act.gcWindow x used stall).run s).regField x .ftlgc hi lo =
      ((Act.onReg x .ftlgc fun o => withField o 23 16 used).run s).regField x .ftlgc hi lo := fun _ _ => rfl
  refine ⟨rfl, ?_, ?_, ?_, ?_⟩
  · rw [hfield, s.regField_withField_same hr _ (by omega) (by omega) (by decide)]
    exact Nat.mod_eq_of_lt hused
  · rw [hfield, s.regField_withField_other hr _ (by omega) (by omega) (by omega) (by omega) (by decide)]
  · rw [hfield, s.regField_withField_other hr _ (by omega) (by omega) (by omega) (by omega) (by decide)]
  · rw [Act.gcWindow, Act.run_seq, State.xdie_onXDie]

/-- The collection held back: what is recorded stays, HELD is set, counted and signalled. -/
theorem Act.gcHeld_signals (u : State) :
    let t := (Act.gcHeld x).run u
    (∀ hi lo, (hi = 23 ∧ lo = 16) ∨ (hi = 6 ∧ lo = 0) →
      t.regField x .ftlgc hi lo = u.regField x .ftlgc hi lo) ∧
    t.xdie x = u.xdie x ∧ t.regField x .ftlgc 8 8 = 1 ∧ t.outbox = u.outbox ++ [.abuabyIrq x 0] ∧
    ∀ n, n < Config.systemHarts → (t.hart x n).xpirq = 1 := by
  have hr := regAt_ftlgc hx
  obtain ⟨hframe, hirq⟩ := Act.setHeld_heldIs (x := x) true u
  have hbit := Act.setHeld_bit hx true u
  have hother := fun {hi lo : Nat} => Act.setHeld_other hx true u (hi := hi) (lo := lo)
  obtain ⟨w, hw⟩ : ∃ w, (Act.setHeld x true).run u = w := ⟨_, rfl⟩
  have hrun : (Act.gcHeld x).run u = ((Act.countReg x .ftlgc 63 32).run w).apply (.out (.abuabyIrq x 0)) := by
    rw [← hw]
    rfl
  rw [hw] at hframe hirq hbit hother
  have hcount : ∀ {hi lo : Nat}, hi < 32 → lo ≤ hi →
      RegName.ftlgc.stored.extractLsb' lo (hi + 1 - lo) = BitVec.allOnes _ →
      ((Act.gcHeld x).run u).regField x .ftlgc hi lo = w.regField x .ftlgc hi lo := fun hhi hl hm => by
    rw [hrun]
    exact w.regField_countReg_other hr (by omega) (by omega) hl (by omega) hm
  have hxdies : w.xdies = u.xdies := by rw [hframe]
  have hout : w.outbox = u.outbox := by rw [hframe]
  refine ⟨fun hi lo h => ?_, ?_, ?_, ?_, fun n hn => ?_⟩
  · rcases h with ⟨rfl, rfl⟩ | ⟨rfl, rfl⟩
    · exact (hcount (by omega) (by omega) (by decide)).trans (hother (by omega) (by omega) (by omega) (by decide))
    · exact (hcount (by omega) (by omega) (by decide)).trans (hother (by omega) (by omega) (by omega) (by decide))
  · rw [hrun]
    exact State.xdie_of_xdies hxdies x
  · exact (hcount (by omega) (by omega) (by decide)).trans hbit
  · rw [hrun, State.apply_out]
    exact congrArg (· ++ _) hout
  · rw [hrun]
    exact hirq n hn

theorem ftlGcWindow_happens :
    let cap := s.regField x .ftlgc 6 0
    let held := wanted = true ∧ cap ≤ traffic
    Happens s (.ftlGcWindow x traffic wanted free) fun t => t.regField x .ftlgc 23 16 = min cap traffic ∧
      t.regField x .ftlgc 6 0 = cap ∧ ((t.xdie x).flashStall = true ↔ held ∧ free = false) ∧
      (held → t.regField x .ftlgc 8 8 = 1 ∧ t.outbox = s.outbox ++ [.abuabyIrq x 0] ∧
        ∀ n, n < Config.systemHarts → (t.hart x n).xpirq = 1) ∧
      (¬ held → t.regField x .ftlgc 8 8 = s.regField x .ftlgc 8 8 ∧
        t = { s with regs := t.regs, xdies := t.xdies }) := by
  intro cap held
  have hcap : min cap traffic < 256 :=
    lt_of_le_of_lt (Nat.min_le_left _ _) (lt_trans (s.regField_lt x .ftlgc 6 0) (by norm_num))
  have hstall : (wanted && decide (cap ≤ traffic) && !free) = true ↔ held ∧ free = false := by
    rw [Bool.and_eq_true, Bool.and_eq_true, decide_eq_true_eq, Bool.not_eq_true']
  obtain ⟨hframe, hused, hkept, hbit, hflash⟩ :=
    Act.gcWindow_records (s := s) hx hcap (wanted && decide (cap ≤ traffic) && !free)
  refine .of_next _ (exec_ftlGcWindow hx) ?_
  rw [Act.run_seq, Act.run_when]
  generalize (Act.gcWindow x (min cap traffic) (wanted && decide (cap ≤ traffic) && !free)).run s = u at *
  by_cases hheld : held
  · obtain ⟨hfields, hxdie, hset, hout, hirq⟩ := Act.gcHeld_signals hx u
    have houtbox : u.outbox = s.outbox := by rw [hframe]
    rw [if_pos (by rw [Bool.and_eq_true, decide_eq_true_eq]; exact hheld)]
    refine ⟨(hfields _ _ (.inl ⟨rfl, rfl⟩)).trans hused, (hfields _ _ (.inr ⟨rfl, rfl⟩)).trans hkept, ?_,
      fun _ => ⟨hset, hout.trans (by rw [houtbox]), hirq⟩, fun hnot => absurd hheld hnot⟩
    rw [hxdie, hflash, hstall]
  · rw [if_neg (by rw [Bool.and_eq_true, decide_eq_true_eq]; exact hheld)]
    exact ⟨hused, hkept, by rw [hflash, hstall], fun h => absurd h hheld, fun _ => ⟨hbit, hframe⟩⟩

end

/-! ### VDCFG -/

/-- Selection, start and the end of launches leave the registers alone. -/
theorem State.regs_carries (regs : Store (Nat × Nat) DWord) : Carries (fun _ => True) fun t => t.regs = regs where
  plain s _ he h := (s.regs_apply_offVf he).trans h
  host a p asid va l pa bytes := (Act.hostWrite_ofHost a p asid va l pa bytes).keepsOf fun s e he h => by
    cases e
    case nextId | reqs | xdie | out => exact h
    all_goals cases he
  gentle n f s _ h := by
    rw [Act.onLaunch, Act.run_read]
    split <;> exact h
  start n f _ _ s h := by
    rw [Act.onLaunch, Act.run_read]
    split <;> exact h
  chosen _ _ _ _ _ _ := trivial

section
variable {s : State} {d vd : Nat} {v : DWord} (hd : isC d = true) (hvd : vd < 1024)
include hd hvd

theorem exec_vdcfgWrite : exec (.vdcfgWrite d vd v) s = (Act.vdcfgWrite d vd v).next s := by
  show execVdcfgWrite d vd v s = _
  rw [execVdcfgWrite, hd, decide_eq_true hvd]
  rfl

omit hd hvd in
/-- VDST stores ERR. -/
theorem vdst_stores_err (a : Nat) : (RegName.vdst a).stored.extractLsb' 0 4 = BitVec.allOnes 4 := by
  show (bitsMask 15 8 ||| bitsMask 3 0 : DWord).extractLsb' 0 4 = _
  decide

omit hd hvd in
/-- VDCFG stores EN. -/
theorem vdcfg_stores_en (a : Nat) : (RegName.vdcfg a).stored.extractLsb' 0 1 = BitVec.allOnes 1 := by
  show (bitsMask 47 24 ||| bitsMask 20 16 ||| bitsMask 0 0 : DWord).extractLsb' 0 1 = _
  decide

omit hd hvd in
theorem vdcfg_off_ne_vdst (a b : Nat) : (RegName.vdcfg a).off ≠ (RegName.vdst b).off := by
  show 0x4000 + 16 * a ≠ 0x4008 + 16 * b
  omega

omit hd hvd in
/-- VDST.ERR. -/
def Act.vdErr (d vd k : Nat) : Act := .onReg d (.vdst vd) fun w => withField w 3 0 k

theorem Act.vdErr_shows (u : State) {k : Nat} (hk : k < 16) :
    ((Act.vdErr d vd k).run u).regField d (.vdst vd) 3 0 = k ∧
    ((Act.vdErr d vd k).run u).reg d (.vdcfg vd) = u.reg d (.vdcfg vd) := by
  refine ⟨?_, ?_⟩
  · rw [Act.vdErr, u.regField_withField_same (regAt_vdst hd hvd) _ (by omega) (by omega) (vdst_stores_err vd)]
    exact Nat.mod_eq_of_lt hk
  · rw [Act.vdErr, Act.run_onReg]
    exact u.reg_apply_ne _ fun _ => vdcfg_off_ne_vdst vd vd

omit hd hvd in
/-- A rejected write switches the VD off and names the error (R97). -/
def Act.vdOff (d vd k : Nat) : Act := (Act.onReg d (.vdcfg vd) fun w => withField w 0 0 0).seq (.vdErr d vd k)

theorem Act.vdOff_shows {k : Nat} (hk : k < 16) : OnlyRegs s ((Act.vdOff d vd k).run s) ∧
    ((Act.vdOff d vd k).run s).regField d (.vdst vd) 3 0 = k ∧
    ((Act.vdOff d vd k).run s).regField d (.vdcfg vd) 0 0 = 0 := by
  obtain ⟨herr, hkept⟩ := Act.vdErr_shows hd hvd ((Act.onReg d (.vdcfg vd) fun w => withField w 0 0 0).run s) hk
  refine ⟨rfl, herr, ?_⟩
  rw [Act.vdOff, Act.run_seq, State.regField_congr hkept,
    s.regField_withField_same (regAt_vdcfg hd hvd) _ (by omega) (by omega) (vdcfg_stores_en vd)]
  rfl

omit hd hvd in
/-- The write with its checks, in the order of R97. -/
theorem Act.run_vdcfgWrite : (Act.vdcfgWrite d vd v).run s =
    if v.getLsbD 0 = true ∧ v.extractLsb' 32 16 = 0 then (Act.vdOff d vd 1).run s
    else if 24 ≤ (v.extractLsb' 16 5).toNat ∨
        (v.getLsbD 0 = true ∧ s.partDies (v.extractLsb' 16 5).toNat = []) then (Act.vdOff d vd 2).run s
    else if (v.extractLsb' 16 5).toNat ≠ ((s.reg d (.vdcfg vd)).extractLsb' 16 5).toNat ∧
        s.pendingOf ((s.partOf d).getD 31) vd ≠ 0 then (Act.vdErr d vd 3).run s
    else (Act.select ((s.partOf d).getD 31)).run
      ((Act.when (v.getLsbD 0 && !(s.reg d (.vdcfg vd)).getLsbD 0)
        (.each (s.partDies (v.extractLsb' 16 5).toNat) fun d =>
          .onDispatcher d fun x => { x with deficit := x.deficit.filter fun e => e.1.2 != vd })).run
        ((Act.vdErr d vd 0).run (s.apply (.reg d (.vdcfg vd) v)))) := by
  have hquantum : (v.getLsbD 0 && (v.extractLsb' 32 16).toNat == 0) = true ↔
      v.getLsbD 0 = true ∧ v.extractLsb' 32 16 = 0 := by
    rw [Bool.and_eq_true, beq_iff_eq]
    exact and_congr_right fun _ => ⟨fun h => BitVec.eq_of_toNat_eq h, fun h => congrArg BitVec.toNat h⟩
  rw [Act.vdcfgWrite, Act.run_read]
  dsimp only
  simp only [hquantum, Bool.and_eq_true, bne_iff_ne]
  repeat' split
  all_goals rfl

/-- What a write that is rejected with an error leaves (R97). -/
def VdRejects (s : State) (d vd e : Nat) (t : State) : Prop := OnlyRegs s t ∧ t.regField d (.vdst vd) 3 0 = e ∧
  t.regField d (.vdcfg vd) 0 0 = (if e = 3 then s.regField d (.vdcfg vd) 0 0 else 0)

theorem vdcfgWrite_noQuantum (hen : v.getLsbD 0 = true) (hq : v.extractLsb' 32 16 = 0) :
    Happens s (.vdcfgWrite d vd v) (VdRejects s d vd 1) := by
  refine .of_next _ (exec_vdcfgWrite hd hvd) ?_
  rw [Act.run_vdcfgWrite, if_pos ⟨hen, hq⟩]
  exact Act.vdOff_shows hd hvd (by omega)

variable (hq : v.getLsbD 0 = false ∨ v.extractLsb' 32 16 ≠ 0)
include hq

omit hd hvd in
theorem quantum_given : ¬ (v.getLsbD 0 = true ∧ v.extractLsb' 32 16 = 0) := fun h =>
  hq.elim (fun hen => Bool.false_ne_true (hen.symm.trans h.1)) fun hne => hne h.2

theorem vdcfgWrite_noPartition
    (hp : 24 ≤ (v.extractLsb' 16 5).toNat ∨ (v.getLsbD 0 = true ∧ s.partDies (v.extractLsb' 16 5).toNat = [])) :
    Happens s (.vdcfgWrite d vd v) (VdRejects s d vd 2) := by
  refine .of_next _ (exec_vdcfgWrite hd hvd) ?_
  rw [Act.run_vdcfgWrite, if_neg (quantum_given hq), if_pos hp]
  exact Act.vdOff_shows hd hvd (by omega)

variable (hpart : (v.extractLsb' 16 5).toNat < 24)
  (hdies : v.getLsbD 0 = false ∨ s.partDies (v.extractLsb' 16 5).toNat ≠ [])
include hpart hdies

omit hd hvd hq in
theorem partition_given :
    ¬ (24 ≤ (v.extractLsb' 16 5).toNat ∨ (v.getLsbD 0 = true ∧ s.partDies (v.extractLsb' 16 5).toNat = [])) := by
  rintro (h | h)
  · omega
  · exact hdies.elim (fun hen => Bool.false_ne_true (hen.symm.trans h.1)) fun hne => hne h.2

theorem vdcfgWrite_pending (hmoves : (v.extractLsb' 16 5).toNat ≠ ((s.reg d (.vdcfg vd)).extractLsb' 16 5).toNat)
    (hpending : s.pendingOf ((s.partOf d).getD 31) vd ≠ 0) :
    Happens s (.vdcfgWrite d vd v) (VdRejects s d vd 3) := by
  obtain ⟨herr, hkept⟩ := Act.vdErr_shows hd hvd s (k := 3) (by omega)
  refine .of_next _ (exec_vdcfgWrite hd hvd) ?_
  rw [Act.run_vdcfgWrite, if_neg (quantum_given hq), if_neg (partition_given hpart hdies),
    if_pos ⟨hmoves, hpending⟩]
  exact ⟨rfl, herr, (State.regField_congr hkept 0 0).trans (if_pos rfl).symm⟩

theorem vdcfgWrite_written (hfree : (v.extractLsb' 16 5).toNat = ((s.reg d (.vdcfg vd)).extractLsb' 16 5).toNat ∨
      s.pendingOf ((s.partOf d).getD 31) vd = 0) : Happens s (.vdcfgWrite d vd v) fun t =>
    t.reg d (.vdcfg vd) = v &&& (RegName.vdcfg vd).stored ∧ t.regField d (.vdst vd) 3 0 = 0 := by
  have hnot : ¬ ((v.extractLsb' 16 5).toNat ≠ ((s.reg d (.vdcfg vd)).extractLsb' 16 5).toNat ∧
      s.pendingOf ((s.partOf d).getD 31) vd ≠ 0) := fun h => hfree.elim h.1 h.2
  obtain ⟨herr, hkept⟩ := Act.vdErr_shows hd hvd (s.apply (.reg d (.vdcfg vd) v)) (k := 0) (by omega)
  refine .of_next _ (exec_vdcfgWrite hd hvd) ?_
  rw [Act.run_vdcfgWrite, if_neg (quantum_given hq), if_neg (partition_given hpart hdies), if_neg hnot]
  generalize hu : (Act.vdErr d vd 0).run (s.apply (.reg d (.vdcfg vd) v)) = u at *
  have hregs := (State.regs_carries u.regs).select ((s.partOf d).getD 31) _
    (Act.Keeps.when (c := v.getLsbD 0 && !(s.reg d (.vdcfg vd)).getLsbD 0)
      (Act.Keeps.each (l := s.partDies (v.extractLsb' 16 5).toNat) fun k => (State.regs_carries u.regs).only
        (a := .onDispatcher k fun x => { x with deficit := x.deficit.filter fun e => e.1.2 != vd })
        (.read fun _ => .emit rfl)) u rfl)
  refine ⟨?_, ?_⟩
  · rw [State.reg_of_regs hregs, hkept, s.reg_apply_same v (regAt_vdcfg hd hvd)]
  · rw [State.regField_congr (State.reg_of_regs hregs _ _), herr]

end

end Sys2Proof.Machine
end

section
/-!
SUPPORT. What turning requests away at the edge of a partition keeps (R80, R139-R147): it rewrites requests, regions
without moving a cell of theirs, launches without removing one, and tables of links that only shrink.
-/
namespace Sys2Proof.Machine

/-! ### Requests that are left as they stand -/

/-- Same issuer, and as far on its way. -/
def Req.SameStand (q r : Req) : Prop :=
  r.agent = q.agent ∧ r.region = q.region ∧ r.st = q.st ∧ r.back = q.back ∧ r.owed = q.owed

/-- The first request of a number, which is what `State.reqOf` finds. -/
def reqIn (l : List Req) (id : Nat) : Option Req := l.find? fun q => q.id == id

/-- A list of requests put in place of another leaves those as they stand whose numbers are not the others'. -/
def LeavesReqs (others : Nat → Prop) (l l' : List Req) : Prop :=
  ∀ id, ¬ others id → ∀ q, reqIn l id = some q → ∃ r, reqIn l' id = some r ∧ q.SameStand r

theorem Req.SameStand.rfl {q : Req} : q.SameStand q := ⟨Eq.refl _, Eq.refl _, Eq.refl _, Eq.refl _, Eq.refl _⟩

section
variable {others : Nat → Prop} (l : List Req)

theorem LeavesReqs.append (r : Req) : LeavesReqs others l (l ++ [r]) := fun id _ q hq =>
  ⟨q, by rw [reqIn, List.find?_append]; exact Option.or_eq_some_iff.mpr (.inl hq), .rfl⟩

theorem LeavesReqs.map {f : Req → Req} (hid : ∀ r, (f r).id = r.id)
    (hf : ∀ r : Req, ¬ others r.id → r.SameStand (f r)) : LeavesReqs others l (l.map f) := fun id hk q hq => by
  have hmap : reqIn (l.map f) id = (reqIn l id).map f := by
    rw [reqIn, List.find?_map, reqIn]
    exact congrArg (Option.map f) (List.find?_congr fun (r : Req) _ => congrArg (fun k : Nat => k == id) (hid r))
  have hqid : q.id = id := eq_of_beq (List.find?_some (p := fun r : Req => r.id == id) hq)
  exact ⟨f q, by rw [hmap, hq]; rfl, hf q (hqid ▸ hk)⟩

theorem LeavesReqs.one {k : Nat} {f : Req → Req} (hid : ∀ r, (f r).id = r.id) (hk : others k) :
    LeavesReqs others l (l.map fun r => if r.id = k then f r else r) := by
  refine .map l (fun r => ?_) fun r hr => ?_
  · split
    · exact hid r
    · rfl
  · rw [if_neg fun h : r.id = k => hr (h ▸ hk)]
    exact .rfl

theorem LeavesReqs.drop {k : Nat} (hk : others k) : LeavesReqs others l (l.filter fun q => q.id != k) :=
  fun id hid q hq => ⟨q, by
    rw [reqIn, List.find?_filter, ← hq, reqIn]
    refine List.find?_congr fun r _ => ?_
    by_cases hr : r.id = id
    · have hne : id ≠ k := fun h => hid (h ▸ hk)
      simp [hr, hne]
    · simp [hr], .rfl⟩

end

/-! ### A property that turning away keeps -/

/-- The effects by which a fault is recorded and a request answered, beside those on requests, regions, launches and
links. -/
def Effect.ofTurn : Effect → Bool
  | .mem _ _ | .memClear _ _ | .ecc _ | .mtlb _ _ _ | .nextId _ | .xdie _ _ | .out _ | .hart _ _ _ | .cell _ _
  | .node _ _ | .reg _ _ _ => true
  | _ => false

/-- Turning away the requests of some numbers keeps the property. -/
structure KeptByTurns (others : Nat → Prop) (P : State → Prop) : Prop where
  plain : ∀ (s : State) (e : Effect), e.ofTurn = true → P s → P (s.apply e)
  reqs : ∀ (s : State) (l : List Req), LeavesReqs others s.reqs l → P s → P (s.apply (.reqs l))
  region : ∀ (s : State) (h : Word) (r r' : Region), s.regions.get? h = some r →
    (∀ c, r'.place c = r.place c) → P s → P (s.apply (.region h (some r')))
  launch : ∀ (s : State) (n : Nat) (l : Launch), P s → P (s.apply (.launch n (some l)))
  link : ∀ (s : State) (l : LinkId) (v : Link), v.table ⊆ (s.links.get {} l).table → P s →
    P (s.apply (.link l v))

namespace KeptByTurns

section
variable {others : Nat → Prop} {P : State → Prop} (hP : KeptByTurns others P)
include hP

theorem emit {e : Effect} (h : e.ofTurn = true) : (Act.emit e).Keeps P := fun s hs => hP.plain s e h hs

theorem onXDie (x : Nat) (f : XDie → XDie) : (Act.onXDie x f).Keeps P := .read fun _ => hP.emit rfl

theorem onCell (c : CellId) (f : Cell → Cell) : (Act.onCell c f).Keeps P := .read fun _ => hP.emit rfl

theorem onNode (c : CellId) (f : Node → Node) : (Act.onNode c f).Keeps P := .read fun _ => hP.emit rfl

theorem onReq {k : Nat} {f : Req → Req} (hk : others k) (hid : ∀ r, (f r).id = r.id) : (Act.onReq k f).Keeps P :=
  fun s hs => hP.reqs s _ (.one s.reqs hid hk) hs

theorem dropReq {k : Nat} (hk : others k) : (Act.dropReq k).Keeps P := fun s hs => hP.reqs s _ (.drop s.reqs hk) hs

theorem onRegion (h : Word) {f : Region → Region} (hf : ∀ r c, (f r).place c = r.place c) :
    (Act.onRegion h f).Keeps P := fun s hs => by
  rw [Act.onRegion, Act.run_read]
  split
  · exact hP.region s h _ _ ‹_› (hf _) hs
  · exact hs

theorem onLaunch (n : Nat) (f : Launch → Launch) : (Act.onLaunch n f).Keeps P := fun s hs => by
  rw [Act.onLaunch, Act.run_read]
  split
  · exact hP.launch s n _ hs
  · exact hs

theorem untrack (k : Nat) : (Act.untrack k).Keeps P :=
  .read fun _ => .each fun _ s hs => hP.link s _ _ ((List.filter_subset_self _)) hs

/-! Writes, and records of faults -/

theorem hostSend (k y p : Nat) (pasid : BitVec 20) (pa m : Nat) (posted sys : Bool) :
    (Act.hostSend k y p pasid pa m posted sys).Keeps P := .read fun _ => by
  split
  · exact hP.onXDie _ _
  · exact .block_cons (hP.onXDie _ _) <| .block_cons (.each fun _ => hP.emit rfl) <|
      .block_cons (.when (.read fun _ => .when <| .fresh (fun _ => hP.emit rfl) fun _ =>
        .seq (hP.onXDie _ _) (hP.emit rfl))) .block_nil

theorem writes : KeptByWrites P where
  own s e he hs := hP.plain s e (by
    cases e
    case mem | memClear | ecc | mtlb => rfl
    all_goals cases he) hs
  host a p asid va l pa bytes := .fresh (fun _ => hP.emit rfl) fun k s hs => by
    rw [Act.run_read]
    split
    · exact hs
    · exact Act.Keeps.after_head (hP.reqs s _ (.append _ _) hs) <|
        .block_cons (hP.hostSend _ _ _ _ _ _ _ _) <| .block_cons .skip .block_nil

theorem defaultOffer (s : State) (p : Nat) (bytes : List Byte) : (s.defaultOffer p bytes).1.Keeps P := by
  unfold State.defaultOffer
  split
  · exact .skip
  · rename_i lead _
    have hdrop : (Act.countReg lead .pdfqst 31 0).Keeps P := .read fun _ => hP.emit rfl
    have hoffer := s.offer_keeps hP.writes p defaultAsid (s.reg lead .pdfq &&& bitsMask 63 6) bytes
    dsimp only
    split
    · exact hdrop
    · generalize s.offer p defaultAsid (s.reg lead .pdfq &&& bitsMask 63 6) bytes = o at hoffer
      cases o with
      | bad => exact hdrop
      | full a => exact hoffer
      | taken a => exact hoffer

theorem launchOffer (s : State) (p : Nat) (l : Option Launch) (bytes : List Byte) :
    (s.launchOffer p l bytes).1.Keeps P := by
  unfold State.launchOffer
  cases l with
  | none => exact hP.defaultOffer s p bytes
  | some x =>
    have hoffer := s.offer_keeps hP.writes p (s.vdAsid p x.vd) (BitVec.ofNat 64 (recNat x.copy 0x020 8)) bytes
    dsimp only
    split
    · exact hP.defaultOffer s p bytes
    · generalize s.offer p (s.vdAsid p x.vd) (BitVec.ofNat 64 (recNat x.copy 0x020 8)) bytes = o at hoffer
      cases o with
      | bad => exact hP.defaultOffer s p bytes
      | full a => exact .seq hoffer (.read fun u => hP.defaultOffer u p bytes)
      | taken a => exact hoffer

theorem launchRecordAt (p : Nat) (n : Option Nat) (code : Nat) (bytes : List Byte) (die : Option Nat) :
    (Act.launchRecordAt p n code bytes die).Keeps P := .read fun _ => by
  refine .seq (.read fun _ => .seq (hP.launchOffer _ _ _ _) ?_) ?_
  · split
    · exact .skip
    · exact hP.onLaunch _ _
  · split
    · exact .when <| .each fun _ => .read fun _ => hP.emit rfl
    · exact .skip

theorem record (h : Word) (f : FaultRec) (policy : Nat) : (Act.record h f policy).Keeps P := .read fun _ => by
  split
  · exact .skip
  · exact hP.launchRecordAt _ _ _ _ _

/-! Answers -/

theorem onFn (x f : Nat) (g : Fn → Fn) : (Act.onFn x f g).Keeps P := hP.onXDie _ _

theorem told (a : Agent) (tag st : Nat) : (a.told tag st).Keeps P := by
  unfold Agent.told
  split
  · exact hP.emit rfl
  · exact hP.emit rfl
  · exact hP.emit rfl
  · exact .skip

theorem send (src : CellId) (p vc id : Nat) (g : Goal) : (Act.send src p vc id g).Keeps P :=
  .read fun _ => hP.onNode _ _

theorem releaseOne (x k : Nat) : (Act.releaseOne x k).Keeps P := fun s hs => by
  rw [Act.releaseOne, Act.run_read]
  split
  · exact hs
  · split
    · exact hs
    · split
      · refine (Act.Keeps.seq (.ite ?_ (hP.emit rfl)) (hP.onXDie _ _)) s hs
        exact hP.onFn _ _ _
      · exact (Act.Keeps.seq (hP.told _ _ _) (hP.onXDie _ _)) s hs
      · have hreleased := hP.onXDie x (fun v => { v with inbound := v.inbound.map fun q =>
          if q.id = k then { q with released := true } else q }) s hs
        have happended := fun r => hP.reqs _ _ (.append _ r) hreleased
        exact (Act.Keeps.block_cons (hP.send _ _ _ _ _) .block_nil) _ (happended _)
      · exact hs

theorem dropPart (x k : Nat) : (Act.dropPart x k).Keeps P :=
  .seq (hP.onXDie _ _) (.read fun _ => .each fun _ => hP.releaseOne _ _)

theorem respond (q : Req) (l : Load) (beats : Nat) : (Act.respond q l beats).Keeps P := by
  unfold Act.respond
  split
  · exact .skip
  · exact .read fun _ => hP.onNode _ _

theorem shutStream (c : CellId) (k : Nat) (el : Option Nat) : (Act.shutStream c k el).Keeps P := by
  refine .seq (.read fun _ => hP.onCell _ _) fun s hs => ?_
  rw [Act.run_read]
  refine hP.reqs s _ (.map s.reqs (fun r => ?_) fun r _ => ?_) hs
  · split <;> rfl
  · split <;> exact ⟨rfl, rfl, rfl, rfl, rfl⟩

theorem shutReturn (q : Req) (c : CellId) : (Act.shutReturn q c).Keeps P := .read fun _ => by
  split
  · exact hP.onCell _ _
  · exact .skip

theorem closeBobbins (h : Word) : (Act.closeBobbins h).Keeps P := .read fun _ => by
  split
  · exact .skip
  · exact .each fun _ => hP.onCell _ _

theorem markShut (h : Word) : (Act.markShut h).Keeps P := .read fun _ => by
  split
  · exact .skip
  · refine .seq (hP.onRegion _ fun _ _ => rfl) ?_
    split
    · exact hP.onLaunch _ _
    · exact .skip

theorem freezeFrom (h : Word) (c : CellId) (f : FaultRec) (held : Bool) : (Act.freezeFrom h c f held).Keeps P :=
  .read fun _ => hP.onRegion _ fun _ _ => rfl

theorem imprecise (h : Word) (f : FaultRec) : (Act.imprecise h f).Keeps P := hP.onRegion _ fun _ _ => by
  dsimp only
  split <;> rfl

/-! A request of one of those numbers -/

variable {q : Req} (hq : others q.id)
include hq

theorem performed (bytes : List Byte) (code : Nat) (back : Bool) : (Act.performed q bytes code back).Keeps P :=
  hP.onReq hq fun _ => rfl

theorem discard (code : Nat) : (Act.discard q code).Keeps P := hP.onReq hq fun _ => rfl

theorem arriveBack (bytes : List Byte) (code : Nat) : (Act.arriveBack q bytes code).Keeps P := by
  have hback : (Act.onReq q.id fun r => { r with back := true }).Keeps P := hP.onReq hq fun _ => rfl
  have hdrop := hP.dropReq hq
  unfold Act.arriveBack
  dsimp only
  split
  · split
    · exact .block_cons (hP.emit rfl) <| .block_cons hdrop <| .block_cons (hP.dropPart _ _) .block_nil
    · exact .seq hback (.when (hP.onFn _ _ _))
  · exact .block_cons (hP.emit rfl) <| .block_cons hdrop <| .block_cons (hP.onXDie _ _) .block_nil
  · refine .seq (hP.emit rfl) ?_
    split
    · exact .seq hdrop (hP.dropPart _ _)
    · exact hback
  · exact .seq (hP.emit rfl) hdrop
  · exact hback

theorem settle (bytes : List Byte) (code : Nat) : (Act.settle q bytes code).Keeps P :=
  .block_cons (hP.untrack _) <| .block_cons (hP.performed hq _ _ _) <|
    .block_cons (hP.arriveBack hq _ _) .block_nil

theorem requestFault (code cls : Nat) (more : FaultRec → FaultRec) : (Act.requestFault q code cls more).Keeps P := by
  have hheld : (Act.onReq q.id fun r => { r with st := .held code }).Keeps P := hP.onReq hq fun _ => rfl
  refine .read fun _ => ?_
  split
  · exact .seq (hP.performed hq _ _ _) (hP.respond _ _ _)
  · refine .seq (hP.untrack _) (.ite ?_ (.ite (.seq hheld (hP.record _ _ _)) (.seq hheld (hP.freezeFrom _ _ _ _))))
    split
    · exact .block_cons (hP.shutStream _ _ _) <| .block_cons (hP.discard hq _) <| .block_cons (hP.markShut _) <|
        .block_cons (hP.record _ _ _) .block_nil
    · exact .block_cons (hP.shutReturn _ _) <| .block_cons (hP.discard hq _) <|
        .block_cons (.when (hP.closeBobbins _)) <| .block_cons (hP.markShut _) <|
        .block_cons (hP.record _ _ _) .block_nil

/-- A request turned away with FIREWALL. -/
theorem turnedAway : (Act.turnedAway q fFirewall).Keeps P := .read fun _ => by
  split
  · exact hP.settle hq _ _
  · rw [if_neg (by decide)]
    exact .seq (hP.untrack _) <| .ite (hP.requestFault hq _ _ _) <| .seq (hP.imprecise _ _) (hP.performed hq _ _ _)

end

end KeptByTurns

end Sys2Proof.Machine
end

section
/-!
LRC_DONE (R80): what a border port tracks is answered FIREWALL, and the table is empty.
-/
namespace Sys2Proof.Machine

/-- The logical place that a region gives a physical cell. -/
def State.placed (s : State) (h : Word) (c : CellId) : Option (Nat × Nat) := (s.regions.get? h).bind (·.place c)

theorem State.issuedBy_eq_none_iff (s : State) (q : Req) (code cls : Nat) : s.issuedBy q code cls = none ↔
    ∀ h c, q.region = some h → agentCell q.agent = some c → s.placed h c = none := by
  unfold State.issuedBy State.placed
  split
  · rename_i h c hh hc
    have hone : (∀ h' c', q.region = some h' → agentCell q.agent = some c' →
        (s.regions.get? h').bind (·.place c') = none) ↔ (s.regions.get? h).bind (·.place c) = none :=
      ⟨fun hp => hp h c hh hc, fun hp h' c' hh' hc' => by
        cases hh.symm.trans hh'
        cases hc.symm.trans hc'
        exact hp⟩
    rw [hone]
    cases s.regions.get? h with
    | none => exact iff_of_true rfl rfl
    | some r => exact Option.map_eq_none_iff
  · rename_i hnone
    exact iff_of_true rfl fun h c hh hc => absurd hc (hnone h c hh)

theorem State.placed_apply_region {s : State} {h : Word} {r r' : Region} (hr : s.regions.get? h = some r)
    (hplace : ∀ c, r'.place c = r.place c) (h' : Word) (c : CellId) :
    (s.apply (.region h (some r'))).placed h' c = s.placed h' c := by
  rw [State.placed, State.apply_region_some, State.placed]
  by_cases hh : h' = h
  · subst hh
    rw [Store.get?_put_same, hr]
    exact hplace c
  · rw [Store.get?_put_ne _ _ hh]

theorem State.regions_apply_ofTurn (s : State) {e : Effect} (h : e.ofTurn = true) :
    (s.apply e).regions = s.regions := by
  cases e
  case region => cases h
  all_goals simp

theorem State.reqs_apply_ofTurn (s : State) {e : Effect} (h : e.ofTurn = true) : (s.apply e).reqs = s.reqs := by
  cases e
  case reqs => cases h
  all_goals simp

theorem State.links_apply_ofTurn (s : State) {e : Effect} (h : e.ofTurn = true) : (s.apply e).links = s.links := by
  cases e
  case link => cases h
  all_goals simp

/-! ### A request until it is answered -/

/-- Request q of s is in its place: answered FIREWALL or, before that is done, still without an answer; and regions have
their cells where they had them. -/
structure Turned (s : State) (q : Req) (done : Prop) (t : State) : Prop where
  found : ∃ r, t.reqOf q.id = some r ∧ r.agent = q.agent ∧ r.region = q.region ∧
    ((r.st = .performed (bytesVec []) fFirewall ∧ r.owed = false) ∨ (¬ done ∧ r.unanswered = true))
  places : t.placed = s.placed

section
variable {s : State} {q : Req} {done : Prop}

theorem Turned.keptByTurns : KeptByTurns (· ≠ q.id) (Turned s q done) where
  plain u e he h := ⟨by
    rw [State.reqOf_of_reqs (u.reqs_apply_ofTurn he)]
    exact h.found, by
    rw [← h.places]
    funext h' c
    rw [State.placed, u.regions_apply_ofTurn he, State.placed]⟩
  reqs u l hl h := by
    obtain ⟨⟨r, hr, hagent, hregion, hstate⟩, hplaces⟩ := h
    obtain ⟨r', hr', hagent', hregion', hst, hback, howed⟩ := hl q.id (fun hne => hne rfl) r hr
    refine ⟨⟨r', hr', hagent'.trans hagent, hregion'.trans hregion, ?_⟩, hplaces⟩
    rwa [Req.unanswered, hst, hback, howed]
  region u h r r' hr hp hu := ⟨hu.found, (funext fun h' => funext fun c =>
    State.placed_apply_region hr hp h' c).trans hu.places⟩
  launch u n l h := ⟨h.found, h.places⟩
  link u l v _ h := ⟨h.found, h.places⟩

theorem Act.run_arriveBack_own {u : State} {r : Req} (hhost : r.agent.isHost = false)
    (hmodule : ∀ north cx k, r.agent ≠ .module north cx k) (bytes : List Byte) (code : Nat) :
    (Act.arriveBack r bytes code).run u = (Act.onReq r.id fun q => { q with back := true }).run u := by
  unfold Act.arriveBack
  cases ha : r.agent
  case func | qp | peer => rw [ha] at hhost; cases hhost
  case module north cx k => exact absurd ha (hmodule north cx k)
  all_goals rfl

/-- The request of the device itself is answered where it stands in the list. -/
theorem Act.settle_answers {u : State} {id : Nat} {r : Req} (hr : u.reqOf id = some r)
    (hhost : r.agent.isHost = false) (hmodule : ∀ north cx k, r.agent ≠ .module north cx k) (code : Nat) :
    ((Act.settle r [] code).run u).reqOf id =
      some { r with st := .performed (bytesVec []) code, back := true, owed := false, resp := [] } := by
  obtain rfl := State.reqOf_id hr
  have huntracked : ((Act.untrack r.id).run u).reqOf r.id = some r :=
    (State.reqOf_of_reqs ((Act.untrack_offHost r.id).reqs_eq u) _).trans hr
  have hperformed := State.reqOf_onReq_same (f := fun r : Req =>
    { r with st := .performed (bytesVec []) code, back := r.back || true, owed := false, resp := [] })
    (fun _ => rfl) huntracked
  have hback := State.reqOf_onReq_same (f := fun r : Req => { r with back := true }) (fun _ => rfl) hperformed
  rw [Act.settle, Act.run_block_cons, Act.run_block_cons, Act.run_block_cons, Act.run_block_nil,
    Act.run_arriveBack_own hhost hmodule]
  exact hback

/-- Where cells stand changes with regions alone. -/
theorem State.placed_of_regions {t u : State} (h : t.regions = u.regions) : t.placed = u.placed := by
  funext h' c
  rw [State.placed, h, State.placed]

theorem Act.settle_regions {u : State} {r : Req} (hhost : r.agent.isHost = false)
    (hmodule : ∀ north cx k, r.agent ≠ .module north cx k) (code : Nat) :
    ((Act.settle r [] code).run u).regions = u.regions := by
  have huntracked : ((Act.untrack r.id).run u).regions = u.regions :=
    (show (Act.untrack r.id).Keeps fun t => t.regions = u.regions from
      .read fun _ => .each fun _ _ h => h) u rfl
  rw [Act.settle, Act.run_block_cons, Act.run_block_cons, Act.run_block_cons, Act.run_block_nil,
    Act.run_arriveBack_own hhost hmodule]
  exact huntracked

end

/-! ### What a port tracks -/

/-- One crossing that a port tracks is turned away, unless its response had come. -/
def Act.turnTracked (id : Nat) : Act :=
  .read fun s => match s.reqOf id with
    | some q => .when q.unanswered (.turnedAway q fFirewall)
    | none => .skip

theorem KeptByTurns.turnTracked {others : Nat → Prop} {P : State → Prop} (hP : KeptByTurns others P) {id : Nat}
    (hid : others id) : (Act.turnTracked id).Keeps P := fun s hs => by
  rw [Act.turnTracked, Act.run_read]
  split
  · rename_i r hr
    exact (Act.Keeps.when (hP.turnedAway (State.reqOf_id hr ▸ hid))) s hs
  · exact hs

/-- The request of an agent of the device that no fault stops at its issuer. -/
structure Req.AnsweredHere (s : State) (q : Req) : Prop where
  host : q.agent.isHost = false
  module : ∀ north cx k, q.agent ≠ .module north cx k
  nowhere : s.issuedBy q fFirewall 1 = none

section
variable {s : State} {q : Req} (hq : q.AnsweredHere s)
include hq

theorem Turned.own {done : Prop} {t : State} (h : Turned s q done t) :
    Turned s q True ((Act.turnTracked q.id).run t) := by
  obtain ⟨⟨r, hr, hagent, hregion, hstate⟩, hplaces⟩ := h
  obtain ⟨hhost, hmodule, hnowhere⟩ := hq
  rw [Act.turnTracked, Act.run_read, hr]
  dsimp only
  rw [Act.run_when]
  split
  · have hnone : t.issuedBy r fFirewall 1 = none := by
      rw [State.issuedBy_eq_none_iff] at hnowhere ⊢
      rwa [hagent, hregion, hplaces]
    have hrun : (Act.turnedAway r fFirewall).run t = (Act.settle r [] fFirewall).run t := by
      rw [Act.turnedAway, Act.run_read, if_neg (by decide), hnone]
    rw [← hagent] at hhost hmodule
    rw [hrun]
    exact ⟨⟨_, Act.settle_answers hr hhost hmodule fFirewall, hagent, hregion, .inl ⟨rfl, rfl⟩⟩,
      (State.placed_of_regions (Act.settle_regions hhost hmodule fFirewall)).trans hplaces⟩
  · rename_i hanswered
    exact ⟨⟨r, hr, hagent, hregion, .inl (hstate.resolve_right fun h => hanswered h.2)⟩, hplaces⟩

theorem Turned.turnTracked {done : Prop} (id : Nat) : (Act.turnTracked id).Keeps (Turned s q done) := fun t h => by
  by_cases hid : id = q.id
  · obtain ⟨⟨r, hr, hagent, hregion, hstate⟩, hplaces⟩ := Turned.own hq h
    exact hid ▸ ⟨⟨r, hr, hagent, hregion, .inl (hstate.resolve_right fun h => h.1 trivial)⟩, hplaces⟩
  · exact Turned.keptByTurns.turnTracked hid t h

/-- Of all that is tracked, such a request is answered. -/
theorem Turned.each {l : List Outstanding} {e : Outstanding} (he : e ∈ l) (hid : e.req = q.id) {t : State}
    (h : Turned s q False t) : Turned s q True ((Act.each l fun e => .turnTracked e.req).run t) :=
  Act.Keeps.each_leads he (fun e => Turned.turnTracked hq e.req) (fun e => Turned.turnTracked hq e.req)
    (fun _ hs => hid ▸ Turned.own hq hs) t h

end

/-! ### The event -/

section
variable {s : State} {d port : Nat} {l : LinkId} (hport : portExists d port = true) (hl : linkAt (d, port) = some l)
  (hxt : s.regField d (.sfw port) 2 2 = 1) (hdone : s.regField d (.sfw port) 3 3 = 0)
include hl hxt hdone

/-- The table emptied, and what it held turned away. -/
def Act.turnTable (s : State) (l : LinkId) : Act :=
  (Act.onLink l fun v => { v with table := [] }).seq
    (.each (s.links.get {} l).table fun e => .turnTracked e.req)

theorem exec_lrcDone : exec (.lrcDone d port) s =
    ((Act.turnTable s l).seq (.onReg d (.sfw port) fun v => withField v 3 3 1)).next s := by
  show execLrcDone d port s = _
  rw [execLrcDone, hl]
  dsimp only
  rw [hxt, hdone]
  rfl

omit hl hxt hdone in
theorem Turned.start {q : Req} {id : Nat} (hq : s.reqOf id = some q) (hopen : q.unanswered = true) :
    Turned s q False s := by
  obtain rfl := State.reqOf_id hq
  exact ⟨⟨q, hq, rfl, rfl, .inr ⟨id, hopen⟩⟩, rfl⟩

omit hl hxt hdone in
theorem Act.turnTable_answers {e : Outstanding} (he : e ∈ (s.links.get {} l).table) {q : Req}
    (hq : s.reqOf e.req = some q) (hopen : q.unanswered = true) (hown : q.AnsweredHere s) :
    Answered ((Act.turnTable s l).run s) e.req [] fFirewall := by
  have hid : e.req = q.id := (State.reqOf_id hq).symm
  have hstart := (Turned.keptByTurns (s := s) (q := q) (done := False)).link s l
    { (s.links.get {} l) with table := [] } (List.nil_subset _) (.start hq hopen)
  obtain ⟨⟨r, hr, -, -, hstate⟩, -⟩ := Turned.each hown he hid hstart
  obtain ⟨hst, howed⟩ := hstate.resolve_right fun h => h.1 trivial
  exact ⟨r, hid ▸ hr, hst, howed⟩

omit hl hxt hdone in
theorem tableEmpty_keptByTurns :
    KeptByTurns (fun _ => True) fun t => (t.links.get {} l).table = [] where
  plain u e he h := by rwa [u.links_apply_ofTurn he]
  reqs _ _ _ h := h
  region _ _ _ _ _ _ h := h
  launch _ _ _ h := h
  link u k v hv h := by
    show ((u.links.put k v).get {} l).table = []
    rw [Store.get_put]
    split
    · rename_i heq
      subst heq
      rw [h] at hv
      exact List.subset_nil.mp hv
    · exact h

omit hl hxt hdone in
theorem Act.turnTable_empties : (((Act.turnTable s l).run s).links.get {} l).table = [] := by
  refine (Act.Keeps.each fun e => tableEmpty_keptByTurns.turnTracked trivial) _ ?_
  show ((s.links.put l _).get {} l).table = []
  rw [Store.get_put_same]

include hport in
theorem lrcDone_happens : Happens s (.lrcDone d port) fun t =>
    t.regField d (.sfw port) 3 3 = 1 ∧ (t.links.get {} l).table = [] ∧
    ∀ e ∈ (s.links.get {} l).table, ∀ q, s.reqOf e.req = some q → q.unanswered = true →
      q.agent.isHost = false → (∀ north cx k, q.agent ≠ .module north cx k) →
      s.issuedBy q fFirewall 1 = none → Answered t e.req [] fFirewall := by
  obtain ⟨hd, hp⟩ := portExists_lt hport
  refine .of_next _ (exec_lrcDone hl hxt hdone) ?_
  rw [Act.run_seq]
  refine ⟨?_, Act.turnTable_empties, fun e he q hq hopen hhost hmodule hnone => ?_⟩
  · exact State.regField_withField_same _ (regAt_sfw d hd port hp hport) 1 (by omega) (by omega)
      (sfw_stored port ▸ (by decide))
  · exact Act.turnTable_answers he hq hopen ⟨hhost, hmodule, hnone⟩

end

end Sys2Proof.Machine
end

section
/-!
PARTITION_RESET (R80): launches that are over, dies that are as after a reset, and a vault without the old tenant's
contexts.
-/
namespace Sys2Proof.Machine

/-! ### A launch that stays -/

def HasLaunch (n : Nat) (t : State) : Prop := ∃ l, t.launches.get? n = some l

def LaunchOver (n : Nat) (t : State) : Prop := ∃ l, t.launches.get? n = some l ∧ l.st = .complete

/-- The effect removes no launch. -/
def Effect.keepsLaunches : Effect → Bool
  | .launch _ none => false
  | _ => true

section
variable {n : Nat}

theorem HasLaunch.of_launches {s t : State} (h : HasLaunch n s) (ht : t.launches = s.launches) : HasLaunch n t := by
  rwa [HasLaunch, ht]

theorem HasLaunch.put {s : State} (h : HasLaunch n s) (m : Nat) (v : Launch) :
    HasLaunch n (s.apply (.launch m (some v))) := by
  rw [HasLaunch, State.apply_launch_some, Store.get?_put]
  split
  · exact ⟨v, rfl⟩
  · exact h

theorem HasLaunch.apply (s : State) (e : Effect) (he : e.keepsLaunches = true) (h : HasLaunch n s) :
    HasLaunch n (s.apply e) := by
  cases e
  case launch m v =>
    cases v with
    | none => cases he
    | some v => exact h.put m v
  all_goals exact h.of_launches (by simp)

theorem HasLaunch.only {a : Act} (ha : a.Only Effect.keepsLaunches) : a.Keeps (HasLaunch n) :=
  ha.keepsOf HasLaunch.apply

theorem HasLaunch.onLaunch (m : Nat) (f : Launch → Launch) : (Act.onLaunch m f).Keeps (HasLaunch n) := fun s h => by
  rw [Act.onLaunch, Act.run_read]
  split
  · exact h.put m _
  · exact h

theorem HasLaunch.carries : Carries (fun _ => True) (HasLaunch n) where
  plain s _ he h := h.of_launches (s.launches_apply_offVf he)
  host a p asid va l pa bytes := (Act.hostWrite_ofHost a p asid va l pa bytes).keepsOf fun s _ he h =>
    h.of_launches (s.launches_apply_ofHost he)
  gentle m f s _ h := HasLaunch.onLaunch m f s h
  start m f _ _ := HasLaunch.onLaunch m f
  chosen _ _ _ _ _ _ := trivial

theorem HasLaunch.keptByTurns : KeptByTurns (fun _ => True) (HasLaunch n) where
  plain s e he h := h.apply s e (by
    cases e
    case launch => cases he
    all_goals rfl)
  reqs _ _ _ h := h
  region _ _ _ _ _ _ h := h
  launch _ m v h := h.put m v
  link _ _ _ _ h := h

theorem HasLaunch.discardLog (dies : List Nat) (k : Nat × Nat) (which : Req → Bool) :
    (Act.discardLog dies k which).Keeps (HasLaunch n) := .read fun _ => .each fun _ =>
  .seq (.only (.read fun _ => .emit rfl)) <| .when <|
    .seq (HasLaunch.keptByTurns.onReq trivial fun _ => rfl) (HasLaunch.keptByTurns.turnedAway trivial)

theorem HasLaunch.discardLogs (p : Nat) (dies : List Nat) : (Act.discardLogs p dies).Keeps (HasLaunch n) :=
  .seq (.each fun _ => .each fun _ => HasLaunch.discardLog _ _ _)
    (.each fun _ => .each fun _ => HasLaunch.discardLog _ _ _)

end

/-! ### The regions of the dies -/

/-- Every region with its origin on one of the dies is removed. -/
def Act.dropRegions (dies : List Nat) : Act :=
  .read fun s => .each (s.regions.filter fun e => dies.contains e.2.origin.die) fun e => .emit (.region e.1 none)

theorem Act.regions_of_removed {h : Word} {r : Region} (l : List (Word × Region)) : ∀ {u : State},
    ((Act.each l fun e => .emit (.region e.1 none)).run u).regions.get? h = some r →
      u.regions.get? h = some r ∧ ∀ e ∈ l, e.1 ≠ h := by
  induction l with
  | nil => exact fun hr => ⟨hr, fun _ he => absurd he List.not_mem_nil⟩
  | cons e rest ih =>
    intro u hr
    rw [Act.run_each_cons] at hr
    obtain ⟨hleft, hrest⟩ := ih hr
    rw [Act.run_emit, State.apply_region_none] at hleft
    have hne : h ≠ e.1 := fun heq => by
      rw [heq, Store.get?_erase_same] at hleft
      cases hleft
    rw [Store.get?_erase_ne _ hne] at hleft
    exact ⟨hleft, List.forall_mem_cons.mpr ⟨hne.symm, hrest⟩⟩

theorem Act.dropRegions_leaves {dies : List Nat} {u : State} {h : Word} {r : Region}
    (hr : ((Act.dropRegions dies).run u).regions.get? h = some r) : r.origin.die ∉ dies := fun hmem => by
  rw [Act.dropRegions, Act.run_read] at hr
  obtain ⟨hu, hkept⟩ := Act.regions_of_removed _ hr
  exact hkept (h, r) (List.mem_filter.mpr ⟨Store.get?_mem hu, List.contains_iff_mem.mpr hmem⟩) rfl

/-! ### A die that is reset -/

/-- The effects of the reset of a die: state removed, or put at its reset value. -/
def Effect.resets : Effect → Bool
  | .cellsClear _ | .nodesClear _ | .dispatcher _ _ | .slog _ _ _ | .mtlb _ _ _ | .copy _ _ | .memClear _ _ | .ecc _
  | .resetAt _ _ => true
  | .lots _ l => decide (l = {})
  | .hart _ _ h => decide (h = { running := true })
  | .wipe _ w => decide (w = .running)
  | _ => false

/-- Of the acts of a block one brings a property about, and all keep it. -/
theorem Act.Keeps.block_leads {Q : State → Prop} {l : List Act} {a : Act} (ha : a ∈ l) (hQ : ∀ b ∈ l, b.Keeps Q)
    (hlead : ∀ s, Q (a.run s)) : ∀ s, Q ((Act.block l).run s) := by
  induction l with
  | nil => cases ha
  | cons b rest ih =>
    intro s
    have hrest : ∀ c ∈ rest, c.Keeps Q := fun c hc => hQ c (List.mem_cons_of_mem _ hc)
    rw [Act.run_block_cons]
    rcases List.mem_cons.mp ha with rfl | hmem
    · have hkeeps : (Act.each rest id).Keeps Q := .each_mem hrest
      rw [Act.each, List.map_id] at hkeeps
      exact hkeeps _ (hlead s)
    · exact ih hmem hrest _

/-- The reset of every one of the harts of a die. -/
def Act.resetHarts (d : Nat) : Act :=
  .each (List.range Config.tailorHarts) fun n => .emit (.hart d n { running := true })

/-- What the reset of a die consists of, as far as is told here. -/
theorem Act.resetDie_acts (d : Nat) : ∃ l, Act.resetDie d = .block l ∧ (∀ a ∈ l, a.Only Effect.resets) ∧
    .emit (.cellsClear d) ∈ l ∧ .emit (.lots d {}) ∈ l ∧ Act.resetHarts d ∈ l ∧
    .emit (.wipe (.cells d) .running) ∈ l ∧ .emit (.wipe (.hbm d) .running) ∈ l := by
  refine ⟨_, rfl, ?_, List.mem_of_getElem? (i := 0) rfl, List.mem_of_getElem? (i := 3) rfl,
    List.mem_of_getElem? (i := 7) rfl, List.mem_of_getElem? (i := 10) rfl, List.mem_of_getElem? (i := 11) rfl⟩
  simp only [List.forall_mem_cons]
  exact ⟨.emit rfl, .emit rfl, .emit rfl, .emit rfl, .each fun _ _ => .emit rfl, .emit rfl,
    .read fun _ => .each fun _ _ => .emit rfl, .each fun _ _ => .emit rfl, .emit rfl, .read fun _ => .emit rfl,
    .emit rfl, .emit rfl, .read fun _ => .emit rfl, fun _ h => absurd h List.not_mem_nil⟩

/-- A die as its reset leaves it. -/
structure DieReset (d : Nat) (t : State) : Prop where
  cells : ∀ e ∈ t.cells, e.1.die ≠ d
  lots : t.lotsOf d = {}
  harts : ∀ n, n < Config.tailorHarts → t.hart d n = { running := true }
  wipeCells : t.wipeOf (.cells d) = .running
  wipeHbm : t.wipeOf (.hbm d) = .running

section
variable {s : State} {d n : Nat} {z : Tier} {e : Effect} (he : e.resets = true)
include he

theorem State.cells_resets (h : ∀ e ∈ s.cells, e.1.die ≠ d) : ∀ c ∈ (s.apply e).cells, c.1.die ≠ d := by
  cases e
  case cellsClear => exact fun c hc => h c (List.mem_filter.mp hc).1
  case nodesClear | dispatcher | slog | mtlb | copy | memClear | ecc | resetAt | lots | hart | wipe => exact h
  all_goals cases he

theorem State.lotsOf_resets (h : s.lotsOf d = {}) : (s.apply e).lotsOf d = {} := by
  cases e
  case lots k l =>
    obtain rfl : l = {} := of_decide_eq_true he
    rw [State.lotsOf, State.apply_lots, Store.get_put]
    split
    · rfl
    · exact h
  case cellsClear | nodesClear | dispatcher | slog | mtlb | copy | memClear | ecc | resetAt | hart | wipe => exact h
  all_goals cases he

theorem State.hart_resets (h : s.hart d n = { running := true }) : (s.apply e).hart d n = { running := true } := by
  cases e
  case hart k m v =>
    obtain rfl : v = { running := true } := of_decide_eq_true he
    rw [State.hart, State.apply_hart, Store.get_put]
    split
    · rfl
    · exact h
  case cellsClear | nodesClear | dispatcher | slog | mtlb | copy | memClear | ecc | resetAt | lots | wipe => exact h
  all_goals cases he

theorem State.wipeOf_resets (h : s.wipeOf z = .running) : (s.apply e).wipeOf z = .running := by
  cases e
  case wipe k w =>
    obtain rfl : w = .running := of_decide_eq_true he
    rw [State.wipeOf, State.apply_wipe, Store.get_put]
    split
    · rfl
    · exact h
  case cellsClear | nodesClear | dispatcher | slog | mtlb | copy | memClear | ecc | resetAt | lots | hart => exact h
  all_goals cases he

end

theorem DieReset.apply {d : Nat} (s : State) (e : Effect) (he : e.resets = true) (h : DieReset d s) :
    DieReset d (s.apply e) where
  cells := State.cells_resets he h.cells
  lots := State.lotsOf_resets he h.lots
  harts n hn := State.hart_resets he (h.harts n hn)
  wipeCells := State.wipeOf_resets he h.wipeCells
  wipeHbm := State.wipeOf_resets he h.wipeHbm

theorem Act.resetHarts_hart (d : Nat) {n : Nat} (hn : n < Config.tailorHarts) (s : State) :
    ((Act.resetHarts d).run s).hart d n = { running := true } := by
  refine Act.Keeps.each_leads (P := fun _ => True) (Q := fun t => t.hart d n = { running := true })
    (List.mem_range.mpr hn) (fun _ _ _ => trivial) (fun _ u h => State.hart_resets (s := u) rfl h) (fun u _ => ?_)
    s trivial
  rw [Act.run_emit, State.hart_apply_same]
  rfl

/-- The reset of a die does what its name says. -/
theorem Act.resetDie_dieReset (d : Nat) (s : State) : DieReset d ((Act.resetDie d).run s) := by
  obtain ⟨l, hl, hresets, hcells, hlots, hharts, hwipeCells, hwipeHbm⟩ := Act.resetDie_acts d
  have hlead : ∀ {Q : State → Prop} {a : Act}, a ∈ l → (∀ u, Q (a.run u)) →
      (∀ (u : State) (e : Effect), e.resets = true → Q u → Q (u.apply e)) → Q ((Act.resetDie d).run s) :=
    fun ha hlead hQ => hl ▸ Act.Keeps.block_leads ha (fun b hb => (hresets b hb).keepsOf hQ) hlead s
  have hwipe : ∀ (z : Tier) (u : State), ((Act.emit (.wipe z .running)).run u).wipeOf z = .running := fun z u => by
    rw [Act.run_emit, State.wipeOf, State.apply_wipe, Store.get_put_same]
  refine ⟨?_, ?_, fun n hn => ?_, ?_, ?_⟩
  · exact hlead (Q := fun t => ∀ e ∈ t.cells, e.1.die ≠ d) hcells
      (fun u c hc => bne_iff_ne.mp (List.mem_filter.mp hc).2) fun _ _ he h => State.cells_resets he h
  · refine hlead (Q := fun t => t.lotsOf d = {}) hlots (fun u => ?_) fun _ _ he h => State.lotsOf_resets he h
    rw [Act.run_emit, State.lotsOf, State.apply_lots, Store.get_put_same]
    rfl
  · exact hlead (Q := fun t => t.hart d n = { running := true }) hharts (Act.resetHarts_hart d hn)
      fun _ _ he h => State.hart_resets he h
  · exact hlead (Q := fun t => t.wipeOf (.cells d) = .running) hwipeCells (hwipe _)
      fun _ _ he h => State.wipeOf_resets he h
  · exact hlead (Q := fun t => t.wipeOf (.hbm d) = .running) hwipeHbm (hwipe _)
      fun _ _ he h => State.wipeOf_resets he h

theorem Act.resetDie_resets (d : Nat) : (Act.resetDie d).Only Effect.resets := by
  obtain ⟨l, hl, hresets, -⟩ := Act.resetDie_acts d
  rw [hl]
  have hall : (Act.each l id).Only Effect.resets := .each hresets
  rwa [Act.each, List.map_id] at hall

/-- Of the dies reset in turn, each is. -/
theorem Act.resetDies_dieReset {dies : List Nat} {d : Nat} (hd : d ∈ dies) (s : State) :
    DieReset d ((Act.each dies .resetDie).run s) :=
  Act.Keeps.each_leads (P := fun _ => True) hd (fun _ _ _ => trivial)
    (fun k => (Act.resetDie_resets k).keepsOf DieReset.apply) (fun u _ => Act.resetDie_dieReset d u) s trivial

/-! ### What comes after the dies' reset leaves them alone -/

/-- The parts of the state in which a tenant's dies, regions and contexts stand are the same. -/
structure SameTenancy (s t : State) : Prop where
  cells : t.cells = s.cells
  regions : t.regions = s.regions
  lots : t.lots = s.lots
  harts : t.harts = s.harts
  wipes : t.wipes = s.wipes
  vault : t.vault = s.vault
  epochs : t.epochs = s.epochs

/-- The effects of a report, and of traffic dropped. -/
def Effect.ofReport (e : Effect) : Bool :=
  match e with
  | .link _ _ | .lane _ _ | .launch _ (some _) => true
  | e => e.ofStore

theorem Effect.ofReport_ofStore {e : Effect} (h : e.ofStore = true) : e.ofReport = true := by
  unfold Effect.ofReport
  split
  · rfl
  · rfl
  · rfl
  · exact h

theorem Act.Only.ofReport {a : Act} (h : a.Only Effect.ofStore) : a.Only Effect.ofReport :=
  fun s => (h s).mono fun _ => Effect.ofReport_ofStore

theorem SameTenancy.rfl {s : State} : SameTenancy s s :=
  ⟨Eq.refl _, Eq.refl _, Eq.refl _, Eq.refl _, Eq.refl _, Eq.refl _, Eq.refl _⟩

theorem SameTenancy.trans {s t u : State} (h : SameTenancy s t) (h' : SameTenancy t u) : SameTenancy s u :=
  ⟨h'.cells.trans h.cells, h'.regions.trans h.regions, h'.lots.trans h.lots, h'.harts.trans h.harts,
    h'.wipes.trans h.wipes, h'.vault.trans h.vault, h'.epochs.trans h.epochs⟩

theorem State.apply_ofReport (s : State) {e : Effect} (he : e.ofReport = true) : SameTenancy s (s.apply e) := by
  cases e
  case launch n v =>
    cases v with
    | none => cases he
    | some v => exact ⟨rfl, rfl, rfl, rfl, rfl, rfl, rfl⟩
  case link | lane | mem | memClear | ecc | mtlb | nextId | reqs | xdie | out =>
    exact ⟨rfl, rfl, rfl, rfl, rfl, rfl, rfl⟩
  all_goals cases he

theorem Act.Only.sameTenancy {a : Act} (h : a.Only Effect.ofReport) (s : State) : SameTenancy s (a.run s) :=
  h.keepsOf (P := SameTenancy s) (fun t _ he ht => ht.trans (t.apply_ofReport he)) s .rfl

theorem Act.onLaunch_ofReport (n : Nat) (f : Launch → Launch) : (Act.onLaunch n f).Only Effect.ofReport :=
  .read fun _ => by
    split
    · exact .emit rfl
    · exact .skip

/-- Requests of agents on the dies go, and with them what ports track of them and what lanes between the dies hold. -/
def Act.dropTraffic (dies : List Nat) : Act :=
  .block
    [ .read fun s => .emit (.reqs (s.reqs.filter fun q => !agentOnDies dies q.agent))
    , .read fun s => .each s.links fun e => .onLink e.1 fun v =>
        { v with table := v.table.filter fun x => (s.reqOf x.req).isSome }
    , .read fun s => .each (s.lanes.filter fun e => laneWithin dies e.1) fun e => .emit (.lane e.1 {}) ]

theorem Act.dropTraffic_ofReport (dies : List Nat) : (Act.dropTraffic dies).Only Effect.ofReport :=
  .block_cons (.read fun _ => .emit rfl) <| .block_cons (.read fun _ => .each fun _ _ => .read fun _ => .emit rfl) <|
    .block_cons (.read fun _ => .each fun _ _ => .emit rfl) .block_nil

/-! ### Reports -/

theorem Act.toModule_ofStore (p dst : Nat) (m : EdgeIn) : (Act.toModule p dst m).Only Effect.ofStore :=
  .read fun _ => .when fun _ => .emit rfl

theorem Act.reportLaunch_ofStore (l : Launch) (status tl : Nat) : (Act.reportLaunch l status tl).Only Effect.ofStore :=
  .read fun _ => by
    dsimp only
    split
    · exact Act.toModule_ofStore _ _ _
    · exact .seq (.when fun _ => .read fun _ => Act.storeLong_ofStore _ _ _ _ _ _)
        (.read fun _ => .when fun _ => Act.storeLong_ofStore _ _ _ _ _ _)

theorem Act.completionIrq_ofStore (l : Launch) : (Act.completionIrq l).Only Effect.ofStore :=
  .seq (.when fun _ => .emit rfl) (.when fun _ => .emit rfl)

theorem Act.flushReplies_ofStore (x : Nat) : (Act.flushReplies x).Only Effect.ofStore := .read fun _ =>
  .seq (.read fun _ => .emit rfl) <| .each fun _ _ => .read fun _ =>
    .seq (.when fun _ => Act.storeVa_ofStore _ _ _ _ _) (.when fun _ => .emit rfl)

theorem Act.flushAll_ofStore : Act.flushAll.Only Effect.ofStore :=
  .seq (Act.flushReplies_ofStore _) (Act.flushReplies_ofStore _)

/-- The report of a launch's end, with which it is complete. -/
def Act.reportEnd (e : Nat × Launch) : Act :=
  .block [.reportLaunch e.2 stKilled 0, .completionIrq e.2, .onLaunch e.1 fun l => { l with st := .complete }]

theorem Act.reportEnd_ofReport (e : Nat × Launch) : (Act.reportEnd e).Only Effect.ofReport :=
  .block_cons (reportLaunch_ofStore _ _ _).ofReport <| .block_cons (completionIrq_ofStore _).ofReport <|
    .block_cons (onLaunch_ofReport _ _) .block_nil

theorem Act.Only.launches_ofStore {a : Act} (h : a.Only Effect.ofStore) (s : State) :
    (a.run s).launches = s.launches := (congrArg State.launches (h.stored s)).trans rfl

theorem Act.run_reportEnd (e : Nat × Launch) (u : State) : ∃ w : State, w.launches = u.launches ∧
    (Act.reportEnd e).run u = (Act.onLaunch e.1 fun l => { l with st := .complete }).run w :=
  ⟨_, ((Act.completionIrq_ofStore e.2).launches_ofStore _).trans
    ((Act.reportLaunch_ofStore e.2 _ _).launches_ofStore u), rfl⟩

theorem LaunchOver.onLaunch {n m : Nat} {u : State} (h : LaunchOver n u ∨ m = n ∧ HasLaunch n u) :
    LaunchOver n ((Act.onLaunch m fun l => { l with st := .complete }).run u) := by
  rw [Act.onLaunch, Act.run_read]
  by_cases hm : n = m
  · subst hm
    obtain ⟨l, hl⟩ : HasLaunch n u := h.elim (fun ⟨l, hl, _⟩ => ⟨l, hl⟩) And.right
    rw [hl]
    exact ⟨_, Store.get?_put_same _ _ _, rfl⟩
  · obtain ⟨l, hl, hst⟩ := h.resolve_right fun h => hm h.1.symm
    split
    · exact ⟨l, (Store.get?_put_ne _ _ hm).trans hl, hst⟩
    · exact ⟨l, hl, hst⟩

theorem LaunchOver.reportEnd {n : Nat} {e : Nat × Launch} {u : State}
    (h : LaunchOver n u ∨ e.1 = n ∧ HasLaunch n u) : LaunchOver n ((Act.reportEnd e).run u) := by
  obtain ⟨w, hw, hrun⟩ := Act.run_reportEnd e u
  rw [hrun]
  refine LaunchOver.onLaunch ?_
  rwa [LaunchOver, HasLaunch, hw]

theorem LaunchOver.each {n : Nat} {l : List (Nat × Launch)} {e : Nat × Launch} (he : e ∈ l) (hn : e.1 = n)
    {u : State} (h : HasLaunch n u) : LaunchOver n ((Act.each l .reportEnd).run u) :=
  Act.Keeps.each_leads he
    (fun k v hv => by
      obtain ⟨w, hw, hrun⟩ := Act.run_reportEnd k v
      rw [hrun]
      exact HasLaunch.onLaunch _ _ _ (hv.of_launches hw))
    (fun _ _ hv => .reportEnd (.inl hv)) (fun _ hv => .reportEnd (.inr ⟨hn, hv⟩)) u h

end Sys2Proof.Machine
end

section
/-!
The event PARTITION_RESET as a whole (R80), and with it the events of partitions.
-/
namespace Sys2Proof.Machine

section
variable {s : State} {p : Nat}

/-- Every launch of the partition is refused or ends. -/
def Act.tenantEnds (s : State) (p : Nat) : Act :=
  .each (s.launches.filter fun e => e.2.part == p) fun e =>
    if e.2.st = .issued then .refuse e.1 stKilled true false else .when (e.2.st.accepted) (.endLaunch e.1 stKilled)

/-- Its dies are cleared, reset and rid of their traffic, and its contexts can no longer be restored. -/
def Act.tenantCleared (s : State) (p : Nat) : Act :=
  .block
    [ .dropRegions (s.partDies p), .each (s.partDies p) .resetDie, .dropTraffic (s.partDies p)
    , .emit (.vault (s.vault.filter fun r => r.part != p)), .emit (.epoch p (s.epochs.get 0 p + 1)) ]

/-- Its launches are reported. -/
def Act.tenantReports (s : State) (p : Nat) : Act :=
  .each (s.launches.filter fun e => e.2.part == p && e.2.st.accepted) .reportEnd

theorem exec_partitionReset (h : s.mayReset p = true) : exec (.partitionReset p) s = .next
    (Act.flushAll.run ((Act.tenantReports s p).run ((Act.tenantCleared s p).run
      ((Act.discardLogs p (s.partDies p)).run ((Act.tenantEnds s p).run s))))) := by
  show execPartitionReset p s = _
  rw [execPartitionReset, h]
  unfold Act.tenantEnds Act.tenantCleared Act.tenantReports Act.dropRegions Act.dropTraffic Act.reportEnd
  simp only [Act.next, Act.run_when_true, Act.run_block_cons, Act.run_block_nil]

theorem HasLaunch.tenantEnds {n : Nat} : (Act.tenantEnds s p).Keeps (HasLaunch n) := .each fun _ =>
  .ite (HasLaunch.carries.refuse _ _ _ _) (.when (HasLaunch.carries.endLaunch _ _))

theorem Effect.keepsLaunches_ofReport {e : Effect} (h : e.ofReport = true) : e.keepsLaunches = true := by
  cases e
  case launch n v =>
    cases v with
    | none => cases h
    | some v => rfl
  all_goals rfl

theorem Effect.keepsLaunches_resets {e : Effect} (h : e.resets = true) : e.keepsLaunches = true := by
  cases e
  case launch => cases h
  all_goals rfl

theorem HasLaunch.tenantCleared {n : Nat} : (Act.tenantCleared s p).Keeps (HasLaunch n) :=
  .block_cons (.only (.read fun _ => .each fun _ _ => .emit rfl)) <|
    .block_cons (.each fun d => .only fun u => (Act.resetDie_resets d u).mono fun _ => Effect.keepsLaunches_resets) <|
    .block_cons (.only fun u => (Act.dropTraffic_ofReport _ u).mono fun _ => Effect.keepsLaunches_ofReport) <|
    .block_cons (.only (.emit rfl)) <| .block_cons (.only (.emit rfl)) .block_nil

/-- A partition without its tenant. -/
structure TenantGone (s : State) (p : Nat) (t : State) : Prop where
  dies : ∀ d ∈ s.partDies p, DieReset d t
  regions : ∀ h r, t.regions.get? h = some r → r.origin.die ∉ s.partDies p
  vault : ∀ e ∈ t.vault, e.part ≠ p
  epoch : t.epochs.get 0 p = s.epochs.get 0 p + 1

theorem DieReset.of_same {d : Nat} {t u : State} (h : DieReset d t) (hcells : u.cells = t.cells)
    (hlots : u.lots = t.lots) (hharts : u.harts = t.harts) (hwipes : u.wipes = t.wipes) : DieReset d u where
  cells := hcells ▸ h.cells
  lots := by rw [State.lotsOf, hlots]; exact h.lots
  harts n hn := by rw [State.hart, hharts]; exact h.harts n hn
  wipeCells := by rw [State.wipeOf, hwipes]; exact h.wipeCells
  wipeHbm := by rw [State.wipeOf, hwipes]; exact h.wipeHbm

theorem TenantGone.of_same {t u : State} (h : TenantGone s p t) (hu : SameTenancy t u) : TenantGone s p u where
  dies d hd := (h.dies d hd).of_same hu.cells hu.lots hu.harts hu.wipes
  regions := hu.regions ▸ h.regions
  vault := hu.vault ▸ h.vault
  epoch := hu.epochs ▸ h.epoch

theorem Act.resetDies_regions (dies : List Nat) (u : State) :
    ((Act.each dies .resetDie).run u).regions = u.regions := by
  have hdie : ∀ d, (Act.resetDie d).Keeps fun t => t.regions = u.regions := fun d =>
    (Act.resetDie_resets d).keepsOf fun t e he ht => by
      cases e
      case region => cases he
      all_goals exact Eq.trans (by simp) ht
  exact (Act.Keeps.each hdie) u rfl

theorem Act.run_tenantCleared (u : State) : (Act.tenantCleared s p).run u =
    (((Act.dropTraffic (s.partDies p)).run ((Act.each (s.partDies p) .resetDie).run
      ((Act.dropRegions (s.partDies p)).run u))).apply (.vault (s.vault.filter fun r => r.part != p))).apply
        (.epoch p (s.epochs.get 0 p + 1)) := rfl

theorem Act.tenantCleared_gone (u : State) : TenantGone s p ((Act.tenantCleared s p).run u) := by
  have hleft := fun h r => Act.dropRegions_leaves (dies := s.partDies p) (u := u) (h := h) (r := r)
  have hreset := fun d hd => Act.resetDies_dieReset (dies := s.partDies p) (d := d) hd
  have hregions := Act.resetDies_regions (s.partDies p)
  have htraffic := (Act.dropTraffic_ofReport (s.partDies p)).sameTenancy
  rw [Act.run_tenantCleared]
  generalize (Act.dropRegions (s.partDies p)).run u = v at hleft ⊢
  generalize hw : (Act.each (s.partDies p) .resetDie).run v = w
  obtain ⟨hcells, hkept, hlots, hharts, hwipes, -, -⟩ := htraffic w
  generalize (Act.dropTraffic (s.partDies p)).run w = x at *
  refine ⟨fun d hd => ?_, fun h r hr => ?_, fun e he => ?_, ?_⟩
  · have hd : DieReset d w := hw ▸ hreset d hd v
    exact hd.of_same hcells hlots hharts hwipes
  · have hw : w.regions = v.regions := hw ▸ hregions v
    have hr : x.regions.get? h = some r := hr
    rw [hkept, hw] at hr
    exact hleft h r hr
  · have he : e ∈ s.vault.filter fun r => r.part != p := he
    exact bne_iff_ne.mp (List.mem_filter.mp he).2
  · rw [State.apply_epoch]
    exact Store.get_put_same _ _ _ _

theorem Act.tenantReports_ofReport : (Act.tenantReports s p).Only Effect.ofReport :=
  .each fun e _ => Act.reportEnd_ofReport e

theorem Act.tenantReports_over {n : Nat} {l : Launch} (hl : s.launches.get? n = some l) (hpart : l.part = p)
    (hst : l.st.accepted = true) {u : State} (hu : HasLaunch n u) : LaunchOver n ((Act.tenantReports s p).run u) := by
  have hmem : (n, l) ∈ s.launches.filter fun e => e.2.part == p && e.2.st.accepted :=
    List.mem_filter.mpr ⟨Store.get?_mem hl, by rw [hst, hpart, beq_self_eq_true]; rfl⟩
  exact LaunchOver.each hmem rfl hu

theorem partitionReset_happens (h : s.mayReset p = true) : Happens s (.partitionReset p) fun t => TenantGone s p t ∧
    ∀ n l, s.launches.get? n = some l → l.part = p → l.st.accepted = true → LaunchOver n t := by
  refine ⟨_, exec_partitionReset h, ?_, fun n l hl hpart hst => ?_⟩
  · exact (Act.tenantCleared_gone _).of_same
      ((Act.tenantReports_ofReport.sameTenancy _).trans (Act.flushAll_ofStore.ofReport.sameTenancy _))
  · have hends := (HasLaunch.discardLogs p (s.partDies p)) _ (HasLaunch.tenantEnds (s := s) (p := p) s ⟨l, hl⟩)
    rw [LaunchOver, Act.flushAll_ofStore.launches_ofStore]
    exact Act.tenantReports_over hl hpart hst (HasLaunch.tenantCleared _ hends)

end

theorem DieReset.cell {t : State} {c : CellId} (h : DieReset c.die t) : t.cells.get {} c = {} := by
  rw [Store.get]
  split
  · rename_i v hv
    exact absurd rfl (h.cells _ (Store.get?_mem hv))
  · rfl

/-- Settles O54: each clause is the lemma about its event. -/
theorem partitionEvents : Obligations.PartitionEvents := by
  intro s
  refine ⟨fun d v hd => ⟨partcfgWrite_written v hd, partcfgWrite_refused v hd⟩,
    fun x p v hx hp => ⟨xpartWrite_written hx hp, xpartWrite_refused hx hp⟩,
    fun d port l hport hl hxt hdone => lrcDone_happens hport hl hxt hdone,
    fun p hp => ?_,
    fun x v hx => ⟨?_, ?_, fun traffic wanted free => ftlGcWindow_happens hx⟩,
    fun d vd v hd hvd => ⟨vdcfgWrite_noQuantum hd hvd, vdcfgWrite_noPartition hd hvd, vdcfgWrite_pending hd hvd,
      vdcfgWrite_written hd hvd⟩,
    fun d vd v hd hvd => ⟨vdasidWrite_written v hd hvd, vdasidWrite_refused v hd hvd⟩,
    fun d i v hd hi => ⟨dmapWrite_written v hd hi, fun hmoves => dmapWrite_kept v hd hi hmoves⟩⟩
  · refine (partitionReset_happens hp).mono fun t ⟨⟨hdies, hregions, hvault, hepoch⟩, hover⟩ =>
      ⟨fun c hc => (hdies _ hc).cell, hregions, hover, fun d hd => ?_, hvault, hepoch⟩
    obtain ⟨-, hlots, hharts, hwipeCells, hwipeHbm⟩ := hdies d hd
    exact ⟨hwipeHbm, hwipeCells, hlots, hharts⟩
  · refine (ftlgcWrite_happens hx v).mono fun t ⟨hframe, hfields⟩ => ⟨?_, hfields⟩
    cases hheld : v.getLsbD 8
    · rwa [hheld] at hframe
    · rw [hheld] at hframe
      exact ⟨hframe.frame, hframe.irq⟩
  · exact (ftlgcHeldClear_happens hx).mono fun t ⟨hheld, hfields⟩ => ⟨⟨hheld.frame, hheld.irq⟩, hfields⟩

end Sys2Proof.Machine
end

section
/-!
A region that freezes while its launch's number stands twice in the launch store (R101, R117, R130).
-/
namespace Sys2Proof.Machine

/-- A launch of VD 0 of partition 0 that is saved and that its policy holds back for good (R117); a subtree of it runs
on module 1. -/
def heldBackLaunch : Launch :=
  { recAddr := 0x40000, reply := 0, issuer := .host 24, part := 0, vd := 0, st := .saved, suspendAfter := true
    outside := [1] }

/-- A region of launch 0 at the origin of die 0, its front on the way; no cell of it is loaded. -/
def settlingRegion : Region := { state := .freezing, launch := some 0, cols := [0], rows := [0] }

/-- Launch 0 is held back; a second entry under its number may be chosen. Partition 0 is die 0, on which VD 0 is
enabled. -/
def savedTwice : State :=
  { State.reset with
    regs := [((0, RegName.partcfg.off), 0x300), ((0, (RegName.dmap 0).off), 0x800000),
      ((0, (RegName.vdcfg 0).off), 0x100000001)]
    regions := [(0, settlingRegion)]
    launches := [(0, heldBackLaunch), (0, { heldBackLaunch with suspendAfter := false })] }

/-- No launch that is found under the region's number freezes or may be chosen. -/
theorem savedTwice_launch {n : Nat} {l : Launch} (hn : settlingRegion.launch = some n)
    (hl : savedTwice.launches.get? n = some l) : l.st ≠ .freezing ∧ l.choosable = false := by
  cases hn
  cases hl
  decide

/-- The front settles, and the selection after it chooses the second entry: as nothing is to be placed, every region of
launch 0 starts, the one just frozen among them. -/
theorem savedTwice_after : ∃ t, exec (.frontSettled 0) savedTwice = .next t ∧
    (t.regions.get? 0).map (·.state) = some .running :=
  ⟨_, rfl, by decide +kernel⟩

/-- Refutes O56: its clause on the settled front admits a launch store that lists a number twice. In `savedTwice` the
region runs again after the event. -/
theorem not_switchesAndRegions : ¬ Obligations.SwitchesAndRegions := by
  intro h
  obtain ⟨-, -, -, -, -, hfront, -⟩ := h savedTwice
  obtain ⟨hfreezes, -⟩ := hfront 0 settlingRegion rfl rfl (by decide) (by decide)
  obtain ⟨t, ht, ⟨r, hr, hfrozen, -⟩, -⟩ := hfreezes nofun rfl nofun fun _ _ => savedTwice_launch
  obtain ⟨u, hu, hruns⟩ := savedTwice_after
  cases ht.symm.trans hu
  rw [hr, Option.map_some, hfrozen] at hruns
  exact absurd hruns (by decide)

end Sys2Proof.Machine
end

section
/-!
SUPPORT. What selection and the start of a launch keep (R100-R110, R121). Launches that it does not choose are changed
in few ways, regions only where they are of a launch or new, and dispatchers keep the summaries that they hold.
-/
namespace Sys2Proof.Machine

/-! ### What becomes of a launch -/

/-- The launch keeps its record, its place in the queue and its class, and is not to be issued again. -/
structure Launch.SameRecord (l m : Launch) : Prop where
  copy : m.copy = l.copy
  vd : m.vd = l.vd
  seq : m.seq = l.seq
  cls : m.cls = l.cls
  waitSince : m.waitSince = l.waitSince
  issued : l.st ≠ .issued → m.st ≠ .issued

/-- None of its teams that has retired comes back. -/
def Launch.SameRetired (l m : Launch) : Prop := ∀ j ∈ m.insts, ∃ i ∈ l.insts, j.n = i.n ∧ j.retired = i.retired

theorem Launch.SameRetired.of_insts {l m : Launch} (h : m.insts = l.insts) : l.SameRetired m :=
  fun j hj => ⟨j, h ▸ hj, rfl, rfl⟩

/-- What may become of a launch that is not chosen. -/
structure Launch.Unchosen (l m : Launch) : Prop extends l.SameRecord m where
  blocked : l.choosable = false → m.choosable = false
  retired : l.SameRetired m

/-- One of its teams stands in another region. -/
def Launch.handed (inst : Nat) (h : Word) (l : Launch) : Launch :=
  { l with insts := l.insts.map fun i => if i.n = inst then { i with handle := some h } else i }

theorem Launch.handed_retired (l : Launch) (inst : Nat) (h : Word) : l.SameRetired (l.handed inst h) := fun j hj => by
  obtain ⟨i, hi, rfl⟩ := List.mem_map.mp hj
  refine ⟨i, hi, ?_⟩
  split <;> exact ⟨rfl, rfl⟩

theorem Launch.not_choosable_of_st {l : Launch} (hq : l.st ≠ .queued) (hs : l.st ≠ .saved) : l.choosable = false := by
  rw [Launch.choosable, beq_false_of_ne hq, beq_false_of_ne hs, Bool.false_and, Bool.or_false, Bool.and_false]

theorem Launch.finish_sameRecord (l : Launch) (status : Nat) : l.SameRecord (l.finish status) := by
  unfold Launch.finish
  split
  · exact ⟨rfl, rfl, rfl, rfl, rfl, id⟩
  · exact ⟨rfl, rfl, rfl, rfl, rfl, fun _ => nofun⟩

theorem Launch.finish_not_choosable (l : Launch) (status : Nat) : (l.finish status).choosable = false := by
  unfold Launch.finish
  split
  · rename_i hst
    exact not_choosable_of_st (by rw [hst]; decide) (by rw [hst]; decide)
  · exact not_choosable_of_st nofun nofun

theorem Launch.finish_insts (l : Launch) (status : Nat) : (l.finish status).insts = l.insts := by
  unfold Launch.finish
  split <;> rfl

theorem Launch.finish_unchosen (l : Launch) (status : Nat) : l.Unchosen (l.finish status) where
  toSameRecord := l.finish_sameRecord status
  blocked _ := l.finish_not_choosable status
  retired := .of_insts (l.finish_insts status)

/-! ### Selection looks at summaries and leaves them -/

theorem Dispatcher.foldl_setDef_summaries (c : Nat) (x : Dispatcher → Nat → Int) (vs : List Nat) : ∀ d : Dispatcher,
    (vs.foldl (fun d v => d.setDef c v (x d v)) d).summaries = d.summaries := by
  induction vs with
  | nil => exact fun _ => rfl
  | cons v rest ih => exact fun d => ih _

-- The unifier walks through the 1,024 numbers of `fromPtr`.
set_option maxRecDepth 2048 in
theorem deficitRound_succ (weight : Nat → Nat) (c : Nat) (vs : List Nat) (k : Nat) (d : Dispatcher) :
    deficitRound weight c vs (k + 1) d =
      match (fromPtr (d.ptr.get 0 c) vs).find? fun v => decide (0 < d.def_ c v) with
      | some v => some (v, { d with ptr := d.ptr.put c v })
      | none => deficitRound weight c vs k (vs.foldl (fun d v => d.setDef c v (d.def_ c v + weight v * 4)) d) := rfl

theorem deficitRound_summaries {weight : Nat → Nat} {c : Nat} {vs : List Nat} {v : Nat} {d' : Dispatcher} :
    ∀ {k : Nat} {d : Dispatcher}, deficitRound weight c vs k d = some (v, d') → d'.summaries = d.summaries := by
  intro k
  induction k with
  | zero =>
    intro d h
    cases h
  | succ k ih =>
    intro d h
    rw [deficitRound_succ] at h
    split at h
    · cases h
      rfl
    · exact (ih h).trans (d.foldl_setDef_summaries c (fun d v => d.def_ c v + weight v * 4) vs)

theorem State.selectFrom_summaries {s : State} {p : Nat} {cands : List (Nat × Launch)} {elsewhere : Bool}
    {d d' : Dispatcher} {n : Nat} :
    ∀ {k : Nat}, s.selectFrom p cands elsewhere d k = some (n, d') → d'.summaries = d.summaries := by
  intro k
  induction k with
  | zero => exact nofun
  | succ k ih =>
    intro h
    rw [State.selectFrom] at h
    split at h
    · split at h
      · obtain ⟨_, _, heq⟩ := Option.map_eq_some_iff.mp h
        cases heq
        rfl
      · exact ih h
    · split at h
      · rename_i hround
        obtain ⟨_, _, heq⟩ := Option.map_eq_some_iff.mp h
        cases heq
        have hsame := deficitRound_summaries hround
        exact hsame
      · cases h

/-! ### New regions get handles that name none -/

theorem State.freeEntry_unused {s : State} {die : Nat} {w : Word} (h : s.freeEntry die = some w) :
    s.regions.get? w = none := by
  obtain ⟨_, _, _, _, hi, _⟩ := List.findSome?_eq_some_iff.mp h
  dsimp only at hi
  split at hi
  · rename_i hnone
    cases hi
    exact Option.isNone_iff_eq_none.mp hnone
  · cases hi

theorem State.planInst_unused {s : State} {n : Nat} {l : Launch} {inits : List (Nat × Nat × Cell)} {inst : Nat}
    {p : Planned} (h : s.planInst n l inits inst = some p) : s.regions.get? p.w = none := by
  unfold State.planInst at h
  dsimp only at h
  split at h
  · split at h
    · obtain ⟨w, hw, rfl⟩ := Option.map_eq_some_iff.mp h
      exact freeEntry_unused hw
    · cases h
  · split at h
    · obtain ⟨w, hw, rfl⟩ := Option.map_eq_some_iff.mp h
      exact freeEntry_unused hw
    · cases h

theorem State.planSaved_unused {s : State} {n : Nat} {l : Launch} {inst : Nat} {p : Planned}
    (h : s.planSaved n l inst = some p) : s.regions.get? p.w = none := by
  unfold State.planSaved at h
  split at h
  · cases h
  · dsimp only at h
    split at h
    · obtain ⟨w, hw, rfl⟩ := Option.map_eq_some_iff.mp h
      exact freeEntry_unused hw
    · cases h

theorem State.planAll_unused {n : Nat} {l : Launch} {inits : List (Nat × Nat × Cell)} {ks : List Nat} :
    ∀ {s : State} {ps : List Planned}, State.planAll n l inits s ks = some ps → ∀ p ∈ ps, s.regions.get? p.w = none := by
  induction ks with
  | nil =>
    intro s ps h
    cases h
    exact fun _ hp => absurd hp List.not_mem_nil
  | cons k rest ih =>
    intro s ps h
    rw [State.planAll] at h
    split at h
    · cases h
    · rename_i q hq
      obtain ⟨qs, hqs, rfl⟩ := Option.map_eq_some_iff.mp h
      refine List.forall_mem_cons.mpr ⟨?_, fun p hp => ?_⟩
      · split at hq
        · exact planSaved_unused hq
        · exact planInst_unused hq
      · have hlater : (s.regions.put q.w q.r).get? p.w = none := ih hqs p hp
        rw [Store.get?_put] at hlater
        split at hlater
        · cases hlater
        · exact hlater

theorem Store.get?_append_left {K V : Type} [DecidableEq K] {a b : Store K V} {k : K}
    (h : Store.get? (a ++ b) k = none) : a.get? k = none := by
  induction a with
  | nil => rfl
  | cons e r ih =>
    obtain ⟨k', v⟩ := e
    by_cases hk : k' = k
    · rw [List.cons_append, Store.get?, if_pos hk] at h
      cases h
    · rw [List.cons_append, Store.get?, if_neg hk] at h
      rw [Store.get?, if_neg hk]
      exact ih h

theorem State.plan_unused {s : State} {n : Nat} {l : Launch} {ps : List Planned} (h : s.plan n l = some ps)
    {p : Planned} (hp : p ∈ ps) : s.regions.get? p.w = none := Store.get?_append_left (State.planAll_unused h p hp)

/-! ### Properties that selection keeps -/

/-- The effects of selection beside those on launches, regions and dispatchers. -/
def Effect.ofSelection : Effect → Bool
  | .nextId _ | .reqs _ | .cell _ _ | .node _ _ | .lots _ _ | .power _ | .save _ _ none | .out _ => true
  | _ => false

/-- What a property leaves to selection: launches that it may start, launches that it may change where they are queued
or suspended, and regions that it may rewrite. -/
structure Freedom where
  start : Nat → Prop
  change : Nat → Prop
  region : Word → Prop

/-- A property of states that each change of selection within a freedom keeps, and that grants the freedom to the
launches and regions that selection turns to. -/
structure KeptBySelection (free : Freedom) (P : State → Prop) : Prop where
  plain : ∀ (s : State) (e : Effect), e.ofSelection = true → P s → P (s.apply e)
  dispatcher : ∀ (s : State) (die : Nat) (d : Dispatcher), d.summaries = (s.dispatchers.get {} die).summaries → P s →
    P (s.apply (.dispatcher die d))
  handed : ∀ (s : State) (n : Nat) (l : Launch) (inst : Nat) (h : Word), s.launches.get? n = some l → l.st ≠ .complete →
    P s → P (s.apply (.launch n (some (l.handed inst h))))
  change : ∀ (s : State) (n : Nat) (l m : Launch), free.change n → s.launches.get? n = some l → l.Unchosen m → P s →
    P (s.apply (.launch n (some m)))
  start : ∀ (s : State) (n : Nat) (l m : Launch), free.start n → s.launches.get? n = some l → l.SameRecord m → P s →
    P (s.apply (.launch n (some m)))
  region : ∀ (s : State) (h : Word) (r : Region), free.region h → P s → P (s.apply (.region h (some r)))
  given : ∀ (s : State) (h : Word) (r : Region) (g : List Given), s.regions.get? h = some r → P s →
    P (s.apply (.region h (some { r with given := g })))
  changeable : ∀ (s : State) (n : Nat) (l : Launch), P s → (n, l) ∈ s.launches → l.st = .queued ∨ l.st = .suspended →
    free.change n
  startable : ∀ (s : State) (n : Nat) (l : Launch), P s → (n, l) ∈ s.launches → l.choosable = true → free.start n
  ofLaunch : ∀ (s : State) (h : Word) (r : Region), P s → (h, r) ∈ s.regions → r.launch ≠ none → free.region h
  unused : ∀ (s : State) (h : Word), P s → s.regions.get? h = none → free.region h

/-- A block whose first act keeps what its rest begins with. -/
theorem Act.Keeps.block_then {P Q : State → Prop} {a : Act} {r : List Act} (ha : a.Keeps Q)
    (hr : ∀ s, Q s → P ((Act.block r).run s)) : ∀ s, Q s → P ((Act.block (a :: r)).run s) := fun s hs => hr _ (ha s hs)

namespace KeptBySelection

section
variable {free : Freedom} {P : State → Prop} (hk : KeptBySelection free P)
include hk

/-! Single changes -/

theorem emit {e : Effect} (h : e.ofSelection = true) : (Act.emit e).Keeps P := fun s hs => hk.plain s e h hs

theorem only {a : Act} (h : a.Only Effect.ofSelection) : a.Keeps P := h.keepsOf hk.plain

theorem onDispatcher (die : Nat) {f : Dispatcher → Dispatcher} (hf : ∀ d, (f d).summaries = d.summaries) :
    (Act.onDispatcher die f).Keeps P := fun s hs => hk.dispatcher s die _ (hf _) hs

theorem onRegion {h : Word} (hh : free.region h) (f : Region → Region) : (Act.onRegion h f).Keeps P := .read fun _ => by
  split
  · exact fun s hs => hk.region s h _ hh hs
  · exact .skip

theorem onGiven (h : Word) (g : Region → List Given) : (Act.onRegion h fun r => { r with given := g r }).Keeps P :=
  fun s hs => by
    rw [Act.onRegion, Act.run_read]
    split
    · exact hk.given s h _ _ ‹_› hs
    · exact hs

theorem startLaunch {n : Nat} (hn : free.start n) {f : Launch → Launch} (hf : ∀ l : Launch, l.SameRecord (f l)) :
    (Act.onLaunch n f).Keeps P := fun s hs => by
  rw [Act.onLaunch, Act.run_read]
  split
  · exact hk.start s n _ _ hn ‹_› (hf _) hs
  · exact hs

theorem changeLaunch {n : Nat} (hn : free.change n) {f : Launch → Launch} {s : State}
    (hf : ∀ l, s.launches.get? n = some l → l.Unchosen (f l)) (hs : P s) : P ((Act.onLaunch n f).run s) := by
  rw [Act.onLaunch, Act.run_read]
  split
  · exact hk.change s n _ _ hn ‹_› (hf _ ‹_›) hs
  · exact hs

theorem onHanded {s : State} {n : Nat} {l : Launch} (inst : Nat) (h : Word) (hl : s.launches.get? n = some l)
    (hst : ¬ l.st = .complete) (hs : P s) : P ((Act.onLaunch n (Launch.handed inst h)).run s) := by
  rw [Act.run_onLaunch_some _ _ _ hl]
  exact hk.handed s n l inst h hl hst hs

/-! Regions started, restored and resumed -/

theorem dropWarm (q : Rect) : (Act.dropWarm q).Keeps P :=
  .read fun _ => .each fun _ => .when (hk.onDispatcher _ fun _ => rfl)

theorem deliverHeld (h : Word) : (Act.deliverHeld h).Keeps P := .read fun _ => by
  split
  · exact .skip
  · split
    · exact .each fun _ => .read fun _ => .when <| .block_cons (hk.onDispatcher _ fun _ => rfl) <|
        .block_cons (.each fun _ => .block_cons (.read fun _ => hk.emit rfl) <|
          .block_cons (hk.onGiven _ _) .block_nil) .block_nil
    · exact .skip

theorem takeLots (die n : Nat) : (Act.takeLots die n).Keeps P := .read fun _ => by
  split
  · exact hk.emit rfl
  · exact .skip

theorem startInstance {h : Word} (hh : free.region h) (scal : List Byte) : (Act.startInstance h scal).Keeps P :=
  .read fun _ => by
    split
    · exact .skip
    · exact .block_cons (.each fun _ => hk.takeLots _ _) <|
        .block_cons (.each fun _ => .read fun _ => hk.emit rfl) <|
        .block_cons (.read fun _ => hk.emit rfl) <|
        .block_cons (fun s hs => hk.region s h _ hh hs) <| .block_cons (hk.deliverHeld _) .block_nil

theorem sendAgain (c : CellId) (p : Nat) (q : Req) : (Act.sendAgain c p q).Keeps P :=
  .read fun _ => .seq (.read fun _ => hk.emit rfl) (.read fun _ => .read fun _ => hk.emit rfl)

theorem reissue (id : Nat) : (Act.reissue id).Keeps P := .read fun _ => by
  split
  · exact .skip
  · split
    · exact .skip
    · exact hk.sendAgain _ _ _

theorem releaseWaiting : Act.releaseWaiting.Keeps P := .read fun _ => .each fun _ => by
  split
  · exact hk.sendAgain _ _ _
  · exact .skip

theorem newSlice {n : Nat} (hn : free.change n) : (Act.newSlice n).Keeps P := .read fun _ => by
  split
  · exact .skip
  · refine .block_cons (.when (hk.onDispatcher _ fun _ => rfl)) <| .block_cons (fun s hs => ?_) .block_nil
    exact hk.changeLaunch hn (fun l _ => ⟨⟨rfl, rfl, rfl, rfl, rfl, id⟩, id, .of_insts rfl⟩) hs

/-- A suspended launch goes on with a further slice. -/
theorem runOn (n : Nat) : (Act.read fun s => .when ((s.launches.get? n).any fun l => l.st == .suspended)
    ((Act.onLaunch n fun l => { l with st := if l.seamAt.isSome then .freezing else .running }).seq
      (.newSlice n))).Keeps P := fun s hs => by
  rw [Act.run_read, Act.run_when]
  split
  · rename_i hany
    obtain ⟨l, hl, hst⟩ := (Option.any_eq_true _ _).mp hany
    have hn : free.change n := hk.changeable s n l hs (Store.get?_mem hl) (.inr (eq_of_beq hst))
    refine hk.newSlice hn _ (hk.changeLaunch hn (fun l _ => ?_) hs)
    split
    · exact ⟨⟨rfl, rfl, rfl, rfl, rfl, fun _ => nofun⟩, fun _ => Launch.not_choosable_of_st nofun nofun, .of_insts rfl⟩
    · exact ⟨⟨rfl, rfl, rfl, rfl, rfl, fun _ => nofun⟩, fun _ => Launch.not_choosable_of_st nofun nofun, .of_insts rfl⟩
  · exact hs

theorem resume {h : Word} (hh : free.region h) (step : Bool) : (Act.resume h step).Keeps P := .read fun _ => by
  split
  · exact .skip
  · refine .block_cons (hk.onRegion hh _) <|
      .block_cons (.each fun _ => .read fun _ => hk.emit rfl) <|
      .block_cons (.each fun _ => .seq (.when (.read fun _ => hk.emit rfl)) (hk.reissue _)) <|
      .block_cons (hk.deliverHeld _) <| .block_cons hk.releaseWaiting <| .block_cons ?_ .block_nil
    split
    · exact .skip
    · exact fun s hs => by
        rw [Act.run_read, Act.run_when]
        split
        · exact hk.runOn _ s hs
        · exact hs

theorem restoreInto {h : Word} (hh : free.region h) (x : Snapshot) : (Act.restoreInto h x).Keeps P := fun s hs => by
  rw [Act.restoreInto, Act.run_read]
  split
  · exact hs
  · have hquiet : ∀ {a : Act}, a.Keeps P → a.Only Effect.offVf →
        a.Keeps fun t => P t ∧ t.launches = s.launches := fun ha ho t ht =>
      ⟨ha t ht.1, ho.keepsOf (P := fun t => t.launches = s.launches)
        (fun u e he hu => (u.launches_apply_offVf he).trans hu) t ht.2⟩
    refine Act.Keeps.block_then (hquiet (hk.emit rfl) (.emit rfl)) (Act.Keeps.block_then
      (hquiet (.each fun _ => hk.takeLots _ _) (.each fun _ _ => Act.takeLots_offVf _ _)) <| Act.Keeps.block_then
      (hquiet (.each fun _ => .read fun _ => hk.emit rfl) (.each fun _ _ => .read fun _ => .emit rfl)) <|
      Act.Keeps.block_then (hquiet (fun t ht => hk.region t h _ hh ht) (.emit rfl)) <|
      Act.Keeps.block_then (hquiet (.read fun _ => hk.emit rfl) (.read fun _ => .emit rfl)) fun t ⟨ht, hsame⟩ => ?_)
      s ⟨hs, rfl⟩
    rw [Act.run_block_cons, Act.run_block_nil]
    split
    · rename_i n hn
      split at hn
      · split at hn
        · rename_i l hl
          split at hn
          · cases hn
          · cases hn
            exact hk.onHanded x.region.inst h ((congrArg (Store.get? · n) hsame).trans hl) ‹_› ht
        · cases hn
      · cases hn
    · exact ht

theorem toRunning {n : Nat} (hn : free.start n) : (Act.toRunning n).Keeps P :=
  .read fun _ => hk.startLaunch hn fun _ => ⟨rfl, rfl, rfl, rfl, rfl, fun _ h => by cases h⟩

/-- Every region of a launch that may be started starts, or is restored and goes on. -/
theorem startPlaced {n : Nat} (hn : free.start n) : (Act.startPlaced n).Keeps P := fun s hs => by
  rw [Act.startPlaced, Act.run_read]
  split
  · exact hs
  · dsimp only
    split
    · exact Act.Keeps.each (fun _ => .read fun _ => hk.emit rfl) s hs
    · split
      · exact Act.Keeps.each (fun _ => .read fun _ => .when (hk.emit rfl)) s hs
      · refine Act.Keeps.block_cons (P := P) (.each_mem fun e he => ?_)
          (.block_cons (hk.toRunning hn) .block_nil) s hs
        obtain ⟨hmem, hlaunch⟩ := List.mem_filter.mp he
        have hh : free.region e.1 := hk.ofLaunch s e.1 e.2 hs hmem (by rw [eq_of_beq hlaunch]; nofun)
        split
        · exact .block_cons (hk.restoreInto hh _) <| .block_cons (hk.emit rfl) <|
            .block_cons (hk.resume hh _) .block_nil
        · exact hk.startInstance hh _

theorem finish {n : Nat} (hn : free.start n) (status : Nat) : (Act.onLaunch n fun l => l.finish status).Keeps P :=
  hk.startLaunch hn fun l => l.finish_sameRecord status

theorem sendSubtrees (n : Nat) (l : Launch) (masked : List Nat) : (Act.sendSubtrees n l masked).Keeps P :=
  .read fun _ => .each fun _ => .read fun _ => .when (hk.emit rfl)

theorem beginLaunch {n : Nat} (hn : free.start n) : (Act.beginLaunch n).Keeps P := fun s hs => by
  rw [Act.beginLaunch, Act.run_read]
  split
  · exact hs
  · split
    · exact hk.finish hn _ s hs
    · split
      · exact hk.finish hn _ s hs
      · split
        · exact hs
        · rename_i ps hplan
          have hnew : ∀ p ∈ ps, free.region p.w := fun p hp => hk.unused s p.w hs (State.plan_unused hplan hp)
          refine Act.Keeps.block_cons (P := P) ?_ (.block_cons ?_ (.block_cons ?_ (.block_cons ?_ .block_nil))) s hs
          · exact hk.startLaunch hn fun _ => ⟨rfl, rfl, rfl, rfl, rfl, fun _ h => by cases h⟩
          · exact .each_mem fun p hp => .fresh (fun _ => hk.emit rfl) fun _ =>
              .seq (hk.dropWarm _) fun u hu => hk.region u p.w _ (hnew p hp) hu
          · exact .when (hk.sendSubtrees _ _ _)
          · exact .ite (hk.startLaunch hn fun l => l.finish_sameRecord _) (.when (hk.startPlaced hn))

/-! Selection -/

theorem poisonWaits (p : Nat) : (Act.poisonWaits p).Keeps P := fun s hs => by
  rw [Act.poisonWaits, Act.run_read]
  refine Act.Keeps.each_mem (P := P) (fun e he => ?_) s hs
  obtain ⟨hmem, hwaits⟩ := List.mem_filter.mp he
  simp only [Bool.and_eq_true] at hwaits
  have hn : free.change e.1 := hk.changeable s e.1 e.2 hs hmem (.inl (eq_of_beq hwaits.1.1.2))
  exact fun u hu => hk.changeLaunch hn (fun l _ => l.finish_unchosen _) hu

theorem selectOnce (p die : Nat) : (Act.selectOnce p die).Keeps P := fun s hs => by
  rw [Act.selectOnce, Act.run_read]
  dsimp only
  split
  · exact hk.dispatcher s die _ rfl hs
  · rename_i n d' hsel
    obtain ⟨l, hl⟩ := State.selectFrom_mem hsel
    obtain ⟨hmem, hchoose⟩ := State.eligibleAt_choosable hl
    have hn : free.start n := hk.startable s n l hs hmem hchoose
    refine Act.Keeps.after_head (hk.dispatcher s die _ ?_ hs) (.block_cons ?_ (.block_cons (hk.beginLaunch hn) .block_nil))
    · exact (State.selectFrom_summaries hsel).trans rfl
    · exact hk.startLaunch hn fun _ => ⟨rfl, rfl, rfl, rfl, rfl, id⟩

theorem selectTimes (p die : Nat) : ∀ k, (Act.selectTimes p die k).Keeps P
  | 0 => .skip
  | k + 1 => .seq (hk.selectOnce p die) (selectTimes p die k)

theorem select (p : Nat) : (Act.select p).Keeps P :=
  .seq (hk.poisonWaits p) <| .read fun _ => .each fun _ => .read fun _ => hk.selectTimes _ _ _

end

end KeptBySelection

end Sys2Proof.Machine
end

section
/-!
SUPPORT. Properties that selection keeps: of a launch by its number, of one that cannot be chosen, of a region without a
launch, and of the parts of the state that selection does not touch.
-/
namespace Sys2Proof.Machine

theorem Effect.offVf_ofSelection {e : Effect} (h : e.ofSelection = true) : e.offVf = true := by
  cases e
  case launch => cases h
  case xdie => cases h
  case reg => cases h
  case regsClear => cases h
  all_goals rfl

theorem State.regions_apply_ofSelection (s : State) {e : Effect} (h : e.ofSelection = true) :
    (s.apply e).regions = s.regions := by
  cases e
  case region => cases h
  all_goals simp

/-- Selection may start and change every launch and rewrite every region. -/
def Freedom.full : Freedom := ⟨fun _ => True, fun _ => True, fun _ => True⟩

/-! ### A launch by its number -/

/-- I holds of the launch of a number. -/
def LaunchWith (n : Nat) (I : Launch → Prop) (t : State) : Prop := ∃ l, t.launches.get? n = some l ∧ I l

section
variable {n : Nat} {I : Launch → Prop} {s t : State}

theorem LaunchWith.of_launches (h : LaunchWith n I s) (ht : t.launches = s.launches) : LaunchWith n I t := by
  rwa [LaunchWith, ht]

theorem LaunchWith.mono {J : Launch → Prop} (h : LaunchWith n I s) (hIJ : ∀ l, I l → J l) : LaunchWith n J s := by
  obtain ⟨l, hl, hI⟩ := h
  exact ⟨l, hl, hIJ l hI⟩

theorem LaunchWith.put (h : LaunchWith n I s) {k : Nat} {m : Launch} (hm : k = n → I m) :
    LaunchWith n I (s.apply (.launch k (some m))) := by
  obtain ⟨l, hl, hI⟩ := h
  rw [LaunchWith, State.apply_launch_some, Store.get?_put]
  split
  · exact ⟨m, rfl, hm (Eq.symm ‹_›)⟩
  · exact ⟨l, hl, hI⟩

/-- What holds of a launch for good, by its record. -/
theorem LaunchWith.kept (hI : ∀ l m : Launch, I l → l.SameRecord m → I m) :
    KeptBySelection .full (LaunchWith n I) := by
  have hput : ∀ (s : State) (k : Nat) (l m : Launch), s.launches.get? k = some l → l.SameRecord m → LaunchWith n I s →
      LaunchWith n I (s.apply (.launch k (some m))) := fun s k l m hl hm h => h.put fun hk => by
    obtain ⟨l', hl', hIl⟩ := h
    cases (hk ▸ hl).symm.trans hl'
    exact hI l m hIl hm
  exact {
    plain := fun s e he h => h.of_launches (s.launches_apply_offVf (Effect.offVf_ofSelection he))
    dispatcher := fun _ _ _ _ h => h
    handed := fun s k l inst w hl _ h => hput s k l _ hl ⟨rfl, rfl, rfl, rfl, rfl, id⟩ h
    change := fun s k l m _ hl hm h => hput s k l m hl hm.toSameRecord h
    start := fun s k l m _ hl hm h => hput s k l m hl hm h
    region := fun _ _ _ _ h => h
    given := fun _ _ _ _ _ h => h
    changeable := fun _ _ _ _ _ _ => trivial
    startable := fun _ _ _ _ _ _ => trivial
    ofLaunch := fun _ _ _ _ _ _ => trivial
    unused := fun _ _ _ _ => trivial }

/-- The launch is alone under its number, and I holds of it. -/
def LaunchAlone (n : Nat) (I : Launch → Prop) (t : State) : Prop :=
  ∃ l, t.launches.get? n = some l ∧ (∀ e ∈ t.launches, e.1 = n → e.2 = l) ∧ I l

theorem LaunchAlone.with (h : LaunchAlone n I s) : LaunchWith n I s := by
  obtain ⟨l, hl, -, hI⟩ := h
  exact ⟨l, hl, hI⟩

theorem LaunchAlone.of_launches (h : LaunchAlone n I s) (ht : t.launches = s.launches) : LaunchAlone n I t := by
  rwa [LaunchAlone, ht]

/-- A launch that is written is alone from then on. -/
theorem LaunchAlone.of_put (s : State) {m : Launch} (hm : I m) : LaunchAlone n I (s.apply (.launch n (some m))) := by
  rw [LaunchAlone, State.apply_launch_some]
  exact ⟨m, Store.get?_put_same _ _ _, fun e he hen => Store.mem_put_same he hen, hm⟩

theorem LaunchAlone.put (h : LaunchAlone n I s) {k : Nat} {m : Launch}
    (hm : ∀ l, k = n → s.launches.get? n = some l → I l → I m) : LaunchAlone n I (s.apply (.launch k (some m))) := by
  obtain ⟨l, hl, halone, hI⟩ := h
  by_cases hk : k = n
  · subst hk
    exact .of_put s (hm l rfl hl hI)
  · rw [LaunchAlone, State.apply_launch_some]
    refine ⟨l, (Store.get?_put_ne _ _ (Ne.symm hk)).trans hl, fun e he hen => ?_, hI⟩
    rcases Store.mem_put he with rfl | he
    · exact absurd hen hk
    · exact halone e he hen

theorem LaunchAlone.mono {J : Launch → Prop} (h : LaunchAlone n I s) (hIJ : ∀ l, I l → J l) : LaunchAlone n J s := by
  obtain ⟨l, hl, halone, hI⟩ := h
  exact ⟨l, hl, halone, hIJ l hI⟩

theorem LaunchAlone.onLaunch (h : LaunchAlone n I s) (k : Nat) {f : Launch → Launch} (hf : ∀ l, k = n → I l → I (f l)) :
    LaunchAlone n I ((Act.onLaunch k f).run s) := by
  rw [Act.onLaunch, Act.run_read]
  split
  · rename_i l hl
    refine h.put fun l' hk hl' hI => ?_
    cases (hk ▸ hl).symm.trans hl'
    exact hf l hk hI
  · exact h

/-- What holds of a launch that cannot be chosen, and survives what else may become of it. -/
theorem LaunchAlone.kept (hhanded : ∀ l inst h, I l → l.st ≠ .complete → I (l.handed inst h))
    (hblocked : ∀ l, I l → l.choosable = false)
    (hchange : ∀ l, I l → l.st = .queued ∨ l.st = .suspended → ∀ l m : Launch, I l → l.Unchosen m → I m) :
    KeptBySelection ⟨(· ≠ n), fun k => k = n → ∀ l m : Launch, I l → l.Unchosen m → I m, fun _ => True⟩
      (LaunchAlone n I) where
  plain s e he h := h.of_launches (s.launches_apply_offVf (Effect.offVf_ofSelection he))
  dispatcher _ _ _ _ h := h
  handed s k l inst w hl hst h := h.put fun l' hk hl' hI => by
    cases (hk ▸ hl).symm.trans hl'
    exact hhanded l inst w hI hst
  change s k l m hfree hl hm h := h.put fun l' hk hl' hI => by
    cases (hk ▸ hl).symm.trans hl'
    exact hfree hk l m hI hm
  start s k l m hfree _ _ h := h.put fun _ hk => absurd hk hfree
  region _ _ _ _ h := h
  given _ _ _ _ _ h := h
  changeable s k l h hmem hst hk := by
    obtain ⟨l', -, halone, hI⟩ := h
    cases halone _ hmem hk
    exact hchange l hI hst
  startable s k l h hmem hchoose hk := by
    obtain ⟨l', -, halone, hI⟩ := h
    cases halone _ hmem hk
    rw [hblocked l hI] at hchoose
    cases hchoose
  ofLaunch _ _ _ _ _ _ := trivial
  unused _ _ _ _ := trivial

/-- A launch that is neither queued nor suspended nor to be chosen keeps, but for the handles of its teams, what
holds of it. -/
theorem LaunchAlone.select (hhanded : ∀ l inst h, I l → l.st ≠ .complete → I (l.handed inst h))
    (hst : ∀ l, I l → l.st ≠ .queued ∧ l.st ≠ .saved ∧ l.st ≠ .suspended) (p : Nat) :
    (Act.select p).Keeps (LaunchAlone n I) :=
  (LaunchAlone.kept hhanded (fun l hI => Launch.not_choosable_of_st (hst l hI).1 (hst l hI).2.1)
    fun l hI hover => (hover.elim (hst l hI).1 (hst l hI).2.2).elim).select p

end

/-! ### What selection does not touch -/

/-- Time, harts and timelines are as they were, dispatchers hold the same summaries, and no message is taken back. -/
structure SelectedFrom (s t : State) : Prop where
  cycle : t.cycle = s.cycle
  harts : t.harts = s.harts
  copies : t.copies = s.copies
  summaries : ∀ k, (t.dispatchers.get {} k).summaries = (s.dispatchers.get {} k).summaries
  outbox : s.outbox ⊆ t.outbox

theorem SelectedFrom.refl (s : State) : SelectedFrom s s := ⟨rfl, rfl, rfl, fun _ => rfl, fun _ h => h⟩

theorem SelectedFrom.kept (s : State) : KeptBySelection .full (SelectedFrom s) where
  plain t e he h := by
    cases e
    case out m => exact ⟨h.cycle, h.harts, h.copies, h.summaries, fun _ hm => List.mem_append_left _ (h.outbox hm)⟩
    case nextId | reqs | cell | node | lots | power | save => exact ⟨h.cycle, h.harts, h.copies, h.summaries, h.outbox⟩
    all_goals cases he
  dispatcher t die d hd h := ⟨h.cycle, h.harts, h.copies, fun k => by
    rw [← h.summaries k, State.apply_dispatcher, Store.get_put]
    split
    · rename_i hk
      rw [hk]
      exact hd
    · rfl, h.outbox⟩
  handed _ _ _ _ _ _ _ h := ⟨h.cycle, h.harts, h.copies, h.summaries, h.outbox⟩
  change _ _ _ _ _ _ _ h := ⟨h.cycle, h.harts, h.copies, h.summaries, h.outbox⟩
  start _ _ _ _ _ _ _ h := ⟨h.cycle, h.harts, h.copies, h.summaries, h.outbox⟩
  region _ _ _ _ h := ⟨h.cycle, h.harts, h.copies, h.summaries, h.outbox⟩
  given _ _ _ _ _ h := ⟨h.cycle, h.harts, h.copies, h.summaries, h.outbox⟩
  changeable _ _ _ _ _ _ := trivial
  startable _ _ _ _ _ _ := trivial
  ofLaunch _ _ _ _ _ _ := trivial
  unused _ _ _ _ := trivial

theorem Act.select_selectedFrom (p : Nat) (s : State) : SelectedFrom s ((Act.select p).run s) :=
  (SelectedFrom.kept s).select p s (.refl s)

/-! ### A region without a launch -/

/-- The region of a handle is alone under it, without a launch, and retired. -/
def StandaloneRetired (h : Word) (t : State) : Prop :=
  ∃ r, t.regions.get? h = some r ∧ (∀ e ∈ t.regions, e.1 = h → e.2 = r) ∧ r.launch = none ∧ r.state = .retired

section
variable {h : Word} {s t : State}

theorem StandaloneRetired.of_regions (hs : StandaloneRetired h s) (ht : t.regions = s.regions) : StandaloneRetired h t := by
  rwa [StandaloneRetired, ht]

theorem StandaloneRetired.of_put (s : State) {r : Region} (hl : r.launch = none) (hst : r.state = .retired) :
    StandaloneRetired h (s.apply (.region h (some r))) := by
  rw [StandaloneRetired, State.apply_region_some]
  exact ⟨r, Store.get?_put_same _ _ _, fun e he heh => Store.mem_put_same he heh, hl, hst⟩

theorem StandaloneRetired.put_ne (hs : StandaloneRetired h s) {k : Word} (hk : k ≠ h) (r : Region) :
    StandaloneRetired h (s.apply (.region k (some r))) := by
  obtain ⟨v, hv, halone, hgood⟩ := hs
  rw [StandaloneRetired, State.apply_region_some]
  refine ⟨v, (Store.get?_put_ne _ _ hk.symm).trans hv, fun e he heh => ?_, hgood⟩
  rcases Store.mem_put he with rfl | he
  · exact absurd heh hk
  · exact halone e he heh

theorem StandaloneRetired.kept : KeptBySelection ⟨fun _ => True, fun _ => True, (· ≠ h)⟩ (StandaloneRetired h) where
  plain s e he hs := hs.of_regions (s.regions_apply_ofSelection he)
  dispatcher _ _ _ _ hs := hs
  handed _ _ _ _ _ _ _ hs := hs
  change _ _ _ _ _ _ _ hs := hs
  start _ _ _ _ _ _ _ hs := hs
  region _ _ r hk hs := hs.put_ne hk r
  given s k r g hr hs := by
    by_cases hk : k = h
    · subst hk
      obtain ⟨v, hv, -, hl, hst⟩ := hs
      cases hr.symm.trans hv
      exact .of_put s hl hst
    · exact hs.put_ne hk _
  changeable _ _ _ _ _ _ := trivial
  startable _ _ _ _ _ _ := trivial
  ofLaunch s k r hs hmem hl hk := by
    obtain ⟨v, -, halone, hnone, -⟩ := hs
    cases halone _ hmem hk
    exact hl hnone
  unused s k hs hnone hk := by
    subst hk
    obtain ⟨v, hv, -⟩ := hs
    rw [hv] at hnone
    cases hnone

end

end Sys2Proof.Machine
end

section
/-!
SUPPORT. A wait at SYSTEM scope made known (R228).
-/
namespace Sys2Proof.Machine

/-- The effects of zero-length reads. -/
def Effect.ofZeroRead : Effect → Bool
  | .nextId _ | .xdie _ _ | .out _ => true
  | _ => false

theorem Act.zeroRead_ofZeroRead (x port : Nat) : (Act.zeroRead x port).Only Effect.ofZeroRead :=
  .read fun _ => .when fun _ => .fresh (fun _ => rfl) fun _ => .seq (.read fun _ => .emit rfl) (.emit rfl)

/-- The posted writes that have left an X-die by one port, once a zero-length read covers those of another. -/
theorem State.posted_zeroRead (s : State) (x y q : Nat) : (((Act.zeroRead y q).run s).xdie x).posted =
    if x = y then (s.xdie x).posted.filter fun e => e.2 != q else (s.xdie x).posted := by
  rw [Act.zeroRead, Act.run_read]
  dsimp only
  rw [Act.run_when]
  split
  · have hout : ∀ (u : State) (m : OutMsg), (u.apply (.out m)).xdie x = u.xdie x := fun _ _ => rfl
    rw [Act.run_fresh, Act.run_seq, Act.run_emit, hout]
    by_cases hxy : x = y
    · subst hxy
      rw [State.xdie_onXDie, if_pos rfl]
      rfl
    · rw [State.xdie_onXDie_ne _ _ _ hxy, if_neg hxy]
      rfl
  · rename_i hnone
    split
    · rename_i hxy
      subst hxy
      have hids := List.map_eq_nil_iff.mp (not_not.mp (mt bne_iff_ne.mpr hnone))
      refine (List.filter_eq_self.mpr fun e he => bne_iff_ne.mpr fun heq => ?_).symm
      exact List.filter_eq_nil_iff.mp hids e he (beq_iff_eq.mpr heq)
    · rfl

/-- None of these posted writes has left by the port without a zero-length read behind it. -/
def Covered (x port : Nat) (ids : List Nat) (t : State) : Prop := ∀ id ∈ ids, (id, port) ∉ (t.xdie x).posted

/-- A zero-length read at the port, where one of these writes has left by it. -/
def Act.cover (ids : List Nat) (x port : Nat) : Act :=
  .read fun s => .when ((s.xdies.get {} x).posted.any fun e => e.2 == port && ids.contains e.1) (.zeroRead x port)

theorem Act.cover_ofZeroRead (ids : List Nat) (x port : Nat) : (Act.cover ids x port).Only Effect.ofZeroRead :=
  .read fun _ => .when fun _ => zeroRead_ofZeroRead _ _

section
variable {ids : List Nat} {x port : Nat}

theorem Covered.cover (y q : Nat) : (Act.cover ids y q).Keeps (Covered x port ids) :=
  .read fun _ => .when fun s h id hid => by
    rw [State.posted_zeroRead]
    split
    · exact fun hmem => h id hid (List.mem_filter.mp hmem).1
    · exact h id hid

theorem Act.cover_covered (s : State) : Covered x port ids ((Act.cover ids x port).run s) := fun id hid => by
  rw [Act.cover, Act.run_read, Act.run_when]
  split
  · rw [State.posted_zeroRead, if_pos rfl]
    exact fun hmem => bne_iff_ne.mp (List.mem_filter.mp hmem).2 rfl
  · rename_i hnone
    refine fun hmem => hnone (List.any_eq_true.mpr ⟨_, hmem, ?_⟩)
    rw [beq_self_eq_true, List.contains_iff_mem.mpr hid]
    rfl

end

/-- The requests that are waited for at SYSTEM scope are marked. -/
def Act.markSystem (ids : List Nat) : Act :=
  .read fun s => .emit (.reqs (s.reqs.map fun q => if ids.contains q.id then { q with sys := true } else q))

/-- Zero-length reads at every port of the module where one of these writes has left. -/
def Act.coverAll (ids : List Nat) : Act := .each [24, 25] fun x => .each [0, 1] fun port => .cover ids x port

theorem Act.atSystem_eq (ids : List Nat) :
    Act.atSystem ids = .when (ids != []) ((Act.markSystem ids).seq (.coverAll ids)) := rfl

theorem Act.coverAll_ofZeroRead (ids : List Nat) : (Act.coverAll ids).Only Effect.ofZeroRead :=
  .each fun _ _ => .each fun _ _ => cover_ofZeroRead _ _ _

theorem Act.coverAll_covered {ids : List Nat} {x port : Nat} (hx : x ∈ xDies) (hport : port ∈ [0, 1]) (s : State) :
    Covered x port ids ((Act.coverAll ids).run s) := by
  have hdie : ∀ u : State, Covered x port ids ((Act.each [0, 1] fun port => .cover ids x port).run u) := fun u =>
    Act.Keeps.each_leads (P := fun _ => True) hport (fun _ _ _ => trivial) (fun _ => .cover _ _)
      (fun _ _ => Act.cover_covered _) u trivial
  exact Act.Keeps.each_leads (P := fun _ => True) (f := fun x => Act.each [0, 1] fun port => .cover ids x port) hx
    (fun _ _ _ => trivial) (fun _ => .each fun _ => .cover _ _) (fun u _ => hdie u) s trivial

/-- The parts of the state that zero-length reads change, taken from another state. -/
def State.withFlushed (s u : State) : State := { s with nextId := u.nextId, xdies := u.xdies, outbox := u.outbox }

theorem Act.Only.flushed {a : Act} (h : a.Only Effect.ofZeroRead) (s : State) : a.run s = s.withFlushed (a.run s) := by
  refine h.keepsOf (P := fun t => t = s.withFlushed t) (fun t e he ht => ?_) s rfl
  have hnext : t.apply e = t.withFlushed (t.apply e) := by
    cases e
    case nextId | xdie | out => rfl
    all_goals cases he
  have hmiddle : t.withFlushed (t.apply e) = (s.withFlushed t).withFlushed (t.apply e) := by rw [← ht]
  exact hnext.trans hmiddle

theorem Act.atSystem_announces {ids : List Nat} (h : ids ≠ []) (s : State) :
    Announces s ((Act.atSystem ids).run s) ids := by
  rw [Act.atSystem_eq, bne_iff_ne.mpr h, Act.run_when_true, Act.run_seq]
  generalize hu : (Act.markSystem ids).run s = u
  have hflushed := (Act.coverAll_ofZeroRead ids).flushed u
  have hcovered := fun x hx port hport => Act.coverAll_covered (ids := ids) (x := x) (port := port) hx hport u
  generalize (Act.coverAll ids).run u = t at hflushed hcovered
  have hreqs : t.reqs = u.reqs := (congrArg State.reqs hflushed :)
  refine ⟨hreqs.trans (hu ▸ rfl), fun x hx port hport => hcovered x hx port ?_, ?_⟩
  · rw [List.mem_cons, List.mem_singleton]
    omega
  · calc t = u.withFlushed t := hflushed
      _ = { s with reqs := u.reqs, xdies := t.xdies, outbox := t.outbox, nextId := t.nextId } := by rw [← hu]; rfl
      _ = { s with reqs := t.reqs, xdies := t.xdies, outbox := t.outbox, nextId := t.nextId } := by rw [hreqs]

end Sys2Proof.Machine
end

section
/-!
Issue of a launch (R83, R84, R93), summaries, ageing and slices (R101, R102, R107).
-/
namespace Sys2Proof.Machine

/-! ### Answers at the issuer -/

theorem Completed.of_harts {s t u : State} {d k : Nat} {rd : Reg} {v : DWord} (h : Completed s u d k rd v)
    (ht : t.harts = u.harts) : Completed s t d k rd v := by
  have hhart : t.hart d k = u.hart d k := State.hart_of_harts ht d k
  exact ⟨by rw [hhart]; exact h.pc, by rw [hhart]; exact h.dest, by rw [hhart]; exact h.others,
    by rw [hhart]; exact h.priv, by rw [hhart]; exact h.csr, by rw [hhart]; exact h.wait⟩

/-- The hart that issued a launch, where a hart did, has its status. -/
def IssuerTold (s : State) (l : Launch) (status : Nat) (t : State) : Prop :=
  ∀ d k rd, l.issuer = .hart d k rd → (s.hart d k).Ok → Completed s t d k rd (BitVec.ofNat 64 status)

theorem IssuerTold.of_harts {s t u : State} {l : Launch} {status : Nat} (h : IssuerTold s l status u)
    (ht : t.harts = u.harts) : IssuerTold s l status t := fun d k rd hissuer ok => (h d k rd hissuer ok).of_harts ht

theorem Act.answerIssuer_told {s u : State} {l l' : Launch} (hissuer : l'.issuer = l.issuer) (hu : u.harts = s.harts)
    (status : Nat) : IssuerTold s l status ((Act.answerIssuer l' status).run u) := fun d k rd hhart ok => by
  rw [Act.answerIssuer, hissuer, hhart]
  exact (Act.retireX_retires ok hu rd _).toCompleted

theorem Act.writeCompletion_ofStore (l : Launch) (status tl : Nat) (bitmap formed : Bool) :
    (Act.writeCompletion l status tl bitmap formed).Only Effect.ofStore :=
  .read fun _ => .when fun _ => storeLong_ofStore _ _ _ _ _ _

/-- A refused launch is over, and its issuer learns why. -/
theorem Act.refuse_refuses {s u : State} {n : Nat} {l l' : Launch} (hl : u.launches.get? n = some l')
    (hissuer : l'.issuer = l.issuer) (hu : u.harts = s.harts) (status : Nat) (record formed : Bool) :
    LaunchWith n (·.st = .complete) ((Act.refuse n status record formed).run u) ∧
      IssuerTold s l status ((Act.refuse n status record formed).run u) := by
  rw [Act.refuse, Act.run_read, hl]
  simp only [Act.run_block_cons, Act.run_block_nil]
  rw [Act.run_onLaunch_some _ _ _ hl]
  have hrecord : (Act.when record (.writeCompletion l' status 0 false formed)).Only Effect.ofStore :=
    .when fun _ => Act.writeCompletion_ofStore _ _ _ _ _
  refine ⟨?_, Act.answerIssuer_told hissuer ((hrecord.stored _).harts.trans (by exact hu)) status⟩
  refine LaunchWith.of_launches ?_ ((Act.answerIssuer_offVf l' status).keeps
    (f := State.launches) (fun u _ he => u.launches_apply_offVf he) _)
  refine LaunchWith.of_launches ?_ (hrecord.launches_ofStore _)
  exact ⟨_, Store.get?_put_same _ _ _, rfl⟩

/-- An accepted launch has its number in the queue, and its issuer learns that it is accepted. -/
theorem Act.accept_accepts {s u : State} {n : Nat} {l l' : Launch} (hl : u.launches.get? n = some l')
    (hissuer : l'.issuer = l.issuer) (hu : u.harts = s.harts) :
    IssuerTold s l 0 ((Act.accept n).run u) ∧ LaunchWith n (fun m => m.copy = l'.copy ∧ m.vd = l'.vd ∧ m.seq = u.nextId ∧
      m.st ≠ .issued) ((Act.accept n).run u) := by
  have hl' : (u.apply (.nextId (u.nextId + 1))).launches.get? n = some l' := hl
  rw [Act.accept, Act.run_fresh, Act.run_read, hl']
  simp only [Act.run_block_cons, Act.run_block_nil]
  rw [Act.run_onLaunch_some _ _ _ hl']
  have hkept : KeptBySelection .full (LaunchWith n fun m => m.copy = l'.copy ∧ m.vd = l'.vd ∧ m.seq = u.nextId ∧
      m.st ≠ .issued) := LaunchWith.kept fun _ _ ⟨hcopy, hvd, hseq, hst⟩ hm =>
    ⟨hm.copy.trans hcopy, hm.vd.trans hvd, hm.seq.trans hseq, hm.issued hst⟩
  refine ⟨?_, hkept.select _ _ ?_⟩
  · exact (Act.answerIssuer_told hissuer (by exact hu) 0).of_harts (Act.select_selectedFrom _ _).harts
  · refine LaunchWith.of_launches ?_ ((Act.answerIssuer_offVf l' 0).keeps
      (f := State.launches) (fun u _ he => u.launches_apply_offVf he) _)
    exact ⟨_, Store.get?_put_same _ _ _, rfl, rfl, rfl, nofun⟩

/-! ### LAUNCH_ISSUE -/

/-- The record of a launch, where its address is aligned and it can be read. -/
def State.recordOf (s : State) (l : Launch) : Option (List Byte) :=
  if aligned l.recAddr.toNat 1024 then s.loadLong (s.mapDie l.part) l.part l.asid l.recAddr 16 else none

section
variable {s : State} {n : Nat} {l : Launch} (hl : s.launches.get? n = some l) (hst : l.st = .issued)
  (hready : s.memoryReady (s.ownerDie (s.mapDie l.part) l.part l.recAddr) = true)
include hl hst hready

theorem exec_launchIssue_unread (hnone : s.recordOf l = none) : exec (.launchIssue n) s =
    (Act.refuse n (if s.feat.accepted then stLoadReject else stFeatures) (!l.issuer.isHart) false).next s := by
  rw [State.recordOf] at hnone
  show execLaunchIssue n s = _
  rw [execLaunchIssue, hl]
  dsimp only
  rw [hst, hready, hnone]
  rfl

theorem exec_launchIssue_refused {b : List Byte} {status : Nat} (hb : s.recordOf l = some b)
    (hcheck : (if s.feat.accepted then s.issueCheck (s.taken l b) else some stFeatures) = some status) :
    exec (.launchIssue n) s = ((Act.onLaunch n fun _ => s.taken l b).seq (.refuse n status true
      (s.recordOk (s.taken l b) && (s.taken l b).teamsOk (s.partDies (s.taken l b).part).length))).next s := by
  rw [State.recordOf] at hb
  show execLaunchIssue n s = _
  rw [execLaunchIssue, hl]
  dsimp only
  rw [hst, hready, hb]
  dsimp only
  rw [hcheck]
  rfl

theorem exec_launchIssue_accepted {b : List Byte} (hb : s.recordOf l = some b)
    (hcheck : (if s.feat.accepted then s.issueCheck (s.taken l b) else some stFeatures) = none) :
    exec (.launchIssue n) s = ((Act.onLaunch n fun _ => s.taken l b).seq (.accept n)).next s := by
  rw [State.recordOf] at hb
  show execLaunchIssue n s = _
  rw [execLaunchIssue, hl]
  dsimp only
  rw [hst, hready, hb]
  dsimp only
  rw [hcheck]
  rfl

omit hl hst hready in
theorem State.taken_issuer (s : State) (l : Launch) (b : List Byte) : (s.taken l b).issuer = l.issuer := by
  unfold State.taken
  dsimp only
  split <;> rfl

omit hst hready in
theorem Act.run_take (b : List Byte) :
    ((Act.onLaunch n fun _ => s.taken l b).run s) = s.apply (.launch n (some (s.taken l b))) :=
  Act.run_onLaunch_some _ _ _ hl

/-- A launch whose record is taken and fails a check. -/
theorem launchIssue_refused {b : List Byte} {status : Nat} (hb : s.recordOf l = some b)
    (hcheck : (if s.feat.accepted then s.issueCheck (s.taken l b) else some stFeatures) = some status) :
    Happens s (.launchIssue n) fun t => LaunchWith n (·.st = .complete) t ∧ IssuerTold s l status t := by
  refine .of_next _ (exec_launchIssue_refused hl hst hready hb hcheck) ?_
  rw [Act.run_seq, Act.run_take hl]
  exact Act.refuse_refuses (s := s) (u := s.apply (.launch n (some (s.taken l b)))) (Store.get?_put_same _ _ _)
    (s.taken_issuer l b) rfl _ _ _

/-- A launch whose record cannot be taken. -/
theorem launchIssue_unread (hnone : s.recordOf l = none) : Happens s (.launchIssue n) fun t =>
    LaunchWith n (·.st = .complete) t ∧ IssuerTold s l (if s.feat.accepted then stLoadReject else stFeatures) t :=
  .of_next _ (exec_launchIssue_unread hl hst hready hnone) (Act.refuse_refuses hl rfl rfl _ _ _)

theorem launchIssue_noFeatures (hfeat : s.feat.accepted = false) : Happens s (.launchIssue n) fun t =>
    LaunchWith n (·.st = .complete) t ∧ IssuerTold s l 0x83 t := by
  cases hb : s.recordOf l with
  | none => simpa [hfeat, stFeatures] using launchIssue_unread hl hst hready hb
  | some b => exact launchIssue_refused hl hst hready hb (by rw [hfeat]; rfl)

theorem launchIssue_noRecord (hfeat : s.feat.accepted = true) (hbad : l.recAddr.toNat % 1024 ≠ 0 ∨
    s.loadLong (s.mapDie l.part) l.part l.asid l.recAddr 16 = none) : Happens s (.launchIssue n) fun t =>
    LaunchWith n (·.st = .complete) t ∧ IssuerTold s l 0x11 t := by
  have hnone : s.recordOf l = none := by
    rw [State.recordOf]
    split
    · rename_i halign
      exact hbad.resolve_left fun hne => hne (eq_of_beq halign)
    · rfl
  simpa [hfeat, stLoadReject] using launchIssue_unread hl hst hready hnone

omit hl hst hready in
theorem State.recordOf_aligned {b : List Byte} (halign : l.recAddr.toNat % 1024 = 0)
    (hcopy : s.loadLong (s.mapDie l.part) l.part l.asid l.recAddr 16 = some b) : s.recordOf l = some b := by
  rw [State.recordOf, aligned, halign]
  exact hcopy

theorem launchIssue_accepted {b : List Byte} (hb : s.recordOf l = some b) (hfeat : s.feat.accepted = true)
    (hcheck : s.issueCheck (s.taken l b) = none) : Happens s (.launchIssue n) fun t => IssuerTold s l 0 t ∧
      LaunchWith n (fun m => m.copy = (s.taken l b).copy ∧ m.vd = (s.taken l b).vd ∧ m.seq = s.nextId ∧ m.st ≠ .issued) t := by
  refine .of_next _ (exec_launchIssue_accepted hl hst hready hb (by rw [hfeat]; exact hcheck)) ?_
  rw [Act.run_seq, Act.run_take hl]
  exact Act.accept_accepts (s := s) (u := s.apply (.launch n (some (s.taken l b)))) (Store.get?_put_same _ _ _)
    (s.taken_issuer l b) rfl

end

/-! ### DISPATCHER_SUMMARY -/

theorem exec_dispatcherSummary {s : State} {d p : Nat} (hp : s.partOf d = some p) : exec (.dispatcherSummary d) s =
    ((Act.each (s.partDies p) fun k => .onDispatcher k fun v => { v with summaries := v.summaries.put d (s.summary p d) }).seq
      (.select p)).next s := by
  show execDispatcherSummary d s = _
  rw [execDispatcherSummary, hp]

theorem dispatcherSummary_received {s : State} {d p : Nat} (hp : s.partOf d = some p) :
    Happens s (.dispatcherSummary d) fun t =>
      ∀ k ∈ s.partDies p, (t.dispatchers.get {} k).summaries.get [] d = s.summary p d := by
  refine .of_next _ (exec_dispatcherSummary hp) fun k hk => ?_
  rw [Act.run_seq, (Act.select_selectedFrom _ _).summaries]
  refine Act.Keeps.each_leads (P := fun _ => True)
    (Q := fun t => (t.dispatchers.get {} k).summaries.get [] d = s.summary p d) hk (fun _ _ _ => trivial)
    (fun j u hu => ?_) (fun u _ => ?_) s trivial
  · dsimp only
    rw [Act.run_onDispatcher, State.apply_dispatcher, Store.get_put]
    split
    · exact Store.get_put_same _ _ _ _
    · exact hu
  · rw [Act.run_onDispatcher, State.apply_dispatcher, Store.get_put_same]
    exact Store.get_put_same _ _ _ _

/-! ### AGEING_PROMOTION -/

theorem ageingPromotion_promotes {s : State} {n : Nat} {l : Launch} (hl : s.launches.get? n = some l)
    (hst : l.st = .queued ∨ l.st = .saved) (hcls : l.cls < 3) (hage : l.waitSince + l.ageBound * usCycles < s.cycle) :
    Happens s (.ageingPromotion n) fun t => LaunchWith n (fun m => m.cls = l.cls + 1 ∧ m.waitSince = s.cycle) t := by
  have hexec : exec (.ageingPromotion n) s =
      ((Act.onLaunch n fun l => { l with cls := l.cls + 1, waitSince := s.cycle }).seq (.select l.part)).next s := by
    have hwaits : (l.st == .queued || l.st == .saved) = true := by
      rcases hst with h | h <;> rw [h] <;> rfl
    show execAgeingPromotion n s = _
    rw [execAgeingPromotion, hl]
    dsimp only
    rw [hwaits, decide_eq_true hcls, decide_eq_true hage]
    rfl
  have hkept : KeptBySelection .full (LaunchWith n fun m => m.cls = l.cls + 1 ∧ m.waitSince = s.cycle) :=
    LaunchWith.kept fun _ _ hI hm => ⟨hm.cls.trans hI.1, hm.waitSince.trans hI.2⟩
  refine .of_next _ hexec ?_
  rw [Act.run_seq, Act.run_onLaunch_some _ _ _ hl]
  exact hkept.select l.part _ ⟨_, Store.get?_put_same _ _ _, rfl, rfl⟩

/-! ### SLICE_END -/

/-- The effects on dispatchers alone. -/
def Effect.ofDispatcher : Effect → Bool
  | .dispatcher _ _ => true
  | _ => false

theorem Act.endCharge_ofDispatcher (n : Nat) : (Act.endCharge n).Only Effect.ofDispatcher := .read fun _ => by
  split
  · exact .skip
  · exact .when fun _ => .read fun _ => .emit rfl

theorem Act.endCharge_leaves (n : Nat) (s : State) :
    ((Act.endCharge n).run s).launches = s.launches ∧ ((Act.endCharge n).run s).cycle = s.cycle :=
  (Act.endCharge_ofDispatcher n).keepsOf (P := fun t => t.launches = s.launches ∧ t.cycle = s.cycle)
    (fun t e he ht => by
      cases e
      case dispatcher => exact ht
      all_goals cases he) s ⟨rfl, rfl⟩

theorem Act.newSlice_begins {s : State} {n : Nat} {l : Launch} (hl : s.launches.get? n = some l) :
    LaunchAlone n (fun m => m.st = l.st ∧ m.sliceStart = s.cycle) ((Act.newSlice n).run s) := by
  rw [Act.newSlice, Act.run_read, hl]
  simp only [Act.run_block_cons, Act.run_block_nil]
  rw [Act.run_onLaunch_some (l := l)]
  · exact .of_put _ ⟨rfl, rfl⟩
  · rw [Act.run_when]
    split
    · exact hl
    · exact hl

theorem Act.keepPlaces_hasLaunch (n m k : Nat) : (Act.keepPlaces n m).Keeps (HasLaunch k) := .read fun _ => by
  dsimp only
  split
  · exact HasLaunch.onLaunch _ _
  · exact .skip

section
variable {s : State} {n : Nat} {l : Launch} (hl : s.launches.get? n = some l) (hst : l.st = .running)
  (hover : l.sliceStart + l.quantum * usCycles ≤ s.cycle)
include hl hst hover

theorem exec_sliceEnd : exec (.sliceEnd n) s = ((Act.endCharge n).seq
    (match if s.switchable n then s.successor n l else none with
      | some m => (Act.keepPlaces n m).seq <| .onLaunch n fun l =>
          { l with
            st := .switching
            switch := some { tick := s.cycle, deadline := s.cycle + (s.gangTime n + 20) * usCycles, incoming := [m] } }
      | none => (Act.newSlice n).seq (.select l.part))).next s := by
  show execSliceEnd n s = _
  rw [execSliceEnd, hl]
  dsimp only
  rw [hst, decide_eq_false (Nat.not_lt.mpr hover)]
  rfl

theorem sliceEnd_switches {m : Nat} (hswitch : s.switchable n = true) (hnext : s.successor n l = some m) :
    Happens s (.sliceEnd n) fun t => LaunchWith n (fun l' => l'.st = .switching ∧ l'.switch = some
      { tick := s.cycle, deadline := s.cycle + (s.gangTime n + 20) * usCycles, incoming := [m] }) t := by
  refine .of_next _ (exec_sliceEnd hl hst hover) ?_
  rw [hswitch, if_pos rfl, hnext]
  have hcharged : HasLaunch n ((Act.endCharge n).run s) := ⟨l, by rw [(Act.endCharge_leaves n s).1]; exact hl⟩
  obtain ⟨l', hl'⟩ := Act.keepPlaces_hasLaunch n m n _ hcharged
  rw [Act.run_seq, Act.run_seq, Act.run_onLaunch_some _ _ _ hl']
  exact ⟨_, Store.get?_put_same _ _ _, rfl, rfl⟩

theorem sliceEnd_continues (hnone : s.switchable n = false ∨ s.successor n l = none) :
    Happens s (.sliceEnd n) fun t => LaunchWith n (fun l' => l'.st = .running ∧ l'.sliceStart = s.cycle) t := by
  refine .of_next _ (exec_sliceEnd hl hst hover) ?_
  have hmatch : (if s.switchable n then s.successor n l else none) = none := by
    rcases hnone with h | h
    · rw [h]; rfl
    · rw [h, ite_self]
  rw [hmatch]
  obtain ⟨hlaunches, hcycle⟩ := Act.endCharge_leaves n s
  have hbegun := Act.newSlice_begins (s := (Act.endCharge n).run s) ((congrArg (Store.get? · n) hlaunches).trans hl)
  rw [hcycle, hst] at hbegun
  have hkept : (Act.select l.part).Keeps (LaunchAlone n fun l' => l'.st = .running ∧ l'.sliceStart = s.cycle) :=
    LaunchAlone.select (fun _ _ _ hI _ => hI) (fun m hI => by rw [hI.1]; decide) l.part
  rw [Act.run_seq, Act.run_seq]
  exact (hkept _ hbegun).with

end

end Sys2Proof.Machine
end

section
/-!
SUPPORT. Fault records (R143) and the end of a launch (R112, R121): what they keep of a launch and of a region.
-/
namespace Sys2Proof.Machine

/-! ### Fault records -/

/-- The effects of a fault record, but for its count at the launch. -/
def Effect.ofRecord (e : Effect) : Bool :=
  match e with
  | .reg _ _ _ | .hart _ _ _ => true
  | e => e.ofStore

theorem Effect.ofRecord_ofStore {e : Effect} (h : e.ofStore = true) : e.ofRecord = true := by
  unfold Effect.ofRecord
  split
  · rfl
  · rfl
  · exact h

theorem Act.Only.ofRecord {a : Act} (h : a.Only Effect.ofStore) : a.Only Effect.ofRecord :=
  fun s => (h s).mono fun _ => Effect.ofRecord_ofStore

theorem State.apply_ofRecord (s : State) {e : Effect} (h : e.ofRecord = true) :
    (s.apply e).launches = s.launches ∧ (s.apply e).regions = s.regions := by
  cases e
  case reg | hart | mem | memClear | ecc | mtlb | nextId | reqs | xdie | out => exact ⟨rfl, rfl⟩
  all_goals cases h

theorem State.offer_ofStore (s : State) (p : Nat) (asid : Option (BitVec 16)) (desc : DWord) (bytes : List Byte) :
    (s.offer p asid desc bytes).act.Only Effect.ofStore := by
  unfold State.offer
  split
  · exact .skip
  · dsimp only
    split
    · exact .skip
    · split
      · exact Act.storeVa_ofStore _ _ _ _ _
      · split
        · exact .block_cons (Act.storeVa_ofStore _ _ _ _ _) <| .block_cons (Act.storeVa_ofStore _ _ _ _ _) .block_nil
        · exact .skip

theorem State.defaultOffer_ofRecord (s : State) (p : Nat) (bytes : List Byte) :
    (s.defaultOffer p bytes).1.Only Effect.ofRecord := by
  unfold State.defaultOffer
  split
  · exact .skip
  · rename_i lead _
    have hdrop : (Act.countReg lead .pdfqst 31 0).Only Effect.ofRecord := .read fun _ => .emit rfl
    have hoffer := (s.offer_ofStore p defaultAsid (s.reg lead .pdfq &&& bitsMask 63 6) bytes).ofRecord
    dsimp only
    split
    · exact hdrop
    · generalize s.offer p defaultAsid (s.reg lead .pdfq &&& bitsMask 63 6) bytes = o at hoffer
      cases o with
      | bad => exact hdrop
      | full a => exact hoffer
      | taken a => exact hoffer

theorem State.launchOffer_ofRecord (s : State) (p : Nat) (l : Option Launch) (bytes : List Byte) :
    (s.launchOffer p l bytes).1.Only Effect.ofRecord := by
  unfold State.launchOffer
  cases l with
  | none => exact s.defaultOffer_ofRecord p bytes
  | some x =>
    have hoffer := (s.offer_ofStore p (s.vdAsid p x.vd) (BitVec.ofNat 64 (recNat x.copy 0x020 8)) bytes).ofRecord
    dsimp only
    split
    · exact s.defaultOffer_ofRecord p bytes
    · generalize s.offer p (s.vdAsid p x.vd) (BitVec.ofNat 64 (recNat x.copy 0x020 8)) bytes = o at hoffer
      cases o with
      | bad => exact s.defaultOffer_ofRecord p bytes
      | full a => exact .seq hoffer (.read fun u => u.defaultOffer_ofRecord p bytes)
      | taken a => exact hoffer

/-- The launch counts a record of a fault. -/
def Launch.counted (code : Nat) (isWritten : Bool) (l : Launch) : Launch :=
  { l with faults := l.faults + 1, firstFault := if l.faults = 0 then code else l.firstFault
           written := l.written || isWritten }

/-- A property that a fault record keeps: its writes, and its count at the launch. -/
structure KeptByRecords (P : State → Prop) : Prop where
  plain : ∀ (s : State) (e : Effect), e.ofRecord = true → P s → P (s.apply e)
  counted : ∀ (n code : Nat) (isWritten : Bool), (Act.onLaunch n (Launch.counted code isWritten)).Keeps P

namespace KeptByRecords

section
variable {P : State → Prop} (hP : KeptByRecords P)
include hP

theorem emit {e : Effect} (h : e.ofRecord = true) : (Act.emit e).Keeps P := fun s hs => hP.plain s e h hs

theorem launchRecordAt (p : Nat) (n : Option Nat) (code : Nat) (bytes : List Byte) (die : Option Nat) :
    (Act.launchRecordAt p n code bytes die).Keeps P := .read fun s => by
  refine .seq (.read fun t => .seq ((t.launchOffer_ofRecord _ _ _).keepsOf hP.plain) ?_) ?_
  · cases n with
    | none => exact .skip
    | some k => exact hP.counted k code _
  · cases die with
    | none => exact .skip
    | some d => exact .when <| .each fun _ => .read fun _ => hP.emit rfl

theorem record (h : Word) (f : FaultRec) (policy : Nat) : (Act.record h f policy).Keeps P := .read fun _ => by
  split
  · exact .skip
  · exact hP.launchRecordAt _ _ _ _ _

theorem reportImprecise {h : Word} (hclear : (Act.onRegion h fun r => { r with imprecise := [] }).Keeps P) :
    (Act.reportImprecise h).Keeps P := .read fun _ => by
  split
  · exact .skip
  · exact .seq (.each fun _ => hP.record _ _ _) hclear

end

end KeptByRecords

section
variable {n : Nat} {I : Launch → Prop}

theorem LaunchWith.onLaunch {s : State} (h : LaunchWith n I s) (k : Nat) {f : Launch → Launch}
    (hf : ∀ l, k = n → I l → I (f l)) : LaunchWith n I ((Act.onLaunch k f).run s) := by
  rw [Act.onLaunch, Act.run_read]
  split
  · rename_i l hl
    refine h.put fun hk => ?_
    obtain ⟨l', hl', hI⟩ := h
    cases (hk ▸ hl).symm.trans hl'
    exact hf l hk hI
  · exact h

/-- What holds of a launch whatever faults it counts. -/
theorem LaunchWith.keptByRecords (hI : ∀ l code isWritten, I l → I (Launch.counted code isWritten l)) :
    KeptByRecords (LaunchWith n I) where
  plain s _ he h := h.of_launches (s.apply_ofRecord he).1
  counted k code w _ h := h.onLaunch k fun l _ => hI l code w

end

/-! ### A region by its handle -/

/-- J holds of the region of a handle. -/
def RegionWith (h : Word) (J : Region → Prop) (t : State) : Prop := ∃ r, t.regions.get? h = some r ∧ J r

section
variable {h : Word} {J : Region → Prop} {s t : State}

theorem RegionWith.of_regions (hr : RegionWith h J s) (ht : t.regions = s.regions) : RegionWith h J t := by
  rwa [RegionWith, ht]

theorem RegionWith.put (hr : RegionWith h J s) {k : Word} {q : Region} (hq : k = h → J q) :
    RegionWith h J (s.apply (.region k (some q))) := by
  obtain ⟨r, hr, hJ⟩ := hr
  rw [RegionWith, State.apply_region_some, Store.get?_put]
  split
  · exact ⟨q, rfl, hq (Eq.symm ‹_›)⟩
  · exact ⟨r, hr, hJ⟩

theorem RegionWith.onRegion (hr : RegionWith h J s) (k : Word) {f : Region → Region} (hf : ∀ r, J r → J (f r)) :
    RegionWith h J ((Act.onRegion k f).run s) := by
  rw [Act.onRegion, Act.run_read]
  split
  · rename_i q hq
    refine hr.put fun hk => ?_
    obtain ⟨r, hr, hJ⟩ := hr
    cases (hk ▸ hq).symm.trans hr
    exact hf q hJ
  · exact hr

theorem RegionWith.onLaunch (k : Nat) (f : Launch → Launch) : (Act.onLaunch k f).Keeps (RegionWith h J) := .read fun _ => by
  split
  · exact fun _ hr => hr
  · exact .skip

theorem RegionWith.keptByRecords : KeptByRecords (RegionWith h J) where
  plain s _ he hr := hr.of_regions (s.apply_ofRecord he).2
  counted k _ _ := RegionWith.onLaunch k _

end

/-! ### The end of a launch -/

/-- The end of a launch is that of its regions, subtrees and saved contexts, and then its own. -/
theorem Act.run_endLaunch {s : State} {n : Nat} {l : Launch} (hl : s.launches.get? n = some l) (status : Nat) :
    ∃ u : State, u.launches = s.launches ∧
      (Act.endLaunch n status).run s = (Act.onLaunch n fun l => l.finish status).run u := by
  have hends : (Act.block
      [ .closeSlice n
      , .each l.outside fun m => .toModule l.part m (.killed m (s.moduleNo (s.mapDie l.part)) n status)
      , .each (s.regions.filter fun e => e.2.launch == some n && e.2.state != .retired) fun e => .endRegion e.1
      , .each l.insts fun i => .emit (.save n i.n none) ]).Only Effect.offVf :=
    .block_cons (closeSlice_offVf _) <| .block_cons (.each fun _ _ => toModule_offVf _ _ _) <|
      .block_cons (.each fun _ _ => endRegion_offVf _) <| .block_cons (.each fun _ _ => .emit rfl) .block_nil
  refine ⟨_, hends.keeps (f := State.launches) (fun u _ he => u.launches_apply_offVf he) s, ?_⟩
  rw [Act.endLaunch, Act.run_read, hl]
  simp only [Act.run_block_cons, Act.run_block_nil]

/-- The launch that was ended is alone under its number. -/
theorem Act.endLaunch_ends {s : State} {n : Nat} {l : Launch} (hl : s.launches.get? n = some l) (status : Nat) :
    LaunchAlone n (· = l.finish status) ((Act.endLaunch n status).run s) := by
  obtain ⟨u, hu, hrun⟩ := Act.run_endLaunch hl status
  rw [hrun, Act.run_onLaunch_some _ _ _ ((congrArg (Store.get? · n) hu).trans hl)]
  exact .of_put u rfl

end Sys2Proof.Machine
end

section
/-!
SUPPORT. The image of a launch, read, refused or loaded, and the start of its regions (R103, R106, R124).
-/
namespace Sys2Proof.Machine

theorem Launch.finish_ends {l : Launch} (h : l.st ≠ .complete) (status : Nat) :
    (l.finish status).st = .completing ∧ (l.finish status).ending = some (l.ending.getD status) := by
  rw [Launch.finish, if_neg h]
  exact ⟨rfl, rfl⟩

/-- The launch is on its way to completion with a status. -/
def Launch.EndsWith (status : Nat) (l : Launch) : Prop := l.st = .completing ∧ l.ending = some status

/-- The regions of a launch that are to be loaded. -/
def State.coldOf (s : State) (n : Nat) : List (Word × Region) :=
  (s.regionsOf n).filter fun e => e.2.state == .allocated && (s.saves.get? (n, e.2.inst)).isNone

/-- The image refused, or loaded into the cold regions of the launch. -/
def Act.placeImage (s : State) (n : Nat) (l : Launch) : Act :=
  let first := (s.coldOf n).head?.map (·.2)
  match s.launchImage l with
  | .error va => .rejectImage n l first { rejectRec { step := 1, kind := 0 } with kind := 1, addr := va }
  | .ok m =>
    match m.check (s.launchWant l), firstSome ((s.coldOf n).map fun e => s.blockedRoute (loadedWith m l.image e.2)) with
    | some j, _ => .rejectImage n l first (rejectRec j)
    | none, some t => .rejectImage n l first (rejectRec (seamReject t))
    | none, none => (Act.each (s.coldOf n) fun e => .onRegion e.1 (loadedWith m l.image)).seq (.startPlaced n)

theorem firstSome_eq_none {α : Type} {os : List (Option α)} (h : ∀ o ∈ os, o = none) : firstSome os = none := by
  induction os with
  | nil => rfl
  | cons o rest ih =>
    rw [List.forall_mem_cons] at h
    rw [h.1]
    exact ih h.2

section
variable {s : State} {n : Nat} {l : Launch} (hl : s.launches.get? n = some l) (hst : l.st = .placing)
include hl hst

theorem exec_imageLoadComplete_lost (hlost : ∃ i ∈ l.insts, i.retired = false ∧ i.handle = none) :
    exec (.imageLoadComplete n) s = (Act.endLaunch n stKilled).next s := by
  have hany : (l.insts.any fun i => !i.retired && i.handle.isNone) = true := by
    obtain ⟨i, hi, hretired, hhandle⟩ := hlost
    exact List.any_eq_true.mpr ⟨i, hi, by rw [hretired, hhandle]; rfl⟩
  show execImageLoadComplete n s = _
  rw [execImageLoadComplete, hl]
  dsimp only
  rw [hst, hany]
  rfl

theorem imageLoadComplete_lost (hlost : ∃ i ∈ l.insts, i.retired = false ∧ i.handle = none) :
    Happens s (.imageLoadComplete n) (LaunchWith n (Launch.EndsWith (l.ending.getD 0x80))) :=
  .of_next _ (exec_imageLoadComplete_lost hl hst hlost) <| (Act.endLaunch_ends hl stKilled).with.mono fun m hm =>
    hm ▸ Launch.finish_ends (by rw [hst]; nofun) stKilled

/-- A refused image ends its launch with the code of its record. -/
theorem Act.rejectImage_ends (q : Option Region) (f : FaultRec) :
    LaunchWith n (Launch.EndsWith (l.ending.getD f.code)) ((Act.rejectImage n l q f).run s) := by
  have hrecorded : KeptByRecords (LaunchWith n fun m => m.st = .placing ∧ m.ending = l.ending) :=
    LaunchWith.keptByRecords fun _ _ _ h => h
  obtain ⟨m, hm, hplacing, hending⟩ := hrecorded.launchRecordAt l.part (some n) f.code
    (recordBytes { vd := l.vd, record := l.recAddr } f 0xFF (s.partCycle l.part))
    (q.map fun r => match f.cell with
      | some (c, w) => (r.cellAt c w).die
      | none => r.origin.die) s ⟨l, hl, hst, rfl⟩
  have hends : (m.finish f.code).EndsWith (l.ending.getD f.code) :=
    hending ▸ Launch.finish_ends (by rw [hplacing]; nofun) f.code
  have hkept : (Act.select l.part).Keeps (LaunchAlone n (Launch.EndsWith (l.ending.getD f.code))) :=
    LaunchAlone.select (fun _ _ _ h _ => h) (fun m h => by rw [h.1]; decide) l.part
  exact (hkept _ ((Act.endLaunch_ends hm f.code).mono fun _ h => h ▸ hends)).with

section
variable (hplaced : ∀ i ∈ l.insts, i.retired = true ∨ i.handle ≠ none) (hcold : s.coldOf n ≠ [])
include hplaced hcold

theorem exec_imageLoadComplete_placed : exec (.imageLoadComplete n) s = (Act.placeImage s n l).next s := by
  have hany : (l.insts.any fun i => !i.retired && i.handle.isNone) = false := by
    refine List.any_eq_false.mpr fun i hi => ?_
    rcases hplaced i hi with h | h
    · rw [h]
      exact nofun
    · rw [Option.isNone_eq_false_iff.mpr (Option.isSome_iff_ne_none.mpr h), Bool.and_false]
      exact nofun
  show execImageLoadComplete n s = _
  rw [execImageLoadComplete, hl]
  dsimp only
  rw [hst, hany]
  exact congrArg (Act.next · s) (if_neg hcold)

theorem imageLoadComplete_unread {va : DWord} (himage : s.launchImage l = .error va) :
    Happens s (.imageLoadComplete n) (LaunchWith n (Launch.EndsWith (l.ending.getD 0x11))) := by
  refine .of_next _ (exec_imageLoadComplete_placed hl hst hplaced hcold) ?_
  rw [Act.placeImage, himage]
  exact Act.rejectImage_ends hl hst _ _

theorem imageLoadComplete_rejected {m : Image} {j : Reject} (himage : s.launchImage l = .ok m)
    (hcheck : m.check (s.launchWant l) = some j) :
    Happens s (.imageLoadComplete n) (LaunchWith n (Launch.EndsWith (l.ending.getD j.code))) := by
  refine .of_next _ (exec_imageLoadComplete_placed hl hst hplaced hcold) ?_
  rw [Act.placeImage, himage]
  dsimp only
  rw [hcheck]
  exact Act.rejectImage_ends hl hst _ (rejectRec j)

theorem exec_imageLoadComplete_loaded {m : Image} (himage : s.launchImage l = .ok m)
    (hcheck : m.check (s.launchWant l) = none)
    (hroutes : ∀ e ∈ s.coldOf n, s.blockedRoute (loadedWith m l.image e.2) = none) : exec (.imageLoadComplete n) s =
    ((Act.each (s.coldOf n) fun e => .onRegion e.1 (loadedWith m l.image)).seq (.startPlaced n)).next s := by
  have hopen : firstSome ((s.coldOf n).map fun e => s.blockedRoute (loadedWith m l.image e.2)) = none := by
    refine firstSome_eq_none fun o ho => ?_
    obtain ⟨e, he, rfl⟩ := List.mem_map.mp ho
    exact hroutes e he
  rw [exec_imageLoadComplete_placed hl hst hplaced hcold, Act.placeImage, himage]
  dsimp only
  rw [hcheck, hopen]

end

end

end Sys2Proof.Machine
end

section
/-!
SUPPORT. The start of the regions of a launch whose image is loaded (R103, R106).
-/
namespace Sys2Proof.Machine

/-! ### Regions that are loaded -/

/-- The effects on regions alone. -/
def Effect.ofRegion : Effect → Bool
  | .region _ _ => true
  | _ => false

theorem State.apply_ofRegion (s : State) {e : Effect} (h : e.ofRegion = true) :
    (s.apply e).launches = s.launches ∧ (s.apply e).saves = s.saves ∧ (s.apply e).cycle = s.cycle := by
  cases e
  case region => exact ⟨rfl, rfl, rfl⟩
  all_goals cases h

/-- The cold regions of a launch loaded with its image. -/
def Act.loadCold (s : State) (n : Nat) (m : Image) (va : DWord) : Act :=
  .each (s.coldOf n) fun e => .onRegion e.1 (loadedWith m va)

theorem Act.loadCold_leaves (s : State) (n : Nat) (m : Image) (va : DWord) :
    ((Act.loadCold s n m va).run s).launches = s.launches ∧ ((Act.loadCold s n m va).run s).saves = s.saves ∧
      ((Act.loadCold s n m va).run s).cycle = s.cycle := by
  have honly : (Act.loadCold s n m va).Only Effect.ofRegion := .each fun _ _ => .onRegion fun _ => rfl
  exact honly.keepsOf (P := fun t => t.launches = s.launches ∧ t.saves = s.saves ∧ t.cycle = s.cycle)
    (fun t e he ht => by
      obtain ⟨hlaunches, hsaves, hcycle⟩ := t.apply_ofRegion he
      exact ⟨hlaunches.trans ht.1, hsaves.trans ht.2.1, hcycle.trans ht.2.2⟩) s ⟨rfl, rfl, rfl⟩

theorem Act.loadCold_loads {s : State} {n : Nat} (m : Image) (va : DWord) {h : Word} {r : Region}
    (hr : s.regions.get? h = some r) (hmem : (h, r) ∈ s.coldOf n) (hlaunch : r.launch = some n) :
    RegionWith h (fun q => q.launch = some n ∧ q.imageId = m.id) ((Act.loadCold s n m va).run s) := by
  refine Act.Keeps.each_leads (P := RegionWith h fun q => q.launch = some n)
    (Q := RegionWith h fun q => q.launch = some n ∧ q.imageId = m.id)
    (f := fun e => Act.onRegion e.1 (loadedWith m va)) hmem
    (fun e u hu => hu.onRegion e.1 (f := loadedWith m va) fun _ hq => hq)
    (fun e u hu => hu.onRegion e.1 (f := loadedWith m va) fun _ hq => ⟨hq.1, rfl⟩)
    (fun u hu => ?_) s ⟨r, hr, hlaunch⟩
  obtain ⟨q, hq, hown⟩ := hu
  rw [Act.run_onRegion_some _ _ _ hq]
  exact ⟨_, Store.get?_put_same _ _ _, hown, rfl⟩

/-! ### Regions that start -/

/-- A region that starts, with its lots and the time. -/
def Region.started (lots : List (Nat × Lot)) (now : Nat) (r : Region) : Region :=
  { r with
    lots := lots, state := .running, fault := none, pendingFault := false, wave := [], stopAt := none
    exitAt := none, byStop := false, lastActive := now, shut := false, forceShut := false, tbars := [], imprecise := []
    given := [], due := [], stepover := false }

theorem RegionWith.only {h : Word} {J : Region → Prop} {a : Act} (ha : a.Only Effect.ofSelection) :
    a.Keeps (RegionWith h J) := ha.keepsOf fun s _ he hr => hr.of_regions (s.regions_apply_ofSelection he)

theorem Act.takeLots_ofSelection (die n : Nat) : (Act.takeLots die n).Only Effect.ofSelection := .read fun _ => by
  split
  · exact .emit rfl
  · exact .skip

section
variable {h : Word} {I J : Region → Prop} (hgiven : ∀ r g, J r → J { r with given := g })
include hgiven

theorem RegionWith.deliverHeld (k : Word) : (Act.deliverHeld k).Keeps (RegionWith h J) := .read fun _ => by
  split
  · exact .skip
  · split
    · exact .each fun _ => .read fun _ => .when <| .block_cons (fun _ hr => hr) <|
        .block_cons (.each fun _ => .block_cons (.read fun _ _ hr => hr) <|
          .block_cons (fun _ hr => hr.onRegion _ fun r hJ => hgiven r _ hJ) .block_nil) .block_nil
    · exact .skip

/-- What the start of a region makes of it and of the others. -/
theorem RegionWith.startInstance {k : Word} {s : State} (hother : k ≠ h → ∀ r, I r → J r)
    (hstart : k = h → ∀ lots now r, I r → J (r.started lots now)) (scal : List Byte) (hr : RegionWith h I s) :
    RegionWith h J ((Act.startInstance k scal).run s) := by
  rw [Act.startInstance, Act.run_read]
  split
  · rename_i hnone
    obtain ⟨r, hr, hI⟩ := hr
    refine ⟨r, hr, hother (fun hk => ?_) r hI⟩
    rw [hk, hr] at hnone
    cases hnone
  · rename_i q hq
    have hput : ∀ (lots : List (Nat × Lot)) (now : Nat) (u : State), RegionWith h I u →
        RegionWith h J (u.apply (.region k (some (q.started lots now)))) := fun lots now u hu => by
      by_cases hk : k = h
      · subst hk
        obtain ⟨r, hr, hI⟩ := hr
        cases hq.symm.trans hr
        exact ⟨_, Store.get?_put_same _ _ _, hstart rfl lots now q hI⟩
      · obtain ⟨r, hr, hI⟩ := hu
        exact ⟨r, (Store.get?_put_ne _ _ (Ne.symm hk)).trans hr, hother hk r hI⟩
    simp only [Act.run_block_cons, Act.run_block_nil]
    refine RegionWith.deliverHeld hgiven k _ (hput _ _ _ ?_)
    refine RegionWith.only (.read fun _ => .emit rfl) _ ?_
    refine RegionWith.only (.each fun _ _ => .read fun _ => .emit rfl) _ ?_
    exact RegionWith.only (.each fun _ _ => Act.takeLots_ofSelection _ _) s hr

end

/-! ### The launch that starts -/

section
variable {s : State} {n : Nat} {l : Launch} (hl : s.launches.get? n = some l)
  (hawake : ((s.regionsOf n).flatMap fun e => s.asleepIn e.2.rect) = []) (hlots : s.lotsReady (s.placedWants n) = true)
  (hfresh : ∀ i, s.saves.get? (n, i) = none)
include hl hawake hlots hfresh

/-- No saved context is kept: each region starts anew. -/
theorem Act.run_startPlaced : (Act.startPlaced n).run s =
    (Act.toRunning n).run ((Act.each (s.regionsOf n) fun e => .startInstance e.1 l.scalars).run s) := by
  rw [State.regionsOf] at hawake
  rw [Act.startPlaced, Act.run_read, hl]
  dsimp only
  rw [hawake, hlots]
  simp only [hfresh]
  rfl

theorem Act.startPlaced_runs :
    LaunchWith n (fun m => m.st = .running ∧ m.sliceStart = s.cycle) ((Act.startPlaced n).run s) := by
  rw [Act.run_startPlaced hl hawake hlots hfresh]
  have hsame : ((Act.each (s.regionsOf n) fun e => .startInstance e.1 l.scalars).run s).launches = s.launches :=
    Act.Only.keeps (.each fun _ _ => Act.startInstance_offVf _ _)
      (f := State.launches) (fun u _ he => u.launches_apply_offVf he) s
  have hcycle : ((Act.each (s.regionsOf n) fun e => .startInstance e.1 l.scalars).run s).cycle = s.cycle :=
    SelectedFrom.cycle (Act.Keeps.each (fun _ => (SelectedFrom.kept s).startInstance trivial _) s (.refl s))
  rw [Act.toRunning, Act.run_read, hcycle, Act.run_onLaunch_some _ _ _ ((congrArg (Store.get? · n) hsame).trans hl)]
  exact ⟨_, Store.get?_put_same _ _ _, rfl, rfl⟩

theorem Act.startPlaced_starts {h : Word} {id : Nat} (hr : RegionWith h (fun r => r.launch = some n ∧ r.imageId = id) s) :
    RegionWith h (fun r => r.state = .running ∧ r.imageId = id) ((Act.startPlaced n).run s) := by
  rw [Act.run_startPlaced hl hawake hlots hfresh]
  obtain ⟨r, hr, hown, hid⟩ := hr
  have hmem : (h, r) ∈ s.regionsOf n := List.mem_filter.mpr ⟨Store.get?_mem hr, by rw [hown]; exact beq_self_eq_true _⟩
  refine RegionWith.onLaunch n _ _ ?_
  refine Act.Keeps.each_leads (P := RegionWith h fun q => q.imageId = id)
    (Q := RegionWith h fun q => q.state = .running ∧ q.imageId = id) (f := fun e => Act.startInstance e.1 l.scalars) hmem
    (fun e u hu => RegionWith.startInstance (fun _ _ hq => hq) (fun _ _ hq => hq) (fun _ _ _ _ hq => hq) _ hu)
    (fun e u hu => RegionWith.startInstance (fun _ _ hq => hq) (fun _ _ hq => hq) (fun _ _ _ _ hq => ⟨rfl, hq.2⟩) _ hu)
    (fun u hu => ?_) s ⟨r, hr, hid⟩
  exact RegionWith.startInstance (fun _ _ hq => hq) (fun hne => absurd rfl hne) (fun _ _ _ _ hq => ⟨rfl, hq⟩) _ hu

end

section
variable {s : State} {n : Nat} {l : Launch} (hl : s.launches.get? n = some l) (hst : l.st = .placing)
  (hplaced : ∀ i ∈ l.insts, i.retired = true ∨ i.handle ≠ none) (hcold : s.coldOf n ≠ [])
include hl hst hplaced hcold

theorem imageLoadComplete_starts {m : Image} (himage : s.launchImage l = .ok m)
    (hcheck : m.check (s.launchWant l) = none)
    (hroutes : ∀ e ∈ s.coldOf n, s.blockedRoute (loadedWith m l.image e.2) = none)
    (hawake : ((((Act.loadCold s n m l.image).run s).regionsOf n).flatMap fun e =>
      ((Act.loadCold s n m l.image).run s).asleepIn e.2.rect) = [])
    (hlots : ((Act.loadCold s n m l.image).run s).lotsReady
      (((Act.loadCold s n m l.image).run s).placedWants n) = true)
    (hfresh : ∀ i, s.saves.get? (n, i) = none) : Happens s (.imageLoadComplete n) fun t =>
      LaunchWith n (fun l' => l'.st = .running ∧ l'.sliceStart = s.cycle) t ∧
      ∀ h r, s.regions.get? h = some r → r.launch = some n → r.state = .allocated →
        RegionWith h (fun r' => r'.state = .running ∧ r'.imageId = m.id) t := by
  refine .of_next _ (exec_imageLoadComplete_loaded hl hst hplaced hcold himage hcheck hroutes) ?_
  obtain ⟨hlaunches, hsaves, hcycle⟩ := Act.loadCold_leaves s n m l.image
  have hl1 := (congrArg (Store.get? · n) hlaunches).trans hl
  have hfresh1 : ∀ i, ((Act.loadCold s n m l.image).run s).saves.get? (n, i) = none := fun i => by
    rw [hsaves]
    exact hfresh i
  rw [Act.run_seq]
  refine ⟨hcycle ▸ Act.startPlaced_runs hl1 hawake hlots hfresh1, fun h r hr hown hallocated => ?_⟩
  refine Act.startPlaced_starts hl1 hawake hlots hfresh1 (Act.loadCold_loads m l.image hr ?_ hown)
  exact List.mem_filter.mpr ⟨List.mem_filter.mpr ⟨Store.get?_mem hr, by rw [hown]; exact beq_self_eq_true _⟩,
    by rw [hallocated, hfresh]; rfl⟩

end

end Sys2Proof.Machine
end

section
/-!
SUPPORT. The completion of a launch (R92, R94, R110).
-/
namespace Sys2Proof.Machine

/-- The effects by which what a launch held is freed. -/
def Effect.ofFreeing : Effect → Bool
  | .lots _ _ | .lane _ _ | .cell _ _ | .reqs _ | .dispatcher _ _ | .region _ _ | .reg _ _ _ => true
  | _ => false

/-- Launches and timelines are as they were, and no message is taken back. -/
structure FreedFrom (s t : State) : Prop where
  launches : t.launches = s.launches
  copies : t.copies = s.copies
  outbox : s.outbox ⊆ t.outbox

theorem FreedFrom.refl (s : State) : FreedFrom s s := ⟨rfl, rfl, fun _ h => h⟩

theorem FreedFrom.trans {s t u : State} (h : FreedFrom s t) (h' : FreedFrom t u) : FreedFrom s u :=
  ⟨h'.launches.trans h.launches, h'.copies.trans h.copies, fun _ hm => h'.outbox (h.outbox hm)⟩

theorem State.apply_ofFreeing (s : State) {e : Effect} (h : e.ofFreeing = true) : FreedFrom s (s.apply e) := by
  cases e
  case lots | lane | cell | reqs | dispatcher | region | reg => exact ⟨rfl, rfl, fun _ h => h⟩
  all_goals cases h

theorem State.apply_ofStore_freedFrom (s : State) {e : Effect} (h : e.ofStore = true) : FreedFrom s (s.apply e) := by
  cases e
  case mem | memClear | ecc | mtlb | nextId | reqs | xdie => exact ⟨rfl, rfl, fun _ h => h⟩
  case out => exact ⟨rfl, rfl, List.subset_append_left _ _⟩
  all_goals cases h

theorem Act.Only.freedFrom {a : Act} (h : a.Only Effect.ofFreeing) (s : State) : FreedFrom s (a.run s) :=
  h.keepsOf (P := FreedFrom s) (fun t _ he ht => ht.trans (t.apply_ofFreeing he)) s (.refl s)

theorem Act.Only.storedFrom {a : Act} (h : a.Only Effect.ofStore) (s : State) : FreedFrom s (a.run s) :=
  h.keepsOf (P := FreedFrom s) (fun t _ he ht => ht.trans (t.apply_ofStore_freedFrom he)) s (.refl s)

theorem Act.freeRegion_ofFreeing (h : Word) : (Act.freeRegion h).Only Effect.ofFreeing := .read fun _ => by
  split
  · exact .skip
  · exact .block_cons (.each fun _ _ => .read fun _ => .emit rfl) <|
      .block_cons (.each fun _ _ => .read fun _ => .emit rfl) <|
      .block_cons (.each fun _ _ => .read fun _ => .emit rfl) <|
      .block_cons (.read fun _ => .emit rfl) <|
      .block_cons (.when fun _ => .read fun _ => .emit rfl) <|
      .block_cons (.emit rfl) .block_nil

theorem Act.freeRetired_ofFreeing : Act.freeRetired.Only Effect.ofFreeing :=
  .read fun _ => .each fun _ _ => freeRegion_ofFreeing _

theorem Act.dropTokens_ofFreeing (n : Nat) (l : Launch) : (Act.dropTokens n l).Only Effect.ofFreeing :=
  .each fun _ _ => .read fun _ => .when fun _ => .seq (.read fun _ => .emit rfl) <|
    .each fun _ _ => .read fun _ => .onRegion fun _ => rfl

theorem Act.showMisses_ofFreeing (p vd : Nat) : (Act.showMisses p vd).Only Effect.ofFreeing := .read fun _ => by
  dsimp only
  split
  · exact .read fun _ => .emit rfl
  · exact .skip

/-- What follows once the launch is complete, before the dispatchers select again. -/
def Act.afterCompletion (n : Nat) (l : Launch) : Act :=
  .block [.showMisses l.part l.vd, .dropTokens n l, .freeRetired, .flushAll]

theorem Act.afterCompletion_freedFrom (n : Nat) (l : Launch) (s : State) :
    FreedFrom s ((Act.afterCompletion n l).run s) := by
  rw [Act.afterCompletion]
  simp only [Act.run_block_cons, Act.run_block_nil]
  exact ((((Act.showMisses_ofFreeing _ _).freedFrom _).trans ((Act.dropTokens_ofFreeing _ _).freedFrom _)).trans
    (Act.freeRetired_ofFreeing.freedFrom _)).trans (Act.flushAll_ofStore.storedFrom _)

/-- The increment of COMPTL's timeline, where the launch has one. -/
def Act.countCompletion : Option (CopyId × DWord) → Act
  | some (c, v) => .onCopy c fun t => { t with tlc := v }
  | none => .skip

/-- Bitmap, record, timeline and interrupt of a launch that is over. -/
def Act.tellCompletion (s : State) (l : Launch) : Act :=
  .block
    [ .reportLaunch l (l.ending.getD stDone) (match s.comptlAfter l with
        | some (_, v) => v.toNat
        | none => 0)
    , .countCompletion (s.comptlAfter l), .completionIrq l ]

theorem Act.countCompletion_launches (o : Option (CopyId × DWord)) (s : State) :
    ((Act.countCompletion o).run s).launches = s.launches := by
  cases o with
  | none => rfl
  | some e => rfl

theorem Act.countCompletion_counts {o : Option (CopyId × DWord)} {c : CopyId} {v : DWord} (ho : o = some (c, v))
    (s : State) : (((Act.countCompletion o).run s).copies.get {} c).tlc = v := by
  subst ho
  rw [Act.countCompletion, Act.onCopy, Act.run_read, Act.run_emit, State.apply_copy, Store.get_put_same]

theorem Act.completionIrq_sends {l : Launch} (hirq : l.flag flagIrq = true) (hown : l.foreign = none) (s : State) :
    OutMsg.msix (24 + l.vd / 512) (l.vd % 512) 1 ∈ ((Act.completionIrq l).run s).outbox := by
  rw [Act.completionIrq, Act.run_seq]
  have hsecond : (Act.when (l.replyIrq && l.reply != 0)
      (.emit (.out (.msix (24 + l.vd / 512) (l.vd % 512) 0)))).Only Effect.ofStore := .when fun _ => .emit rfl
  refine (hsecond.storedFrom _).outbox ?_
  rw [hirq, hown]
  exact List.mem_append_right _ (List.mem_singleton.mpr rfl)

/-- The launch is told of where it is to be, and no launch is touched. -/
theorem Act.tellCompletion_tells (s : State) (l : Launch) :
    ((Act.tellCompletion s l).run s).launches = s.launches ∧
    (l.flag flagIrq = true → l.foreign = none →
      OutMsg.msix (24 + l.vd / 512) (l.vd % 512) 1 ∈ ((Act.tellCompletion s l).run s).outbox) ∧
    ∀ c v, s.comptlAfter l = some (c, v) → (((Act.tellCompletion s l).run s).copies.get {} c).tlc = v := by
  rw [Act.tellCompletion]
  simp only [Act.run_block_cons, Act.run_block_nil]
  have hirq := fun u => (Act.completionIrq_ofStore l).storedFrom u
  refine ⟨?_, fun hflag hown => Act.completionIrq_sends hflag hown _, fun c v htl => ?_⟩
  · rw [(hirq _).launches, Act.countCompletion_launches]
    exact ((Act.reportLaunch_ofStore l _ _).storedFrom s).launches
  · rw [(hirq _).copies]
    exact Act.countCompletion_counts htl _

section
variable {s : State} {n : Nat} {l : Launch} (hl : s.launches.get? n = some l) (hst : l.st = .completing)
  (hout : l.outside = [])
include hl hst hout

theorem exec_launchCompletion_owed (howes : s.launchOwes n ≠ []) :
    exec (.launchCompletion n) s = (Act.atSystem (s.launchOwes n)).next s := by
  show execLaunchCompletion n s = _
  rw [execLaunchCompletion, hl]
  dsimp only
  rw [hst, hout, if_pos (bne_iff_ne.mpr howes)]
  rfl

theorem exec_launchCompletion_done (howes : s.launchOwes n = []) : exec (.launchCompletion n) s =
    .next ((Act.select l.part).run ((Act.afterCompletion n l).run
      ((Act.onLaunch n fun l => { l with st := .complete }).run ((Act.tellCompletion s l).run s)))) := by
  have hexec : exec (.launchCompletion n) s = (Act.block
      [ .reportLaunch l (l.ending.getD stDone) (match s.comptlAfter l with
          | some (_, v) => v.toNat
          | none => 0)
      , .countCompletion (s.comptlAfter l), .completionIrq l
      , .onLaunch n fun l => { l with st := .complete }
      , .showMisses l.part l.vd, .dropTokens n l, .freeRetired, .flushAll, .select l.part ]).next s := by
    show execLaunchCompletion n s = _
    rw [execLaunchCompletion, hl]
    dsimp only
    rw [hst, hout, howes]
    rfl
  rw [hexec, Act.next, Act.tellCompletion, Act.afterCompletion]
  simp only [Act.run_block_cons, Act.run_block_nil]

theorem launchCompletion_announces (howes : s.launchOwes n ≠ []) :
    Happens s (.launchCompletion n) fun t => Announces s t (s.launchOwes n) :=
  .of_next _ (exec_launchCompletion_owed hl hst hout howes) (Act.atSystem_announces howes s)

theorem launchCompletion_completes (howes : s.launchOwes n = []) : Happens s (.launchCompletion n) fun t =>
    LaunchWith n (fun m => m.st = .complete ∧ m.insts = l.insts) t ∧
    (l.flag flagIrq = true → l.foreign = none → OutMsg.msix (24 + l.vd / 512) (l.vd % 512) 1 ∈ t.outbox) ∧
    ∀ c v, s.comptlAfter l = some (c, v) → (t.copies.get {} c).tlc = v := by
  refine ⟨_, exec_launchCompletion_done hl hst hout howes, ?_⟩
  obtain ⟨hsame, hirq, htl⟩ := Act.tellCompletion_tells s l
  generalize (Act.tellCompletion s l).run s = u at hsame hirq htl ⊢
  rw [Act.run_onLaunch_some _ _ _ ((congrArg (Store.get? · n) hsame).trans hl)]
  have hover : LaunchAlone n (fun m => m.st = .complete ∧ m.insts = l.insts)
      (u.apply (.launch n (some { l with st := .complete }))) := .of_put _ ⟨rfl, rfl⟩
  have hkept : (Act.select l.part).Keeps (LaunchAlone n fun m => m.st = .complete ∧ m.insts = l.insts) :=
    LaunchAlone.select (fun m _ _ hI hne => absurd hI.1 hne) (fun m hI => by rw [hI.1]; decide) l.part
  have hfreed := Act.afterCompletion_freedFrom n l (u.apply (.launch n (some { l with st := .complete })))
  generalize (Act.afterCompletion n l).run (u.apply (.launch n (some { l with st := .complete }))) = v at hfreed ⊢
  have hselect := Act.select_selectedFrom l.part v
  refine ⟨(hkept v (hover.of_launches hfreed.launches)).with, fun hflag hown => ?_, fun c w hc => ?_⟩
  · exact hselect.outbox (hfreed.outbox (hirq hflag hown))
  · rw [hselect.copies, hfreed.copies]
    exact htl c w hc

end

end Sys2Proof.Machine
end

section
/-!
SUPPORT. INSTANCE_RETIRE (R92, R303, R304): what the end of a launch and its barriers keep of a launch
that cannot be chosen.
-/
namespace Sys2Proof.Machine

/-! ### Barriers and ends keep a launch -/

theorem Launch.Unchosen.of_same {l m : Launch} (hrec : l.SameRecord m) (hst : m.st = l.st)
    (hkill : m.killAfter = l.killAfter) (hsusp : m.suspendAfter = l.suspendAfter) (hinsts : m.insts = l.insts) :
    l.Unchosen m where
  toSameRecord := hrec
  blocked h := by rwa [Launch.choosable, hst, hkill, hsusp]
  retired := .of_insts hinsts

theorem Act.releaseRegion_offVf (h : Word) (k epoch : Nat) : (Act.releaseRegion h k epoch).Only Effect.offVf :=
  .read fun _ => by
    split
    · exact .skip
    · refine .block_cons (.onRegion fun _ => rfl) <|
        .block_cons (.when fun _ => .each fun _ _ => .read fun _ => .emit rfl) <| .block_cons ?_ .block_nil
      split
      · exact .when fun _ => .read fun _ => .onRegion fun _ => rfl
      · exact .skip

/-- What holds of a launch that cannot be chosen, whatever becomes of it while it is not. -/
structure Launch.Lasting (I : Launch → Prop) : Prop where
  blocked : ∀ l, I l → l.choosable = false
  unchosen : ∀ l m : Launch, I l → l.Unchosen m → I m
  handed : ∀ (l : Launch) (inst : Nat) (h : Word), I l → I (l.handed inst h)

namespace Launch.Lasting

section
variable {I : Launch → Prop} (hI : Launch.Lasting I) {n : Nat}
include hI

theorem select (p : Nat) : (Act.select p).Keeps (LaunchAlone n I) :=
  (LaunchAlone.kept (fun l inst h hl _ => hI.handed l inst h hl) hI.blocked fun _ _ _ => hI.unchosen).select p

theorem onLaunch (k : Nat) {f : Launch → Launch} (hf : ∀ l : Launch, l.Unchosen (f l)) :
    (Act.onLaunch k f).Keeps (LaunchAlone n I) := fun _ h => h.onLaunch k fun l _ hl => hI.unchosen l _ hl (hf l)

omit hI in
theorem only {a : Act} (ha : a.Only Effect.offVf) : a.Keeps (LaunchAlone n I) :=
  ha.keepsOf fun s _ he h => h.of_launches (s.launches_apply_offVf he)

theorem endLaunch (k status : Nat) : (Act.endLaunch k status).Keeps (LaunchAlone n I) := .read fun _ => by
  split
  · exact .skip
  · exact .block_cons (only (Act.closeSlice_offVf _)) <|
      .block_cons (.each fun _ => only (Act.toModule_offVf _ _ _)) <|
      .block_cons (.each fun _ => only (Act.endRegion_offVf _)) <|
      .block_cons (.each fun _ => only (.emit rfl)) <|
      .block_cons (hI.onLaunch k fun l => l.finish_unchosen _) .block_nil

theorem killLaunch (k status : Nat) : (Act.killLaunch k status).Keeps (LaunchAlone n I) := .read fun _ => by
  split
  · exact .skip
  · split
    · exact hI.onLaunch k fun _ => ⟨⟨rfl, rfl, rfl, rfl, rfl, id⟩, fun _ => rfl, .of_insts rfl⟩
    · exact hI.endLaunch k status

theorem releaseTeam (m k team : Nat) : (Act.releaseTeam m k team).Keeps (LaunchAlone n I) := .read fun _ => by
  split
  · exact .skip
  · exact .block_cons (hI.onLaunch m fun _ => .of_same ⟨rfl, rfl, rfl, rfl, rfl, id⟩ rfl rfl rfl rfl) <|
      .block_cons (.each fun _ => only (Act.releaseRegion_offVf _ _ _)) .block_nil

theorem checkTeam (m k team : Nat) : (Act.checkTeam m k team).Keeps (LaunchAlone n I) := .read fun _ => by
  split
  · exact .skip
  · exact .when <| .seq (.when <| .each fun _ => only (Act.toModule_offVf _ _ _)) (hI.releaseTeam m k team)

theorem checkBarriers (m : Option Nat) : (Act.checkBarriers m).Keeps (LaunchAlone n I) := by
  cases m with
  | none => exact .skip
  | some m =>
    refine .read fun _ => ?_
    split
    · exact .skip
    · exact .each fun _ => hI.checkTeam m _ _

theorem seamSettled (m : Nat) : (Act.seamSettled m).Keeps (LaunchAlone n I) :=
  .read fun _ => .when <| .seq (hI.endLaunch m _) <| .read fun _ => by
    split
    · exact hI.select _
    · exact .skip

theorem settledOf (m : Option Nat) : (Act.settledOf m).Keeps (LaunchAlone n I) := by
  cases m with
  | none => exact .skip
  | some m => exact hI.seamSettled m

end

end Launch.Lasting

/-! ### A team of a launch that has retired -/

/-- The launch cannot be chosen, and its team of a number has retired. -/
def Launch.RetiredAt (inst : Nat) (l : Launch) : Prop :=
  l.choosable = false ∧ ∀ i ∈ l.insts, i.n = inst → i.retired = true

theorem Launch.RetiredAt.of_sameRetired {inst : Nat} {l m : Launch} (h : l.RetiredAt inst) (hm : l.SameRetired m)
    (hblocked : m.choosable = false) : m.RetiredAt inst :=
  ⟨hblocked, fun j hj hn => by
    obtain ⟨i, hi, hsame, hretired⟩ := hm j hj
    exact hretired.trans (h.2 i hi (hsame.symm.trans hn))⟩

theorem Launch.RetiredAt.lasting (inst : Nat) : Launch.Lasting (Launch.RetiredAt inst) where
  blocked _ h := h.1
  unchosen _ _ h hm := h.of_sameRetired hm.retired (hm.blocked h.1)
  handed l k w h := h.of_sameRetired (l.handed_retired k w) h.1

/-- The team retires, under SHUT where the policy says so. -/
def Launch.retiring (inst : Nat) (shut : Bool) (l : Launch) : Launch :=
  let l := retireInst inst l
  { l with shut := l.shut || shut }

theorem Launch.retiring_retiredAt {l : Launch} (h : l.choosable = false) (inst : Nat) (shut : Bool) :
    (l.retiring inst shut).RetiredAt inst := ⟨h, fun j hj hn => by
  obtain ⟨i, -, rfl⟩ := List.mem_map.mp hj
  split at hn <;> rename_i hi
  · rw [if_pos hi]
  · exact absurd hn hi⟩

theorem Act.dropTakings_offVf (n inst : Nat) : (Act.dropTakings n inst).Only Effect.offVf :=
  .block_cons (.read fun _ => .each fun _ _ => .onRegion fun _ => rfl) <| .block_cons freeRetired_offVf .block_nil

/-- What the retirement of a team does to its launch. -/
def Act.retireFrom (n inst : Nat) (shut kill : Bool) : Act :=
  .block
    [ .onLaunch n fun l => let l := retireInst inst l; { l with shut := l.shut || shut }
    , .dropTakings n inst
    , .when kill (.killLaunch n stKilled)
    , .read fun s =>
        match s.launches.get? n with
        | none => .skip
        | some l =>
          .when (!kill && l.allRetired && l.st != .completing && l.st != .complete && l.st != .freezing)
            ((Act.closeSlice n).seq (.onLaunch n fun l => l.finish (if l.shut then stShut else stDone))) ]

theorem Act.retireFrom_retires {s : State} {n inst : Nat} (shut kill : Bool)
    (h : LaunchWith n (·.choosable = false) s) :
    LaunchAlone n (Launch.RetiredAt inst) ((Act.retireFrom n inst shut kill).run s) := by
  obtain ⟨l, hl, hblocked⟩ := h
  have hI := Launch.RetiredAt.lasting inst
  refine Act.Keeps.after_head (P := LaunchAlone n (Launch.RetiredAt inst)) ?_ <|
    .block_cons (Launch.Lasting.only (Act.dropTakings_offVf n inst)) <|
    .block_cons (.when (hI.killLaunch n _)) <| .block_cons (.read fun _ => ?_) .block_nil
  · rw [Act.run_onLaunch_some _ _ _ hl]
    exact .of_put s (Launch.retiring_retiredAt hblocked inst shut)
  · split
    · exact .skip
    · exact .when <| .seq (Launch.Lasting.only (Act.closeSlice_offVf n)) (hI.onLaunch n fun l => l.finish_unchosen _)

/-! ### The region that retires -/

/-- The part of a retirement that comes before the launch's. -/
def Act.retireRegion (h : Word) (r : Region) : Act :=
  .block
    [ .reportImprecise h
    , .voidLanes r
    , .onRegion h fun r => { r with state := .retired, stopAt := none, exitAt := none, wave := [] }
    , .endDrains h rsRetired ]

section
variable {s : State} {h : Word} {r : Region} (hr : s.regions.get? h = some r)
include hr

theorem Act.run_retire_standalone (hlaunch : r.launch = none) : (Act.retire h).run s = (Act.retireRegion h r).run s := by
  rw [Act.retire, Act.run_read, hr]
  dsimp only
  rw [hlaunch]
  rfl

theorem Act.run_retire_ofLaunch {n : Nat} (hlaunch : r.launch = some n) : (Act.retire h).run s =
    (Act.retireFrom n r.inst (r.imprecise != [] && s.policyOf r 2 == polShut)
      (r.imprecise != [] && s.policyOf r 2 == polKill)).run ((Act.retireRegion h r).run s) := by
  rw [Act.retire, Act.run_read, hr]
  dsimp only
  rw [hlaunch]
  simp only [Act.retireRegion, Act.retireFrom, Act.run_block_cons, Act.run_block_nil] <;> rfl

end

theorem Act.voidLanes_ofFreeing (r : Region) : (Act.voidLanes r).Only Effect.ofFreeing :=
  .each fun _ _ => .read fun _ => .emit rfl

theorem Act.retireRegion_keeps {h : Word} {r : Region} {n : Nat} {I : Launch → Prop}
    (hI : ∀ l code isWritten, I l → I (Launch.counted code isWritten l)) :
    (Act.retireRegion h r).Keeps (LaunchWith n I) := by
  have honRegion : ∀ f, (Act.onRegion h f).Keeps (LaunchWith n I) := fun f => .read fun _ => by
    split
    · exact fun _ hs => hs
    · exact .skip
  exact .block_cons ((LaunchWith.keptByRecords hI).reportImprecise (honRegion _)) <|
    .block_cons (fun s hs => hs.of_launches ((Act.voidLanes_ofFreeing r).freedFrom s).launches) <|
    .block_cons (honRegion _) <| .block_cons (.read fun _ => .each fun _ => .read fun _ _ hs => hs) .block_nil

theorem Act.retireRegion_retires {s : State} {h : Word} {r : Region} (hr : s.regions.get? h = some r)
    (hlaunch : r.launch = none) : StandaloneRetired h ((Act.retireRegion h r).run s) := by
  have hreported : (Act.reportImprecise h).Keeps (RegionWith h (·.launch = none)) :=
    RegionWith.keptByRecords.reportImprecise fun _ hu => hu.onRegion h fun _ hq => hq
  have hvoided : (Act.voidLanes r).Keeps (RegionWith h (·.launch = none)) := .each fun _ => .read fun _ _ hu => hu
  have hdrained : (Act.endDrains h rsRetired).Keeps (StandaloneRetired h) :=
    .read fun _ => .each fun _ => .read fun _ _ hu => hu
  obtain ⟨q, hq, hnone⟩ := hvoided _ (hreported s ⟨r, hr, hlaunch⟩)
  rw [Act.retireRegion]
  simp only [Act.run_block_cons, Act.run_block_nil]
  rw [Act.run_onRegion_some _ _ _ hq]
  exact hdrained _ (.of_put _ hnone rfl)

/-! ### INSTANCE_RETIRE -/

section
variable {s : State} {h : Word} {r : Region} (hr : s.regions.get? h = some r) (hactive : r.active = true)
  (hwave : r.wave = []) (hover : s.over r = true) (hlanded : s.allLanded h = true)
  (hdue : ∀ p ∈ r.cells, (s.cells.get {} (r.cellAt p.1 p.2)).nothingDue = true)
include hr hactive hwave hover hlanded hdue

theorem exec_instanceRetire : exec (.instanceRetire h) s = Act.next (if s.regionOwes h != [] then .atSystem (s.regionOwes h)
    else .block [.retire h, .checkBarriers r.launch, .settledOf r.launch, .select ((s.partOf r.origin.die).getD 31)]) s := by
  have hall : (r.cells.all fun p => (s.cells.get {} (r.cellAt p.1 p.2)).nothingDue) = true := List.all_eq_true.mpr hdue
  show execInstanceRetire h s = _
  rw [execInstanceRetire, hr]
  dsimp only
  rw [hactive, hwave, hover, hlanded, hall]
  rfl

theorem instanceRetire_announces (howes : s.regionOwes h ≠ []) :
    Happens s (.instanceRetire h) fun t => Announces s t (s.regionOwes h) := by
  refine .of_next _ (exec_instanceRetire hr hactive hwave hover hlanded hdue) ?_
  rw [if_pos (bne_iff_ne.mpr howes)]
  exact Act.atSystem_announces howes s

theorem exec_instanceRetire_done (howes : s.regionOwes h = []) : exec (.instanceRetire h) s = Act.next (.block
    [.retire h, .checkBarriers r.launch, .settledOf r.launch, .select ((s.partOf r.origin.die).getD 31)]) s := by
  rw [exec_instanceRetire hr hactive hwave hover hlanded hdue, howes]
  rfl

theorem instanceRetire_standalone (howes : s.regionOwes h = []) (hlaunch : r.launch = none) :
    Happens s (.instanceRetire h) (RegionWith h (·.state = .retired)) := by
  refine .of_next _ (exec_instanceRetire_done hr hactive hwave hover hlanded hdue howes) ?_
  have hretired := Act.retireRegion_retires hr hlaunch
  simp only [Act.run_block_cons, Act.run_block_nil]
  rw [Act.run_retire_standalone hr hlaunch, hlaunch]
  obtain ⟨q, hq, -, -, hst⟩ := StandaloneRetired.kept.select ((s.partOf r.origin.die).getD 31) _ hretired
  exact ⟨q, hq, hst⟩

theorem instanceRetire_ofLaunch {n : Nat} {l : Launch} (howes : s.regionOwes h = []) (hlaunch : r.launch = some n)
    (hl : s.launches.get? n = some l) (hblocked : l.choosable = false) :
    Happens s (.instanceRetire h) (LaunchWith n fun l' => ∀ i ∈ l'.insts, i.n = r.inst → i.retired = true) := by
  refine .of_next _ (exec_instanceRetire_done hr hactive hwave hover hlanded hdue howes) ?_
  have hkept : LaunchWith n (·.choosable = false) ((Act.retireRegion h r).run s) :=
    Act.retireRegion_keeps (fun _ _ _ hc => hc) s ⟨l, hl, hblocked⟩
  have hI := Launch.RetiredAt.lasting r.inst
  have hafter : (Act.block [.checkBarriers (some n), .settledOf (some n), .select ((s.partOf r.origin.die).getD 31)]).Keeps
      (LaunchAlone n (Launch.RetiredAt r.inst)) :=
    .block_cons (hI.checkBarriers _) <| .block_cons (hI.settledOf _) <| .block_cons (hI.select _) .block_nil
  rw [Act.run_block_cons, Act.run_retire_ofLaunch hr hlaunch, hlaunch]
  exact (hafter _ (Act.retireFrom_retires _ _ hkept)).with.mono fun _ h => h.2

end

end Sys2Proof.Machine
end

section
/-!
The course of a launch (R84, R92-R94, R101-R107, R124, R303), each clause by the lemma about its event.
-/
namespace Sys2Proof.Machine

/-- Settles O55: each clause is the lemma about its event; a launch that an event writes is alone under its number, so
that the selection that follows does not take it up again. -/
theorem launchEvents : Obligations.LaunchEvents := by
  intro s
  refine ⟨fun n l hl hst hready => ?_, fun n l hl hst => ?_, fun d p hp => dispatcherSummary_received hp,
    fun n l hl hst hcls hage => ageingPromotion_promotes hl hst hcls hage, fun n l hl hst hover => ?_,
    fun n l hl hst hout => ?_, fun h r hr hactive hwave hover hlanded hdue => ?_⟩
  · refine ⟨fun hfeat => launchIssue_noFeatures hl hst hready hfeat,
      fun hfeat hbad => launchIssue_noRecord hl hst hready hfeat hbad, fun b hfeat halign hcopy => ?_⟩
    have hb := State.recordOf_aligned halign hcopy
    exact ⟨fun status hcheck => launchIssue_refused hl hst hready hb (by rw [hfeat]; exact hcheck),
      fun hcheck => launchIssue_accepted hl hst hready hb hfeat hcheck⟩
  · refine ⟨fun i hi hretired hhandle => imageLoadComplete_lost hl hst ⟨i, hi, hretired, hhandle⟩,
      fun hplaced hcold => ⟨fun va himage => imageLoadComplete_unread hl hst hplaced hcold himage,
        fun m j himage hcheck => imageLoadComplete_rejected hl hst hplaced hcold himage hcheck,
        fun m himage hcheck hroutes hawake hlots hfresh => ?_⟩⟩
    exact imageLoadComplete_starts hl hst hplaced hcold himage hcheck hroutes hawake hlots hfresh
  · exact ⟨fun m hswitch hnext => sliceEnd_switches hl hst hover hswitch hnext,
      fun hnone => sliceEnd_continues hl hst hover hnone⟩
  · exact ⟨fun howes => launchCompletion_announces hl hst hout howes,
      fun howes => launchCompletion_completes hl hst hout howes⟩
  · exact ⟨fun howes => instanceRetire_announces hr hactive hwave hover hlanded hdue howes,
      fun howes hlaunch => instanceRetire_standalone hr hactive hwave hover hlanded hdue howes hlaunch,
      fun n l howes hlaunch hl hblocked =>
        instanceRetire_ofLaunch hr hactive hwave hover hlanded hdue howes hlaunch hl hblocked⟩

end Sys2Proof.Machine
end

section
/-!
A load that is refused while another hart of the die has an odd pc (R143, R378, R385).
-/
namespace Sys2Proof.Machine

/-- Three entries that map the first 16 GiB of die 0 under ASID 0 onto its own HBM4, with every permission, and at
0x50000 the descriptor of an empty fault queue with 16 places at 0x60000. -/
def queuedMemory : Memory :=
  [(0x10000, 0x20001), (0x20000, 0x30001), (0x30000, 0x100F), (0x50000, 0x60000), (0x50008, 16)].foldl
    (fun m e => m.writeN (homeKey 0 e.1) ((leBytes 8 e.2).map some)) []

/-- Hart 0 of die 0 is at an `rg.load` of region 0, of one cell, with an image that is all zeros; hart 1 has an odd pc.
Partition 0 is die 0, and its default fault queue is on. -/
def loadingZeros : State :=
  { State.reset with
    focus := .hart 0 0, mem := queuedMemory
    regs := [((0, RegName.partcfg.off), 0x300), ((0, (RegName.dmap 0).off), 0x800000),
      ((0, (RegName.mtrbase 0).off), 0x10000), ((0, RegName.pdfq.off), 0x50001)]
    regions := [(0, { cols := [0], rows := [0] })]
    harts := [((0, 0), { x := [(12, 0x40000)], xpasid := 0x10000 }), ((0, 1), { pc := 1 })] }

theorem loadingZeros_forms : Forms loadingZeros 0 0 (.rgLoad 10 11 12) where
  focus := rfl
  permits := ⟨_, rfl, rfl, fun _ => nofun⟩
  ok := ⟨rfl, rfl, by decide, nofun⟩
  quiet := rfl
  flight := rfl

/-- The region is on its die, and no drain of it runs. -/
theorem loadingZeros_onTarget :
    OnTarget loadingZeros 0 0 (.rgLoad 10 11 12) 11 0 { cols := [0], rows := [0] } where
  toForms := loadingZeros_forms
  target := rfl
  free := rfl

/-- Its image can be read, and is refused. -/
theorem loadingZeros_image : loadingZeros.readImage 0 (loadingZeros.hartPart 0 0) (loadingZeros.hart 0 0).asid 0x40000 =
    .ok ⟨List.replicate 256 0⟩ := by decide +kernel

theorem loadingZeros_refused : (Image.check ⟨List.replicate 256 0⟩
    ((xenv loadingZeros 0 0).wantOf { cols := [0], rows := [0] } false)).isSome = true := by decide +kernel

/-- The record of the refusal goes to the queue and interrupts every hart of the die; what is stored of hart 1 has an
even pc. -/
theorem loadingZeros_after : ∃ t, exec (.rgLoad 10 11 12) loadingZeros = .next t ∧ (t.hart 0 1).pc = 0 :=
  ⟨_, rfl, by decide +kernel⟩

/-- Refutes O41: its clause on a refused image keeps the pc of every other hart, and nothing holds those to even ones.
In `loadingZeros` the interrupt for the fault record makes the pc of hart 1 even. -/
theorem not_regionOperations : ¬ Obligations.RegionOperations := by
  intro h
  obtain ⟨-, -, -, -, -, hload⟩ := h loadingZeros 0 0 10 11 12 0 { cols := [0], rows := [0] }
  obtain ⟨-, -, hread⟩ := hload loadingZeros_onTarget
  obtain ⟨j, hcheck⟩ := Option.isSome_iff_exists.mp loadingZeros_refused
  obtain ⟨-, hrefused⟩ :=
    hread _ 0x40000 rfl rfl (by decide +kernel) (by decide +kernel) (by decide +kernel) loadingZeros_image
  obtain ⟨t, ht, hretires, -⟩ := hrefused j hcheck
  obtain ⟨u, hu, hpc⟩ := loadingZeros_after
  cases ht.symm.trans hu
  have hkept : (t.hart 0 1).pc = 1 := (hretires.rest 0 1 (by decide)).pc
  rw [hpc] at hkept
  exact absurd hkept (by decide)

end Sys2Proof.Machine
end

section
/-!
What a hart learns of a region, the saving and restoring of its context, and the start of a sweep
(R130-R136, R387-R391).
-/
namespace Sys2Proof.Machine

theorem OnlyStored.regions {s t : State} (h : OnlyStored s t) : t.regions = s.regions :=
  (congrArg State.regions h).trans rfl

theorem aligned_iff {v n : Nat} : aligned v n = true ↔ v % n = 0 := beq_iff_eq

theorem aligned_eq_false {v n : Nat} (h : v % n ≠ 0) : aligned v n = false := beq_eq_false_iff_ne.mpr h

section
variable {s : State} {d n : Nat} {rd rs1 rs2 : Reg} {w : Word} {r : Region}

/-! ### A form's surroundings -/

@[simp] theorem xenv_s (s : State) (d n : Nat) : (xenv s d n).s = s := rfl
@[simp] theorem xenv_d (s : State) (d n : Nat) : (xenv s d n).d = d := rfl
@[simp] theorem xenv_n (s : State) (d n : Nat) : (xenv s d n).n = n := rfl
@[simp] theorem xenv_h (s : State) (d n : Nat) : (xenv s d n).h = s.hart d n := rfl
@[simp] theorem xenv_part (s : State) (d n : Nat) : (xenv s d n).part = s.hartPart d n := rfl
@[simp] theorem xenv_asid (s : State) (d n : Nat) : (xenv s d n).asid = (s.hart d n).asid := rfl

theorem XEnv.target_region {x : XEnv} {v : DWord} (h : x.target v = .ok (w, r)) : x.s.regions.get? w = some r := by
  unfold XEnv.target at h
  split at h
  · cases h
  · split at h
    · cases h
    · split at h
      · cases h
      · split at h
        · cases h
          assumption
        · cases h

/-- The region that a form is on stands in the region table. -/
theorem OnTarget.region {i : Instr} (h : OnTarget s d n i rs1 w r) : s.regions.get? w = some r :=
  XEnv.target_region h.target

/-- A form that may run performs its body, whatever the name under which `exec` finds it. -/
theorem Forms.exec_eq_body {i : Instr} (h : Forms s d n i) (f : State → Out) {a : Allowed} {body : XEnv → Act}
    (hf : f = xordered i a body) (hi : exec i s = f s) (ha : allowedFor i = some a) :
    exec i s = (body (xenv s d n)).next s := by
  rw [hi, hf, h.exec_xordered ha]

/-- The same of a region operation. -/
theorem OnTarget.exec_eq_body {i : Instr} (h : OnTarget s d n i rs1 w r) (f : State → Out)
    {body : XEnv → Word → Region → Act} (hf : f = xregion i rd rs1 body) (hi : exec i s = f s)
    (ha : allowedFor i = some tailorOnly) : exec i s = (body (xenv s d n) w r).next s := by
  rw [hi, hf, h.exec_xregion ha]

/-! ### `rg.drain` -/

theorem Hart.draining_of_wait_none {h : Hart} (hwait : h.wait = none) (w : Word) : h.draining w = none := by
  rw [Hart.draining, hwait]

theorem Hart.draining_of_wait_drain {h : Hart} {c : Nat} (hwait : h.wait = some (.drain c rd w)) :
    h.draining w = some (c, rd) := by
  rw [Hart.draining, hwait]
  exact if_pos rfl

section
variable (h : OnTarget s d n (.rgDrain rd rs1) rs1 w r)
include h

section
variable (hwait : (s.hart d n).wait = none)
include hwait

theorem OnTarget.rgDrain_frozen (hst : r.state = .frozen) : ∃ t, exec (.rgDrain rd rs1) s = .next t ∧
    Answers s t d n rd (BitVec.ofNat 64 ((s.snapshot w r).size * 2 ^ 16)) := by
  refine h.answers ((h.exec_eq_body (execRgDrain rd rs1) rfl rfl rfl).trans ?_)
  dsimp only [xenv_s, xenv_h]
  rw [Hart.draining_of_wait_none hwait, hst, ← BitVec.or_zero (x := BitVec.ofNat 64 ((s.snapshot w r).size * 2 ^ 16))]
  rfl

/-- The drain of a region that stops or freezes holds its hart. -/
theorem OnTarget.rgDrain_holds (hst : r.state = .stopping ∨ r.state = .freezing) :
    ∃ t, exec (.rgDrain rd rs1) s = .next t ∧ OnlyHarts s t ∧ Holds s t d n (.drain s.cycle rd w) := by
  have hexec : exec (.rgDrain rd rs1) s = (Act.holdX d n (.drain s.cycle rd w)).next s := by
    refine (h.exec_eq_body (execRgDrain rd rs1) rfl rfl rfl).trans ?_
    dsimp only [xenv_s, xenv_h]
    rw [Hart.draining_of_wait_none hwait]
    rcases hst with hst | hst
    · rw [hst]
      rfl
    · rw [hst]
      rfl
  exact ⟨_, hexec, rfl, Act.holdX_holds h.ok rfl _⟩

/-- There is nothing to drain in the other states. -/
theorem OnTarget.rgDrain_badState (hst : r.state ∈ [.allocated, .loaded, .running, .retired]) :
    ∃ t, exec (.rgDrain rd rs1) s = .next t ∧ Answers s t d n rd 1 := by
  refine h.answers ((h.exec_eq_body (execRgDrain rd rs1) rfl rfl rfl).trans ?_)
  dsimp only [xenv_h]
  rw [Hart.draining_of_wait_none hwait]
  cases hstate : r.state
  case allocated | loaded | running | retired => rfl
  case stopping | freezing | frozen =>
    rw [hstate] at hst
    exact absurd hst (by decide)

end

section
variable {c : Nat} (hwait : (s.hart d n).wait = some (.drain c rd w))
include hwait

/-- A drain that goes on ends where the region is FROZEN, and says whether a fault froze it. -/
theorem OnTarget.rgDrain_ends_frozen (hst : r.state = .frozen) : ∃ t, exec (.rgDrain rd rs1) s = .next t ∧
    Answers s t d n rd (BitVec.ofNat 64 ((s.snapshot w r).size * 2 ^ 16) ||| if r.fault = none then 0 else 9) := by
  refine h.answers ((h.exec_eq_body (execRgDrain rd rs1) rfl rfl rfl).trans ?_)
  dsimp only [xenv_s, xenv_h]
  rw [Hart.draining_of_wait_drain hwait, hst]
  cases r.fault
  case none => rfl
  case some => rfl

theorem OnTarget.rgDrain_ends_retired (hst : r.state = .retired) :
    ∃ t, exec (.rgDrain rd rs1) s = .next t ∧ Answers s t d n rd 8 := by
  refine h.answers ((h.exec_eq_body (execRgDrain rd rs1) rfl rfl rfl).trans ?_)
  dsimp only [xenv_h]
  rw [Hart.draining_of_wait_drain hwait, hst]
  rfl

theorem OnTarget.rgDrain_waits (hst : r.state = .stopping ∨ r.state = .freezing) :
    exec (.rgDrain rd rs1) s = .next s := by
  refine (h.exec_eq_body (execRgDrain rd rs1) rfl rfl rfl).trans ?_
  dsimp only [xenv_h]
  rw [Hart.draining_of_wait_drain hwait]
  rcases hst with hst | hst
  · rw [hst]
    rfl
  · rw [hst]
    rfl

end

end

/-! ### `rg.stat` -/

section
variable (h : Forms s d n (.rgStat rd rs1 rs2))
include h

/-- A selector or a handle that names nothing reads as all ones. -/
theorem Forms.rgStat_unknown (hbad : 2 < ((s.hart d n).readX rs2).toNat ∨
      s.findHandle d (s.hartPart d n) (((s.hart d n).readX rs1).extractLsb' 0 32) = none) :
    ∃ t, exec (.rgStat rd rs1 rs2) s = .next t ∧ Answers s t d n rd 0xFFFFFFFFFFFFFFFF := by
  refine h.answers ((h.exec_eq_body (execRgStat rd rs1 rs2) (a := bothCores) rfl rfl rfl).trans ?_)
  dsimp only [xenv_s, xenv_d, xenv_h, xenv_part]
  split
  · rfl
  · rename_i hgood
    rw [hbad.resolve_left fun hsel => hgood (by rw [decide_eq_true hsel, Bool.or_true])]
    rfl

/-- The word that is read of a region that the handle names, on the hart's own die where it is a tailor core. -/
theorem Forms.rgStat_answers (hhigh : ((s.hart d n).readX rs1).extractLsb' 32 32 = 0)
    (hw : s.findHandle d (s.hartPart d n) (((s.hart d n).readX rs1).extractLsb' 0 32) = some w)
    (hr : s.regions.get? w = some r) (hdie : isC d = false ∨ handleDie w = d) {k : Nat} (hk : k ≤ 2)
    (hsel : ((s.hart d n).readX rs2).toNat = k) :
    ∃ t, exec (.rgStat rd rs1 rs2) s = .next t ∧ Answers s t d n rd (s.statWord w r k) := by
  have hnear : (isC d && handleDie w != d) = false := by
    rcases hdie with hd | hd
    · rw [hd, Bool.false_and]
    · rw [hd, bne_self_eq_false, Bool.and_false]
  refine h.answers ((h.exec_eq_body (execRgStat rd rs1 rs2) (a := bothCores) rfl rfl rfl).trans ?_)
  simp only [xenv_s, xenv_d, xenv_h, xenv_part, hhigh, hsel, decide_eq_false (Nat.not_lt.mpr hk), hw, hr, hnear]
  rfl

end

/-! ### `rg.save` -/

theorem Region.botHeld_iff : r.botHeld = true ↔ ∃ g ∈ r.given, g.other = true ∧ g.launch ≠ none := by
  simp [Region.botHeld, Option.isSome_iff_ne_none]

/-- What a save that has its room does: the bytes are stored, the vault takes the context, and the region its size. -/
def Act.saveRegion (s : State) (d p : Nat) (asid : Option (BitVec 16)) (va : DWord) (w : Word) (bytes : List Byte)
    (snap : Snapshot) : Act :=
  (Act.emit (.nextId (s.nextId + 1))).seq (.block
    [ .storeLong d p asid va bytes (2 * (bytes.length / 128))
    , .emit (.vault (s.vault ++ [{ part := p, epoch := s.epochs.get 0 p, bytes := bytes, snap := snap }]))
    , .onRegion w fun q => { q with lastSize := bytes.length } ])

theorem Act.run_saveRegion (hr : s.regions.get? w = some r) (p : Nat) (asid : Option (BitVec 16)) (va : DWord)
    (bytes : List Byte) (snap : Snapshot) : ∃ u, OnlyStored s u ∧
      (Act.saveRegion s d p asid va w bytes snap).run s =
        (u.apply (.vault (s.vault ++ [{ part := p, epoch := s.epochs.get 0 p, bytes := bytes, snap := snap }]))).apply
          (.region w (some { r with lastSize := bytes.length })) := by
  have honly : ((Act.emit (.nextId (s.nextId + 1))).seq
      (.storeLong d p asid va bytes (2 * (bytes.length / 128)))).Only Effect.ofStore :=
    .seq (.emit rfl) (storeLong_ofStore _ _ _ _ _ _)
  have hu := honly.stored s
  exact ⟨_, hu, Act.run_onRegion_some _ _ _ ((congrArg (Store.get? · w) hu.regions).trans hr)⟩

section
variable (h : OnTarget s d n (.rgSave rd rs1 rs2) rs1 w r)
include h

theorem OnTarget.rgSave_badState (hst : r.state ≠ .frozen) :
    ∃ t, exec (.rgSave rd rs1 rs2) s = .next t ∧ Answers s t d n rd 1 := by
  refine h.answers ((h.exec_eq_body (execRgSave rd rs1 rs2) rfl rfl rfl).trans ?_)
  dsimp only
  rw [if_pos (bne_iff_ne.mpr hst)]
  rfl

variable (hst : r.state = .frozen)
include hst

theorem OnTarget.rgSave_misaligned (hal : ((s.hart d n).readX rs2).toNat % 4096 ≠ 0) :
    ∃ t, exec (.rgSave rd rs1 rs2) s = .next t ∧ Answers s t d n rd 15 := by
  refine h.answers ((h.exec_eq_body (execRgSave rd rs1 rs2) rfl rfl rfl).trans ?_)
  dsimp only [xenv_h]
  rw [hst, aligned_eq_false hal]
  rfl

variable (hal : ((s.hart d n).readX rs2).toNat % 4096 = 0)
include hal

theorem OnTarget.rgSave_botHeld (hbot : r.botHeld = true) :
    ∃ t, exec (.rgSave rd rs1 rs2) s = .next t ∧ Answers s t d n rd 6 := by
  refine h.answers ((h.exec_eq_body (execRgSave rd rs1 rs2) rfl rfl rfl).trans ?_)
  dsimp only [xenv_h]
  rw [hst, aligned_iff.mpr hal, hbot]
  rfl

section
variable (hbot : r.botHeld = false) {bytes : List Byte}
  (hbytes : s.rciBytes s.nextId (s.hartPart d n) s.arith (s.snapshot w r) = bytes)
  (hroom : s.writable d (s.hartPart d n) (s.hart d n).asid ((s.hart d n).readX rs2) (bytes.length / 128) =
    bytes.length / 128)
include hbot hbytes hroom

theorem OnTarget.exec_rgSave_room : exec (.rgSave rd rs1 rs2) s =
    ((xenv s d n).does rd (.saveRegion s d (s.hartPart d n) (s.hart d n).asid ((s.hart d n).readX rs2) w bytes
      (s.snapshot w r)) 0).next s := by
  refine (h.exec_eq_body (execRgSave rd rs1 rs2) rfl rfl rfl).trans ?_
  dsimp only [xenv_s, xenv_d, xenv_h, xenv_part, xenv_asid]
  rw [hst, aligned_iff.mpr hal, hbot]
  simp only [Act.next_eq, bne_self_eq_false, Bool.not_true, Bool.false_eq_true, if_false, Act.run_fresh, hbytes,
    hroom, lt_irrefl]
  rfl

theorem OnTarget.rgSave_saves : ∃ t, exec (.rgSave rd rs1 rs2) s = .next t ∧ Retires s t d n rd 0 ∧
    t.regions.get? w = some { r with lastSize := bytes.length } ∧
    t.vault = s.vault ++ [{ part := s.hartPart d n, epoch := s.epochs.get 0 (s.hartPart d n), bytes := bytes
                            snap := s.snapshot w r }] := by
  obtain ⟨u, hu, hrun⟩ := Act.run_saveRegion (d := d) h.region (s.hartPart d n) (s.hart d n).asid
    ((s.hart d n).readX rs2) bytes (s.snapshot w r)
  obtain ⟨t, ht, hretires, honly⟩ :=
    h.does_retires (by rw [hrun]; exact hu.harts) (h.exec_rgSave_room hst hal hbot hbytes hroom)
  rw [hrun] at honly
  have hregions : t.regions = u.regions.put w { r with lastSize := bytes.length } := congrArg State.regions honly
  exact ⟨t, ht, hretires, hregions ▸ Store.get?_put_same _ _ _, congrArg State.vault honly⟩

end

end

/-! ### `rg.restore` -/

/-- The region restored is FROZEN, in the place of the region that it was restored into, with the image that was
saved. -/
theorem Act.restoreInto_restores (hr : s.regions.get? w = some r) (x : Snapshot) :
    RegionWith w (fun q => q.state = .frozen ∧ q.imageId = x.region.imageId ∧ q.cols = r.cols ∧ q.rows = r.rows)
      ((Act.restoreInto w x).run s) := by
  rw [Act.restoreInto, Act.run_read, hr]
  simp only [Act.run_block_cons, Act.run_block_nil, Act.run_read, Act.run_emit]
  split
  · exact RegionWith.onLaunch _ _ _ ⟨_, Store.get?_put_same _ _ _, rfl, rfl, rfl, rfl⟩
  · exact ⟨_, Store.get?_put_same _ _ _, rfl, rfl, rfl, rfl⟩

section
variable (h : OnTarget s d n (.rgRestore rd rs1 rs2) rs1 w r)
include h

theorem OnTarget.rgRestore_badState (hst : r.state ≠ .allocated) :
    ∃ t, exec (.rgRestore rd rs1 rs2) s = .next t ∧ Answers s t d n rd 1 := by
  refine h.answers ((h.exec_eq_body (execRgRestore rd rs1 rs2) rfl rfl rfl).trans ?_)
  dsimp only
  rw [if_pos (bne_iff_ne.mpr hst)]
  rfl

variable (hst : r.state = .allocated)
include hst

theorem OnTarget.rgRestore_misaligned (hal : ((s.hart d n).readX rs2).toNat % 4096 ≠ 0) :
    ∃ t, exec (.rgRestore rd rs1 rs2) s = .next t ∧ Answers s t d n rd 15 := by
  refine h.answers ((h.exec_eq_body (execRgRestore rd rs1 rs2) rfl rfl rfl).trans ?_)
  dsimp only [xenv_h]
  rw [hst, aligned_eq_false hal]
  rfl

variable (hal : ((s.hart d n).readX rs2).toNat % 4096 = 0) {e : Rci}
  (he : s.findRci d (s.hartPart d n) (s.hart d n).asid ((s.hart d n).readX rs2) = .ok e)
include hal he

theorem OnTarget.rgRestore_shape (hshape : e.snap.region.width ≠ r.width ∨ e.snap.region.height ≠ r.height) :
    ∃ t, exec (.rgRestore rd rs1 rs2) s = .next t ∧ Answers s t d n rd 3 := by
  have hother : (e.snap.region.width != r.width || e.snap.region.height != r.height) = true := by
    rw [Bool.or_eq_true, bne_iff_ne, bne_iff_ne]
    exact hshape
  refine h.answers ((h.exec_eq_body (execRgRestore rd rs1 rs2) rfl rfl rfl).trans ?_)
  dsimp only [xenv_s, xenv_d, xenv_h, xenv_part, xenv_asid]
  rw [hst, aligned_iff.mpr hal, he]
  dsimp only
  rw [hother]
  rfl

section
variable (hwidth : e.snap.region.width = r.width) (hheight : e.snap.region.height = r.height)
  (hroute : s.blockedRoute { e.snap.region with cols := r.cols, rows := r.rows } = none)
  (hawake : s.asleepIn r.rect = [])
  (hlots : s.lotsReady (e.snap.wants { e.snap.region with cols := r.cols, rows := r.rows }) = true)
include hwidth hheight hroute hawake hlots

theorem OnTarget.exec_rgRestore_fits :
    exec (.rgRestore rd rs1 rs2) s = ((xenv s d n).does rd (.restoreInto w e.snap) 0).next s := by
  have hsame : (e.snap.region.width != r.width || e.snap.region.height != r.height) = false := by
    rw [hwidth, hheight, bne_self_eq_false, bne_self_eq_false, Bool.or_false]
  refine (h.exec_eq_body (execRgRestore rd rs1 rs2) rfl rfl rfl).trans ?_
  simp only [xenv_s, xenv_d, xenv_h, xenv_part, xenv_asid, hst, aligned_iff.mpr hal, he, hsame, hroute, hawake, hlots]
  rfl

theorem OnTarget.rgRestore_restores : ∃ t q, exec (.rgRestore rd rs1 rs2) s = .next t ∧ Retires s t d n rd 0 ∧
    t.regions.get? w = some q ∧ q.state = .frozen ∧ q.imageId = e.snap.region.imageId ∧ q.cols = r.cols ∧
    q.rows = r.rows := by
  have hharts : ((Act.restoreInto w e.snap).run s).harts = s.harts :=
    ((SelectedFrom.kept s).restoreInto trivial e.snap s (.refl s)).harts
  obtain ⟨t, ht, hretires, honly⟩ :=
    h.does_retires hharts (h.exec_rgRestore_fits hst hal he hwidth hheight hroute hawake hlots)
  have hregions : t.regions = ((Act.restoreInto w e.snap).run s).regions := (congrArg State.regions honly :)
  obtain ⟨q, hq, hrestored⟩ := Act.restoreInto_restores h.region e.snap
  exact ⟨t, q, ht, hretires, hregions ▸ hq, hrestored⟩

end

end

/-! ### `lot.sweep` -/

section
variable (h : Forms s d n (.lotSweep rd))
include h

theorem Forms.exec_lotSweep : exec (.lotSweep rd) s = Act.next (
    if (s.lots.get {} d).sweeping then (xenv s d n).ends rd 1
    else (xenv s d n).does rd (.emit (.lots d { s.lots.get {} d with sweeping := true })) 0) s :=
  h.exec_eq_body (execLotSweep rd) (a := tailorOnly) rfl rfl rfl

theorem Forms.lotSweep_refused (hsweep : (s.lots.get {} d).sweeping = true) :
    ∃ t, exec (.lotSweep rd) s = .next t ∧ Answers s t d n rd 1 :=
  h.answers <| by rw [h.exec_lotSweep, if_pos hsweep]

theorem Forms.lotSweep_starts (hsweep : (s.lots.get {} d).sweeping = false) :
    ∃ t, exec (.lotSweep rd) s = .next t ∧ Retires s t d n rd 0 ∧ (t.lots.get {} d).sweeping = true ∧
      t = { s with harts := t.harts, lots := t.lots } ∧ ∀ k, k ≠ d → t.lots.get {} k = s.lots.get {} k := by
  have hexec := h.exec_lotSweep
  rw [hsweep, if_neg Bool.false_ne_true] at hexec
  obtain ⟨t, ht, hretires, honly⟩ := h.does_retires rfl hexec
  have hlots : t.lots = s.lots.put d { s.lots.get {} d with sweeping := true }.proper := congrArg State.lots honly
  refine ⟨t, ht, hretires, ?_, ?_, fun k hk => ?_⟩
  · rw [hlots, Store.get_put_same]
    rfl
  · rw [hlots]
    exact honly
  · rw [hlots, Store.get_put_ne _ _ _ hk]

end

end

/-- Settles O43: each clause is the lemma about its form in that state of the region. -/
theorem regionReports : Obligations.RegionReports := by
  intro s d n rd rs1 rs2
  refine ⟨fun w r h hwait => ⟨h.rgDrain_frozen hwait, h.rgDrain_holds hwait, h.rgDrain_badState hwait⟩,
    fun w r c h hwait => ⟨h.rgDrain_ends_frozen hwait, h.rgDrain_ends_retired hwait, h.rgDrain_waits hwait⟩,
    fun h => ⟨h.rgStat_unknown, fun w r hhigh hw hr hdie => ?_⟩,
    fun w r h => ⟨h.rgSave_badState, h.rgSave_misaligned,
      fun hst hal hbot => h.rgSave_botHeld hst hal (Region.botHeld_iff.mpr hbot), fun hst hal hnone hroom => ?_⟩,
    fun w r h => ⟨h.rgRestore_badState, h.rgRestore_misaligned, fun e hst hal he =>
      ⟨h.rgRestore_shape hst hal he, h.rgRestore_restores hst hal he⟩⟩,
    fun h => ⟨h.lotSweep_refused, h.lotSweep_starts⟩⟩
  · have hreads {k : Nat} (hk : k ≤ 2) := h.rgStat_answers hhigh hw hr hdie hk
    exact ⟨fun hsel => hreads (k := 0) (by decide) (by rw [hsel]; rfl),
      fun hsel => hreads (k := 1) (by decide) (by rw [hsel]; rfl),
      fun hsel => hreads (k := 2) (by decide) (by rw [hsel]; rfl)⟩
  · refine h.rgSave_saves hst hal (Bool.eq_false_iff.mpr fun hbot => ?_) rfl hroom
    obtain ⟨g, hg, hother, hlaunch⟩ := Region.botHeld_iff.mp hbot
    rcases hnone g hg with hnot | hnot
    · exact absurd hother (hnot ▸ Bool.false_ne_true)
    · exact hlaunch hnot

end Sys2Proof.Machine
end

section
/-!
What holds of every firing of a compute element (R150, R156, R160, R161, R165, R312; log 1 for a slot that is not
enabled): an instruction of the opcode map runs by the pattern of a firing, one that leaves markers to the pattern
passes them, and one that computes from its sources writes a result of them.
-/
namespace Sys2Proof.Machine

/-! ### The pattern that each instruction follows -/

section
variable {i : Instr} {op : BitVec 9} {w : CEWord} (h : i.ceParts = some (op, w))
include h

theorem exec_fires : ∃ body, ∀ s, exec i s = fire i w body s := by
  cases i <;> cases h <;> exact ⟨_, fun _ => rfl⟩

theorem exec_firesPassing (hown : ownMarkers i = false)
    (hreads : ∀ x, i ≠ .nop x ∧ i ≠ .halt x ∧ i ≠ .exit x ∧ i ≠ .wclr x) :
    ∃ body, ∀ s, exec i s = firePass i w body s := by
  cases i <;> cases h
  case mov | steer | merge | amerge | filter | absorb | repeatTok | count | mark | rfclr | trap | brk => cases hown
  case nop | halt | exit | wclr => simpa using hreads w
  all_goals exact ⟨_, fun _ => rfl⟩

end

/-- An instruction that passes markers and otherwise writes a result of its sources and surroundings, no more. -/
def Computes (op : CEWord → Instr) : Prop := ∀ w, ∃ r : Env → Src → Src → Src → Res, ∀ s,
  exec (op w) s = firePass (op w) w (fun e a b c => e.yields w [a, b, c] (r e a b c)) s

/-! ### Its effect -/

section
variable {s : State} {i : Instr} {w : CEWord} {e : Env} (body : Env → Src → Src → Src → Act)

theorem fire_stale (henv : s.env = some e) (hen : e.enabled i w = true)
    (hstale : ∃ o ∈ [w.sa, w.sb, w.sc], e.src w o = .stale) :
    fire i w body s = .next ((e.fault w (e.faultRec fLotStale)).run s) := by
  obtain ⟨o, ho, hsrc⟩ := hstale
  unfold fire
  simp only [henv, hen, if_true, Act.next_eq]
  split
  next ha hb hc =>
    rcases List.mem_cons.mp ho with rfl | ho
    · cases hsrc.symm.trans ha
    · rcases List.mem_pair.mp ho with rfl | rfl
      · cases hsrc.symm.trans hb
      · cases hsrc.symm.trans hc
  next => rfl

theorem fire_disabled (h : ∀ e, s.env = some e → e.enabled i w = false) : fire i w body s = .next s := by
  unfold fire
  cases henv : s.env with
  | none => rfl
  | some e => simp only [h e henv, Bool.false_eq_true, if_false, Act.next_eq, Act.run_skip]

end

theorem Computes.completes {op : CEWord → Instr} (h : Computes op) {s : State} {w : CEWord} {e : Env} {a b c : Src}
    (hf : FiresData s (op w) w e a b c) : ∃ t, exec (op w) s = .next t ∧ Completes s t e w := by
  obtain ⟨r, hr⟩ := h w
  obtain ⟨hyields, hkept, honly⟩ := Env.yields_spec hf.env w [a, b, c] (r e a b c)
  exact ⟨_, (hr s).trans (firePass_next hf _), hyields.consumed, hkept, honly⟩

/-- Settles O25: the pattern of the firing passes the marker before the instruction's own body runs. -/
theorem markersPass : Obligations.MarkersPass := by
  intro i op w s e a b c m h hown hreads hf hm
  obtain ⟨body, hbody⟩ := exec_firesPassing h hown hreads
  exact ⟨_, (hbody s).trans (firePass_mark hf hm body), Env.passes_spec hf.env w [a, b, c] m⟩

/-- Settles O26: the pattern of the firing faults before any body runs. -/
theorem staleSourceFaults : Obligations.StaleSourceFaults := by
  intro i op w s e h henv hen hstale hshut
  obtain ⟨body, hbody⟩ := exec_fires h
  exact ⟨_, (hbody s).trans (fire_stale body henv hen hstale), Env.fault_freezes henv w fLotStale hshut⟩

/-- Settles O27: the pattern of the firing looks at the slot first. -/
theorem notEnabledKeeps : Obligations.NotEnabledKeeps := by
  intro i op w s h hen
  obtain ⟨body, hbody⟩ := exec_fires h
  exact (hbody s).trans (fire_disabled body hen)

/-- Settles O28: each instruction listed is by its meaning one that computes, and so completes. -/
theorem computingFrame : Obligations.ComputingFrame := by
  intro op hop s w e a b c hf
  suffices h : Computes op from h.completes hf
  clear hf
  revert op
  simp only [arithOps, bitOps, cmpOps, floatOps, fcmpOps, laneOps, convOps, List.map_cons, List.map_nil,
    List.cons_append, List.nil_append, List.forall_mem_cons, List.not_mem_nil, false_imp_iff, implies_true, and_true]
  and_intros
  all_goals exact fun _ => ⟨_, fun _ => rfl⟩

end Sys2Proof.Machine
end

section
/-!
The bobbin operations of a cell on its own declarations (R178, R361-R363).
-/
namespace Sys2Proof.Machine

/-! ### A firing on the own memory element that touches no line -/

/-- A firing that meets no marker was found enabled by the condition of its own instruction. -/
theorem FiresData.adds {s : State} {i : Instr} {w : CEWord} {e : Env} {a b c : Src} (h : FiresData s i w e a b c) :
    e.adds i a b c = true := by
  have hen := h.enabled
  unfold Env.enabled at hen
  simpa [h.sa, h.sb, h.sc, h.data] using (Bool.and_eq_true_iff.mp hen).2

section
variable {e : Env} {w : CEWord} {op : MeOp} (hremote : w.remote = false) (hop : op.offset = none)
include hremote hop

theorem Env.isLocal_of_noLine : e.isLocal w op = true := by
  simp [Env.isLocal, Env.boundTo, hremote, hop]

theorem Env.meReady_noLine {reqs : List Nat} (h : e.meReady w op reqs = true) : e.meLocal op reqs ≠ .wait := by
  simpa [Env.meReady, Env.isLocal_of_noLine hremote hop, Env.lineBusy, hop] using h

theorem FiresData.runs_local {s : State} {i : Instr} {a b c : Src} {reqs after : List Nat} {ver : Got → BitVec 4}
    {val : Vec → Option Val} {body : Env → Src → Src → Src → Act} (h : FiresData s i w e a b c)
    (hexec : exec i s = firePass i w body s)
    (hbody : body e a b c = e.meAct w [a, b, c] op reqs after ver val) :
    exec i s = .next ((e.runLocal w [a, b, c] op reqs ver val).run s) := by
  rw [hexec, firePass_next h, hbody, Env.meAct, if_pos (Env.isLocal_of_noLine hremote hop)]

end

/-! ### The results of a local operation -/

/-- The outputs named get EOS, with the version of the sources (R165, R362). -/
def PassesEos (s t : State) (e : Env) (w : CEWord) (srcs : List Src) : Prop :=
  ∀ o ∈ outsOf w.dst, (e.ceIn t).outList o = e.c.ce.outList o ++
    [.filled { body := emptyBody o, ctx := outCtx w, ver := verFor o (verOf srcs), mark := .eos, since := s.cycle }]

section
variable {s : State} {i : Instr} {w : CEWord} {e : Env} {srcs : List Src} {op : MeOp} {reqs : List Nat}
  {ver : Got → BitVec 4} {val : Vec → Option Val} (henv : s.env = some e)
  (hexec : exec i s = .next ((e.runLocal w srcs op reqs ver val).run s))
include henv hexec

theorem local_gives {m : Me} {g : Got} {x : Val} (hok : e.meLocal op reqs = .ok m g) (hval : val g.value = some x) :
    ∃ t, exec i s = .next t ∧ OnMe s t e w m ∧ Gives e t w (ver g) x ∧ SetsPred (e.ceIn t) w g.flag := by
  rw [Env.runLocal_ok hval hok] at hexec
  obtain ⟨hme, hpred⟩ := Env.meDone_spec henv w m (fun c => c.write w.dst (e.stamp w (ver g)) x) g.flag
    (Ce.write_consumed e.c.ce w _ x) (Ce.write_kept e.c.ce w _ x)
  exact ⟨_, hexec, hme, Env.meDone_gives henv w m g.flag (ver g) x, hpred⟩

theorem local_quiet {m : Me} {g : Got} (hok : e.meLocal op reqs = .ok m g) (hval : val g.value = none) :
    ∃ t, exec i s = .next t ∧ OnMe s t e w m ∧ SetsPred (e.ceIn t) w g.flag := by
  rw [Env.runLocal_quiet hval hok] at hexec
  exact ⟨_, hexec, Env.meDone_spec henv w m _ g.flag (Ce.consume_consumed e.c.ce w) (Ce.consume_kept _ w).ofNoDst⟩

theorem local_faults {code : Nat} (hfault : e.meLocal op reqs = .fault code) (hop : op.offset = none)
    (hshut : NotShut s e) : ∃ t, exec i s = .next t ∧ Freezes s t e code := by
  simp only [Env.runLocal, hfault, hop] at hexec
  exact ⟨_, hexec, Env.fault_freezes henv w code hshut⟩

theorem local_eos (heos : e.meLocal op reqs = .eos) :
    ∃ t, exec i s = .next t ∧ OnMe s t e w e.c.me ∧ SetsPred (e.ceIn t) w false ∧ PassesEos s t e w srcs := by
  simp only [Env.runLocal, heos, (State.env_spec henv).1] at hexec
  obtain ⟨hme, hpred⟩ := Env.meDone_spec henv w e.c.me
    (fun c => c.pass w.dst (outCtx w) (verOf srcs) .eos s.cycle) false
    (Ce.pushes_consumed e.c.ce w _) (Ce.pushes_kept _ w _)
  refine ⟨_, hexec, hme, hpred, fun o ho => ?_⟩
  obtain ⟨k, n, hcell⟩ := Env.meDone_cell henv w e.c.me
    (fun c => c.pass w.dst (outCtx w) (verOf srcs) .eos s.cycle) false
  rw [Env.ceIn, hcell, Ce.outList_last, Ce.setPred_outs]
  exact (Ce.pass_marks e.c.ce w { e.stamp w (verOf srcs) with now := s.cycle } .eos).outs o ho

end

/-! ### What each operation does to a bobbin (R361-R363) -/

theorem wordVal_wordVec (x : Word) : wordVal (wordVec x) = some (.scal x) := by
  have hx : (wordVec x).extractLsb' 0 32 = x := BitVec.eq_of_toNat_eq (by
    have := x.isLt
    simp only [wordVec, BitVec.extractLsb'_toNat, BitVec.toNat_ofNat]
    omega)
  simp only [wordVal, hx]

section
variable {s : State} {e : Env} {i : Nat} {reqs : List Nat} {b0 b : Bobbin} (henv : s.env = some e)
  (hdecl : e.c.me.decls.get? i = some (.bobbin b0)) (hsettle : b0.settle s.reqDone = b)
include henv hdecl hsettle

theorem Env.ring_res_closed (hclosed : b.closed = true) :
    e.meLocal (.ringRes i) reqs = .ok e.c.me { value := wordVec 0xFFFFFFFF } := by
  simp only [Env.meLocal, meOp, meRing, Me.bobbin, hdecl, (State.env_spec henv).1, hsettle, hclosed, if_true]

/-- Of an open bobbin: it waits only when every slot is in use. -/
theorem Env.ring_res_open (hopen : b.closed = false) (hwait : e.meLocal (.ringRes i) reqs ≠ .wait) :
    e.meLocal (.ringRes i) reqs =
      .ok (e.c.me.putDecl i (.bobbin { b with res := b.res + 1 })) { value := wordVec b.res, flag := true } := by
  simp only [Env.meLocal, meOp, meRing, Me.bobbin, hdecl, (State.env_spec henv).1, hsettle, hopen,
    Bool.false_eq_true, if_false] at hwait ⊢
  split at hwait
  next hroom => rw [if_pos hroom]
  next => exact absurd rfl hwait

section
variable {j : Word}

theorem Env.ring_pub_fresh (hreqs : reqs = [])
    (hfresh : (j - b.tail).toNat < (b.res - b.tail).toNat ∧ b.pub.getLsbD (j.toNat % b.slots) = false) :
    e.meLocal (.ringPub i j) reqs =
      .ok (e.c.me.putDecl i (.bobbin
          (Bobbin.advance { b with pub := b.pub ||| (1#256 <<< (j.toNat % b.slots)) } b.slots)))
        { flag := true } := by
  obtain ⟨hreserved, hunpublished⟩ := hfresh
  simp only [Env.meLocal, meOp, meRing, Me.bobbin, hdecl, (State.env_spec henv).1, hsettle, hreqs,
    Bobbin.slotBit, hreserved, hunpublished, decide_true, Bool.not_false, Bool.and_true, if_true]

variable (hfresh : ¬((j - b.tail).toNat < (b.res - b.tail).toNat ∧ b.pub.getLsbD (j.toNat % b.slots) = false))
include hfresh

theorem Env.ring_pub_not_fresh : e.meLocal (.ringPub i j) reqs =
    if b.wasReserved j then .ok e.c.me {} else .fault fRing := by
  simp only [Env.meLocal, meOp, meRing, Me.bobbin, hdecl, (State.env_spec henv).1, hsettle, Bobbin.slotBit]
  exact if_neg (by simpa using hfresh)

theorem Env.ring_pub_late (hlate : b.wasReserved j = true) : e.meLocal (.ringPub i j) reqs = .ok e.c.me {} := by
  rw [Env.ring_pub_not_fresh henv hdecl hsettle hfresh, if_pos hlate]

theorem Env.ring_pub_never (hnever : b.wasReserved j = false) :
    e.meLocal (.ringPub i j) reqs = .fault fRing := by
  rw [Env.ring_pub_not_fresh henv hdecl hsettle hfresh, hnever, if_neg Bool.false_ne_true]

end

/-- A pop or a peek at a drained bobbin waits unless the bobbin is closed. -/
theorem Env.ring_drained (hdrained : b.head = b.tail) {op : MeOp} (hop : op = .ringPop i ∨ op = .ringPeek i)
    (hwait : e.meLocal op reqs ≠ .wait) : b.closed = true ∧ e.meLocal op reqs = .eos := by
  have hends : e.meLocal op reqs = if b.closed then .eos else .wait := by
    rcases hop with rfl | rfl <;>
      simp only [Env.meLocal, meOp, meRing, Me.bobbin, hdecl, (State.env_spec henv).1, hsettle, hdrained,
        bne_self_eq_false, Bool.false_eq_true, if_false]
  rw [hends] at hwait ⊢
  cases hclosed : b.closed
  · exact absurd (by rw [hclosed, if_neg Bool.false_ne_true]) hwait
  · exact ⟨rfl, rfl⟩

section
variable (hslot : b.head ≠ b.tail)
include hslot

theorem Env.ring_pop_slot : e.meLocal (.ringPop i) reqs =
    .ok (e.c.me.putDecl i (.bobbin { b with head := b.head + 1 })) { value := wordVec b.head, flag := true } := by
  simp only [Env.meLocal, meOp, meRing, Me.bobbin, hdecl, (State.env_spec henv).1, hsettle,
    bne_iff_ne.mpr hslot, if_true]

theorem Env.ring_peek_slot : e.meLocal (.ringPeek i) reqs =
    .ok (e.c.me.putDecl i (.bobbin b)) { value := wordVec b.head, flag := true } := by
  simp only [Env.meLocal, meOp, meRing, Me.bobbin, hdecl, (State.env_spec henv).1, hsettle,
    bne_iff_ne.mpr hslot, if_true]

end

theorem Env.ring_close :
    e.meLocal (.ringClose i) reqs = .ok (e.c.me.putDecl i (.bobbin b.close)) {} := by
  simp only [Env.meLocal, meOp, meRing, Me.bobbin, hdecl, (State.env_spec henv).1, hsettle]

theorem Env.ring_stat : e.meLocal (.ringStat i) reqs =
    .ok e.c.me { value := wordVec (BitVec.ofNat 32 ((b.tail - b.head).toNat % 512 +
      (b.slots - (b.res - b.head).toNat) % 512 * 2 ^ 16 + if b.closed then 2 ^ 31 else 0)), flag := b.closed } := by
  simp only [Env.meLocal, meOp, meRing, Me.bobbin, hdecl, (State.env_spec henv).1, hsettle, Bobbin.inUse]

end

theorem Bobbin.close_spec (b : Bobbin) : b.close.closed = true ∧ b.close.head = b.head ∧ b.close.tail = b.tail ∧
    (b.closed = true → b.close = b) ∧ (b.closed = false → b.close.res = b.tail ∧ b.close.pub = 0) := by
  unfold Bobbin.close
  cases h : b.closed <;> simp [h]

/-- A pop or a peek, which at a slot leaves the bobbin as x. -/
theorem FiresData.takes {s : State} {i : Instr} {w : CEWord} {e : Env} {a b c : Src} {n : Nat} {r0 r x : Bobbin}
    {op : MeOp} (hf : FiresData s i w e a b c) (hdecl : e.c.me.decls.get? n = some (.bobbin r0))
    (hsettle : r0.settle s.reqDone = r) (hop : op = .ringPop n ∨ op = .ringPeek n)
    (hrun : exec i s = .next ((e.runLocal w [a, b, c] op [] (fun _ => verOf [a, b, c]) wordVal).run s))
    (hwait : e.meLocal op [] ≠ .wait) (hslot : r.head ≠ r.tail →
      e.meLocal op [] = .ok (e.c.me.putDecl n (.bobbin x)) { value := wordVec r.head, flag := true }) :
    (r.head ≠ r.tail → ∃ t, exec i s = .next t ∧ OnMe s t e w (e.c.me.putDecl n (.bobbin x)) ∧
      Gives e t w (verOf [a, b, c]) (.scal r.head) ∧ SetsPred (e.ceIn t) w true) ∧
    (r.head = r.tail → r.closed = true ∧ ∃ t, exec i s = .next t ∧ OnMe s t e w e.c.me ∧
      SetsPred (e.ceIn t) w false ∧ PassesEos s t e w [a, b, c]) := by
  refine ⟨fun h => local_gives hf.env hrun (hslot h) (wordVal_wordVec r.head), fun h => ?_⟩
  obtain ⟨hclosed, heos⟩ := Env.ring_drained hf.env hdecl hsettle h hop hwait
  exact ⟨hclosed, local_eos hf.env hrun heos⟩

/-- Settles O32: what a local operation answers of the bobbin, by its state, is what the firing does. -/
theorem bobbinResults : Obligations.BobbinResults := by
  intro s w e a b c r0 i r puts keeps gives hremote hdecl
  refine ⟨fun hf => ?res, fun hf hreqs => ?pub, fun op hop => ?take, fun hf => ?close, fun hf => ?stat⟩
  case res =>
    have hrun := hf.runs_local hremote (op := .ringRes i) rfl rfl rfl
    have hwait := Env.meReady_noLine hremote (op := .ringRes i) rfl hf.adds
    exact ⟨fun hopen => local_gives hf.env hrun (Env.ring_res_open hf.env hdecl rfl hopen hwait) (wordVal_wordVec _),
      fun hclosed => local_gives hf.env hrun (Env.ring_res_closed hf.env hdecl rfl hclosed) (wordVal_wordVec _)⟩
  case pub =>
    have hrun := hf.runs_local hremote (op := .ringPub i a.val.word) rfl rfl rfl
    refine ⟨fun hfresh => ?_,
      fun hfresh hlate => local_quiet hf.env hrun (Env.ring_pub_late hf.env hdecl rfl hfresh hlate) rfl,
      fun hfresh hnever => local_faults hf.env hrun (Env.ring_pub_never hf.env hdecl rfl hfresh hnever) rfl⟩
    obtain ⟨t, ht, hme, hpred⟩ := local_quiet hf.env hrun (Env.ring_pub_fresh hf.env hdecl rfl hreqs hfresh) rfl
    exact ⟨t, ht, hpred, hme⟩
  case take =>
    rcases List.mem_pair.mp hop with rfl | rfl
    · exact fun hf => hf.takes hdecl rfl (.inl rfl) (hf.runs_local hremote rfl rfl rfl)
        (Env.meReady_noLine hremote rfl (Bool.and_eq_true_iff.mp hf.adds).1) (Env.ring_pop_slot hf.env hdecl rfl)
    · exact fun hf => hf.takes hdecl rfl (.inr rfl) (hf.runs_local hremote rfl rfl rfl)
        (Env.meReady_noLine hremote rfl hf.adds) (Env.ring_peek_slot hf.env hdecl rfl)
  case close =>
    have hrun := hf.runs_local hremote (op := .ringClose i) rfl rfl rfl
    obtain ⟨t, ht, hme, -⟩ := local_quiet hf.env hrun (Env.ring_close hf.env hdecl rfl) rfl
    exact ⟨t, _, ht, hme, r.close_spec⟩
  case stat =>
    have hrun := hf.runs_local hremote (op := .ringStat i) rfl rfl rfl
    obtain ⟨t, ht, hme, hgives, hpred⟩ :=
      local_gives hf.env hrun (Env.ring_stat hf.env hdecl rfl) (wordVal_wordVec _)
    exact ⟨t, ht, hme, hpred, hgives⟩

end Sys2Proof.Machine
end

section
/-!
A bank token on its way to an instance whose context is saved while its region still stands (R110, R115, R364).
-/
namespace Sys2Proof.Machine

/-- A launch in a gang switch, of two levels with two instances: die 1 has sent READY, die 0 has not. -/
def gangInSwitch : Launch :=
  { recAddr := 0x40000, reply := 0, issuer := .host 24, part := 0, vd := 0, st := .switching
    copy := List.replicate 10 0 ++ [2] ++ List.replicate 253 0 ++ leBytes 8 2
    insts := [{ n := 0, handle := some 0 }, { n := 1, handle := some 0x1000000 }]
    switch := some { tick := 0, deadline := 1000, ticked := [0, 1], ready := [1] } }

/-- Instance 0, which still stops: one cell, at the origin of die 0. -/
def stoppingGiver : Region := { state := .stopping, launch := some 0, cols := [0], rows := [0], cells := [(0, 0)] }

/-- Instance 1, which is FROZEN: one cell, at the origin of die 1. -/
def frozenTaker : Region :=
  { state := .frozen, launch := some 0, inst := 1, cols := [96], rows := [0], cells := [(0, 0)] }

/-- Bank 0 of the giver's cell. -/
def givenBank : BankRef := { handle := 0, giver := some (0, 0), col := 0, row := 0, bank := 0, lot := 0 }

/-- A `bot.give` of bank 0 to cell (0, 0) of instance 1, with no access left to wait for. -/
def giveToFrozen : Later := { id := 1, op := .give 0 0 0 1 false givenBank, reqs := [] }

/-- The switch is open, instance 1 is saved (R115), and the cell of instance 0 gives its bank to that of instance 1. -/
def savedTaker : State :=
  { State.reset with
    regions := [(0, stoppingGiver), (0x1000000, frozenTaker)]
    launches := [(0, gangInSwitch)]
    saves := [((0, 1), { region := frozenTaker, handle := 0x1000000, cells := [], reqs := [] })]
    cells := [({ die := 0, col := 0, row := 0 }, { me := { later := [giveToFrozen] } })] }

/-- The dispatcher holds the token; the cell of the saved instance does not get it. -/
theorem savedTaker_after : ∃ t, exec (.botTokenSend { die := 0, col := 0, row := 0 } 0) savedTaker = .next t ∧
    ((t.cells.get {} (frozenTaker.cellAt 0 0)).me.bank 0).tokens = [] :=
  ⟨_, rfl, by decide +kernel⟩

/-- Refutes O57: its clause on a bank token does not ask that the taker has no saved context. In `savedTaker` the
dispatcher keeps the token (`Act.tokenTo`), and the cell does not get it. -/
theorem not_fabricEvents : ¬ Obligations.FabricEvents := by
  intro h
  obtain ⟨-, -, -, -, -, -, -, hgive, -⟩ := h savedTaker
  obtain ⟨hreaches, -⟩ := hgive { die := 0, col := 0, row := 0 } 0 ⟨0, stoppingGiver, 0, 0⟩ giveToFrozen []
    0 0 1 false givenBank rfl rfl rfl rfl nofun 0 gangInSwitch rfl rfl rfl (by decide) (by decide)
  obtain ⟨t, ht, -, htokens⟩ := hreaches 0x1000000 frozenTaker rfl rfl (by decide) (by decide)
  obtain ⟨u, hu, hnone⟩ := savedTaker_after
  cases ht.symm.trans hu
  exact absurd (htokens.symm.trans hnone) (by simp)

end Sys2Proof.Machine
end

section
/-!
A step runs what its turn comes to (R150, R151, R276): the schedule is the model's (log 2), and words of the base set
run as log 9 says.
-/
namespace Sys2Proof.Machine

/-- The state in which a turn of the schedule runs: it has left the schedule, and its time has passed. -/
def State.atTurn (s : State) (dt : Nat) (rest : List (Nat × Turn)) : State :=
  { s with agenda := rest, cycle := s.cycle + dt, focus := .none }

section
variable {s : State} {dt : Nat} {rest : List (Nat × Turn)}

theorem Act.run_advance : (Act.advance dt rest .none).run s = s.atTurn dt rest := rfl

section
variable {t : Turn} (h : s.agenda = (dt, t) :: rest)
include h

theorem step_of_job_run {f : Focus} {i : Instr} (hjob : (s.atTurn dt rest).job t = .run f i) :
    step s = exec i { s.atTurn dt rest with focus := f } := by
  unfold step
  simp only [h, Act.run_advance, hjob]
  rfl

theorem step_of_job_base {d n : Nat} {w : BitVec 32} {a : Act} (hjob : (s.atTurn dt rest).job t = .base d n w)
    (hbase : (s.atTurn dt rest).baseJob d n w = some a) : step s = .next (a.run (s.atTurn dt rest)) := by
  unfold step
  simp only [h, Act.run_advance, hjob, hbase]

end

theorem step_idle (h : s.agenda = []) : step s = .next { s with cycle := s.cycle + 1 } := by
  unfold step
  split
  next => rfl
  next hcons => cases h.symm.trans hcons

end

/-! ### What a turn comes to -/

section
variable {s : State} {d n : Nat} {w : BitVec 32} (hexists : hartExists d n = true)
  (hrunning : (s.hart d n).running = true) (hint : (s.hart d n).interrupted = none)
  (hready : s.memoryReady d = true) (hfetch : s.fetchWord d n = some w)
include hexists hrunning hint hready hfetch

theorem State.hartJob_runs {i : Instr} (hdecode : decodeHart w = .ok i) : s.hartJob d n = .run (.hart d n) i := by
  unfold State.hartJob
  simp only [hexists, hrunning, hint, hready, hfetch, hdecode, Bool.not_true, Bool.false_eq_true, if_false]

theorem State.hartJob_base {e : DecodeError} (hdecode : decodeHart w = .error e) : s.hartJob d n = .base d n w := by
  unfold State.hartJob
  simp only [hexists, hrunning, hint, hready, hfetch, hdecode, Bool.not_true, Bool.false_eq_true, if_false]

end

theorem State.ceJob_selected {s : State} {c : CellId} {slot : Nat} {i : Instr} (hok : c.ok = true)
    (hsel : s.selected c = some (slot, i)) : s.ceJob c = .run (.ce c slot) i := by
  unfold State.ceJob
  simp only [hok, if_true, hsel]

/-- Settles O59: each kind of turn by what it comes to in the state in which it runs. -/
theorem stepRunsDecoded : Obligations.StepRunsDecoded := by
  intro s dt rest now
  exact ⟨fun d n w i h hexists hrunning hint hready hfetch hdecode =>
      step_of_job_run h (State.hartJob_runs hexists hrunning hint hready hfetch hdecode),
    fun d n w e a h hexists hrunning hint hready hfetch hdecode hbase =>
      step_of_job_base h (State.hartJob_base hexists hrunning hint hready hfetch hdecode) hbase,
    fun c slot i h hok hsel => step_of_job_run h (State.ceJob_selected hok hsel),
    fun i h => step_of_job_run h rfl, step_idle⟩

end Sys2Proof.Machine
end

section
/-!
Stores and full/empty bits on the cell's own scratchpad (R203, R356, R360).
-/
namespace Sys2Proof.Machine

/-! ### Bytes of a line -/

/-- A bit of packed elements is one of the element that holds it. -/
theorem packElems_testBit {w : Nat} (hw : 0 < w) (l : List Nat) (p : Nat) :
    (packElems w l).testBit p = (l.getD (p / w) 0).testBit (p % w) := by
  induction l generalizing p with
  | nil => simp [packElems]
  | cons x r ih =>
    rw [packElems, Nat.add_comm, Nat.testBit_two_pow_mul_add _ (Nat.mod_lt _ (Nat.two_pow_pos w))]
    split
    · rename_i hp
      rw [Nat.testBit_mod_two_pow, Nat.div_eq_of_lt hp, Nat.mod_eq_of_lt hp]
      simp [hp]
    · rename_i hp
      have hwp : w ≤ p := Nat.le_of_not_lt hp
      rw [ih, Nat.div_eq_sub_div hw hwp, Nat.mod_eq_sub_mod hwp, List.getD_cons_succ]

theorem maskBits_testBit (mask : BitVec 16) (groups p : Nat) :
    (maskBits mask groups).testBit p = (decide (p < 32 * groups) && mask.getLsbD (p / 32)) := by
  rw [maskBits, packElems_testBit (by decide)]
  by_cases hp : p / 32 < groups
  · have hlt : p < 32 * groups := by omega
    have hones : Nat.testBit 4294967295 (p % 32) = true :=
      (Nat.testBit_two_pow_sub_one 32 _).trans (decide_eq_true (Nat.mod_lt _ (by decide)))
    cases hm : mask.getLsbD (p / 32)
    · simp [List.getD, hp, hm]
    · simp [List.getD, hp, hm, hlt, hones]
  · have hlt : ¬ p < 32 * groups := by omega
    simp [List.getD, hp, hlt]

theorem Line.byteAt_bit (l : Line) {k i : Nat} (hi : i < 8) : (l.byteAt k).getLsbD i = l.data.getLsbD (8 * k + i) := by
  simp [Line.byteAt, hi]

/-- A bit of a line after a write of v from byte `off` on, where the bits of m are 1. -/
theorem Line.put_bit (l : Line) (off m v : Nat) {p : Nat} (hp : p < 1024) : (l.put off m v).data.getLsbD p =
    if 8 * off ≤ p ∧ m.testBit (p - 8 * off) = true then v.testBit (p - 8 * off) else l.data.getLsbD p := by
  have hshift (x : Nat) : (BitVec.ofNat 1024 (x * 2 ^ (8 * off))).getLsbD p =
      (decide (8 * off ≤ p) && x.testBit (p - 8 * off)) := by
    rw [BitVec.getLsbD_ofNat, Nat.mul_comm, Nat.testBit_two_pow_mul]
    simp [hp]
  simp only [Line.put, BitVec.getLsbD_or, BitVec.getLsbD_and, BitVec.getLsbD_not, hshift, hp, decide_true, Bool.true_and]
  by_cases hoff : 8 * off ≤ p
  · cases m.testBit (p - 8 * off) <;> simp [hoff]
  · simp [hoff]

@[simp] theorem Line.put_lot (l : Line) (off m v : Nat) : (l.put off m v).lot = l.lot := rfl
@[simp] theorem Line.put_full (l : Line) (off m v : Nat) : (l.put off m v).full = l.full := rfl

/-- A byte of a line after a store of n bytes from `off` on, of which the mask enables groups of four. -/
theorem Line.byteAt_put_masked (l : Line) (off : Nat) (mask : BitVec 16) {n : Nat} (data : Vec) (hn : n % 4 = 0)
    {k : Nat} (hk : k < 128) :
    (l.put off (maskBits mask (n / 4)) (data.toNat % 2 ^ (8 * n))).byteAt k =
      if off ≤ k ∧ k - off < n ∧ mask.getLsbD ((k - off) / 4) = true then data.extractLsb' (8 * (k - off)) 8
      else l.byteAt k := by
  refine BitVec.eq_of_getLsbD_eq fun i hi => ?_
  rw [Line.byteAt_bit _ hi, Line.put_bit _ _ _ _ (by omega), maskBits_testBit]
  by_cases hoff : off ≤ k
  · have hsub : 8 * k + i - 8 * off = 8 * (k - off) + i := by omega
    have hgroup : (8 * (k - off) + i) / 32 = (k - off) / 4 := by omega
    have hin : 8 * (k - off) + i < 32 * (n / 4) ↔ k - off < n := by omega
    have hbyte : 8 * off ≤ 8 * k + i := by omega
    rw [hsub, hgroup]
    by_cases hnow : k - off < n ∧ mask.getLsbD ((k - off) / 4) = true
    · obtain ⟨hlt, hmask⟩ := hnow
      have hbit : 8 * (k - off) + i < 8 * n := by omega
      rw [if_pos ⟨hbyte, by rw [hmask, decide_eq_true (hin.mpr hlt)]; rfl⟩, if_pos ⟨hoff, hlt, hmask⟩,
        Nat.testBit_mod_two_pow, decide_eq_true hbit, Bool.true_and, BitVec.getLsbD_extractLsb']
      simp [hi, BitVec.getLsbD]
    · rw [if_neg fun h => hnow ?_, if_neg fun h => hnow h.2, Line.byteAt_bit _ hi]
      obtain ⟨hlt, hmask⟩ := Bool.and_eq_true_iff.mp h.2
      exact ⟨hin.mp (of_decide_eq_true hlt), hmask⟩
  · have hbyte : ¬ 8 * off ≤ 8 * k + i := by omega
    rw [if_neg fun h => hbyte h.1, if_neg fun h => hoff h.1, Line.byteAt_bit _ hi]

theorem Line.stamped_lot (l : Line) (x : LineAcc) : (l.stamped x).lot = x.own := by
  rw [Line.stamped]
  split
  · rename_i hown
    exact eq_of_beq (Bool.and_eq_true_iff.mp hown).2
  · rfl

theorem Line.stamped_full (l : Line) (x : LineAcc) : (l.stamped x).full = (l.isOwn x && l.full) := by
  rw [Line.stamped]
  split
  · rename_i hown
    rw [hown, Bool.true_and]
  · rename_i hown
    rw [Bool.eq_false_iff.mpr hown, Bool.false_and]

theorem Line.stamped_byteAt (l : Line) (x : LineAcc) (k : Nat) :
    (l.stamped x).byteAt k = if l.isOwn x then l.byteAt k else 0 := by
  rw [Line.stamped]
  split
  · rfl
  · simp [Line.byteAt]

theorem Me.line_putLine (m : Me) (n k : Nat) (l : Line) : (m.putLine n l).line k = if k = n then l else m.line k := by
  rw [Me.line, Me.putLine, Store.get_put, Me.line]

/-! ### A firing on a line of the own scratchpad -/

/-- A firing on a line that is its own finds what the image says of it, under STEPOVER in mode Z (R148). -/
theorem Env.meLocal_line (e : Env) (op : MeOp) (reqs : List Nat) {n : Nat} {x : LineAcc} (hx : e.acc n = some x) :
    ∃ acc : Nat → Option LineAcc, ∃ m : LotMode, acc n = some { x with mode := m } ∧
      e.meLocal op reqs = meOp e.c.me acc e.s.reqDone reqs none op := by
  by_cases hstep : e.suppress = some fLotStale
  · exact ⟨asModeZ e.acc, .z, by rw [asModeZ, hx]; rfl, by rw [Env.meLocal, if_pos hstep]⟩
  · exact ⟨e.acc, x.mode, hx, by rw [Env.meLocal, if_neg hstep]⟩

section
variable {e : Env} {w : CEWord} {off : Nat} {x : LineAcc} (h : OwnLine e w off x) {op : MeOp} (hop : op.offset = some off)
include h hop

theorem OwnLine.isLocal : e.isLocal w op = true := by
  have hbound := h.unbound
  simp [Env.isLocal, Env.boundTo, h.here, hop, h.inside, lineOf, hbound]

theorem OwnLine.ready {reqs : List Nat} (hready : e.meReady w op reqs = true) : e.meLocal op reqs ≠ .wait := by
  rw [Env.meReady, if_pos (h.isLocal hop)] at hready
  exact bne_iff_ne.mp (Bool.and_eq_true_iff.mp hready).2

theorem OwnLine.runs_local {s : State} {i : Instr} {a b c : Src} {reqs after : List Nat} {ver : Got → BitVec 4}
    {val : Vec → Option Val} {body : Env → Src → Src → Src → Act} (hf : FiresData s i w e a b c)
    (hexec : exec i s = firePass i w body s)
    (hbody : body e a b c = e.meAct w [a, b, c] op reqs after ver val) :
    exec i s = .next ((e.runLocal w [a, b, c] op reqs ver val).run s) := by
  rw [hexec, firePass_next hf, hbody, Env.meAct, if_pos (h.isLocal hop)]

end

/-! ### `sts` -/

/-- The scratchpad after a store of n bytes of `data`, groups by mask, at an offset. -/
def Me.stored (m : Me) (x : LineAcc) (off n : Nat) (data : Vec) (mask : BitVec 16) : Me :=
  m.putLine (off / 128) (((m.line (off / 128)).stamped x).put (off % 128) (maskBits mask (n / 4)) (data.toNat % 2 ^ (8 * n)))

theorem Me.stored_stores (m : Me) (x : LineAcc) (off : Nat) {n : Nat} (data : Vec) (mask : BitVec 16) (hn : n % 4 = 0) :
    Stores m (m.stored x off n data mask) x (off / 128) fun k =>
      if off % 128 ≤ k ∧ k - off % 128 < n ∧ mask.getLsbD ((k - off % 128) / 4) = true then
        some (data.extractLsb' (8 * (k - off % 128)) 8) else none where
  rest := rfl
  others k hk := by rw [Me.stored, Me.line_putLine, if_neg hk]
  lot := by rw [Me.stored, Me.line_putLine, if_pos rfl, Line.put_lot, Line.stamped_lot]
  bytes k hk := by
    rw [Me.stored, Me.line_putLine, if_pos rfl, Line.byteAt_put_masked _ _ _ _ hn hk]
    split
    · rfl
    · rw [Line.stamped_byteAt]
      rfl
  full := by rw [Me.stored, Me.line_putLine, if_pos rfl, Line.put_full, Line.stamped_full]

/-- A mask that enables a group of the payload enables a bit of it. -/
theorem maskBits_ne_zero {mask : BitVec 16} {groups k : Nat} (hk : k < groups) (hbit : mask.getLsbD k = true) :
    maskBits mask groups ≠ 0 := fun h0 => by
  have hzero := maskBits_testBit mask groups (32 * k)
  rw [h0, Nat.zero_testBit, Nat.mul_div_cancel_left k (by decide), hbit, decide_eq_true (by omega)] at hzero
  cases hzero

/-- A source with a mask that is not empty enables a group of its payload. -/
theorem dataMask_enables {b : Src} (hmask : dataMask b ≠ 0) :
    ∃ k, k < dataSize b / 4 ∧ (dataMask b).getLsbD k = true := by
  cases hb : b.val with
  | scal y =>
    simp only [dataMask, dataSize, hb]
    exact ⟨0, by simp [Val.isVec], rfl⟩
  | vec v =>
    simp only [dataMask, dataSize, hb] at hmask ⊢
    by_contra hnone
    refine hmask (BitVec.eq_of_getLsbD_eq fun i hi => ?_)
    refine (Bool.eq_false_iff.mpr fun hbit => hnone ⟨i, ?_, hbit⟩).trans BitVec.getLsbD_zero.symm
    simpa [Val.isVec] using hi

/-- A write to a line of the image, of a group at least, either waits for its bank or is done. -/
theorem meWrite_stores {m : Me} {x : LineAcc} {off n : Nat} {data : Vec} {mask : BitVec 16} (md : LotMode)
    (hgood : m.writeBad (some x) (off / 128) false = false) (hgroup : maskBits mask (n / 4) ≠ 0)
    (hwait : meWrite m (some { x with mode := md }) off n data mask false ≠ .wait) :
    meWrite m (some { x with mode := md }) off n data mask false = .ok (m.stored x off n data mask) {} := by
  have hgood' : m.writeBad (some { x with mode := md }) (lineOf off) false = false := hgood
  unfold meWrite at hwait ⊢
  rw [hgood'] at hwait ⊢
  cases hbank : m.bankOk (lineOf off)
  · simp [hbank] at hwait
  · simp only [Bool.false_eq_true, if_false, Bool.not_true, if_neg hgroup, Bool.or_false]
    rfl

section
variable {s : State} {w : CEWord} {e : Env} {a b c : Src} {x : LineAcc}

theorem FiresData.sts (hf : FiresData s (.sts w) w e a b c) (h : OwnLine e w a.nat x)
    (hal : a.nat % dataSize b = 0) (hmask : dataMask b ≠ 0)
    (hgood : e.c.me.writeBad (some x) (a.nat / 128) false = false) :
    ∃ t, exec (.sts w) s = .next t ∧
      OnMe s t e w (e.c.me.stored x a.nat (dataSize b) (dataVec b) (dataMask b)) := by
  have haligned : aligned a.nat (dataSize b) = true := aligned_iff.mpr hal
  have hnonempty : (dataMask b == 0) = false := beq_eq_false_iff_ne.mpr hmask
  have hready : e.meReady w (stsOp a b) [] = true := by
    have hadds := hf.adds
    simpa only [Env.adds, hnonempty, haligned, Bool.not_true, Bool.false_or] using hadds
  have hwait : e.meLocal (stsOp a b) [] ≠ .wait := h.ready rfl hready
  obtain ⟨acc, md, hacc, hlocal⟩ := e.meLocal_line (stsOp a b) [] h.acc
  have hop : e.meLocal (stsOp a b) [] =
      meWrite e.c.me (some { x with mode := md }) a.nat (dataSize b) (dataVec b) (dataMask b) false := by
    rw [hlocal]
    simp only [meOp, stsOp, h.inside, if_true, lineOf, hacc]
  obtain ⟨k, hk, hbit⟩ := dataMask_enables hmask
  have hok := meWrite_stores md hgood (maskBits_ne_zero hk hbit) (hop ▸ hwait)
  have hrun := h.runs_local (op := stsOp a b) rfl (reqs := []) (after := []) (ver := fun _ => 0) (val := noVal) hf
    (body := _) rfl (by simp only [haligned, hnonempty, Bool.not_true, Bool.false_eq_true, if_false])
  obtain ⟨t, ht, hme, -⟩ := local_quiet hf.env hrun (hop.trans hok) rfl
  exact ⟨t, ht, hme⟩

/-! ### `fe.clr` and `fe.set` -/

/-- The scratchpad after the full bit of a line is written. -/
def Me.feWritten (m : Me) (x : LineAcc) (n : Nat) (full : Bool) : Me :=
  m.putLine n { (m.line n).stamped x with full := full }

theorem meFe_writes {m : Me} {off : Nat} {full : Bool} (md : LotMode) (hparam : x.param = false)
    (hwait : meFe m (some { x with mode := md }) off full ≠ .wait) :
    meFe m (some { x with mode := md }) off full = .ok (m.feWritten x (off / 128) full) {} := by
  unfold meFe at hwait ⊢
  cases hbank : m.bankOk (lineOf off)
  · simp [hparam, hbank] at hwait
  · simp only [hparam, Bool.not_true, Bool.false_eq_true, if_false]
    rfl

/-- The two operations that write a full bit. -/
def feOp (full : Bool) (off : Nat) : MeOp := if full then .feSet off else .feClr off

theorem feOp_offset (full : Bool) (off : Nat) : (feOp full off).offset = some off := by
  cases full <;> rfl

/-- A local write of a full bit that need not wait. -/
theorem OwnLine.writes_full {i : Instr} {full : Bool} {off : Nat} (h : OwnLine e w off x) (henv : s.env = some e)
    (hparam : x.param = false) (hready : e.meReady w (feOp full off) [] = true)
    (hrun : exec i s = .next ((e.runLocal w [a, b, c] (feOp full off) [] (fun _ => 0) noVal).run s)) :
    ∃ t, exec i s = .next t ∧ OnMe s t e w (e.c.me.feWritten x (off / 128) full) := by
  obtain ⟨acc, md, hacc, hlocal⟩ := e.meLocal_line (feOp full off) [] h.acc
  have hop : e.meLocal (feOp full off) [] = meFe e.c.me (some { x with mode := md }) off full := by
    rw [hlocal]
    cases full <;> simp only [meOp, feOp, h.inside, if_true, Bool.false_eq_true, if_false, lineOf, hacc]
  have hok := meFe_writes md hparam (hop ▸ h.ready (feOp_offset full off) hready)
  obtain ⟨t, ht, hme, -⟩ := local_quiet henv hrun (hop.trans hok) rfl
  exact ⟨t, ht, hme⟩

theorem FiresData.feClr (hf : FiresData s (.feClr w) w e a b c) (h : OwnLine e w (a.nat / 128 * 128) x)
    (hparam : x.param = false) :
    ∃ t, exec (.feClr w) s = .next t ∧ OnMe s t e w (e.c.me.feWritten x (a.nat / 128 * 128 / 128) false) :=
  h.writes_full hf.env hparam hf.adds
    (h.runs_local (op := feOp false (a.nat / 128 * 128)) rfl (after := []) (body := _) hf rfl rfl)

/-- `fe.set` with no access to wait for is performed in its firing. -/
theorem FiresData.feSet (hf : FiresData s (.feSet w) w e a b c) (h : OwnLine e w (a.nat / 128 * 128) x)
    (hparam : x.param = false) (hnone : e.aPlus .region = []) :
    ∃ t, exec (.feSet w) s = .next t ∧ OnMe s t e w (e.c.me.feWritten x (a.nat / 128 * 128 / 128) true) := by
  have hlocal : e.isLocal w (.feSet (feOff a)) = true := h.isLocal (op := .feSet (feOff a)) rfl
  refine h.writes_full (a := a) (b := b) (c := c) hf.env hparam hf.adds ((firePass_next hf _).trans ?_)
  rw [if_pos hlocal, if_pos hnone]
  rfl

end

theorem Me.feWritten_spec (m : Me) (x : LineAcc) (n : Nat) (full : Bool) :
    m.feWritten x n full = { m with lines := (m.feWritten x n full).lines } ∧
      (∀ k, k ≠ n → (m.feWritten x n full).line k = m.line k) ∧
      (m.feWritten x n full).line n = { (if (m.line n).isOwn x then m.line n else { lot := x.own }) with full := full } :=
  ⟨rfl, fun k hk => by rw [Me.feWritten, Me.line_putLine, if_neg hk], by
    rw [Me.feWritten, Me.line_putLine, if_pos rfl]
    rfl⟩

/-- Settles O30: what a local write leaves of the line is what the firing does. -/
theorem scratchWrites : Obligations.ScratchWrites := by
  intro s w e a b c x l
  have hline : a.nat / 128 * 128 / 128 = a.nat / 128 := Nat.mul_div_cancel _ (by decide)
  have hfe {full : Bool} {t : State} (hme : OnMe s t e w (e.c.me.feWritten x (a.nat / 128 * 128 / 128) full)) :
      ∃ m, OnMe s t e w m ∧ m = { e.c.me with lines := m.lines } ∧
        (∀ k, k ≠ a.nat / 128 → m.line k = e.c.me.line k) ∧
        m.line (a.nat / 128) = { (if l.isOwn x then l else { lot := x.own }) with full := full } := by
    rw [hline] at hme
    exact ⟨_, hme, Me.feWritten_spec _ _ _ _⟩
  refine ⟨?sts, fun op hop => ?fe⟩
  case sts =>
    intro hf h n hal hmask hgood
    obtain ⟨t, ht, hme⟩ := hf.sts h hal hmask hgood
    refine ⟨t, _, ht, hme, Me.stored_stores _ _ _ _ _ ?_⟩
    unfold dataSize
    split <;> rfl
  case fe =>
    rcases List.mem_pair.mp hop with rfl | rfl
    · intro hf h hparam _
      obtain ⟨t, ht, hme⟩ := FiresData.feClr hf h hparam
      obtain ⟨m, hm⟩ := hfe hme
      exact ⟨t, m, ht, hm⟩
    · intro hf h hparam hnone
      obtain ⟨t, ht, hme⟩ := FiresData.feSet hf h hparam hnone
      obtain ⟨m, hm⟩ := hfe hme
      exact ⟨t, m, ht, hm⟩

end Sys2Proof.Machine
end

section
/-!
Copies submitted, and timelines read, awaited and advanced by a core (R206, R209, R392-R394).
-/
namespace Sys2Proof.Machine

section
variable {s : State} {d n : Nat} {rd rs1 rs2 : Reg}

/-! ### `tl.read`, `tl.wait`, `tl.add` -/

theorem Forms.tlRead_unknown (h : Forms s d n (.coreTlRead rd rs1))
    (hnone : (xenv s d n).timeline ((s.hart d n).readX rs1) = none) :
    ∃ t, exec (.coreTlRead rd rs1) s = .next t ∧ Answers s t d n rd 0xFFFFFFFFFFFFFFFF := by
  refine h.answers ((h.exec_eq_body (execCoreTlRead rd rs1) (a := bothCores) rfl rfl rfl).trans ?_)
  dsimp only [xenv_h]
  rw [hnone]
  rfl

theorem Forms.tlRead_answers (h : Forms s d n (.coreTlRead rd rs1)) {c : CopyId}
    (hc : (xenv s d n).timeline ((s.hart d n).readX rs1) = some c) :
    ∃ t, exec (.coreTlRead rd rs1) s = .next t ∧ Answers s t d n rd (s.copies.get {} c).tlc := by
  refine h.answers ((h.exec_eq_body (execCoreTlRead rd rs1) (a := bothCores) rfl rfl rfl).trans ?_)
  dsimp only [xenv_h]
  rw [hc]
  rfl

theorem Copy.poisonedBy_iff {t : Copy} {v : DWord} :
    t.poisonedBy v = true ↔ ∃ q, t.poison = some q ∧ q.1.toNat ≤ v.toNat := by
  rw [Copy.poisonedBy]
  cases t.poison <;> simp

theorem Copy.poisonedBy_eq_false {t : Copy} {v : DWord} (h : ¬ ∃ q, t.poison = some q ∧ q.1.toNat ≤ v.toNat) :
    t.poisonedBy v = false := Bool.eq_false_iff.mpr (mt Copy.poisonedBy_iff.mp h)

section
variable (h : Forms s d n (.coreTlWait rd rs1 rs2)) {c : CopyId}
  (hc : (xenv s d n).timeline ((s.hart d n).readX rs1) = some c)
include h hc

theorem Forms.exec_tlWait : exec (.coreTlWait rd rs1 rs2) s = Act.next (
    if (s.copies.get {} c).poisonedBy ((s.hart d n).readX rs2) then (xenv s d n).ends rd 0x14
    else if ((s.hart d n).readX rs2).toNat ≤ (s.copies.get {} c).tlc.toNat then (xenv s d n).ends rd 0
    else .holdX d n (.timeline c ((s.hart d n).readX rs2) rd)) s := by
  refine (h.exec_eq_body (execCoreTlWait rd rs1 rs2) (a := bothCores) rfl rfl rfl).trans ?_
  dsimp only [xenv_h]
  rw [hc]
  rfl

theorem Forms.tlWait_poisoned (hbad : (s.copies.get {} c).poisonedBy ((s.hart d n).readX rs2) = true) :
    ∃ t, exec (.coreTlWait rd rs1 rs2) s = .next t ∧ Answers s t d n rd 0x14 :=
  h.answers <| by rw [h.exec_tlWait hc, if_pos hbad]

variable (hgood : (s.copies.get {} c).poisonedBy ((s.hart d n).readX rs2) = false)
include hgood

theorem Forms.tlWait_reached (hle : ((s.hart d n).readX rs2).toNat ≤ (s.copies.get {} c).tlc.toNat) :
    ∃ t, exec (.coreTlWait rd rs1 rs2) s = .next t ∧ Answers s t d n rd 0 :=
  h.answers <| by rw [h.exec_tlWait hc, hgood, if_neg Bool.false_ne_true, if_pos hle]

/-- The hart waits while the count is below what it asks for. -/
theorem Forms.tlWait_holds (hlt : (s.copies.get {} c).tlc.toNat < ((s.hart d n).readX rs2).toNat) :
    ∃ t, exec (.coreTlWait rd rs1 rs2) s = .next t ∧ OnlyHarts s t ∧
      Holds s t d n (.timeline c ((s.hart d n).readX rs2) rd) := by
  have hexec := h.exec_tlWait hc
  rw [hgood, if_neg Bool.false_ne_true, if_neg (Nat.not_le.mpr hlt)] at hexec
  exact ⟨_, hexec, rfl, Act.holdX_holds h.ok rfl _⟩

end

section
variable (h : Forms s d n (.tlAdd rd rs1 rs2))
include h

theorem Forms.tlAdd_unknown (hnone : (xenv s d n).timeline ((s.hart d n).readX rs1) = none) :
    ∃ t, exec (.tlAdd rd rs1 rs2) s = .next t ∧ Answers s t d n rd 0xFFFFFFFFFFFFFFFF := by
  refine h.answers ((h.exec_eq_body (execTlAdd rd rs1 rs2) (a := bothCores) rfl rfl rfl).trans ?_)
  dsimp only [xenv_h]
  rw [hnone]
  rfl

/-- The count moves and the poison is gone; the selection that follows touches neither harts nor timelines. -/
theorem Forms.tlAdd_adds {c : CopyId} (hc : (xenv s d n).timeline ((s.hart d n).readX rs1) = some c) {v : DWord}
    (hv : (s.copies.get {} c).tlc + (s.hart d n).readX rs2 = v) :
    ∃ t, exec (.tlAdd rd rs1 rs2) s = .next t ∧ Retires s t d n rd v ∧
      t.copies.get {} c = { s.copies.get {} c with tlc := v, poison := none } ∧
      ∀ k, k ≠ c → t.copies.get {} k = s.copies.get {} k := by
  have hexec : exec (.tlAdd rd rs1 rs2) s = ((xenv s d n).does rd
      ((Act.onCopy c fun t => { t with tlc := v, poison := none }).seq (.select (s.hartPart d n))) v).next s := by
    refine (h.exec_eq_body (execTlAdd rd rs1 rs2) (a := bothCores) rfl rfl rfl).trans ?_
    dsimp only [xenv_h, xenv_s, xenv_part]
    rw [hc, ← hv]
  have hselected := Act.select_selectedFrom (s.hartPart d n)
    (s.apply (.copy c { s.copies.get {} c with tlc := v, poison := none }))
  obtain ⟨t, ht, hretires, honly⟩ := h.does_retires (hselected.harts.trans rfl) hexec
  have hcopies : t.copies = s.copies.put c { s.copies.get {} c with tlc := v, poison := none } :=
    (congrArg State.copies honly).trans hselected.copies
  refine ⟨t, ht, hretires, ?_, fun k hk => ?_⟩
  · rw [hcopies, Store.get_put_same]
  · rw [hcopies, Store.get_put_ne _ _ _ hk]

end

/-! ### `cp.query` -/

theorem Forms.cpQuery_answers (h : Forms s d n (.cpQuery rd rs1 rs2)) {c : CopyId}
    (hc : (xenv s d n).timeline ((s.hart d n).readX rs1) = some c) {v : DWord}
    (hv : (s.copies.get {} c).query ((s.hart d n).readX rs2) = v) :
    ∃ t, exec (.cpQuery rd rs1 rs2) s = .next t ∧ Answers s t d n rd v := by
  refine h.answers ((h.exec_eq_body (execCpQuery rd rs1 rs2) (a := bothCores) rfl rfl rfl).trans ?_)
  dsimp only [xenv_h]
  rw [hc, ← hv]
  rfl

/-! ### `cp.start` -/

/-- A copy submitted is one job more at the end of its context's queue. -/
theorem Act.run_submit (s : State) (p : Nat) (asid : Option (BitVec 16)) (c : CopyId) (x : CopyDesc) :
    ∃ j : CopyJob, j.n = (s.copies.get {} c).nextNo ∧ j.desc = x ∧ j.asid = asid ∧ (Act.submit p asid c x).run s =
      s.apply (.copy c { s.copies.get {} c with
        last := (s.copies.get {} c).nextNo, jobs := (s.copies.get {} c).jobs ++ [j] }) :=
  ⟨_, rfl, rfl, rfl, rfl⟩

section
variable (h : Forms s d n (.cpStart rd rs1 rs2))
include h

theorem Forms.cpStart_unfit (hbad : (xenv s d n).timeline ((s.hart d n).readX rs2) = none ∨
      ((s.hart d n).readX rs1).toNat % 64 ≠ 0) :
    ∃ t, exec (.cpStart rd rs1 rs2) s = .next t ∧ Answers s t d n rd (-1) := by
  refine h.answers ((h.exec_eq_body (execCpStart rd rs1 rs2) (a := tailorOnly) rfl rfl rfl).trans ?_)
  dsimp only [xenv_h]
  cases hc : (xenv s d n).timeline ((s.hart d n).readX rs2) with
  | none => rfl
  | some c =>
    have hal := aligned_eq_false (hbad.resolve_left fun hnone => nomatch hc.symm.trans hnone)
    simp only [hal, Bool.not_false, Bool.or_true, if_true]
    rfl

variable {c : CopyId} {x : List Byte} (hc : (xenv s d n).timeline ((s.hart d n).readX rs2) = some c)
  (hdie : c.die = d) (hal : ((s.hart d n).readX rs1).toNat % 64 = 0)
  (hx : s.loadVa d (s.hartPart d n) (s.hart d n).asid ((s.hart d n).readX rs1) 64 = some x)
include hc hdie hal hx

theorem Forms.exec_cpStart : exec (.cpStart rd rs1 rs2) s = Act.next (
    if !s.descOk d (s.hartPart d n) x then (xenv s d n).ends rd (codeWord 1)
    else match s.descCode (s.hartPart d n) c (copyDesc x) with
      | some k => (xenv s d n).ends rd (codeWord k)
      | none => (xenv s d n).does rd (.submit (s.hartPart d n) (s.hart d n).asid c (copyDesc x))
          (s.copies.get {} c).nextNo) s := by
  refine (h.exec_eq_body (execCpStart rd rs1 rs2) (a := tailorOnly) rfl rfl rfl).trans ?_
  dsimp only [xenv_s, xenv_d, xenv_h, xenv_part, xenv_asid]
  simp only [hc, hdie, aligned_iff.mpr hal, hx, bne_self_eq_false, Bool.not_true, Bool.or_false,
    Bool.false_eq_true, if_false]
  rfl

theorem Forms.cpStart_badDesc (hok : s.descOk d (s.hartPart d n) x = false) :
    ∃ t, exec (.cpStart rd rs1 rs2) s = .next t ∧ Answers s t d n rd (-1) :=
  h.answers <| by
    rw [h.exec_cpStart hc hdie hal hx, hok]
    rfl

variable (hok : s.descOk d (s.hartPart d n) x = true)
include hok

theorem Forms.cpStart_refused {k : Nat} (hk : s.descCode (s.hartPart d n) c (copyDesc x) = some k) :
    ∃ t, exec (.cpStart rd rs1 rs2) s = .next t ∧ Answers s t d n rd (BitVec.ofInt 64 (-k)) := by
  have hword : BitVec.ofInt 64 (-k) = codeWord k := by
    rw [BitVec.ofInt_neg, codeWord, zero_sub]
    rfl
  refine h.answers ?_
  rw [h.exec_cpStart hc hdie hal hx, hok, hk, hword]
  rfl

/-- A copy that is accepted stands last in its context's queue, under the next number. -/
theorem Forms.cpStart_queues (hnone : s.descCode (s.hartPart d n) c (copyDesc x) = none) {no : DWord}
    (hno : (s.copies.get {} c).nextNo = no) :
    ∃ t j, exec (.cpStart rd rs1 rs2) s = .next t ∧ Retires s t d n rd no ∧
      (t.copies.get {} c).jobs = (s.copies.get {} c).jobs ++ [j] ∧ j.n = no ∧ j.desc = copyDesc x ∧
      j.asid = (s.hart d n).asid ∧ (t.copies.get {} c).last = no ∧
      t = { s with harts := t.harts, copies := t.copies } := by
  have hexec := h.exec_cpStart hc hdie hal hx
  rw [hok, hnone, hno] at hexec
  obtain ⟨t, ht, hretires, honly⟩ := h.does_retires rfl hexec
  obtain ⟨j, hn, hdesc, hasid, hrun⟩ := Act.run_submit s (s.hartPart d n) (s.hart d n).asid c (copyDesc x)
  rw [hrun] at honly
  have hcopies : t.copies = s.copies.put c { s.copies.get {} c with
      last := (s.copies.get {} c).nextNo, jobs := (s.copies.get {} c).jobs ++ [j] } := congrArg State.copies honly
  refine ⟨t, j, ht, hretires, ?_, hn.trans hno, hdesc, hasid, ?_, ?_⟩
  · rw [hcopies, Store.get_put_same]
  · rw [hcopies, Store.get_put_same, hno]
  · rw [hcopies]
    exact honly

end

end

/-! ### What `cp.query` reports (R393) -/

theorem Copy.find_failed {t : Copy} {b : DWord} {cause : Option Nat} (h : t.failed = [(b, cause)]) :
    t.failed.find? (fun e => e.1 == b) = some (b, cause) := by
  rw [h]
  exact List.find?_cons_of_pos (beq_self_eq_true b)

theorem Copy.query_failed {t : Copy} {b : DWord} {cause : Nat} (h : t.failed = [(b, some cause)]) :
    t.query b = BitVec.ofNat 64 (5 + cause % 256 * 2 ^ 8) := by
  rw [BitVec.ofNat_add, Copy.query, Copy.find_failed h]
  rfl

theorem Copy.query_discarded {t : Copy} {b : DWord} (h : t.failed = [(b, none)]) : t.query b = 6 := by
  rw [Copy.query, Copy.find_failed h]

section
variable {t : Copy} {b : DWord} (h : t.failed = [])
include h

theorem Copy.query_unnumbered (hlt : t.last.toNat < b.toNat) : t.query b = 0 := by
  have hult : t.last.ult b = true := decide_eq_true hlt
  simp only [Copy.query, h, List.find?_nil, hult, if_true]

section
variable (hle : b.toNat ≤ t.last.toNat)
include hle

theorem Copy.query_none_left (hjobs : t.jobs = []) : t.query b = 4 := by
  have hult : t.last.ult b = false := decide_eq_false (Nat.not_lt.mpr hle)
  simp only [Copy.query, h, hjobs, List.find?_nil, hult, Bool.false_eq_true, if_false]

/-- A number that was given stands for the copy at work, one that is queued, or one that is over. -/
theorem Copy.query_at_work {j : CopyJob} {l : List CopyJob} (hjobs : t.jobs = j :: l) : t.query b =
    if j.n = b then (if j.suspended.isSome then 3 else 2) else if l.any fun k => k.n == b then 1 else 4 := by
  have hult : t.last.ult b = false := decide_eq_false (Nat.not_lt.mpr hle)
  simp only [Copy.query, h, hjobs, List.find?_nil, hult, Bool.false_eq_true, if_false]

end

end

theorem Copy.nextNo_eq (t : Copy) : t.nextNo = (if t.last.toNat < t.tlc.toNat then t.tlc else t.last) + 1 := by
  have hult : t.last.ult t.tlc = decide (t.last.toNat < t.tlc.toNat) := rfl
  simp only [Copy.nextNo, hult, decide_eq_true_eq]

/-- Settles O44: each clause is the lemma about its form. -/
theorem copyAndTimelineForms : Obligations.CopyAndTimelineForms := by
  intro s d n rd rs1 rs2 a b ends
  refine ⟨fun h => ⟨h.tlRead_unknown, fun c => h.tlRead_answers⟩, fun h c hc => ?wait,
    fun h => ⟨h.tlAdd_unknown, fun c hc => h.tlAdd_adds hc rfl⟩, fun h c hc => ?query, fun h => ⟨h.cpStart_unfit, ?start⟩⟩
  case wait =>
    exact ⟨fun hbad => h.tlWait_poisoned hc (Copy.poisonedBy_iff.mpr hbad),
      fun hgood => h.tlWait_reached hc (Copy.poisonedBy_eq_false hgood),
      fun hgood => h.tlWait_holds hc (Copy.poisonedBy_eq_false hgood)⟩
  case query =>
    have answers {v : DWord} (hv : (s.copies.get {} c).query b = v) := h.cpQuery_answers hc hv
    refine ⟨fun cause hf => answers (Copy.query_failed hf), fun hf => answers (Copy.query_discarded hf),
      fun hf hlt => answers (Copy.query_unnumbered hf hlt), fun j l hf hle hjobs => ?_,
      fun hf hle hjobs => answers (Copy.query_none_left hf hle hjobs)⟩
    have hquery := Copy.query_at_work hf hle hjobs
    refine ⟨fun hj => answers ?_, fun hj hin => answers ?_, fun hj hout => answers ?_⟩
    · rw [hquery]
      cases j.suspended <;> simp [hj]
    · rw [hquery]
      simp [hj, hin]
    · rw [hquery]
      simpa [hj] using hout
  case start =>
    exact fun c x hc hdie hal hx => ⟨h.cpStart_badDesc hc hdie hal hx,
      fun k hok hk => h.cpStart_refused hc hdie hal hx hok hk,
      fun hok hnone => h.cpStart_queues hc hdie hal hx hok hnone (Copy.nextNo_eq _)⟩

end Sys2Proof.Machine
end

section
/-!
An answer that ends an instruction of one byte (R129, R353, R376, R377).
-/
namespace Sys2Proof.Machine

/-- A performed load of hart 0 of die 0, whose answer is back; the instruction that it ends is said to have one byte. -/
def oneByteLoad : Req :=
  { id := 1, agent := .hart 0 0, goal := .mem 0 (.load 8), ret := .hartReg 10 8 false 1, st := .performed 5 0, back := true }

/-- That request, and a hart that waits at pc 0 for its answer. -/
def oneByteWaits : State := { State.reset with reqs := [oneByteLoad], harts := [((0, 0), { wait := some .queued })] }

theorem oneByteWaits_hart : (oneByteWaits.hart 0 0).Ok := ⟨rfl, rfl, by decide, nofun⟩

/-- The state meets the invariant of the module. -/
theorem oneByteWaits_inv : oneByteWaits.Inv where
  mem := rfl
  regs := nofun
  lots := nofun
  harts e he := by
    obtain rfl := List.mem_singleton.mp he
    exact oneByteWaits_hart

/-- The answer is delivered, and the pc, one byte on, is stored even (R376). -/
theorem oneByteWaits_after : ∃ t, exec (.requestLands 1) oneByteWaits = .next t ∧ (t.hart 0 0).readX 10 = 5 ∧
    (t.hart 0 0).pc = 0 :=
  ⟨_, rfl, by decide +kernel, by decide +kernel⟩

/-- Refutes O58: its clause on the answer to a hart's load moves the pc by the length that the request names, and nothing
holds that length to an even one. In `oneByteWaits`, which meets the invariant, the length is 1 and the pc stays 0. -/
theorem not_memoryEvents : ¬ Obligations.MemoryEvents := by
  intro h
  obtain ⟨-, -, -, hlands, -⟩ := h oneByteWaits
  obtain ⟨-, -, -, hreg, -⟩ := hlands 1 oneByteLoad 5 0 rfl rfl rfl rfl rfl rfl rfl rfl
  obtain ⟨t, ht, -, hpc, -⟩ := hreg 0 0 10 8 false 1 rfl rfl rfl oneByteWaits_hart
  obtain ⟨u, hu, -, hstays⟩ := oneByteWaits_after
  cases ht.symm.trans hu
  rw [hstays] at hpc
  exact absurd hpc (by decide)

end Sys2Proof.Machine
end

section
/-!
The waits that fences and barriers leave on their context (R218-R220, R228, R308, R370).
-/
namespace Sys2Proof.Machine

/-! ### A wait left on a context -/

/-- A CE after a firing that consumes its operands and leaves the waits l behind those of its context: other contexts
wait for what they did, and every slot is as it was. -/
def LeavesWaits (c c' : Ce) (w : CEWord) (ctx : Nat) (l : List Wait) : Prop :=
  Consumed c c' w ∧ c'.waits.get [] ctx = c.waits.get [] ctx ++ l ∧
    (∀ k, k ≠ ctx → c'.waits.get [] k = c.waits.get [] k) ∧ c'.slots = c.slots

theorem Ce.consume_leavesWaits (c : Ce) (w : CEWord) (ctx : Nat) : LeavesWaits c (c.consume w) w ctx [] :=
  ⟨Ce.consume_consumed c w, by rw [Ce.consume_waits, List.append_nil], fun k _ => by rw [Ce.consume_waits],
    Ce.consume_slots c w⟩

theorem Ce.addWait_leavesWaits (c : Ce) (w : CEWord) (ctx : Nat) (x : Wait) :
    LeavesWaits c ((c.consume w).addWait ctx x) w ctx [x] := by
  obtain ⟨hvi, hsi, hci, hv, hs⟩ := Ce.consume_consumed c w
  refine ⟨⟨hvi, hsi, hci, hv, hs⟩, ?_, fun k hk => ?_, Ce.consume_slots c w⟩
  · rw [Ce.addWait, Store.get_put_same, Ce.consume_waits]
  · rw [Ce.addWait, Store.get_put_ne _ _ _ hk, Ce.consume_waits]

/-- Which context fired last is no part of it. -/
theorem LeavesWaits.last {c c' : Ce} {w : CEWord} {ctx k : Nat} {l : List Wait} (h : LeavesWaits c c' w ctx l) :
    LeavesWaits c { c' with lastCtx := k } w ctx l := by
  obtain ⟨hconsumed, hmine, hothers, hslots⟩ := h
  exact ⟨hconsumed.last, hmine, hothers, hslots⟩

section
variable {s : State} {e : Env} (henv : s.env = some e)
include henv

theorem Env.done_leavesWaits {w : CEWord} {f : Ce → Ce} {l : List Wait}
    (hf : LeavesWaits e.c.ce (f e.c.ce) w e.ctx l) :
    LeavesWaits e.c.ce (e.ceIn ((e.done f).run s)) w e.ctx l := by
  obtain ⟨k, hce⟩ := Env.done_ceIn henv f
  rw [hce]
  exact hf.last

end

theorem Act.askSystem_announced (s : State) (sc : Scope) (ids : List Nat) :
    Announced s ((Act.askSystem sc ids).run s) sc ids := by
  rw [Announced, Act.askSystem]
  by_cases hsc : sc = .system
  · rw [hsc, beq_self_eq_true, Act.run_when_true]
    by_cases hids : ids = []
    · rw [if_neg fun h => h.2 hids, hids]
      rfl
    · rw [if_pos ⟨rfl, hids⟩]
      exact Act.atSystem_announces hids s
  · rw [if_neg fun h => hsc h.1, beq_eq_false_iff_ne.mpr hsc, Act.run_when_false]

/-! ### `fence` and `sbar` -/

/-- A firing that completes and waits for the accesses `ids`, if there are any. -/
def Env.awaits (e : Env) (w : CEWord) (sc : Scope) (ids : List Nat) (x : Wait) : Act :=
  (e.done fun c => if ids = [] then c.consume w else (c.consume w).addWait e.ctx x).seq (.askSystem sc ids)

theorem Env.awaits_spec {s : State} {e : Env} (henv : s.env = some e) (w : CEWord) (sc : Scope) (ids : List Nat)
    (x : Wait) :
    ∃ u, OnlyFires s u e ∧ LeavesWaits e.c.ce (e.ceIn u) w e.ctx (if ids = [] then [] else [x]) ∧
      Announced u ((e.awaits w sc ids x).run s) sc ids := by
  refine ⟨_, Env.done_only henv _, Env.done_leavesWaits henv ?_, Act.askSystem_announced _ sc ids⟩
  by_cases hids : ids = []
  · rw [if_pos hids, if_pos hids]
    exact Ce.consume_leavesWaits _ w _
  · rw [if_neg hids, if_neg hids]
    exact Ce.addWait_leavesWaits _ w _ x

section
variable {s : State} {w : CEWord} {e : Env} {a b c : Src}

theorem FiresData.fence (hf : FiresData s (.fence w) w e a b c) {ids : List Nat}
    (hids : e.s.pending (· == .ctx e.id e.ctx) e.id e.spot.h (e.scope w) (w.immBits 14 2 == 0) = ids) :
    exec (.fence w) s = .next ((e.awaits w (e.scope w) ids (.fence ids)).run s) := by
  subst hids
  exact firePass_next hf _

/-- Agents whose accesses an `sbar` waits for: the context, and the streams that its mask names (R220). -/
def Env.sbarAwaits (e : Env) (m : BitVec 4) (x : Agent) : Bool :=
  x == .ctx e.id e.ctx || (List.range 4).any fun k => m.getLsbD k && x == .stream e.id k

theorem Env.sbarAwaits_ctx (e : Env) (m : BitVec 4) (c : CellId) (k : Nat) :
    e.sbarAwaits m (.ctx c k) = (c == e.id && k == e.ctx) := by
  rw [Bool.eq_iff_iff]
  simp [Env.sbarAwaits]

theorem Env.sbarAwaits_stream (e : Env) (m : BitVec 4) (c : CellId) (k : Nat) :
    e.sbarAwaits m (.stream c k) = (c == e.id && m.getLsbD k) := by
  have hbit : m.getLsbD k = true → k < 4 := BitVec.lt_of_getLsbD
  rw [Bool.eq_iff_iff]
  simp only [Env.sbarAwaits, Bool.or_eq_true, List.any_eq_true, Bool.and_eq_true, List.mem_range, beq_iff_eq,
    reduceCtorEq, false_or, Agent.stream.injEq]
  constructor
  · rintro ⟨j, -, hj, rfl, rfl⟩
    exact ⟨rfl, hj⟩
  · rintro ⟨rfl, hk⟩
    exact ⟨k, hbit hk, hk, rfl, rfl⟩

theorem FiresData.sbar (hf : FiresData s (.sbar w) w e a b c) {m : BitVec 4} (hm : w.imm.extractLsb' 16 4 = m)
    {ids : List Nat} (hids : e.s.pending (e.sbarAwaits m) e.id e.spot.h (e.scope w) false = ids) :
    exec (.sbar w) s = .next ((e.awaits w (e.scope w) ids (.sbar m ids)).run s) := by
  subst hm hids
  have hwho : ∃ who : Agent → Bool, (∀ x, who x = e.sbarAwaits (w.imm.extractLsb' 16 4) x) ∧ exec (.sbar w) s =
      .next ((e.awaits w (e.scope w) (e.s.pending who e.id e.spot.h (e.scope w) false)
        (.sbar (w.imm.extractLsb' 16 4) (e.s.pending who e.id e.spot.h (e.scope w) false))).run s) := by
    refine ⟨_, fun x => ?_, firePass_next hf _⟩
    cases x
    case ctx k n => exact (e.sbarAwaits_ctx _ k n).symm
    case stream k n => exact (e.sbarAwaits_stream _ k n).symm
    all_goals simp [Env.sbarAwaits]
  obtain ⟨who, hwho, hexec⟩ := hwho
  rwa [funext hwho] at hexec

end

/-! ### `tbar` -/

/-- A firing leaves the barriers of its region as they are. -/
theorem Env.done_tbars {s : State} {e : Env} (f : Ce → Ce) {r : Region} (hr : s.regions.get? e.spot.h = some r) :
    ∃ r', ((e.done f).run s).regions.get? e.spot.h = some r' ∧ r'.tbars = r.tbars := by
  simp only [Env.done, Act.fired, Act.run_block_cons, Act.run_block_nil, Act.run_onCell]
  rw [Act.run_onRegion_some (r := r)]
  · refine ⟨_, Store.get?_put_same _ _ _, ?_⟩
    split <;> rfl
  · exact hr

theorem Act.onRegion_rest (s : State) (h : Word) (f : Region → Region) :
    (Act.onRegion h f).run s = { s with regions := ((Act.onRegion h f).run s).regions } := by
  cases hr : s.regions.get? h with
  | none => rw [Act.run_onRegion_none _ _ _ hr]
  | some r =>
    rw [Act.run_onRegion_some _ _ _ hr]
    rfl

theorem Act.onRegion_cells (s : State) (h : Word) (f : Region → Region) :
    ((Act.onRegion h f).run s).cells = s.cells :=
  (congrArg State.cells (Act.onRegion_rest s h f)).trans rfl

/-- A barrier level that a `tbar` reaches while the accesses `ids` of its region are not performed: the first of an
epoch makes the arrival due (R308). -/
def TbarState.reached (x : TbarState) (ids : List Nat) : TbarState :=
  if x.arrived || x.due.isSome then x else { x with due := some ids }

/-- A firing that reaches the barrier at level k, and waits for the end of its epoch. -/
def Env.reaches (e : Env) (w : CEWord) (k : Nat) (ids : List Nat) : Act :=
  (e.done fun c => (c.consume w).addWait e.ctx (.tbar k (e.spot.r.tbars.get {} k).epoch)).seq
    (.onRegion e.spot.h fun r => { r with tbars := r.tbars.put k ((e.spot.r.tbars.get {} k).reached ids) })

section
variable {s : State} {e : Env} (w : CEWord) (k : Nat) (ids : List Nat)

theorem Env.reaches_tbars {r : Region} (hr : s.regions.get? e.spot.h = some r) :
    ∃ r', ((e.reaches w k ids).run s).regions.get? e.spot.h = some r' ∧
      r'.tbars = r.tbars.put k ((e.spot.r.tbars.get {} k).reached ids) := by
  obtain ⟨r₁, hr₁, htbars⟩ := Env.done_tbars
    (fun c => (c.consume w).addWait e.ctx (.tbar k (e.spot.r.tbars.get {} k).epoch)) hr
  rw [Env.reaches, Act.run_seq, Act.run_onRegion_some _ _ _ hr₁]
  exact ⟨_, Store.get?_put_same _ _ _, by rw [htbars]⟩

variable (henv : s.env = some e)
include henv

theorem Env.reaches_leavesWaits :
    LeavesWaits e.c.ce (e.ceIn ((e.reaches w k ids).run s)) w e.ctx [.tbar k (e.spot.r.tbars.get {} k).epoch] := by
  rw [Env.reaches, Act.run_seq, Env.ceIn, Act.onRegion_cells]
  exact Env.done_leavesWaits henv (Ce.addWait_leavesWaits _ w _ _)

theorem Env.reaches_cells {x : CellId} (hx : x ≠ e.id) :
    ((e.reaches w k ids).run s).cells.get {} x = s.cells.get {} x := by
  rw [Env.reaches, Act.run_seq, Act.onRegion_cells]
  exact (Env.done_only henv _).cells x hx

theorem Env.reaches_rest : (e.reaches w k ids).run s = { s with
    cells := ((e.reaches w k ids).run s).cells, regions := ((e.reaches w k ids).run s).regions } := by
  rw [Env.reaches, Act.run_seq]
  generalize hu : (e.done _).run s = u
  have hdone : u = { s with cells := u.cells, regions := u.regions } := hu ▸ (Env.done_only henv _).rest
  rw [Act.onRegion_cells, Act.onRegion_rest u, hdone]

end

theorem FiresData.tbar {s : State} {w : CEWord} {e : Env} {a b c : Src} (hf : FiresData s (.tbar w) w e a b c) {k : Nat}
    (hk : e.tbarLevel (w.immBits 8 3) = k) {ids : List Nat}
    (hids : e.s.pending e.spot.r.hasAgent e.id e.spot.h (teamScope e.launch k) false = ids) :
    exec (.tbar w) s = .next ((Act.askSystem (teamScope e.launch k) ids).run ((e.reaches w k ids).run s)) := by
  subst hk hids
  exact firePass_next hf _

/-- Settles O37: `fence` and `sbar` leave their wait by `Env.awaits_spec`, `tbar` reaches its barrier by `Env.reaches`. -/
theorem fenceAndBarrierWaits : Obligations.FenceAndBarrierWaits := by
  intro s w e a b c old leaves
  refine ⟨?fence, ?sbar, ?tbar⟩
  case fence =>
    intro hf l
    obtain ⟨hs, -, -⟩ := State.env_spec hf.env
    obtain ⟨u, hspec⟩ := Env.awaits_spec hf.env w (e.scope w) l (.fence l)
    exact ⟨_, u, hf.fence (by rw [hs]), hspec⟩
  case sbar =>
    intro hf m l
    obtain ⟨hs, -, -⟩ := State.env_spec hf.env
    obtain ⟨u, hspec⟩ := Env.awaits_spec hf.env w (e.scope w) l (.sbar m l)
    exact ⟨_, u, hf.sbar rfl (by rw [hs]; rfl), hspec⟩
  case tbar =>
    intro hf k b0 l
    obtain ⟨hs, -, -⟩ := State.env_spec hf.env
    refine ⟨_, (e.reaches w k l).run s, hf.tbar rfl (by rw [hs]), Env.reaches_leavesWaits w k l hf.env,
      Act.askSystem_announced _ _ l, fun x hx => Env.reaches_cells w k l hf.env hx, Env.reaches_rest w k l hf.env,
      fun hr => ?_⟩
    obtain ⟨r, hreached, htbars⟩ := Env.reaches_tbars w k l hr
    refine ⟨r, hreached, ?_, fun j hj => ?_⟩
    · rw [htbars, Store.get_put_same]
      rfl
    · rw [htbars, Store.get_put_ne _ _ _ hj]

end Sys2Proof.Machine
end

section
/-!
A releasing store to bytes that another hart, whose pc is odd, has reserved (R221, R378, R395).
-/
namespace Sys2Proof.Machine

/-- Hart 0 of die 0 is at a `strel.w` of x12 to the address in x11, 0x1000; hart 1, whose pc is odd, has reserved the 8
bytes there. -/
def reservedByOdd : State :=
  { State.reset with
    focus := .hart 0 0
    wipes := [(.hbm 0, .done)]
    harts := [((0, 0), { x := [(11, 0x1000), (12, 5)] }), ((0, 1), { pc := 1, resv := some (homeKey 0 0x1000, 8) })] }

theorem reservedByOdd_forms : Forms reservedByOdd 0 0 (.strelW 12 11 .part) where
  focus := rfl
  permits := ⟨_, rfl, rfl, nofun⟩
  ok := ⟨rfl, rfl, by decide, nofun⟩
  quiet := rfl
  flight := rfl

/-- The store is to the hart's own memory, which is ready. -/
theorem reservedByOdd_own :
    (reservedByOdd.hart 0 0).place 0 0x1000 = .own 0x1000 ∧ reservedByOdd.memoryReady 0 = true :=
  ⟨by decide +kernel, by decide +kernel⟩

/-- It ends the reservation of hart 1, and what is stored of hart 1 has an even pc. -/
theorem reservedByOdd_after : ∃ t, exec (.strelW 12 11 .part) reservedByOdd = .next t ∧ (t.hart 0 1).resv = none ∧
    (t.hart 0 1).pc = 0 :=
  ⟨_, rfl, by decide +kernel, by decide +kernel⟩

/-- Refutes O45: its clause on releasing stores keeps the pc of every other hart, and nothing holds those to even ones,
as `State.Inv` would. In `reservedByOdd` the end of its reservation makes the pc of hart 1 even. -/
theorem not_hartMemoryForms : ¬ Obligations.HartMemoryForms := by
  intro h
  obtain ⟨-, -, hstore, -, -, -⟩ := h reservedByOdd 0 0 0 11 12 .part 0x1000
  obtain ⟨hstores, -⟩ := hstore (.strelW 12 11 .part, 4) List.mem_cons_self reservedByOdd_forms rfl
  obtain ⟨t, ht, hretires, -⟩ := hstores rfl reservedByOdd_own
  obtain ⟨u, hu, -, hpc⟩ := reservedByOdd_after
  cases ht.symm.trans hu
  have hkept : (t.hart 0 1).pc = 1 := (hretires.rest 0 1 (by decide)).pc
  rw [hpc] at hkept
  exact absurd hkept (by decide)

end Sys2Proof.Machine
end

section
/-!
SUPPORT. Reading back what the encoder writes: codes (R242, R259, R263, R276), CE words by R259 and Xphido words by R276.
-/
namespace Sys2Proof

/-! ### Codes -/

@[simp] theorem Fmt.ofCode_code (f : Fmt) : Fmt.ofCode f.code = f := by cases f <;> rfl
@[simp] theorem Rnd.ofCode_code (r : Rnd) : Rnd.ofCode r.code = r := by cases r <;> rfl
@[simp] theorem Marker.ofCode_code (m : Marker) : Marker.ofCode m.code = m := by cases m <;> rfl

@[simp] theorem Opnd.ofCode_code (o : Opnd) : Opnd.ofCode o.code = o := by
  cases o
  case voBoth | soBoth | imm | zero | lane | ctxn => rfl
  all_goals
    rename_i i
    revert i
    decide

@[simp] theorem MkTest.ofCodes_codes (t : MkTest) : MkTest.ofCodes t.sel t.val = some t := by
  cases t
  case none => rfl
  all_goals exact congrArg (some ∘ _) (Marker.ofCode_code _)

@[simp] theorem PrTest.ofCodes_codes (t : PrTest) : PrTest.ofCodes t.mode t.pra t.prb = some t := by cases t <;> rfl

/-! ### CE words -/

section
variable (opc : BitVec 9) (f : CEWord)

theorem CEWord.ofBits_bits : CEWord.ofBits (f.bits opc) = some f := by
  simp only [CEWord.ofBits, flag_eq, bits_ctx, bits_vreq, bits_sreq, bits_creq, bits_mksel, bits_mkval, bits_pra, bits_prb,
    bits_prmode, bits_pmask, bits_pval, bits_dst, bits_sa, bits_sb, bits_sc, bits_deqA, bits_deqB, bits_deqC, bits_deqP,
    bits_fmt, bits_rnd, bits_sat, bits_pset, bits_pdst, bits_octx, bits_imm, bitOf_bit, MkTest.ofCodes_codes,
    PrTest.ofCodes_codes, Opnd.ofCode_code, Fmt.ofCode_code, Rnd.ofCode_code]

theorem CEWord.bits_enabled : flag (f.bits opc) 127 = true := by
  rw [flag_eq, bits_en]
  rfl

/-- A word with a known opcode and valid fields decodes by the opcode map alone. -/
theorem decodeCE_bits {i : Instr} (h : ceOf opc f = some i) : decodeCE (f.bits opc) = .ok i := by
  rw [decodeCE, CEWord.bits_enabled, CEWord.ofBits_bits]
  simp only [CEWord.bits_opc, h]
  rfl

end

/-- The opcode map undoes the encoder's table (R264). -/
theorem ceOf_of_ceParts {i : Instr} {opc : BitVec 9} {f : CEWord} (h : i.ceParts = some (opc, f)) :
    ceOf opc f = some i := by
  cases i <;> cases h <;> rfl

/-! ### Xphido words -/

/-- A well-formed Xphido step is the row that the decoder finds for its word (R276). -/
theorem xphidoOf_xphidoWord {i : Instr} {w : BitVec 32} (hwf : i.wf = true) (hw : i.xphidoWord = some w)
    (hassigned : i ≠ .unassignedXphido w) : xphidoOf w = some i := by
  cases i
  case unassignedXphido v =>
    obtain rfl := Option.some.inj hw
    exact absurd rfl hassigned
  case ldacqW _ _ sc | ldacqD _ _ sc | strelW _ _ sc | strelD _ _ sc =>
    obtain rfl := Option.some.inj hw
    simp only [xphidoOf, flag_eq, rType_opc, rType_f3, rType_rs1, rType_rs2, rType_rd, rType_scope, rType_wide, rType_top3,
      rType_top2, rType_order]
    cases sc
    case team => cases hwf
    all_goals rfl
  case fenceP sc c | monWait _ _ _ sc c =>
    obtain rfl := Option.some.inj hw
    simp only [xphidoOf, flag_eq, rType_opc, rType_f3, rType_rs1, rType_rs2, rType_rd, rType_scope, rType_top2, rType_order]
    cases sc
    case team => cases hwf
    all_goals cases c <;> rfl
  case rgAlloc | rgFree | rgPlace | rgLoad | rgStart | rgStop | rgDrain | rgSave | rgRestore | rgKill | rgShut | rgStat
      | lotSweep | cpStart | cpQuery | coreTlRead | coreTlWait | tlAdd | coreLaunch | fqPop | fwSet | ptInv | dbgRd | dbgWr =>
    obtain rfl := Option.some.inj hw
    simp only [xphidoOf, rType_opc, rType_f3, rType_f7, rType_rs1, rType_rs2, rType_rd]
    rfl
  all_goals cases hw

theorem decodeHart_xphidoWord {i : Instr} {w : BitVec 32} (hwf : i.wf = true) (hw : i.xphidoWord = some w) :
    decodeHart w = .ok i := by
  by_cases hassigned : i = .unassignedXphido w
  · subst hassigned
    obtain ⟨hcustom, hnone⟩ := (Bool.and_eq_true _ _).mp hwf
    have hopc : w.extractLsb' 0 7 = 0x0B#7 ∨ w.extractLsb' 0 7 = 0x2B#7 := by
      simpa only [Bool.or_eq_true, beq_iff_eq] using hcustom
    rw [decodeHart, Option.isNone_iff_eq_none.mp hnone]
    exact if_pos hopc
  · rw [decodeHart, xphidoOf_xphidoWord hwf hw hassigned]

/-! ### Both encodings -/

/-- An encoding is that of a CE instruction by its opcode and fields, or that of an Xphido step. -/
theorem encode_cases {i : Instr} {n w : Nat} (h : encode i = some (n, w)) :
    (∃ opc f, i.ceParts = some (opc, f) ∧ n = 128 ∧ w = (f.bits opc).toNat) ∨
      ∃ x, i.xphidoWord = some x ∧ n = 32 ∧ w = x.toNat := by
  unfold encode at h
  split at h
  case h_1 opc f hparts =>
    cases h
    exact .inl ⟨opc, f, hparts, rfl, rfl⟩
  case h_2 =>
    split at h
    case h_1 x hx =>
      cases h
      exact .inr ⟨x, hx, rfl, rfl⟩
    case h_2 => cases h

theorem decodeWord_ce (x : BitVec 128) : decodeWord 128 x.toNat = decodeCE x := by
  rw [decodeWord, if_pos rfl, BitVec.ofNat_toNat, BitVec.setWidth_eq]

theorem decodeWord_hart (x : BitVec 32) : decodeWord 32 x.toNat = decodeHart x := by
  rw [decodeWord, if_neg (by decide), BitVec.ofNat_toNat, BitVec.setWidth_eq]

/-- Settles O4: each of the two encodings is read back field by field. -/
theorem decodeEncode : Obligations.DecodeEncode := by
  intro i hwf n w h
  obtain ⟨opc, f, hparts, rfl, rfl⟩ | ⟨x, hx, rfl, rfl⟩ := encode_cases h
  · rw [decodeWord_ce]
    exact decodeCE_bits opc f (ceOf_of_ceParts hparts)
  · rw [decodeWord_hart]
    exact decodeHart_xphidoWord hwf hx

end Sys2Proof
end

section
/-!
Words decoded one by one: those that the spec works out (R259, R276, R289, R355), and two that differ in a field that R260
fixes.
-/
namespace Sys2Proof
open Machine

/-- Settles O60: the words are closed, and each is decoded. -/
theorem sampleWordsDecode : Obligations.SampleWordsDecode := by
  unfold Obligations.SampleWordsDecode
  decide +kernel

/-- A `nop` with nothing in its guard. -/
def nopWord : BitVec 128 := 0x800000000000006BAEBA800000000000

/-- The same word with MKVAL = 01, and MKSEL still 00. -/
def nopMarkedWord : BitVec 128 := 0x800010000000006BAEBA800000000000

theorem decodeCE_nopWord : decodeCE nopWord = .ok (.nop plainWord) := by decide +kernel

/-- R260 refuses this word. The decoder takes it: in `MkTest.ofCodes` the `none` for an MKVAL other than 00 is the
constructor `MkTest.none`, so that branch too gives a guard without a marker test. -/
theorem decodeCE_nopMarkedWord : decodeCE nopMarkedWord = .ok (.nop plainWord) := by decide +kernel

/-- Refutes O5: two words that differ in MKVAL decode to the same `nop`, which has one encoding. -/
theorem not_encodeDecode : ¬ Obligations.EncodeDecode := by
  rintro ⟨hce, -⟩
  have hword := hce nopWord _ decodeCE_nopWord
  have hmarked := hce nopMarkedWord _ decodeCE_nopMarkedWord
  rw [hword] at hmarked
  exact absurd hmarked (by decide)

end Sys2Proof
end

section
/-!
SUPPORT. What a hart's entry into an exception leaves (R277, log 11), and a form of the Xphido extension where it may not
run (R376).
-/
namespace Sys2Proof.Machine

/-! ### Status at the entry -/

/-- mstatus after an entry into M-mode from mode p: MPIE, MIE and MPP. -/
def statusIntoM (st : DWord) (p : Priv) : DWord :=
  setBits (setBits (setBits st 7 1 (if st.getLsbD 3 then 1 else 0)) 3 1 0) 11 2 p.code

/-- mstatus after an entry into S-mode from mode p: SPIE, SIE and SPP. -/
def statusIntoS (st : DWord) (p : Priv) : DWord :=
  setBits (setBits (setBits st 5 1 (if st.getLsbD 1 then 1 else 0)) 1 1 0) 8 1 (if p = .s then 1 else 0)

section
variable (st : DWord) (p : Priv)

theorem statusIntoM_mie : (statusIntoM st p).getLsbD 3 = false := by
  rw [statusIntoM, setBits_spec _ _ _ _ _ (by decide), if_neg (by decide), setBits_bit _ _ _ _ (by decide)]
  rfl

theorem statusIntoM_mpie : (statusIntoM st p).getLsbD 7 = st.getLsbD 3 := by
  rw [statusIntoM, setBits_spec _ _ _ _ _ (by decide), if_neg (by decide), setBits_bit _ _ _ _ (by decide),
    if_neg (by decide), setBits_bit _ _ _ _ (by decide)]
  cases st.getLsbD 3 <;> rfl

theorem statusIntoM_mpp : ((statusIntoM st p).extractLsb' 11 2).toNat = p.code := by
  refine (congrArg BitVec.toNat (setBits_extract _ 11 2 _ 0 2 (by decide) (by decide))).trans ?_
  cases p <;> rfl

theorem statusIntoS_sie : (statusIntoS st p).getLsbD 1 = false := by
  rw [statusIntoS, setBits_bit _ _ _ _ (by decide), if_neg (by decide), setBits_bit _ _ _ _ (by decide)]
  rfl

theorem statusIntoS_spie : (statusIntoS st p).getLsbD 5 = st.getLsbD 1 := by
  rw [statusIntoS, setBits_bit _ _ _ _ (by decide), if_neg (by decide), setBits_bit _ _ _ _ (by decide),
    if_neg (by decide), setBits_bit _ _ _ _ (by decide)]
  cases st.getLsbD 1 <;> rfl

theorem statusIntoS_spp : (statusIntoS st p).getLsbD 8 = decide (p = .s) := by
  rw [statusIntoS, setBits_bit _ _ _ _ (by decide)]
  cases p <;> rfl

end

/-! ### Entry into an exception -/

section
variable {h : Hart} {cause : Nat}

theorem Hart.trap_of_not_delegated (hm : (h.csr.medeleg.getLsbD cause && h.priv != .m) = false) (tval : DWord) :
    h.trap false cause tval =
      { h with
        csr := { h.csr with
          mstatus := statusIntoM h.csr.mstatus h.priv, mepc := h.pc, mcause := BitVec.ofNat 64 cause, mtval := tval }
        priv := .m, pc := h.csr.mtvec &&& ~~~3, wait := none } :=
  if_neg (ne_true_of_eq_false hm)

theorem Hart.trap_of_delegated (hs : (h.csr.medeleg.getLsbD cause && h.priv != .m) = true) (tval : DWord) :
    h.trap false cause tval =
      { h with
        csr := { h.csr with
          mstatus := statusIntoS h.csr.mstatus h.priv, sepc := h.pc, scause := BitVec.ofNat 64 cause, stval := tval }
        priv := .s, pc := h.csr.stvec &&& ~~~3, wait := none } :=
  if_pos hs

theorem vectorBase_even (tvec : DWord) : (tvec &&& ~~~3).getLsbD 0 = false := by
  rw [BitVec.getLsbD_and]
  exact Bool.and_false _

variable (cause) in
theorem Hart.trap_x (h : Hart) (tval : DWord) : (h.trap false cause tval).x = h.x := by
  cases hd : h.csr.medeleg.getLsbD cause && h.priv != .m
  · rw [Hart.trap_of_not_delegated hd]
  · rw [Hart.trap_of_delegated hd]

variable (cause) in
theorem Hart.trap_ok (ok : h.Ok) (tval : DWord) : (h.trap false cause tval).Ok := by
  cases hd : h.csr.medeleg.getLsbD cause && h.priv != .m
  · rw [Hart.trap_of_not_delegated hd]
    exact ⟨ok.x0, vectorBase_even _, ok.asid, ok.seg⟩
  · rw [Hart.trap_of_delegated hd]
    exact ⟨ok.x0, vectorBase_even _, ok.asid, ok.seg⟩

end

/-- An exception of a hart in its proper form is what `Traps` says. -/
theorem Act.exception_traps {s : State} {d n : Nat} (ok : (s.hart d n).Ok) (cause : Nat) (tval : DWord) :
    Traps s ((Act.exception d n cause tval).run s) d n cause tval := by
  have hhart : ((Act.exception d n cause tval).run s).hart d n = (s.hart d n).trap false cause tval := by
    rw [Act.exception, Act.run_onHart, State.hart_apply_same]
    exact Hart.proper_eq (Hart.trap_ok cause ok tval)
  refine ⟨rfl, fun d' n' hne => State.hart_apply_ne s _ hne, fun r => ?_, fun hm => ?_, fun hs => ?_⟩
  · rw [hhart, Hart.readX, Hart.readX, Hart.trap_x]
  · rw [hhart, Hart.trap_of_not_delegated hm]
    exact ⟨rfl, rfl, rfl, rfl, rfl, statusIntoM_mie _ _, statusIntoM_mpie _ _, statusIntoM_mpp _ _⟩
  · rw [hhart, Hart.trap_of_delegated hs]
    exact ⟨rfl, rfl, rfl, rfl, rfl, statusIntoS_sie _ _, statusIntoS_spie _ _, statusIntoS_spp _ _⟩

/-! ### Forms where they may not run -/

section
variable {i : Instr} {a : Allowed} {s : State} {d n : Nat}

theorem Allowed.permits_of_not_at (h : ¬ a.at s d n) : a.permits d (s.hart d n).priv = false := by
  refine Bool.eq_false_iff.mpr fun hp => h ?_
  obtain ⟨hcore, hmode⟩ := (Bool.and_eq_true _ _).mp hp
  refine ⟨?_, fun hpriv => ?_⟩
  · by_cases hc : isC d = true
    · rwa [if_pos hc] at hcore ⊢
    · rwa [if_neg hc] at hcore ⊢
  · rw [hpriv] at hmode
    exact bne_iff_ne.mp hmode

theorem xform_of_not_at (hfocus : s.focus = .hart d n) (h : ¬ a.at s d n) (body : XEnv → Act) :
    xform i a body s = (Act.exception d n excIllegal (instBits i)).next s := by
  rw [xform, hfocus]
  dsimp only
  rw [Allowed.permits_of_not_at h]
  rfl

/-- Every hart may execute a form of this row. -/
theorem anyMode_at (s : State) (d n : Nat) : anyMode.at s d n := ⟨by split <;> rfl, nofun⟩

/-- Each form by the row of R376 that it names: all go through `xform`, and no hart is outside `anyMode`. -/
theorem exec_of_not_at (ha : allowedFor i = some a) (hfocus : s.focus = .hart d n) (h : ¬ a.at s d n) :
    exec i s = (Act.exception d n excIllegal (instBits i)).next s := by
  have hform : ∀ body, xform i a body s = (Act.exception d n excIllegal (instBits i)).next s := xform_of_not_at hfocus h
  cases i
  case rgAlloc | rgFree | rgPlace | rgLoad | rgStart | rgStop | rgDrain | rgSave | rgRestore | rgKill | rgShut | lotSweep
      | cpStart | dbgRd | dbgWr =>
    obtain rfl : tailorOnly = a := Option.some.inj ha
    simp only [exec, execRgAlloc, execRgFree, execRgPlace, execRgLoad, execRgStart, execRgStop, execRgDrain, execRgSave,
      execRgRestore, execRgKill, execRgShut, execLotSweep, execCpStart, execDbgRd, execDbgWr, xregion, xordered, hform]
  case rgStat | cpQuery | coreTlRead | coreTlWait | tlAdd | coreLaunch | fqPop | ptInv =>
    obtain rfl : bothCores = a := Option.some.inj ha
    simp only [exec, execRgStat, execCpQuery, execCoreTlRead, execCoreTlWait, execTlAdd, execCoreLaunch, execFqPop, execPtInv,
      xordered, hform]
  case fwSet =>
    obtain rfl : systemOnly = a := Option.some.inj ha
    simp only [exec, execFwSet, xordered, hform]
  case ldacqW | ldacqD | strelW | strelD | fenceP | monWait =>
    obtain rfl : anyMode = a := Option.some.inj ha
    exact absurd (anyMode_at s d n) h
  all_goals cases ha

theorem xphidoWord_of_allowedFor (ha : allowedFor i = some a) : ∃ w, i.xphidoWord = some w := by
  cases i <;> cases ha <;> exact ⟨_, rfl⟩

theorem instBits_of_xphidoWord {w : BitVec 32} (hw : i.xphidoWord = some w) : instBits i = w.zeroExtend 64 := by
  rw [instBits, hw]
  rfl

theorem exec_unassignedXphido (hfocus : s.focus = .hart d n) (w : BitVec 32) :
    exec (.unassignedXphido w) s = (Act.exception d n excIllegal (w.zeroExtend 64)).next s := by
  show execUnassignedXphido w s = _
  rw [execUnassignedXphido, hfocus]

end

/-- Settles O40: where a form may not run, and for a word that names none, `exec` is the exception alone. -/
theorem illegalForms : Obligations.IllegalForms := by
  intro s d n hfocus ok
  refine ⟨fun i a ha hat => ?_, fun w => ?_⟩
  · obtain ⟨w, hw⟩ := xphidoWord_of_allowedFor ha
    have hexec := exec_of_not_at ha hfocus hat
    rw [instBits_of_xphidoWord hw] at hexec
    exact ⟨_, w, hexec, hw, Act.exception_traps ok _ _⟩
  · exact ⟨_, exec_unassignedXphido hfocus w, Act.exception_traps ok _ _⟩

end Sys2Proof.Machine
end

section
/-!
What dataflow firings share (R157, R164, R288): a body known for its sources, a source forwarded whole, operands
consumed without a result.
-/
namespace Sys2Proof.Machine

/-! ### Markers and versions of sources -/

theorem Src.bne_data_of_mark {a : Src} (h : a.mark ≠ .data) : (a.mark != .data) = true := bne_iff_ne.mpr h

theorem Src.bne_data_of_data {a : Src} (h : a.mark = .data) : ¬(a.mark != .data) = true := by simp [h]

theorem verOf_one (a : Src) : verOf [a] = a.ver := by simp [verOf, maxVer, BitVec.ult]

theorem verOf_two (a b : Src) : verOf [a, b] = maxVer a.ver b.ver := by rw [verOf, verOf_one]

/-! ### What a completing firing leaves -/

theorem Fires.runs {s : State} {i : Instr} {w : CEWord} {e : Env} {a b c : Src} (hf : Fires s i w e a b c)
    {body : Env → Src → Src → Src → Act} {act : Act} (h : body e a b c = act) :
    fire i w body s = .next (act.run s) := h ▸ fire_next hf body

section
variable {s : State} {e : Env} (henv : s.env = some e) {w : CEWord} {f : Ce → Ce}
include henv

/-- Which context fired last apart, the cell holds the CE that the firing has written. -/
theorem Env.done_holds {P : Ce → Prop} (hlast : ∀ c k, P c → P { c with lastCtx := k }) (h : P (f e.c.ce)) :
    P (e.ceIn ((e.done f).run s)) := by
  obtain ⟨k, hce⟩ := Env.done_ceIn henv f
  rw [hce]
  exact hlast _ k h

theorem Env.done_forwards {t : Stamp} {a : Src} (h : Forwards e.c.ce (f e.c.ce) w t a) :
    Forwards e.c.ce (e.ceIn ((e.done f).run s)) w t a :=
  Env.done_holds henv (P := (Forwards e.c.ce · w t a)) (fun _ _ => Forwards.last) h

theorem Env.done_consumed (h : Consumed e.c.ce (f e.c.ce) w) : Consumed e.c.ce (e.ceIn ((e.done f).run s)) w :=
  Env.done_holds henv (P := (Consumed e.c.ce · w)) (fun _ _ => Consumed.last) h

theorem Env.done_setsPred {r : Bool} (h : SetsPred (f e.c.ce) w r) : SetsPred (e.ceIn ((e.done f).run s)) w r :=
  Env.done_holds henv (P := (SetsPred · w r)) (fun _ _ h => h) h

theorem Env.done_consumes (w : CEWord) : Completes s ((e.done fun c => c.consume w).run s) e (noDst w) :=
  Env.done_completes henv _ _ (Ce.consume_noDst _ w) (Ce.consume_kept _ w)

theorem Env.done_consumes_setPred (w : CEWord) (r : Bool) :
    SetsPred (e.ceIn ((e.done fun c => (c.consume w).setPred w r).run s)) w r ∧
      Completes s ((e.done fun c => (c.consume w).setPred w r).run s) e (noDst w) :=
  ⟨Env.done_setsPred henv (Ce.setPred_sets r _ w),
    Env.done_completes henv _ _ ((Ce.consume_noDst _ w).setPred r) ((Ce.consume_kept _ w).setPred r)⟩

theorem Env.done_forwards_setPred (w : CEWord) (ver : BitVec 4) (a : Src) (r : Bool) {t : State}
    (ht : (e.done fun c => ((c.consume w).forward w.dst (e.stamp w ver) a).setPred w r).run s = t) :
    Forwards e.c.ce (e.ceIn t) w (e.stamp w ver) a ∧ SetsPred (e.ceIn t) w r ∧ Completes s t e w := by
  subst ht
  exact ⟨Env.done_forwards henv ((Ce.forward_forwards _ w _ a).setPred r),
    Env.done_setsPred henv (Ce.setPred_sets r _ w),
    Env.done_completes henv w _ ((Ce.forward_consumed _ w _ a).setPred r) ((Ce.forward_kept _ w _ a).setPred r)⟩

theorem Env.forwards_spec (w : CEWord) (srcs : List Src) (a : Src) {t : State}
    (ht : (e.forwards w srcs a none).run s = t) :
    Forwards e.c.ce (e.ceIn t) w (e.stamp w (verOf srcs)) a ∧ Completes s t e w := by
  subst ht
  exact ⟨Env.done_forwards henv (Ce.forward_forwards _ w _ a),
    Env.done_completes henv w _ (Ce.forward_consumed _ w _ a) (Ce.forward_kept _ w _ a)⟩

end

end Sys2Proof.Machine
end

section
/-!
`nop`, `mov`, `steer`, `filter`, `absorb` and `mark` (R290-R294, R300).
-/
namespace Sys2Proof.Machine

section
variable {s : State} {w : CEWord} {e : Env} {a b c : Src}

theorem Fires.nop (hf : Fires s (.nop w) w e a b c) :
    ∃ t, exec (.nop w) s = .next t ∧ Completes s t e (noDst w) :=
  ⟨_, fire_next hf _, Env.done_consumes hf.env w⟩

theorem Fires.mov (hf : Fires s (.mov w) w e a b c) : ∃ t, exec (.mov w) s = .next t ∧
    Forwards e.c.ce (e.ceIn t) w (e.stamp w a.ver) a ∧ Completes s t e w :=
  ⟨_, fire_next hf _, verOf_one a ▸ Env.forwards_spec hf.env w [a] a rfl⟩

/-! ### `steer` -/

theorem Fires.steer_marker (hf : Fires s (.steer w) w e a b c) (ha : a.mark ≠ .data) :
    ∃ t, exec (.steer w) s = .next t ∧
      Forwards e.c.ce (e.ceIn t) w (e.stamp w (maxVer a.ver b.ver)) a ∧ Completes s t e w :=
  ⟨_, hf.runs (if_pos (Src.bne_data_of_mark ha)), verOf_two a b ▸ Env.forwards_spec hf.env w [a, b] a rfl⟩

theorem Fires.steer_conditionMarker (hf : Fires s (.steer w) w e a b c) (ha : a.mark = .data) (hb : b.mark ≠ .data) :
    ∃ t, exec (.steer w) s = .next t ∧ Passes s t e w (maxVer a.ver b.ver) b.mark :=
  ⟨_, hf.runs ((if_neg (Src.bne_data_of_data ha)).trans (if_pos (Src.bne_data_of_mark hb))),
    verOf_two a b ▸ Env.passes_spec hf.env w [a, b] b.mark⟩

theorem Fires.steer_data (hf : Fires s (.steer w) w e a b c) (ha : a.mark = .data) (hb : b.mark = .data) :
    ∃ t, exec (.steer w) s = .next t ∧
      Forwards e.c.ce (e.ceIn t) { w with dst := steerOut w.dst (b.val.word != 0) } (e.stamp w (maxVer a.ver b.ver)) a ∧
      SetsPred (e.ceIn t) w (b.val.word != 0) ∧
      Completes s t e { w with dst := steerOut w.dst (b.val.word != 0) } :=
  ⟨_, hf.runs ((if_neg (Src.bne_data_of_data ha)).trans (if_neg (Src.bne_data_of_data hb))), verOf_two a b ▸
    Env.done_forwards_setPred hf.env { w with dst := steerOut w.dst (b.val.word != 0) } (verOf [a, b]) a
      (b.val.word != 0) rfl⟩

theorem Fires.steer_only (hf : Fires s (.steer w) w e a b c) : ∃ t, exec (.steer w) s = .next t ∧ OnlyFires s t e := by
  by_cases ha : a.mark = .data
  · by_cases hb : b.mark = .data
    · obtain ⟨t, hexec, -, -, hcompletes⟩ := hf.steer_data ha hb
      exact ⟨t, hexec, hcompletes.only⟩
    · obtain ⟨t, hexec, -, hcompletes⟩ := hf.steer_conditionMarker ha hb
      exact ⟨t, hexec, hcompletes.only⟩
  · obtain ⟨t, hexec, -, hcompletes⟩ := hf.steer_marker ha
    exact ⟨t, hexec, hcompletes.only⟩

/-! ### `filter` -/

theorem Fires.filter_forwards (hf : Fires s (.filter w) w e a b c)
    (h : a.mark ≠ .data ∨ b.mark = .data ∧ b.val.word ≠ 0) : ∃ t, exec (.filter w) s = .next t ∧
      Forwards e.c.ce (e.ceIn t) w (e.stamp w (maxVer a.ver b.ver)) a ∧ SetsPred (e.ceIn t) w true ∧
      Completes s t e w := by
  suffices hexec : exec (.filter w) s = .next ((e.forwards w [a, b] a (some true)).run s) from
    ⟨_, hexec, verOf_two a b ▸ Env.done_forwards_setPred hf.env w (verOf [a, b]) a true rfl⟩
  by_cases ha : a.mark = .data
  · obtain ⟨hb, hword⟩ := h.resolve_left (not_not_intro ha)
    exact hf.runs ((if_neg (Src.bne_data_of_data ha)).trans <| (if_neg (Src.bne_data_of_data hb)).trans <|
      if_pos (bne_iff_ne.mpr hword))
  · exact hf.runs (if_pos (Src.bne_data_of_mark ha))

theorem Fires.filter_conditionMarker (hf : Fires s (.filter w) w e a b c) (ha : a.mark = .data) (hb : b.mark ≠ .data) :
    ∃ t, exec (.filter w) s = .next t ∧ Passes s t e w (maxVer a.ver b.ver) b.mark :=
  ⟨_, hf.runs ((if_neg (Src.bne_data_of_data ha)).trans (if_pos (Src.bne_data_of_mark hb))),
    verOf_two a b ▸ Env.passes_spec hf.env w [a, b] b.mark⟩

theorem Fires.filter_drops (hf : Fires s (.filter w) w e a b c) (ha : a.mark = .data) (hb : b.mark = .data)
    (hword : b.val.word = 0) : ∃ t, exec (.filter w) s = .next t ∧
      SetsPred (e.ceIn t) w false ∧ Completes s t e (noDst w) :=
  ⟨_, hf.runs ((if_neg (Src.bne_data_of_data ha)).trans <| (if_neg (Src.bne_data_of_data hb)).trans <|
    if_neg (by simp [hword])), Env.done_consumes_setPred hf.env w false⟩

theorem Fires.filter_only (hf : Fires s (.filter w) w e a b c) :
    ∃ t, exec (.filter w) s = .next t ∧ OnlyFires s t e := by
  by_cases h : a.mark ≠ .data ∨ b.mark = .data ∧ b.val.word ≠ 0
  · obtain ⟨t, hexec, -, -, hcompletes⟩ := hf.filter_forwards h
    exact ⟨t, hexec, hcompletes.only⟩
  · obtain ⟨ha, hb⟩ := not_or.mp h
    by_cases hmark : b.mark = .data
    · obtain ⟨t, hexec, -, hcompletes⟩ :=
        hf.filter_drops (not_not.mp ha) hmark (not_not.mp fun hword => hb ⟨hmark, hword⟩)
      exact ⟨t, hexec, hcompletes.only⟩
    · obtain ⟨t, hexec, -, hcompletes⟩ := hf.filter_conditionMarker (not_not.mp ha) hmark
      exact ⟨t, hexec, hcompletes.only⟩

/-! ### `absorb` and `mark` -/

theorem Fires.absorb (hf : Fires s (.absorb w) w e a b c) : ∃ t, exec (.absorb w) s = .next t ∧
    SetsPred (e.ceIn t) w (a.mark == .eos) ∧ Completes s t e (noDst w) :=
  ⟨_, fire_next hf _, Env.done_consumes_setPred hf.env w (a.mark == .eos)⟩

theorem Fires.mark (hf : Fires s (.mark w) w e a b c) : ∃ t, exec (.mark w) s = .next t ∧ Completes s t e w ∧
    ∀ o ∈ outsOf w.dst, (e.ceIn t).outList o = e.c.ce.outList o ++
      [.filled { body := bodyFor o .i32 a.val, ctx := outCtx w, ver := verFor o a.ver
                 mark := Marker.ofCode (w.imm.extractLsb' 8 2), since := s.cycle }] := by
  obtain ⟨hs, -, -⟩ := State.env_spec hf.env
  refine ⟨_, fire_next hf _, Env.done_completes hf.env w _ (Ce.pushes_consumed _ w _) (Ce.pushes_kept _ w _), ?_⟩
  intro o ho
  rw [← congrArg State.cycle hs]
  exact (Env.done_outs hf.env _ o).trans (Ce.pushes_outs _ w _ ho)

end

/-- Settles O20: each clause is the lemma about its instruction for those tokens, and those tokens are all there are. -/
theorem moveResults : Obligations.MoveResults := by
  intro s w e a b c
  refine ⟨?_, Fires.nop, Fires.mov, fun hf => ⟨hf.steer_marker, hf.steer_conditionMarker, hf.steer_data⟩,
    fun hf => ⟨hf.filter_forwards, hf.filter_conditionMarker, hf.filter_drops⟩, Fires.absorb, Fires.mark⟩
  simp only [List.forall_mem_cons, List.not_mem_nil, false_imp_iff, implies_true, and_true]
  refine ⟨fun hf => ?nop, fun hf => ?mov, Fires.steer_only, Fires.filter_only, fun hf => ?absorb, fun hf => ?mark⟩
  case nop =>
    obtain ⟨t, hexec, hcompletes⟩ := hf.nop
    exact ⟨t, hexec, hcompletes.only⟩
  case mov =>
    obtain ⟨t, hexec, -, hcompletes⟩ := hf.mov
    exact ⟨t, hexec, hcompletes.only⟩
  case absorb =>
    obtain ⟨t, hexec, -, hcompletes⟩ := hf.absorb
    exact ⟨t, hexec, hcompletes.only⟩
  case mark =>
    obtain ⟨t, hexec, hcompletes, -⟩ := hf.mark
    exact ⟨t, hexec, hcompletes.only⟩

end Sys2Proof.Machine
end

section
/-!
`merge` and `amerge` (R295-R297): the input that is taken, and operands that a step of the CE takes or leaves alone.
-/
namespace Sys2Proof.Machine

/-! ### Operands taken and left alone -/

theorem Untaken.refl (c : Ce) (o : Opnd) : Untaken c c o := by cases o <;> constructor

theorem Untaken.trans {c₁ c₂ c₃ : Ce} {o : Opnd} (h : Untaken c₁ c₂ o) (k : Untaken c₂ c₃ o) : Untaken c₁ c₃ o := by
  cases o
  case vi | si | ci | v | s => exact Eq.trans k h
  all_goals trivial

theorem Untaken.took {c₁ c₂ c₃ : Ce} {o : Opnd} (h : Untaken c₁ c₂ o) (k : Took c₂ c₃ o) : Took c₁ c₃ o := by
  cases o
  case vi | si | ci => exact Eq.trans k (congrArg List.tail h)
  case v => exact Eq.trans k (congrArg (fun r => { r with pres := false }) h)
  case s => exact Eq.trans k (congrArg (fun r => { r with pres := false }) h)
  all_goals trivial

theorem Took.untaken {c₁ c₂ c₃ : Ce} {o : Opnd} (h : Took c₁ c₂ o) (k : Untaken c₂ c₃ o) : Took c₁ c₃ o := by
  cases o
  case vi | si | ci | v | s => exact Eq.trans k h
  all_goals trivial

theorem Untaken.last {c c' : Ce} {o : Opnd} {k : Nat} (h : Untaken c c' o) : Untaken c { c' with lastCtx := k } o := by
  cases o <;> exact h

theorem Took.last {c c' : Ce} {o : Opnd} {k : Nat} (h : Took c c' o) : Took c { c' with lastCtx := k } o := by
  cases o <;> exact h

theorem Ce.SameBut.untaken {c c' : Ce} (h : c.SameBut c') (o : Opnd) : Untaken c c' o := by
  cases o
  case vi => exact congrArg (Store.get · [] _) h.vi
  case si => exact congrArg (Store.get · [] _) h.si
  case ci => exact congrArg (Store.get · [] _) h.ci
  case v => exact congrArg (Store.get · {} _) h.v
  case s => exact congrArg (Store.get · {} _) h.s
  all_goals trivial

/-- What a firing has consumed is consumed still after steps that leave those operands alone. -/
theorem Consumed.untaken {c c₁ c₂ : Ce} {w : CEWord} (h : Consumed c c₁ w)
    (hu : ∀ o ∈ dropsOf w, (o.isReg = true → w.dst ≠ o) → Untaken c₁ c₂ o) : Consumed c c₂ w where
  vi i hi := Eq.trans (hu (.vi i) (List.mem_append_left _ hi) nofun) (h.vi i hi)
  si i hi := Eq.trans (hu (.si i) (List.mem_append_left _ hi) nofun) (h.si i hi)
  ci i hi := Eq.trans (hu (.ci i) (List.mem_append_left _ hi) nofun) (h.ci i hi)
  v i hi hd := Eq.trans (hu (.v i) hi fun _ => hd) (h.v i hi hd)
  s i hi hd := Eq.trans (hu (.s i) hi fun _ => hd) (h.s i hi hd)

section
variable (c : Ce) {w : CEWord} {o : Opnd}

theorem Ce.consume_untaken (h : o ∉ dropsOf w) : Untaken c (c.consume w) o := by
  have hsources : o ∉ consumesOf w := fun x => h (List.mem_append_left _ x)
  cases o
  case vi => exact (Ce.consume_vi ..).trans (if_neg hsources)
  case si => exact (Ce.consume_si ..).trans (if_neg hsources)
  case ci => exact (Ce.consume_ci ..).trans (if_neg hsources)
  case v => exact (Ce.consume_v ..).trans (if_neg h)
  case s => exact (Ce.consume_s ..).trans (if_neg h)
  all_goals trivial

theorem Ce.take_untaken {x : Opnd} (h : x ≠ o) : Untaken c (c.take x) o := by
  cases o
  case vi => exact (Ce.take_vi ..).trans (if_neg h)
  case si => exact (Ce.take_si ..).trans (if_neg h)
  case ci => exact (Ce.take_ci ..).trans (if_neg h)
  case v => exact (Ce.take_v ..).trans (if_neg h)
  case s => exact (Ce.take_s ..).trans (if_neg h)
  all_goals trivial

theorem Ce.take_took (o : Opnd) : Took c (c.take o) o := by
  cases o
  case vi => exact (Ce.take_vi ..).trans (if_pos rfl)
  case si => exact (Ce.take_si ..).trans (if_pos rfl)
  case ci => exact (Ce.take_ci ..).trans (if_pos rfl)
  case v => exact (Ce.take_v ..).trans (if_pos rfl)
  case s => exact (Ce.take_s ..).trans (if_pos rfl)
  all_goals trivial

theorem Ce.setPred_untaken (w : CEWord) (r : Bool) (o : Opnd) : Untaken c (c.setPred w r) o := by
  cases o
  case vi => exact congrArg (Store.get · [] _) (Ce.setPred_vi c w r)
  case si => exact congrArg (Store.get · [] _) (Ce.setPred_si c w r)
  case ci => exact congrArg (Store.get · [] _) (Ce.setPred_ci c w r)
  case v => exact congrArg (Store.get · {} _) (Ce.setPred_v c w r)
  case s => exact congrArg (Store.get · {} _) (Ce.setPred_s c w r)
  all_goals trivial

theorem Ce.write_untaken (dst : Opnd) (t : Stamp) (x : Val) (h : o.isReg = true → dst ≠ o) :
    Untaken c (c.write dst t x) o := by
  cases o
  case vi => exact congrArg (Store.get · [] _) (Ce.write_keeps c dst t x).vi
  case si => exact congrArg (Store.get · [] _) (Ce.write_keeps c dst t x).si
  case ci => exact congrArg (Store.get · [] _) (Ce.write_keeps c dst t x).ci
  case v => exact Ce.write_v_ne _ _ _ _ (h rfl)
  case s => exact Ce.write_s_ne _ _ _ _ (h rfl)
  all_goals trivial

end

/-! ### A source forwarded from a CE at any point of its firing -/

section
variable (c : Ce) (dst : Opnd) (t : Stamp) {a : Src}

theorem Ce.forward_marker_same (h : a.mark ≠ .data) : c.SameBut (c.forward dst t a) := by
  rw [Ce.forward, if_neg h]
  exact (Ce.pushAll_spec _ _ (outsOf_nodup dst) (fun _ => outsOf_isOut) c).1

theorem Ce.forward_marker_outs (h : a.mark ≠ .data) {o : Opnd} (ho : o ∈ outsOf dst) :
    (c.forward dst t a).outList o = c.outList o ++ [.filled
      { body := bodyFor o t.fmt a.val, ctx := t.ctx, ver := verFor o t.ver, mark := a.mark, since := t.now }] := by
  rw [Ce.forward, if_neg h]
  exact (Ce.pushAll_spec _ _ (outsOf_nodup dst) (fun _ => outsOf_isOut) c).2.1 o ho

theorem Ce.forward_untaken {o : Opnd} (h : o.isReg = true → dst ≠ o) : Untaken c (c.forward dst t a) o := by
  by_cases ha : a.mark = .data
  · rw [Ce.forward, if_pos ha]
    exact Ce.write_untaken c dst t a.val h
  · exact (Ce.forward_marker_same c dst t ha).untaken o

end

/-- The outputs and a register destination are still as c has them where the source is forwarded. -/
theorem Ce.forward_forwards_of {c c₁ : Ce} {w : CEWord} (t : Stamp) {a : Src}
    (houts : ∀ o, c₁.outList o = c.outList o)
    (hdst : a.mark ≠ .data → w.dst.isReg = true → w.dst ∉ dropsOf w → Untaken c c₁ w.dst) :
    Forwards c (c₁.forward w.dst t a) w t a where
  data h := by
    rw [Ce.forward, if_pos h]
    exact ⟨fun _ => Ce.write_v_same _ _ _ _, fun _ => Ce.write_s_same _ _ _ _, fun _ hi _ => Ce.write_p_same _ _ _ _ hi,
      fun o ho => by rw [Ce.write_outs _ _ _ _ ho, houts]⟩
  outs h o ho := by rw [Ce.forward_marker_outs _ _ _ h ho, houts]
  v h i hi hd := by
    rw [(Ce.forward_marker_same _ _ _ h).v]
    rw [hi] at hdst
    exact hdst h rfl hd
  s h i hi hd := by
    rw [(Ce.forward_marker_same _ _ _ h).s]
    rw [hi] at hdst
    exact hdst h rfl hd

/-! ### The input that is taken -/

/-- The CE after x from the input o has been forwarded, and o consumed if its take bit says so (R295). -/
def Ce.joined (c : Ce) (w : CEWord) (t : Stamp) (o : Opnd) (take k : Bool) (x : Src) : Ce :=
  ((if take then (c.consume w).take o else c.consume w).forward w.dst t x).setPred w k

section
variable (c : Ce) {w : CEWord} (t : Stamp) {o : Opnd} (take k : Bool) (x : Src)

theorem Ce.takeIf_outs (y : Opnd) :
    (if take then (c.consume w).take o else c.consume w).outList y = c.outList y := by
  split <;> simp

theorem Ce.takeIf_untaken {y : Opnd} (hy : o ≠ y) :
    Untaken (c.consume w) (if take then (c.consume w).take o else c.consume w) y := by
  split
  · exact Ce.take_untaken _ hy
  · exact .refl _ y

theorem Ce.joined_forwards (hx : x.mark ≠ .data → o.isReg = false) :
    Forwards c (c.joined w t o take k x) w t x := by
  refine (Ce.forward_forwards_of t (Ce.takeIf_outs c take) fun hmark hreg hd => ?_).setPred k
  have hne : o ≠ w.dst := fun h => by simp [← h, hx hmark] at hreg
  exact (Ce.consume_untaken c hd).trans (Ce.takeIf_untaken c take hne)

theorem Ce.joined_consumed (ho : o ∉ dropsOf w) : Consumed c (c.joined w t o take k x) w :=
  ((Ce.consume_consumed c w).untaken fun _ hy hdst => (Ce.takeIf_untaken c take fun h => ho (by rwa [h])).trans
    (Ce.forward_untaken _ _ _ hdst)).setPred k

theorem Ce.joined_untaken_other {y : Opnd} (hy : y ∉ dropsOf w) (hne : o ≠ y) (hdst : w.dst ≠ y) :
    Untaken c (c.joined w t o take k x) y :=
  ((Ce.consume_untaken c hy).trans (Ce.takeIf_untaken c take hne)).trans <|
    (Ce.forward_untaken _ _ _ fun _ => hdst).trans (Ce.setPred_untaken _ _ _ _)

theorem Ce.joined_took (ho : o ∉ dropsOf w) (hdst : w.dst ≠ o) : Took c (c.joined w t o true k x) o :=
  ((Ce.consume_untaken c ho).took (Ce.take_took _ o)).untaken <|
    (Ce.forward_untaken _ _ _ fun _ => hdst).trans (Ce.setPred_untaken _ _ _ _)

theorem Ce.joined_untaken (ho : o ∉ dropsOf w) (hdst : w.dst ≠ o) : Untaken c (c.joined w t o false k x) o :=
  (Ce.consume_untaken c ho).trans <|
    (Ce.forward_untaken _ _ _ fun _ => hdst).trans (Ce.setPred_untaken _ _ _ _)

end

section
variable {s : State} {e : Env} (henv : s.env = some e) {w : CEWord} {f : Ce → Ce} {o : Opnd}
include henv

theorem Env.done_untaken (h : Untaken e.c.ce (f e.c.ce) o) : Untaken e.c.ce (e.ceIn ((e.done f).run s)) o :=
  Env.done_holds henv (P := (Untaken e.c.ce · o)) (fun _ _ => Untaken.last) h

theorem Env.done_took (h : Took e.c.ce (f e.c.ce) o) : Took e.c.ce (e.ceIn ((e.done f).run s)) o :=
  Env.done_holds henv (P := (Took e.c.ce · o)) (fun _ _ => Took.last) h

end

/-- A marker comes from a channel alone. -/
theorem Env.src_marker {e : Env} {w : CEWord} {o : Opnd} {x : Src} (h : e.src w o = .ok x) (hx : x.mark ≠ .data) :
    o.isReg = false := by
  have hforeign : ∀ {z : Val}, e.foreign z ≠ .ok x := by
    intro z hz
    unfold Env.foreign at hz
    split at hz
    · cases hz
      exact hx rfl
    · split at hz
      · cases hz
        exact hx rfl
      · cases hz
    · cases hz
  cases o
  case v | s =>
    simp only [Env.src] at h
    split at h
    · cases h
      exact absurd rfl hx
    · exact absurd h hforeign
  all_goals rfl

theorem Env.present_v (e : Env) (i : Fin 16) : e.present ((Opnd.v i).code.extractLsb' 0 5) =
    ((e.c.ce.v.get {} i.val).pres && lotOwn e.own (e.c.ce.v.get {} i.val).lot) := by
  have hbit : ((Opnd.v i).code.extractLsb' 0 5).getLsbD 4 = false := by revert i; decide
  have hnum : ((Opnd.v i).code.extractLsb' 0 5).toNat % 16 = i.val := by revert i; decide
  rw [Env.present, hbit, hnum]
  rfl

theorem Env.present_s (e : Env) (i : Fin 16) : e.present ((Opnd.s i).code.extractLsb' 0 5) =
    ((e.c.ce.s.get {} i.val).pres && lotOwn e.own (e.c.ce.s.get {} i.val).lot) := by
  have hbit : ((Opnd.s i).code.extractLsb' 0 5).getLsbD 4 = true := by revert i; decide
  have hnum : ((Opnd.s i).code.extractLsb' 0 5).toNat % 16 = i.val := by revert i; decide
  rw [Env.present, hbit, hnum]
  rfl

/-- An input that is ready reads (R295). -/
theorem Env.src_of_inputReady {e : Env} {w : CEWord} {o : Opnd} (h : e.inputReady w o = true) :
    ∃ x, e.src w o = .ok x := by
  cases o
  case v i =>
    rw [Env.inputReady, Env.present_v, Bool.and_eq_true] at h
    exact ⟨_, if_pos h.2⟩
  case s i =>
    rw [Env.inputReady, Env.present_s, Bool.and_eq_true] at h
    exact ⟨_, if_pos h.2⟩
  case vi | si | ci =>
    simp only [Env.inputReady] at h
    split at h
    next t ht => exact ⟨t.src, by simp only [Env.src, ht]⟩
    next => cases h
  all_goals cases h

section
variable {s : State} {w : CEWord} {e : Env} {a b c x : Src} {srcs : List Src} {o : Opnd} {take k : Bool}

theorem Env.takesInput_of_src (hx : e.src w o = .ok x) : e.takesInput w srcs o take k =
    e.done fun c => c.joined w (e.stamp w (verOf (x :: srcs))) o take k x := by
  unfold Env.takesInput
  rw [hx]
  rfl

theorem Env.takesInput_only (henv : s.env = some e) (h : e.inputReady w o = true) :
    OnlyFires s ((e.takesInput w srcs o take k).run s) e := by
  obtain ⟨x, hx⟩ := Env.src_of_inputReady h
  rw [Env.takesInput_of_src hx]
  exact Env.done_only henv _

/-- The input taken is forwarded, and consumed if its take bit says so; the other one is left alone (R295). -/
theorem Env.takesInput_joins (henv : s.env = some e) {other : Opnd} (hne : o ≠ other) (ho : o ∉ dropsOf w)
    (hother : other ∉ dropsOf w) (hx : e.src w o = .ok x) {t : State} (ht : (e.takesInput w srcs o take k).run s = t) :
    Forwards e.c.ce (e.ceIn t) w (e.stamp w (verOf (x :: srcs))) x ∧ SetsPred (e.ceIn t) w k ∧
      Consumed e.c.ce (e.ceIn t) w ∧ OnlyFires s t e ∧ (w.dst ≠ other → Untaken e.c.ce (e.ceIn t) other) ∧
      (w.dst ≠ o → (take = true → Took e.c.ce (e.ceIn t) o) ∧ (take = false → Untaken e.c.ce (e.ceIn t) o)) := by
  rw [Env.takesInput_of_src hx] at ht
  subst ht
  refine ⟨Env.done_forwards henv (Ce.joined_forwards _ _ _ _ _ (Env.src_marker hx)),
    Env.done_setsPred henv (Ce.setPred_sets k _ w), Env.done_consumed henv (Ce.joined_consumed _ _ _ _ _ ho),
    Env.done_only henv _, fun hdst => Env.done_untaken henv (Ce.joined_untaken_other _ _ _ _ _ hother hne hdst),
    fun hdst => ⟨?_, ?_⟩⟩
  · rintro rfl
    exact Env.done_took henv (Ce.joined_took _ _ _ _ ho hdst)
  · rintro rfl
    exact Env.done_untaken henv (Ce.joined_untaken _ _ _ _ ho hdst)

/-! ### The two instructions -/

/-- What an instruction that deals with markers itself adds to its guard holds where it fires (R152). -/
theorem Fires.adds {i : Instr} (hf : Fires s i w e a b c) (hown : ownMarkers i = true) : e.adds i a b c = true := by
  have h := hf.enabled
  simp only [Env.enabled, hf.sa, hf.sb, hf.sc, hown, Bool.not_true, Bool.false_and, Bool.false_or,
    Bool.and_eq_true] at h
  exact h.2

theorem Fires.merge_marker (hf : Fires s (.merge w) w e a b c) (ha : a.mark ≠ .data) :
    ∃ t, exec (.merge w) s = .next t ∧ Passes s t e w a.ver a.mark :=
  ⟨_, hf.runs (if_pos (Src.bne_data_of_mark ha)), verOf_one a ▸ Env.passes_spec hf.env w [a] a.mark⟩

theorem Fires.merge_data (hf : Fires s (.merge w) w e a b c) (ha : a.mark = .data) {k : Bool}
    (hk : (a.val.word != 0) = k) : exec (.merge w) s =
      .next ((e.takesInput w [a] (if k then w.in1 else w.in0) (if k then w.take1 else w.take0) k).run s) := by
  subst hk
  refine hf.runs ((if_neg (Src.bne_data_of_data ha)).trans ?_)
  by_cases hword : a.val.word = 0
  · simp [hword]
  · rw [if_neg hword, bne_iff_ne.mpr hword]
    rfl

theorem Fires.merge_ready (hf : Fires s (.merge w) w e a b c) (ha : a.mark = .data) {k : Bool}
    (hk : (a.val.word != 0) = k) : e.inputReady w (if k then w.in1 else w.in0) = true := by
  subst hk
  have h := hf.adds rfl
  by_cases hword : a.val.word = 0 <;> simpa [Env.adds, ha, hword] using h

theorem Fires.merge_only (hf : Fires s (.merge w) w e a b c) : ∃ t, exec (.merge w) s = .next t ∧ OnlyFires s t e := by
  by_cases ha : a.mark = .data
  · exact ⟨_, hf.merge_data ha rfl, Env.takesInput_only hf.env (hf.merge_ready ha rfl)⟩
  · obtain ⟨t, hexec, -, hcompletes⟩ := hf.merge_marker ha
    exact ⟨t, hexec, hcompletes.only⟩

/-- `amerge` takes input 1: input 0 is not ready, or became ready later (R297). -/
def Env.takesSecond (e : Env) (w : CEWord) : Bool :=
  !(e.inputReady w w.in0 && (!e.inputReady w w.in1 || decide (e.inputSince w.in0 ≤ e.inputSince w.in1)))

theorem Fires.amerge_data (hf : Fires s (.amerge w) w e a b c) {k : Bool} (hk : e.takesSecond w = k) :
    exec (.amerge w) s =
      .next ((e.takesInput w [] (if k then w.in1 else w.in0) (if k then w.take1 else w.take0) k).run s) := by
  subst hk
  refine hf.runs ?_
  by_cases h : (e.inputReady w w.in0 &&
    (!e.inputReady w w.in1 || decide (e.inputSince w.in0 ≤ e.inputSince w.in1))) = true
  · simp [Env.takesSecond, h]
  · simp [Env.takesSecond, h]

theorem Fires.amerge_ready (hf : Fires s (.amerge w) w e a b c) {k : Bool} (hk : e.takesSecond w = k) :
    e.inputReady w (if k then w.in1 else w.in0) = true := by
  have h := hf.adds rfl
  simp only [Env.adds, Bool.or_eq_true] at h
  subst hk
  cases h0 : e.inputReady w w.in0
  · simpa [Env.takesSecond, h0] using h
  · cases h1 : e.inputReady w w.in1
    · simp [Env.takesSecond, h0, h1]
    · split <;> assumption

theorem Fires.amerge_only (hf : Fires s (.amerge w) w e a b c) :
    ∃ t, exec (.amerge w) s = .next t ∧ OnlyFires s t e :=
  ⟨_, hf.amerge_data rfl, Env.takesInput_only hf.env (hf.amerge_ready rfl)⟩

end

theorem selected_ne_other {k : Bool} {x y : Opnd} (h : x ≠ y) : (if k then y else x) ≠ if k then x else y := by
  cases k
  · exact h
  · exact h.symm

theorem selected_not_mem {k : Bool} {x y : Opnd} {l : List Opnd} (hx : x ∉ l) (hy : y ∉ l) :
    (if k then y else x) ∉ l := by
  cases k
  · exact hx
  · exact hy

/-- Settles O21: the input that the condition or the readiness selects reads, since the slot is enabled, and
`Env.takesInput_joins` says what becomes of both. -/
theorem mergeResults : Obligations.MergeResults := by
  intro s w e a b c x
  refine ⟨?only, fun hf => ⟨hf.merge_marker, fun ha => ?merge⟩, fun hf => ?amerge⟩
  case only =>
    simp only [List.forall_mem_cons, List.not_mem_nil, false_imp_iff, implies_true, and_true]
    exact ⟨Fires.merge_only, Fires.amerge_only⟩
  case merge =>
    intro hne h0 h1 hx
    exact ⟨_, hf.merge_data ha rfl, Env.takesInput_joins hf.env (selected_ne_other hne) (selected_not_mem h0 h1)
      (selected_not_mem h1 h0) hx rfl⟩
  case amerge =>
    intro r0 r1 o other take hne h0 h1 hx
    exact ⟨_, hf.amerge_data rfl, Env.takesInput_joins hf.env (selected_ne_other hne) (selected_not_mem h0 h1)
      (selected_not_mem h1 h0) hx rfl⟩

end Sys2Proof.Machine
end

section
/-!
The predicate operations (R302) and `rfclr` (R301).
-/
namespace Sys2Proof.Machine

/-! ### A result of data on every source -/

theorem FiresData.computes {s : State} {i : Instr} {w : CEWord} {e : Env} {a b c : Src} (hf : FiresData s i w e a b c)
    (f : Env → Val → Val → Val → Res) : ∃ t, fireRes i w f s = .next t ∧
      Yields t e w [a, b, c] (f e a.val b.val c.val) ∧ Completes s t e w := by
  obtain ⟨hyields, hkept, honly⟩ := Env.yields_spec hf.env w [a, b, c] (f e a.val b.val c.val)
  exact ⟨_, fireRes_next hf f, hyields, hyields.consumed, hkept, honly⟩

/-- A predicate operation gives the Boolean of its sources as a word (R302). -/
theorem FiresData.predicate {s : State} {i : Instr} {w : CEWord} {e : Env} {a b c : Src} (hf : FiresData s i w e a b c)
    {f : Bool → Bool → Bool} (hexec : ∀ s, exec i s = firePred i w f s) :
    ∃ t, exec i s = .next t ∧ Completes s t e w ∧
      Gives e t w (verOf [a, b, c]) (.scal (if f (a.val.word != 0) (b.val.word != 0) then 1 else 0)) := by
  obtain ⟨t, hnext, hyields, hcompletes⟩ := hf.computes fun _ a b _ =>
    { val := .scal (if f (a.word != 0) (b.word != 0) then 1 else 0) }
  exact ⟨t, (hexec s).trans hnext, hcompletes, hyields.delivered⟩

/-! ### `rfclr` -/

section
variable (c : Ce) (own : Lot) (now : Nat) (l : List Opnd) (m : BitVec 8)

/-- The registers of l and the predicates of m cleared. -/
def Ce.refireCleared (c : Ce) (own : Lot) (now : Nat) (l : List Opnd) (m : BitVec 8) : Ce :=
  let c1 := l.foldl (fun c o => c.clearReg own now o) c
  { c1 with p := c1.p &&& ~~~m }

theorem Ce.refireCleared_v (i : Fin 16) : (c.refireCleared own now l m).v.get {} i.val =
    if .v i ∈ l then { val := {}, ver := 0, pres := false, lot := own, since := now } else c.v.get {} i.val :=
  Ce.clearAll_v own now l c i

theorem Ce.refireCleared_s (i : Fin 16) : (c.refireCleared own now l m).s.get {} i.val =
    if .s i ∈ l then { val := 0, ver := 0, pres := false, lot := own, since := now } else c.s.get {} i.val :=
  Ce.clearAll_s own now l c i

theorem Ce.refireCleared_p : (c.refireCleared own now l m).p = c.p &&& ~~~m :=
  congrArg (· &&& ~~~m) (Ce.clearAll_keeps own now l c Ce.p fun _ o => by cases o <;> rfl)

theorem Ce.refireCleared_outs (o : Opnd) : (c.refireCleared own now l m).outList o = c.outList o := by
  have hkeeps := Ce.clearAll_keeps own now l c (fun c => c.outList o) fun _ x => by cases x <;> cases o <;> rfl
  exact Eq.trans (by cases o <;> rfl) hkeeps

end

theorem Ce.forward_p_ne (c : Ce) {dst : Opnd} (t : Stamp) (a : Src) {k : Fin 8} (h : dst ≠ .p k) :
    (c.forward dst t a).p.getLsbD k.val = c.p.getLsbD k.val := by
  by_cases ha : a.mark = .data
  · rw [Ce.forward, if_pos ha, Ce.write_p_ne _ _ _ _ h]
  · rw [(Ce.forward_marker_same c dst t ha).p]

/-- The CE after `rfclr`. -/
def Ce.refired (c : Ce) (own : Lot) (l : List Opnd) (w : CEWord) (t : Stamp) (a : Src) : Ce :=
  if w.sa.isChan then
    ((c.refireCleared own t.now l (w.imm.extractLsb' 8 8)).consume w).forward w.dst t a
  else (c.refireCleared own t.now l (w.imm.extractLsb' 8 8)).consume w

/-- A destination of `rfclr`: outputs or none (R301). -/
theorem dst_not_reg {dst : Opnd} (h : outsOf dst ≠ [] ∨ dst = .zero) : dst.isReg = false ∧ ∀ k, dst ≠ .p k := by
  cases dst <;> simp [outsOf, Opnd.isReg] at h ⊢

section
variable (c : Ce) (own : Lot) (l : List Opnd) {w : CEWord} (t : Stamp) (a : Src)
  (hdst : outsOf w.dst ≠ [] ∨ w.dst = .zero)
include hdst

theorem Ce.refired_forwards (hchan : w.sa.isChan = true) : Forwards c (c.refired own l w t a) w t a := by
  rw [Ce.refired, if_pos hchan]
  refine Ce.forward_forwards_of t (fun o => by rw [Ce.consume_outs, Ce.refireCleared_outs]) fun _ hreg => ?_
  rw [(dst_not_reg hdst).1] at hreg
  cases hreg

/-- Registers and predicates of the CE are those before the token is forwarded. -/
theorem Ce.refired_untaken {o : Opnd} (ho : o.isReg = true) :
    Untaken ((c.refireCleared own t.now l (w.imm.extractLsb' 8 8)).consume w) (c.refired own l w t a) o := by
  rw [Ce.refired]
  split
  · refine Ce.forward_untaken _ _ _ fun _ h => ?_
    rw [← h, (dst_not_reg hdst).1] at ho
    cases ho
  · exact .refl _ o

theorem Ce.refired_v {i : Fin 16} (hi : .v i ∈ l) : (c.refired own l w t a).v.get {} i.val =
    { val := {}, ver := 0, pres := false, lot := own, since := t.now } := by
  refine Eq.trans (Ce.refired_untaken c own l t a hdst (o := .v i) rfl) ?_
  rw [Ce.consume_v, Ce.refireCleared_v, if_pos hi]
  split <;> rfl

theorem Ce.refired_s {i : Fin 16} (hi : .s i ∈ l) : (c.refired own l w t a).s.get {} i.val =
    { val := 0, ver := 0, pres := false, lot := own, since := t.now } := by
  refine Eq.trans (Ce.refired_untaken c own l t a hdst (o := .s i) rfl) ?_
  rw [Ce.consume_s, Ce.refireCleared_s, if_pos hi]
  split <;> rfl

theorem Ce.refired_p (k : Fin 8) : (c.refired own l w t a).p.getLsbD k.val =
    (c.p.getLsbD k.val && !w.imm.getLsbD (8 + k.val)) := by
  have hcleared : ((c.refireCleared own t.now l (w.imm.extractLsb' 8 8)).consume w).p.getLsbD k.val =
      (c.p.getLsbD k.val && !w.imm.getLsbD (8 + k.val)) := by
    rw [Ce.consume_p, Ce.refireCleared_p]
    simp
  rw [Ce.refired, ← hcleared]
  split
  · exact Ce.forward_p_ne _ t a ((dst_not_reg hdst).2 k)
  · rfl

end

theorem Fires.rfclr {s : State} {w : CEWord} {e : Env} {a b c : Src} (hf : Fires s (.rfclr w) w e a b c) :
    exec (.rfclr w) s = .next ((e.done fun c =>
      c.refired e.own (e.spot.r.refireRegs e.spot.col e.spot.row) w (e.stamp w a.ver) a).run s) := fire_next hf _

/-- Settles O23: a predicate operation is a result of its sources; what `rfclr` clears stays cleared, since it delivers
to no register and no predicate. -/
theorem predicateResults : Obligations.PredicateResults := by
  refine ⟨?ops, ?rfclr⟩
  case ops =>
    intro op hop s w e a b c hf
    refine hf.predicate (f := op.2) fun s => ?_
    simp only [List.mem_cons, List.not_mem_nil, or_false] at hop
    rcases hop with rfl | rfl | rfl | rfl | rfl
    all_goals rfl
  case rfclr =>
    intro s w e a b c hf hdst
    obtain ⟨hs, -, -⟩ := State.env_spec hf.env
    refine ⟨_, hf.rfclr, Env.done_only hf.env _, fun hchan => ?_, fun k => ?_, fun o ho => ⟨?_, ?_⟩⟩
    · exact Env.done_forwards hf.env (Ce.refired_forwards _ _ _ _ a hdst hchan)
    · exact (Env.done_reads hf.env _ (fun c => c.p.getLsbD k.val) fun _ _ => rfl).trans (Ce.refired_p _ _ _ _ a hdst k)
    · rintro i rfl
      rw [← congrArg State.cycle hs]
      exact (Env.done_reads hf.env _ (fun c => c.v.get {} i.val) fun _ _ => rfl).trans (Ce.refired_v _ _ _ _ a hdst ho)
    · rintro i rfl
      rw [← congrArg State.cycle hs]
      exact (Env.done_reads hf.env _ (fun c => c.s.get {} i.val) fun _ _ => rfl).trans (Ce.refired_s _ _ _ _ a hdst ho)

end Sys2Proof.Machine
end

section
/-!
`halt`, `exit`, `trap` and `brk` (R148, R303-R306).
-/
namespace Sys2Proof.Machine

/-! ### `halt` -/

/-- The context ends and waits for nothing (R303, R305). -/
def Ce.halts (c : Ce) (ctx : Nat) : Ce := { c with halted := c.halted ||| (1#8 <<< ctx), waits := c.waits.erase ctx }

section
variable (c : Ce) (ctx : Nat)

theorem Ce.halts_halted {k : Nat} (hk : k < 8) : (c.halts ctx).halted.getLsbD k = (c.halted.getLsbD k || k == ctx) := by
  have hbit : (1#8 <<< ctx).getLsbD k = (k == ctx) := by
    rw [Bool.eq_iff_iff]
    simp [hk]
    omega
  rw [← hbit]
  exact BitVec.getLsbD_or

theorem Ce.halts_waits_same : (c.halts ctx).waits.get [] ctx = [] := by
  simp [Ce.halts, Store.get, Store.get?_erase_same]

theorem Ce.halts_waits_ne {k : Nat} (hk : k ≠ ctx) : (c.halts ctx).waits.get [] k = c.waits.get [] k := by
  simp [Ce.halts, Store.get, Store.get?_erase_ne _ hk]

end

section
variable {s : State} {w : CEWord} {e : Env} {a b c : Src}

theorem Fires.halt (hf : Fires s (.halt w) w e a b c) :
    exec (.halt w) s = .next ((e.done fun c => (c.consume w).halts e.ctx).run s) := fire_next hf _

/-! ### `exit` -/

theorem Fires.exit (hf : Fires s (.exit w) w e a b c) : exec (.exit w) s =
    .next ((Act.onRegion e.spot.h fun r => { r with exitAt := some (r.exitAt.getD (e.id, e.s.cycle)) }).run
      ((e.done fun c => c.consume w).run s)) := fire_next hf _

/-- A firing leaves the exit of its region as it is. -/
theorem Env.done_exitAt {s : State} {e : Env} (f : Ce → Ce) {r : Region} (hr : s.regions.get? e.spot.h = some r) :
    ∃ r', ((e.done f).run s).regions.get? e.spot.h = some r' ∧ r'.exitAt = r.exitAt := by
  simp only [Env.done, Act.fired, Act.run_block_cons, Act.run_block_nil, Act.run_onCell]
  rw [Act.run_onRegion_some (r := r)]
  · refine ⟨_, Store.get?_put_same _ _ _, ?_⟩
    split <;> rfl
  · exact hr

theorem Act.onRegion_regions_ne (s : State) (f : Region → Region) {h k : Word} (hk : k ≠ h) :
    ((Act.onRegion h f).run s).regions.get? k = s.regions.get? k := by
  cases hr : s.regions.get? h with
  | none => rw [Act.run_onRegion_none _ _ _ hr]
  | some r =>
    rw [Act.run_onRegion_some _ _ _ hr]
    exact Store.get?_put_ne _ _ hk

/-! ### `trap` and `brk` -/

/-- An instruction that raises a fault freezes its region, unless STEPOVER has suppressed the fault (R148, R306). -/
theorem Fires.traps {i : Instr} (hf : Fires s i w e a b c) {code : Nat}
    (hexec : ∀ s, exec i s = fire i w (fun e _ _ _ => e.traps w code) s) :
    (e.suppress ≠ some code → NotShut s e → ∃ t, exec i s = .next t ∧ Freezes s t e code) ∧
      (e.suppress = some code → ∃ t, exec i s = .next t ∧ Completes s t e (noDst w)) :=
  ⟨fun h hshut => ⟨_, (hexec s).trans (hf.runs (if_neg h)), Env.fault_freezes hf.env w code hshut⟩,
    fun h => ⟨_, (hexec s).trans (hf.runs (if_pos h)), Env.done_consumes hf.env w⟩⟩

end

/-- Settles O24: each of them consumes its operands and marks its end, or raises its fault. -/
theorem endsAndTraps : Obligations.EndsAndTraps := by
  intro s w e a b c
  refine ⟨fun hf => ?halt, fun hf => ?exit, ?traps⟩
  case halt =>
    refine ⟨_, hf.halt, Env.done_only hf.env _, Env.done_consumed hf.env ?_, fun k hk => ?_, ?_, fun k hk => ?_⟩
    · obtain ⟨hvi, hsi, hci, hv, hs⟩ := Ce.consume_consumed e.c.ce w
      exact ⟨hvi, hsi, hci, hv, hs⟩
    · rw [← Ce.consume_halted e.c.ce w]
      exact (Env.done_reads hf.env _ (fun c => c.halted.getLsbD k) fun _ _ => rfl).trans (Ce.halts_halted _ _ hk)
    · exact (Env.done_reads hf.env _ (fun c => c.waits.get [] e.ctx) fun _ _ => rfl).trans (Ce.halts_waits_same _ _)
    · rw [← Ce.consume_waits e.c.ce w]
      exact (Env.done_reads hf.env _ (fun c => c.waits.get [] k) fun _ _ => rfl).trans (Ce.halts_waits_ne _ _ hk)
  case exit =>
    obtain ⟨hs, -, hsome⟩ := State.env_spec hf.env
    obtain ⟨r, hr⟩ := Option.isSome_iff_exists.mp hsome
    obtain ⟨r', hr', hexit⟩ := Env.done_exitAt (fun c => c.consume w) hr
    have hconsumed := Env.done_consumed hf.env (f := fun c => c.consume w) (Ce.consume_consumed e.c.ce w)
    have honly := Env.done_only hf.env fun c => c.consume w
    refine ⟨_, { r' with exitAt := some (r'.exitAt.getD (e.id, e.s.cycle)) }, hf.exit, ?_, ?_, ?_, ?_, ?_, ?_⟩
    · rw [Env.ceIn, Act.onRegion_cells]
      exact hconsumed
    · rw [Act.run_onRegion_some _ _ _ hr']
      exact Store.get?_put_same _ _ _
    · rw [hexit, hr, hs]
      rfl
    · have hdone := honly.rest
      generalize (e.done fun c => c.consume w).run s = u at hdone ⊢
      rw [Act.onRegion_cells, Act.onRegion_rest u, hdone]
    · intro k hk
      rw [Act.onRegion_cells]
      exact honly.cells k hk
    · intro h hh
      rw [Act.onRegion_regions_ne _ _ hh]
      exact honly.regions h hh
  case traps =>
    simp only [List.forall_mem_cons, List.not_mem_nil, false_imp_iff, implies_true, and_true]
    exact ⟨fun hf => hf.traps fun _ => rfl, fun hf => hf.traps fun _ => rfl⟩

end Sys2Proof.Machine
end

section
/-!
`teamid`, `clkrd` and `press.test` (R307, R311, R369).
-/
namespace Sys2Proof.Machine

theorem Env.teamValue_of_launch {e : Env} {l : Launch} (hl : e.launch = some l) (k : Nat) {kind : Nat}
    (hkind : kind < 4) : e.teamValue k kind = if k < l.levels then
        [l.coord e.spot.r.inst k, l.teamNo e.spot.r.inst k, l.teams k, l.fanout k].getD kind 0
      else if kind < 2 then 0 else 1 := by
  unfold Env.teamValue
  rw [hl]
  match kind, hkind with
  | 0, _ | 1, _ | 2, _ | 3, _ => rfl

theorem low_ofNat (n : Nat) : (BitVec.ofNat 64 n).extractLsb' 0 32 = BitVec.ofNat 32 n :=
  (BitVec.setWidth_eq_extractLsb' (by decide)).symm.trans (BitVec.setWidth_ofNat_of_le (by decide) n)

/-- Settles O39: each of them is a result of the firing's surroundings. -/
theorem teamAndClockResults : Obligations.TeamAndClockResults := by
  intro s w e a b c
  refine ⟨fun hf => ?teamid, fun hf => ?clkrd, fun hf => ?pressTest⟩
  case teamid =>
    intro k kind l hl
    obtain ⟨t, hexec, hyields, -⟩ := hf.computes fun e _ _ _ =>
      { val := .scal (BitVec.ofNat 32 (e.teamValue (w.immBits 8 3) (w.immBits 16 2))) }
    refine ⟨t, hexec, ?_⟩
    rw [← Env.teamValue_of_launch hl k (kind := kind) (w.imm.extractLsb' 16 2).isLt]
    exact hyields.delivered
  case clkrd =>
    obtain ⟨hs, -, -⟩ := State.env_spec hf.env
    obtain ⟨t, hexec, hyields, -⟩ := hf.computes fun e _ _ _ =>
      let n := BitVec.ofNat 64 (e.s.partCycle e.part)
      if w.dst.isVecDst then { val := .vec { data := BitVec.ofNat 512 n.toNat, mask := 3 } }
      else { val := .scal (n.extractLsb' 0 32) }
    refine ⟨t, hexec, ?_⟩
    have hgives := hyields.delivered
    simp only [hs, BitVec.toNat_ofNat, low_ofNat] at hgives
    split at hgives
    next hvec => rwa [if_pos hvec]
    next hscal => rwa [if_neg hscal]
  case pressTest =>
    obtain ⟨hs, -, -⟩ := State.env_spec hf.env
    obtain ⟨t, hexec, hyields, -⟩ := hf.computes fun e _ _ _ =>
      { val := .scal (if e.s.pressed e.spot.r then 1 else 0), pred := e.s.pressed e.spot.r }
    rw [hs] at hyields
    exact ⟨t, hexec, hyields.pset, hyields.delivered⟩

end Sys2Proof.Machine
end
